-- ==== Sys2Proof/Word.lean ====
section
/-! DEFINITION. The word types of the Finyel F9 (00 R2 to R5) and the sparse table that holds every
numbered thing of the machine. -/
namespace Sys2Proof

/-- One byte (R4). -/
abbrev Byte := BitVec 8
/-- A syllable or a 32-bit element. -/
abbrev Word32 := BitVec 32
/-- A scalar register, an e-register, an h-register, a CSR or an address (R23). -/
abbrev Word64 := BitVec 64
/-- A vector register (R23). Element i of width w is bits [w·(i+1)−1 : w·i] (R5). -/
abbrev Vec := BitVec 1024
/-- A predicate register, one bit for each byte of a vector; also a byte-enable mask (R23, R25). -/
abbrev Pred := BitVec 128
/-- The sticky flags NV, DZ, OF, UF, NX, AOV at bits 0 to 5 (R112). -/
abbrev Flags := BitVec 6

/-- A sparse table from numbers to values: the entries in rising order of number, none of them equal to
what an unlisted number reads as, so that equal tables are equal lists. -/
abbrev Tab (α : Type) := List (Nat × α)

end Sys2Proof
end

