-- ==== Sys2Proof/Machine/Tab.lean ====
section
/-! DEFINITION. Reading and writing sparse tables, and the bit-field helpers that every part of the
model uses (R3, R5). -/
namespace Sys2Proof

namespace Tab
variable {α : Type}

/-- The value at number `k`; `d` where nothing is listed. -/
def get (d : α) : Tab α → Nat → α
  | [], _ => d
  | (j, x) :: t, k => if j = k then x else get d t k

/-- The table without number `k`. -/
def drop : Tab α → Nat → Tab α
  | [], _ => []
  | (j, x) :: t, k => if j = k then t else (j, x) :: drop t k

/-- The table with `x` at number `k`, in rising order. -/
def insert : Tab α → Nat → α → Tab α
  | [], k, x => [(k, x)]
  | (j, y) :: t, k, x =>
    if j < k then (j, y) :: insert t k x
    else if j = k then (k, x) :: t
    else (k, x) :: (j, y) :: t

/-- Writing `x` at `k`; writing what an unlisted number reads as removes the entry. -/
def set [DecidableEq α] (d : α) (t : Tab α) (k : Nat) (x : α) : Tab α :=
  if x = d then drop t k else insert t k x

/-- Changing the value at `k`. -/
def upd [DecidableEq α] (d : α) (t : Tab α) (k : Nat) (f : α → α) : Tab α :=
  set d t k (f (get d t k))

/-- The canonical form: numbers strictly rising, no entry equal to the default. -/
def wf [DecidableEq α] (d : α) : Tab α → Bool
  | [] => true
  | (_, x) :: [] => x ≠ d
  | (j, x) :: (k, y) :: t => j < k && x ≠ d && wf d ((k, y) :: t)

end Tab

/-- Bits [hi:lo] of a number (R3). -/
def bits (w hi lo : Nat) : Nat := w / 2 ^ lo % 2 ^ (hi + 1 - lo)

/-- Bit `k` of a number. -/
def bitAt (w k : Nat) : Bool := w / 2 ^ k % 2 == 1

/-- The signed value of a `w`-bit pattern. -/
def toSigned (w x : Nat) : Int := if 2 * (x % 2 ^ w) < 2 ^ w then (x % 2 ^ w : Nat) else (x % 2 ^ w : Nat) - (2 ^ w : Nat)

/-- The `w`-bit pattern of an integer, modulo 2^w. -/
def ofSigned (w : Nat) (x : Int) : Nat := (x % (2 ^ w : Nat)).toNat

/-- A pattern of `n` bits sign-extended to `w` bits. -/
def signExtend (n w x : Nat) : Nat := ofSigned w (toSigned n x)

/-- Element i of width w (R5). -/
def lane (x i w : Nat) : Nat := x / 2 ^ (w * i) % 2 ^ w

/-- The `n` elements of width `w` of a value, lane 0 first. -/
def lanesFrom (x w : Nat) : Nat → Nat → List Nat
  | 0, _ => []
  | n + 1, i => lane x i w :: lanesFrom x w n (i + 1)

/-- The `n` elements of width `w` of a value, lane 0 first. -/
def lanes (x w n : Nat) : List Nat := lanesFrom x w n 0

/-- The value whose elements of width `w` are the list, lane 0 first. -/
def ofLanes (w : Nat) : List Nat → Nat
  | [] => 0
  | x :: xs => x % 2 ^ w + 2 ^ w * ofLanes w xs

/-- The 8-bits-for-1 expansion of the low `n` bits of a byte mask, from byte `i` on. -/
def expandFrom (m : Nat) : Nat → Nat → Nat
  | 0, _ => 0
  | n + 1, i => (if bitAt m i then 255 * 2 ^ (8 * i) else 0) + expandFrom m n (i + 1)

/-- The bits that a byte mask of `n` bytes covers. -/
def expandMask (n m : Nat) : Nat := expandFrom m n 0

/-- A mask of `n` ones. -/
def ones (n : Nat) : Nat := 2 ^ n - 1

/-- The bytes of `new` where the byte mask is set and of `old` elsewhere, over `n` bytes. -/
def mergeBytes (n m old new : Nat) : Nat :=
  let k := expandMask n m
  (new &&& k) + (old &&& (ones (8 * n) ^^^ k))

/-- The little-endian bytes of a number, `n` of them (R4). -/
def bytesOf : Nat → Nat → List Byte
  | 0, _ => []
  | n + 1, x => BitVec.ofNat 8 x :: bytesOf n (x / 256)

/-- The number that little-endian bytes make (R4). -/
def ofBytes : List Byte → Nat
  | [] => 0
  | b :: bs => b.toNat + 256 * ofBytes bs

/-- The numbers from `a` on, `n` of them. -/
def upFrom (a : Nat) : Nat → List Nat
  | 0 => []
  | n + 1 => a :: upFrom (a + 1) n

/-! ### Bytes of memory -/

/-- What a byte that nothing has written reads as (log entries 3 and 4): the spec gives DRAM and scratchpad no contents
after reset. -/
def unlistedByte : Byte := 0

/-- The byte at an address. -/
def Memory.read (m : Tab Byte) (a : Nat) : Byte := Tab.get unlistedByte m a
/-- The memory with a byte written. -/
def Memory.write (m : Tab Byte) (a : Nat) (b : Byte) : Tab Byte := Tab.set unlistedByte m a b
/-- The canonical form of a memory: addresses strictly rising, no entry equal to an unlisted byte. -/
def Memory.wf (m : Tab Byte) : Bool := Tab.wf unlistedByte m
/-- `n` bytes from an address on. -/
def Memory.readN (m : Tab Byte) (a n : Nat) : List Byte := (List.range n).map fun k => Memory.read m (a + k)
/-- The memory with the bytes of a list written, in order. -/
def Memory.writeAll (m : Tab Byte) : List (Nat × Byte) → Tab Byte
  | [] => m
  | (a, b) :: t => Memory.writeAll (Memory.write m a b) t

end Sys2Proof
end

