-- ==== Sys2Proof/Syntax.lean ====
section
/-! DEFINITION. The instructions: one constructor for each row of the opcode table. The first 111 are
the syllables of 04 R75 to R89; the other 85 are the steps that the part takes without a syllable. A field
keeps every value that decodes (R90): a value that only raises the illegal-operand trap is still a term. -/
namespace Sys2Proof

/-- The width of a vector operation (R81 W). -/
inductive Width | w256 | w512 | w1024
  deriving DecidableEq, Repr
/-- The element size of a vector operation (R81 SZ). -/
inductive ESize | b8 | b16 | b32 | b64
  deriving DecidableEq, Repr
/-- The format of a vector float operation (R81 FMT). -/
inductive FFmt | fp32 | bf16 | e4m3 | e5m2
  deriving DecidableEq, Repr
/-- The format codes of CVT (R83). -/
inductive CFmt | fp32 | bf16 | e4m3 | e5m2 | int8 | int32 | ply16 | ply4
  deriving DecidableEq, Repr
/-- Integer conditions (R78, R82). -/
inductive Cond | eq | ne | lt | ge | ltu | geu | le | gt
  deriving DecidableEq, Repr
/-- Float conditions (R82). -/
inductive FCond | eq | ne | lt | le | gt | ge | un | or
  deriving DecidableEq, Repr
/-- Rounding sources (R83 RND). -/
inductive Rnd | frm | rz | srn | srq
  deriving DecidableEq, Repr
/-- Access sizes (R84 mod). -/
inductive ASize | byte | half | word | dword | v256 | v512 | v1024
  deriving DecidableEq, Repr
/-- Element sizes of QPUSH (R85): 8, 16 and 32 bits. -/
inductive QSize | q8 | q16 | q32
  deriving DecidableEq, Repr
/-- Operations of ATOM (R85). -/
inductive AtomOp | add | min | max | xchg | and | or | fadd32 | load
  deriving DecidableEq, Repr
/-- Barrier scopes (R36). -/
inductive BScope | nb | cl | pt
  deriving DecidableEq, Repr
/-- Publication scopes (R36). -/
inductive PScope | none | cluster | device | system
  deriving DecidableEq, Repr

/-- A queue packet (R254): the header dword and the body dwords. -/
structure Packet where
  hdr  : Word64
  body : List Word64
  deriving DecidableEq, Repr

/-- What a peer's access over the fabric does (R146). -/
inductive FabricOp
  | load | store | atomic (op : AtomOp) (word32 : Bool) | cas (word32 : Bool)
  /-- The tagged write of an STQ, and that of a line of an EREDUCE with its reduction and format (10 R175, 12 R195). -/
  | tagged (tag : Nat) | reduce (rop fmt tag : Nat)
  deriving DecidableEq, Repr

/-- An access that arrives over the fabric for partition PART of this device (R146): the virtual address,
the bytes asked for, the bytes stored or the operands, and who sent it. -/
structure FabricReq where
  src   : Nat
  part  : Nat
  /-- VPIN of the context that issued it (R211). -/
  ver   : Nat
  va    : Nat
  len   : Nat
  op    : FabricOp
  bytes : List Byte
  deriving DecidableEq, Repr

/-- Who commands a partition through its control block (16 R232): its owner, or the partition's own firmware. -/
structure Commander where
  part  : Nat
  owner : Bool
  deriving DecidableEq, Repr

/-- A name for each row of spec/opcode_table.json. In the syllables `g` is the guard; the other letters are
the fields of the row. In the events `c` numbers a hardware context as 2·PCORE + context, `p` a
partition, `q` a queue, and `n` an entry of the list that the event serves. -/
inductive Instr
  -- class 1 (R77, R78)
  | add (g : BitVec 3) (d a b : BitVec 6) (i : Bool)
  | sub (g : BitVec 3) (d a b : BitVec 6) (i : Bool)
  | mul (g : BitVec 3) (d a b : BitVec 6) (i : Bool)
  | mulh (g : BitVec 3) (d a b : BitVec 6) (i : Bool)
  | mulhu (g : BitVec 3) (d a b : BitVec 6) (i : Bool)
  | div (g : BitVec 3) (d a b : BitVec 6) (i : Bool)
  | rem (g : BitVec 3) (d a b : BitVec 6) (i : Bool)
  | and (g : BitVec 3) (d a b : BitVec 6) (i : Bool)
  | or (g : BitVec 3) (d a b : BitVec 6) (i : Bool)
  | xor (g : BitVec 3) (d a b : BitVec 6) (i : Bool)
  | shl (g : BitVec 3) (d a b : BitVec 6) (i : Bool)
  | shr (g : BitVec 3) (d a b : BitVec 6) (i : Bool)
  | sra (g : BitVec 3) (d a b : BitVec 6) (i : Bool)
  | min (g : BitVec 3) (d a b : BitVec 6) (i : Bool)
  | max (g : BitVec 3) (d a b : BitVec 6) (i : Bool)
  | mov (g : BitVec 3) (d a b : BitVec 6) (i : Bool)
  | sel (g : BitVec 3) (d a b : BitVec 6) (i : Bool)
  | li (g : BitVec 3) (d : BitVec 6) (imm : BitVec 13)
  | mve (g : BitVec 3) (d a b : BitVec 6) (i : Bool)
  | mfe (g : BitVec 3) (d a b : BitVec 6) (i : Bool)
  | cmp (g : BitVec 3) (cond : Cond) (d a b : BitVec 6) (i : Bool)
  -- class 2 (R79)
  | nop (g : BitVec 3)
  | br (g : BitVec 3) (off : BitVec 20)
  | jmp (g : BitVec 3) (a : BitVec 6)
  | call (g : BitVec 3) (off : BitVec 19)
  | callReg (g : BitVec 3) (a : BitVec 6)
  | ret (g : BitVec 3)
  | loop (g : BitVec 3) (lvl : Fin 6) (len : BitVec 4) (cnt : BitVec 6)
  | flip (g : BitVec 3) (bar : BScope) (pub : PScope)
  | retire (g : BitVec 3)
  | trap (g : BitVec 3) (imm : BitVec 8)
  | bkpt (g : BitVec 3) (imm : BitVec 8)
  | reth (g : BitVec 3)
  -- class 3 (R81, R82)
  | vadd (g : BitVec 3) (w : Width) (z : ESize) (u : Bool) (d a b : BitVec 5)
  | vsub (g : BitVec 3) (w : Width) (z : ESize) (u : Bool) (d a b : BitVec 5)
  | vmul (g : BitVec 3) (w : Width) (z : ESize) (u : Bool) (d a b : BitVec 5)
  | vmulh (g : BitVec 3) (w : Width) (z : ESize) (u : Bool) (d a b : BitVec 5)
  | vand (g : BitVec 3) (w : Width) (z : ESize) (u : Bool) (d a b : BitVec 5)
  | vor (g : BitVec 3) (w : Width) (z : ESize) (u : Bool) (d a b : BitVec 5)
  | vxor (g : BitVec 3) (w : Width) (z : ESize) (u : Bool) (d a b : BitVec 5)
  | vshl (g : BitVec 3) (w : Width) (z : ESize) (u : Bool) (d a b : BitVec 5)
  | vshr (g : BitVec 3) (w : Width) (z : ESize) (u : Bool) (d a b : BitVec 5)
  | vsra (g : BitVec 3) (w : Width) (z : ESize) (u : Bool) (d a b : BitVec 5)
  | vmin (g : BitVec 3) (w : Width) (z : ESize) (u : Bool) (d a b : BitVec 5)
  | vmax (g : BitVec 3) (w : Width) (z : ESize) (u : Bool) (d a b : BitVec 5)
  | vabs (g : BitVec 3) (w : Width) (z : ESize) (u : Bool) (d a : BitVec 5)
  | vsel (g : BitVec 3) (w : Width) (z : ESize) (u : Bool) (d a b : BitVec 5)
  | vcnt (g : BitVec 3) (w : Width) (z : ESize) (u : Bool) (d a : BitVec 5)
  | vredi (g : BitVec 3) (w : Width) (z : ESize) (u : Bool) (d a sel : BitVec 5)
  | vcmp (g : BitVec 3) (cond : Cond) (w : Width) (z : ESize) (u : Bool) (d : BitVec 3) (a b : BitVec 5)
  -- class 4 (R81, R82)
  | fadd (g : BitVec 3) (w : Width) (f : FFmt) (sat : Bool) (d a b : BitVec 5)
  | fsub (g : BitVec 3) (w : Width) (f : FFmt) (sat : Bool) (d a b : BitVec 5)
  | fmul (g : BitVec 3) (w : Width) (f : FFmt) (sat : Bool) (d a b : BitVec 5)
  | fma (g : BitVec 3) (w : Width) (f : FFmt) (sat : Bool) (d a b : BitVec 5)
  | fmin (g : BitVec 3) (w : Width) (f : FFmt) (sat : Bool) (d a b : BitVec 5)
  | fmax (g : BitVec 3) (w : Width) (f : FFmt) (sat : Bool) (d a b : BitVec 5)
  | fabs (g : BitVec 3) (w : Width) (f : FFmt) (sat : Bool) (d a : BitVec 5)
  | fneg (g : BitVec 3) (w : Width) (f : FFmt) (sat : Bool) (d a : BitVec 5)
  | fred (g : BitVec 3) (w : Width) (f : FFmt) (sat : Bool) (d a sel : BitVec 5)
  | fsca (g : BitVec 3) (w : Width) (f : FFmt) (sat : Bool) (d a b : BitVec 5)
  | fcmp (g : BitVec 3) (cond : FCond) (w : Width) (f : FFmt) (sat : Bool) (d : BitVec 3) (a b : BitVec 5)
  -- class 5 (R83)
  | cvt (g : BitVec 3) (w : Width) (src : CFmt) (d a : BitVec 5) (dst : CFmt) (rnd : Rnd)
  | qnt (g : BitVec 3) (w : Width) (mode : BitVec 2) (d a : BitVec 5) (rnd : Rnd)
  | dqnt (g : BitVec 3) (w : Width) (mode : BitVec 2) (d a : BitVec 5)
  | vperm (g : BitVec 3) (w : Width) (z : ESize) (d a b : BitVec 5)
  | vbcast (g : BitVec 3) (w : Width) (z : ESize) (k : Bool) (d a : BitVec 5)
  | vseq (g : BitVec 3) (w : Width) (z : ESize) (d a b : BitVec 5)
  | visect (g : BitVec 3) (w : Width) (z : ESize) (d a b : BitVec 5)
  | vmovp (g : BitVec 3) (w : Width) (toPred : Bool) (d a : BitVec 5)
  | rngc (g : BitVec 3) (w : Width) (z : ESize) (d a b : BitVec 5)
  | vext (g : BitVec 3) (w : Width) (z : ESize) (d a b : BitVec 5)
  | vins (g : BitVec 3) (w : Width) (z : ESize) (d a b : BitVec 5)
  -- class 6 (R82)
  | fexp2 (g : BitVec 3) (w : Width) (f : FFmt) (d a : BitVec 5)
  | flog2 (g : BitVec 3) (w : Width) (f : FFmt) (d a : BitVec 5)
  | frcp (g : BitVec 3) (w : Width) (f : FFmt) (d a : BitVec 5)
  | frsq (g : BitVec 3) (w : Width) (f : FFmt) (d a : BitVec 5)
  | fsqrt (g : BitVec 3) (w : Width) (f : FFmt) (d a : BitVec 5)
  | fdiv (g : BitVec 3) (w : Width) (f : FFmt) (d a b : BitVec 5)
  -- class 7 (R84, R85)
  | ld (g : BitVec 3) (d base imm : BitVec 6) (m : ASize)
  | lds (g : BitVec 3) (d base imm : BitVec 6) (m : ASize)
  | ldr (g : BitVec 3) (d base imm : BitVec 6) (m : ASize)
  | ldp (g : BitVec 3) (d base : BitVec 6) (win : BitVec 2) (off : BitVec 4) (plies : BitVec 2) (round : Bool)
  | pf (g : BitVec 3) (base imm : BitVec 6) (cluster : Bool)
  | qpop (g : BitVec 3) (d : BitVec 6) (m : ASize)
  -- class 8 (R84, R85)
  | st (g : BitVec 3) (d base imm : BitVec 6) (m : ASize)
  | sts (g : BitVec 3) (d base imm : BitVec 6) (m : ASize)
  | stp (g : BitVec 3) (d base : BitVec 6) (win : BitVec 2) (off : BitVec 4) (plies : BitVec 2)
  | stq (g : BitVec 3) (d base tag : BitVec 6) (m : ASize)
  | atom (g : BitVec 3) (d base old : BitVec 6) (op : AtomOp)
  | acas (g : BitVec 3) (d base old : BitVec 6) (dword : Bool)
  | pacc (g : BitVec 3) (d base : BitVec 6) (win : BitVec 2) (off : BitVec 4) (sr : Bool)
  | pdec (g : BitVec 3) (d base : BitVec 6) (win : BitVec 2) (off : BitVec 4) (sr : Bool)
  | qpush (g : BitVec 3) (d : BitVec 6) (z : QSize)
  | stk (g : BitVec 3) (d base imm : BitVec 6)
  -- class 9 (R86)
  | xcfg (g : BitVec 3) (bank : Bool) (pa pb : BitVec 2) (dexp : BitVec 8)
  | xpush (g : BitVec 3)
  | xacc (g : BitVec 3) (bank : Bool)
  | xshift (g : BitVec 3) (bank : Bool)
  | xdrain (g : BitVec 3) (bank : Bool)
  -- class 10 (R87, R190)
  | ecopy (g : BitVec 3) (base : BitVec 5) (cv ev hv : Bool) (nl : BitVec 3) (z : ESize) (evc : BitVec 8)
  | egather (g : BitVec 3) (base : BitVec 5) (cv ev x : Bool) (z : ESize) (evc : BitVec 8)
  | ereduce (g : BitVec 3) (base : BitVec 5) (cv ev : Bool) (rop fmt : BitVec 2) (evc : BitVec 8)
  | epage (g : BitVec 3) (base : BitVec 5) (cv ev dir : Bool) (k slot : BitVec 2) (dict : Bool) (evc : BitVec 8)
  | edict (g : BitVec 3) (base : BitVec 5) (cv ev : Bool) (slot : BitVec 2) (evc : BitVec 8)
  -- class 11 (R88, R89)
  | csrr (g : BitVec 3) (d : BitVec 6) (csr : BitVec 13)
  | csrw (g : BitVec 3) (src : BitVec 6) (csr : BitVec 13)
  | flags (g : BitVec 3) (d : BitVec 6) (clear : Bool) (slot : BitVec 4)
  | versw (g : BitVec 3)
  | verswNamed (g : BitVec 3) (src : BitVec 6)
  | verpub (g : BitVec 3) (d : BitVec 6)
  | qarm (g : BitVec 3) (port : BitVec 3) (base : BitVec 5)
  -- the steps without a syllable
  | variableResultLand (c n : Nat)
  | lateFaultReport (c : Nat)
  | verpubStep (n : Nat)
  | verswStep (n : Nat)
  | translationWalkComplete (n : Nat)
  | walkerStart (cluster : Nat)
  | flipRelease (c : Nat)
  | flipExchange (c : Nat)
  | taskStart (c : Nat)
  | contextFree (c : Nat)
  | handlerEntry (c : Nat)
  | packetArrival (pk : Packet)
  | launch (p q : Nat)
  | kernelDispatch (p : Nat)
  | contextStart (c : Nat)
  | copy (p q : Nat)
  | copyComplete (p q : Nat)
  | depEvent (p q : Nat)
  | depPageSet (p q : Nat)
  | depComplete (p q : Nat)
  | signal (p q : Nat)
  | setdetQueue (p q : Nat)
  | setdetPartition (p q : Nat)
  | setdetComplete (p q : Nat)
  | publish (p q : Nat)
  | captureStart (p q : Nat)
  | captureStop (p q : Nat)
  | captureResume (p q : Nat)
  | capturePageWrite (region : Nat)
  | markOn (p q : Nat)
  | markOff (p q : Nat)
  | markDecl (p q : Nat)
  | markSnap (p q : Nat)
  | markMode (p q : Nat)
  | resync (pk : Packet)
  | ownerClaim (pk : Packet)
  | ownerHandover (pk : Packet)
  | ownerRenew (pk : Packet)
  | ownerRelease (pk : Packet)
  | electionClose
  | leaseExpiry
  | engineChunkPerform (n : Nat)
  | engineComplete (n : Nat)
  | taggedWriteArrive (n : Nat)
  | heldWriteTimeout (n : Nat)
  | replacementWriteback (cluster line : Nat)
  | randomWordFill (c : Nat)
  | portOperandFetch (c port : Nat)
  | watchdogPreempt (p q : Nat)
  | watchdogKill (p q : Nat)
  | watchdogFence (p q : Nat)
  | preemption (c : Nat)
  | contextRestore (c : Nat)
  | faultRecordWrite (c : Nat)
  | ctxcmdResume (b : Commander) (c : Nat)
  | ctxcmdKill (b : Commander) (c : Nat)
  | ctxcmdPreempt (b : Commander) (c : Nat)
  | qctlResume (b : Commander) (q : Nat)
  | qctlDiscardHead (b : Commander) (q : Nat)
  | qctlDiscardAll (b : Commander) (q : Nat)
  | tlbinv (p : Nat) (v : Word64)
  | tlbinvComplete (p : Nat)
  | vlendWrite (pcore : Nat) (v : Word64)
  | brkaWrite (c n : Nat) (v : Word64)
  | monitorWrite (p n : Nat) (d0 d1 : Word64)
  | monitorFailure (p n : Nat)
  | dumpComplete (p : Nat)
  | dumpEngineFault (p : Nat)
  | rerunCompare (p : Nat)
  | registerWrite (block reg : Nat) (v : Word64)
  | partitionFirmwareUpdate (p : Nat) (image : List Byte)
  | vaultRetraining (vault : Nat)
  | fabricPortRetraining (port : Nat)
  | partitionReconfiguration (p x y w h pbase : Nat)
  | clusterRetirement (k : Nat)
  | securityAlarm (cause : Nat)
  | deviceReset
  | powerLimit
  | atomicPerform (n : Nat)
  | fabricGlobalAccess (r : FabricReq)
  | portOperandAvailable (c port : Nat)
  | powerBelowLimit
  | liveServiceOperationComplete (n : Nat)
  | monitorRelationHolds (p n : Nat)
  | ringTailAdvance (p : Nat) (log : Bool) (v : Word64)
  deriving DecidableEq, Repr

end Sys2Proof
end

