-- ==== Sys2Proof/Decode.lean ====
section
/-! DEFINITION. Decoding a syllable, total on every 32-bit word and refusing by name (04 R65 to R90), and the
encoder written from the same tables. -/
namespace Sys2Proof

/-- Why a word is no operation syllable: a header or a link, which is structural (R65, R67), or one of the rows of
R90, which raise the illegal-syllable trap. -/
inductive Reject
  | header
  | link
  | reservedClass
  | unassignedOp
  | reservedValue
  | nonZeroField
  deriving DecidableEq, Repr

namespace Decode

/-- R81 W. -/
def width : Nat → Option Width
  | 0 => some .w256 | 1 => some .w512 | 2 => some .w1024 | _ => none
/-- R81 SZ, R190 ESZ. -/
def esize : Nat → ESize
  | 0 => .b8 | 1 => .b16 | 2 => .b32 | _ => .b64
/-- R81 FMT. -/
def ffmt : Nat → FFmt
  | 0 => .fp32 | 1 => .bf16 | 2 => .e4m3 | _ => .e5m2
/-- R83 format codes. -/
def cfmt : Nat → CFmt
  | 0 => .fp32 | 1 => .bf16 | 2 => .e4m3 | 3 => .e5m2 | 4 => .int8 | 5 => .int32 | 6 => .ply16 | _ => .ply4
/-- R78, R82 integer conditions. -/
def cond : Nat → Cond
  | 0 => .eq | 1 => .ne | 2 => .lt | 3 => .ge | 4 => .ltu | 5 => .geu | 6 => .le | _ => .gt
/-- R82 float conditions. -/
def fcond : Nat → FCond
  | 0 => .eq | 1 => .ne | 2 => .lt | 3 => .le | 4 => .gt | 5 => .ge | 6 => .un | _ => .or
/-- R83 RND. -/
def rnd : Nat → Rnd
  | 0 => .frm | 1 => .rz | 2 => .srn | _ => .srq
/-- R84 sizes. -/
def asize : Nat → Option ASize
  | 0 => some .byte | 1 => some .half | 2 => some .word | 3 => some .dword
  | 4 => some .v256 | 5 => some .v512 | 6 => some .v1024 | _ => none
/-- R85 ATOM mod. -/
def atomOp : Nat → AtomOp
  | 0 => .add | 1 => .min | 2 => .max | 3 => .xchg | 4 => .and | 5 => .or | 6 => .fadd32 | _ => .load
/-- R36 BSCOPE. -/
def bscope : Nat → Option BScope
  | 0 => some .nb | 1 => some .cl | 2 => some .pt | _ => none
/-- R36 publication scope. -/
def pscope : Nat → PScope
  | 0 => .none | 1 => .cluster | 2 => .device | _ => .system
/-- R79 LOOP level. -/
def level (n : Nat) : Option (Fin 6) := if h : n < 6 then some ⟨n, h⟩ else none

/-- A field as a bit vector. -/
def fld (w lo n : Nat) : BitVec n := BitVec.ofNat n (w / 2 ^ lo)
/-- A one-bit field. -/
def flag (w k : Nat) : Bool := bitAt w k
/-- The syllable, provided that the bits [hi:lo] are zero (R90). -/
def zero (w hi lo : Nat) (i : Instr) : Except Reject Instr :=
  if bits w hi lo = 0 then .ok i else .error .nonZeroField
/-- The syllable made from a field with reserved values (R90). -/
def some? {α : Type} (o : Option α) (k : α → Except Reject Instr) : Except Reject Instr :=
  match o with
  | some x => k x
  | none => .error .reservedValue

/-- Class 1 (R77, R78). -/
def scalar (w : Nat) : Except Reject Instr :=
  let g := fld w 25 3; let d := fld w 13 6; let a := fld w 7 6; let b := fld w 1 6; let i := flag w 0
  match bits w 24 19 with
  | 0 => .ok (.add g d a b i)
  | 1 => .ok (.sub g d a b i)
  | 2 => .ok (.mul g d a b i)
  | 3 => .ok (.mulh g d a b i)
  | 4 => .ok (.mulhu g d a b i)
  | 5 => .ok (.div g d a b i)
  | 6 => .ok (.rem g d a b i)
  | 7 => .ok (.and g d a b i)
  | 8 => .ok (.or g d a b i)
  | 9 => .ok (.xor g d a b i)
  | 10 => .ok (.shl g d a b i)
  | 11 => .ok (.shr g d a b i)
  | 12 => .ok (.sra g d a b i)
  | 13 => .ok (.min g d a b i)
  | 14 => .ok (.max g d a b i)
  | 15 => .ok (.mov g d a b i)
  | 16 => .ok (.sel g d a b i)
  | 17 => .ok (.li g d (fld w 0 13))
  | 18 => .ok (.mve g d a b i)
  | 19 => .ok (.mfe g d a b i)
  | 24 => .ok (.cmp g .eq d a b i)
  | 25 => .ok (.cmp g .ne d a b i)
  | 26 => .ok (.cmp g .lt d a b i)
  | 27 => .ok (.cmp g .ge d a b i)
  | 28 => .ok (.cmp g .ltu d a b i)
  | 29 => .ok (.cmp g .geu d a b i)
  | 30 => .ok (.cmp g .le d a b i)
  | 31 => .ok (.cmp g .gt d a b i)
  | _ => .error .unassignedOp

/-- Class 2 (R79, R80, R36, R53). -/
def control (w : Nat) : Except Reject Instr :=
  let g := fld w 25 3
  match bits w 24 20 with
  | 0 => zero w 19 0 (.nop g)
  | 1 => .ok (.br g (fld w 0 20))
  | 2 => zero w 13 0 (.jmp g (fld w 14 6))
  | 3 => if flag w 19 then zero w 12 0 (.callReg g (fld w 13 6)) else .ok (.call g (fld w 0 19))
  | 4 => zero w 19 0 (.ret g)
  | 5 => some? (level (bits w 19 17)) fun l => zero w 6 0 (.loop g l (fld w 13 4) (fld w 7 6))
  | 6 => some? (bscope (bits w 19 18)) fun b => zero w 15 0 (.flip g b (pscope (bits w 17 16)))
  | 7 => zero w 19 0 (.retire g)
  | 8 => zero w 19 8 (.trap g (fld w 0 8))
  | 9 => zero w 19 8 (.bkpt g (fld w 0 8))
  | 10 => zero w 19 0 (.reth g)
  | _ => .error .unassignedOp

/-- Class 3 (R81, R82). -/
def vectorInt (w : Nat) : Except Reject Instr :=
  let g := fld w 25 3; let z := esize (bits w 17 16); let u := flag w 15
  let d := fld w 10 5; let a := fld w 5 5; let b := fld w 0 5
  some? (width (bits w 19 18)) fun v =>
  match bits w 24 20 with
  | 0 => .ok (.vadd g v z u d a b)
  | 1 => .ok (.vsub g v z u d a b)
  | 2 => .ok (.vmul g v z u d a b)
  | 3 => .ok (.vmulh g v z u d a b)
  | 4 => .ok (.vand g v z u d a b)
  | 5 => .ok (.vor g v z u d a b)
  | 6 => .ok (.vxor g v z u d a b)
  | 7 => .ok (.vshl g v z u d a b)
  | 8 => .ok (.vshr g v z u d a b)
  | 9 => .ok (.vsra g v z u d a b)
  | 10 => .ok (.vmin g v z u d a b)
  | 11 => .ok (.vmax g v z u d a b)
  | 12 => zero w 4 0 (.vabs g v z u d a)
  | 13 => .ok (.vsel g v z u d a b)
  | 14 => zero w 4 0 (.vcnt g v z u d a)
  | 15 => .ok (.vredi g v z u d a b)
  | 16 => zero w 14 13 (.vcmp g .eq v z u (fld w 10 3) a b)
  | 17 => zero w 14 13 (.vcmp g .ne v z u (fld w 10 3) a b)
  | 18 => zero w 14 13 (.vcmp g .lt v z u (fld w 10 3) a b)
  | 19 => zero w 14 13 (.vcmp g .ge v z u (fld w 10 3) a b)
  | 20 => zero w 14 13 (.vcmp g .ltu v z u (fld w 10 3) a b)
  | 21 => zero w 14 13 (.vcmp g .geu v z u (fld w 10 3) a b)
  | 22 => zero w 14 13 (.vcmp g .le v z u (fld w 10 3) a b)
  | 23 => zero w 14 13 (.vcmp g .gt v z u (fld w 10 3) a b)
  | _ => .error .unassignedOp

/-- Class 4 (R81, R82). -/
def vectorFloat (w : Nat) : Except Reject Instr :=
  let g := fld w 25 3; let f := ffmt (bits w 17 16); let s := flag w 15
  let d := fld w 10 5; let a := fld w 5 5; let b := fld w 0 5
  some? (width (bits w 19 18)) fun v =>
  match bits w 24 20 with
  | 0 => .ok (.fadd g v f s d a b)
  | 1 => .ok (.fsub g v f s d a b)
  | 2 => .ok (.fmul g v f s d a b)
  | 3 => .ok (.fma g v f s d a b)
  | 4 => .ok (.fmin g v f s d a b)
  | 5 => .ok (.fmax g v f s d a b)
  | 6 => zero w 4 0 (.fabs g v f s d a)
  | 7 => zero w 4 0 (.fneg g v f s d a)
  | 8 => .ok (.fred g v f s d a b)
  | 9 => .ok (.fsca g v f s d a b)
  | 16 => zero w 14 13 (.fcmp g .eq v f s (fld w 10 3) a b)
  | 17 => zero w 14 13 (.fcmp g .ne v f s (fld w 10 3) a b)
  | 18 => zero w 14 13 (.fcmp g .lt v f s (fld w 10 3) a b)
  | 19 => zero w 14 13 (.fcmp g .le v f s (fld w 10 3) a b)
  | 20 => zero w 14 13 (.fcmp g .gt v f s (fld w 10 3) a b)
  | 21 => zero w 14 13 (.fcmp g .ge v f s (fld w 10 3) a b)
  | 22 => zero w 14 13 (.fcmp g .un v f s (fld w 10 3) a b)
  | 23 => zero w 14 13 (.fcmp g .or v f s (fld w 10 3) a b)
  | _ => .error .unassignedOp

/-- Class 5 (R83). -/
def convert (w : Nat) : Except Reject Instr :=
  let g := fld w 25 3; let z := esize (bits w 17 16)
  let d := fld w 10 5; let a := fld w 5 5; let b := fld w 0 5
  some? (width (bits w 19 18)) fun v =>
  match bits w 24 20 with
  | 0 => .ok (.cvt g v (cfmt (bits w 17 15)) d a (cfmt (bits w 4 2)) (rnd (bits w 1 0)))
  | 1 => if flag w 15 then .error .nonZeroField
         else zero w 4 2 (.qnt g v (fld w 16 2) d a (rnd (bits w 1 0)))
  | 2 => if flag w 15 then .error .nonZeroField else zero w 4 0 (.dqnt g v (fld w 16 2) d a)
  | 3 => zero w 15 15 (.vperm g v z d a b)
  | 4 => zero w 4 0 (.vbcast g v z (flag w 15) d a)
  | 5 => zero w 15 15 (.vseq g v z d a b)
  | 6 => zero w 15 15 (.visect g v z d a b)
  | 7 => if bits w 17 16 = 0 then zero w 4 0 (.vmovp g v (flag w 15) d a) else .error .nonZeroField
  | 8 => zero w 15 15 (.rngc g v z d a b)
  | 9 => zero w 15 15 (.vext g v z d a b)
  | 10 => zero w 15 15 (.vins g v z d a b)
  | _ => .error .unassignedOp

/-- Class 6 (R81, R82). -/
def special (w : Nat) : Except Reject Instr :=
  let g := fld w 25 3; let f := ffmt (bits w 17 16)
  let d := fld w 10 5; let a := fld w 5 5; let b := fld w 0 5
  some? (width (bits w 19 18)) fun v =>
  if flag w 15 then .error .nonZeroField else
  match bits w 24 20 with
  | 0 => zero w 4 0 (.fexp2 g v f d a)
  | 1 => zero w 4 0 (.flog2 g v f d a)
  | 2 => zero w 4 0 (.frcp g v f d a)
  | 3 => zero w 4 0 (.frsq g v f d a)
  | 4 => zero w 4 0 (.fsqrt g v f d a)
  | 5 => .ok (.fdiv g v f d a b)
  | _ => .error .unassignedOp

/-- Class 7 (R84, R85). -/
def loads (w : Nat) : Except Reject Instr :=
  let g := fld w 25 3; let d := fld w 15 6; let b := fld w 9 6; let i := fld w 3 6
  match bits w 24 21 with
  | 0 => some? (asize (bits w 2 0)) fun m => .ok (.ld g d b i m)
  | 1 => some? (asize (bits w 2 0)) fun m => .ok (.lds g d b i m)
  | 2 => some? (asize (bits w 2 0)) fun m => .ok (.ldr g d b i m)
  | 3 => .ok (.ldp g d b (fld w 7 2) (fld w 3 4) (fld w 1 2) (flag w 0))
  | 4 => if bits w 2 1 = 0 then zero w 20 15 (.pf g b i (flag w 0)) else .error .reservedValue
  | 5 => some? (asize (bits w 2 0)) fun m => zero w 14 3 (.qpop g d m)
  | _ => .error .unassignedOp

/-- Class 8 (R84, R85). -/
def stores (w : Nat) : Except Reject Instr :=
  let g := fld w 25 3; let d := fld w 15 6; let b := fld w 9 6; let i := fld w 3 6
  match bits w 24 21 with
  | 0 => some? (asize (bits w 2 0)) fun m => .ok (.st g d b i m)
  | 1 => some? (asize (bits w 2 0)) fun m => .ok (.sts g d b i m)
  | 2 => zero w 0 0 (.stp g d b (fld w 7 2) (fld w 3 4) (fld w 1 2))
  | 3 => some? (asize (bits w 2 0)) fun m => .ok (.stq g d b i m)
  | 4 => .ok (.atom g d b i (atomOp (bits w 2 0)))
  | 5 => if bits w 2 1 = 1 then .ok (.acas g d b i (flag w 0)) else .error .reservedValue
  | 6 => if bits w 1 0 = 0 then .ok (.pacc g d b (fld w 7 2) (fld w 3 4) (flag w 2)) else .error .reservedValue
  | 7 => if bits w 1 0 = 0 then .ok (.pdec g d b (fld w 7 2) (fld w 3 4) (flag w 2)) else .error .reservedValue
  | 8 => match bits w 2 0 with
    | 0 => zero w 14 3 (.qpush g d .q8)
    | 1 => zero w 14 3 (.qpush g d .q16)
    | 2 => zero w 14 3 (.qpush g d .q32)
    | _ => .error .reservedValue
  | 9 => if bits w 2 0 = 3 then .ok (.stk g d b i) else .error .reservedValue
  | _ => .error .unassignedOp

/-- Class 9 (R86). -/
def matrix (w : Nat) : Except Reject Instr :=
  let g := fld w 25 3; let k := flag w 21
  match bits w 24 22 with
  | 0 => if bits w 16 16 = 0 then zero w 7 0 (.xcfg g k (fld w 19 2) (fld w 17 2) (fld w 8 8))
         else .error .nonZeroField
  | 1 => zero w 21 0 (.xpush g)
  | 2 => zero w 20 0 (.xacc g k)
  | 3 => zero w 20 0 (.xshift g k)
  | 4 => zero w 20 0 (.xdrain g k)
  | _ => .error .unassignedOp

/-- Class 10 (R87, R190). -/
def engine (w : Nat) : Except Reject Instr :=
  let g := fld w 25 3; let b := fld w 16 5; let c := flag w 15; let e := flag w 14; let n := fld w 0 8
  let z := esize (bits w 9 8)
  match bits w 24 21 with
  | 0 => .ok (.ecopy g b c e (flag w 13) (fld w 10 3) z n)
  | 1 => zero w 12 10 (.egather g b c e (flag w 13) z n)
  | 2 => zero w 9 8 (.ereduce g b c e (fld w 12 2) (fld w 10 2) n)
  | 3 => .ok (.epage g b c e (flag w 13) (fld w 11 2) (fld w 9 2) (flag w 8) n)
  | 4 => if bits w 13 11 = 0 then zero w 8 8 (.edict g b c e (fld w 9 2) n) else .error .nonZeroField
  | _ => .error .unassignedOp

/-- Class 11 (R88, R89). -/
def system (w : Nat) : Except Reject Instr :=
  let g := fld w 25 3; let r := fld w 13 6
  match bits w 24 19 with
  | 0 => .ok (.csrr g r (fld w 0 13))
  | 1 => .ok (.csrw g r (fld w 0 13))
  | 2 => zero w 7 0 (.flags g r (flag w 12) (fld w 8 4))
  | 3 => if flag w 12 then zero w 11 0 (.verswNamed g r)
         else if bits w 18 13 = 0 then zero w 11 0 (.versw g) else .error .nonZeroField
  | 4 => zero w 12 0 (.verpub g r)
  | 5 => if bits w 18 13 = 0 then zero w 4 0 (.qarm g (fld w 10 3) (fld w 5 5)) else .error .nonZeroField
  | _ => .error .unassignedOp

end Decode

/-- The operation syllable that a 32-bit word holds (R75, R90). -/
def decode (w : Nat) : Except Reject Instr :=
  match bits w 31 28 with
  | 0 => .error .header
  | 1 => Decode.scalar w
  | 2 => Decode.control w
  | 3 => Decode.vectorInt w
  | 4 => Decode.vectorFloat w
  | 5 => Decode.convert w
  | 6 => Decode.special w
  | 7 => Decode.loads w
  | 8 => Decode.stores w
  | 9 => Decode.matrix w
  | 10 => Decode.engine w
  | 11 => Decode.system w
  | 15 => .error .link
  | _ => .error .reservedClass

/-- The instruction that the decoder reads from the `nbits` bits `w` of an opcode-table row. A syllable is 32 bits,
little-endian (R62), and its bits above `nbits` are zero. -/
def decodeTableWord (nbits w : Nat) : Option Instr :=
  match decode (ofBytes (bytesOf 4 (w % 2 ^ nbits))) with
  | .ok i => some i
  | .error _ => none

namespace Encode

/-- The code of R81. -/
def width : Width → Nat
  | .w256 => 0 | .w512 => 1 | .w1024 => 2
/-- The code of R81. -/
def esize : ESize → Nat
  | .b8 => 0 | .b16 => 1 | .b32 => 2 | .b64 => 3
/-- The code of R81. -/
def ffmt : FFmt → Nat
  | .fp32 => 0 | .bf16 => 1 | .e4m3 => 2 | .e5m2 => 3
/-- The code of R83. -/
def cfmt : CFmt → Nat
  | .fp32 => 0 | .bf16 => 1 | .e4m3 => 2 | .e5m2 => 3 | .int8 => 4 | .int32 => 5 | .ply16 => 6 | .ply4 => 7
/-- The code of R78. -/
def cond : Cond → Nat
  | .eq => 0 | .ne => 1 | .lt => 2 | .ge => 3 | .ltu => 4 | .geu => 5 | .le => 6 | .gt => 7
/-- The code of R82. -/
def fcond : FCond → Nat
  | .eq => 0 | .ne => 1 | .lt => 2 | .le => 3 | .gt => 4 | .ge => 5 | .un => 6 | .or => 7
/-- The code of R83. -/
def rnd : Rnd → Nat
  | .frm => 0 | .rz => 1 | .srn => 2 | .srq => 3
/-- The code of R84. -/
def asize : ASize → Nat
  | .byte => 0 | .half => 1 | .word => 2 | .dword => 3 | .v256 => 4 | .v512 => 5 | .v1024 => 6
/-- The code of R85. -/
def atomOp : AtomOp → Nat
  | .add => 0 | .min => 1 | .max => 2 | .xchg => 3 | .and => 4 | .or => 5 | .fadd32 => 6 | .load => 7
/-- The code of R36. -/
def bscope : BScope → Nat
  | .nb => 0 | .cl => 1 | .pt => 2
/-- The code of R36. -/
def pscope : PScope → Nat
  | .none => 0 | .cluster => 1 | .device => 2 | .system => 3
/-- The code of R85. -/
def qsize : QSize → Nat
  | .q8 => 0 | .q16 => 1 | .q32 => 2

/-- A one-bit field. -/
def flag (b : Bool) : Nat := if b then 1 else 0
/-- Class, op and guard of the class 1 and class 11 formats (R77, R88). -/
def op6 (c op : Nat) (g : BitVec 3) : Nat := c * 2 ^ 28 + g.toNat * 2 ^ 25 + op * 2 ^ 19
/-- Class, op and guard of the class 2 to 6 formats (R79, R81). -/
def op5 (c op : Nat) (g : BitVec 3) : Nat := c * 2 ^ 28 + g.toNat * 2 ^ 25 + op * 2 ^ 20
/-- Class, op and guard of the class 7, 8 and 10 formats (R84, R87). -/
def op4 (c op : Nat) (g : BitVec 3) : Nat := c * 2 ^ 28 + g.toNat * 2 ^ 25 + op * 2 ^ 21
/-- Class, op and guard of class 9 (R86). -/
def op3 (op : Nat) (g : BitVec 3) : Nat := 9 * 2 ^ 28 + g.toNat * 2 ^ 25 + op * 2 ^ 22
/-- dst, A, B and I of class 1 (R77). -/
def dabi (d a b : BitVec 6) (i : Bool) : Nat := d.toNat * 2 ^ 13 + a.toNat * 2 ^ 7 + b.toNat * 2 + flag i
/-- dst, A and B of the vector format (R81). -/
def dab (d a b : BitVec 5) : Nat := d.toNat * 2 ^ 10 + a.toNat * 2 ^ 5 + b.toNat
/-- dst and A of the vector format, with B = 0. -/
def da (d a : BitVec 5) : Nat := d.toNat * 2 ^ 10 + a.toNat * 2 ^ 5
/-- W, SZ or FMT, and bit 15 of the vector format (R81). -/
def wzu (w z : Nat) (u : Bool) : Nat := w * 2 ^ 18 + z * 2 ^ 16 + flag u * 2 ^ 15
/-- data, base, imm6 and mod of the memory format (R84). -/
def mem (d b i : BitVec 6) (m : Nat) : Nat := d.toNat * 2 ^ 15 + b.toNat * 2 ^ 9 + i.toNat * 2 ^ 3 + m
/-- data, base, window, block offset and mod of the plied accesses (R85). -/
def ply (d b : BitVec 6) (w : BitVec 2) (o : BitVec 4) (m : Nat) : Nat :=
  d.toNat * 2 ^ 15 + b.toNat * 2 ^ 9 + w.toNat * 2 ^ 7 + o.toNat * 2 ^ 3 + m
/-- BASE, CI, EV and EVC of an engine command (R87, R190). -/
def eng (b : BitVec 5) (c e : Bool) (n : BitVec 8) : Nat :=
  b.toNat * 2 ^ 16 + flag c * 2 ^ 15 + flag e * 2 ^ 14 + n.toNat

end Encode

open Encode in
/-- The word of a syllable, from the tables of R77 to R89; 0 for a step that has no syllable. -/
def encode : Instr → Nat
  | .add g d a b i => op6 1 0 g + dabi d a b i
  | .sub g d a b i => op6 1 1 g + dabi d a b i
  | .mul g d a b i => op6 1 2 g + dabi d a b i
  | .mulh g d a b i => op6 1 3 g + dabi d a b i
  | .mulhu g d a b i => op6 1 4 g + dabi d a b i
  | .div g d a b i => op6 1 5 g + dabi d a b i
  | .rem g d a b i => op6 1 6 g + dabi d a b i
  | .and g d a b i => op6 1 7 g + dabi d a b i
  | .or g d a b i => op6 1 8 g + dabi d a b i
  | .xor g d a b i => op6 1 9 g + dabi d a b i
  | .shl g d a b i => op6 1 10 g + dabi d a b i
  | .shr g d a b i => op6 1 11 g + dabi d a b i
  | .sra g d a b i => op6 1 12 g + dabi d a b i
  | .min g d a b i => op6 1 13 g + dabi d a b i
  | .max g d a b i => op6 1 14 g + dabi d a b i
  | .mov g d a b i => op6 1 15 g + dabi d a b i
  | .sel g d a b i => op6 1 16 g + dabi d a b i
  | .li g d imm => op6 1 17 g + d.toNat * 2 ^ 13 + imm.toNat
  | .mve g d a b i => op6 1 18 g + dabi d a b i
  | .mfe g d a b i => op6 1 19 g + dabi d a b i
  | .cmp g c d a b i => op6 1 (24 + cond c) g + dabi d a b i
  | .nop g => op5 2 0 g
  | .br g off => op5 2 1 g + off.toNat
  | .jmp g a => op5 2 2 g + a.toNat * 2 ^ 14
  | .call g off => op5 2 3 g + off.toNat
  | .callReg g a => op5 2 3 g + 2 ^ 19 + a.toNat * 2 ^ 13
  | .ret g => op5 2 4 g
  | .loop g l n c => op5 2 5 g + l.val * 2 ^ 17 + n.toNat * 2 ^ 13 + c.toNat * 2 ^ 7
  | .flip g b p => op5 2 6 g + bscope b * 2 ^ 18 + pscope p * 2 ^ 16
  | .retire g => op5 2 7 g
  | .trap g imm => op5 2 8 g + imm.toNat
  | .bkpt g imm => op5 2 9 g + imm.toNat
  | .reth g => op5 2 10 g
  | .vadd g w z u d a b => op5 3 0 g + wzu (width w) (esize z) u + dab d a b
  | .vsub g w z u d a b => op5 3 1 g + wzu (width w) (esize z) u + dab d a b
  | .vmul g w z u d a b => op5 3 2 g + wzu (width w) (esize z) u + dab d a b
  | .vmulh g w z u d a b => op5 3 3 g + wzu (width w) (esize z) u + dab d a b
  | .vand g w z u d a b => op5 3 4 g + wzu (width w) (esize z) u + dab d a b
  | .vor g w z u d a b => op5 3 5 g + wzu (width w) (esize z) u + dab d a b
  | .vxor g w z u d a b => op5 3 6 g + wzu (width w) (esize z) u + dab d a b
  | .vshl g w z u d a b => op5 3 7 g + wzu (width w) (esize z) u + dab d a b
  | .vshr g w z u d a b => op5 3 8 g + wzu (width w) (esize z) u + dab d a b
  | .vsra g w z u d a b => op5 3 9 g + wzu (width w) (esize z) u + dab d a b
  | .vmin g w z u d a b => op5 3 10 g + wzu (width w) (esize z) u + dab d a b
  | .vmax g w z u d a b => op5 3 11 g + wzu (width w) (esize z) u + dab d a b
  | .vabs g w z u d a => op5 3 12 g + wzu (width w) (esize z) u + da d a
  | .vsel g w z u d a b => op5 3 13 g + wzu (width w) (esize z) u + dab d a b
  | .vcnt g w z u d a => op5 3 14 g + wzu (width w) (esize z) u + da d a
  | .vredi g w z u d a b => op5 3 15 g + wzu (width w) (esize z) u + dab d a b
  | .vcmp g c w z u d a b => op5 3 (16 + cond c) g + wzu (width w) (esize z) u + dab (d.setWidth 5) a b
  | .fadd g w f s d a b => op5 4 0 g + wzu (width w) (ffmt f) s + dab d a b
  | .fsub g w f s d a b => op5 4 1 g + wzu (width w) (ffmt f) s + dab d a b
  | .fmul g w f s d a b => op5 4 2 g + wzu (width w) (ffmt f) s + dab d a b
  | .fma g w f s d a b => op5 4 3 g + wzu (width w) (ffmt f) s + dab d a b
  | .fmin g w f s d a b => op5 4 4 g + wzu (width w) (ffmt f) s + dab d a b
  | .fmax g w f s d a b => op5 4 5 g + wzu (width w) (ffmt f) s + dab d a b
  | .fabs g w f s d a => op5 4 6 g + wzu (width w) (ffmt f) s + da d a
  | .fneg g w f s d a => op5 4 7 g + wzu (width w) (ffmt f) s + da d a
  | .fred g w f s d a b => op5 4 8 g + wzu (width w) (ffmt f) s + dab d a b
  | .fsca g w f s d a b => op5 4 9 g + wzu (width w) (ffmt f) s + dab d a b
  | .fcmp g c w f s d a b => op5 4 (16 + fcond c) g + wzu (width w) (ffmt f) s + dab (d.setWidth 5) a b
  | .cvt g w s d a t r =>
    op5 5 0 g + width w * 2 ^ 18 + cfmt s * 2 ^ 15 + da d a + cfmt t * 2 ^ 2 + rnd r
  | .qnt g w m d a r => op5 5 1 g + wzu (width w) m.toNat false + da d a + rnd r
  | .dqnt g w m d a => op5 5 2 g + wzu (width w) m.toNat false + da d a
  | .vperm g w z d a b => op5 5 3 g + wzu (width w) (esize z) false + dab d a b
  | .vbcast g w z k d a => op5 5 4 g + wzu (width w) (esize z) k + da d a
  | .vseq g w z d a b => op5 5 5 g + wzu (width w) (esize z) false + dab d a b
  | .visect g w z d a b => op5 5 6 g + wzu (width w) (esize z) false + dab d a b
  | .vmovp g w x d a => op5 5 7 g + wzu (width w) 0 x + da d a
  | .rngc g w z d a b => op5 5 8 g + wzu (width w) (esize z) false + dab d a b
  | .vext g w z d a b => op5 5 9 g + wzu (width w) (esize z) false + dab d a b
  | .vins g w z d a b => op5 5 10 g + wzu (width w) (esize z) false + dab d a b
  | .fexp2 g w f d a => op5 6 0 g + wzu (width w) (ffmt f) false + da d a
  | .flog2 g w f d a => op5 6 1 g + wzu (width w) (ffmt f) false + da d a
  | .frcp g w f d a => op5 6 2 g + wzu (width w) (ffmt f) false + da d a
  | .frsq g w f d a => op5 6 3 g + wzu (width w) (ffmt f) false + da d a
  | .fsqrt g w f d a => op5 6 4 g + wzu (width w) (ffmt f) false + da d a
  | .fdiv g w f d a b => op5 6 5 g + wzu (width w) (ffmt f) false + dab d a b
  | .ld g d b i m => op4 7 0 g + mem d b i (asize m)
  | .lds g d b i m => op4 7 1 g + mem d b i (asize m)
  | .ldr g d b i m => op4 7 2 g + mem d b i (asize m)
  | .ldp g d b w o n t => op4 7 3 g + ply d b w o (n.toNat * 2 + flag t)
  | .pf g b i c => op4 7 4 g + mem 0 b i (flag c)
  | .qpop g d m => op4 7 5 g + mem d 0 0 (asize m)
  | .st g d b i m => op4 8 0 g + mem d b i (asize m)
  | .sts g d b i m => op4 8 1 g + mem d b i (asize m)
  | .stp g d b w o n => op4 8 2 g + ply d b w o (n.toNat * 2)
  | .stq g d b t m => op4 8 3 g + mem d b t (asize m)
  | .atom g d b o m => op4 8 4 g + mem d b o (atomOp m)
  | .acas g d b o z => op4 8 5 g + mem d b o (2 + flag z)
  | .pacc g d b w o r => op4 8 6 g + ply d b w o (flag r * 4)
  | .pdec g d b w o r => op4 8 7 g + ply d b w o (flag r * 4)
  | .qpush g d z => op4 8 8 g + mem d 0 0 (qsize z)
  | .stk g d b i => op4 8 9 g + mem d b i 3
  | .xcfg g k i j e =>
    op3 0 g + flag k * 2 ^ 21 + i.toNat * 2 ^ 19 + j.toNat * 2 ^ 17 + e.toNat * 2 ^ 8
  | .xpush g => op3 1 g
  | .xacc g k => op3 2 g + flag k * 2 ^ 21
  | .xshift g k => op3 3 g + flag k * 2 ^ 21
  | .xdrain g k => op3 4 g + flag k * 2 ^ 21
  | .ecopy g b c e h n z v =>
    op4 10 0 g + eng b c e v + flag h * 2 ^ 13 + n.toNat * 2 ^ 10 + esize z * 2 ^ 8
  | .egather g b c e x z v => op4 10 1 g + eng b c e v + flag x * 2 ^ 13 + esize z * 2 ^ 8
  | .ereduce g b c e o f v => op4 10 2 g + eng b c e v + o.toNat * 2 ^ 12 + f.toNat * 2 ^ 10
  | .epage g b c e r k s y v =>
    op4 10 3 g + eng b c e v + flag r * 2 ^ 13 + k.toNat * 2 ^ 11 + s.toNat * 2 ^ 9 + flag y * 2 ^ 8
  | .edict g b c e s v => op4 10 4 g + eng b c e v + s.toNat * 2 ^ 9
  | .csrr g d n => op6 11 0 g + d.toNat * 2 ^ 13 + n.toNat
  | .csrw g s n => op6 11 1 g + s.toNat * 2 ^ 13 + n.toNat
  | .flags g d c l => op6 11 2 g + d.toNat * 2 ^ 13 + flag c * 2 ^ 12 + l.toNat * 2 ^ 8
  | .versw g => op6 11 3 g
  | .verswNamed g s => op6 11 3 g + s.toNat * 2 ^ 13 + 2 ^ 12
  | .verpub g d => op6 11 4 g + d.toNat * 2 ^ 13
  | .qarm g p e => op6 11 5 g + p.toNat * 2 ^ 10 + e.toNat * 2 ^ 5
  | .variableResultLand _ _ => 0
  | .lateFaultReport _ => 0
  | .verpubStep _ => 0
  | .verswStep _ => 0
  | .translationWalkComplete _ => 0
  | .walkerStart _ => 0
  | .flipRelease _ => 0
  | .flipExchange _ => 0
  | .taskStart _ => 0
  | .contextFree _ => 0
  | .handlerEntry _ => 0
  | .packetArrival _ => 0
  | .launch _ _ => 0
  | .kernelDispatch _ => 0
  | .contextStart _ => 0
  | .copy _ _ => 0
  | .copyComplete _ _ => 0
  | .depEvent _ _ => 0
  | .depPageSet _ _ => 0
  | .depComplete _ _ => 0
  | .signal _ _ => 0
  | .setdetQueue _ _ => 0
  | .setdetPartition _ _ => 0
  | .setdetComplete _ _ => 0
  | .publish _ _ => 0
  | .captureStart _ _ => 0
  | .captureStop _ _ => 0
  | .captureResume _ _ => 0
  | .capturePageWrite _ => 0
  | .markOn _ _ => 0
  | .markOff _ _ => 0
  | .markDecl _ _ => 0
  | .markSnap _ _ => 0
  | .markMode _ _ => 0
  | .resync _ => 0
  | .ownerClaim _ => 0
  | .ownerHandover _ => 0
  | .ownerRenew _ => 0
  | .ownerRelease _ => 0
  | .electionClose => 0
  | .leaseExpiry => 0
  | .engineChunkPerform _ => 0
  | .engineComplete _ => 0
  | .taggedWriteArrive _ => 0
  | .heldWriteTimeout _ => 0
  | .replacementWriteback _ _ => 0
  | .randomWordFill _ => 0
  | .portOperandFetch _ _ => 0
  | .watchdogPreempt _ _ => 0
  | .watchdogKill _ _ => 0
  | .watchdogFence _ _ => 0
  | .preemption _ => 0
  | .contextRestore _ => 0
  | .faultRecordWrite _ => 0
  | .ctxcmdResume _ _ => 0
  | .ctxcmdKill _ _ => 0
  | .ctxcmdPreempt _ _ => 0
  | .qctlResume _ _ => 0
  | .qctlDiscardHead _ _ => 0
  | .qctlDiscardAll _ _ => 0
  | .tlbinv _ _ => 0
  | .tlbinvComplete _ => 0
  | .vlendWrite _ _ => 0
  | .brkaWrite _ _ _ => 0
  | .monitorWrite _ _ _ _ => 0
  | .monitorFailure _ _ => 0
  | .dumpComplete _ => 0
  | .dumpEngineFault _ => 0
  | .rerunCompare _ => 0
  | .registerWrite _ _ _ => 0
  | .partitionFirmwareUpdate _ _ => 0
  | .vaultRetraining _ => 0
  | .fabricPortRetraining _ => 0
  | .partitionReconfiguration _ _ _ _ _ _ => 0
  | .clusterRetirement _ => 0
  | .securityAlarm _ => 0
  | .deviceReset => 0
  | .powerLimit => 0
  | .atomicPerform _ => 0
  | .fabricGlobalAccess _ => 0
  | .portOperandAvailable _ _ => 0
  | .powerBelowLimit => 0
  | .liveServiceOperationComplete _ => 0
  | .monitorRelationHolds _ _ => 0
  | .ringTailAdvance _ _ _ => 0

end Sys2Proof
end

