-- ==== Sys2Proof/Machine/Flags.lean ====
section
/-! DEFINITION. The sticky flags (06 R112) and the rounding modes (R107): the names that every flag computation
uses. The flag rule of each operation stands with the operation: Scalar (R273), Numeric (R103 to R120). -/
namespace Sys2Proof.Machine

/-- Invalid operation. -/
def flNV : Flags := 1
/-- Division by zero. -/
def flDZ : Flags := 2
/-- Overflow. -/
def flOF : Flags := 4
/-- Underflow. -/
def flUF : Flags := 8
/-- Inexact. -/
def flNX : Flags := 16
/-- Accumulator overflow. -/
def flAOV : Flags := 32

/-- Flags raised together. -/
def orFlags (fs : List Flags) : Flags := fs.foldl (fun a b => a ||| b) 0

end Sys2Proof.Machine
end

