-- ==== Sys2Proof/Config.lean ====
section
/-! DEFINITION. What the part fixes (01 R13) and the free values: constants without a body, of which
nothing can be proved, applied to what they may depend on. -/
namespace Sys2Proof.Config

/-- R13: 512 cores. -/
def cores : Nat := 512
/-- R13: 32 clusters of 16 cores. -/
def clusters : Nat := 32
/-- R13: scratchpad bytes of a core. -/
def spadBytes : Nat := 512 * 1024
/-- R13, R153: bytes of one vault. -/
def vaultBytes : Nat := 768 * 1024 * 1024
/-- R153: bits of a device physical address. -/
def dpaBits : Nat := 39
/-- R13, R191: commands in flight for each core. -/
def inflightMax : Nat := 128
/-- R231: register results in flight for each context. -/
def resultsMax : Nat := 64
/-- R257: queue memory of a partition in bytes. -/
def queueMemory : Nat := 256 * 1024
/-- R258: events kept while no owner exists. -/
def eventsKept : Nat := 4096
/-- R175: writes held at one vault. -/
def heldMax : Nat := 64
/-- R175: cycles after which a held write is discarded. -/
def heldCycles : Nat := 2 ^ 24
/-- R170: lines of pending stores for each phase at the locked level. -/
def lockedLines : Nat := 1024
/-- R260: the election window in arithmetic cycles. -/
def electionCycles : Nat := 2 ^ 20
/-- R260: the default lease. -/
def leaseDefault : Nat := 2 ^ 34
/-- R61: the default limits of the watchdog's three steps. -/
def watchdog1 : Nat := 2 ^ 26
def watchdog2 : Nat := 2 ^ 28
def watchdog3 : Nat := 2 ^ 30

/-- Free choice (log entry 5): which of the values that R157 permits an LDR returns. -/
opaque ldrPick : Nat → Nat
/-- Free choice (log entry 8): which of the `n` placements that R50 permits is taken, for the `k`-th choice. -/
opaque placement : Nat → Nat
/-- Free value (log entry 10): the block bytes that the bobbin's Zstandard encoder produces for a content
under a dictionary, where they decode to that content (R196, R197; RFC 8878 fixes no encoder). -/
opaque zstdBlocks : List Byte → List Byte → List Byte
/-- Free choice (log entry 10): the Frame_Content_Size_flag that the encoder gives a content of this size (RFC 8878). -/
opaque zstdSizeFlag : Nat → Nat
/-- Free function (log entry 10): whether an SLH-DSA-SHAKE-256s signature verifies under one of the eight
provisioned owner keys, over the device identity, dword 0 and the sender (R259, FIPS 205). -/
opaque ownerSignature : Word64 → Nat → List Word64 → Bool
/-- Free function (log entry 10): the device identity key's signature of an attested summary (R262, R263). -/
opaque attest : List Word64 → List Word64
/-- Free function (log entry 10): whether a firmware image verifies under Nirrok's key (R263). -/
opaque firmwareSignature : List Byte → Bool
/-- Free function (log entry 10): the version of a firmware image. -/
opaque firmwareVersion : List Byte → Nat
/-- Free choice (log entry 14): which entry of a full TLB a new one replaces (R161 gives no rule). -/
opaque tlbVictim : Nat → Nat
/-- Free choice (log entry 13): which line of a full set of a cluster cache a new one replaces (R152 gives no rule). -/
opaque cacheVictim : Nat → Nat
/-- Free value (log entry 9): what the `n`-th access finds in another device or a flash shelf at an address, and whether another
agent has changed there what this device has written. -/
opaque remoteByte : Nat → Nat → Byte
opaque remoteChanged : Nat → Nat → Bool
/-- Free choice (log entry 9): how another device answers an access for its memory, for the `n`-th access and its address:
0 serves it, 1 to 9 are the refusals of R165 and R217. -/
opaque remoteRefusal : Nat → Nat → Nat
/-- Free value (log entry 5): a byte whose value R201 does not fix, or that a frame leaves invalid. -/
opaque freeByte : Nat → Byte
/-- Free value (log entry 9): the flits of transmit credit free on a Worong port in a cycle (18 R245); the spec gives the
links no behaviour. -/
opaque linkCredit : Nat → Nat → Nat
/-- Free value (log entry 18): the CAUSE that the trailer of a dump gives an engine error whose STATUS no trap has (18 R253). -/
opaque engineCause : Nat → Nat
/-- Free choice (log entry 7): whether a core passes the boot test, and later the data-error rerun's digests. -/
opaque coreTest : Nat → Bool

end Sys2Proof.Config
end

