-- ==== Sys2Proof/Machine/Legal.lean ====
section
/-! DEFINITION. The field values that raise the illegal-operand trap whatever the state holds: reserved values of
fields that carry values, and combinations that an instruction forbids (04 R73, R77 to R90). -/
namespace Sys2Proof

/-- The three classes of CSRs (02 R31). -/
inductive CsrClass | control | status | live
  deriving DecidableEq, Repr

/-- The CSR map (R280). -/
def csrClass (n : Nat) : Option CsrClass :=
  if n ≤ 0x002 || (0x008 ≤ n && n ≤ 0x00B) || n == 0x030 || (0x040 ≤ n && n ≤ 0x043) then some .control
  else if (0x010 ≤ n && n ≤ 0x012) || (0x018 ≤ n && n ≤ 0x020) then some .status
  else if (0x080 ≤ n && n ≤ 0x082) || n == 0x088 || (0x090 ≤ n && n ≤ 0x095) || (0x100 ≤ n && n ≤ 0x105)
      || (0x108 ≤ n && n ≤ 0x111) then some .live
  else none

/-- R280: the number of VPIN. -/
def csrVpin : Nat := 0x030

/-- Whether a size is one of the vector sizes (R84). -/
def ASize.isVector : ASize → Bool
  | .v256 | .v512 | .v1024 => true
  | _ => false

/-- Bytes of an access size (R84). -/
def ASize.bytes : ASize → Nat
  | .byte => 1 | .half => 2 | .word => 4 | .dword => 8 | .v256 => 32 | .v512 => 64 | .v1024 => 128

/-- Bits of a width (R81). -/
def Width.bits : Width → Nat
  | .w256 => 256 | .w512 => 512 | .w1024 => 1024

/-- Bits of an element (R81). -/
def ESize.bits : ESize → Nat
  | .b8 => 8 | .b16 => 16 | .b32 => 32 | .b64 => 64

/-- Bits of an element of a float format (R81). -/
def FFmt.bits : FFmt → Nat
  | .fp32 => 32 | .bf16 => 16 | .e4m3 => 8 | .e5m2 => 8

/-- The formats that FRED, FSCA and class 6 take (R82). -/
def FFmt.wide : FFmt → Bool
  | .fp32 | .bf16 => true
  | _ => false

/-- R82: S = 1 only with an FP8 format. -/
def satLegal (f : FFmt) (sat : Bool) : Bool := !sat || !f.wide

/-- R85: a vector size names v0 to v31. -/
def dataLegal (d : BitVec 6) (m : ASize) : Bool := !m.isVector || d.toNat < 32

/-- R87, R190: the staging base, and EVC = 0 without EV. -/
def engineLegal (b : BitVec 5) (ev : Bool) (evc : BitVec 8) : Bool := b.toNat ≤ 24 && (ev || evc == 0)

/-- Whether a syllable's fields are free of the reserved values and forbidden combinations that raise the
illegal-operand trap in every state. -/
def fieldsLegal : Instr → Bool
  | .mov _ _ _ b i => b == 0 && !i
  | .sel _ _ _ _ i => !i
  | .mve _ d _ b i => b == 0 && !i && d.toNat < 32
  | .mfe _ _ a b i => b == 0 && !i && a.toNat < 32
  | .cmp _ _ d _ _ _ => d.toNat < 8
  | .flip g bar _ => bar == .nb || g == 0
  | .vadd _ _ _ u _ _ _ | .vsub _ _ _ u _ _ _ | .vmul _ _ _ u _ _ _
  | .vand _ _ _ u _ _ _ | .vor _ _ _ u _ _ _ | .vxor _ _ _ u _ _ _
  | .vshl _ _ _ u _ _ _ | .vshr _ _ _ u _ _ _ | .vsra _ _ _ u _ _ _
  | .vsel _ _ _ u _ _ _ => !u
  | .vabs _ _ _ u _ _ | .vcnt _ _ _ u _ _ => !u
  | .vredi _ _ _ u _ _ s => s.toNat ≤ 2 && (!u || s != 0)
  | .vcmp _ _ _ _ u _ _ _ => !u
  | .fadd _ _ f s _ _ _ | .fsub _ _ f s _ _ _ | .fmul _ _ f s _ _ _ | .fma _ _ f s _ _ _
  | .fmin _ _ f s _ _ _ | .fmax _ _ f s _ _ _ => satLegal f s
  | .fabs _ _ f s _ _ | .fneg _ _ f s _ _ => satLegal f s
  | .fred _ _ f s _ _ sel => f.wide && !s && sel.toNat ≤ 2
  | .fsca _ _ f s _ _ _ => f.wide && !s
  | .fcmp _ _ _ f s _ _ _ => satLegal f s
  | .cvt _ _ sf _ _ df _ => sf != df
  | .qnt _ w m _ _ _ => w == .w1024 && m.toNat ≤ 1
  | .dqnt _ w m _ _ => w == .w1024 && m.toNat ≤ 1
  | .visect _ w z _ _ _ => w == .w1024 && z == .b32
  | .vmovp _ _ x d a => if x then d.toNat < 16 else a.toNat < 16
  | .fexp2 _ _ f _ _ | .flog2 _ _ f _ _ | .frcp _ _ f _ _ | .frsq _ _ f _ _ | .fsqrt _ _ f _ _ => f.wide
  | .fdiv _ _ f _ _ _ => f.wide
  | .ld _ d _ _ m | .lds _ d _ _ m | .ldr _ d _ _ m | .st _ d _ _ m | .sts _ d _ _ m => dataLegal d m
  | .stq _ d _ _ m => dataLegal d m
  | .ldp _ d _ _ _ _ _ => d.toNat < 32
  | .stp _ d _ _ _ _ => d.toNat < 32
  | .pacc _ d _ _ _ _ | .pdec _ d _ _ _ _ => d.toNat < 32
  | .qpop _ d m => m.isVector && d.toNat < 32
  | .qpush _ d _ => d.toNat < 32
  | .acas _ d _ _ _ => d.toNat < 63
  | .ecopy _ b _ ev _ nl _ evc => engineLegal b ev evc && nl.toNat ≤ 5
  | .egather _ b _ ev _ _ evc => engineLegal b ev evc
  | .ereduce _ b _ ev rop fmt evc => engineLegal b ev evc && rop != 3 && fmt != 3
  | .epage _ b _ ev dir _ _ _ evc => engineLegal b ev evc && (!dir || evc.toNat < 64)
  | .edict _ b _ ev _ evc => engineLegal b ev evc
  | .csrr _ _ n => (csrClass n.toNat).isSome
  | .csrw _ _ n => n.toNat != csrVpin && (csrClass n.toNat).isSome && csrClass n.toNat != some .live
  | .flags _ _ c l => (l.toNat ≤ 8 || l.toNat == 15) && !(c && l.toNat == 15)
  | .qarm _ p b => p.toNat ≤ 5 && b.toNat ≤ 24
  | _ => true

/-- The number of hardware contexts (01 R13): two for each core. -/
def numCtx : Nat := 2 * Config.cores

/-- Whether the numbers of a step name things that the part has (R13, R17, R20). -/
def numbersLegal : Instr → Bool
  | .variableResultLand c _ | .lateFaultReport c | .flipRelease c | .flipExchange c | .taskStart c
  | .contextFree c | .handlerEntry c | .contextStart c | .randomWordFill c | .preemption c
  | .contextRestore c | .faultRecordWrite c => c < numCtx
  | .portOperandFetch c n | .portOperandAvailable c n => c < numCtx && n < 6
  | .brkaWrite c n _ => c < numCtx && n < 4
  | .ctxcmdResume b c | .ctxcmdKill b c | .ctxcmdPreempt b c => b.part < 8 && c < numCtx
  | .qctlResume b q | .qctlDiscardHead b q | .qctlDiscardAll b q => b.part < 8 && q < 16
  | .walkerStart k | .clusterRetirement k | .replacementWriteback k _ => k < Config.clusters
  | .launch p q | .copy p q | .copyComplete p q | .depEvent p q | .depPageSet p q | .depComplete p q
  | .signal p q | .setdetQueue p q | .setdetPartition p q | .setdetComplete p q | .publish p q
  | .captureStart p q | .captureStop p q | .captureResume p q | .markOn p q | .markOff p q | .markDecl p q
  | .markSnap p q | .markMode p q | .watchdogPreempt p q | .watchdogKill p q | .watchdogFence p q => p < 8 && q < 16
  | .kernelDispatch p | .tlbinv p _ | .tlbinvComplete p | .dumpComplete p | .dumpEngineFault p | .rerunCompare p
  | .partitionFirmwareUpdate p _ | .partitionReconfiguration p _ _ _ _ _ | .ringTailAdvance p _ _ => p < 8
  | .monitorWrite p n _ _ | .monitorFailure p n | .monitorRelationHolds p n => p < 8 && n < 16
  | .capturePageWrite r => r < 8
  | .vlendWrite m _ => m < 512
  | .vaultRetraining v => v < 512
  | _ => true

end Sys2Proof
end

