-- ==== Sys2Proof/Machine/State.lean ====
section
/-! DEFINITION. The state of the whole device, as plain data, and the state after reset. Numbered things are
sparse tables in canonical form (`Tab`); a number that is not listed holds the value given for it here. -/
namespace Sys2Proof.Machine

/-- Why a step cannot be taken. -/
inductive Fault
  /-- Raised by the steps without a syllable when what they serve is not there (no such result in flight, no packet
  of that type at that head, ...), and by a turn of the agenda that comes before what its cycle fixes (log entry 1). Safe: the
  part takes no such step either. -/
  | notEnabled
  /-- Raised by a turn of the agenda that names a syllable: syllables run only inside a bundle. Safe: the part has no
  such step. -/
  | notAStep
  deriving DecidableEq, Repr

/-- Why an instruction has no meaning here. -/
inductive Refusal
  /-- Raised by an instruction that the model does not give a meaning. Safe. -/
  | notModelled (mnemonic : String)
  deriving DecidableEq, Repr

/-! ### Registers (02 R23) -/

/-- A register with two faces and its written bit (R28, R29). -/
structure Face (w : Nat) where
  v  : BitVec w := 0
  h  : BitVec w := 0
  wr : Bool := false
  deriving DecidableEq, Repr, Inhabited

/-- The register files, as FILE of R230 numbers them; `latch` is a result that reaches a latch only. -/
inductive RFile | s | v | p | e | csr | latch
  deriving DecidableEq, Repr, Inhabited

/-- Causes of a trap (16 R227). -/
inductive Cause
  | translation | version | illegalSyllable | illegalBundle | illegalOperand
  | staleLatch | queueOverflow | arithFlag | dataError | debug
  deriving DecidableEq, Repr, Inhabited

/-- A trap that a syllable raises: cause, condition, position, faulting address, imm8 (R227, R230). -/
structure Raised where
  cause : Cause := .translation
  cond  : Nat := 0
  pos   : Nat := 0
  faddr : Nat := 0
  imm   : Nat := 0
  /-- Cycles after issue at which it is raised: 0, or the latency for an arithmetic flag. -/
  after : Nat := 0
  /-- The flags that an arithmetic-flag trap sets when it is raised, and the FLG that collects them (R112). -/
  flags : Flags := 0
  fslot : Nat := 0
  /-- Where a data error stands: a device physical address or a fabric address (09 R155). -/
  loc   : Nat := 0
  deriving DecidableEq, Repr, Inhabited

/-- A register result in flight (02 R34, R35; 16 R230). -/
structure Result where
  id       : Nat := 0
  file     : RFile := .s
  reg      : Nat := 0
  /-- Byte enables after width and lane predicate. -/
  ben      : Pred := 0
  val      : Vec := 0
  /-- The latch that the landing updates, and the value it takes. -/
  unit     : Option Nat := none
  lval     : Vec := 0
  /-- Schedule count of the resolution cycle. -/
  due      : Nat := 0
  pos      : Nat := 0
  /-- Number of the bundle in issue order. -/
  seq      : Nat := 0
  baddr    : Nat := 0
  isVar    : Bool := false
  /-- Whether the memory system has delivered the value. -/
  ready    : Bool := true
  /-- Device cycle about which the value arrives below the locked level (09 R148). -/
  at_      : Nat := 0
  /-- Of a VERPUB's result: the device cycle that ends, at the locked level, the stall for its landing (14 R213). -/
  clocked  : Option Nat := none
  flags    : Flags := 0
  fslot    : Nat := 0
  /-- A fault found after issue (R229), and whether it is known before the resolution cycle: at a version step (R217). -/
  late     : Option Raised := none
  found    : Bool := false
  /-- The syllable and its effective address, for a reissue entry (R230). -/
  syl      : Nat := 0
  ea       : Nat := 0
  deriving DecidableEq, Repr, Inhabited

/-- A write that has landed in this phase, for the double-write rule (R32). -/
structure Landed where
  file  : RFile := .s
  reg   : Nat := 0
  ben   : Pred := 0
  due   : Nat := 0
  pos   : Nat := 0
  seq   : Nat := 0
  deriving DecidableEq, Repr, Inhabited

/-! ### Parts of a context -/

/-- An active loop of the dobby (21 R304 to R306). -/
structure Loop where
  lvl   : Nat := 0
  /-- Body length in bundles. -/
  len   : Nat := 0
  /-- Iterations, the present iteration, the present body bundle. -/
  count : Nat := 0
  iter  : Nat := 0
  pos   : Nat := 0
  /-- First- and last-iteration masks by body bundle. -/
  first : Nat := 0
  last  : Nat := 0
  /-- Address of body bundle 0. -/
  start : Nat := 0
  deriving DecidableEq, Repr, Inhabited

/-- An operand that a global walk has fetched ahead (21 R311). -/
structure Fetched where
  /-- Device cycle at which the fetch began, whether the operand has arrived, its value, its fault. -/
  began : Nat := 0
  here  : Bool := false
  val   : Nat := 0
  fault : Option Raised := none
  deriving DecidableEq, Repr, Inhabited

/-- A port walker (21 R310, R311). -/
structure Walker where
  armed  : Bool := false
  glob   : Bool := false
  nl     : Nat := 0
  clog   : Nat := 0
  opw    : Nat := 0
  start  : Nat := 0
  counts : List Nat := []
  strides : List Int := []
  /-- Operands popped so far. -/
  popped : Nat := 0
  ahead  : List Fetched := []
  lastFetch : Option Nat := none
  /-- Pages whose walks have failed for the operand that arrives next, with the condition (09 R160, R161). -/
  walked : List (Nat × Raised) := []
  /-- The device cycle from which it may fetch (R311): one after the QARM, and one after a flip that discards. -/
  from_  : Nat := 0
  deriving DecidableEq, Repr, Inhabited

/-- A FLIP or a RETIRE that waits (02 R37, 03 R53; FPROG of 16 R230). -/
structure FlipWait where
  retire   : Bool := false
  bar      : BScope := .nb
  pub      : PScope := .none
  baddr    : Nat := 0
  pos      : Nat := 0
  /-- Schedule count at which the writes had landed. -/
  landedAt : Option Nat := none
  released : Bool := false
  arrived  : Bool := false
  /-- The cycle F that the barrier line has fixed (R54). -/
  fire     : Option Nat := none
  deriving DecidableEq, Repr, Inhabited

/-- A completion handler in progress (02 R43, R44): where RETH resumes. -/
structure Handler where
  pc   : Nat := 0
  wait : Option FlipWait := none
  /-- The interrupted context is a resumed one whose next bundle is not matched by a breakpoint (18 R240). -/
  noBrk : Bool := false
  deriving DecidableEq, Repr, Inhabited

/-- What a context is doing (03 R52, R53; 16 R228, R234). -/
inductive Run
  /-- No kernel holds it. -/
  | free
  /-- The clear engine works on it or will: the cycles at which the clear begins and ends. -/
  | clearing (start till : Nat)
  | running
  /-- Between tasks: the cycle at which the next task may issue (R53). -/
  | between (till : Nat)
  /-- After the last RETIRE, waiting for engine commands (R53). -/
  | finishing
  /-- Trapped; the record is not yet written (R228). -/
  | stopping
  | stopped
  /-- Saved to its slot (R234). -/
  | preempted
  /-- Killed: it is free once it has stopped (R61). -/
  | dying
  deriving DecidableEq, Repr, Inhabited

/-- Flags without a register result that reach the hidden face at a schedule count (22 R343), or when the read of a plied
update returns (21 R308): below the locked level about device cycle `at_`. -/
structure FlagDue where
  due   : Nat := 0
  isVar : Bool := false
  at_   : Nat := 0
  /-- Number of the bundle in issue order. -/
  seq   : Nat := 0
  fslot : Nat := 0
  baddr : Nat := 0
  pos   : Nat := 0
  flags : Flags := 0
  deriving DecidableEq, Repr, Inhabited

/-- What the fault record of a stopped context holds (16 R230). -/
structure Stop where
  raised : Raised := {}
  baddr  : Nat := 0
  rpc    : Nat := 0
  done   : Nat := 0
  hnd    : Bool := false
  fwait  : Bool := false
  /-- Later faults of the same context, each with the address of its bundle (18 R253). -/
  more   : List (Raised × Nat) := []
  /-- A resume (1) or kill (2) that came before the record was written (R232). -/
  held   : Option Nat := none
  /-- The arithmetic cycle of the trap (18 R253). -/
  at_    : Nat := 0
  deriving DecidableEq, Repr, Inhabited

/-- A view: one commit number for each instance that contains the context (10 R168, R170). -/
structure View where
  live : Bool := false
  clu  : Nat := 0
  dev  : Nat := 0
  sys  : Nat := 0
  deriving DecidableEq, Repr, Inhabited

/-- The share of a slice that a context runs (03 R46, R51, R53), and its place. -/
structure Share where
  kernel : Nat := 0
  queue  : Nat := 0
  entry  : Nat := 0
  args   : List Word64 := []
  /-- The ordinal of the present tile, the end of the slice, and the step to the context's next tile. -/
  tile   : Nat := 0
  tileEnd : Nat := 0
  tileStep : Nat := 1
  lcorex : Nat := 0
  lcorey : Nat := 0
  lcore  : Nat := 0
  lclu   : Nat := 0
  lpart  : Nat := 0
  stage  : Nat := 0
  nstage : Nat := 0
  deriving DecidableEq, Repr, Inhabited

/-- Allocation of a context (03 R47): SCNT + 1, VCNT, ECNT registers, SPAD granules at SPBASE. -/
structure Alloc where
  scnt   : Nat := 0
  vcnt   : Nat := 0
  ecnt   : Nat := 0
  spad   : Nat := 0
  spbase : Nat := 0
  deriving DecidableEq, Repr, Inhabited

/-- A pending byte, with the place of its store in the context's order of issue (10 R168, 22 R321). -/
structure Pend where
  byte : Byte := 0
  at_  : Nat := 0
  /-- The store is a plied access: its bytes stay together until they reach the vault (10 R185). -/
  plied : Bool := false
  deriving DecidableEq, Repr, Inhabited

/-- A byte that was pending at a location until a later store of the context took its place, for what reads as of a place before that
store (10 R169, 22 R321): its own place in the order of issue, and that of the store that replaced it. -/
structure Past where
  loc  : Nat := 0
  byte : Byte := 0
  at_  : Nat := 0
  till : Nat := 0
  deriving DecidableEq, Repr, Inhabited

/-- A deviation record in progress (18 R241, R242). -/
structure Dev where
  cause : Nat := 0
  baddr : Nat := 0
  pos   : Nat := 0
  start : Nat := 0
  cyc   : Nat := 0
  /-- The device cycle that it last counted. -/
  upto  : Nat := 0
  deriving DecidableEq, Repr, Inhabited

/-- A hardware context (02 R23). -/
structure Ctx where
  run     : Run := .free
  /-- The context has executed its last RETIRE (R53): it is no participant of a barrier any more. -/
  ended   : Bool := false
  /-- Determinism level 0 to 2 (16 R224). -/
  level   : Nat := 0
  s       : Tab (Face 64) := []
  v       : Tab (Face 1024) := []
  p       : Tab (Face 128) := []
  e       : Tab (Face 64) := []
  h       : Tab Word64 := []
  /-- Control and status CSRs by number (R31, R280). -/
  csr     : Tab (Face 64) := []
  /-- Latches b0 to b7; `none` is empty (R27, R41). -/
  latch   : Tab (Option Vec) := []
  /-- The schedule cycles in which the latches took what they hold (16 R234). -/
  latchAt : Tab Nat := []
  alloc   : Alloc := {}
  share   : Share := {}
  /-- TC0 to TC5 (R46). -/
  tc      : Tab Nat := []
  pc      : Nat := 0
  /-- Address of the latest bundle that has issued whole (16 R229). -/
  last    : Nat := 0
  /-- The schedule count at which the next bundle issues (R34). -/
  count   : Nat := 0
  /-- Cycle of the first issue (CYCLE of R281). -/
  birth   : Option Nat := none
  /-- PHASE (14 R216). -/
  phase   : Nat := 0
  /-- The two halves of PFDROP (09 R166). -/
  pfFault : Nat := 0
  pfBusy  : Nat := 0
  /-- LIDX0 to LIDX5 (R305). -/
  lidx    : Tab Word64 := []
  loops   : List Loop := []
  /-- A loop that the bundle at `pc` begins, and where that bundle sends control: both take effect when all of
  its syllables have issued (R305, 16 R232). -/
  newLoop : Option Loop := none
  target  : Option Nat := none
  inflight : List Result := []
  flagsDue : List FlagDue := []
  /-- The device cycle of the flag event that stands on the hidden face of FEVT (06 R112). -/
  fevtAt  : Option Nat := none
  /-- Numbers the bundles and the results. -/
  seq     : Nat := 0
  landed  : List Landed := []
  ports   : Tab Walker := []
  /-- The random-bit queue and n (06 R110). -/
  rnd     : List Word64 := []
  rndN    : Nat := 0
  /-- The cycle of the latest word: one word in each. -/
  rndAt   : Option Nat := none
  /-- Counts of the three native generators (06 R109). -/
  srCount : Tab Nat := []
  /-- Pending bytes by location (10 R168). -/
  pending : Tab (Option Pend) := []
  /-- Bytes that were pending before later stores of the same phase, while something issued before those may still read (22 R321). -/
  past    : List Past := []
  /-- Pending lines that found no room in the cluster cache and stand in the writer's vault (10 R170). -/
  spilled : List Nat := []
  view    : View := {}
  /-- The counters that reads of versioned regions follow: those of the view, or of the latest exchange of VPIN (14 R219). -/
  verView : View := {}
  /-- The commit, by its tag plus 1, that was the newest when the read-only cache last dropped this context's lines; 0 for none
  (09 R157). -/
  roFloor : Nat := 0
  flip    : Option FlipWait := none
  handler : Option Handler := none
  /-- Completion words of interrupts not yet taken (R43). -/
  irq     : List Word64 := []
  /-- The bundle at `pc` still to be issued in part: its DONE mask and whether a breakpoint is passed (16 R232, 18 R240). -/
  redo    : Option Nat := none
  stop    : Option Stop := none
  /-- Number of the version that the latest VERSW of the phase pinned (14 R214). -/
  pin     : Option Nat := none
  /-- A pre-emption asked for (16 R234). -/
  preempt : Bool := false
  /-- A debug stop asked for by a monitor (18 R246). -/
  halt    : Bool := false
  /-- BRKA0 to BRKA3, and writes that wait for a boundary (18 R239). -/
  brka    : Tab Word64 := []
  brkaNew : List (Nat × Word64) := []
  /-- Walk results of the waiting bundle that no TLB keeps: page and condition (09 R160, R161). -/
  walked  : List (Nat × Raised) := []
  /-- The cycle until which the flag hold keeps the next bundle back, and below the locked level the number of the bundle
  whose reads have to return first (20 R268). -/
  hold    : Nat := 0
  holdFor : Option Nat := none
  devs    : List Dev := []
  /-- STQs sent since the last release and not yet accepted (10 R175, 22 R325). -/
  stqs    : Nat := 0
  stqBy   : Nat := 0
  /-- Class 9 has been used since the start (07 R130). -/
  usedX   : Bool := false
  /-- Breakpoints are not matched for the next issue (18 R240). -/
  noBrk   : Bool := false
  /-- A RETH has executed in the bundle at `pc`, which has trapped and has still to be finished (04 R74, 21 R316). -/
  leaving : Bool := false
  deriving DecidableEq, Repr, Inhabited

/-! ### Parts of a core -/

/-- A cell of the array: accumulator, poison bit, residue (07 R130, R139). -/
structure Cell where
  acc    : BitVec 48 := 0
  poison : Bool := false
  res    : BitVec 4 := 0
  deriving DecidableEq, Repr, Inhabited

/-- A bank of the array: cells by 64·row + column, configuration, drain pointer (07 R130). -/
structure Bank where
  cells : Tab Cell := []
  i     : Nat := 0
  j     : Nat := 0
  dexp  : Int := 0
  drain : Nat := 0
  deriving DecidableEq, Repr, Inhabited

/-- The matrix array (07 R130). An attribute is 8 × (sign, exponent) packed as 24 bits, by 64·row + entry. -/
structure MatrixArray where
  bank0 : Bank := {}
  bank1 : Bank := {}
  cur   : Bool := false
  beat  : Nat := 0
  aAttr : Tab Nat := []
  bAttr : Tab Nat := []
  deriving DecidableEq, Repr, Inhabited

/-- A tile in the transpose queue (07 R141). -/
structure Tile where
  size   : Nat := 0
  rows   : List Nat := []
  popped : Nat := 0
  /-- Device cycle of the last push. -/
  last   : Nat := 0
  deriving DecidableEq, Repr, Inhabited

/-- A TLB entry (09 R161, 14 R211): partition, virtual address of the page, size code, descriptor; the region and
slot for a page of a versioned region. -/
structure TlbEntry where
  part   : Nat := 0
  va     : Nat := 0
  size   : Nat := 0
  word0  : Nat := 0
  word1  : Nat := 0
  region : Option (Nat × Nat) := none
  deriving DecidableEq, Repr, Inhabited

/-- A line of an L1 (09 R149, R151): address, the sectors present, for each sector 0 or the number + 1 of the context that
has stored to it, the read count if it has one. -/
structure L1Line where
  line    : Nat := 0
  sectors : Nat := 0
  owner0  : Nat := 0
  owner1  : Nat := 0
  count   : Option Nat := none
  deriving DecidableEq, Repr, Inhabited

/-- Bytes that XDRAIN has read and that are written to scratchpad at a fixed cycle (07 R138). -/
structure DrainWrite where
  ctx  : Nat := 0
  at_  : Nat := 0
  /-- Between two tasks, when the schedule count has no turns: the device cycle of the write. -/
  till : Option Nat := none
  data : List (Nat × Byte) := []
  deriving DecidableEq, Repr, Inhabited

/-- The occupied set of a bundle (03 R58): units, read ports, vector width. -/
structure Occ where
  ctx   : Nat := 0
  units : List Nat := []
  ports : List Nat := []
  width : Nat := 0
  deriving DecidableEq, Repr, Inhabited

/-- A core (01 R13). -/
structure CoreSt where
  spad    : Tab Byte := []
  /-- Scratchpad as it stood at the start of the cycle, which reads see (09 R145). -/
  spad0   : Tab Byte := []
  /-- Offsets that XDRAIN and STS have written in this cycle, over which what the order of R145 puts before them does not
  prevail. -/
  drained : List Nat := []
  stored  : List Nat := []
  /-- Offsets that engines have written in this cycle. -/
  moved   : List Nat := []
  /-- 64-bit words of scratchpad that hold an uncorrectable error (09 R156). -/
  bad     : List Nat := []
  drains  : List DrainWrite := []
  arr     : MatrixArray := {}
  tiles   : List Tile := []
  tlb     : List TlbEntry := []
  l1      : List L1Line := []
  fused   : Bool := false
  /-- Context 1's denials in a row, the cycle of the latest, and the occupied set of the bundle that has issued in this cycle (03 R58). -/
  denied  : Nat := 0
  deniedAt : Nat := 0
  issued  : Option Occ := none
  /-- DVBASE, DVHEAD, DVTAIL, DVCTL EN and FRZ, and the records dropped (18 R243). -/
  dvBase  : Word64 := 0
  dvHead  : Nat := 0
  dvTail  : Nat := 0
  dvEn    : Bool := false
  dvFrz   : Bool := false
  dvLost  : Nat := 0
  retired : Bool := false
  fenced  : Bool := false
  /-- Cycle of the last chunk of the core's previous command plus P, for each engine (12 R202). -/
  engNext : Tab Nat := []
  deriving DecidableEq, Repr, Inhabited

/-! ### Parts of a cluster -/

/-- A byte committed at cluster scope and not yet flushed, with its place in the order of commits (10 R169, R171). -/
structure Unflushed where
  loc  : Nat := 0
  byte : Byte := 0
  at_  : Nat := 0
  /-- The plied access that wrote it, among those of its commit; 0 for none (10 R185). -/
  access : Nat := 0
  deriving DecidableEq, Repr, Inhabited

/-- A barrier line (03 R54, R55). -/
structure Line where
  holder  : Option Nat := none
  arrived : List Nat := []
  deriving DecidableEq, Repr, Inhabited

/-- A dictionary slot (12 R198): the face in use and the pending face, as their bytes; `none` is empty. -/
structure DictSlot where
  use     : Option (List Byte) := none
  pend    : Option (List Byte) := none
  /-- Which of the two faces is the one in use. -/
  face    : Bool := false
  /-- An EDICT has completed since the last exchange; its cycle. -/
  loaded  : Option Nat := none
  /-- The cycle of the last exchange: a command issued in that cycle still has the old face. -/
  swapped : Option Nat := none
  deriving DecidableEq, Repr, Inhabited

/-- A cluster (01 R13, R17). -/
structure Cluster where
  part    : Option Nat := none
  retired : Bool := false
  commits : Nat := 0
  /-- Oldest first. -/
  unflushed : List Unflushed := []
  line    : Line := {}
  dict    : Tab DictSlot := []
  tlb     : List TlbEntry := []
  /-- Lines present in the cluster cache, most recently used first, and lines marked poisoned (09 R152, R156). -/
  lines   : List Nat := []
  poisoned : List Nat := []
  /-- What LDR has last returned, by context of a kernel and location: the newest commit that the value reflects, by its tag plus 1
  (09 R157). -/
  ro      : List (Nat × Nat × Nat) := []
  deriving DecidableEq, Repr, Inhabited

/-! ### Memory traffic -/

/-- The instance of a commit (10 R167). -/
inductive Inst | cluster (k : Nat) | device | system
  deriving DecidableEq, Repr, Inhabited

/-- A commit (10 R168): its instance and number, and for each location the byte written and the byte that the
point of coherence held before. -/
structure Commit where
  inst  : Inst := .device
  num   : Nat := 0
  /-- Its name: how many were listed when it was made. -/
  tag   : Nat := 0
  /-- The device cycle in which it was made. -/
  cycle : Nat := 0
  bytes : List (Nat × Byte × Byte) := []
  deriving DecidableEq, Repr, Inhabited

/-- What a tagged write does to the bytes of its line (10 R175, 12 R195). -/
inductive TagAct
  | bytes (b : List (Nat × Byte))
  | reduce (rop fmt : Nat) (elems : List (Nat × Nat))
  deriving DecidableEq, Repr, Inhabited

/-- A tagged write on its way to a vault or held there (10 R175). -/
structure TagWrite where
  line  : Nat := 0
  tag   : Nat := 0
  act   : TagAct := .bytes []
  /-- The context of an STQ, and the number of the engine command of an EREDUCE. -/
  ctx   : Nat := 0
  cmd   : Option Nat := none
  kernel : Nat := 0
  part  : Nat := 0
  baddr : Nat := 0
  pos   : Nat := 0
  start : Nat := 0
  /-- Since which cycle the vault holds it. -/
  held  : Option Nat := none
  /-- The device that has sent it, if it is not this one. -/
  peer  : Option Nat := none
  /-- Cycle at which it may arrive (22 R325, 12 R202). -/
  due   : Nat := 0
  /-- The place of an STQ in its context's order of issue, as results are numbered. -/
  num   : Nat := 0
  /-- TAG of the LAUNCH of an STQ's kernel (19 R254). -/
  launch : Nat := 0
  deriving DecidableEq, Repr, Inhabited

/-- An atomic on its way (10 R172). -/
structure Atomic where
  ctx   : Nat := 0
  /-- The result that its old value goes to. -/
  res   : Nat := 0
  inst  : Inst := .device
  loc   : Nat := 0
  size  : Nat := 0
  op    : Option AtomOp := none
  arg   : Nat := 0
  swap  : Nat := 0
  /-- Another device is the home (09 R146). -/
  remote : Bool := false
  /-- It has met a fault and waits for the context to resume (16 R229). -/
  held  : Bool := false
  deriving DecidableEq, Repr, Inhabited

/-- A VERPUB or VERSW request on its way (14 R213, R215); `held` after a fault, until the context resumes (16 R229). -/
structure VerReq where
  ctx   : Nat := 0
  held  : Bool := false
  pub   : Bool := false
  named : Option Nat := none
  res   : Nat := 0
  /-- Cycle of issue: the step comes later. -/
  issued : Nat := 0
  deriving DecidableEq, Repr, Inhabited

/-- Who asks for a walk (09 R161, R162). -/
inductive Asker | bundle (c : Nat) | port (c n : Nat) | prefetch (c : Nat) (toL1 global : Bool) | engine (n : Nat) | none
  deriving DecidableEq, Repr, Inhabited

/-- A translation walk, waiting or in flight (09 R161, R162). -/
structure Walk where
  who     : Asker := .bundle 0
  cluster : Nat := 0
  core    : Nat := 0
  part    : Nat := 0
  va      : Nat := 0
  region  : Option (Nat × Nat) := none
  /-- It has joined a walk in flight and takes no walker. -/
  joined  : Bool := false
  /-- Cycle at which it ends at the locked level (R164). -/
  till    : Nat := 0
  /-- Cycle of the request, and the asking context's schedule count then (18 R241). -/
  since   : Nat := 0
  start   : Nat := 0
  deriving DecidableEq, Repr, Inhabited

/-- An engine command in flight (12 R191), or the ECOPY of a COPY packet (19 R256). -/
structure EngCmd where
  id     : Nat := 0
  op     : Nat := 0
  cmdh   : Nat := 0
  stage  : List Word64 := []
  vpin   : Nat := 0
  ctx    : Nat := 0
  core   : Nat := 0
  cluster : Nat := 0
  part   : Nat := 0
  kernel : Nat := 0
  level  : Nat := 0
  baddr  : Nat := 0
  pos    : Nat := 0
  /-- Cycle of issue. -/
  issued : Nat := 0
  /-- The record read at issue with SHP = 1, or the STATUS for why it was not (R192, R193, R203). -/
  shape  : Option (List Byte) := none
  shapeErr : Nat := 0
  /-- The dictionary bound at issue, and which face of its slot it is (R198). -/
  dict   : Option (Option (List Byte)) := none
  face   : Bool := false
  /-- TAG of the kernel's LAUNCH (19 R254). -/
  tag    : Nat := 0
  /-- The indices of an EGATHER that have been read for rows that further chunks hold too (R194). -/
  rows   : List (Nat × Nat) := []
  /-- Chunks performed; the cycle at which the next performs at the locked level. -/
  chunk  : Nat := 0
  nextAt : Nat := 0
  /-- The chunk that a translation miss has delayed last (R164): a chunk is delayed once. -/
  late   : Option Nat := none
  /-- Chunks below the locked level that a missing page keeps back while later ones go on (R161). -/
  behind : List Nat := []
  /-- The record of the cycles in which a walk has kept chunks of it back without a break (18 R242). -/
  wait   : Option Dev := none
  /-- Lines sent and not yet performed (EREDUCE). -/
  tagged : Nat := 0
  /-- STATUS of R200 once an error has stopped it. -/
  err    : Nat := 0
  /-- Set when the context was killed: its interrupt is discarded (R199). -/
  orphan : Bool := false
  /-- The symmetry of its kernel's placement (03 R50). -/
  sym    : Nat := 0
  /-- Partition and queue of a COPY packet. -/
  copy   : Option (Nat × Nat) := none
  /-- Walks that failed for its pages (09 R160). -/
  walked : List (Nat × Nat) := []
  deriving DecidableEq, Repr, Inhabited

/-! ### Partitions, queues and kernels -/

/-- The state of the head of a queue (03 R56, 16 R226). -/
inductive Head
  /-- The head packet has not begun. -/
  | idle
  /-- It has been checked and waits: a ready LAUNCH, a DEP, a SETDET, a record that needs log room. -/
  | waiting
  /-- The number of the kernel or of the COPY's command that runs. -/
  | running (n : Nat)
  deriving DecidableEq, Repr, Inhabited

/-- A packet in queue memory with its arrival number and SEQ (19 R257, 18 R248). -/
structure QPacket where
  pk      : Packet
  arrival : Nat := 0
  /-- Its SEQ if it was accepted under capture, else 0; and whether its log record is still owed (18 R250). -/
  seq     : Nat := 0
  owed    : Bool := false
  /-- In a replay, the SEQ of its packet's record in the log (18 R251). -/
  logged  : Option Nat := none
  /-- A watchdog of the locked level has marked its kernel as not replayable (03 R61). -/
  nr      : Bool := false
  deriving DecidableEq, Repr

/-- Statuses of a halted queue (03 R48, R61; 16 R232, R235; 18 R252, R253; 19 R256, R346). -/
inductive Halt | launchError | copyError | packetError | killed | dataError | fault | dumpEngine
  deriving DecidableEq, Repr, Inhabited

/-- One of the sixteen queues of a partition (03 R56). -/
structure Queue where
  level   : Nat := 0
  packets : List QPacket := []
  head    : Head := .idle
  halt    : Option Halt := none
  watch   : Nat := 0
  lim1    : Nat := Config.watchdog1
  lim2    : Nat := Config.watchdog2
  lim3    : Nat := Config.watchdog3
  /-- Cycle of the last kill, and which steps have acted for this head. -/
  acted   : Nat := 0
  /-- Declared regions (18 R247): address, length, out. -/
  declared : List (Nat × Nat × Bool) := []
  /-- The latest logged snapshot of the declared in-regions (16 R235). -/
  snap     : Option (List (Nat × List Byte)) := none
  /-- The body of a digest record that waits for log room (18 R249, R250). -/
  digest   : Option (List Byte) := none
  deriving DecidableEq, Repr, Inhabited

/-- A monitor (18 R244): the two dwords; whether it fails; whether the sample of this cycle (R246) differs from that. -/
structure Monitor where
  d0      : Word64 := 0
  d1      : Word64 := 0
  failing : Bool := false
  turned  : Bool := false
  deriving DecidableEq, Repr, Inhabited

/-- A kernel in flight (03 R47 to R55; 18 R249). -/
structure Kernel where
  id      : Nat := 0
  part    : Nat := 0
  queue   : Nat := 0
  desc    : List Word64 := []
  level   : Nat := 0
  /-- PRIO of its LAUNCH and the packet's arrival (R57). -/
  prio    : Nat := 0
  arrival : Nat := 0
  /-- Its contexts, and those that have not yet been freed. -/
  ctxs    : List Nat := []
  left    : List Nat := []
  clusters : List Nat := []
  /-- Column and row of the physical origin in the device's mesh, and the symmetry (R50). -/
  orgx    : Nat := 0
  orgy    : Nat := 0
  sym     : Nat := 0
  captured : Bool := false
  seq     : Nat := 0
  /-- In a replay, the SEQ of its LAUNCH's record in the log (18 R251). -/
  logged  : Option Nat := none
  nr      : Bool := false
  /-- CYC of R249: the largest schedule count at a last exchange. -/
  cyc     : Nat := 0
  /-- The scratchpad granules at which the allocations of kernel contexts 0 and 1 begin on every core (09 R144). -/
  bases   : List Nat := []
  /-- Rerun 1 or 2 of R235. -/
  rerun   : Nat := 0
  deriving DecidableEq, Repr, Inhabited

/-- How one of the two runs after a data error ended (16 R235). -/
inductive RunEnd | retired (digest : List Byte) (cyc : Nat) (nr : Bool) | trapped (baddr pos faddr loc : Nat)
  deriving DecidableEq, Repr, Inhabited

/-- A data-error rerun in progress (16 R235): the core of the first record, the kernel as it first ran, and how the runs that
have ended did. -/
structure Rerun where
  core   : Nat := 0
  kernel : Kernel := {}
  ends   : List RunEnd := []
  deriving DecidableEq, Repr, Inhabited

/-- A partition (01 R17) with its control block (19 R261). -/
structure Part where
  on      : Bool := false
  x       : Nat := 0
  y       : Nat := 0
  w       : Nat := 0
  h       : Nat := 0
  pbase   : Nat := 0
  /-- Cycle of configuration (18 R245). -/
  since   : Nat := 0
  queues  : Tab Queue := []
  counters : Tab Word64 := []
  arrivals : Tab Nat := []
  line    : Line := {}
  /-- Stopped by a fault of its dump engine (18 R253), or draining for a firmware update (19 R265). -/
  dead    : Bool := false
  draining : Bool := false
  ptroot  : Word64 := 0
  busy    : Bool := false
  inval   : List (Nat × Nat) := []
  frbase  : Word64 := 0
  svbase  : Word64 := 0
  mons    : Tab Monitor := []
  /-- GATE of R243, which the filter monitors hold open, and the actions on DVCTL that the next cycle brings (R246). -/
  gate    : Bool := true
  ringActs : List Nat := []
  logBase : Word64 := 0
  logLen  : Nat := 0
  logHead : Nat := 0
  logTail : Nat := 0
  logOn   : Bool := false
  logMark : Bool := false
  logSeq  : Nat := 0
  /-- A gap in the log: the first SEQ not logged and the number not logged, with the offset of its record (18 R250). -/
  gap     : Option (Nat × Nat × Nat) := none
  /-- A replay in progress: the SEQ that it begins with, and for each queue the SEQ of its latest LAUNCH (18 R251). -/
  replay  : Option Nat := none
  replayAt : Tab (Option Nat) := []
  fatal   : Word64 := 0
  dmpBase : Word64 := 0
  dmpShift : Nat := 0
  dmpHead : Nat := 0
  dmpTail : Nat := 0
  /-- Contexts whose dumps wait or are in progress (18 R252, R253). -/
  dumps   : List Nat := []
  reruns  : List Rerun := []
  fwImage : List Byte := []
  deriving DecidableEq, Repr, Inhabited

/-! ### The device -/

/-- A pre-empted context (16 R234): what the save slot keeps of the core, and the context itself once another kernel
has been dispatched into its place. -/
structure Saved where
  c      : Nat := 0
  kernel : Nat := 0
  away   : Option Ctx := none
  /-- What the context was doing. -/
  run    : Run := .running
  spad   : List Byte := []
  arr    : Option MatrixArray := none
  tiles  : List Tile := []
  /-- Drains that wait for their schedule cycle (07 R138). -/
  drains : List DrainWrite := []
  deriving DecidableEq, Repr

/-- An event message (19 R258). -/
structure Message where
  dest : Nat := 0
  d0   : Word64 := 0
  body : List Word64 := []
  deriving DecidableEq, Repr, Inhabited

/-- The answer to an access of another device (09 R146, R165): the bytes or the old value, or the refusal. -/
structure Reply where
  dest    : Nat := 0
  refused : Option (Cause × Nat) := none
  bytes   : List Byte := []
  deriving DecidableEq, Repr, Inhabited

/-- A claim of ownership (19 R260). -/
structure Claim where
  src   : Nat := 0
  epoch : Nat := 0
  tag   : Nat := 0
  deriving DecidableEq, Repr, Inhabited

/-- Who owns the device (19 R260): the owner, the epoch, LEASE, the cycle of the owner's last message, the election. -/
structure Owner where
  id       : Option Nat := none
  epoch    : Nat := 0
  lease    : Nat := Config.leaseDefault
  heard    : Nat := 0
  claims   : List Claim := []
  closes   : Option Nat := none
  deriving DecidableEq, Repr, Inhabited

/-- A capture of a version to flash (14 R220): the slot, FBASE, and the event counter's partition. -/
structure Capture where
  region : Nat := 0
  slot   : Nat := 0
  fbase  : Nat := 0
  deriving DecidableEq, Repr, Inhabited

/-- A live-service operation (19 R265). -/
inductive Service | firmware (p : Nat) (image : List Byte) | vault (v : Nat) | port (n : Nat)
  deriving DecidableEq, Repr, Inhabited

/-- What the syllable being issued may lend, read and raise (04 R65 to R74). -/
inductive Kind | reg | latch | pop | peek
  deriving DecidableEq, Repr, Inhabited

/-- A lend (R66), with the extension of a type-1 header (R65). -/
structure Lend where
  ak  : Kind := .reg
  bk  : Kind := .reg
  ws  : Bool := false
  lp  : Nat := 0
  ext : Option Nat := none
  deriving DecidableEq, Repr, Inhabited

/-- The syllable slot at which a bundle stands: the model's own field. -/
structure Slot where
  ctx    : Nat := 0
  baddr  : Nat := 0
  pos    : Nat := 0
  word   : Nat := 0
  unit   : Option Nat := none
  fslot  : Nat := 0
  lend   : Lend := {}
  raised : List Raised := []
  /-- Ports and scratchpad as they stood before the bundle (R72, R145). -/
  ports  : Tab Walker := []
  spad   : Tab Byte := []
  /-- h0 to h7 before the bundle: a result is readable by the next bundle (R44). -/
  h      : Tab Word64 := []
  /-- The word that the bundle draws from the random-bit queue (06 R110). -/
  word64 : Word64 := 0
  /-- Where the bundle ends. -/
  next   : Nat := 0
  /-- The bundle issues again after a trap (16 R232). -/
  resumed : Bool := false
  /-- RETH was executed. -/
  leave  : Bool := false
  /-- The syllable has read scratchpad bytes with an uncorrectable error (09 R156). -/
  ecc    : Bool := false
  deriving DecidableEq, Repr, Inhabited

/-- A turn of the agenda: which agent moves next. The model's own. -/
inductive Turn
  /-- One of the steps without a syllable. -/
  | event (i : Instr)
  /-- A context takes its turn in this cycle: it issues, waits or stalls. -/
  | issue (c : Nat)
  /-- A participant of the fabric reads a register of a control block (19 R260). -/
  | readRegister (src block reg : Nat)
  /-- The arithmetic cycle ends. -/
  | tick
  /-- An uncorrectable error strikes: DRAM word at a device physical address (09 R155). -/
  | upsetDram (dpa : Nat)
  /-- A single-bit error of a unit is corrected; units number as in `health` (09 R155, R156). -/
  | corrected (unit : Nat)
  /-- An uncorrectable error strikes a scratchpad word (09 R156). -/
  | upsetSpad (core addr : Nat)
  /-- An uncorrectable error strikes a line of a cluster cache (09 R156). -/
  | upsetLine (cluster line : Nat)
  /-- An uncorrectable error strikes a line of an L1 or of a read-only cache, which are always clean (09 R156). -/
  | upsetL1 (core line : Nat)
  | upsetReadOnly (cluster line : Nat)
  /-- A cell of the array takes a wrong value (07 R139). -/
  | upsetCell (core bank cell : Nat) (acc : BitVec 48)
  deriving DecidableEq, Repr

/-- The whole device. -/
structure State where
  /-- Arithmetic cycles since the model's origin (00 R2). -/
  cycle    : Nat := 0
  ctxs     : Tab Ctx := []
  cores    : Tab CoreSt := []
  clusters : Tab Cluster := []
  parts    : Tab Part := []
  kernels  : List Kernel := []
  /-- Numbers kernels, engine commands and arrivals. -/
  serial   : Nat := 0
  /-- DRAM at the device point of coherence, by device physical address (09 R153). -/
  dram     : Tab Byte := []
  /-- 32-byte words of DRAM with an uncorrectable error, and lines marked poisoned (09 R155). -/
  badDram  : List Nat := []
  poisoned : List Nat := []
  /-- Memory of other devices and flash shelves as this device has written it, by fabric address (12 R203). -/
  remote   : Tab (Option Byte) := []
  devCommits : Nat := 0
  sysCommits : Nat := 0
  /-- Newest first (10 R168, R169). -/
  commits  : List Commit := []
  /-- Sequence tags by line (10 R175). -/
  tags     : Tab Nat := []
  tagWrites : List TagWrite := []
  atomics  : List Atomic := []
  verReqs  : List VerReq := []
  saved    : List Saved := []
  engines  : List EngCmd := []
  walksWaiting : List Walk := []
  walks    : List Walk := []
  /-- Event messages sent, oldest first; those kept while there is no owner, and how many were dropped (19 R258). -/
  sent     : List Message := []
  kept     : List Message := []
  dropped  : Nat := 0
  owner    : Owner := {}
  /-- This device's fabric id. -/
  devId    : Nat := 0
  vlend    : Tab Word64 := []
  vrtbase  : Word64 := 0
  captures : List Capture := []
  routes   : Tab Nat := []
  shelves  : List Nat := []
  alarmCfg : Word64 := 0
  alarm    : Option Nat := none
  keysGone : Bool := false
  services : List Service := []
  queuedServices : List Service := []
  powerHigh : Bool := false
  /-- Corrected errors of vaults, of cores (from 512) and of clusters (from 1,024) (09 R155, R156). -/
  health   : Tab Nat := []
  /-- Answers to accesses of other devices, oldest first (09 R146). -/
  replies  : List Reply := []
  fwImage  : List Byte := []
  /-- The model's own fields. -/
  agenda   : List Turn := []
  served   : List Nat := []
  slot     : Slot := {}
  fresh    : Nat := 0
  deriving DecidableEq, Repr

/-- The device right after reset (19 R266): no partition, no owner, nothing running, every dictionary slot and VLEND entry clear,
every sequence tag 0, and the ready event sent to every attached host (dest 1024, log entry 15). Each field is at the default given
with it. -/
def State.reset : State := { sent := [{ dest := 1024 }] }

end Sys2Proof.Machine
end

