-- ==== Sys2Proof/Machine/Ops.lean ====
section
/-! DEFINITION. The named operations over the state: reaching its parts, reading and landing registers, raising and
taking a trap, entering and leaving the completion handler (02, 16). -/
namespace Sys2Proof.Machine

/-! ### Reaching the parts -/

def State.ctx (s : State) (c : Nat) : Ctx := Tab.get {} s.ctxs c
def State.setCtx (s : State) (c : Nat) (x : Ctx) : State := { s with ctxs := Tab.set {} s.ctxs c x }
def State.updCtx (s : State) (c : Nat) (f : Ctx → Ctx) : State := s.setCtx c (f (s.ctx c))
def State.core (s : State) (k : Nat) : CoreSt := Tab.get {} s.cores k
def State.setCore (s : State) (k : Nat) (x : CoreSt) : State := { s with cores := Tab.set {} s.cores k x }
def State.updCore (s : State) (k : Nat) (f : CoreSt → CoreSt) : State := s.setCore k (f (s.core k))
def State.cluster (s : State) (k : Nat) : Cluster := Tab.get {} s.clusters k
def State.setCluster (s : State) (k : Nat) (x : Cluster) : State := { s with clusters := Tab.set {} s.clusters k x }
def State.updCluster (s : State) (k : Nat) (f : Cluster → Cluster) : State := s.setCluster k (f (s.cluster k))
def State.part (s : State) (p : Nat) : Part := Tab.get {} s.parts p
def State.setPart (s : State) (p : Nat) (x : Part) : State := { s with parts := Tab.set {} s.parts p x }
def State.updPart (s : State) (p : Nat) (f : Part → Part) : State := s.setPart p (f (s.part p))
def State.queue (s : State) (p q : Nat) : Queue := Tab.get {} (s.part p).queues q
def State.updQueue (s : State) (p q : Nat) (f : Queue → Queue) : State :=
  s.updPart p fun x => { x with queues := Tab.upd {} x.queues q f }

/-- The core of a context (R13). -/
def coreOf (c : Nat) : Nat := c / 2
/-- The cluster of a core (01 R344): physical core numbers count cluster by cluster, sixteen to a cluster. -/
def clusterOf (core : Nat) : Nat := core / 16
/-- The context whose bundle is being issued. -/
def State.cur (s : State) : Ctx := s.ctx s.slot.ctx
/-- Changing the context whose bundle is being issued. -/
def State.updCur (s : State) (f : Ctx → Ctx) : State := s.updCtx s.slot.ctx f
/-- The core whose bundle is being issued. -/
def State.curCore (s : State) : CoreSt := s.core (coreOf s.slot.ctx)
def State.updCurCore (s : State) (f : CoreSt → CoreSt) : State := s.updCore (coreOf s.slot.ctx) f
/-- The kernel that a context runs. -/
def State.kernel (s : State) (id : Nat) : Option Kernel := s.kernels.find? fun k => k.id == id
def State.updKernel (s : State) (id : Nat) (f : Kernel → Kernel) : State :=
  { s with kernels := s.kernels.map fun k => if k.id == id then f k else k }

/-! ### Visible faces (R23, R24) -/

/-- R23: s0 reads zero. -/
def Ctx.readS (x : Ctx) (n : Nat) : Word64 := if n = 0 then 0 else (Tab.get {} x.s n).v
def Ctx.readV (x : Ctx) (n : Nat) : Vec := (Tab.get {} x.v n).v
/-- R23: p0 reads all ones and p1 all zeros. -/
def Ctx.readP (x : Ctx) (n : Nat) : Pred := if n = 0 then -1 else if n = 1 then 0 else (Tab.get {} x.p n).v
def Ctx.readE (x : Ctx) (n : Nat) : Word64 := (Tab.get {} x.e n).v
def Ctx.readH (x : Ctx) (n : Nat) : Word64 := Tab.get 0 x.h n
def Ctx.csrV (x : Ctx) (n : Nat) : Word64 := (Tab.get {} x.csr n).v
/-- What a status CSR holds on the hidden face: the value of the phase so far (R31, R295). -/
def Ctx.csrH (x : Ctx) (n : Nat) : Word64 :=
  let f := Tab.get {} x.csr n
  if f.wr then f.h else f.v

/-- R25: bit 0 of the visible face of the guard's predicate. -/
def Ctx.guard (x : Ctx) (g : BitVec 3) : Bool := bitAt (x.readP g.toNat).toNat 0

/-- CSR numbers (R280). -/
def csrFrm : Nat := 0x000
def csrHvec : Nat := 0x001
def csrFlgen : Nat := 0x002
def csrSrkey : Nat := 0x008
def csrQkey : Nat := 0x00B
def csrPstat : Nat := 0x010
def csrDwrec : Nat := 0x011
def csrFevt : Nat := 0x012
def csrFlg : Nat := 0x018
def csrPw : Nat := 0x040

/-- FRM of the visible face (06 R107). -/
def Ctx.frm (x : Ctx) : Nat := (x.csrV csrFrm).toNat % 4
/-- The version in VPIN (14 R214). -/
def Ctx.vpin (x : Ctx) : Nat := (x.csrV csrVpin).toNat % 2 ^ 16
/-- The context `c` of a kernel, in its place or saved (16 R234). -/
def State.ctxFor (s : State) (kernel c : Nat) : Ctx :=
  match s.saved.findSome? fun v => if v.c == c && v.kernel == kernel then v.away else none with
  | some x => x
  | none => s.ctx c

/-- Changing the context `c` of a kernel, in its place or saved. -/
def State.updFor (s : State) (kernel c : Nat) (f : Ctx → Ctx) : State :=
  if (s.saved.any fun v => v.c == c && v.kernel == kernel && v.away.isSome) then
    { s with saved := s.saved.map fun v => if v.c == c && v.kernel == kernel then { v with away := v.away.map f } else v }
  else if (s.ctx c).share.kernel = kernel then s.updCtx c f else s

/-- Whether the completion handler runs (R43). -/
def Ctx.inHandler (x : Ctx) : Bool := x.handler.isSome

/-! ### Status CSRs and flags (R31, 06 R112) -/

/-- R31: hardware ORs bits into the hidden face of a status CSR. -/
def Ctx.statusOr (x : Ctx) (n : Nat) (w : Word64) : Ctx :=
  if w = 0 then x else
  { x with csr := Tab.upd {} x.csr n fun f => { f with h := (if f.wr then f.h else f.v) ||| w, wr := true } }

/-- Hardware writes a status CSR's hidden face. -/
def Ctx.statusSet (x : Ctx) (n : Nat) (w : Word64) : Ctx :=
  { x with csr := Tab.upd {} x.csr n fun f => { f with h := w, wr := true } }

/-- The lowest index of a set flag. -/
def lowestFlag (f : Flags) : Nat := ((List.range 6).find? fun k => bitAt f.toNat k).getD 0

/-- Whether an event at a position stands before the one that FEVT already holds from the same cycle: the lowest flag at the lowest
position is recorded (R112). -/
def Ctx.tiesBefore (x : Ctx) (cycle pos flag : Nat) : Bool :=
  let old := (x.csrH csrFevt).toNat
  x.fevtAt == some cycle && (pos < bits old 3 0 || (pos == bits old 3 0 && flag < bits old 50 48))

/-- R112: flags raised in a cycle at a slot operation are ORed into FLG of the slot's unit, and the first event is recorded in
FEVT when FLGEN asks for it and both faces of FEVT are clear. -/
def Ctx.raiseFlags (x : Ctx) (cycle fslot baddr pos : Nat) (f : Flags) : Ctx :=
  if f = 0 then x else
  let y := x.statusOr (csrFlg + fslot) (f.setWidth 64)
  if bitAt (x.csrV csrFlgen).toNat 8 && !bitAt (x.csrV csrFevt).toNat 63
      && (!bitAt (x.csrH csrFevt).toNat 63 || x.tiesBefore cycle pos (lowestFlag f)) then
    { y.statusSet csrFevt (BitVec.ofNat 64 (2 ^ 63 + lowestFlag f * 2 ^ 48 + baddr / 16 % 2 ^ 44 * 16 + pos % 16)) with
      fevtAt := some cycle }
  else y

/-- The flags that trap (R112 TE). -/
def Ctx.trapMask (x : Ctx) : Flags := (x.csrV csrFlgen).setWidth 6

/-! ### Landing (R28, R31, R32, R40 to R42) -/

/-- R32: whether a landed write prevails over a result, by resolution cycle, position and order of issue. -/
def Landed.beats (l : Landed) (r : Result) : Bool :=
  r.due < l.due || (r.due == l.due && (r.pos < l.pos || (r.pos == l.pos && r.seq < l.seq)))

/-- The landed writes of this phase that share a byte with a result. -/
def Ctx.clashes (x : Ctx) (r : Result) : List Landed :=
  x.landed.filter fun l => l.file == r.file && l.reg == r.reg && (l.ben &&& r.ben) != 0

/-- R28: the bytes `ben` of `val` land on a face whose base is the visible face when the written bit is clear. -/
def Face.land {w : Nat} (f : Face w) (ben : Nat) (val : Nat) : Face w :=
  { v := f.v, h := BitVec.ofNat w (mergeBytes (w / 8) ben (if f.wr then f.h else f.v).toNat val), wr := true }

/-- Landing on a register file: the bytes `ben` of `val`. -/
def Ctx.landReg (x : Ctx) (file : RFile) (reg ben val : Nat) : Ctx :=
  match file with
  | .s => { x with s := Tab.upd {} x.s reg fun f => f.land ben val }
  | .v => { x with v := Tab.upd {} x.v reg fun f => f.land ben val }
  | .p => { x with p := Tab.upd {} x.p reg fun f => f.land ben val }
  | .e => { x with e := Tab.upd {} x.e reg fun f => f.land ben val }
  | .csr => { x with csr := Tab.upd {} x.csr reg fun f => f.land ben val }
  | .latch => x

/-- FILE of R33 and R230. -/
def RFile.code : RFile → Nat
  | .s => 0 | .v => 1 | .p => 2 | .e => 3 | .csr => 4 | .latch => 5

/-- R32, R33: the double-write condition, with the record of the first one. -/
def Ctx.doubleWrite (x : Ctx) (r : Result) : Ctx :=
  let y := x.statusOr csrPstat 1
  if bitAt (x.csrV csrPstat).toNat 0 || bitAt (x.csrH csrPstat).toNat 0 then y
  else y.statusSet csrDwrec
    (BitVec.ofNat 64 (r.file.code * 2 ^ 62 + r.reg * 2 ^ 56 + r.baddr / 16 % 2 ^ 44 * 16 + r.pos % 16))

/-- R40, R42: the latch takes the result; below the locked level a variable-latency result reaches no latch. -/
def Ctx.landLatch (x : Ctx) (r : Result) : Ctx :=
  match r.unit with
  | some u => if r.isVar && x.level != 2 then x
    else { x with latch := Tab.set none x.latch u (some r.lval), latchAt := Tab.set 0 x.latchAt u r.due }
  | none => x

/-- The value of a result lands on its register. Of two writes to one CSR the later under R32 prevails, without DWR (R282,
R333). -/
def Ctx.landValue (x : Ctx) (r : Result) : Ctx :=
  match r.file with
  | .latch => x
  | .csr =>
    if (x.clashes r).any fun l => l.beats r then x
    else
      let z := x.landReg .csr r.reg r.ben.toNat r.val.toNat
      { z with landed := { file := .csr, reg := r.reg, ben := r.ben, due := r.due, pos := r.pos, seq := r.seq } :: z.landed }
  | file =>
    let cl := x.clashes r
    let lost := (cl.filter fun l => l.beats r).foldl (fun m l => m ||| l.ben) 0
    let z := x.landReg file r.reg (r.ben &&& ~~~lost).toNat r.val.toNat
    let z := { z with landed :=
      { file, reg := r.reg, ben := r.ben, due := r.due, pos := r.pos, seq := r.seq } :: z.landed }
    if cl.isEmpty then z else z.doubleWrite r

/-- One result lands by itself: its value, its latch and its flags. -/
def Ctx.land (x : Ctx) (cycle : Nat) (r : Result) : Ctx :=
  ((x.landLatch r).landValue r).raiseFlags cycle r.fslot r.baddr r.pos r.flags

/-- An entry that stands for the fault of a syllable without a result (16 R229): no register and no latch takes it. -/
def Result.faultOnly (r : Result) : Bool := r.late.isSome && r.file == .latch && r.unit.isNone && r.ben == 0

/-- Register results in flight, latch-only ones included (R231). -/
def Ctx.results (x : Ctx) : Nat := x.inflight.countP fun r => !r.faultOnly

/-- The order in which the values of one cycle land: CSR writes first, so that the bits which hardware ORs in during that cycle
survive (R31), whatever the cycle that a result was due in; then resolution cycle, position and bundle (R32). -/
def Result.before (a b : Result) : Bool :=
  (a.file == .csr && b.file != .csr) || ((a.file == .csr) == (b.file == .csr) &&
    (a.due < b.due || (a.due == b.due && (a.pos < b.pos || (a.pos == b.pos && a.seq ≤ b.seq)))))

/-- The order in which latches are updated: by resolution cycle, then by bundle. For the F unit R294 says that the
later-issued of two results landing in one cycle is the one that b5 holds. DESIGN CHOICE (log entry 61): the same for the
latches of the V and M units, of which R41 says no more than the latest. -/
def Result.latchBefore (a b : Result) : Bool := a.due < b.due || (a.due == b.due && a.seq ≤ b.seq)

/-- A list with an element put in by an order. -/
def insertBy {α : Type} (le : α → α → Bool) (r : α) : List α → List α
  | [] => [r]
  | a :: t => if le r a then r :: a :: t else a :: insertBy le r t

/-- A list in an order; elements that tie keep theirs. -/
def sortBy {α : Type} (le : α → α → Bool) : List α → List α
  | [] => []
  | r :: t => insertBy le r (sortBy le t)

/-- Whether a result has reached its resolution cycle when the schedule count stands at `n`. DEDUCED (log entry 83): the stall for a
VERPUB stops the count that its own result waits for, and R213 ends it at the cycle 220, so that at the locked level the result of a
VERPUB is due at that cycle of the device too. -/
def Result.resolved (r : Result) (locked : Bool) (n cycle : Nat) : Bool :=
  r.due ≤ n || (locked && match r.clocked with | some t => t ≤ cycle | none => false)

/-- R34, R35: whether a result lands when the schedule count stands at `n`. A variable-latency result below the locked
level waits for the memory system; a fault found after issue keeps its result from landing (R229). -/
def Result.dueAt (r : Result) (locked : Bool) (n cycle : Nat) : Bool :=
  r.resolved locked n cycle && r.late.isNone && r.ready && (!r.isVar || locked)

/-- Whether flags without a result are formed: at their schedule count, or with a read that returns (22 R343, 21 R308). At the
locked level the hold of R268, in which the schedule count stands still, ends with them. -/
def FlagDue.formed (f : FlagDue) (locked : Bool) (n cycle : Nat) : Bool :=
  if f.isVar then f.at_ ≤ cycle && (!locked || f.due ≤ n) else f.due ≤ n

/-- A stopped context goes on: what a VERPUB in flight has left of its time begins again (16 R232). -/
def Ctx.reclock (cycle : Nat) (x : Ctx) : Ctx :=
  { x with inflight := x.inflight.map fun r => { r with clocked := r.clocked.map fun _ => cycle + (r.due - x.count) } }

/-- The flags that a result carries. -/
def Result.flagDue (r : Result) : FlagDue :=
  { due := r.due, seq := r.seq, fslot := r.fslot, baddr := r.baddr, pos := r.pos, flags := r.flags }

/-- The flag events of one cycle. -/
def Ctx.landFlags (x : Ctx) (cycle : Nat) (l : List FlagDue) : Ctx :=
  l.foldl (fun y f => y.raiseFlags cycle f.fslot f.baddr f.pos f.flags) x

/-- Flags of plied updates whose reads are still under way as the faces are exchanged: they are flags of their phase (15 R223). -/
def Ctx.landUpdates (x : Ctx) (cycle : Nat) : Ctx :=
  { x with flagsDue := x.flagsDue.filter fun f => !f.isVar }.landFlags cycle (x.flagsDue.filter fun f => f.isVar)

/-- Everything that is due when the schedule count stands at `n` lands: the values, then the latches, then the flags, which
reach the status CSRs after any CSRW of the cycle (R31). -/
def Ctx.landUpTo (x : Ctx) (n cycle : Nat) : Ctx :=
  let locked := x.level == 2
  let due := x.inflight.filter fun r => r.dueAt locked n cycle
  let flags := x.flagsDue.filter fun f => f.formed locked n cycle
  let y := { x with
    inflight := x.inflight.filter fun r => !r.dueAt locked n cycle
    flagsDue := x.flagsDue.filter fun f => !f.formed locked n cycle }
  let y := (sortBy Result.before due).foldl Ctx.landValue y
  let y := (sortBy Result.latchBefore due).foldl Ctx.landLatch y
  y.landFlags cycle (due.map Result.flagDue ++ flags)

/-- Every result that is due at the present schedule count lands. -/
def Ctx.landDue (cycle : Nat) (x : Ctx) : Ctx := x.landUpTo x.count cycle

/-! ### The flip (R29) -/

/-- A two-faced register at a flip: the faces exchange when the written bit is set, and the bit clears. -/
def Face.flip {w : Nat} (f : Face w) : Face w := if f.wr then { v := f.h, h := f.v, wr := false } else f

/-- Every register of a file at a flip; one that then holds the default is not listed. -/
def flipAll {w : Nat} : Tab (Face w) → Tab (Face w)
  | [] => []
  | (k, f) :: t => if f.flip = {} then flipAll t else (k, f.flip) :: flipAll t

/-- R29, R109, R110: the exchange of faces, with the generators that a new key resets. -/
def Ctx.exchange (x : Ctx) : Ctx :=
  let fresh := fun n => (Tab.get {} x.csr n).wr
  let sr := (List.range 3).foldl (fun t k => if fresh (csrSrkey + k) then Tab.set 0 t k 0 else t) x.srCount
  { x with
    s := flipAll x.s, v := flipAll x.v, p := flipAll x.p, e := flipAll x.e, csr := flipAll x.csr
    latch := [], latchAt := [], landed := [], srCount := sr, phase := x.phase + 1
    rnd := if fresh csrQkey then [] else x.rnd
    rndN := if fresh csrQkey then 0 else x.rndN }

/-! ### Traps (16 R227, R228) -/

/-- CAUSE of R227. -/
def Cause.code : Cause → Nat
  | .translation => 0 | .version => 1 | .illegalSyllable => 2 | .illegalBundle => 3 | .illegalOperand => 4
  | .staleLatch => 5 | .queueOverflow => 6 | .arithFlag => 7 | .dataError => 8 | .debug => 9

/-- A trap raised at the syllable being issued; the context stops when its bundle ends (R74, R228). -/
def State.raise (s : State) (cause : Cause) (cond : Nat := 0) (faddr : Nat := 0) (imm : Nat := 0) : State :=
  { s with slot := { s.slot with raised := { cause, cond, pos := s.slot.pos, faddr, imm } :: s.slot.raised } }

/-- An arithmetic-flag trap of the syllable being issued, raised `lat` cycles after issue with all the flags that the
syllable raises; COND is the lowest of the enabled ones (R112, R268). -/
def State.raiseEnabled (s : State) (fl on : Flags) (lat : Nat) : State :=
  { s with slot := { s.slot with raised :=
      { cause := .arithFlag, cond := lowestFlag (fl &&& on), pos := s.slot.pos, after := lat, flags := fl, fslot := s.slot.fslot }
        :: s.slot.raised } }

/-- R74, R227: the trap that the record names: the first to be raised, the lowest position in a tie, the lowest
CAUSE at one position. -/
def Raised.first (a b : Raised) : Bool :=
  a.after < b.after || (a.after == b.after &&
    (a.pos < b.pos || (a.pos == b.pos && a.cause.code ≤ b.cause.code)))

def firstRaised : List Raised → Option Raised
  | [] => none
  | r :: t => match firstRaised t with
    | none => some r
    | some q => if r.first q then some r else some q

/-- The flags that the arithmetic-flag traps of a bundle set, in the order in which they are raised (R112). -/
def Ctx.trapFlags (x : Ctx) (cycle baddr : Nat) (l : List Raised) : Ctx :=
  (sortBy (fun a b => a.after ≤ b.after) l).foldl
    (fun y r => y.raiseFlags (cycle + r.after) r.fslot baddr r.pos r.flags) x

/-- Taking a trap: the context stops at the bundle boundary and stays resident with its faces, written bits and
latches as they are; RPC, DONE and the rest of the record are kept until the partition writes it (R228, R230). The
schedule count does not advance, and the program counter stays: at the bundle that has trapped, or where all of the bundle at
RPC but its FLIP has issued, at the one that follows it (R39, R229, R233). -/
def Ctx.takeTrap (x : Ctx) (cycle : Nat) (r : Raised) (baddr rpc done : Nat) (fwait : Bool) : Ctx :=
  { x with
    run := .stopping
    stop := some { raised := r, baddr, rpc, done, hnd := x.inHandler, fwait, at_ := cycle }
    halt := false }

/-- Breakpoint registers take what was written for them (18 R239). -/
def Ctx.takeBrka (x : Ctx) : Ctx :=
  { x with brka := x.brkaNew.foldl (fun t (n, v) => Tab.set 0 t n v) x.brka, brkaNew := [] }

/-- Returning from a trap: CTXCMD resume. The bundle at RPC issues again, only the syllables whose DONE bits are clear (R74, R232):
with every bit set none is left, and the context goes on behind it. A breakpoint is not matched again in that issue, and the
breakpoint registers take what was written (18 R239, R240). A context that has executed its last RETIRE goes back to the wait of R53
and its handler. -/
def Ctx.resume (x : Ctx) : Ctx :=
  match x.stop with
  | none => x
  | some t =>
    { x.takeBrka with
      run := if x.ended then .finishing else .running
      stop := none
      redo := if t.fwait || t.done = 0xFFF then none else some t.done
      noBrk := !t.fwait && t.done != 0xFFF }

/-! ### The completion handler (02 R43, R44; 21 R316) -/

/-- Entering the handler at HVEC with the completion word in h0. -/
def Ctx.enterHandler (x : Ctx) (w : Word64) : Ctx :=
  let back := match x.handler with
    | some k => k
    | none => { pc := x.pc, wait := x.flip, noBrk := x.noBrk }
  { x with
    handler := some back
    flip := none
    noBrk := false
    pc := (x.csrV csrHvec).toNat / 16 % 2 ^ 44 * 16
    h := Tab.set 0 x.h 0 w }

/-- RETH: the next held interrupt is taken, or the context resumes at the interrupted boundary or in its FLIP wait. -/
def Ctx.leaveHandler (x : Ctx) : Ctx :=
  match x.handler with
  | none => x
  | some k =>
    match x.irq with
    | w :: rest => ({ x with irq := rest }).enterHandler w
    | [] => { x with handler := none, pc := k.pc, flip := k.wait, noBrk := k.noBrk }

/-! ### Events to the owner and to other fabric ids (19 R258) -/

/-- The TAG of a packet's header (R254). -/
def pkTag (k : Packet) : Nat := bits k.hdr.toNat 29 0

/-- The TAG of the packet at the head of a queue, which the events that concern it carry (R254). -/
def State.headTag (s : State) (p q : Nat) : Nat :=
  match (s.queue p q).packets with | k :: _ => pkTag k.pk | [] => 0

/-- The TAG of a kernel's LAUNCH. DEDUCED from R254 (log entry 15): the events that its contexts and commands cause concern it. -/
def State.kernelTag (s : State) (id : Nat) : Nat :=
  match s.kernel id with
  | some k => s.headTag k.part k.queue
  | none => 0

/-- Dword 0 of an event. -/
def eventD0 (kind part pcore tag : Nat) : Word64 :=
  BitVec.ofNat 64 (kind * 2 ^ 56 + part * 2 ^ 53 + pcore * 2 ^ 42 + tag % 2 ^ 30)

/-- An event to a fabric id, or to every attached host (dest 1024); while the alarm stands the ports drop it (R264). -/
def State.sendTo (s : State) (dest : Nat) (d0 : Word64) (body : List Word64) : State :=
  if s.alarm.isSome then s else { s with sent := s.sent ++ [{ dest, d0, body }] }

/-- The owner has sent nothing for LEASE cycles (19 R260). -/
def State.leaseOver (s : State) : Bool := s.owner.id.isSome && s.owner.heard + s.owner.lease ≤ s.cycle

/-- R258: an event to the owner; with no owner, which a lease that is over leaves, up to 4,096 are kept and the rest counted. -/
def State.notify (s : State) (kind part pcore tag : Nat) (body : List Word64) : State :=
  match s.owner.id.filter fun _ => !s.leaseOver with
  | some o => s.sendTo o (eventD0 kind part pcore tag) body
  | none =>
    if s.kept.length < Config.eventsKept then
      { s with kept := s.kept ++ [{ dest := 0, d0 := eventD0 kind part pcore tag, body }] }
    else { s with dropped := s.dropped + 1 }

/-- The owner has sent something: its lease goes on (19 R260). -/
def State.hear (s : State) : State := { s with owner := { s.owner with heard := s.cycle } }

/-- Whether the owner reaches the device: there is one, its lease runs, and the ports carry its traffic (19 R260, R264). -/
def State.ownerReaches (s : State) : Bool := s.owner.id.isSome && !s.leaseOver && s.alarm.isNone

/-- Whether the supervisor of a partition, the owner or the partition firmware, reaches its control block (16 R232). -/
def State.supervised (s : State) (b : Commander) : Bool :=
  (s.part b.part).on && if b.owner then s.ownerReaches else s.alarm.isNone

/-- What the owner writes lets its lease go on; what the partition firmware writes does not. -/
def State.hearFrom (s : State) (b : Commander) : State := if b.owner then s.hear else s

/-- Kinds of R258. -/
def evRefusal : Nat := 1
def evHealth : Nat := 2
def evFault : Nat := 3
def evDebug : Nat := 4
def evDump : Nat := 5
def evEngine : Nat := 6
def evSoft : Nat := 7
def evReplay : Nat := 8
def evPublish : Nat := 9
def evResync : Nat := 10
def evOwner : Nat := 11
def evAlarm : Nat := 12

end Sys2Proof.Machine
end

