-- ==== Sys2Proof/Machine/Operands.lean ====
section
/-! DEFINITION. Operand forms: the register fields of every syllable, the kinds that a header or a link may lend them,
the checks of R73 on one syllable, reading the sources, and writing the results (02 R25 to R28; 04 R65 to R73). -/
namespace Sys2Proof.Machine

/-- Class of a syllable (R75); 0 for a step without one. -/
def classOf : Instr → Nat
  | .add .. | .sub .. | .mul .. | .mulh .. | .mulhu .. | .div .. | .rem .. | .and .. | .or .. | .xor ..
  | .shl .. | .shr .. | .sra .. | .min .. | .max .. | .mov .. | .sel .. | .li .. | .mve .. | .mfe .. | .cmp .. => 1
  | .nop .. | .br .. | .jmp .. | .call .. | .callReg .. | .ret .. | .loop .. | .flip .. | .retire .. | .trap ..
  | .bkpt .. | .reth .. => 2
  | .vadd .. | .vsub .. | .vmul .. | .vmulh .. | .vand .. | .vor .. | .vxor .. | .vshl .. | .vshr .. | .vsra ..
  | .vmin .. | .vmax .. | .vabs .. | .vsel .. | .vcnt .. | .vredi .. | .vcmp .. => 3
  | .fadd .. | .fsub .. | .fmul .. | .fma .. | .fmin .. | .fmax .. | .fabs .. | .fneg .. | .fred .. | .fsca ..
  | .fcmp .. => 4
  | .cvt .. | .qnt .. | .dqnt .. | .vperm .. | .vbcast .. | .vseq .. | .visect .. | .vmovp .. | .rngc ..
  | .vext .. | .vins .. => 5
  | .fexp2 .. | .flog2 .. | .frcp .. | .frsq .. | .fsqrt .. | .fdiv .. => 6
  | .ld .. | .lds .. | .ldr .. | .ldp .. | .pf .. | .qpop .. => 7
  | .st .. | .sts .. | .stp .. | .stq .. | .atom .. | .acas .. | .pacc .. | .pdec .. | .qpush .. | .stk .. => 8
  | .xcfg .. | .xpush .. | .xacc .. | .xshift .. | .xdrain .. => 9
  | .ecopy .. | .egather .. | .ereduce .. | .epage .. | .edict .. => 10
  | .csrr .. | .csrw .. | .flags .. | .versw .. | .verswNamed .. | .verpub .. | .qarm .. => 11
  | _ => 0

/-- The guard field (R75). -/
def guardOf : Instr → BitVec 3
  | .add g .. | .sub g .. | .mul g .. | .mulh g .. | .mulhu g .. | .div g .. | .rem g .. | .and g .. | .or g ..
  | .xor g .. | .shl g .. | .shr g .. | .sra g .. | .min g .. | .max g .. | .mov g .. | .sel g .. | .li g ..
  | .mve g .. | .mfe g .. | .cmp g .. | .nop g | .br g .. | .jmp g .. | .call g .. | .callReg g .. | .ret g
  | .loop g .. | .flip g .. | .retire g | .trap g .. | .bkpt g .. | .reth g | .vadd g .. | .vsub g .. | .vmul g ..
  | .vmulh g .. | .vand g .. | .vor g .. | .vxor g .. | .vshl g .. | .vshr g .. | .vsra g .. | .vmin g ..
  | .vmax g .. | .vabs g .. | .vsel g .. | .vcnt g .. | .vredi g .. | .vcmp g .. | .fadd g .. | .fsub g ..
  | .fmul g .. | .fma g .. | .fmin g .. | .fmax g .. | .fabs g .. | .fneg g .. | .fred g .. | .fsca g ..
  | .fcmp g .. | .cvt g .. | .qnt g .. | .dqnt g .. | .vperm g .. | .vbcast g .. | .vseq g .. | .visect g ..
  | .vmovp g .. | .rngc g .. | .vext g .. | .vins g .. | .fexp2 g .. | .flog2 g .. | .frcp g .. | .frsq g ..
  | .fsqrt g .. | .fdiv g .. | .ld g .. | .lds g .. | .ldr g .. | .ldp g .. | .pf g .. | .qpop g .. | .st g ..
  | .sts g .. | .stp g .. | .stq g .. | .atom g .. | .acas g .. | .pacc g .. | .pdec g .. | .qpush g .. | .stk g ..
  | .xcfg g .. | .xpush g | .xacc g .. | .xshift g .. | .xdrain g .. | .ecopy g .. | .egather g .. | .ereduce g ..
  | .epage g .. | .edict g .. | .csrr g .. | .csrw g .. | .flags g .. | .versw g | .verswNamed g .. | .verpub g ..
  | .qarm g .. => g
  | _ => 0

/-- The register fields of a syllable: destination, sources A and B, and the fields that take the register kind only
(R69, R77 to R89). A source named s takes the register and latch kinds, a source named v all four. -/
structure Shape where
  dst  : Option (RFile × Nat) := none
  a    : Option (RFile × Nat) := none
  b    : Option (RFile × Nat) := none
  more : List (RFile × Nat) := []
  deriving DecidableEq, Repr

/-- Two scalar sources, B absent in the immediate form (R77). -/
def shapeAlu (d a b : BitVec 6) (i : Bool) : Shape :=
  { dst := some (.s, d.toNat), a := some (.s, a.toNat), b := if i then none else some (.s, b.toNat) }
/-- Two vector sources and a vector destination (R81). -/
def shapeVec (d a b : BitVec 5) : Shape :=
  { dst := some (.v, d.toNat), a := some (.v, a.toNat), b := some (.v, b.toNat) }
/-- One vector source (R82). -/
def shapeVec1 (d a : BitVec 5) : Shape := { dst := some (.v, d.toNat), a := some (.v, a.toNat) }
/-- The file of a data field (R84). -/
def dataFile (m : ASize) : RFile := if m.isVector then .v else .s
/-- A vector syllable whose destination is read as well (R82, R83). -/
def shapeAcc (d a : BitVec 5) (b : RFile × Nat) (fa : RFile) : Shape :=
  { dst := some (.v, d.toNat), a := some (fa, a.toNat), b := some b, more := [(.v, d.toNat)] }

/-- The register fields of each syllable. -/
def shape : Instr → Shape
  | .add _ d a b i | .sub _ d a b i | .mul _ d a b i | .mulh _ d a b i | .mulhu _ d a b i | .div _ d a b i
  | .rem _ d a b i | .and _ d a b i | .or _ d a b i | .xor _ d a b i | .shl _ d a b i | .shr _ d a b i
  | .sra _ d a b i | .min _ d a b i | .max _ d a b i | .sel _ d a b i => shapeAlu d a b i
  | .mov _ d a _ _ => { dst := some (.s, d.toNat), a := some (.s, a.toNat) }
  | .li _ d _ => { dst := some (.s, d.toNat) }
  | .mve _ d a _ _ => { dst := some (.e, d.toNat), a := some (.s, a.toNat) }
  | .mfe _ d a _ _ => { dst := some (.s, d.toNat), more := [(.e, a.toNat)] }
  | .cmp _ _ d a b i => { shapeAlu d a b i with dst := some (.p, d.toNat) }
  | .jmp _ a | .callReg _ a => { a := some (.s, a.toNat) }
  | .loop _ _ _ c => { more := [(.s, c.toNat)] }
  | .vadd _ _ _ _ d a b | .vsub _ _ _ _ d a b | .vmul _ _ _ _ d a b | .vmulh _ _ _ _ d a b | .vand _ _ _ _ d a b
  | .vor _ _ _ _ d a b | .vxor _ _ _ _ d a b | .vshl _ _ _ _ d a b | .vshr _ _ _ _ d a b | .vsra _ _ _ _ d a b
  | .vmin _ _ _ _ d a b | .vmax _ _ _ _ d a b | .vsel _ _ _ _ d a b => shapeVec d a b
  | .vabs _ _ _ _ d a | .vcnt _ _ _ _ d a | .vredi _ _ _ _ d a _ => shapeVec1 d a
  | .vcmp _ _ _ _ _ d a b => { shapeVec 0 a b with dst := some (.p, d.toNat) }
  | .fadd _ _ _ _ d a b | .fsub _ _ _ _ d a b | .fmul _ _ _ _ d a b | .fmin _ _ _ _ d a b
  | .fmax _ _ _ _ d a b => shapeVec d a b
  | .fma _ _ _ _ d a b | .fsca _ _ _ _ d a b => shapeAcc d a (.v, b.toNat) .v
  | .fabs _ _ _ _ d a | .fneg _ _ _ _ d a | .fred _ _ _ _ d a _ => shapeVec1 d a
  | .fcmp _ _ _ _ _ d a b => { shapeVec 0 a b with dst := some (.p, d.toNat) }
  | .cvt _ _ _ d a _ _ | .qnt _ _ _ d a _ | .dqnt _ _ _ d a => shapeVec1 d a
  | .vperm _ _ _ d a b | .visect _ _ _ d a b => shapeVec d a b
  | .vbcast _ _ _ k d a => { dst := some (.v, d.toNat), a := some (if k then .s else .v, a.toNat) }
  | .vseq _ _ _ d a b | .rngc _ _ _ d a b =>
    { dst := some (.v, d.toNat), a := some (.s, a.toNat), b := some (.s, b.toNat) }
  | .vmovp _ _ x d a =>
    if x then { dst := some (.p, d.toNat), a := some (.v, a.toNat) }
    else { dst := some (.v, d.toNat), more := [(.p, a.toNat)] }
  | .vext _ _ _ d a b => { dst := some (.s, d.toNat), a := some (.v, a.toNat), b := some (.s, b.toNat) }
  | .vins _ _ _ d a b => shapeAcc d a (.s, b.toNat) .s
  | .fexp2 _ _ _ d a | .flog2 _ _ _ d a | .frcp _ _ _ d a | .frsq _ _ _ d a | .fsqrt _ _ _ d a => shapeVec1 d a
  | .fdiv _ _ _ d a b => shapeVec d a b
  | .ld _ d b _ m | .lds _ d b _ m | .ldr _ d b _ m =>
    { dst := some (dataFile m, d.toNat), a := some (.s, b.toNat) }
  | .ldp _ d b _ _ _ _ => { dst := some (.v, d.toNat), a := some (.s, b.toNat) }
  | .pf _ b _ _ => { a := some (.s, b.toNat) }
  | .qpop _ d _ => { dst := some (.v, d.toNat) }
  | .st _ d b _ m | .sts _ d b _ m => { a := some (.s, b.toNat), b := some (dataFile m, d.toNat) }
  | .stp _ d b _ _ _ => { a := some (.s, b.toNat), more := [(.v, d.toNat)] }
  | .stq _ d b t m => { a := some (.s, b.toNat), b := some (dataFile m, d.toNat), more := [(.s, t.toNat)] }
  | .atom _ d b o _ => { a := some (.s, b.toNat), b := some (.s, d.toNat), more := [(.s, o.toNat)] }
  | .acas _ d b o _ => { a := some (.s, b.toNat), more := [(.s, d.toNat), (.s, d.toNat + 1), (.s, o.toNat)] }
  | .pacc _ d b _ _ _ => { a := some (.s, b.toNat), b := some (.v, d.toNat) }
  | .pdec _ d b _ _ _ => { a := some (.s, b.toNat), more := [(.e, d.toNat)] }
  | .qpush _ d _ => { b := some (.v, d.toNat) }
  | .stk _ d b _ => { a := some (.s, b.toNat), b := some (.s, d.toNat) }
  | .ecopy _ b .. | .egather _ b .. | .ereduce _ b .. | .epage _ b .. | .edict _ b .. =>
    { more := [(.e, b.toNat + 7)] }
  | .csrr _ d _ | .flags _ d _ _ | .verpub _ d => { dst := some (.s, d.toNat) }
  | .csrw _ a _ => { a := some (.s, a.toNat) }
  | .verswNamed _ a => { more := [(.s, a.toNat)] }
  | .qarm _ _ b => { more := [(.e, b.toNat + 7)] }
  | _ => {}

/-! ### Ports (21 R310, R311) -/

/-- Port width in bytes: 512 for q0, q1 and w0 (port 4), 128 for q2, q3 and w1. -/
def portBytes (n : Nat) : Nat := if n = 0 || n = 1 || n = 4 then 512 else 128

/-- Operand size of a walk in bytes. -/
def Walker.operandBytes (w : Walker) (n : Nat) : Nat := portBytes n / 2 ^ w.opw

/-- Chunks of a walk: the product of the counts over its levels. -/
def Walker.chunks (w : Walker) : Nat := (w.counts.take (w.nl + 1)).foldl (fun a c => a * (c + 1)) 1

/-- Operands left in a walk (18 R245). -/
def Walker.left (w : Walker) (n : Nat) : Nat :=
  if w.armed then w.chunks * 2 ^ w.clog / w.operandBytes n - w.popped else 0

/-- The offset of iteration `k` of a nest, level 0 fastest. -/
def nestOffset : List Nat → List Int → Nat → Int
  | c :: cs, d :: ds, k => (k % (c + 1) : Nat) * d + nestOffset cs ds (k / (c + 1))
  | _, _, _ => 0

/-- The address of chunk `k` of a walk. -/
def Walker.addr (w : Walker) (k : Nat) : Int :=
  w.start + nestOffset (w.counts.take (w.nl + 1)) (w.strides.take (w.nl + 1)) k

/-- An operand of a scratchpad walk: its chunks, or the trap of R311 at the first chunk that is misaligned or leaves the
allocation. -/
def spadOperand (w : Walker) (al : Alloc) (spad : Tab Byte) (first : Nat) : Nat → Except Raised (List Byte)
  | 0 => .ok []
  | n + 1 =>
    let a := w.addr first
    let z : Nat := 2 ^ w.clog
    let fa := ofSigned 64 a
    if a % (z : Int) ≠ 0 then .error { cause := .translation, cond := 2, faddr := fa }
    else if a < 0 || a + z > al.spad * 256 then .error { cause := .translation, cond := 4, faddr := fa }
    else
      match spadOperand w al spad (first + 1) n with
      | .error e => .error e
      | .ok rest => .ok (Memory.readN spad (al.spbase + a.toNat) z ++ rest)

/-- The next operand of a port, as the bundle sees it (R72, R311): its value, or the trap that popping it raises. A port
that has no operand ready holds the bundle back before issue, so its value here is 0. -/
def portOperand (w : Walker) (n : Nat) (al : Alloc) (spad : Tab Byte) : Except Raised Nat :=
  if w.glob then
    match w.ahead with
    | f :: _ => match f.fault with | some r => .error r | none => .ok f.val
    | [] => .ok 0
  else
    let per := w.operandBytes n / 2 ^ w.clog
    match spadOperand w al spad (w.popped * per) per with
    | .error e => .error e
    | .ok b => .ok (ofBytes b)

/-- The read ports that a syllable reads: those it pops and those it peeks (R27, R72). A number that names no port, or a field
that takes no port, is no read: it is the illegal operand of R73. -/
def portsOf (i : Instr) (l : Lend) : List (Nat × Bool) :=
  let sh := shape i
  let f := fun (k : Kind) (o : Option (RFile × Nat)) => match k, o with
    | .pop, some (.v, n) => if n < 4 then [(n, true)] else []
    | .peek, some (.v, n) => if n < 4 then [(n, false)] else []
    | _, _ => []
  match i with
  | .xpush _ => [(0, true), (1, true), (2, true), (3, true)]
  | _ => f l.ak sh.a ++ f l.bk sh.b

/-! ### The checks of R73 on one syllable -/

/-- R26: whether a register lies in the allocation. -/
def Alloc.holds (al : Alloc) : RFile × Nat → Bool
  | (.s, n) => n < al.scnt
  | (.v, n) => n < al.vcnt
  | (.e, n) => n < al.ecnt
  | (.p, n) => n < 16
  | _ => true

/-- R27, R69: whether a source field takes the lent kind, and whether it names something that exists. -/
def sourceLegal (al : Alloc) (k : Kind) : Option (RFile × Nat) → Bool
  | none => k == .reg
  | some (f, n) =>
    match k with
    | .reg => al.holds (f, n)
    | .latch => (f == .s || f == .v) && n < 8
    | _ => f == .v && n < 4

/-- R69: write-back suppression is lent to classes 1, 3 to 6, LDS and QPOP only. -/
def suppressible (i : Instr) : Bool :=
  match i with
  | .lds .. | .qpop .. => true
  | _ => let c := classOf i; c == 1 || (3 ≤ c && c ≤ 6)

/-- R26: FMA, FSCA and VINS read their destination. -/
def readsDst : Instr → Bool
  | .fma .. | .fsca .. | .vins .. => true
  | _ => false

/-- R77, R81: the compares, whose destination is a pair number. -/
def isCompare : Instr → Bool
  | .cmp .. | .vcmp .. | .fcmp .. => true
  | _ => false

/-- R26, R28, R69: the destination field. -/
def dstLegal (i : Instr) (al : Alloc) (ws : Bool) : Option (RFile × Nat) → Bool
  | none => !ws
  | some (f, n) =>
    if ws then suppressible i && n == 0
    else if isCompare i then 1 ≤ n && n ≤ 7
    else al.holds (f, n)

/-- R69: a lane predicate is lent to a syllable of classes 3 to 7 whose destination is a v-register. -/
def lanePredLegal (i : Instr) (sh : Shape) : Bool :=
  match sh.dst with
  | some (.v, _) => 3 ≤ classOf i && classOf i ≤ 7
  | _ => false

/-- R70: whether an instruction takes an extension. -/
def extLegal (i : Instr) (e : Nat) : Bool :=
  match i with
  | .add _ _ _ _ im | .sub _ _ _ _ im | .mul _ _ _ _ im | .mulh _ _ _ _ im | .mulhu _ _ _ _ im | .div _ _ _ _ im
  | .rem _ _ _ _ im | .and _ _ _ _ im | .or _ _ _ _ im | .xor _ _ _ _ im | .min _ _ _ _ im | .max _ _ _ _ im
  | .cmp _ _ _ _ _ im => im || e == 0
  | .shl _ _ _ _ im | .shr _ _ _ _ im | .sra _ _ _ _ im => !im && e == 0
  | .li .. | .lds .. | .ldr .. | .pf .. | .st .. | .sts .. | .stk .. | .loop .. => true
  | .ld .. => e % 128 ≤ 64
  | .atom .. | .acas .. => e < 3
  | .stq .. => false
  | _ => e == 0

/-- The illegal operands of R73 that depend only on the syllable, its lend, the allocation and the hardware context's
number and level. DESIGN CHOICE (log entry 72): QPUSH and QPOP of context 1 are illegal (07 R130) whatever their guard holds. -/
def operandsLegal (i : Instr) (l : Lend) (al : Alloc) (c level : Nat) : Bool :=
  let sh := shape i
  fieldsLegal i
  && sourceLegal al l.ak sh.a && sourceLegal al l.bk sh.b
  && sh.more.all (fun r => al.holds r)
  && dstLegal i al l.ws sh.dst
  && (l.lp == 0 || lanePredLegal i sh)
  && (match i with | .vsel .. => l.lp != 0 | _ => true)
  && (match l.ext with | some e => extLegal i e | none => true)
  && (match i with
      | .xcfg .. | .xpush .. | .xacc .. | .xshift .. | .xdrain .. | .qpush .. | .qpop .. => c % 2 == 0
      | .ecopy _ _ _ ev .. | .egather _ _ _ ev .. | .ereduce _ _ _ ev .. => !(level == 2 && ev)
      | .epage .. | .edict .. => level != 2
      | _ => true)

/-- R44, R316: the syllables that run in the completion handler; BR and RETH with guard p0 only. -/
def handlerRuns : Instr → Bool
  | .nop .. | .trap .. | .bkpt .. | .jmp .. => true
  | .br g _ | .reth g => g == 0
  | .sel .. | .cmp .. | .mve .. | .mfe .. => false
  | i => classOf i == 1

/-- R44, R69: a class 1 syllable of the handler names h0 to h7, with sources of register kind and guard p0; its write-back may
be suppressed, with a destination field of 0. JMP names h0 to h7. -/
def handlerLegal (i : Instr) (l : Lend) : Bool :=
  let sh := shape i
  let small := fun (o : Option (RFile × Nat)) => match o with | some (_, n) => n < 8 | none => true
  fieldsLegal i && l.ak == .reg && l.bk == .reg && l.lp == 0
  && (!l.ws || (classOf i == 1 && match sh.dst with | some (_, n) => n == 0 | none => false))
  && (match l.ext with | some e => extLegal i e | none => true)
  && (classOf i != 1 || guardOf i == 0) && small sh.dst && small sh.a && small sh.b

/-- R55: whether the kernel of a context holds the barrier line that a FLIP names. -/
def State.holdsLine (s : State) (c : Nat) : BScope → Bool
  | .nb => true
  | .cl => (s.cluster (clusterOf (coreOf c))).line.holder == some (s.ctx c).share.kernel
  | .pt => (s.part (s.ctx c).share.lpart).line.holder == some (s.ctx c).share.kernel

/-- The port widths that an XPUSH and an XDRAIN ask for, and the beat that an XPUSH of a higher ply may have (22 R343): decode checks,
before the row of a false guard (log entry 30). -/
def State.matrixLegal (s : State) (i : Instr) : Bool :=
  let x := s.cur
  let wide := fun (n k : Nat) => !(Tab.get {} x.ports n).armed || (Tab.get {} x.ports n).opw == k
  match i with
  | .xpush _ =>
    let a := s.curCore.arr
    let b := if a.cur then a.bank1 else a.bank0
    ((b.i == 0 && b.j == 0) || a.beat ≤ 63) && wide 0 0 && wide 1 1 && wide 2 0 && wide 3 1
  | .xdrain .. =>
    let w := Tab.get {} x.ports 4
    w.left 4 != 0 && w.opw == 0
  | _ => true

/-- The first row of R73 that a syllable meets by itself at its slot, or none. A RETH outside the handler and what R44
does not let run inside it are illegal syllables; a latch that holds nothing is the last row. -/
def verdict (i : Instr) (s : State) : Option Cause :=
  match i with
  | .nop _ => none
  | _ =>
    let x := s.cur
    let l := s.slot.lend
    if x.inHandler then
      if !handlerRuns i then some .illegalSyllable
      else if handlerLegal i l then none else some .illegalOperand
    else
      match i with
      | .reth _ => some .illegalSyllable
      | _ =>
        let barrier := match i with | .flip _ b _ => s.holdsLine s.slot.ctx b | _ => true
        if !(operandsLegal i l x.alloc s.slot.ctx x.level && barrier && s.matrixLegal i) then some .illegalOperand
        else
          let stale := fun (k : Kind) (o : Option (RFile × Nat)) => match k, o with
            | .latch, some (_, n) => (Tab.get none x.latch n).isNone
            | _, _ => false
          if stale l.ak (shape i).a || stale l.bk (shape i).b then some .staleLatch else none

/-- The operand of port `n` for the bundle being issued. -/
def State.port (s : State) (n : Nat) : Except Raised Nat :=
  portOperand (Tab.get {} s.slot.ports n) n s.cur.alloc s.slot.spad

/-- The first trap among the ports that a syllable reads. -/
def State.portFault (s : State) (i : Instr) : Option Raised :=
  (portsOf i s.slot.lend).findSome? fun (n, _) => match s.port n with | .error r => some r | .ok _ => none

/-- Popping a port: the walk advances by one operand (R27). -/
def Walker.pop (w : Walker) : Walker :=
  if w.armed then { w with popped := w.popped + 1, ahead := w.ahead.tail } else w

/-- Whether any of `n` scratchpad bytes from a physical offset lies in a word with an uncorrectable error (R156). -/
def CoreSt.badAt (k : CoreSt) (a n : Nat) : Bool := k.bad.any fun w => w * 8 < a + n && a < w * 8 + 8

/-- Whether the next operand of a scratchpad walk reads such a word. -/
def Walker.badOperand (w : Walker) (n : Nat) (al : Alloc) (k : CoreSt) : Bool :=
  let per := w.operandBytes n / 2 ^ w.clog
  !w.glob && !k.bad.isEmpty && (List.range per).any fun j =>
    k.badAt (al.spbase + (w.addr (w.popped * per + j)).toNat) (2 ^ w.clog)

/-- The port reads of a syllable: its pops advance the walks, and an uncorrectable error is noted (R27, R156). -/
def State.popPorts (s : State) (i : Instr) : State :=
  match portsOf i s.slot.lend with
  | [] => s
  | ports =>
    let ecc := ports.any fun (n, _) => (Tab.get {} s.slot.ports n).badOperand n s.cur.alloc s.curCore
    let t := s.updCur fun x =>
      { x with ports := ports.foldl (fun t (n, d) => if d then Tab.upd {} t n Walker.pop else t) x.ports }
    { t with slot := { t.slot with ecc := t.slot.ecc || ecc } }

/-! ### Reading the sources (R27) -/

/-- A scalar source: a register or the low 64 bits of a latch. -/
def State.srcS (s : State) (k : Kind) (n : Nat) : Nat :=
  match k with
  | .reg => (s.cur.readS n).toNat
  | .latch => ((Tab.get none s.cur.latch n).getD 0).toNat % 2 ^ 64
  | _ => 0

/-- A vector source: a register, a latch zero-extended, or the low bits of a port operand. -/
def State.srcV (s : State) (k : Kind) (n : Nat) : Nat :=
  match k with
  | .reg => (s.cur.readV n).toNat
  | .latch => ((Tab.get none s.cur.latch n).getD 0).toNat
  | _ => match s.port n with | .ok v => v % 2 ^ 1024 | .error _ => 0

/-- Source A and source B of a scalar syllable. -/
def State.sa (s : State) (n : Nat) : Nat := s.srcS s.slot.lend.ak n
def State.sb (s : State) (n : Nat) : Nat := s.srcS s.slot.lend.bk n
/-- Source A and source B of a vector syllable. -/
def State.va (s : State) (n : Nat) : Nat := s.srcV s.slot.lend.ak n
def State.vb (s : State) (n : Nat) : Nat := s.srcV s.slot.lend.bk n

/-- R70: the 31-bit or 6-bit signed immediate, as a 64-bit pattern. -/
def State.imm6 (s : State) (b : BitVec 6) : Nat :=
  match s.slot.lend.ext with
  | some e => signExtend 31 64 (e * 64 + b.toNat)
  | none => signExtend 6 64 b.toNat

/-- R272: source B of the scalar mould. -/
def State.aluB (s : State) (b : BitVec 6) (i : Bool) : Nat := if i then s.imm6 b else s.sb b.toNat

/-! ### Byte enables (R25, R28) -/

/-- Whether element `k` of `eb` bits is active: the lane predicate's bit for its lowest byte. -/
def activeLane (lp : Nat) (eb k : Nat) : Bool := bitAt lp (eb * k / 8)

/-- The byte enables of `n` elements of `eb` bits from element `k` on, those of inactive elements clear. An element
narrower than a byte shares the enable of its byte. -/
def laneBytes (lp eb : Nat) : Nat → Nat → Nat
  | 0, _ => 0
  | n + 1, k =>
    (if activeLane lp eb k then ones ((eb * k + eb + 7) / 8 - eb * k / 8) * 2 ^ (eb * k / 8) else 0)
      ||| laneBytes lp eb n (k + 1)

/-- The lane predicate lent to the syllable, as bits; all ones with none (R66). -/
def State.lanePred (s : State) : Nat :=
  if s.slot.lend.lp = 0 then ones 128 else (s.cur.readP (8 + s.slot.lend.lp)).toNat

/-- Byte enables of a vector result of `wbits` bits in elements of `eb` bits. -/
def State.ben (s : State) (wbits eb : Nat) : Nat :=
  if s.slot.lend.lp = 0 then ones (wbits / 8) else laneBytes s.lanePred eb (wbits / eb) 0

/-- The flags of the active elements (R268). -/
def activeFlags (lp eb : Nat) : List Flags → Nat → Flags
  | [], _ => 0
  | f :: t, k => (if activeLane lp eb k then f else 0) ||| activeFlags lp eb t (k + 1)

def State.laneFlags (s : State) (eb : Nat) (fs : List Flags) : Flags := activeFlags s.lanePred eb fs 0

/-! ### Results (R28, R35, R231, R268) -/

/-- Entries of the syllable at its slot enter flight. -/
def State.enter (s : State) (rs : List Result) : State :=
  let x := s.cur
  let num := rs.zipIdx.map fun (r, k) =>
    { r with
      id := x.seq * 64 + s.slot.pos * 4 + k, pos := s.slot.pos, seq := x.seq, baddr := s.slot.baddr
      fslot := s.slot.fslot, syl := s.slot.word }
  s.setCtx s.slot.ctx { x with inflight := x.inflight ++ num }

/-- R231: the results of a syllable enter flight; a 65th raises the illegal-operand trap. DEDUCED (log entry 57): of the two results of a
syllable whose second is the 65th the first enters, so that 64 are listed; when the syllable issues again it is replaced
(`Ctx.replaced`). A result from a word with an uncorrectable error carries the data-error trap (R156). -/
def State.post (s : State) (rs : List Result) : State :=
  let own := rs.map fun r =>
    { r with late := if s.slot.ecc then some { cause := .dataError, pos := s.slot.pos, faddr := r.ea } else r.late }
  if s.cur.results + rs.length > Config.resultsMax then
    match own.take (Config.resultsMax - s.cur.results) with
    | [] => s.raise .illegalOperand
    | l => (s.enter l).raise .illegalOperand
  else s.enter own

/-- R112, R227, R268: a syllable with its flags. Enabled flags trap when they are formed, and nothing lands, unless there is a 65th result,
which is the lower cause; else the results enter flight and the flags land with the first. -/
def State.settle (s : State) (fl : Flags) (lat : Nat) (rs : List Result) : State :=
  let x := s.cur
  if fl &&& x.trapMask = 0 || x.results + rs.length > Config.resultsMax then
    s.post (match rs with | [] => [] | r :: t => { r with flags := fl } :: t)
  else s.raiseEnabled fl x.trapMask lat

/-- R24, R28: a result that reaches only the latch when it is suppressed or its register discards writes. -/
def destFile (s : State) (file : RFile) (n : Nat) : RFile :=
  if s.slot.lend.ws then .latch
  else match file with
    | .s => if n = 0 then .latch else .s
    | .p => if n ≤ 1 then .latch else .p
    | f => f

/-- A 64-bit result for an s- or e-register, landing `lat` cycles after issue. -/
def State.putScalar (s : State) (file : RFile) (d val lat : Nat) (fl : Flags := 0) : State :=
  s.settle fl lat [{
    file := destFile s file d, reg := d, ben := 0xFF, val := BitVec.ofNat 1024 (val % 2 ^ 64)
    unit := s.slot.unit, lval := BitVec.ofNat 1024 (val % 2 ^ 64), due := s.cur.count + lat }]

/-- A vector result of `wbits` bits in elements of `eb` bits (R268). -/
def State.putVector (s : State) (d wbits eb val lat : Nat) (fl : Flags := 0) : State :=
  s.settle fl lat [{
    file := destFile s .v d, reg := d, ben := BitVec.ofNat 128 (s.ben wbits eb), val := BitVec.ofNat 1024 (val % 2 ^ wbits)
    unit := s.slot.unit, lval := BitVec.ofNat 1024 (val % 2 ^ wbits), due := s.cur.count + lat }]

/-- A whole predicate (R337). -/
def State.putPred (s : State) (d val lat : Nat) : State :=
  s.settle 0 lat [{
    file := destFile s .p d, reg := d, ben := BitVec.ofNat 128 (ones 16), val := BitVec.ofNat 1024 (val % 2 ^ 128)
    unit := s.slot.unit, lval := BitVec.ofNat 1024 (val % 2 ^ 128), due := s.cur.count + lat }]

/-- The two predicates of a compare, `yes` into p(2k) and `no` into p(2k+1), with the latch's value; suppressed, the
latch alone (R278, R331). -/
def State.putPair (s : State) (k yes no lval lat : Nat) (fl : Flags := 0) : State :=
  let one : Result := {
    file := destFile s .p (2 * k), reg := 2 * k, ben := BitVec.ofNat 128 (ones 16), val := BitVec.ofNat 1024 yes
    unit := s.slot.unit, lval := BitVec.ofNat 1024 lval, due := s.cur.count + lat }
  s.settle fl lat (if s.slot.lend.ws then [one]
    else [one, { one with reg := 2 * k + 1, val := BitVec.ofNat 1024 no }])

/-! ### Running a syllable -/

/-- R25, R318: whether a syllable takes effect; SEL always does. -/
def guardHolds (i : Instr) (s : State) : Bool :=
  match i with
  | .sel .. => true
  | _ => s.cur.guard (guardOf i)

/-- A syllable that traps has consumed no operand of a port, since it issues again (log entry 11); the count of its random
generator has been raised, since it has issued (06 R109). -/
def undoReads (s t : State) : State :=
  if t.slot.raised.length = s.slot.raised.length then t
  else t.updCur fun x => { x with ports := s.cur.ports }

/-- The causes that a syllable has met between two states, but for flags, which a word that is wrong does not show. -/
def State.causesSince (t s : State) : List Raised :=
  (t.slot.raised.take (t.slot.raised.length - s.slot.raised.length)).filter fun q => q.cause != .arithFlag

/-- A port's trap at a syllable: nothing takes effect, the syllable's random generator has counted its issue (06 R109), and the other
causes that it meets stand beside, so that the lowest is reported (R227); its flags are not known. -/
def State.raisePort (s : State) (r : Raised) (t : State) : State :=
  let own := t.causesSince s
  let u := s.updCur fun x => { x with srCount := t.cur.srCount }
  { u with slot := { s.slot with raised := own ++ { r with pos := s.slot.pos } :: s.slot.raised } }

/-- A syllable at its slot: the checks of R73 that concern it, its guard, its ports, then its effect. -/
def perform (i : Instr) (s : State) (body : State → State) : Host.Outcome State Fault Refusal :=
  match verdict i s with
  | some c => .next (s.raise c)
  | none =>
    if guardHolds i s then
      match s.portFault i with
      | some r => .next (s.raisePort r (body (s.popPorts i)))
      | none => .next (undoReads s (body (s.popPorts i)))
    else .next s

/-- A step without a syllable: it is taken only where what it serves is there. -/
@[inline] def event (ok : Bool) (s : State) : Host.Outcome State Fault Refusal :=
  if ok then .next s else .fault .notEnabled

end Sys2Proof.Machine
end

