-- ==== Sys2Proof/Machine/Scalar.lean ====
section
/-! DEFINITION. Class 1, the scalar unit: the two-operand mould (20 R272, R273), the move mould (21 R307), LI (R303),
SEL (22 R318) and CMP (20 R278); in the completion handler they act on h0 to h7 (02 R44). -/
namespace Sys2Proof.Machine

/-- R273 DIV: the quotient rounded toward zero, all ones for a zero divisor, with DZ; −2^63 / −1 is −2^63, with OF. -/
def divide (a b : Nat) : Nat × Flags :=
  let x := toSigned 64 a
  let y := toSigned 64 b
  if y = 0 then (2 ^ 64 - 1, flDZ)
  else if x = -(2 ^ 63 : Nat) ∧ y = -1 then (2 ^ 63, flOF)
  else (ofSigned 64 (x.tdiv y), 0)

/-- R273 REM: a − b·q; a for a zero divisor, with DZ; 0 for −2^63 and −1. -/
def remainder (a b : Nat) : Nat × Flags :=
  let x := toSigned 64 a
  let y := toSigned 64 b
  if y = 0 then (a, flDZ) else (ofSigned 64 (x.tmod y), 0)

/-- R273 MULH and MULHU. -/
def mulHighSigned (a b : Nat) : Nat := ofSigned 64 (toSigned 64 a * toSigned 64 b / 2 ^ 64)
def mulHighUnsigned (a b : Nat) : Nat := a * b / 2 ^ 64 % 2 ^ 64

/-- R273 SHR and SRA. -/
def shiftRight (a b : Nat) : Nat := a / 2 ^ (b % 64)
def shiftRightArith (a b : Nat) : Nat := ofSigned 64 (toSigned 64 a / (2 ^ (b % 64) : Nat))

/-- R278, R331: a condition on two patterns of `w` bits. -/
def condHolds (c : Cond) (w a b : Nat) : Bool :=
  match c with
  | .eq => a == b
  | .ne => a != b
  | .lt => toSigned w a < toSigned w b
  | .ge => toSigned w b ≤ toSigned w a
  | .ltu => a < b
  | .geu => b ≤ a
  | .le => toSigned w a ≤ toSigned w b
  | .gt => toSigned w b < toSigned w a

/-- R44: a handler register as it stood before the bundle. -/
def State.hreg (s : State) (n : Nat) : Nat := (Tab.get 0 s.slot.h n).toNat
/-- R44: a result in the handler, with no latch, written bit, flag or double write; a suppressed one goes nowhere. DESIGN CHOICE (log
entry 76): of two syllables of a bundle that write one h register the higher position prevails, since syllables run in that order. -/
def State.putH (s : State) (d val : Nat) : State :=
  if s.slot.lend.ws then s else s.updCur fun x => { x with h := Tab.set 0 x.h d (BitVec.ofNat 64 val) }

/-- R272: the two-operand mould. -/
def aluBody (f : Nat → Nat → Nat × Flags) (d a b : BitVec 6) (i : Bool) (s : State) : State :=
  if s.cur.inHandler then
    s.putH d.toNat (f (s.hreg a.toNat) (if i then s.imm6 b else s.hreg b.toNat)).1
  else
    let r := f (s.sa a.toNat) (s.aluB b i)
    s.putScalar .s d.toNat r.1 1 r.2

/-- A member of the mould that sets no flag. -/
def plain (f : Nat → Nat → Nat) (a b : Nat) : Nat × Flags := (f a b, 0)

/-- R307: the move mould. -/
def moveBody (file : RFile) (d : BitVec 6) (src : State → Nat) (h : State → Nat) (s : State) : State :=
  if s.cur.inHandler then s.putH d.toNat (h s) else s.putScalar file d.toNat (src s) 1

def execAdd (g : BitVec 3) (d a b : BitVec 6) (i : Bool) (s : State) :=
  perform (.add g d a b i) s (aluBody (plain fun x y => (x + y) % 2 ^ 64) d a b i)
def execSub (g : BitVec 3) (d a b : BitVec 6) (i : Bool) (s : State) :=
  perform (.sub g d a b i) s (aluBody (plain fun x y => (x + 2 ^ 64 - y % 2 ^ 64) % 2 ^ 64) d a b i)
def execMul (g : BitVec 3) (d a b : BitVec 6) (i : Bool) (s : State) :=
  perform (.mul g d a b i) s (aluBody (plain fun x y => x * y % 2 ^ 64) d a b i)
def execMulh (g : BitVec 3) (d a b : BitVec 6) (i : Bool) (s : State) :=
  perform (.mulh g d a b i) s (aluBody (plain mulHighSigned) d a b i)
def execMulhu (g : BitVec 3) (d a b : BitVec 6) (i : Bool) (s : State) :=
  perform (.mulhu g d a b i) s (aluBody (plain mulHighUnsigned) d a b i)
def execDiv (g : BitVec 3) (d a b : BitVec 6) (i : Bool) (s : State) :=
  perform (.div g d a b i) s (aluBody divide d a b i)
def execRem (g : BitVec 3) (d a b : BitVec 6) (i : Bool) (s : State) :=
  perform (.rem g d a b i) s (aluBody remainder d a b i)
def execAnd (g : BitVec 3) (d a b : BitVec 6) (i : Bool) (s : State) :=
  perform (.and g d a b i) s (aluBody (plain fun x y => x &&& y) d a b i)
def execOr (g : BitVec 3) (d a b : BitVec 6) (i : Bool) (s : State) :=
  perform (.or g d a b i) s (aluBody (plain fun x y => x ||| y) d a b i)
def execXor (g : BitVec 3) (d a b : BitVec 6) (i : Bool) (s : State) :=
  perform (.xor g d a b i) s (aluBody (plain fun x y => x ^^^ y) d a b i)
def execShl (g : BitVec 3) (d a b : BitVec 6) (i : Bool) (s : State) :=
  perform (.shl g d a b i) s (aluBody (plain fun x y => x * 2 ^ (y % 64) % 2 ^ 64) d a b i)
def execShr (g : BitVec 3) (d a b : BitVec 6) (i : Bool) (s : State) :=
  perform (.shr g d a b i) s (aluBody (plain shiftRight) d a b i)
def execSra (g : BitVec 3) (d a b : BitVec 6) (i : Bool) (s : State) :=
  perform (.sra g d a b i) s (aluBody (plain shiftRightArith) d a b i)
def execMin (g : BitVec 3) (d a b : BitVec 6) (i : Bool) (s : State) :=
  perform (.min g d a b i) s (aluBody (plain fun x y => if toSigned 64 x ≤ toSigned 64 y then x else y) d a b i)
def execMax (g : BitVec 3) (d a b : BitVec 6) (i : Bool) (s : State) :=
  perform (.max g d a b i) s (aluBody (plain fun x y => if toSigned 64 x ≤ toSigned 64 y then y else x) d a b i)

def execMov (g : BitVec 3) (d a b : BitVec 6) (i : Bool) (s : State) :=
  perform (.mov g d a b i) s (moveBody .s d (fun t => t.sa a.toNat) (fun t => t.hreg a.toNat))
def execMve (g : BitVec 3) (d a b : BitVec 6) (i : Bool) (s : State) :=
  perform (.mve g d a b i) s (moveBody .e d (fun t => t.sa a.toNat) (fun _ => 0))
def execMfe (g : BitVec 3) (d a b : BitVec 6) (i : Bool) (s : State) :=
  perform (.mfe g d a b i) s (moveBody .s d (fun t => (t.cur.readE a.toNat).toNat) (fun _ => 0))

/-- R303, R70: the 13-bit or 38-bit signed immediate. -/
def liImm (imm : BitVec 13) (s : State) : Nat :=
  match s.slot.lend.ext with
  | some e => signExtend 38 64 (e * 2 ^ 13 + imm.toNat)
  | none => signExtend 13 64 imm.toNat

def execLi (g : BitVec 3) (d : BitVec 6) (imm : BitVec 13) (s : State) :=
  perform (.li g d imm) s (moveBody .s d (liImm imm) (liImm imm))

/-- R318: the guard selects, and the result lands whatever it is. -/
def selBody (g : BitVec 3) (d a b : BitVec 6) (s : State) : State :=
  s.putScalar .s d.toNat (if s.cur.guard g then s.sa a.toNat else s.sb b.toNat) 1

def execSel (g : BitVec 3) (d a b : BitVec 6) (i : Bool) (s : State) :=
  perform (.sel g d a b i) s (selBody g d a b)

/-- R278: both predicates in full, the latch 1 or 0. -/
def cmpBody (c : Cond) (d a b : BitVec 6) (i : Bool) (s : State) : State :=
  let t := condHolds c 64 (s.sa a.toNat) (s.aluB b i)
  s.putPair d.toNat (if t then ones 128 else 0) (if t then 0 else ones 128) (if t then 1 else 0) 1

def execCmp (g : BitVec 3) (c : Cond) (d a b : BitVec 6) (i : Bool) (s : State) :=
  perform (.cmp g c d a b i) s (cmpBody c d a b i)

end Sys2Proof.Machine
end

