-- ==== Sys2Proof/Machine/Control.lean ====
section
/-! DEFINITION. Class 2, control (04 R79, R80): branches, calls, hardware loops, FLIP, RETIRE, TRAP, BKPT and RETH. A
transfer, a new loop and a flip take effect when the bundle has issued. -/
namespace Sys2Proof.Machine

/-- The 64-bit address `off` quads from the bundle's first quad. -/
def State.quadsAway (s : State) (off : Int) : Nat := ofSigned 64 (s.slot.baddr + 16 * off)

/-- The next bundle is the one at an address. -/
def State.goTo (s : State) (a : Nat) : State := s.updCur fun x => { x with target := some a }

/-- A register target whose bits [3:0] are not zero raises the illegal-operand trap (R79). -/
def State.goToReg (s : State) (a : Nat) (k : State → State) : State :=
  if a % 16 = 0 then k (s.goTo a) else s.raise .illegalOperand

/-- R277: CALL writes the address of the quad after its bundle to s63, and no latch. -/
def State.link (s : State) : State := s.putScalar .s 63 s.slot.next 1

def execNop (g : BitVec 3) (s : State) := perform (.nop g) s fun t => t

def execBr (g : BitVec 3) (off : BitVec 20) (s : State) :=
  perform (.br g off) s fun t => t.goTo (t.quadsAway off.toInt)

def execJmp (g : BitVec 3) (a : BitVec 6) (s : State) :=
  perform (.jmp g a) s fun t =>
    t.goToReg (if t.cur.inHandler then t.hreg a.toNat else t.sa a.toNat) fun u => u

def execCall (g : BitVec 3) (off : BitVec 19) (s : State) :=
  perform (.call g off) s fun t => (t.goTo (t.quadsAway off.toInt)).link

def execCallReg (g : BitVec 3) (a : BitVec 6) (s : State) :=
  perform (.callReg g a) s fun t => t.goToReg (t.sa a.toNat) State.link

def execRet (g : BitVec 3) (s : State) :=
  perform (.ret g) s fun t => t.goToReg (t.cur.readS 63).toNat fun u => u

/-! ### LOOP (21 R304 to R306) -/

/-- Whether a loop's masks let its body bundle `b` issue in iteration `i` of `c` (R305). -/
def Loop.allows (l : Loop) (i b : Nat) : Bool :=
  !(bitAt l.first b && i != 0) && !(bitAt l.last b && i + 1 != l.count)

/-- The masks of EXT: bit b of EXT[24:12] for the first iteration, bit b − 1 of EXT[11:0] for the last (R70). -/
def loopMasks (ext : Option Nat) : Nat × Nat :=
  match ext with
  | some e => (e / 2 ^ 12, e % 2 ^ 12 * 2)
  | none => (0, 0)

/-- R305: a loop begins unless its slot is active or its body would outlast an active loop's. -/
def loopBody (lvl : Fin 6) (len : BitVec 4) (cnt : BitVec 6) (s : State) : State :=
  let x := s.cur
  let n := len.toNat + 1
  if x.loops.any (fun l => l.lvl == lvl.val) || x.loops.any (fun l => l.len < l.pos + 1 + n) then
    s.raise .illegalOperand
  else
    let m := loopMasks s.slot.lend.ext
    let l : Loop :=
      { lvl := lvl.val, len := n, count := (x.readS cnt.toNat).toNat, first := m.1, last := m.2, start := s.slot.next }
    s.updCur fun y => { y with newLoop := some l }

def execLoop (g : BitVec 3) (lvl : Fin 6) (len : BitVec 4) (cnt : BitVec 6) (s : State) :=
  perform (.loop g lvl len cnt) s (loopBody lvl len cnt)

/-- The active loops when the bundle after the present one in memory is reached. -/
def shiftLoops (d : Int) (ls : List Loop) : List Loop := ls.map fun l => { l with pos := (l.pos + d).toNat }

/-- Whether every active loop's masks let the bundle at the present positions issue (R306). -/
def loopsAllow (ls : List Loop) : Bool := ls.all fun l => l.allows l.iter l.pos

/-- Whether the innermost loop's whole body would be skipped in iteration `i`, its outer loops staying in theirs. -/
def bodySkipped (l : Loop) (outer : List Loop) (i : Nat) : Bool :=
  (List.range l.len).all fun b =>
    !(l.allows i b && loopsAllow (shiftLoops ((b : Int) - l.pos) outer))

/-- Where control stands: the address of a bundle and the active loops, innermost first. -/
structure Place where
  addr  : Nat
  loops : List Loop

/-- One bundle on in memory from a bundle that ends at `next`: the innermost loop's next body bundle, its next iteration,
or the bundle after its body (R305, R306). Iterations whose every bundle is skipped take no step. -/
def stepLoops (next : Nat) : List Loop → Place
  | [] => { addr := next, loops := [] }
  | l :: outer =>
    if l.pos + 1 < l.len then { addr := next, loops := shiftLoops 1 (l :: outer) }
    else
      let i := l.iter + 1
      let i := if 1 ≤ i && i + 1 < l.count && bodySkipped l outer i then l.count - 1 else i
      if i < l.count then
        { addr := l.start, loops := { l with iter := i, pos := 0 } :: shiftLoops (1 - (l.len : Int)) outer }
      else stepLoops next outer

/-- From a place on, past every bundle that a mask skips; `size` gives the bytes of the bundle at an address (R305). -/
def settleLoops (size : Nat → Nat) : Nat → Place → Place
  | 0, p => p
  | fuel + 1, p =>
    if loopsAllow p.loops then p
    else settleLoops size fuel (stepLoops (p.addr + size p.addr) p.loops)

/-- Past `n` bundles that are not decoded (R305, a count of zero). -/
def skipBundles (size : Nat → Nat) : Nat → Nat → Nat
  | 0, a => a
  | n + 1, a => skipBundles size n (a + size a)

/-- The next bundle after one that ends at `next` and transfers nowhere, a loop having begun in it or not. -/
def nextPlace (size : Nat → Nat) (next : Nat) (loops : List Loop) (new : Option Loop) : Place :=
  let p : Place := match new with
    | none => stepLoops next loops
    | some l =>
      if l.count = 0 then stepLoops (skipBundles size l.len next) (shiftLoops l.len loops)
      else { addr := next, loops := l :: shiftLoops 1 loops }
  settleLoops size 1024 p

/-! ### FLIP and RETIRE (02 R36, R37; 03 R53) -/

/-- A FLIP begins its waits once its bundle has issued. -/
def flipBody (bar : BScope) (pub : PScope) (s : State) : State :=
  s.updCur fun x => { x with flip := some { bar, pub, baddr := s.slot.baddr, pos := s.slot.pos } }

def execFlip (g : BitVec 3) (bar : BScope) (pub : PScope) (s : State) :=
  perform (.flip g bar pub) s (flipBody bar pub)

/-- RETIRE waits and releases as FLIP.nb.dv does. -/
def retireBody (s : State) : State :=
  s.updCur fun x => { x with flip := some { retire := true, pub := .device, baddr := s.slot.baddr, pos := s.slot.pos } }

def execRetire (g : BitVec 3) (s : State) := perform (.retire g) s retireBody

/-! ### TRAP, BKPT, RETH (20 R275, 22 R326, 21 R316) -/

/-- The debug trap, which a resumption passes over. -/
def debugBody (cond : Nat) (imm : BitVec 8) (s : State) : State :=
  if s.slot.resumed then s else s.raise .debug cond (imm := imm.toNat)

def execTrap (g : BitVec 3) (imm : BitVec 8) (s : State) := perform (.trap g imm) s (debugBody 1 imm)
def execBkpt (g : BitVec 3) (imm : BitVec 8) (s : State) := perform (.bkpt g imm) s (debugBody 0 imm)

/-- The handler ends when the bundle has issued. -/
def rethBody (s : State) : State := { s with slot := { s.slot with leave := true } }

def execReth (g : BitVec 3) (s : State) := perform (.reth g) s rethBody

end Sys2Proof.Machine
end

