-- ==== Sys2Proof/Machine/VecInt.lean ====
section
/-! DEFINITION. Class 3, vector integer (22 R327 to R331, R339, R340; 11 R189). -/
namespace Sys2Proof.Machine

/-- R329: a two-operand function on every element. -/
def mapLanes2 (f : Nat → Nat → Nat) (w sz a b : Nat) : Nat :=
  ofLanes sz (List.zipWith f (lanes a sz (w / sz)) (lanes b sz (w / sz)))

/-- R327: a one-operand function on every element. -/
def mapLanes (f : Nat → Nat) (w sz a : Nat) : Nat := ofLanes sz ((lanes a sz (w / sz)).map f)

/-- R329: the mould; the result lands at cycle 2. -/
def vecBody (f : Nat → Nat → Nat → Nat) (w : Width) (z : ESize) (d a b : BitVec 5) (s : State) : State :=
  s.putVector d.toNat w.bits z.bits (mapLanes2 (f z.bits) w.bits z.bits (s.va a.toNat) (s.vb b.toNat)) 2

/-- R327: the unary mould. -/
def vec1Body (f : Nat → Nat → Nat) (w : Width) (z : ESize) (d a : BitVec 5) (s : State) : State :=
  s.putVector d.toNat w.bits z.bits (mapLanes (f z.bits) w.bits z.bits (s.va a.toNat)) 2

/-- R329: the functions of two elements of `n` bits. -/
def laneAdd (n a b : Nat) : Nat := (a + b) % 2 ^ n
def laneSub (n a b : Nat) : Nat := (a + 2 ^ n - b) % 2 ^ n
def laneMul (n a b : Nat) : Nat := a * b % 2 ^ n
def laneMulh (u : Bool) (n a b : Nat) : Nat :=
  if u then a * b / 2 ^ n else ofSigned n (toSigned n a * toSigned n b / (2 ^ n : Nat))
def laneAnd (_ a b : Nat) : Nat := a &&& b
def laneOr (_ a b : Nat) : Nat := a ||| b
def laneXor (_ a b : Nat) : Nat := a ^^^ b
def laneShl (n a b : Nat) : Nat := a * 2 ^ (b % n) % 2 ^ n
def laneShr (n a b : Nat) : Nat := a / 2 ^ (b % n)
def laneSra (n a b : Nat) : Nat := ofSigned n (toSigned n a / (2 ^ (b % n) : Nat))
/-- Whether a ≤ b, signed or unsigned. -/
def laneLe (u : Bool) (n a b : Nat) : Bool := if u then a ≤ b else toSigned n a ≤ toSigned n b
def laneMin (u : Bool) (n a b : Nat) : Nat := if laneLe u n a b then a else b
def laneMax (u : Bool) (n a b : Nat) : Nat := if laneLe u n a b then b else a
/-- R327. -/
def laneAbs (n a : Nat) : Nat := ofSigned n (toSigned n a).natAbs
/-- The set bits among the low `k` of a number. -/
def popCount : Nat → Nat → Nat
  | 0, _ => 0
  | k + 1, x => x % 2 + popCount k (x / 2)
def laneCnt (n a : Nat) : Nat := popCount n a % 2 ^ n

def execVadd (g : BitVec 3) (w : Width) (z : ESize) (u : Bool) (d a b : BitVec 5) (s : State) :=
  perform (.vadd g w z u d a b) s (vecBody laneAdd w z d a b)
def execVsub (g : BitVec 3) (w : Width) (z : ESize) (u : Bool) (d a b : BitVec 5) (s : State) :=
  perform (.vsub g w z u d a b) s (vecBody laneSub w z d a b)
def execVmul (g : BitVec 3) (w : Width) (z : ESize) (u : Bool) (d a b : BitVec 5) (s : State) :=
  perform (.vmul g w z u d a b) s (vecBody laneMul w z d a b)
def execVmulh (g : BitVec 3) (w : Width) (z : ESize) (u : Bool) (d a b : BitVec 5) (s : State) :=
  perform (.vmulh g w z u d a b) s (vecBody (laneMulh u) w z d a b)
def execVand (g : BitVec 3) (w : Width) (z : ESize) (u : Bool) (d a b : BitVec 5) (s : State) :=
  perform (.vand g w z u d a b) s (vecBody laneAnd w z d a b)
def execVor (g : BitVec 3) (w : Width) (z : ESize) (u : Bool) (d a b : BitVec 5) (s : State) :=
  perform (.vor g w z u d a b) s (vecBody laneOr w z d a b)
def execVxor (g : BitVec 3) (w : Width) (z : ESize) (u : Bool) (d a b : BitVec 5) (s : State) :=
  perform (.vxor g w z u d a b) s (vecBody laneXor w z d a b)
def execVshl (g : BitVec 3) (w : Width) (z : ESize) (u : Bool) (d a b : BitVec 5) (s : State) :=
  perform (.vshl g w z u d a b) s (vecBody laneShl w z d a b)
def execVshr (g : BitVec 3) (w : Width) (z : ESize) (u : Bool) (d a b : BitVec 5) (s : State) :=
  perform (.vshr g w z u d a b) s (vecBody laneShr w z d a b)
def execVsra (g : BitVec 3) (w : Width) (z : ESize) (u : Bool) (d a b : BitVec 5) (s : State) :=
  perform (.vsra g w z u d a b) s (vecBody laneSra w z d a b)
def execVmin (g : BitVec 3) (w : Width) (z : ESize) (u : Bool) (d a b : BitVec 5) (s : State) :=
  perform (.vmin g w z u d a b) s (vecBody (laneMin u) w z d a b)
def execVmax (g : BitVec 3) (w : Width) (z : ESize) (u : Bool) (d a b : BitVec 5) (s : State) :=
  perform (.vmax g w z u d a b) s (vecBody (laneMax u) w z d a b)
def execVabs (g : BitVec 3) (w : Width) (z : ESize) (u : Bool) (d a : BitVec 5) (s : State) :=
  perform (.vabs g w z u d a) s (vec1Body laneAbs w z d a)
def execVcnt (g : BitVec 3) (w : Width) (z : ESize) (u : Bool) (d a : BitVec 5) (s : State) :=
  perform (.vcnt g w z u d a) s (vec1Body laneCnt w z d a)

/-- R340: byte by byte from A where the predicate's bit is set, else from B; all bytes land. -/
def vselBody (w : Width) (d a b : BitVec 5) (s : State) : State :=
  let n := w.bits / 8
  let v := mergeBytes n s.lanePred (s.vb b.toNat) (s.va a.toNat) % 2 ^ w.bits
  s.settle 0 2 [{
    file := destFile s .v d.toNat, reg := d.toNat, ben := BitVec.ofNat 128 (ones n), val := BitVec.ofNat 1024 v
    unit := s.slot.unit, lval := BitVec.ofNat 1024 v, due := s.cur.count + 2 }]

def execVsel (g : BitVec 3) (w : Width) (z : ESize) (u : Bool) (d a b : BitVec 5) (s : State) :=
  perform (.vsel g w z u d a b) s (vselBody w d a b)

/-- R339: the reduction over all lanes, into lane 0. -/
def reduceLanes (sel : Nat) (u : Bool) (n : Nat) : List Nat → Nat
  | [] => 0
  | x :: xs => xs.foldl (if sel = 0 then laneAdd n else if sel = 1 then laneMax u n else laneMin u n) x

def vrediBody (w : Width) (z : ESize) (u : Bool) (d a sel : BitVec 5) (s : State) : State :=
  s.putVector d.toNat w.bits z.bits
    (reduceLanes sel.toNat u z.bits (lanes (s.va a.toNat) z.bits (w.bits / z.bits))) 2

def execVredi (g : BitVec 3) (w : Width) (z : ESize) (u : Bool) (d a sel : BitVec 5) (s : State) :=
  perform (.vredi g w z u d a sel) s (vrediBody w z u d a sel)

/-- R189, R331: the predicate bits of `n` elements of `eb` bytes whose conditions are given. -/
def condPred (eb : Nat) : List Bool → Nat
  | [] => 0
  | t :: ts => (if t then ones eb else 0) + 2 ^ eb * condPred eb ts

/-- R331: the condition and its complement over the bytes below W/8; the latch takes all ones in each true element. -/
def vcmpBody (c : Cond) (w : Width) (z : ESize) (d : BitVec 3) (a b : BitVec 5) (s : State) : State :=
  let n := w.bits / z.bits
  let t := List.zipWith (condHolds c z.bits) (lanes (s.va a.toNat) z.bits n) (lanes (s.vb b.toNat) z.bits n)
  let p := condPred (z.bits / 8) t
  s.putPair d.toNat p (condPred (z.bits / 8) (t.map not)) (expandMask 128 p) 2

def execVcmp (g : BitVec 3) (c : Cond) (w : Width) (z : ESize) (u : Bool) (d : BitVec 3) (a b : BitVec 5) (s : State) :=
  perform (.vcmp g c w z u d a b) s (vcmpBody c w z d a b)

end Sys2Proof.Machine
end

