-- ==== Sys2Proof/Machine/Permute.lean ====
section
/-! DEFINITION. The moving members of class 5: VPERM, VBCAST, VSEQ, VISECT, VMOVP, RNGC, VEXT and VINS (22 R330, R334 to
R338, R341; 21 R317), with the generator mix64 (06 R111). All land at cycle 6. -/
namespace Sys2Proof.Machine

/-- R111. -/
def mix64 (k c : Nat) : Nat :=
  let z := (k + c * 0x9E3779B97F4A7C15) % 2 ^ 64
  let z := (z ^^^ (z / 2 ^ 30)) * 0xBF58476D1CE4E5B9 % 2 ^ 64
  let z := (z ^^^ (z / 2 ^ 27)) * 0x94D049BB133111EB % 2 ^ 64
  z ^^^ (z / 2 ^ 31)

/-- R338: lane i is the lane of A that lane i of B names, modulo the number of lanes. -/
def permute (w sz a b : Nat) : Nat :=
  ofLanes sz ((lanes b sz (w / sz)).map fun k => lane a (k % (w / sz)) sz)

def vpermBody (w : Width) (z : ESize) (d a b : BitVec 5) (s : State) : State :=
  s.putVector d.toNat w.bits z.bits (permute w.bits z.bits (s.va a.toNat) (s.vb b.toNat)) 6

def execVperm (g : BitVec 3) (w : Width) (z : ESize) (d a b : BitVec 5) (s : State) :=
  perform (.vperm g w z d a b) s (vpermBody w z d a b)

/-- R330: every lane takes the low bits of lane 0 of a vector or of a scalar. -/
def vbcastBody (w : Width) (z : ESize) (k : Bool) (d a : BitVec 5) (s : State) : State :=
  let x := if k then s.sa a.toNat else s.va a.toNat
  s.putVector d.toNat w.bits z.bits (ofLanes z.bits (List.replicate (w.bits / z.bits) x)) 6

def execVbcast (g : BitVec 3) (w : Width) (z : ESize) (k : Bool) (d a : BitVec 5) (s : State) :=
  perform (.vbcast g w z k d a) s (vbcastBody w z k d a)

/-- R341: lane i is base + i · step. -/
def vseqBody (w : Width) (z : ESize) (d a b : BitVec 5) (s : State) : State :=
  let x := s.sa a.toNat
  let y := s.sb b.toNat
  s.putVector d.toNat w.bits z.bits (ofLanes z.bits ((List.range (w.bits / z.bits)).map fun i => x + i * y)) 6

def execVseq (g : BitVec 3) (w : Width) (z : ESize) (d a b : BitVec 5) (s : State) :=
  perform (.vseq g w z d a b) s (vseqBody w z d a b)

/-- The bits of a list of conditions, element 0 lowest. -/
def bitsOf : List Bool → Nat
  | [] => 0
  | t :: ts => (if t then 1 else 0) + 2 * bitsOf ts

/-- R336: the two counts and the two masks of a merge of two vectors of 32 unsigned words. -/
def intersect (as bs : List Nat) : List Nat :=
  let m := Nat.min (as.getD 31 0) (bs.getD 31 0)
  [as.countP (fun x => x ≤ m), bs.countP (fun x => x ≤ m),
   bitsOf (as.map fun x => x ≤ m && bs.contains x), bitsOf (bs.map fun x => x ≤ m && as.contains x)]

def visectBody (d a b : BitVec 5) (s : State) : State :=
  s.putVector d.toNat 1024 32 (ofLanes 32 (intersect (lanes (s.va a.toNat) 32 32) (lanes (s.vb b.toNat) 32 32))) 6

def execVisect (g : BitVec 3) (w : Width) (z : ESize) (d a b : BitVec 5) (s : State) :=
  perform (.visect g w z d a b) s (visectBody d a b)

/-- R337: a predicate into a vector, a byte of it an element (log entry 12), or a vector into a predicate. -/
def vmovpBody (w : Width) (toPred : Bool) (d a : BitVec 5) (s : State) : State :=
  if toPred then s.putPred d.toNat (s.va a.toNat) 6
  else s.putVector d.toNat w.bits 8 (s.cur.readP a.toNat).toNat 6

def execVmovp (g : BitVec 3) (w : Width) (toPred : Bool) (d a : BitVec 5) (s : State) :=
  perform (.vmovp g w toPred d a) s (vmovpBody w toPred d a)

/-- R317: lane i takes mix64(key, base + i). -/
def rngcBody (w : Width) (z : ESize) (d a b : BitVec 5) (s : State) : State :=
  let k := s.sa a.toNat
  let c := s.sb b.toNat
  s.putVector d.toNat w.bits z.bits
    (ofLanes z.bits ((List.range (w.bits / z.bits)).map fun i => mix64 k ((c + i) % 2 ^ 64))) 6

def execRngc (g : BitVec 3) (w : Width) (z : ESize) (d a b : BitVec 5) (s : State) :=
  perform (.rngc g w z d a b) s (rngcBody w z d a b)

/-- R334: the lane that a scalar names, zero-extended. -/
def vextBody (w : Width) (z : ESize) (d a b : BitVec 5) (s : State) : State :=
  s.putScalar .s d.toNat (lane (s.va a.toNat) (s.sb b.toNat % (w.bits / z.bits)) z.bits) 6

def execVext (g : BitVec 3) (w : Width) (z : ESize) (d a b : BitVec 5) (s : State) :=
  perform (.vext g w z d a b) s (vextBody w z d a b)

/-- R335: one lane takes the scalar, the others the destination's visible face. -/
def vinsBody (w : Width) (z : ESize) (d a b : BitVec 5) (s : State) : State :=
  let n := w.bits / z.bits
  let j := s.sb b.toNat % n
  let old := lanes (s.cur.readV d.toNat).toNat z.bits n
  s.putVector d.toNat w.bits z.bits (ofLanes z.bits (old.set j (s.sa a.toNat))) 6

def execVins (g : BitVec 3) (w : Width) (z : ESize) (d a b : BitVec 5) (s : State) :=
  perform (.vins g w z d a b) s (vinsBody w z d a b)

end Sys2Proof.Machine
end

