-- ==== Sys2Proof/Machine/Numeric.lean ====
section
/-! DEFINITION. Number formats and rounding (06): every operation is computed exactly and rounded once (R103), with its
special values (R104, R105, R113 to R120). A finite value is a natural number times a power of two; a quotient, a root or
a transcendental value carries a sticky bit below its last bit. -/
namespace Sys2Proof.Machine

/-- Kinds of format: with infinities, E4M3, and the plied family (R106, R119). -/
inductive FmtKind | ieee | e4m3 | ply
  deriving DecidableEq, Repr

/-- A format: bits, fraction bits, exponent of the smallest normal, code of the largest finite value. -/
structure Fmt where
  bits : Nat
  mb   : Nat
  emin : Int
  maxc : Nat
  kind : FmtKind
  deriving DecidableEq, Repr

def fp32 : Fmt := { bits := 32, mb := 23, emin := -126, maxc := 0x7F7FFFFF, kind := .ieee }
def bf16 : Fmt := { bits := 16, mb := 7, emin := -126, maxc := 0x7F7F, kind := .ieee }
def e4m3 : Fmt := { bits := 8, mb := 3, emin := -6, maxc := 0x7E, kind := .e4m3 }
def e5m2 : Fmt := { bits := 8, mb := 2, emin := -14, maxc := 0x7B, kind := .ieee }
/-- R119: a plied element of `k` plies, 4k bits. -/
def ply (k : Nat) : Fmt := { bits := 4 * k, mb := 4 * k - 3, emin := 0, maxc := 2 ^ (4 * k - 1) - 1, kind := .ply }

/-- R81 FMT. -/
def fmtOf : FFmt → Fmt
  | .fp32 => fp32 | .bf16 => bf16 | .e4m3 => e4m3 | .e5m2 => e5m2

/-- A value: a NaN with its sign, fraction and whether it signals; an infinity; a finite number (−1)^neg · m · 2^e. -/
inductive FV
  | nan (neg : Bool) (frac : Nat) (sig : Bool)
  | inf (neg : Bool)
  | num (neg : Bool) (m : Nat) (e : Int)
  deriving DecidableEq, Repr

/-- The value of a code (R106, R119). -/
def Fmt.value (f : Fmt) (w : Nat) : FV :=
  let neg := bitAt w (f.bits - 1)
  let mag := w % 2 ^ (f.bits - 1)
  let x := mag / 2 ^ f.mb
  let fr := mag % 2 ^ f.mb
  let fin := if x = 0 then FV.num neg fr (f.emin - f.mb)
    else .num neg (2 ^ f.mb + fr) (f.emin - f.mb + (x - 1 : Nat))
  match f.kind with
  | .ieee =>
    if x = 2 ^ (f.bits - 1 - f.mb) - 1 then
      if fr = 0 then .inf neg else .nan neg fr (!bitAt fr (f.mb - 1))
    else fin
  | .e4m3 => if mag = 0x7F then .nan neg fr false else fin
  | .ply => if neg && mag = 0 then .nan false 0 false else fin

/-- The sign bit. -/
def Fmt.sign (f : Fmt) (neg : Bool) : Nat := if neg then 2 ^ (f.bits - 1) else 0
/-- The code of an infinity. -/
def Fmt.infCode (f : Fmt) (neg : Bool) : Nat := f.sign neg + f.maxc + 1
/-- The default NaN (R104), and the element NaN of the plied formats (R120). -/
def Fmt.defaultNan (f : Fmt) : Nat :=
  match f.kind with
  | .ieee => f.maxc + 1 + 2 ^ (f.mb - 1)
  | .e4m3 => 0x7F
  | .ply => 2 ^ (f.bits - 1)
/-- Zero with a sign; the plied formats have no −0 (R120). -/
def Fmt.zero (f : Fmt) (neg : Bool) : Nat := if f.kind = .ply then 0 else f.sign neg

/-- Rounding modes (R107), stochastic rounding with its 16-bit number (R108). -/
inductive RMode | rne | rz | ru | rd | sr (r : Nat)
  deriving DecidableEq, Repr

/-- FRM (R107). -/
def RMode.ofFrm : Nat → RMode
  | 0 => .rne | 1 => .rz | 2 => .ru | _ => .rd

/-- Where the exact value lies above the lower neighbour: on it, below, at or above the midpoint. -/
inductive Gap | exact | below | half | above
  deriving DecidableEq, Repr

/-- Whether the magnitude is rounded up (R103, R108). -/
def roundsUp (mode : RMode) (neg odd : Bool) (g : Gap) (f16 : Nat) : Bool :=
  if g = .exact then false else
  match mode with
  | .rne => g = .above || (g = .half && odd)
  | .rz => false
  | .ru => !neg
  | .rd => neg
  | .sr r => 2 ^ 16 ≤ f16 + r

/-- The multiple of 2^q that m·2^e (and a little more with `st`) rounds to, and whether it differs. -/
def quantize (mode : RMode) (neg : Bool) (m : Nat) (e : Int) (st : Bool) (q : Int) : Nat × Bool :=
  let (n, g, f16) : Nat × Gap × Nat :=
    if q ≤ e then (m * 2 ^ (e - q).toNat, if st then .below else .exact, 0)
    else
      let d := (q - e).toNat
      let r := m % 2 ^ d
      let g : Gap :=
        if r = 0 then (if st then .below else .exact)
        else if 2 * r < 2 ^ d then .below
        else if 2 * r = 2 ^ d then (if st then .above else .half)
        else .above
      (m / 2 ^ d, g, r * 2 ^ 16 / 2 ^ d)
  (if roundsUp mode neg (n % 2 = 1) g f16 then n + 1 else n, g ≠ .exact)

/-- Overflow of a finite result (R105, R120). -/
def Fmt.overflow (f : Fmt) (sat : Bool) (mode : RMode) (neg : Bool) : Nat :=
  let away := match mode with
    | .rne => true | .rz => false | .ru => !neg | .rd => neg | .sr _ => true
  if f.kind = .ply || sat || !away then f.sign neg + f.maxc else f.infCode neg

/-- R103: one rounding of a non-zero exact value into a format, with its flags. Tininess is judged on the value rounded with an unbounded
exponent range; DESIGN CHOICE (log entry 79): under stochastic rounding with the same r, at the finer step of that range. -/
def Fmt.round (f : Fmt) (sat : Bool) (mode : RMode) (neg : Bool) (m : Nat) (e : Int) (st : Bool) : Nat × Flags :=
  let top : Int := (Nat.log2 m : Nat) + e
  let emax : Int := f.emin + (f.maxc / 2 ^ f.mb - 1 : Nat)
  let q := min (max top f.emin) emax - f.mb
  let (n, inexact) := quantize mode neg m e st q
  let code := (q - (f.emin - f.mb)).toNat * 2 ^ f.mb + n
  if f.maxc < code then (f.overflow sat mode neg, flOF ||| flNX)
  else
    let tiny := top < f.emin &&
      !(top + 1 = f.emin && (quantize mode neg m e st (top - f.mb)).1 = 2 ^ (f.mb + 1))
    let fl := if inexact then (if tiny && f.kind ≠ .ply then flUF ||| flNX else flNX) else 0
    (if code = 0 then f.zero neg else f.sign neg + code, fl)

/-- Rounding of a finite value whose zero takes the sign `zneg`. -/
def Fmt.roundNum (f : Fmt) (sat : Bool) (mode : RMode) (zneg neg : Bool) (m : Nat) (e : Int) (st : Bool := false) :
    Nat × Flags :=
  if m = 0 && !st then (f.zero zneg, 0) else f.round sat mode neg m e st

/-! ### NaNs (R104) -/

def FV.isNan : FV → Bool
  | .nan .. => true | _ => false
def FV.signals : FV → Bool
  | .nan _ _ s => s | _ => false
def FV.neg : FV → Bool
  | .nan n _ _ | .inf n | .num n _ _ => n
def FV.isZero : FV → Bool
  | .num _ m _ => m == 0 | _ => false
def FV.isInf : FV → Bool
  | .inf _ => true | _ => false

/-- A NaN of fraction width `from_` in a format: sign and high payload bits kept, the quiet bit set (R104, R116). -/
def Fmt.quiet (f : Fmt) (from_ : Nat) (neg : Bool) (frac : Nat) : Nat :=
  match f.kind with
  | .ieee =>
    let fr := if from_ ≤ f.mb then frac * 2 ^ (f.mb - from_) else frac / 2 ^ (from_ - f.mb)
    f.sign neg + f.maxc + 1 + (fr ||| 2 ^ (f.mb - 1))
  | _ => f.defaultNan

/-- NV for a signaling operand. -/
def nvIf (b : Bool) : Flags := if b then flNV else 0

/-- The first NaN operand in the order given, quieted; each operand comes with the fraction width of its format. -/
def Fmt.firstNan (f : Fmt) : List (FV × Nat) → Option Nat
  | [] => none
  | (.nan n fr _, w) :: _ => some (f.quiet w n fr)
  | _ :: t => f.firstNan t

/-- A result that is a NaN because an operand is (R104); else `k`. -/
def Fmt.withNans (f : Fmt) (ops : List (FV × Nat)) (k : Nat × Flags) : Nat × Flags :=
  match f.firstNan ops with
  | some c => (c, nvIf (ops.any fun o => o.1.signals))
  | none => k

/-- An invalid operation (R104). -/
def Fmt.invalid (f : Fmt) : Nat × Flags := (f.defaultNan, flNV)

/-! ### Sums and products -/

/-- The exact sum of two finite numbers, as a signed integer times a power of two. -/
def exactSum (na : Bool) (ma : Nat) (ea : Int) (nb : Bool) (mb : Nat) (eb : Int) : Int × Int :=
  let e := min ea eb
  let x : Int := (ma * 2 ^ (ea - e).toNat : Nat)
  let y : Int := (mb * 2 ^ (eb - e).toNat : Nat)
  ((if na then -x else x) + (if nb then -y else y), e)

/-- R103: the sign of an exact zero sum. -/
def zeroSign (mode : RMode) (na nb : Bool) : Bool := if na = nb then na else mode = .rd

/-- A sum of two values that are no NaNs. -/
def Fmt.sum (f : Fmt) (sat : Bool) (mode : RMode) (a b : FV) : Nat × Flags :=
  match a, b with
  | .inf x, .inf y => if x = y then (f.infCode x, 0) else f.invalid
  | .inf x, _ => (f.infCode x, 0)
  | _, .inf y => (f.infCode y, 0)
  | .num na ma ea, .num nb mb eb =>
    let (v, e) := exactSum na ma ea nb mb eb
    f.roundNum sat mode (zeroSign mode na nb) (v < 0) v.natAbs e
  | _, _ => f.invalid

/-- The exact product of two values that are no NaNs; none for 0 × ∞. -/
def exactProd (a b : FV) : Option FV :=
  match a, b with
  | .inf x, .inf y => some (.inf (x != y))
  | .inf x, .num n m _ => if m = 0 then none else some (.inf (x != n))
  | .num n m _, .inf x => if m = 0 then none else some (.inf (x != n))
  | .num na ma ea, .num nb mb eb => some (.num (na != nb) (ma * mb) (ea + eb))
  | _, _ => none

/-- A value rounded into a format. -/
def Fmt.ofValue (f : Fmt) (sat : Bool) (mode : RMode) : FV → Nat × Flags
  | .inf n => (f.infCode n, 0)
  | .num n m e => f.roundNum sat mode n n m e
  | .nan .. => f.invalid

/-- The opposite value. -/
def FV.negate : FV → FV
  | .nan n fr s => .nan n fr s
  | .inf n => .inf (!n)
  | .num n m e => .num (!n) m e

/-- R291: a + b, a − b, a × b in one format. -/
def Fmt.add (f : Fmt) (sat : Bool) (mode : RMode) (a b : Nat) : Nat × Flags :=
  let x := f.value a
  let y := f.value b
  f.withNans [(x, f.mb), (y, f.mb)] (f.sum sat mode x y)
def Fmt.sub (f : Fmt) (sat : Bool) (mode : RMode) (a b : Nat) : Nat × Flags :=
  let x := f.value a
  let y := f.value b
  f.withNans [(x, f.mb), (y, f.mb)] (f.sum sat mode x y.negate)
def Fmt.mul (f : Fmt) (sat : Bool) (mode : RMode) (a b : Nat) : Nat × Flags :=
  let x := f.value a
  let y := f.value b
  f.withNans [(x, f.mb), (y, f.mb)] (match exactProd x y with | some p => f.ofValue sat mode p | none => f.invalid)

/-- R296, R298: c + a × b with one rounding; `g` is the format of b (R113). -/
def Fmt.fma (f g : Fmt) (sat : Bool) (mode : RMode) (a b c : Nat) : Nat × Flags :=
  let x := f.value a
  let y := g.value b
  let z := f.value c
  let r := match exactProd x y with | some p => f.sum sat mode p z | none => f.invalid
  let bad := !x.isNan && !y.isNan && (exactProd x y).isNone
  let w := f.withNans [(x, f.mb), (y, g.mb), (z, f.mb)] r
  (w.1, w.2 ||| nvIf bad)

/-! ### Comparisons (R113, R114) -/

/-- The order of two values that are no NaNs, −0 below +0 where `zeros` asks for it: −1, 0 or 1. -/
def orderFV (zeros : Bool) (a b : FV) : Int :=
  let key : FV → Int × Nat × Int := fun v => match v with
    | .inf n => (if n then -2 else 2, 0, 0)
    | .num n m e => if m = 0 then (0, 0, 0) else (if n then -1 else 1, m, e)
    | .nan .. => (0, 0, 0)
  let (sa, ma, ea) := key a
  let (sb, mb, eb) := key b
  if sa ≠ sb then (if sa < sb then -1 else 1)
  else if sa = 1 ∨ sa = -1 then
    let e := min ea eb
    let x := ma * 2 ^ (ea - e).toNat
    let y := mb * 2 ^ (eb - e).toNat
    if x = y then 0 else if x < y then -sa else sa
  else if zeros && sa = 0 && a.neg ≠ b.neg then (if a.neg then -1 else 1) else 0

/-- R113: FMIN and FMAX return one operand. -/
def Fmt.pick (f : Fmt) (max : Bool) (a b : Nat) : Nat × Flags :=
  let x := f.value a
  let y := f.value b
  let nv := nvIf (x.signals || y.signals)
  match x, y with
  | .nan n fr _, .nan .. => (f.quiet f.mb n fr, nv)
  | .nan .., _ => (b, nv)
  | _, .nan .. => (a, nv)
  | _, _ =>
    let o := orderFV true x y
    (if (if max then 0 ≤ o else o ≤ 0) then a else b, 0)

/-- R114: the conditions of FCMP. -/
def Fmt.compare (f : Fmt) (c : FCond) (a b : Nat) : Bool × Flags :=
  let x := f.value a
  let y := f.value b
  let un := x.isNan || y.isNan
  let o := orderFV false x y
  let loud := match c with | .lt | .le | .gt | .ge => true | _ => false
  let t := match c with
    | .eq => !un && o = 0
    | .ne => un || o ≠ 0
    | .lt => !un && o < 0
    | .le => !un && o ≤ 0
    | .gt => !un && 0 < o
    | .ge => !un && 0 ≤ o
    | .un => un
    | .or => !un
  (t, nvIf (if loud then un else x.signals || y.signals))

/-! ### Quotients, roots, powers and logarithms (R115) -/

/-- A quotient of two non-zero numbers with at least 100 bits, and whether it is inexact. -/
def exactDiv (ma : Nat) (ea : Int) (mb : Nat) (eb : Int) : Nat × Int × Bool :=
  let n := ma * 2 ^ 160
  (n / mb, ea - eb - 160, n % mb ≠ 0)

/-- Newton's iteration for the integer root from above. -/
def rootIter (n : Nat) : Nat → Nat → Nat
  | 0, x => x
  | k + 1, x =>
    let y := (x + n / x) / 2
    if y < x then rootIter n k y else x

/-- The integer square root. -/
def root (n : Nat) : Nat := if n = 0 then 0 else rootIter n 200 (2 ^ (Nat.log2 n / 2 + 1))

/-- The root of a non-zero number with at least 100 bits, and whether it is inexact. -/
def exactRoot (m : Nat) (e : Int) : Nat × Int × Bool :=
  let (m, e) := if e % 2 = 0 then (m, e) else (2 * m, e - 1)
  let n := m * 2 ^ 240
  let r := root n
  (r, e / 2 - 120, r * r ≠ n)

/-- One over the root of a non-zero number. -/
def exactRsqrt (m : Nat) (e : Int) : Nat × Int × Bool :=
  let (m, e) := if e % 2 = 0 then (m, e) else (2 * m, e - 1)
  let n := 2 ^ 400 / m
  let r := root n
  (r, -(e / 2) - 200, r * r * m ≠ 2 ^ 400)

/-- Fixed-point bits of the series below. -/
def seriesBits : Nat := 256
/-- ln 2 in units of 2^−256, rounded down. -/
def ln2Fixed : Nat := 0xb17217f7d1cf79abc9e3b39803f2f6af40f343267298b62d8a0d175b8baafa2b

/-- The exponential series of x (units of 2^−256), from term `k` whose value is `t`. -/
def expSeries (x : Nat) : Nat → Nat → Nat → Nat
  | 0, _, _ => 0
  | n + 1, k, t => t + expSeries x n (k + 1) (t * x / 2 ^ seriesBits / k)

/-- 2^v for a finite v that is no integer: below the exact value by less than a unit of 2^−240 of it. -/
def exactExp2 (neg : Bool) (m : Nat) (e : Int) : Nat × Int :=
  let d := (-e).toNat
  let x : Int := if neg then -(m : Int) else m
  let w := x / (2 ^ d : Nat)
  let fr := (x % (2 ^ d : Nat)).toNat
  let f256 := fr * 2 ^ seriesBits / 2 ^ d
  (expSeries (f256 * ln2Fixed / 2 ^ seriesBits) 80 1 (2 ^ seriesBits), w - seriesBits)

/-- The series of atanh from its term `t`, of degree `k`, for z² in units of 2^−256. -/
def atanhSeries (z2 : Nat) : Nat → Nat → Nat → Nat
  | 0, _, _ => 0
  | n + 1, k, t => t / k + atanhSeries z2 n (k + 2) (t * z2 / 2 ^ seriesBits)

/-- log2 of a positive number that is no power of two, in units of 2^−240, rounded down. -/
def exactLog2 (m : Nat) (e : Int) : Int :=
  let p := Nat.log2 m
  let one := 2 ^ p
  let z := (m - one) * 2 ^ seriesBits / (m + one)
  let z2 := z * z / 2 ^ seriesBits
  let ln := 2 * atanhSeries z2 100 1 z
  (e + p) * (2 ^ 240 : Nat) + ((ln * 2 ^ 240 / ln2Fixed : Nat) : Int)

/-- R115: FDIV. -/
def Fmt.div (f : Fmt) (mode : RMode) (a b : Nat) : Nat × Flags :=
  let x := f.value a
  let y := f.value b
  f.withNans [(x, f.mb), (y, f.mb)] <|
    match x, y with
    | .inf _, .inf _ => f.invalid
    | .inf n, v => (f.infCode (n != v.neg), 0)
    | v, .inf n => (f.zero (n != v.neg), 0)
    | .num na ma ea, .num nb mb eb =>
      if mb = 0 then (if ma = 0 then f.invalid else (f.infCode (na != nb), flDZ))
      else if ma = 0 then (f.zero (na != nb), 0)
      else
        let (q, e, st) := exactDiv ma ea mb eb
        f.round false mode (na != nb) q e st
    | _, _ => f.invalid

/-- R115: FRCP. -/
def Fmt.rcp (f : Fmt) (mode : RMode) (a : Nat) : Nat × Flags :=
  let x := f.value a
  f.withNans [(x, f.mb)] <|
    match x with
    | .num n m e =>
      if m = 0 then (f.infCode n, flDZ)
      else
        let (q, e, st) := exactDiv 1 0 m e
        f.round false mode n q e st
    | .inf n => (f.zero n, 0)
    | _ => f.invalid

/-- R115: FSQRT. -/
def Fmt.sqrt (f : Fmt) (mode : RMode) (a : Nat) : Nat × Flags :=
  let x := f.value a
  f.withNans [(x, f.mb)] <|
    match x with
    | .num n m e =>
      if m = 0 then (f.zero n, 0) else if n then f.invalid
      else
        let (q, e, st) := exactRoot m e
        f.round false mode false q e st
    | .inf n => if n then f.invalid else (f.infCode false, 0)
    | _ => f.invalid

/-- R115: FRSQ. -/
def Fmt.rsqrt (f : Fmt) (mode : RMode) (a : Nat) : Nat × Flags :=
  let x := f.value a
  f.withNans [(x, f.mb)] <|
    match x with
    | .num n m e =>
      if m = 0 then (f.infCode n, flDZ) else if n then f.invalid
      else
        let (q, e, st) := exactRsqrt m e
        f.round false mode false q e st
    | .inf n => if n then f.invalid else (f.zero false, 0)
    | _ => f.invalid

/-- R115: a result of FEXP2 beyond range is +∞ with OF and NX in every rounding mode: the row names none, unlike R105. -/
def Fmt.beyond (f : Fmt) (r : Nat × Flags) : Nat × Flags :=
  if r.2 &&& flOF = 0 then r else (f.infCode false, r.2)

/-- R115: FEXP2. A magnitude of 2^11 or more lies beyond the range of every format. -/
def Fmt.exp2 (f : Fmt) (mode : RMode) (a : Nat) : Nat × Flags :=
  let x := f.value a
  f.beyond <| f.withNans [(x, f.mb)] <|
    match x with
    | .inf n => (if n then f.zero false else f.infCode false, 0)
    | .num n m e =>
      if m = 0 then f.round false mode false 1 0 false
      else if 10 < (Nat.log2 m : Nat) + e then
        f.round false mode false 1 (if n then -2000 else 2000) false
      else if 0 ≤ e then
        let k : Int := (m * 2 ^ e.toNat : Nat)
        f.round false mode false 1 (if n then -k else k) false
      else if m % 2 ^ (-e).toNat = 0 then
        let k : Int := (m / 2 ^ (-e).toNat : Nat)
        f.round false mode false 1 (if n then -k else k) false
      else
        let (v, w) := exactExp2 n m e
        f.round false mode false v w true
    | _ => f.invalid

/-- R115: FLOG2. -/
def Fmt.log2 (f : Fmt) (mode : RMode) (a : Nat) : Nat × Flags :=
  let x := f.value a
  f.withNans [(x, f.mb)] <|
    match x with
    | .inf n => if n then f.invalid else (f.infCode false, 0)
    | .num n m e =>
      if m = 0 then (f.infCode true, flDZ) else if n then f.invalid
      else if m = 2 ^ Nat.log2 m then
        let k : Int := e + (Nat.log2 m : Nat)
        f.roundNum false mode false (k < 0) k.natAbs 0
      else
        let v := exactLog2 m e
        if 0 ≤ v then f.round false mode false v.toNat (-240) true
        else f.round false mode true (-v - 1).toNat (-240) true
    | _ => f.invalid

end Sys2Proof.Machine
end

