-- ==== Sys2Proof/Machine/VecFloat.lean ====
section
/-! DEFINITION. Class 4, vector float (20 R289 to R292, R296 to R298), landing at cycle 4, and class 6, special functions
(R293, R294), landing at cycle 10 or 14. -/
namespace Sys2Proof.Machine

/-- The mode in FRM (R107). -/
def State.mode (s : State) : RMode := .ofFrm s.cur.frm

/-- A vector result from its elements with their flags, the flags of active elements counting (R268). -/
def State.putFloats (s : State) (d wbits eb lat : Nat) (y : List (Nat × Flags)) : State :=
  s.putVector d wbits eb (ofLanes eb (y.map Prod.fst)) lat (s.laneFlags eb (y.map Prod.snd))

/-- R291: the two-operand mould. -/
def floatBody (op : Fmt → Bool → RMode → Nat → Nat → Nat × Flags) (w : Width) (f : FFmt) (sat : Bool)
    (d a b : BitVec 5) (s : State) : State :=
  let n := w.bits / f.bits
  s.putFloats d.toNat w.bits f.bits 4
    (List.zipWith (op (fmtOf f) sat s.mode) (lanes (s.va a.toNat) f.bits n) (lanes (s.vb b.toNat) f.bits n))

/-- R289: FABS and FNEG work on the sign bit alone. -/
def signBody (op : Nat → Nat → Nat) (w : Width) (f : FFmt) (d a : BitVec 5) (s : State) : State :=
  s.putVector d.toNat w.bits f.bits (mapLanes (op f.bits) w.bits f.bits (s.va a.toNat)) 4
def clearSign (n x : Nat) : Nat := x % 2 ^ (n - 1)
def flipSign (n x : Nat) : Nat := (x + 2 ^ (n - 1)) % 2 ^ n

/-- R296, R298: three operands, the accumulator from the destination's visible face; `g` and `gb` give the format of B
and the distance of its elements. -/
def fmaBody (w : Width) (f : FFmt) (g : Fmt) (gb : Nat) (sat : Bool) (d a b : BitVec 5) (s : State) : State :=
  let n := w.bits / f.bits
  let c := lanes (s.cur.readV d.toNat).toNat f.bits n
  let ab := List.zip (lanes (s.va a.toNat) f.bits n) (lanes (s.vb b.toNat) gb n)
  s.putFloats d.toNat w.bits f.bits 4
    (List.zipWith (fun x z => (fmtOf f).fma g sat s.mode x.1 x.2 z) ab c)

/-- One level of the tree of R297, with the flags of its nodes. -/
def treeLevel (node : Nat → Nat → Nat × Flags) : List Nat → List Nat × Flags
  | x :: y :: t =>
    let r := node x y
    let q := treeLevel node t
    (r.1 :: q.1, r.2 ||| q.2)
  | t => (t, 0)

/-- R297: the tree, level by level. -/
def tree (node : Nat → Nat → Nat × Flags) : Nat → List Nat → Nat × Flags
  | 0, l => (l.headD 0, 0)
  | k + 1, l =>
    let r := treeLevel node l
    let q := tree node k r.1
    (q.1, r.2 ||| q.2)

/-- R297: the result in lane 0, zero elsewhere; every node's flags count (R268). -/
def fredBody (w : Width) (f : FFmt) (d a sel : BitVec 5) (s : State) : State :=
  let n := w.bits / f.bits
  let node := if sel = 0 then (fmtOf f).add false s.mode else (fmtOf f).pick (sel = 1)
  let r := tree node (Nat.log2 n) (lanes (s.va a.toNat) f.bits n)
  s.putVector d.toNat w.bits f.bits r.1 4 r.2

/-- R292: the condition and its complement below W/8, the latch all ones in each true element; the flags of every
element count, since no lane predicate can be lent. -/
def fcmpBody (c : FCond) (w : Width) (f : FFmt) (d : BitVec 3) (a b : BitVec 5) (s : State) : State :=
  let n := w.bits / f.bits
  let r := List.zipWith ((fmtOf f).compare c) (lanes (s.va a.toNat) f.bits n) (lanes (s.vb b.toNat) f.bits n)
  let p := condPred (f.bits / 8) (r.map Prod.fst)
  s.putPair d.toNat p (condPred (f.bits / 8) (r.map fun t => !t.1)) (expandMask 128 p) 4 (orFlags (r.map Prod.snd))

/-- R294: a special function on every element. -/
def specialBody (op : Fmt → RMode → Nat → Nat × Flags) (lat : Nat) (w : Width) (f : FFmt) (d a : BitVec 5) (s : State) :
    State :=
  s.putFloats d.toNat w.bits f.bits lat
    ((lanes (s.va a.toNat) f.bits (w.bits / f.bits)).map (op (fmtOf f) s.mode))

def execFadd (g : BitVec 3) (w : Width) (f : FFmt) (sat : Bool) (d a b : BitVec 5) (s : State) :=
  perform (.fadd g w f sat d a b) s (floatBody Fmt.add w f sat d a b)
def execFsub (g : BitVec 3) (w : Width) (f : FFmt) (sat : Bool) (d a b : BitVec 5) (s : State) :=
  perform (.fsub g w f sat d a b) s (floatBody Fmt.sub w f sat d a b)
def execFmul (g : BitVec 3) (w : Width) (f : FFmt) (sat : Bool) (d a b : BitVec 5) (s : State) :=
  perform (.fmul g w f sat d a b) s (floatBody Fmt.mul w f sat d a b)
def execFmin (g : BitVec 3) (w : Width) (f : FFmt) (sat : Bool) (d a b : BitVec 5) (s : State) :=
  perform (.fmin g w f sat d a b) s (floatBody (fun f _ _ => f.pick false) w f sat d a b)
def execFmax (g : BitVec 3) (w : Width) (f : FFmt) (sat : Bool) (d a b : BitVec 5) (s : State) :=
  perform (.fmax g w f sat d a b) s (floatBody (fun f _ _ => f.pick true) w f sat d a b)
def execFma (g : BitVec 3) (w : Width) (f : FFmt) (sat : Bool) (d a b : BitVec 5) (s : State) :=
  perform (.fma g w f sat d a b) s (fmaBody w f (fmtOf f) f.bits sat d a b)
def execFsca (g : BitVec 3) (w : Width) (f : FFmt) (sat : Bool) (d a b : BitVec 5) (s : State) :=
  perform (.fsca g w f sat d a b) s (fmaBody w f bf16 16 false d a b)
def execFabs (g : BitVec 3) (w : Width) (f : FFmt) (sat : Bool) (d a : BitVec 5) (s : State) :=
  perform (.fabs g w f sat d a) s (signBody clearSign w f d a)
def execFneg (g : BitVec 3) (w : Width) (f : FFmt) (sat : Bool) (d a : BitVec 5) (s : State) :=
  perform (.fneg g w f sat d a) s (signBody flipSign w f d a)
def execFred (g : BitVec 3) (w : Width) (f : FFmt) (sat : Bool) (d a sel : BitVec 5) (s : State) :=
  perform (.fred g w f sat d a sel) s (fredBody w f d a sel)
def execFcmp (g : BitVec 3) (c : FCond) (w : Width) (f : FFmt) (sat : Bool) (d : BitVec 3) (a b : BitVec 5) (s : State) :=
  perform (.fcmp g c w f sat d a b) s (fcmpBody c w f d a b)

def execFexp2 (g : BitVec 3) (w : Width) (f : FFmt) (d a : BitVec 5) (s : State) :=
  perform (.fexp2 g w f d a) s (specialBody Fmt.exp2 10 w f d a)
def execFlog2 (g : BitVec 3) (w : Width) (f : FFmt) (d a : BitVec 5) (s : State) :=
  perform (.flog2 g w f d a) s (specialBody Fmt.log2 10 w f d a)
def execFrcp (g : BitVec 3) (w : Width) (f : FFmt) (d a : BitVec 5) (s : State) :=
  perform (.frcp g w f d a) s (specialBody Fmt.rcp 10 w f d a)
def execFrsq (g : BitVec 3) (w : Width) (f : FFmt) (d a : BitVec 5) (s : State) :=
  perform (.frsq g w f d a) s (specialBody Fmt.rsqrt 10 w f d a)
def execFsqrt (g : BitVec 3) (w : Width) (f : FFmt) (d a : BitVec 5) (s : State) :=
  perform (.fsqrt g w f d a) s (specialBody Fmt.sqrt 14 w f d a)

/-- R294: FDIV. -/
def fdivBody (w : Width) (f : FFmt) (d a b : BitVec 5) (s : State) : State :=
  let n := w.bits / f.bits
  s.putFloats d.toNat w.bits f.bits 14
    (List.zipWith ((fmtOf f).div s.mode) (lanes (s.va a.toNat) f.bits n) (lanes (s.vb b.toNat) f.bits n))

def execFdiv (g : BitVec 3) (w : Width) (f : FFmt) (d a b : BitVec 5) (s : State) :=
  perform (.fdiv g w f d a b) s (fdivBody w f d a b)

end Sys2Proof.Machine
end

