-- ==== Sys2Proof/Machine/Convert.lean ====
section
/-! DEFINITION. The converting members of class 5: CVT (20 R283 to R285, 06 R116), QNT (21 R312, 06 R117, R124) and DQNT
(20 R286, 06 R118, R125), with the two sources of random words (06 R108 to R110). -/
namespace Sys2Proof.Machine

/-- Element bits of a format code (R283). -/
def cfmtBits : CFmt → Nat
  | .fp32 | .int32 => 32 | .bf16 | .ply16 => 16 | .e4m3 | .e5m2 | .int8 => 8 | .ply4 => 4

/-- The float or plied format of a code; none for the integers. -/
def cfmtFloat : CFmt → Option Fmt
  | .fp32 => some fp32 | .bf16 => some bf16 | .e4m3 => some e4m3 | .e5m2 => some e5m2
  | .ply16 => some (ply 4) | .ply4 => some (ply 1) | .int8 | .int32 => none

/-- R108: the 16 random bits of lane `i` of a word. -/
def laneRandom (w i : Nat) : Nat :=
  let k := 7 * i % 64
  (w * 2 ^ k + w / 2 ^ (64 - k)) % 2 ^ 16

/-- The rounding mode of element `i` under RND, with the word that a stochastic source gives (R107, R108). -/
def rndMode (frm : Nat) (r : Rnd) (word i : Nat) : RMode :=
  match r with
  | .frm => .ofFrm frm
  | .rz => .rz
  | .srn | .srq => .sr (laneRandom word i)

/-- R109: the generator of the V slot that the syllable issues on. -/
def State.generator (s : State) : Nat := (s.slot.unit.getD 2) - 2

/-- The word that a conversion uses: from the native generator, or the one that the bundle has drawn (R109, R110). -/
def State.rndWord (s : State) (r : Rnd) : Nat :=
  match r with
  | .srn => mix64 (s.cur.csrV (csrSrkey + s.generator)).toNat (Tab.get 0 s.cur.srCount s.generator)
  | .srq => s.slot.word64.toNat
  | _ => 0

/-- R109: the native generator's count goes up by one. -/
def State.rndUse (s : State) (r : Rnd) : State :=
  match r with
  | .srn => s.updCur fun x => { x with srCount := Tab.upd 0 x.srCount s.generator fun c => (c + 1) % 2 ^ 64 }
  | _ => s

/-- R116, R285: a value rounded to an `n`-bit integer and clamped. -/
def toInteger (n : Nat) (mode : RMode) (v : FV) : Nat × Flags :=
  let top : Int := (2 ^ (n - 1) : Nat)
  match v with
  | .nan .. => (0, flNV)
  | .inf neg => (if neg then 2 ^ (n - 1) else 2 ^ (n - 1) - 1, flNV)
  | .num neg m e =>
    let (k, inexact) := quantize mode neg m e false 0
    let x : Int := if neg then -(k : Int) else k
    if x < -top then (2 ^ (n - 1), flNV)
    else if top ≤ x then (2 ^ (n - 1) - 1, flNV)
    else (ofSigned n x, if inexact then flNX else 0)

/-- R116: a value of a format whose fraction has `from_` bits into a float or plied format. -/
def Fmt.convert (f : Fmt) (mode : RMode) (from_ : Nat) (src : FmtKind) (v : FV) : Nat × Flags :=
  match v with
  | .nan neg fr sig => (if src = .ply then f.defaultNan else f.quiet from_ neg fr, nvIf sig)
  | .inf neg =>
    if f.kind = .ieee then (f.infCode neg, 0) else (f.sign neg + f.maxc, flOF)
  | .num neg m e => f.roundNum (f.bits = 8) mode neg neg m e

/-- R284, R285: one element of `sf` converted to `df`. -/
def convertElement (sf df : CFmt) (mode : RMode) (x : Nat) : Nat × Flags :=
  match cfmtFloat sf, cfmtFloat df with
  | some f, some g => g.convert mode f.mb f.kind (f.value x)
  | some f, none => toInteger (cfmtBits df) mode (f.value x)
  | none, some g =>
    let v := toSigned (cfmtBits sf) x
    g.convert mode 0 .ieee (.num (v < 0) v.natAbs 0)
  | none, none =>
    let v := toSigned (cfmtBits sf) x
    toInteger (cfmtBits df) mode (.num (v < 0) v.natAbs 0)

/-- R284: CVT. The narrower side uses the low part of its register. -/
def cvtBody (w : Width) (sf df : CFmt) (d a : BitVec 5) (r : Rnd) (s : State) : State :=
  let ss := cfmtBits sf
  let ds := cfmtBits df
  let word := s.rndWord r
  let y := (lanes (s.va a.toNat) ss (w.bits / max ss ds)).zipIdx.map fun (x, i) =>
    convertElement sf df (rndMode s.cur.frm r word i) x
  (s.rndUse r).putFloats d.toNat w.bits ds 6 y

def execCvt (g : BitVec 3) (w : Width) (src : CFmt) (d a : BitVec 5) (dst : CFmt) (rnd : Rnd) (s : State) :=
  perform (.cvt g w src d a dst rnd) s (cvtBody w src dst d a rnd)

/-! ### Blocks (06 R117, R121, R124) -/

/-- The finite magnitude of a value, as a number and an exponent, if it is a non-zero finite number. -/
def FV.mag : FV → Option (Nat × Int)
  | .num _ m e => if m = 0 then none else some (m, e)
  | _ => none

/-- Whether one magnitude is at most another. -/
def magLe (a b : Nat × Int) : Bool := orderFV false (.num false a.1 a.2) (.num false b.1 b.2) ≤ 0

/-- The largest finite magnitude of a block; none when no finite element is non-zero. -/
def amax (vs : List FV) : Option (Nat × Int) :=
  vs.foldl (fun m v => match m, v.mag with
    | none, x => x
    | some a, some b => some (if magLe a b then b else a)
    | some a, none => some a) none

/-- The flag of a signaling element (R104). -/
def snan (v : FV) : Flags := nvIf v.signals

/-- R117: the codes and the scale of an MXFP8 block. -/
def mxQuantize (mode : Nat → RMode) (vs : List FV) : List (Nat × Flags) × Nat :=
  if vs.all FV.isNan then (vs.map fun v => (0x7F, snan v), 0xFF)
  else
    match amax vs with
    | none =>
      (vs.map fun v => match v with
        | .nan .. => (0x7F, snan v)
        | .inf n => (e4m3.sign n + e4m3.maxc, flOF)
        | .num n _ _ => (e4m3.sign n, 0), 0x7F)
    | some (m, e) =>
      let x : Int := max (-127) ((Nat.log2 m : Nat) + e - 8)
      (vs.zipIdx.map fun (v, i) => match v with
        | .nan .. => (0x7F, snan v)
        | .inf n => (e4m3.sign n + e4m3.maxc, flOF)
        | .num n m e =>
          let r := e4m3.roundNum true (mode i) n n m (e - x)
          (r.1, r.2 &&& ~~~flOF), (x + 127).toNat)

/-- R121: the value of an E3M5 scale, as a number of units of 2^−8. -/
def e3m5 (c : Nat) : Nat := (32 + c % 32) * 2 ^ (c / 32 % 8)

/-- R124: the smallest E3M5 scale s with amax ≤ 6s, or 31.0. -/
def plyScale (a : Nat × Int) : Nat :=
  ((List.range 255).find? fun c => magLe a (6 * e3m5 c, -8)).getD 0xFE

/-- A quotient by a scale in units of 2^−8, exact below its last bit by a sticky bit. -/
def overScale (m : Nat) (e : Int) (sc : Nat) : Nat × Int × Bool :=
  (m * 2 ^ 64 / sc, e - 64 + 8, m * 2 ^ 64 % sc ≠ 0)

/-- R124: the codes and the scale of a plied block. -/
def plyQuantize (mode : Nat → RMode) (vs : List FV) : List (Nat × Flags) × Nat :=
  let f := ply 4
  if vs.all FV.isNan then (vs.map fun v => (0x8000, snan v), 0xFF)
  else
    match amax vs with
    | none =>
      (vs.map fun v => match v with
        | .nan .. => (0x8000, snan v)
        | .inf n => (f.sign n + f.maxc, flOF)
        | .num .. => (0, 0), 0x60)
    | some a =>
      let c := plyScale a
      (vs.zipIdx.map fun (v, i) => match v with
        | .nan .. => (0x8000, snan v)
        | .inf n => (f.sign n + f.maxc, flOF ||| flNX)
        | .num n m e =>
          let (q, x, st) := overScale m e (e3m5 c)
          f.roundNum true (mode i) n n q x st, c)

/-- The four blocks of QNT in PLY mode, elements 8j to 8j + 7 in block j. -/
def plyBlocks (mode : Nat → RMode) (vs : List FV) : List (List (Nat × Flags) × Nat) :=
  (List.range 4).map fun j => plyQuantize (fun i => mode (8 * j + i)) ((vs.drop (8 * j)).take 8)

/-- R25: the byte enables of QNT: an element's own bit for its bytes, every other byte by itself. -/
def qntBen (lp eb : Nat) : Nat :=
  laneBytes lp eb 32 0 ||| (lp &&& (ones 128 ^^^ ones (4 * eb)))

/-- R312: QNT. -/
def qntBody (mode : BitVec 2) (d a : BitVec 5) (r : Rnd) (s : State) : State :=
  let word := s.rndWord r
  let m := fun i => rndMode s.cur.frm r word i
  let vs := (lanes (s.va a.toNat) 32 32).map fp32.value
  let (y, eb, scale) : List (Nat × Flags) × Nat × Nat :=
    if mode = 0 then
      let q := mxQuantize m vs
      (q.1, 8, q.2)
    else
      let q := plyBlocks m vs
      (q.flatMap Prod.fst, 16, ofLanes 8 (q.map Prod.snd))
  let v := BitVec.ofNat 1024 (ofLanes eb (y.map Prod.fst) + scale * 2 ^ (32 * eb))
  (s.rndUse r).settle (s.laneFlags eb (y.map Prod.snd)) 6 [{
    file := destFile s .v d.toNat, reg := d.toNat, ben := BitVec.ofNat 128 (qntBen s.lanePred eb), val := v
    unit := s.slot.unit, lval := v, due := s.cur.count + 6 }]

def execQnt (g : BitVec 3) (w : Width) (mode : BitVec 2) (d a : BitVec 5) (rnd : Rnd) (s : State) :=
  perform (.qnt g w mode d a rnd) s (qntBody mode d a rnd)

/-- R118: an element of an MXFP8 block times its scale, in FP32. -/
def mxDequantize (mode : RMode) (scale x : Nat) : Nat × Flags :=
  if scale = 0xFF then (fp32.defaultNan, 0)
  else match e4m3.value x with
    | .num n m e => fp32.roundNum false mode n n m (e + scale - 127)
    | _ => (fp32.defaultNan, 0)

/-- R125: an element of a plied block times its scale, in FP32. -/
def plyDequantize (scale x : Nat) : Nat × Flags :=
  if scale = 0xFF then (fp32.defaultNan, 0)
  else match (ply 4).value x with
    | .num n m e => fp32.roundNum false .rne n n (m * e3m5 scale) (e - 8)
    | _ => (fp32.defaultNan, 0)

/-- R286: DQNT. -/
def dqntBody (mode : BitVec 2) (d a : BitVec 5) (s : State) : State :=
  let x := s.va a.toNat
  s.putFloats d.toNat 1024 32 6 <| (List.range 32).map fun i =>
    if mode = 0 then mxDequantize s.mode (lane x 32 8) (lane x i 8)
    else plyDequantize (lane x (64 + i / 8) 8) (lane x i 16)

def execDqnt (g : BitVec 3) (w : Width) (mode : BitVec 2) (d a : BitVec 5) (s : State) :=
  perform (.dqnt g w mode d a) s (dqntBody mode d a)

end Sys2Proof.Machine
end

