-- ==== Sys2Proof/Machine/Digest.lean ====
section
/-! DEFINITION. SHAKE256 with 256 bits of output, the digest of 18 R249 (FIPS 202). A state of Keccak is its 25 lanes of
64 bits, lane (x, y) at place x + 5·y. -/
namespace Sys2Proof.Machine

/-- A 64-bit word rotated left. -/
def rotl64 (w n : Nat) : Nat := let k := n % 64; w * 2 ^ k % 2 ^ 64 + w / 2 ^ (64 - k)

/-- A lane of a state. -/
def keccakLane (a : List Nat) (x y : Nat) : Nat := a.getD (x % 5 + 5 * (y % 5)) 0

/-- A state from its lanes. -/
def keccakBuild (f : Nat → Nat → Nat) : List Nat := (List.range 25).map fun k => f (k % 5) (k / 5)

/-- θ: every bit takes the parities of two columns. -/
def keccakTheta (a : List Nat) : List Nat :=
  let c := (List.range 5).map fun x => (List.range 5).foldl (fun t y => t ^^^ keccakLane a x y) 0
  let d := fun (x : Nat) => c.getD ((x + 4) % 5) 0 ^^^ rotl64 (c.getD ((x + 1) % 5) 0) 1
  keccakBuild fun x y => keccakLane a x y ^^^ d x

/-- The walk of ρ over the places other than 0: the `t`-th place in turn, (x, y) being followed by (y, 2·x + 3·y). -/
def rhoPlace : Nat → Nat × Nat
  | 0 => (1, 0)
  | t + 1 => let q := rhoPlace t; (q.2, (2 * q.1 + 3 * q.2) % 5)

/-- The offset of ρ at a place: the triangular number of the place's turn in the walk; lane (0, 0) is not rotated. -/
def rhoOffset (x y : Nat) : Nat :=
  match (List.range 24).find? fun t => rhoPlace t == (x % 5, y % 5) with
  | some t => (t + 1) * (t + 2) / 2 % 64
  | none => 0

/-- ρ and π: lane (x, y) comes from the rotated lane (x + 3·y, x). -/
def keccakRhoPi (a : List Nat) : List Nat :=
  keccakBuild fun x y =>
    let u := (x + 3 * y) % 5
    rotl64 (keccakLane a u x) (rhoOffset u x)

/-- χ. -/
def keccakChi (a : List Nat) : List Nat :=
  keccakBuild fun x y => keccakLane a x y ^^^ ((keccakLane a (x + 1) y ^^^ (2 ^ 64 - 1)) &&& keccakLane a (x + 2) y)

/-- The shift register behind ι: eight bits with the feedback x^8 + x^6 + x^5 + x^4 + 1. -/
def iotaShift (r : Nat) : Nat := if r < 128 then 2 * r else (2 * r) ^^^ 0x171

/-- The register after `n` shifts; its lowest bit is the `n`-th bit that ι draws. -/
def iotaRegister : Nat → Nat
  | 0 => 1
  | n + 1 => iotaShift (iotaRegister n)

/-- What ι adds in a round: bit 2^j - 1 of the word is the bit drawn at 7·round + j. -/
def iotaWord (round : Nat) : Nat :=
  (List.range 7).foldl (fun w j => if bitAt (iotaRegister (7 * round + j)) 0 then w + 2 ^ (2 ^ j - 1) else w) 0

/-- ι. -/
def keccakIota (rc : Nat) (a : List Nat) : List Nat := a.modify 0 fun w => w ^^^ rc

/-- The permutation of 24 rounds. -/
def keccakF (a : List Nat) : List Nat :=
  (List.range 24).foldl (fun a round => keccakIota (iotaWord round) (keccakChi (keccakRhoPi (keccakTheta a)))) a

/-- The lanes of a block of 136 bytes, followed by zeros. -/
def blockLanes (b : List Byte) : List Nat := (List.range 25).map fun k => ofBytes ((b.drop (8 * k)).take 8)

/-- The blocks of a padded message, absorbed one after another. -/
def absorb : Nat → List Byte → List Nat → List Nat
  | 0, _, a => a
  | n + 1, m, a => absorb n (m.drop 136) (keccakF (List.zipWith (· ^^^ ·) a (blockLanes (m.take 136))))

/-- The padding of SHAKE: 1111, then 1, zeros and 1. -/
def shakePad (n : Nat) : List Byte :=
  let k := 136 - n % 136
  if k = 1 then [0x9F] else [0x1F] ++ List.replicate (k - 2) 0 ++ [0x80]

/-- SHAKE256 with 32 bytes of output. -/
def shake256 (m : List Byte) : List Byte :=
  let p := m ++ shakePad m.length
  ((absorb (p.length / 136) p (List.replicate 25 0)).take 4).flatMap fun w => bytesOf 8 w

end Sys2Proof.Machine
end

