-- ==== Sys2Proof/Machine/Memory.lean ====
section
/-! DEFINITION. Global memory (09, 10): views, pending bytes, commits, the flushing that keeps their order, atomics at
their point of coherence, tagged writes, the read-only path, and the caches as far as they hold state.

A location is a device physical address, or 2^64 plus one for a fabric-global address that names this device, or the
fabric-global address itself for another device. -/
namespace Sys2Proof.Machine

/-! ### Locations (09 R146) -/

/-- The device physical address of a location whose home is this device. -/
def homeDpa (loc : Nat) : Option Nat :=
  if loc < 2 ^ Config.dpaBits then some loc else if 2 ^ 64 ≤ loc then some (loc - 2 ^ 64) else none

/-- Whether a location was reached by a fabric-global address. -/
def isGlobal (loc : Nat) : Bool := 2 ^ 63 ≤ loc

/-- A byte of another device or of a flash shelf, as one access finds it (log entry 9): what this device has last written there, or
what another agent has written since. -/
def State.remoteByte (s : State) (a : Nat) : Byte :=
  match Tab.get none s.remote a with
  | some b => if Config.remoteChanged s.fresh a then Config.remoteByte s.fresh a else b
  | none => Config.remoteByte s.fresh a

/-- The byte that the home's vault controllers hold (R169). -/
def State.homeByte (s : State) (loc : Nat) : Byte :=
  match homeDpa loc with
  | some a => Memory.read s.dram a
  | none => s.remoteByte loc

/-- Successive locations and their bytes. -/
def cellsAt (loc : Nat) : List Byte → List (Nat × Byte)
  | [] => []
  | b :: t => (loc, b) :: cellsAt (loc + 1) t

/-! ### What a context reads (10 R168, R169) -/

/-- The other location of the same byte: its fabric-global address, or the one of this device's own. -/
def aliasOf (loc : Nat) : Nat :=
  match homeDpa loc with
  | some a => if loc = a then a + 2 ^ 64 else a
  | none => loc

/-- A context's pending byte of a location and where it stands: a byte has one, under the address of its latest store (22 R321). -/
def Ctx.pendingNow (x : Ctx) (loc : Nat) : Option (Nat × Pend) :=
  match Tab.get none x.pending loc with
  | some p => some (loc, p)
  | none => (Tab.get none x.pending (aliasOf loc)).map fun p => (aliasOf loc, p)

/-- The latest of some bytes stored to a location before place `k` of the order of issue. -/
def latestPast (loc k : Nat) (l : List Past) : Option Past :=
  l.foldl (fun m p =>
    if (p.loc == loc || p.loc == aliasOf loc) && p.at_ < k && (match m with | some q => q.at_ < p.at_ | none => true) then some p else m) none

/-- What a reader at place `k` of the context's order of issue finds pending at a location, and where it stands: the byte of the
latest store before it (R169, 22 R321). -/
def Ctx.pendingAt (x : Ctx) (k loc : Nat) : Option (Nat × Byte) :=
  match x.pendingNow loc with
  | none => none
  | some (a, p) => if p.at_ < k then some (a, p.byte) else (latestPast loc k x.past).map fun q => (q.loc, q.byte)

/-- Whether a view of a context in cluster `k` holds a commit. -/
def Commit.seenBy (v : View) (k : Nat) (c : Commit) : Bool :=
  match c.inst with
  | .cluster j => j == k && c.num ≤ v.clu
  | .device => c.num ≤ v.dev
  | .system => c.num ≤ v.sys

/-- The byte of a commit at a location, with the byte the point of coherence held before it. -/
def Commit.at_ (c : Commit) (loc : Nat) : Option (Byte × Byte) := (c.bytes.find? fun b => b.1 == loc).map Prod.snd

/-- The byte that the newest commit chosen by `sees` gives a location; `old` is what the vault held before the commits
passed over so far. -/
def byteIn (sees : Commit → Bool) (loc : Nat) : List Commit → Byte → Byte
  | [], old => old
  | c :: t, old =>
    match c.at_ loc with
    | none => byteIn sees loc t old
    | some (new, before) =>
      if sees c then new
      else byteIn sees loc t (match c.inst with | .cluster _ => old | _ => before)

/-- The view that serves a read: of a versioned region (`ver`) or of any other memory. DEDUCED (log entry 21): after a flip that
exchanges VPIN without a publication scope, which R168 lets change no view, reads of versioned regions alone follow the commits
made before it, as R219 and R223 ask. -/
def Ctx.viewOf (x : Ctx) (ver : Bool) : View := if ver then x.verView else x.view

/-- R169: the byte that LD, LDP, a fill or a port walk of context `c` gets, at place `k` of its order of issue. -/
def State.viewByte (s : State) (c k : Nat) (ver : Bool) (loc : Nat) : Byte :=
  let x := s.ctx c
  match x.pendingAt k loc with
  | some (_, b) => b
  | none =>
    if isGlobal loc then s.homeByte loc
    else byteIn (fun m => m.seenBy (x.viewOf ver) (clusterOf (coreOf c))) loc s.commits (Memory.read s.dram loc)

/-- `n` bytes of a context's view at place `k` of its order of issue. -/
def State.viewBytes (s : State) (c k : Nat) (ver : Bool) (loc n : Nat) : List Byte :=
  (List.range n).map fun i => s.viewByte c k ver (loc + i)

/-- The byte that a cluster's cache holds committed (R169, R174). -/
def State.clusterByte (s : State) (k loc : Nat) : Byte :=
  match (s.cluster k).unflushed.reverse.find? fun u => u.loc == loc with
  | some u => u.byte
  | none => s.homeByte loc

/-! ### Commits (10 R168, R169, R171) -/

/-- Each location once, the last byte given for it. -/
def lastBytes (l : List (Nat × Byte)) : List (Nat × Byte) := l.foldl (fun t (a, b) => Tab.insert t a b) []

/-- The lines of which every byte is written. -/
def fullLines (l : List (Nat × Byte)) : List Nat :=
  if l.length < 256 then [] else
  (l.filter fun b => b.1 % 256 == 0 && (l.countP fun a => a.1 / 256 == b.1 / 256) == 256).map fun b => b.1 / 256

/-- The 32-byte words of which every byte is written. -/
def fullWords (l : List (Nat × Byte)) : List Nat :=
  if l.length < 32 then [] else
  (l.filter fun b => b.1 % 32 == 0 && (l.countP fun a => a.1 / 32 == b.1 / 32) == 32).map fun b => b.1 / 32

/-- Bytes written at the vault controllers, as a commit of the device or the system instance. A line or a word of which
every byte is written is free of errors again (log entry 13). -/
def State.vaultCommit (s : State) (inst : Inst) (l : List (Nat × Byte)) : State :=
  let l := lastBytes l
  let num := if inst = .system then s.sysCommits + 1 else s.devCommits + 1
  let lines := fullLines l
  let words := fullWords l
  let t := { s with
    dram := Memory.writeAll s.dram l
    badDram := if s.badDram.isEmpty then [] else s.badDram.filter fun w => !words.contains w
    poisoned := if s.poisoned.isEmpty then [] else s.poisoned.filter fun w => !lines.contains w
    commits := if l.isEmpty then s.commits
      else { inst, num, tag := s.commits.length, cycle := s.cycle, bytes := l.map fun (a, b) => (a, b, Memory.read s.dram a) } :: s.commits }
  if inst = .system then { t with sysCommits := num } else { t with devCommits := num }

/-- R175: a commit that writes a whole line sets its tag to 0. DESIGN CHOICE (log entry 73): R175 looks at held writes again after a
tagged write has performed; one that is held and expects 0 stays so at this commit, until a tagged write performs on its line. -/
def State.resetTags (s : State) (l : List (Nat × Byte)) : State :=
  { s with tags := (fullLines (lastBytes l)).foldl (fun t n => Tab.set 0 t n 0) s.tags }

def insertUnflushed (u : Unflushed) : List Unflushed → List Unflushed
  | [] => [u]
  | a :: t => if u.at_ < a.at_ then u :: a :: t else a :: insertUnflushed u t

/-- The bytes that the caches of all clusters hold unflushed at some locations, in the order of their commits. -/
def State.unflushedAt (s : State) (locs : List Nat) : List Unflushed :=
  (s.clusters.flatMap fun (_, k) => k.unflushed.filter fun u => locs.contains u.loc).foldl
    (fun l u => insertUnflushed u l) []

/-- Unflushed bytes leave the caches. -/
def State.dropUnflushed (s : State) (locs : List Nat) : State :=
  s.clusters.foldl (fun t (k, c) =>
    if c.unflushed.any fun u => locs.contains u.loc then
      t.updCluster k fun y => { y with unflushed := y.unflushed.filter fun u => !locs.contains u.loc }
    else t) s

/-- R155, R156: lines of a cluster cache that carry an uncorrectable error are poisoned in memory once written back, those of
this device's fabric-global addresses at their home. -/
def State.carryPoison (s : State) (k : Nat) (lines : List Nat) : State :=
  let bad := (s.cluster k).poisoned.filter fun l => lines.contains l
  if bad.isEmpty then s else
  let home := bad.filterMap fun l => (homeDpa (256 * l)).map fun a => a / 256
  ({ s with poisoned := home ++ s.poisoned.filter fun l => !home.contains l }).updCluster k fun y =>
    { y with poisoned := y.poisoned.filter fun l => !bad.contains l }

/-- The poison of every cluster's lines at some locations that it holds unflushed. -/
def State.carryAll (s : State) (held : List (Nat × List Nat)) : State :=
  held.foldl (fun t (k, lines) => t.carryPoison k lines) s

/-- The lines that each cluster holds unflushed at some locations, of those that have poisoned lines. -/
def State.poisonedAt (s : State) (locs : List Nat) : List (Nat × List Nat) :=
  (s.clusters.filter fun k => !k.2.poisoned.isEmpty).map fun (k, c) =>
    (k, (c.unflushed.filter fun u => locs.contains u.loc).map fun u => u.loc / 256)

/-- Some locations with all those that the plied accesses of their unflushed bytes have written: what a cluster's cache holds of
one access reaches the vault together, so that no reader finds some plies of an element without the others (R185; DEDUCED,
log entry 92). -/
def withAccess (plied : List Unflushed) : Nat → List Nat → List Nat
  | 0, locs => locs
  | n + 1, locs =>
    let hit := plied.filter fun u => locs.contains u.loc
    let more := (plied.filter fun u => !locs.contains u.loc && hit.any fun w => w.at_ == u.at_ && w.access == u.access).map Unflushed.loc
    if more.isEmpty then locs else withAccess plied n (locs ++ more.eraseDups)

/-- The locations that are flushed with some locations. -/
def State.flushSet (s : State) (locs : List Nat) : List Nat :=
  let plied := s.clusters.flatMap fun k => k.2.unflushed.filter fun u => u.access != 0
  withAccess plied plied.length locs

/-- R169: bytes committed at cluster scope and not yet flushed reach the vault before a commit to the same locations. -/
def State.flushAt (s : State) (locs : List Nat) : State :=
  let locs := s.flushSet locs
  match s.unflushedAt locs with
  | [] => s
  | us => ((s.dropUnflushed locs).vaultCommit .device (us.map fun u => (u.loc, u.byte))).carryAll (s.poisonedAt locs)

/-- A commit at the vault controllers, what it overtakes being flushed first. -/
def State.deviceCommit (s : State) (inst : Inst) (l : List (Nat × Byte)) : State :=
  ((s.flushAt (l.map Prod.fst)).vaultCommit inst l).resetTags l

/-- Whether a commit stands at the vault controllers: one of the device or of the system. -/
def Commit.atVault (m : Commit) : Bool := match m.inst with | .cluster _ => false | _ => true

/-- Whether a commit at the vault controllers made in this cycle has written one of some locations: a commit or an atomic at a cluster's
cache to such a byte, which R169 places before one of its own cycle, then waits for the next (log entry 82). -/
def State.overtaken (s : State) (locs : List Nat) : Bool :=
  (s.commits.takeWhile fun m => m.cycle == s.cycle).any fun m => m.atVault && locs.any fun a => (m.at_ a).isSome

/-- The lines of a cluster's cache once those of some bytes have entered it (09 R152). -/
def Cluster.linesWith (y : Cluster) (l : List (Nat × Byte)) : List Nat :=
  ((l.map fun b => b.1 / 256).eraseDups.filter fun n => !y.lines.contains n) ++ y.lines

/-- A commit at a cluster's cache: its bytes wait there to be flushed, in lines of the cache, which a line that had spilled enters
(09 R152). DESIGN CHOICE (log entry 73): a commit of this scope sets no tag to 0, whichever bytes it writes; the vault does when they
reach it. `access` numbers the plied accesses that have written some of them (R185). -/
def State.clusterCommit (s : State) (k : Nat) (l : List (Nat × Byte)) (access : Nat → Nat := fun _ => 0) : State :=
  let l := lastBytes l
  let y := s.cluster k
  let num := y.commits + 1
  let stamp := s.commits.length
  let t := s.setCluster k { y with
    commits := num
    lines := y.linesWith l
    unflushed := (y.unflushed.filter fun u => !(l.any fun b => b.1 == u.loc))
      ++ l.map fun (a, b) => { loc := a, byte := b, at_ := stamp, access := access a } }
  { t with commits := if l.isEmpty then s.commits
      else { inst := .cluster k, num, tag := stamp, cycle := s.cycle, bytes := l.map fun (a, b) => (a, b, s.homeByte a) } :: s.commits }

/-- Bytes delivered to another device; while the alarm stands the ports drop them (19 R264). -/
def State.sendRemote (s : State) (l : List (Nat × Byte)) : State :=
  if s.alarm.isSome then s else
  { s with remote := l.foldl (fun t (a, b) => Tab.set none t a (some b)) s.remote }

/-! ### Release and acquire (02 R37, 10 R168, R171, 22 R321) -/

/-- The pending bytes of a context in the order of their stores, those at fabric-global addresses or the others; a byte has one
pending byte, so that the two have none in common (22 R321). -/
def Ctx.pendingOf (x : Ctx) (global : Bool) : List (Nat × Byte) :=
  let l := x.pending.filterMap fun (a, p) => match p with
    | some p => if isGlobal a == global then some { loc := a, byte := p.byte, at_ := p.at_ : Unflushed } else none
    | none => none
  (l.foldl (fun l u => insertUnflushed u l) []).map fun u => (u.loc, u.byte)

/-- The plied access whose byte is pending at a location: its place in the order of issue plus 1, or 0 (R185). -/
def Ctx.accessAt (x : Ctx) (loc : Nat) : Nat :=
  match Tab.get none x.pending loc with
  | some p => if p.plied then p.at_ + 1 else 0
  | none => 0

/-- R168, R171: one commit at the instance of a scope. -/
def State.release (s : State) (c : Nat) (p : PScope) : State :=
  let x := s.ctx c
  let k := clusterOf (coreOf c)
  let own := x.pendingOf false
  let clear := fun (all : Bool) (t : State) => t.updCtx c fun y =>
    { y with
      pending := if all then [] else y.pending.filter fun a => isGlobal a.1
      past := if all then [] else y.past.filter fun a => isGlobal a.loc
      spilled := if all then [] else y.spilled.filter fun n => isGlobal (256 * n) }
  let flushed := (s.cluster k).unflushed.map fun u => (u.loc, u.byte)
  let drop := fun (t : State) => t.updCluster k fun y => { y with unflushed := [] }
  let carry := fun (t : State) => t.carryPoison k ((flushed ++ own).map fun b => b.1 / 256)
  match p with
  | .none => s
  | .cluster => clear false (s.clusterCommit k own x.accessAt)
  | .device => clear false (carry ((drop s).deviceCommit .device (flushed ++ own)))
  | .system =>
    let out := x.pendingOf true
    let self := out.filterMap fun (a, b) => (homeDpa a).map fun d => (d, b)
    let away := out.filter fun a => (homeDpa a.1).isNone
    clear true ((((drop s).deviceCommit .system (flushed ++ own ++ self)).carryPoison k
      ((flushed ++ own ++ out).map fun b => b.1 / 256)).sendRemote away)

/-- The commit counters of the instances that contain a context. -/
def State.counters (s : State) (c : Nat) : View :=
  { live := true, clu := (s.cluster (clusterOf (coreOf c))).commits, dev := s.devCommits, sys := s.sysCommits }

/-- R168: the view is set to the counters. -/
def State.acquireView (s : State) (c : Nat) : State :=
  s.updCtx c fun x => { x with view := s.counters c, verView := s.counters c }

/-- What reads of versioned regions follow is set to the counters (log entry 21). -/
def State.acquireVersion (s : State) (c : Nat) : State := s.updCtx c fun x => { x with verView := s.counters c }

/-- R37, R149: an acquire sets the view and invalidates the core's own L1. -/
def State.acquire (s : State) (c : Nat) : State :=
  (s.acquireView c).updCore (coreOf c) fun k => { k with l1 := [] }

/-- The number of a context of a kernel among the read-only cache's readers: a displaced context keeps its own (R157). -/
def State.roReader (s : State) (c : Nat) : Nat := (s.ctx c).share.kernel * 1024 + c

/-- The newest of some commits, by its tag plus 1. -/
def newestTag (l : List Commit) : Nat := match l with | [] => 0 | m :: _ => m.tag + 1

/-- R157: the read-only cache drops a context's lines. -/
def State.dropReadOnly (s : State) (c : Nat) : State :=
  (s.updCtx c fun x => { x with roFloor := newestTag s.commits }).updCluster (clusterOf (coreOf c)) fun k =>
    { k with ro := k.ro.filter fun e => e.1 != s.roReader c }

/-! ### Stores (22 R320) -/

/-- The place of a store in the context's order of issue. -/
def State.storeOrder (s : State) : Nat := s.cur.seq * 16 + s.slot.pos

/-- Lines with pending bytes. -/
def pendingLines (t : Tab (Option Pend)) : List Nat := (t.map fun a => a.1 / 256).eraseDups

/-- R170: whether a store keeps within the locked level's budget of lines. DESIGN CHOICE (log entry 62): the lines counted
are all that are still pending, of phases before this one too where a FLIP has not published them, and a line and its
fabric-global alias count as two. -/
def Ctx.withinBudget (x : Ctx) (cells : List (Nat × Byte)) : Bool :=
  x.level != 2 ||
    let old := pendingLines x.pending
    (old ++ ((cells.map fun a => a.1 / 256).filter fun n => !old.contains n).eraseDups).length ≤ Config.lockedLines

/-! ### Room in the cluster cache for pending lines and kept images (R170) -/

/-- The contexts of a cluster, those displaced by another kernel too. -/
def State.ctxsIn (s : State) (k : Nat) : List Ctx :=
  (s.ctxs.filter fun x => clusterOf (coreOf x.1) == k).map Prod.snd
    ++ s.saved.filterMap fun v => if clusterOf (coreOf v.c) == k then v.away else none

/-- The set of a cluster cache that a line stands in: 4 MB of 16 ways are 1,024 sets (R152; DESIGN CHOICE, log entry 13: the
low bits of the line number choose it). -/
def clusterSet (line : Nat) : Nat := line % 1024

/-- The commits to a line that a view of cluster `k` does not hold, of those that reach the cluster's readers. -/
def unseenOf (v : View) (k line : Nat) (l : List Commit) : Nat :=
  l.countP fun m => !m.seenBy v k && (match m.inst with | .cluster j => j == k | _ => true)
    && m.bytes.any fun b => b.1 / 256 == line

/-- The views of a context that are live: that of versioned regions is so with the other (log entry 21). -/
def Ctx.liveViews (x : Ctx) : List View := if x.view.live then [x.view, x.verView].eraseDups else []

/-- The old images of a line that the live views of cluster `k` need. -/
def State.imagesOf (s : State) (k line : Nat) : Nat :=
  (((s.ctxsIn k).flatMap fun x => x.liveViews.map fun v => unseenOf v k line s.commits).filter (· ≠ 0)).eraseDups.length

/-- The lines that some commit has changed and some live view may still need, in one set of a cluster cache. -/
def State.imagesIn (s : State) (k set : Nat) : Nat :=
  let lines := (s.commits.flatMap fun m => (m.bytes.map fun b => b.1 / 256).filter fun n => clusterSet n == set).eraseDups
  (lines.map (s.imagesOf k)).foldl (· + ·) 0

/-- The pending lines that stand in one set of a cluster cache. -/
def State.pendingIn (s : State) (k set : Nat) : Nat :=
  ((s.ctxsIn k).map fun x => (pendingLines x.pending).countP fun n => clusterSet n == set && !x.spilled.contains n).foldl (· + ·) 0

/-- Ways of a set that pending lines and kept images share. -/
def sharedWays : Nat := 8

/-- The commits that a step has made. -/
def State.fresher (s t : State) : List Commit := t.commits.take (t.commits.length - s.commits.length)

/-- Whether the commits of a step from `s` to `t` find room for the images that they must keep, in each cluster's cache: in the sets
of the lines that they change (R170; DEDUCED, log entry 63: an image is kept in the cache of the cluster whose live view needs
it). -/
def State.roomFor (s t : State) : Bool :=
  let lines := ((s.fresher t).flatMap fun m => m.bytes.map fun b => b.1 / 256).eraseDups
  lines.isEmpty || (List.range Config.clusters).all fun k =>
    ((t.ctxsIn k).all fun x => !x.view.live) || lines.all fun n =>
      t.imagesOf k n == 0 || t.imagesIn k (clusterSet n) + t.pendingIn k (clusterSet n) ≤ sharedWays

/-- Whether a release of context `c` finds room. -/
def State.roomToRelease (s : State) (c : Nat) (p : PScope) : Bool := s.roomFor (s.release c p)

/-- A byte stored at place `n` of the order of issue: it is the pending byte under either address, unless a later store has written it
already (22 R321); what the one leaves behind the other stays for those that read as of a place between them. -/
def Ctx.putPending (n : Nat) (plied : Bool) (x : Ctx) (a : Nat × Byte) : Ctx :=
  let set := Tab.set none (Tab.set none x.pending (aliasOf a.1) none) a.1 (some { byte := a.2, at_ := n, plied })
  match x.pendingNow a.1 with
  | none => { x with pending := set }
  | some (b, p) =>
    if n < p.at_ then { x with past := { loc := a.1, byte := a.2, at_ := n, till := p.at_ } :: x.past }
    else { x with pending := set, past := { loc := b, byte := p.byte, at_ := p.at_, till := n } :: x.past }

/-- The first place of the order of issue at which the context's memory may still be read: that of its oldest result in flight, or the
bundle at hand. -/
def Ctx.oldest (x : Ctx) : Nat := x.inflight.foldl (fun m r => min m (r.id / 4)) (x.seq * 16)

/-- What no reader asks for any more is forgotten. -/
def Ctx.prunePast (x : Ctx) : Ctx := { x with past := x.past.filter fun p => x.oldest < p.till }

/-- New pending lines, each into its set while there is room: those that find none (R170). -/
def State.spill (s : State) (k : Nat) : List Nat → List Nat → List Nat
  | _, [] => []
  | placed, l :: t =>
    if sharedWays ≤ s.imagesIn k (clusterSet l) + s.pendingIn k (clusterSet l) + placed.countP fun n => clusterSet n == clusterSet l
    then l :: s.spill k placed t else s.spill k (l :: placed) t

/-- The bytes become pending bytes of the context being issued; a line that finds no room in the cluster cache spills (R170). -/
def State.addPending (s : State) (cells : List (Nat × Byte)) (plied : Bool := false) : State :=
  let n := s.storeOrder
  let lines := ((cells.map fun a => a.1 / 256).eraseDups).filter fun l => !(pendingLines s.cur.pending).contains l
  let out := s.spill (clusterOf (coreOf s.slot.ctx)) [] lines
  s.updCur fun x => { cells.foldl (Ctx.putPending n plied) x.prunePast with spilled := out ++ x.spilled }

/-! ### The read-only path (09 R157) -/

/-- The byte as it stood after the first `h` commits, to a reader in cluster `k`. -/
def State.byteAfter (s : State) (k h loc : Nat) : Byte :=
  byteIn (fun m => match m.inst with | .cluster j => j == k | _ => true) loc (s.commits.drop (s.commits.length - h))
    (byteIn (fun _ => false) loc (s.commits.take (s.commits.length - h)) (Memory.read s.dram loc))

/-- How many commits stand up to the one of a tag plus 1, it counted; none for 0. -/
def commitsUpTo (t : Nat) : List Commit → Nat
  | [] => 0
  | m :: r => if m.tag + 1 = t then r.length + 1 else commitsUpTo t r

/-- The number of commits that the latest LDR of context `c` reflected at a location. -/
def State.ldrLast (s : State) (c loc : Nat) : Nat :=
  commitsUpTo (match (s.cluster (clusterOf (coreOf c))).ro.find? fun e => e.1 == s.roReader c && e.2.1 == loc with
    | some e => e.2.2
    | none => (s.ctx c).roFloor) s.commits

/-- The number of commits that LDR of `n` bytes reflects, one for them all, so that it returns a value that they have held
together: a free choice, no older than what it has returned before of any of them. -/
def State.ldrChoice (s : State) (c loc n : Nat) : Nat :=
  let last := (List.range n).foldl (fun m i => max m (s.ldrLast c (loc + i))) 0
  last + Config.ldrPick s.fresh % (s.commits.length - last + 1)

/-- LDR of `n` bytes at a device physical address. -/
def State.readOnlyBytes (s : State) (c dpa n : Nat) : List Byte × State :=
  let k := clusterOf (coreOf c)
  let h := s.ldrChoice c dpa n
  let me := s.roReader c
  let t := s.updCluster k fun y =>
    { y with ro := (List.range n).map (fun i => (me, dpa + i, newestTag (s.commits.drop (s.commits.length - h))))
        ++ y.ro.filter fun e => !(e.1 == me && dpa ≤ e.2.1 && e.2.1 < dpa + n) }
  ((List.range n).map fun i => s.byteAfter k h (dpa + i), { t with fresh := s.fresh + 1 })

/-! ### Errors in memory (09 R155, R156) -/

/-- COND of the data error that a read of a location meets, if any. -/
def State.memoryError (s : State) (k loc : Nat) : Option Nat :=
  match homeDpa loc with
  | none => none
  | some a =>
    if s.poisoned.contains (a / 256) || (!isGlobal loc && (s.cluster k).poisoned.contains (a / 256)) then some 2
    else if s.badDram.contains (a / 32) then some 0
    else none

/-- COND of the data error that an access at the vault controllers meets once what the caches hold of the byte unflushed has reached
them (R155, R156; 10 R174). -/
def State.vaultError (s : State) (loc : Nat) : Option Nat :=
  match homeDpa loc with
  | none => none
  | some a =>
    if s.clusters.any fun k => k.2.poisoned.contains (a / 256) && k.2.unflushed.any fun u => u.loc == a then some 2
    else s.memoryError Config.clusters loc

/-- The error that a read of `n` bytes by a context meets, at place `o` of its order of issue. A pending byte meets none of memory's; a
poisoned line of the cluster cache carries its own (R156). -/
def State.readError (s : State) (c o loc n : Nat) : Option Raised :=
  let k := clusterOf (coreOf c)
  if s.poisoned.isEmpty && s.badDram.isEmpty && (s.cluster k).poisoned.isEmpty then none else
  (List.range n).findSome? fun i =>
    match (s.ctx c).pendingAt o (loc + i) with
    | some (a, _) =>
      if (s.cluster k).poisoned.contains (a / 256) then some { cause := .dataError, cond := 2, faddr := loc + i, loc := a } else none
    | none => (s.memoryError k (loc + i)).map fun d => { cause := .dataError, cond := d, faddr := loc + i, loc := loc + i }

/-- A refusal by the device that is the home of an access (09 R165); which accesses another device refuses is free (log
entry 9). -/
def refusalOf (n a : Nat) : Option Raised :=
  match Config.remoteRefusal n a % 10 with
  | 1 => some { cause := .translation, cond := 0, faddr := a }
  | 2 => some { cause := .translation, cond := 1, faddr := a }
  | 3 => some { cause := .translation, cond := 5, faddr := a }
  | 4 => some { cause := .translation, cond := 6, faddr := a }
  | 5 => some { cause := .version, cond := 0, faddr := a }
  | 6 => some { cause := .version, cond := 1, faddr := a }
  | 7 => some { cause := .version, cond := 2, faddr := a }
  | 8 => some { cause := .version, cond := 3, faddr := a }
  | 9 => some { cause := .version, cond := 4, faddr := a }
  | _ => none

/-! ### The caches (09 R149 to R152) -/

/-- The L1 slice that serves a line for a core: its own, or the slice of line address bits [11:8] when fused. -/
def State.l1Slice (s : State) (core line : Nat) : Nat :=
  if (s.core core).fused then 16 * clusterOf core + line % 16 else core

/-- The set of an L1 that a line stands in: 64 KB of 4 ways are 64 sets (R149; DESIGN CHOICE, log entry 13: the low bits of
the line number choose it). In a fused L1 bits [11:8] of the address have chosen the slice (R150), and the bits above choose
the set. -/
def l1Set (fused : Bool) (line : Nat) : Nat := (if fused then line / 16 else line) % 64

/-- The first `n` lines of a set, and every line of the others. -/
def keepSet (fused : Bool) (set : Nat) : Nat → List L1Line → List L1Line
  | _, [] => []
  | n, l :: t =>
    if l1Set fused l.line = set then (match n with | 0 => keepSet fused set 0 t | n + 1 => l :: keepSet fused set n t)
    else l :: keepSet fused set n t

/-- A line becomes the most recently used of its set of four. -/
def l1Put (fused : Bool) (n : L1Line) (l : List L1Line) : List L1Line :=
  n :: keepSet fused (l1Set fused n.line) 3 (l.filter fun a => a.line != n.line)

/-- A count after a read. -/
def l1Spend (fused : Bool) (n : L1Line) (l : List L1Line) : List L1Line :=
  match n.count with
  | some k => if k ≤ 1 then l.filter fun a => a.line != n.line else l1Put fused { n with count := some (k - 1) } l
  | none => l1Put fused n l

/-- The context, plus 1, that has stored to a sector; 0 for none. -/
def L1Line.owner (a : L1Line) (sector : Nat) : Nat := if sector = 0 then a.owner0 else a.owner1

/-- A read of a sector through the L1 by a context: whether it hits, and the L1 after it (R149, R151). A sector that the other
context has written misses, and stays with its writer (10 R169). Without a hint the read is one of a port walk, which neither sets
nor spends a count. DESIGN CHOICE (log entry 13): a read that misses a sector of a line that is present counts as a read that
hits the line. -/
def l1Read (fused : Bool) (c line sector : Nat) (hint : Option Nat) (l : List L1Line) : Bool × List L1Line :=
  let bit := 2 ^ sector
  let put := fun (a : L1Line) => if hint.isSome then l1Spend fused a l else l1Put fused a l
  match l.find? fun a => a.line == line with
  | some a =>
    let mine := a.owner sector = 0 || a.owner sector = c + 1
    (mine && bitAt a.sectors sector, put { a with sectors := a.sectors ||| bit })
  | none => (false, put { line, sectors := bit, count := hint.filter (· ≠ 0) })

/-- A store updates a sector that is present (R149): the sector then serves its writer alone. DESIGN CHOICE (log entry 13): it is
no use of the line for the order of replacement. -/
def l1Write (c line sector : Nat) (l : List L1Line) : List L1Line :=
  l.map fun a => if a.line == line && bitAt a.sectors sector then
    (if sector = 0 then { a with owner0 := c + 1 } else { a with owner1 := c + 1 }) else a

/-- The dirty bytes of a line reach the vault as a device commit, those of other lines that the same plied accesses have written with
them (10 R185), and the line leaves the cache (10 R171). -/
def State.replaceLine (s : State) (k line : Nat) : State :=
  let locs := s.flushSet (((s.cluster k).unflushed.filter fun u => u.loc / 256 == line).map Unflushed.loc)
  let mine := (s.cluster k).unflushed.filter fun u => locs.contains u.loc
  let t := if mine.isEmpty then s
    else (s.deviceCommit .device (mine.map fun u => (u.loc, u.byte))).carryPoison k [line]
  t.updCluster k fun y =>
    { y with lines := y.lines.filter fun l => l != line, unflushed := y.unflushed.filter fun u => u.loc / 256 != line }

/-- A line of the cluster cache becomes the most recently used. A set that it makes too full gives up a line before the
cycle ends (`State.overfull`). -/
def State.touchCluster (s : State) (k line : Nat) : State :=
  s.updCluster k fun y => { y with lines := line :: y.lines.filter fun a => a != line }

/-- Whether pending bytes stand in a line of a cluster's cache: the line is not given up (10 R170). -/
def State.pendsAt (s : State) (k line : Nat) : Bool :=
  (s.ctxsIn k).any fun x => (pendingLines x.pending).contains line && !x.spilled.contains line

/-- A set of 16 ways that holds more than 16 lines: the lines of it that may leave (R152). -/
def State.overfull (s : State) (k : Nat) : List Nat :=
  let l := (s.cluster k).lines
  match l.find? fun n => 16 < l.countP fun a => clusterSet a == clusterSet n with
  | some n => l.filter fun a => clusterSet a == clusterSet n && !s.pendsAt k a
  | none => []

/-- The sectors of 128 bytes that `n` bytes stand in. -/
def sectorsOf (loc n : Nat) : List Nat := (List.range ((loc % 128 + n + 127) / 128)).map fun i => loc / 128 * 128 + 128 * i

/-- A read through the caches of bytes of one sector, with a load's hint or, of a port walk, without: the state after it, and about
how many cycles the data takes (R148). -/
def State.cacheRead (s : State) (c loc : Nat) (hint : Option Nat) : State × Nat :=
  match homeDpa loc with
  | none => (s, 3072)
  | some a =>
    let line := a / 256
    let core := s.l1Slice (coreOf c) line
    let (hit, l) := l1Read (s.core core).fused c line (a / 128 % 2) hint (s.core core).l1
    let k := clusterOf (coreOf c)
    let there := (s.cluster k).lines.contains line
    let t := s.updCore core fun y => { y with l1 := l }
    if hit then (t, 20) else (t.touchCluster k line, if there then 48 else 96)

/-- A store through the caches into one sector: the L1 that holds it, and the line of the cluster cache, of another device too
(R152), which it enters unless it has spilled (10 R170). -/
def State.cacheWrite (s : State) (c loc : Nat) : State :=
  let t := match homeDpa loc with
    | none => s
    | some a => s.updCore (s.l1Slice (coreOf c) (a / 256)) fun y => { y with l1 := l1Write c (a / 256) (a / 128 % 2) y.l1 }
  if (s.ctx c).spilled.contains (loc / 256) then t else t.touchCluster (clusterOf (coreOf c)) (loc / 256)

/-! ### Atomics (10 R172 to R174; 11 R204; 20 R270) -/

/-- The new value of an atomic; none when nothing is written. -/
def atomNew (op : Option AtomOp) (size old arg swap : Nat) : Option Nat :=
  match op with
  | none => if old = arg % 2 ^ (8 * size) then some (swap % 2 ^ (8 * size)) else none
  | some .add => some ((old + arg) % 2 ^ 64)
  | some .min => some (if toSigned 64 old ≤ toSigned 64 arg then old else arg)
  | some .max => some (if toSigned 64 old ≤ toSigned 64 arg then arg else old)
  | some .xchg => some arg
  | some .and => some (old &&& arg)
  | some .or => some (old ||| arg)
  | some .fadd32 => some (fp32.add false .rne old (arg % 2 ^ 32)).1
  | some .load => none

/-- One atomic at its point of coherence: the old value, and the state after it. -/
def State.atomicRun (s : State) (a : Atomic) : Nat × State :=
  let locs := (List.range a.size).map fun i => a.loc + i
  match homeDpa a.loc, a.inst with
  | none, _ =>
    let old := ofBytes (locs.map s.remoteByte)
    (old, match atomNew a.op a.size old a.arg a.swap with
      | none => s
      | some n => s.sendRemote (cellsAt a.loc (bytesOf a.size n)))
  | some d, .cluster k =>
    let old := ofBytes ((List.range a.size).map fun i => s.clusterByte k (d + i))
    (old, (s.touchCluster k (d / 256)).clusterCommit k (match atomNew a.op a.size old a.arg a.swap with
      | none => []
      | some n => cellsAt d (bytesOf a.size n)))
  | some d, inst =>
    let t := s.flushAt ((List.range a.size).map fun i => d + i)
    let old := ofBytes (Memory.readN t.dram d a.size)
    (old, t.deviceCommit inst (match atomNew a.op a.size old a.arg a.swap with
      | none => []
      | some n => cellsAt d (bytesOf a.size n)))

end Sys2Proof.Machine
end

