-- ==== Sys2Proof/Machine/Translate.lean ====
section
/-! DEFINITION. Translation (09 R146, R153, R154, R158 to R165) and the choice of a version's slot (14 R210 to R212): page
walks, the two levels of TLB, and the resolution of an address to a location or a trap. -/
namespace Sys2Proof.Machine

/-! ### Who owns a device physical address (R153, R154) -/

/-- Bytes of a partition's device physical range. -/
def Part.span (p : Part) : Nat := 16 * (p.w * p.h) * Config.vaultBytes

/-- Whether a device physical address lies in a partition's range. -/
def Part.owns (p : Part) (a : Nat) : Bool := p.on && p.pbase ≤ a && a < p.pbase + p.span

/-- EN, PART and LBASE of a VLEND entry. -/
def lendOn (v : Word64) : Bool := bitAt v.toNat 63
def lendPart (v : Word64) : Nat := bits v.toNat 62 60
def lendBase (v : Word64) : Nat := bits v.toNat 38 30 * 2 ^ 30

/-- Whether a lent vault serves a device physical address. -/
def lendOwns (v : Word64) (a : Nat) : Bool := lendOn v && lendBase v ≤ a && a < lendBase v + Config.vaultBytes

/-- Whether a device physical address lies in some range. -/
def State.dpaMapped (s : State) (a : Nat) : Bool :=
  (s.parts.any fun p => p.2.owns a) || (s.vlend.any fun v => lendOwns v.2 a)

/-- The clusters of a partition, lowest physical cluster first (R17, R344). -/
def Part.clusters (p : Part) : List Nat :=
  (List.range p.h).flatMap fun j => (List.range p.w).map fun i => 4 * (p.y + j) + p.x + i

/-- R153: the PCORE above the vault that holds an address of a partition, and the offset in the vault. -/
def Part.vaultOf (p : Part) (a : Nat) : Nat × Nat :=
  let ppa := a - p.pbase
  let g := ppa / 4096
  let nv := 16 * (p.w * p.h)
  let slot := g % nv
  (16 * p.clusters.getD (slot / 16) 0 + slot % 16, g / nv * 4096 + ppa % 4096)

/-- The PCORE above the vault of an address. -/
def State.vaultOf (s : State) (a : Nat) : Option Nat :=
  match s.parts.find? fun p => p.2.owns a with
  | some p => some (p.2.vaultOf a).1
  | none => (s.vlend.find? fun v => lendOwns v.2 a).map Prod.fst

/-! ### Descriptors and walks (R158 to R160) -/

/-- A dword of DRAM. -/
def State.dword (s : State) (a : Nat) : Nat := ofBytes (Memory.readN s.dram a 8)

/-- Bits of the page offset for a size code. -/
def pageBits (size : Nat) : Nat := if size = 0 then 16 else if size = 1 then 21 else 30

/-- Index bits of a level: the lowest and the number. -/
def levelLow : Nat → Nat
  | 0 => 39 | 1 => 30 | 2 => 21 | _ => 16
def levelBits (l : Nat) : Nat := if l < 3 then 9 else 5
/-- Bytes of a table of a level. -/
def tableBytes (l : Nat) : Nat := if l < 3 then 8192 else 512

/-- ADDR of a descriptor. -/
def descAddr (w0 : Nat) : Nat := bits w0 38 9 * 512

/-- What a walk meets at one level. -/
inductive Met
  | table (dpa : Nat)
  | page (size : Nat)
  | bad (cond : Nat)
  deriving DecidableEq, Repr

/-- R159, R160: a descriptor at a level; `ver` is the VER that a slot's pages must carry (R211). -/
def readDescriptor (mapped : Nat → Bool) (ver : Option Nat) (level w0 w1 : Nat) : Met :=
  let a := descAddr w0
  let size := bits w0 61 60
  match bits w0 63 62 with
  | 0 => .bad 0
  | 1 =>
    if bits w0 61 53 = 0 && bits w0 52 39 = 0 && bits w0 8 0 = 0 && w1 = 0 && level < 3
        && a % tableBytes (level + 1) = 0 && mapped a then .table a
    else .bad 6
  | 2 =>
    let vr := bitAt w0 55
    let pl := bitAt w0 53
    if size < 3 && level + size = 3 && 1 ≤ level
        && bits w0 52 39 = 0 && bits w0 8 0 = 0 && bits w1 43 38 = 0 && bits w1 30 0 = 0
        && (vr || bits w1 63 44 = 0) && (pl || bits w1 37 31 = 0)
        && a % 2 ^ pageBits size = 0
        && (!pl || (6 ≤ bits w1 35 31 && bits w1 35 31 ≤ 22))
        && (match ver with | none => true | some v => vr && bits w1 63 48 = v)
        && mapped a then .page size
    else .bad 6
  | _ => .bad 6

/-- Where a walk finds the descriptor of a virtual address in a table. -/
def descAt (level table va : Nat) : Nat := table + 16 * (va / 2 ^ levelLow level % 2 ^ levelBits level)

/-- The condition of a walk that reads a descriptor with an uncorrectable error stands for that error (R155, R156; DEDUCED, log entry
13: the access that waits for the walk is what consumes it): COND of the data error in bits [3:0], the descriptor's address plus 1
above them. -/
def walkBad (cond at_ : Nat) : Nat := 16 * (at_ + 1) + cond

/-- Whether the condition of a walk stands for such an error. -/
def isWalkBad (cond : Nat) : Bool := 16 ≤ cond

/-- A walk from a table of level `level` down: the page's size and descriptor words, or the condition. -/
def State.walkFrom (s : State) (ver : Option Nat) (va : Nat) : Nat → Nat → Nat → Except Nat (Nat × Nat × Nat)
  | 0, _, _ => .error 6
  | fuel + 1, level, table =>
    let d := descAt level table va
    match s.memoryError Config.clusters d with
    | some c => .error (walkBad c d)
    | none =>
      match readDescriptor s.dpaMapped ver level (s.dword d) (s.dword (d + 8)) with
      | .table a => s.walkFrom ver va fuel (level + 1) a
      | .page size => .ok (size, s.dword d, s.dword (d + 8))
      | .bad c => .error c

/-- The lines of the descriptors that such a walk reads. -/
def State.walkLines (s : State) (ver : Option Nat) (va : Nat) : Nat → Nat → Nat → List Nat
  | 0, _, _ => []
  | fuel + 1, level, table =>
    let d := descAt level table va
    d / 256 :: match readDescriptor s.dpaMapped ver level (s.dword d) (s.dword (d + 8)) with
      | .table a => s.walkLines ver va fuel (level + 1) a
      | _ => []

/-! ### Versioned regions (14 R210, R211) -/

/-- A slot of a region descriptor. -/
structure VSlot where
  ver   : Nat := 0
  state : Nat := 0
  cap   : Bool := false
  pins  : Nat := 0
  root  : Nat := 0
  deriving DecidableEq, Repr, Inhabited

/-- A region descriptor. -/
structure Region where
  ngb   : Nat := 0
  vbase : Nat := 0
  evc   : Nat := 0
  rmask : Nat := 0
  cg    : Bool := false
  lpart : Nat := 0
  slots : List VSlot := []
  deriving DecidableEq, Repr, Inhabited

/-- States of a slot (R210). -/
def stFree : Nat := 0
def stDraft : Nat := 1
def stCurrent : Nat := 2
def stOlder : Nat := 3
def stRetired : Nat := 4

/-- The device physical address of region `r`'s descriptor. -/
def State.regionAt (s : State) (r : Nat) : Nat := s.vrtbase.toNat + 128 * r

/-- A slot from its two dwords. -/
def slotOf (d e : Nat) : VSlot :=
  { ver := bits d 63 48, state := bits d 47 45, cap := bitAt d 44, pins := bits d 43 33, root := bits e 38 13 * 8192 }

/-- Region `r`, if VALID: VRTBASE names the table at any address, 0 too (log entry 20), and memory that nothing has written holds no
valid region. -/
def State.region (s : State) (r : Nat) : Option Region :=
  let a := s.regionAt r
  let d0 := s.dword a
  let d1 := s.dword (a + 8)
  if !bitAt d0 63 then none
  else some {
    ngb := bits d0 55 48, vbase := bits d0 47 30, evc := bits d1 19 12, rmask := bits d1 11 4, cg := bitAt d1 3
    lpart := bits d1 2 0
    slots := (List.range 4).map fun k => slotOf (s.dword (a + 16 + 16 * k)) (s.dword (a + 24 + 16 * k)) }

/-- The region that holds a virtual address. -/
def State.regionOf (s : State) (va : Nat) : Option (Nat × Region) :=
  (List.range 8).findSome? fun r => match s.region r with
    | some g => if g.vbase ≤ va / 2 ^ 30 && va / 2 ^ 30 < g.vbase + g.ngb then some (r, g) else none
    | none => none

/-- The first slot in a state. -/
def Region.slotIn (g : Region) (st : Nat) : Option Nat := g.slots.findIdx? fun k => k.state == st
/-- The slot in state current or older that holds a version. -/
def Region.slotHolding (g : Region) (ver : Nat) : Option Nat :=
  g.slots.findIdx? fun k => (k.state == stCurrent || k.state == stOlder) && k.ver == ver

/-- R211: the slot, or the condition of the version fault. -/
def Region.choose (g : Region) (part : Nat) (write : Bool) (vpin : Nat) : Except Nat Nat :=
  if part = g.lpart then
    match g.slotIn stDraft with
    | some k => .ok k
    | none =>
      if write then .error 3
      else match g.slotIn stCurrent with | some k => .ok k | none => .error 1
  else if bitAt g.rmask part then
    if write then .error 0
    else match g.slotHolding vpin with | some k => .ok k | none => .error 1
  else .error 2

/-! ### TLBs (R161, R164) -/

/-- Whether an entry maps a virtual address for a partition, in a slot of a region or outside. -/
def TlbEntry.maps (e : TlbEntry) (part : Nat) (region : Option (Nat × Nat)) (va : Nat) : Bool :=
  e.part == part && e.region == region && e.va == va / 2 ^ pageBits e.size * 2 ^ pageBits e.size

/-- The device physical address of a virtual address under an entry. -/
def TlbEntry.dpa (e : TlbEntry) (va : Nat) : Nat := descAddr e.word0 + va % 2 ^ pageBits e.size

/-- The fully associative TLB of a core with one entry more; a full one of `n` entries replaces an entry of a free choice (log
entry 14). -/
def tlbPut (n : Nat) (e : TlbEntry) (l : List TlbEntry) (k : Nat) : List TlbEntry :=
  let rest := l.filter fun a => a != e
  if rest.length < n then e :: rest else e :: rest.eraseIdx (Config.tlbVictim k % n)

/-- The set of a cluster's TLB: 4,096 entries of 8 ways are 512 sets (R161; DESIGN CHOICE, log entry 14: the low bits of the
64 KB page number choose it). -/
def TlbEntry.set (e : TlbEntry) : Nat := e.va / 2 ^ 16 % 512

/-- A cluster's TLB with one entry more, in a set of 8. -/
def tlbPutSet (e : TlbEntry) (l : List TlbEntry) (k : Nat) : List TlbEntry :=
  let (mates, others) := l.partition fun a => a.set == e.set
  tlbPut 8 e mates k ++ others

/-- An entry of a core's TLB or, below the locked level, of its cluster's. DESIGN CHOICE (log entry 14): one found in the cluster's is
not entered in the core's. -/
def State.tlbFind (s : State) (core : Nat) (part : Nat) (region : Option (Nat × Nat)) (va : Nat) : Option TlbEntry :=
  match (s.core core).tlb.find? fun e => e.maps part region va with
  | some e => some e
  | none => (s.cluster (clusterOf core)).tlb.find? fun e => e.maps part region va

/-- Where a walk begins: the VER that its pages must carry, and the first table with its level. -/
def State.walkRoot (s : State) (part : Nat) (region : Option (Nat × Nat)) : Option Nat × Nat × Nat :=
  match region with
  | none => (none, 0, (s.part part).ptroot.toNat)
  | some (k, n) =>
    let slot := ((s.region k).getD {}).slots.getD n {}
    (some slot.ver, 1, slot.root)

/-- R158 to R160, R211: a whole walk, as a TLB entry or the condition of the trap. DESIGN CHOICE (log entry 64): the last
condition of R160 is asked of descriptors only, so the first table is read wherever PTROOT or a slot's ROOT points. -/
def State.walk (s : State) (part : Nat) (region : Option (Nat × Nat)) (va : Nat) : Except Nat TlbEntry :=
  let (ver, level, root) := s.walkRoot part region
  match s.walkFrom ver va (4 - level) level root with
  | .error c => .error c
  | .ok (size, w0, w1) =>
    .ok { part, va := va / 2 ^ pageBits size * 2 ^ pageBits size, size, word0 := w0, word1 := w1, region }

/-! ### Resolving an address -/

/-- Kinds of access (R159): reads, writes and fetches. -/
inductive AKind | read | write | exec
  deriving DecidableEq, Repr

/-- What a translation needs: the partition whose tables serve, the page's region and slot, the virtual address. -/
structure PageKey where
  part   : Nat
  region : Option (Nat × Nat)
  va     : Nat
  deriving DecidableEq, Repr

/-- Where an address leads before any page is looked up. -/
inductive Aim
  /-- A page of this device's tables; reached by a fabric-global address or not. -/
  | page (key : PageKey) (global : Bool)
  | remote
  | trap (cause : Cause) (cond : Nat)
  deriving DecidableEq, Repr

/-- The partition that a context runs for. -/
def Ctx.part (x : Ctx) : Nat := x.share.lpart

/-- R146, R211: the checks that come before any walk. DESIGN CHOICE (log entry 64): a fabric-global address that names this
device with a partition that is not configured is walked like any other, from that partition's PTROOT. -/
def State.aim (s : State) (part vpin : Nat) (kind : AKind) (a : Nat) : Aim :=
  let choose := fun (p : Nat) (global : Bool) =>
    match s.regionOf (a % 2 ^ 48) with
    | none => Aim.page { part := p, region := none, va := a % 2 ^ 48 } global
    | some (r, g) => match g.choose p (kind == .write) vpin with
      | .ok k => .page { part := p, region := some (r, k), va := a % 2 ^ 48 } global
      | .error c => .trap .version c
  if bitAt a 63 then
    if bits a 59 58 ≠ 0 then .trap .translation 3
    else if bits a 57 48 = s.devId then choose (bits a 62 60) true
    else if (Tab.get 0 s.routes (bits a 57 48)) = 0 then .trap .translation 5
    else .remote
  else if bits a 62 48 ≠ 0 then .trap .translation 3
  else choose part false

/-- Whether a descriptor permits an access (R159, R146). -/
def permits (w0 : Nat) (kind : AKind) (global : Bool) : Bool :=
  (match kind with | .read => bitAt w0 59 | .write => bitAt w0 58 | .exec => bitAt w0 57) && (!global || bitAt w0 56)

/-- What an access reaches once its page is known: the location, the descriptor, and whether it writes a page shared with an
older version. -/
structure Reach where
  loc : Nat
  w1  : Nat
  w0  : Nat
  cow : Bool := false
  /-- The page is one of a versioned region. -/
  ver : Bool := false
  deriving DecidableEq, Repr, Inhabited

/-- What a walk that failed raises for an address: the trap of its condition, or the data error of a descriptor. -/
def walkTrap (cond a : Nat) : Raised :=
  if isWalkBad cond then { cause := .dataError, cond := cond % 16, faddr := a, loc := cond / 16 - 1 }
  else { cause := .translation, cond, faddr := a }

/-- R159: the permissions of a page found; `both` asks for R and W, as atomics do. -/
def TlbEntry.allow (e : TlbEntry) (key : PageKey) (kind : AKind) (both global : Bool) (a : Nat) : Except Raised Reach :=
  if !(permits e.word0 kind global && (!both || permits e.word0 .read global)) then
    .error { cause := .translation, cond := 1, faddr := a }
  else .ok { loc := e.dpa key.va + (if global then 2 ^ 64 else 0), w1 := e.word1, w0 := e.word0
             cow := kind == .write && key.region.isSome && bitAt e.word1 44, ver := key.region.isSome }

/-- R212: the version fault of a write to a page shared with an older version. -/
def Reach.unshared (k : Reach) (a : Nat) : Except Raised Reach :=
  if k.cow then .error { cause := .version, cond := 4, faddr := a } else .ok k

/-- R159, R212: the checks on a page found. -/
def TlbEntry.grant (e : TlbEntry) (key : PageKey) (kind : AKind) (both global : Bool) (a : Nat) : Except Raised Reach :=
  match e.allow key kind both global a with
  | .error r => .error r
  | .ok k => k.unshared a

/-- The condition of a walk that has raised a trap. -/
def Raised.walkCond (r : Raised) : Nat := if r.cause = .dataError then walkBad r.cond r.loc else r.cond

/-- The page of a failed walk, as the waiting bundle keeps it. -/
def PageKey.page (k : PageKey) : Nat := k.part * 2 ^ 48 + k.va / 2 ^ 16

/-- The page that serves a key for context `c`: from a TLB, from the failed walk that the bundle has waited for, or
walked now. -/
def State.pageFor (s : State) (c : Nat) (k : PageKey) : Except Nat TlbEntry :=
  match s.tlbFind (coreOf c) k.part k.region k.va with
  | some e => .ok e
  | none => match (s.ctx c).walked.find? fun w => w.1 == k.page with
    | some w => .error w.2.walkCond
    | none => s.walk k.part k.region k.va

/-- An access of a context to an address, before the check of R212: the location, or the trap at its slot. -/
def State.reach (s : State) (c : Nat) (kind : AKind) (both : Bool) (a : Nat) : Except Raised Reach :=
  match s.aim (s.ctx c).part (s.ctx c).vpin kind a with
  | .trap cause cond => .error { cause, cond, faddr := a }
  | .remote => .ok { loc := a, w1 := 0, w0 := 0 }
  | .page key global => match s.pageFor c key with
    | .error cond => .error (walkTrap cond a)
    | .ok e => e.allow key kind both global a

/-- An access of a context to an address: the location, or the trap at its slot. -/
def State.resolve (s : State) (c : Nat) (kind : AKind) (both : Bool) (a : Nat) : Except Raised Reach :=
  match s.reach c kind both a with
  | .error r => .error r
  | .ok k => k.unshared a

/-- The page that a key names: the whole page where its walk succeeds, else its 64 KB. -/
def State.wholePage (s : State) (k : PageKey) : PageKey :=
  match s.walk k.part k.region k.va with
  | .ok e => { k with va := e.va }
  | .error _ => { k with va := k.va / 2 ^ 16 * 2 ^ 16 }

/-- Whether two keys name one page. -/
def State.samePage (s : State) (a b : PageKey) : Bool := s.wholePage a == s.wholePage b

/-! ### Walks (R161, R162) -/

def Walk.key (w : Walk) : PageKey := { part := w.part, region := w.region, va := w.va }

/-- Whether a walk is one of a bundle or of an engine of the locked level, which ends after 640 cycles (R164). -/
def Walk.isLocked (w : Walk) : Bool := w.till != 0

/-- Whether an engine has asked for a walk. -/
def Walk.ofEngine (w : Walk) : Bool := match w.who with | .engine _ => true | _ => false

/-- Whether two requests are for one page in one cluster (R162). -/
def State.sameWalk (s : State) (a b : Walk) : Bool := a.cluster == b.cluster && s.samePage a.key b.key

/-- Whether a walk for the page of a request is in flight: the request joins it (R162). -/
def State.walking (s : State) (w : Walk) : Bool := s.walks.any fun v => !v.joined && !v.isLocked && s.sameWalk v w

/-- Whether a request may start now, if none is before it (R162). The walkers that R164 reserves do not count. -/
def State.mayStart (s : State) (w : Walk) : Bool :=
  let busy := s.walks.filter fun v => v.cluster == w.cluster && !v.joined && !v.isLocked
  s.walking w || (busy.length < 32 && (if w.ofEngine then busy.countP Walk.ofEngine < 16
    else (busy.countP fun v => v.core == w.core && !v.ofEngine) < 8))

/-- The order in which waiting requests are served: by arrival, and those of one cycle by PCORE, engines last (R162). -/
def Walk.ahead (a b : Walk) : Bool :=
  a.since < b.since || (a.since == b.since &&
    ((!a.ofEngine && b.ofEngine) || (a.ofEngine == b.ofEngine && a.core < b.core)))

/-- The first waiting request of a cluster that may start: its place, none before it in that order. -/
def State.nextWalk (s : State) (k : Nat) : Option Nat :=
  let open_ := fun (w : Walk) => w.cluster == k && s.mayStart w
  s.walksWaiting.findIdx? fun w => open_ w && !(s.walksWaiting.any fun v => open_ v && v.ahead w)

/-- A walk begins, or joins the one in flight. -/
def State.beginWalk (s : State) (w : Walk) : State := { s with walks := s.walks ++ [{ w with joined := s.walking w }] }

def State.startWalk (s : State) (k : Nat) : State :=
  match s.nextWalk k with
  | none => s
  | some n => match s.walksWaiting[n]? with
    | none => s
    | some w => { s with walksWaiting := s.walksWaiting.eraseIdx n }.beginWalk w

/-- The waiting requests of a cluster that may start have started, `n` of them at most. -/
def State.startAll (s : State) (k : Nat) : Nat → State
  | 0 => s
  | n + 1 => if (s.nextWalk k).isSome then (s.startWalk k).startAll k n else s

/-- The page that an access would have to wait for, if a TLB does not hold it and its walk has not failed: at the
locked level the core's own TLB must hold it (R164). -/
def State.pageMissing (s : State) (c : Nat) (kind : AKind) (a : Nat) : Option PageKey :=
  match s.aim (s.ctx c).part (s.ctx c).vpin kind a with
  | .page key _ =>
    let found := if (s.ctx c).level = 2
      then ((s.core (coreOf c)).tlb.find? fun e => e.maps key.part key.region key.va).isSome
      else (s.tlbFind (coreOf c) key.part key.region key.va).isSome
    if found || ((s.ctx c).walked.any fun w => w.1 == key.page) then none else some key
  | _ => none

end Sys2Proof.Machine
end

