-- ==== Sys2Proof/Machine/Load.lean ====
section
/-! DEFINITION. The loads of class 7 (21 R300, R301): LD, LDS, LDR, and PF (21 R309, 09 R166). -/
namespace Sys2Proof.Machine

/-! ### Addresses (04 R70, 09 R147) -/

/-- The effective address of an access with an offset in units of `z` bytes. -/
def State.address (s : State) (base imm : BitVec 6) (z : Nat) : Nat := (s.sa base.toNat + s.imm6 imm * z) % 2 ^ 64

/-- The effective address of LD: EXT[24:7] stands above imm6. -/
def State.addressLd (s : State) (base imm : BitVec 6) (z : Nat) : Nat :=
  let off := match s.slot.lend.ext with
    | some e => signExtend 24 64 (e / 128 * 64 + imm.toNat)
    | none => signExtend 6 64 imm.toNat
  (s.sa base.toNat + off * z) % 2 ^ 64

/-- The read-count hint of LD. -/
def State.hint (s : State) : Nat := match s.slot.lend.ext with | some e => e % 128 | none => 0

/-- A fault of a syllable without a result that is found `lat` cycles after its issue: an entry without a register carries it,
the data and the tag of an STQ, until it is reported (16 R229). It is no result, and R231 does not count it. -/
def State.lateFor (s : State) (lat a : Nat) (isVar : Bool) (data tag : Nat) (q : Raised) : State :=
  s.enter [{ file := .latch, val := BitVec.ofNat 1024 tag, lval := BitVec.ofNat 1024 data, due := s.cur.count + lat, isVar,
             at_ := s.cycle + lat, ea := a, late := some { q with pos := s.slot.pos } }]

/-- The data-error trap of a class 8 syllable that has read a port word with an uncorrectable error: it does nothing else
(R156). -/
def State.lateData (s : State) : State := s.lateFor 1 0 false 0 0 { cause := .dataError }

/-- A syllable of class 8 or a QPUSH that may have read a port word with an uncorrectable error: it does nothing then, and what it meets
at its slot besides is the lower cause (16 R227). -/
def State.unlessBad (s : State) (body : State → State) : State :=
  if s.slot.ecc then
    match (body s).causesSince s with
    | [] => s.lateData
    | l => { s with slot := { s.slot with raised := l ++ s.slot.raised } }
  else body s

/-- A trap at the syllable's slot. -/
def State.trapWith (s : State) (r : Raised) : State := s.raise r.cause r.cond r.faddr

/-- The ALIGN trap. -/
def State.misaligned (s : State) (a : Nat) : State := s.raise .translation (cond := 2) (faddr := a)
/-- The SPB trap. -/
def State.beyondSpad (s : State) (a : Nat) : State := s.raise .translation (cond := 4) (faddr := a)

/-! ### Results of loads -/

/-- Latencies of R35. -/
def latLoad : Nat := 160
def latRemote : Nat := 3072
def latAtomCluster : Nat := 96
def latAtomDevice : Nat := 220

/-- Byte enables of a load's result: all 64 bits of a scalar, the active bytes of a vector (R25, R28). -/
def State.loadBen (s : State) (m : ASize) : Nat := if m.isVector then s.ben (8 * m.bytes) 8 else 0xFF

/-- The result of a load of size `m`. -/
def State.loadResult (s : State) (m : ASize) (d : Nat) (v lat : Nat) : Result :=
  { file := destFile s (dataFile m) d, reg := d, ben := BitVec.ofNat 128 (s.loadBen m), val := BitVec.ofNat 1024 v
    unit := s.slot.unit, lval := BitVec.ofNat 1024 v, due := s.cur.count + lat }

/-- A variable-latency result, with the effective address and the fault that its data carry. -/
def Result.variable (r : Result) (ea arrives : Nat) (late : Option Raised) : Result :=
  { r with isVar := true, ea, at_ := arrives, late }

/-! ### LD and LDR -/

/-- The fault found when the data of a load return: an error, or the refusal of another device (R229). -/
def State.readFault (s : State) (c o loc n : Nat) : Option Raised :=
  match homeDpa loc with
  | some _ => s.readError c o loc n
  | none => refusalOf s.fresh loc

/-- The error that LDR meets: it reads what memory holds, not the context's pending bytes. -/
def State.roError (s : State) (c dpa n : Nat) : Option Raised :=
  if s.poisoned.isEmpty && s.badDram.isEmpty && (s.cluster (clusterOf (coreOf c))).poisoned.isEmpty then none else
  (List.range n).findSome? fun i =>
    (s.memoryError (clusterOf (coreOf c)) (dpa + i)).map fun d =>
      { cause := .dataError, cond := d, faddr := dpa + i, loc := dpa + i }

/-- R301: LD at an address. DESIGN CHOICE (log entry 34): a load of a fabric-global address that names this device performs
at its issue, like one that names another. -/
def ldAt (d : BitVec 6) (m : ASize) (a : Nat) (s : State) : State :=
  if a % m.bytes ≠ 0 then s.misaligned a
  else match s.resolve s.slot.ctx .read false a with
    | .error r => s.trapWith r
    | .ok k =>
      let c := s.slot.ctx
      let v := ofBytes (s.viewBytes c s.storeOrder k.ver k.loc m.bytes)
      let late := (s.readFault c s.storeOrder k.loc m.bytes).map fun r => { r with pos := s.slot.pos, faddr := a }
      let (t, about) := ({ s with fresh := s.fresh + 1 }).cacheRead c k.loc (some s.hint)
      let lat := if (homeDpa k.loc).isSome then latLoad else latRemote
      t.post [(s.loadResult m d.toNat v lat).variable a (s.cycle + about) late]

def execLd (g : BitVec 3) (d base imm : BitVec 6) (m : ASize) (s : State) :=
  perform (.ld g d base imm m) s fun t => ldAt d m (t.addressLd base imm m.bytes) t

/-- R301, R157: LDR at an address; one that names another device is served as an LD of that device. -/
def ldrAt (d : BitVec 6) (m : ASize) (a : Nat) (s : State) : State :=
  if a % m.bytes ≠ 0 then s.misaligned a
  else match s.resolve s.slot.ctx .read false a with
    | .error r => s.trapWith r
    | .ok k =>
      let c := s.slot.ctx
      match homeDpa k.loc with
      | none => ({ s with fresh := s.fresh + 1 }).post [(s.loadResult m d.toNat (ofBytes (s.viewBytes c s.storeOrder k.ver k.loc m.bytes)) latRemote).variable a
          (s.cycle + latRemote) ((s.readFault c s.storeOrder k.loc m.bytes).map fun (r : Raised) => { r with pos := s.slot.pos, faddr := a })]
      | some dpa =>
        let late := (s.roError c dpa m.bytes).map fun r => { r with pos := s.slot.pos, faddr := a }
        let (b, t) := s.readOnlyBytes c dpa m.bytes
        t.post [(s.loadResult m d.toNat (ofBytes b) latLoad).variable a (s.cycle + 48) late]

def execLdr (g : BitVec 3) (d base imm : BitVec 6) (m : ASize) (s : State) :=
  perform (.ldr g d base imm m) s fun t => ldrAt d m (t.address base imm m.bytes) t

/-! ### LDS -/

/-- The physical offset of a scratchpad offset (R144). -/
def State.spadAt (s : State) (a : Nat) : Nat := s.cur.alloc.spbase + a

/-- Whether `n` bytes lie in the context's allocation (R144, R301). -/
def State.inSpad (s : State) (a n : Nat) : Bool := a + n ≤ s.cur.alloc.spad * 256

/-- R301: LDS at an offset; it reads scratchpad as it stood at the start of the cycle (R145). -/
def ldsAt (d : BitVec 6) (m : ASize) (a : Nat) (s : State) : State :=
  if a % m.bytes ≠ 0 then s.misaligned a
  else if !s.inSpad a m.bytes then s.beyondSpad a
  else
    let v := ofBytes (Memory.readN s.slot.spad (s.spadAt a) m.bytes)
    let t := { s with slot := { s.slot with ecc := s.slot.ecc || s.curCore.badAt (s.spadAt a) m.bytes } }
    t.post [{ s.loadResult m d.toNat v 6 with ea := a }]

def execLds (g : BitVec 3) (d base imm : BitVec 6) (m : ASize) (s : State) :=
  perform (.lds g d base imm m) s fun t => ldsAt d m (t.address base imm m.bytes) t

/-! ### PF -/

/-- R166: one more in a half of PFDROP, saturating. -/
def saturate32 (n : Nat) : Nat := if n + 1 < 2 ^ 32 then n + 1 else 2 ^ 32 - 1
def State.pfFaulted (s : State) (c : Nat) : State := s.updCtx c fun x => { x with pfFault := saturate32 x.pfFault }
def State.pfRefused (s : State) (c : Nat) : State := s.updCtx c fun x => { x with pfBusy := saturate32 x.pfBusy }

/-- R309: both sectors of a line into the L1, or the line into the cluster cache. -/
def State.prefetchLine (s : State) (c loc : Nat) (toCluster : Bool) : State :=
  match homeDpa loc with
  | none => s
  | some a =>
    let line := a / 256
    let t := if toCluster then s else
      s.updCore (s.l1Slice (coreOf c) line) fun k =>
        { k with l1 := l1Put k.fused (match k.l1.find? fun l => l.line == line with
            | some l => { l with sectors := 3 } | none => { line, sectors := 3 }) k.l1 }
    t.touchCluster (clusterOf (coreOf c)) line

/-- Whether a prefetch's request would start at once (R162): the waiting requests that may start come before it, and those that may
not take no walker from it. -/
def State.walkerFree (s : State) (w : Walk) : Bool := (s.startAll w.cluster s.walksWaiting.length).mayStart w

/-- R309: the prefetch of an address. -/
def pfAt (toCluster : Bool) (a : Nat) (s : State) : State :=
  let c := s.slot.ctx
  let x := s.cur
  if x.level = 2 then s else
  match s.aim x.part x.vpin .read a with
  | .trap .. => s.pfFaulted c
  | .remote =>
    let t := { s with fresh := s.fresh + 1 }
    if (refusalOf s.fresh a).isSome then t.pfFaulted c else t
  | .page key global =>
    match s.tlbFind (coreOf c) key.part key.region key.va with
    | some e => match e.grant key .read false global a with
      | .error _ => s.pfFaulted c
      | .ok r => s.prefetchLine c r.loc toCluster
    | none =>
      let k := clusterOf (coreOf c)
      let w : Walk := { who := .prefetch c (!toCluster) global, cluster := k, core := coreOf c, part := key.part
                        va := key.va, region := key.region }
      if s.walkerFree w then s.beginWalk w else s.pfRefused c

def execPf (g : BitVec 3) (base imm : BitVec 6) (cluster : Bool) (s : State) :=
  perform (.pf g base imm cluster) s fun t => pfAt cluster (t.address base imm 256) t

end Sys2Proof.Machine
end

