-- ==== Sys2Proof/Machine/Matrix.lean ====
section
/-! DEFINITION. The matrix array, class 9 (07 R130 to R139; 22 R342, R343), and the transpose engine, QPUSH and QPOP
(07 R141; 21 R313, R314). -/
namespace Sys2Proof.Machine

/-! ### Cells -/

/-- A function of every cell of a bank, from number `k` on, `n` cells; a cell that then holds the default is not listed.
The flag says whether any addition saturated. -/
def mapCells (f : Nat → Cell → Cell × Bool) : Nat → Nat → Tab Cell → Tab Cell × Bool
  | 0, _, _ => ([], false)
  | n + 1, k, t =>
    let (c, rest) : Cell × Tab Cell := match t with
      | (j, c) :: rest => if j = k then (c, rest) else ({}, t)
      | [] => ({}, [])
    let (d, sat) := f k c
    let (u, sats) := mapCells f n (k + 1) rest
    (if d = {} then u else (k, d) :: u, sat || sats)

/-- Every cell of a bank. -/
def Bank.map (b : Bank) (f : Nat → Cell → Cell × Bool) : Bank × Bool :=
  let r := mapCells f 8192 0 b.cells
  ({ b with cells := r.1 }, r.2)

/-- The signed value of an accumulator. -/
def Cell.value (c : Cell) : Int := c.acc.toInt

/-- R133, R139: an accumulator takes a value, saturating; the residue goes with it. -/
def Cell.put (c : Cell) (v : Int) (res : Nat) : Cell × Bool :=
  let top : Int := (2 ^ 47 - 1 : Nat)
  if top < v then ({ c with acc := BitVec.ofInt 48 top, res := BitVec.ofNat 4 (top % 15).toNat }, true)
  else if v < -top then ({ c with acc := BitVec.ofInt 48 (-top), res := BitVec.ofNat 4 (-top % 15).toNat }, true)
  else ({ c with acc := BitVec.ofInt 48 v, res := BitVec.ofNat 4 (res % 15) }, false)

def MatrixArray.bank (a : MatrixArray) (b : Bool) : Bank := if b then a.bank1 else a.bank0
def MatrixArray.setBank (a : MatrixArray) (b : Bool) (x : Bank) : MatrixArray :=
  if b then { a with bank1 := x } else { a with bank0 := x }

/-! ### The block product (R131, R132, R137) -/

/-- Sign and exponent of a ply-0 nibble, as three bits. -/
def nibbleAttr (n : Nat) : Nat := n / 2 % 8
/-- The attributes of the eight nibbles of a block. -/
def blockAttr (w : Nat) : Nat := ofLanes 3 ((lanes w 4 8).map nibbleAttr)

/-- A digit with its sign and its power of two: the term that an element brings (R132). -/
def digitTerm (ply nib attr : Nat) : Int :=
  let e := attr % 4
  let d := if ply = 0 then (if e > 0 then 2 else 0) + nib % 2 else nib
  let v : Nat := d * 2 ^ (max e 1 - 1)
  if attr / 4 % 2 = 1 then -(v : Int) else v

/-- The eight terms of one block: `w` holds its nibbles, `attr` its recorded attributes. -/
def blockTerms (ply w attr : Nat) : List Int :=
  List.zipWith (digitTerm ply) (lanes w 4 8) (if ply = 0 then (lanes w 4 8).map nibbleAttr else lanes attr 3 8)

/-- σ × 2^x of a scale code. -/
def scaleTerm (c : Nat) : Nat := (32 + c % 32) * 2 ^ (c / 32)

/-- The sum of the products of two blocks. -/
def dotTerms (a b : List Int) : Int := (List.zipWith (· * ·) a b).foldl (· + ·) 0

/-- One side of a beat: for each row or column the terms and the scale code. -/
def beatSide (ply n w scales : Nat) (attr : Nat → Nat) : List (List Int × Nat) :=
  (List.range n).map fun r => (blockTerms ply (lane w r 32) (attr r), lane scales r 8)

/-- R132, R133, R136: one beat over a bank. -/
def Bank.push (b : Bank) (as bs : Array (List Int × Nat)) : Bank × Bool :=
  b.map fun k c =>
    let (ta, sa) := as.getD (k / 64) ([], 0)
    let (tb, sb) := bs.getD (k % 64) ([], 0)
    if sa = 0xFF || sb = 0xFF then ({ c with poison := true }, false)
    else
      let n : Int := (scaleTerm sa * scaleTerm sb : Nat) * dotTerms ta tb
      c.put (c.value + n) (c.res.toNat + (n % 15).toNat)

/-- R136: the attributes of a pass of ply 0. -/
def recordAttr (t : Tab Nat) (beat n w : Nat) : Tab Nat :=
  (List.range n).foldl (fun t r => Tab.set 0 t (64 * r + beat) (blockAttr (lane w r 32))) t

/-- R136: XPUSH on the array, with its four operands; whether an addition saturated. -/
def MatrixArray.push (m : MatrixArray) (a b sa sb : Nat) : MatrixArray × Bool :=
  let k := m.bank m.cur
  let aAttr := if k.i = 0 && m.beat ≤ 63 then recordAttr m.aAttr m.beat 128 a else m.aAttr
  let bAttr := if k.j = 0 && m.beat ≤ 63 then recordAttr m.bAttr m.beat 64 b else m.bAttr
  let as := (beatSide k.i 128 a sa fun r => Tab.get 0 aAttr (64 * r + m.beat)).toArray
  let bs := (beatSide k.j 64 b sb fun c => Tab.get 0 bAttr (64 * c + m.beat)).toArray
  let (k', sat) := k.push as bs
  ({ m.setBank m.cur k' with aAttr, bAttr, beat := m.beat + 1 }, sat)

/-- R136: XACC. -/
def MatrixArray.accumulate (m : MatrixArray) (b : Bool) : MatrixArray × Bool :=
  let o := m.bank !b
  let (k, sat) := (m.bank b).map fun n c =>
    let d := Tab.get {} o.cells n
    let (e, s) := c.put (c.value + d.value) (c.res.toNat + d.res.toNat)
    ({ e with poison := c.poison || d.poison }, s)
  ((m.setBank b k).setBank (!b) { o with cells := [] }, sat)

/-- R136: XSHIFT. -/
def MatrixArray.shift (m : MatrixArray) (b : Bool) : MatrixArray × Bool :=
  let (k, sat) := (m.bank b).map fun _ c => c.put (16 * c.value) c.res.toNat
  (m.setBank b k, sat)

/-! ### The syllables -/

/-- A syllable's effect on the array with flags known `lat` cycles after issue; an enabled flag leaves the array as it was
(R138, R343). -/
def State.arrayEffect (s : State) (fl : Flags) (lat : Nat) (f : State → State) : State :=
  let x := s.cur
  if fl &&& x.trapMask = 0 then
    (f s).updCur fun y =>
      { y with
        usedX := true
        flagsDue := if fl = 0 then y.flagsDue
          else { due := y.count + lat, seq := y.seq, fslot := s.slot.fslot, baddr := s.slot.baddr, pos := s.slot.pos, flags := fl } :: y.flagsDue }
  else s.raiseEnabled fl x.trapMask lat

def State.setArray (s : State) (m : MatrixArray) : State := s.updCurCore fun k => { k with arr := m }

/-- A member of the mould that can saturate. -/
def State.saturating (s : State) (r : MatrixArray × Bool) : State :=
  s.arrayEffect (if r.2 then flAOV else 0) 1 fun t => t.setArray r.1

def xcfgBody (bank : Bool) (pa pb : BitVec 2) (dexp : BitVec 8) (s : State) : State :=
  let m := s.curCore.arr
  let k := { m.bank bank with i := pa.toNat, j := pb.toNat, dexp := dexp.toInt, drain := 0 }
  s.arrayEffect 0 0 fun t => t.setArray { m.setBank bank k with cur := bank, beat := 0 }

def execXcfg (g : BitVec 3) (bank : Bool) (pa pb : BitVec 2) (dexp : BitVec 8) (s : State) :=
  perform (.xcfg g bank pa pb dexp) s (xcfgBody bank pa pb dexp)

/-- R131, R136: the four pops and the beat. A pop of a word with an uncorrectable error adds nothing (R156). -/
def xpushBody (s : State) : State :=
  let op := fun n => match s.port n with | .ok v => v | .error _ => 0
  if s.slot.ecc then { s.raise .dataError with slot := { (s.raise .dataError).slot with ecc := false } }
  else s.saturating (s.curCore.arr.push (op 0) (op 1) (op 2) (op 3))

def execXpush (g : BitVec 3) (s : State) := perform (.xpush g) s xpushBody

def execXacc (g : BitVec 3) (bank : Bool) (s : State) :=
  perform (.xacc g bank) s fun t => t.saturating (t.curCore.arr.accumulate bank)

def execXshift (g : BitVec 3) (bank : Bool) (s : State) :=
  perform (.xshift g bank) s fun t => t.saturating (t.curCore.arr.shift bank)

/-- R134: a cell of a bank as FP32. -/
def Bank.drainCell (b : Bank) (c : Cell) : Nat × Flags :=
  if c.poison then (0x7FC00000, 0)
  else
    let v := c.value
    fp32.roundNum false .rne false (v < 0) v.natAbs (b.dexp - 18 - 4 * (b.i + b.j))

/-- The chunks that the next operand of w0 writes: their offsets, or the trap of the first that is misaligned or leaves
the allocation (R311). -/
def drainChunks (w : Walker) (al : Alloc) (first : Nat) : Nat → Except Raised (List Nat)
  | 0 => .ok []
  | n + 1 =>
    match spadOperand w al [] first 1 with
    | .error e => .error e
    | .ok _ => match drainChunks w al (first + 1) n with
      | .error e => .error e
      | .ok l => .ok ((w.addr first).toNat :: l)

/-- R136, R138, R139: XDRAIN. Of its causes the lowest is reported (R227): a chunk that traps, an enabled flag, a residue that differs. -/
def xdrainBody (bank : Bool) (s : State) : State :=
  let m := s.curCore.arr
  let b := m.bank bank
  let w := Tab.get {} s.cur.ports 4
  let per := 512 / 2 ^ w.clog
  let cells := (List.range 128).map fun k => Tab.get {} b.cells (64 * b.drain + k)
  match drainChunks w s.cur.alloc (w.popped * per) per with
  | .error r => s.raise r.cause r.cond r.faddr
  | .ok offs =>
    let y := cells.map b.drainCell
    let fl := orFlags (y.map Prod.snd)
    let differs := cells.any fun c => !c.poison && (c.value % 15).toNat ≠ c.res.toNat
    if differs && fl &&& s.cur.trapMask = 0 then s.raise .dataError (cond := 1)
    else
      let data := bytesOf 512 (ofLanes 32 (y.map Prod.fst))
      let z := 2 ^ w.clog
      let out := offs.zipIdx.flatMap fun (a, k) => cellsAt (s.cur.alloc.spbase + a) ((data.drop (z * k)).take z)
      s.arrayEffect fl 11 fun t =>
        let cleared := (List.range 128).foldl (fun u k => Tab.set {} u (64 * b.drain + k) {}) b.cells
        let t := t.setArray (m.setBank bank { b with cells := cleared, drain := (b.drain + 2) % 128 })
        let t := t.updCur fun x => { x with ports := Tab.upd {} x.ports 4 Walker.pop }
        t.updCurCore fun k => { k with drains := k.drains ++ [{ ctx := s.slot.ctx, at_ := s.cur.count + 12, data := out }] }

def execXdrain (g : BitVec 3) (bank : Bool) (s : State) := perform (.xdrain g bank) s (xdrainBody bank)

/-- Some drains reach scratchpad, under the STS of the cycle (09 R145). -/
def CoreSt.drainNow (k : CoreSt) (which : DrainWrite → Bool) : CoreSt :=
  let cells := ((k.drains.filter which).flatMap DrainWrite.data).filter fun b => !k.stored.contains b.1
  { k with
    spad := Memory.writeAll k.spad cells
    drained := cells.map Prod.fst ++ k.drained
    drains := k.drains.filter fun d => !which d }

/-- The drains of a context whose schedule cycle `n` passes reach scratchpad (R138): when the bundle of that count has issued,
or in that cycle of a FLIP wait, so that a bundle that stalls at the count still reads what stood before. DESIGN CHOICE (log
entry 65): a drain whose cycle would come after the context's last RETIRE has exchanged is never written. -/
def State.landDrains (s : State) (c n : Nat) : State :=
  let due := fun (d : DrainWrite) => d.ctx == c && d.till.isNone && d.at_ ≤ n
  if (s.core (coreOf c)).drains.any due then s.updCore (coreOf c) fun k => k.drainNow due else s

/-- Between two tasks the schedule goes on without turns: the drains of its next cycles get a device cycle (03 R53). -/
def State.timeDrains (s : State) (c f : Nat) : State :=
  let due := fun (d : DrainWrite) => d.ctx == c && d.till.isNone && d.at_ ≤ f + 3
  if (s.core (coreOf c)).drains.any due then
    s.updCore (coreOf c) fun k =>
      { k with drains := k.drains.map fun d => if due d then { d with till := some (s.cycle + (d.at_ - f)) } else d }
  else s

/-! ### The transpose engine (R141) -/

/-- Element bits of QPUSH. -/
def qsizeBits : QSize → Nat
  | .q8 => 8 | .q16 => 16 | .q32 => 32

/-- R141, R314. -/
def qpushBody (d : BitVec 6) (z : QSize) (s : State) : State :=
  let n := qsizeBits z
  let row := s.vb d.toNat % 2 ^ (32 * n)
  let tiles := s.curCore.tiles
  let join := fun (t : Tile) =>
    { t with rows := t.rows ++ [row], last := if t.rows.length = 31 then s.cycle else t.last }
  match tiles.getLast? with
  | some t =>
    if t.rows.length < 32 then
      if t.size ≠ n then s.raise .illegalOperand
      else s.updCurCore fun k => { k with tiles := tiles.dropLast ++ [join t] }
    else if tiles.length = 2 then s.raise .queueOverflow
    else s.updCurCore fun k => { k with tiles := tiles ++ [join { size := n }] }
  | none => s.updCurCore fun k => { k with tiles := [join { size := n }] }

def execQpush (g : BitVec 3) (d : BitVec 6) (z : QSize) (s : State) :=
  perform (.qpush g d z) s fun t => t.unlessBad (qpushBody d z)

/-- R141: row `k` of a transposed tile. -/
def Tile.row (t : Tile) (k : Nat) : Nat := ofLanes t.size (t.rows.map fun r => lane r k t.size)

/-- The tiles once a row of the front one has been popped. -/
def Tile.afterPop (t : Tile) (rest : List Tile) : List Tile :=
  if t.popped = 31 then rest else { t with popped := t.popped + 1 } :: rest

/-- The QPOPs of a bundle that the 48 cycles after the last push of the tile that each reaches hold back (R141): their
positions. A QPOP that traps pops nothing. -/
def popStalls (cycle : Nat) : List Tile → List (Nat × ASize) → List Nat
  | _, [] => []
  | tiles, (p, m) :: l =>
    match tiles with
    | t :: rest =>
      if t.rows.length ≠ 32 || 32 * t.size ≠ 8 * m.bytes then popStalls cycle tiles l
      else (if cycle < t.last + 48 then [p] else []) ++ popStalls cycle (t.afterPop rest) l
    | [] => []

/-- R141, R313: a QPOP that traps, by being the 65th result too (16 R231), takes no row. -/
def qpopBody (d : BitVec 6) (m : ASize) (s : State) : State :=
  match s.curCore.tiles with
  | [] => s.raise .illegalOperand
  | t :: rest =>
    if t.rows.length ≠ 32 || 32 * t.size ≠ 8 * m.bytes then s.raise .illegalOperand
    else
      let v := t.row t.popped
      let u := s.post [{
        file := destFile s .v d.toNat, reg := d.toNat, ben := BitVec.ofNat 128 (s.ben (8 * m.bytes) 8)
        val := BitVec.ofNat 1024 v, unit := s.slot.unit, lval := BitVec.ofNat 1024 v, due := s.cur.count + 6 }]
      if u.slot.raised.length = s.slot.raised.length then
        u.updCurCore fun k => { k with tiles := t.afterPop rest }
      else u

def execQpop (g : BitVec 3) (d : BitVec 6) (m : ASize) (s : State) := perform (.qpop g d m) s (qpopBody d m)

end Sys2Proof.Machine
end

