-- ==== Sys2Proof/Machine/Deviation.lean ====
section
/-! DEFINITION. Deviation records (18 R241 to R243): a ring in memory for each core. -/
namespace Sys2Proof.Machine

/-- Bytes of a ring whose base register is given. -/
def ringSize (base : Word64) : Nat := 2 ^ (12 + bits base.toNat 3 0)
/-- The device physical address of a ring. -/
def ringBase (base : Word64) : Nat := bits base.toNat 38 12 * 4096

/-- The ring has no room for one more record. -/
def CoreSt.ringFull (k : CoreSt) : Bool := (k.dvHead + 16) % ringSize k.dvBase == k.dvTail % ringSize k.dvBase
/-- Bytes of unread records (R245). -/
def CoreSt.ringFill (k : CoreSt) : Nat := (k.dvHead + ringSize k.dvBase - k.dvTail % ringSize k.dvBase) % ringSize k.dvBase

/-- The sixteen bytes of a record (R241). -/
def Dev.bytes (d : Dev) (ctx : Nat) : List Byte :=
  bytesOf 8 (d.cause * 2 ^ 60 + ctx * 2 ^ 59 + d.baddr / 16 % 2 ^ 44 * 16 + d.pos % 16)
    ++ bytesOf 8 (d.start % 2 ^ 32 * 2 ^ 32 + min d.cyc (2 ^ 32 - 1))

/-- Sixteen bytes written at DVHEAD, as a device commit. -/
def State.ringWrite (s : State) (core : Nat) (b : List Byte) : State :=
  let k := s.core core
  (s.deviceCommit .device (cellsAt (ringBase k.dvBase + k.dvHead) b)).updCore core fun k =>
    { k with dvHead := (k.dvHead + 16) % ringSize k.dvBase }

/-- The Lost record of R242; what it says of a context and a start is free (log entry 5). -/
def State.lostRecord (s : State) (core : Nat) : State :=
  let free := ofBytes ((List.range 5).map fun i => Config.freeByte (s.fresh + i))
  let d : Dev := { start := free, cyc := (s.core core).dvLost }
  ({ s with fresh := s.fresh + 5 }.ringWrite core (d.bytes (free / 2 ^ 32 % 2))).updCore core fun k => { k with dvLost := 0 }

/-- A record that cannot be written is dropped and counted. -/
def State.dropRecord (s : State) (core : Nat) : State := s.updCore core fun k => { k with dvLost := k.dvLost + 1 }

/-- R243: a record of a core, for its kernel context `ctx`. -/
def State.putRecord (s : State) (core ctx : Nat) (d : Dev) : State :=
  let part := ((s.cluster (clusterOf core)).part.map fun p => s.part p).getD {}
  let k := s.core core
  if !part.gate then s
  else if !k.dvEn || k.dvFrz || k.ringFull then s.dropRecord core
  else if k.dvLost = 0 then s.ringWrite core (d.bytes ctx)
  else
    let t := s.lostRecord core
    if (t.core core).ringFull then t.dropRecord core else t.ringWrite core (d.bytes ctx)

/-- R242: one cycle lost by a context to a cause at a slot operation. -/
def State.lose (s : State) (c cause baddr pos : Nat) : State :=
  s.updCtx c fun x =>
    let same := fun (d : Dev) => d.cause == cause && d.baddr == baddr && d.pos == pos
    if x.devs.any same then
      { x with devs := x.devs.map fun d => if same d then { d with cyc := d.cyc + 1, upto := s.cycle } else d }
    else { x with devs := x.devs ++ [{ cause, baddr, pos, start := x.count, cyc := 1, upto := s.cycle }] }

/-- The records of a context that this cycle has not continued are written. -/
def State.endRecords (s : State) (c : Nat) : State :=
  let x := s.ctx c
  let ended := x.devs.filter fun d => d.upto != s.cycle
  if ended.isEmpty then s else
  ended.foldl (fun t d => t.putRecord (coreOf c) (c % 2) d)
    (s.setCtx c { x with devs := x.devs.filter fun d => d.upto == s.cycle })

end Sys2Proof.Machine
end

