-- ==== Sys2Proof/Machine/Place.lean ====
section
/-! DEFINITION. Where logical clusters and cores stand on the die (03 R50; 01 R344) and the launch descriptor (03 R47, R49,
R51). -/
namespace Sys2Proof.Machine

/-- The launch descriptor's fields (R47). -/
structure Desc where
  words  : List Nat
  deriving DecidableEq, Repr

def Desc.w (d : Desc) (k : Nat) : Nat := d.words.getD k 0
def Desc.prio (d : Desc) : Nat := bits (d.w 0) 59 56
def Desc.depth (d : Desc) : Nat := bits (d.w 0) 55 53
def Desc.narg (d : Desc) : Nat := bits (d.w 0) 52 48
def Desc.entry (d : Desc) : Nat := bits (d.w 0) 47 0
def Desc.fixed (d : Desc) : Bool := bitAt (d.w 1) 44
def Desc.orgy (d : Desc) : Nat := bits (d.w 1) 43 41
def Desc.orgx (d : Desc) : Nat := bits (d.w 1) 40 39
def Desc.rangeH (d : Desc) : Nat := bits (d.w 1) 38 36 + 1
def Desc.rangeW (d : Desc) : Nat := bits (d.w 1) 35 34 + 1
def Desc.barr (d : Desc) : Nat := bits (d.w 1) 29 28
/-- Contexts for each core. -/
def Desc.perCore (d : Desc) : Nat := bits (d.w 1) 27 27 + 1
def Desc.fuse (d : Desc) : Bool := bitAt (d.w 1) 26
def Desc.sym (d : Desc) : Nat := bits (d.w 1) 25 22
def Desc.stages (d : Desc) : Nat := bits (d.w 1) 21 18 + 1
def Desc.perm (d : Desc) (j : Nat) : Nat := bits (d.w 1) 17 0 / 2 ^ (3 * j) % 8
/-- Extent of a level. -/
def Desc.extent (d : Desc) (l : Nat) : Nat :=
  (if l < 4 then lane (d.w 2) l 16 else if l = 4 then bits (d.w 3) 15 0 else bits (d.w 3) 31 16) + 1
def Desc.ecnt (d : Desc) : Nat := bits (d.w 3) 49 44
def Desc.vcnt (d : Desc) : Nat := bits (d.w 3) 43 38
/-- SCNT, the number of s-registers minus 1. -/
def Desc.scnt (d : Desc) : Nat := bits (d.w 3) 37 32
def Desc.spad (d : Desc) : Nat := bits (d.w 4) 11 0
def Desc.args (d : Desc) : List Nat := (d.words.drop 5).take d.narg

/-- A kernel's descriptor. -/
def Kernel.d (k : Kernel) : Desc := { words := k.desc.map BitVec.toNat }

/-! ### The walk (R49) -/

/-- Tiles of the sequence. -/
def Desc.tiles (d : Desc) : Nat := (List.range d.depth).foldl (fun a l => a * d.extent l) 1

/-- TC0 to TC5 of an ordinal: level positions from the innermost on. -/
def Desc.coords (d : Desc) : Nat → Nat → Tab Nat → Tab Nat
  | 0, _, t => t
  | j + 1, m, t =>
    let l := d.perm j
    d.coords j (m / d.extent l) (Tab.set 0 t l (m % d.extent l))

/-- TC0 to TC5 of tile ordinal `n`. -/
def Desc.tileCoord (d : Desc) (n : Nat) : Tab Nat := d.coords d.depth n []

/-! ### Symmetries (R50) -/

/-- The width and the height after a symmetry. -/
def symSize (sym w h : Nat) : Nat × Nat := if bitAt sym 2 then (h, w) else (w, h)

/-- A point of a w × h rectangle under a symmetry. -/
def symPoint (sym w h : Nat) (x y : Nat) : Nat × Nat :=
  let (w', h') := symSize sym w h
  let (x, y) := if bitAt sym 2 then (y, x) else (x, y)
  (if bitAt sym 0 then w' - 1 - x else x, if bitAt sym 1 then h' - 1 - y else y)

/-- The physical cluster of logical cluster `n` of a kernel. -/
def Kernel.physCluster (k : Kernel) (n : Nat) : Nat :=
  let w := k.d.rangeW
  let p := symPoint k.sym w k.d.rangeH (n % w) (n / w)
  4 * (k.orgy + p.2) + k.orgx + p.1

/-- The number within its cluster of the core at logical position (lx, ly). -/
def Kernel.physCore (k : Kernel) (lx ly : Nat) : Nat :=
  let p := symPoint k.sym 4 4 lx ly
  4 * p.2 + p.1

/-- PCORE of the core at a logical cluster and position. -/
def Kernel.pcore (k : Kernel) (n lx ly : Nat) : Nat := 16 * k.physCluster n + k.physCore lx ly

/-- Core hops between two cores of one cluster. -/
def hops (a b : Nat) : Nat :=
  let d := fun (x y : Nat) => if x < y then y - x else x - y
  d (a % 4) (b % 4) + d (a / 4 % 4) (b / 4 % 4)

end Sys2Proof.Machine
end

