-- ==== Sys2Proof/Machine/System.lean ====
section
/-! DEFINITION. Class 11 (04 R88, R89): CSRR, CSRW, FLAGS (20 R279 to R282, R295), VERSW and VERPUB (14 R213 to R215;
22 R332, R333), QARM (21 R310) and the fetching of global port walks (21 R311). -/
namespace Sys2Proof.Machine

/-! ### CSRs -/

/-- The bits of a CSR that are not reserved (R6; R107, R112, R207, R214, R281, R33). -/
def csrMask (n : Nat) : Nat :=
  if n = csrFrm then 3
  else if n = csrHvec then 2 ^ 48 - 16
  else if n = csrFlgen then 0x13F
  else if n = csrPstat then 1
  else if n = csrDwrec then 0xFF00FFFFFFFFFFFF
  else if n = csrFevt then 0x8007FFFFFFFFFFFF
  else if csrFlg ≤ n && n ≤ csrFlg + 8 then 0x3F
  else if csrPw ≤ n && n ≤ csrPw + 3 then 2 ^ 48 - 256
  else if n = csrVpin then 0xFFFF
  else 2 ^ 64 - 1

/-- A live CSR at its issue cycle (R280, R281, R46, R166, R216). -/
def State.live (s : State) (n : Nat) : Nat :=
  let c := s.slot.ctx
  let x := s.cur
  if n = 0x080 then s.cycle - x.birth.getD s.cycle
  else if n = 0x081 then x.count
  else if n = 0x082 then x.phase
  else if n = 0x088 then x.pfBusy * 2 ^ 32 + x.pfFault
  else if 0x090 ≤ n && n ≤ 0x095 then (Tab.get 0 x.lidx (n - 0x090)).toNat
  else if 0x100 ≤ n && n ≤ 0x105 then Tab.get 0 x.tc (n - 0x100)
  else if n = 0x108 then x.share.lcorex
  else if n = 0x109 then x.share.lcorey
  else if n = 0x10A then x.share.lcore
  else if n = 0x10B then x.share.lclu
  else if n = 0x10C then c % 2
  else if n = 0x10D then x.share.lpart
  else if n = 0x10E then x.share.stage
  else if n = 0x10F then x.share.nstage
  else if n = 0x110 then coreOf c
  else x.alloc.spbase

/-- R279. -/
def csrrBody (d : BitVec 6) (n : Nat) (s : State) : State :=
  s.putScalar .s d.toNat (if csrClass n = some .live then s.live n else (s.cur.csrV n).toNat) 1

def execCsrr (g : BitVec 3) (d : BitVec 6) (csr : BitVec 13) (s : State) :=
  perform (.csrr g d csr) s (csrrBody d csr.toNat)

/-- A write of a CSR's hidden face, landing `lat` cycles after issue. -/
def csrResult (s : State) (n v lat : Nat) : Result :=
  { file := .csr, reg := n, ben := 0xFF, val := BitVec.ofNat 1024 v, due := s.cur.count + lat }

/-- R282; writes of reserved bits are ignored (R6). -/
def csrwBody (a : BitVec 6) (n : Nat) (s : State) : State := s.post [csrResult s n (s.sa a.toNat &&& csrMask n) 1]

def execCsrw (g : BitVec 3) (src : BitVec 6) (csr : BitVec 13) (s : State) :=
  perform (.csrw g src csr) s (csrwBody src csr.toNat)

/-- The flags of one slot as they stand (R295). -/
def Ctx.flagsOf (x : Ctx) (k : Nat) : Nat := (x.csrH (csrFlg + k)).toNat % 64

/-- R295; with C the slot's hidden face is set to 0 at the start of cycle 1. -/
def flagsBody (d : BitVec 6) (clear : Bool) (k : Nat) (s : State) : State :=
  let v := if k = 15 then (List.range 9).foldl (fun a j => a ||| s.cur.flagsOf j) 0 else s.cur.flagsOf k
  let r : Result :=
    { file := destFile s .s d.toNat, reg := d.toNat, ben := 0xFF, val := BitVec.ofNat 1024 v, due := s.cur.count + 1 }
  s.post (r :: if clear then [csrResult s (csrFlg + k) 0 1] else [])

def execFlags (g : BitVec 3) (d : BitVec 6) (clear : Bool) (slot : BitVec 4) (s : State) :=
  perform (.flags g d clear slot) s (flagsBody d clear slot.toNat)

/-! ### Versions -/

/-- The region bound to a partition (R332): the lowest that names it as LPART or in RMASK. -/
def State.boundRegion (s : State) (p : Nat) : Option Nat :=
  (List.range 8).find? fun r => match s.region r with
    | some g => g.lpart == p || bitAt g.rmask p
    | none => false

/-- The request of a VERSW or VERPUB leaves for the device point of coherence; its result waits for the step. -/
def versionRequest (pub : Bool) (named : Option Nat) (r : Result) (s : State) : State :=
  let t := s.post [{ r with isVar := true, ready := false }]
  if t.slot.raised.length = s.slot.raised.length then
    { t with verReqs := t.verReqs ++ [{
        ctx := s.slot.ctx, pub, named, res := s.cur.seq * 64 + s.slot.pos * 4, issued := s.cycle }] }
  else t

def verswBody (named : Option Nat) (s : State) : State :=
  versionRequest false named (csrResult s csrVpin 0 latAtomDevice) s

def execVersw (g : BitVec 3) (s : State) := perform (.versw g) s (verswBody none)
def execVerswNamed (g : BitVec 3) (src : BitVec 6) (s : State) :=
  perform (.verswNamed g src) s fun t => verswBody (some ((t.cur.readS src.toNat).toNat % 2 ^ 16)) t

def verpubBody (d : BitVec 6) (s : State) : State :=
  versionRequest true none
    { file := destFile s .s d.toNat, reg := d.toNat, ben := 0xFF, due := s.cur.count + latAtomDevice
      at_ := s.cycle, clocked := some (s.cycle + latAtomDevice) } s

def execVerpub (g : BitVec 3) (d : BitVec 6) (s : State) := perform (.verpub g d) s (verpubBody d)

/-! ### QARM (R310) -/

/-- The signed stride of a level. -/
def walkStride (w : Nat) : Int := toSigned 32 w

/-- The walker that eight staging registers arm on a port, if they are legal. -/
def walkerOf (port : Nat) (e : List Nat) : Option Walker :=
  let d := e.headD 0
  let nl := bits d 62 60
  let clog := bits d 59 56
  let opw := bits d 55 54
  let levels := (e.drop 1).take 6
  let w : Walker :=
    { armed := true, glob := bitAt d 63, nl, clog, opw, start := d % 2 ^ 48
      counts := levels.map fun l => bits l 47 32, strides := levels.map walkStride }
  let operand := portBytes port / 2 ^ opw
  if bits d 53 48 ≠ 0 || (levels.any fun l => bits l 63 48 ≠ 0) || e.getD 7 0 ≠ 0 || 2 ≤ opw || 6 ≤ nl
      || operand < 2 ^ clog || (bitAt d 63 && 4 ≤ port) || w.chunks % (operand / 2 ^ clog) ≠ 0 then none
  else some w

/-- The staging registers e(b) to e(b+7). -/
def Ctx.staging (x : Ctx) (b : Nat) : List Word64 := (List.range 8).map fun k => x.readE (b + k)

def qarmBody (port : BitVec 3) (b : BitVec 5) (s : State) : State :=
  match walkerOf port.toNat ((s.cur.staging b.toNat).map BitVec.toNat) with
  | none => s.raise .illegalOperand
  | some w => s.updCur fun x => { x with ports := Tab.set {} x.ports port.toNat { w with from_ := s.cycle + 1 } }

def execQarm (g : BitVec 3) (port : BitVec 3) (base : BitVec 5) (s : State) :=
  perform (.qarm g port base) s (qarmBody port base)

/-! ### Global walks (R311) -/

/-- The state in which the chunks of a walk are translated: the walks that have failed for its operand are known. -/
def State.portSees (s : State) (c : Nat) (w : Walker) : State := s.updCtx c fun x => { x with walked := w.walked }

/-- The chunks of an operand read through the view of context `c` at place `o` of its order of issue, from chunk `first` on. -/
def State.globalChunks (s : State) (c o : Nat) (w : Walker) (first : Nat) : Nat → Except Raised (List Byte)
  | 0 => .ok []
  | n + 1 =>
    let a := ofSigned 64 (w.addr first)
    let z := 2 ^ w.clog
    if a % z ≠ 0 then .error { cause := .translation, cond := 2, faddr := a }
    else match s.resolve c .read false a with
      | .error r => .error r
      | .ok k => match s.readError c o k.loc z with
        | some r => .error { r with faddr := a }
        | none => match s.globalChunks c o w (first + 1) n with
          | .error r => .error r
          | .ok rest => .ok (s.viewBytes c o k.ver k.loc z ++ rest)

/-- The sectors of the chunks of an operand fill the L1 (09 R149). -/
def State.fillChunks (s : State) (c : Nat) (w : Walker) (first n : Nat) : State :=
  (List.range n).foldl (fun t i => match (s.portSees c w).resolve c .read false (ofSigned 64 (w.addr (first + i))) with
    | .ok k => (sectorsOf k.loc (2 ^ w.clog)).foldl (fun t a => (t.cacheRead c a none).1) t
    | .error _ => t) s

/-- Chunks of an operand on a port. -/
def Walker.perOperand (w : Walker) (n : Nat) : Nat := w.operandBytes n / 2 ^ w.clog

/-- Operand number `k` of a global walk on port `n`, as it reads at place `o` of the context's order of issue. -/
def State.globalOperand (s : State) (c o n k : Nat) (w : Walker) : Except Raised Nat :=
  match (s.portSees c w).globalChunks c o w (k * w.perOperand n) (w.perOperand n) with
  | .ok b => .ok (ofBytes b)
  | .error r => .error r

/-- The first page of operand `k` that the TLBs lack (09 R161). -/
def State.portMissing (s : State) (c n k : Nat) (w : Walker) : Option PageKey :=
  (List.range (w.perOperand n)).findSome? fun i =>
    let a := ofSigned 64 (w.addr (k * w.perOperand n + i))
    if a % 2 ^ w.clog = 0 then (s.portSees c w).pageMissing c .read a else none

/-- An operand fetched ahead, as it reads now. -/
def State.refetch (s : State) (c o n k : Nat) (w : Walker) (f : Fetched) : Fetched :=
  match s.globalOperand c o n k w with
  | .ok v => { f with here := true, val := v, fault := none }
  | .error r => { f with here := true, val := 0, fault := some r }

/-- Whether a context stands in its place on the core from its start on: between two tasks and while a trap has stopped it too. -/
def Run.placed : Run → Bool
  | .running | .between _ | .finishing | .stopping | .stopped => true
  | _ => false

/-- Whether a port fetches its next operand in this cycle: one every four cycles, at most eight unpopped. -/
def State.canFetch (s : State) (c n : Nat) : Bool :=
  let x := s.ctx c
  let w := Tab.get {} x.ports n
  x.run.placed && w.armed && w.glob && n < 4 && w.ahead.length < 8 && w.ahead.length < w.left n && w.from_ ≤ s.cycle
    && (match w.lastFetch with | some t => t + 4 ≤ s.cycle | none => true)

def State.doFetch (s : State) (c n : Nat) : State :=
  s.updCtx c fun x => { x with ports := Tab.upd {} x.ports n fun w =>
    { w with ahead := w.ahead ++ [{ began := s.cycle }], lastFetch := some s.cycle } }

def execPortOperandFetch (c port : Nat) (s : State) := event (s.canFetch c port) (s.doFetch c port)

/-- The place of the first operand of a port that has not arrived, if it may arrive in this cycle: at the locked level
160 cycles after its fetch began, below it unless it waits for the walk of a page. -/
def State.arriving (s : State) (c n : Nat) : Option Nat :=
  let w := Tab.get {} (s.ctx c).ports n
  match w.ahead.findIdx? fun f => !f.here with
  | none => none
  | some k =>
    if (s.ctx c).level = 2 then (if s.cycle < (w.ahead.getD k {}).began + 160 then none else some k)
    else if (s.walks ++ s.walksWaiting).any fun v => v.who == .port c n then none else some k

/-- A page enters a core's TLB at once, if its walk succeeds. -/
def State.fillPage (s : State) (core : Nat) (key : PageKey) : State :=
  match s.walk key.part key.region key.va with
  | .ok e => { s with fresh := s.fresh + 1 }.updCore core fun k => { k with tlb := tlbPut 256 e k.tlb s.fresh }
  | .error _ => s

/-- The pages of an operand of the locked level are in the core's TLB when it arrives (log entry 56). -/
def State.fillPort (s : State) (c n k : Nat) (w : Walker) : State :=
  (List.range (w.perOperand n)).foldl (fun t _ => match t.portMissing c n k w with
    | some key => t.fillPage (coreOf c) key
    | none => t) s

/-- Operand `k` of a walk arrives: its bytes as they read now, and the sectors that they fill. -/
def State.arriveAt_ (s : State) (c n k : Nat) : State :=
  let w := Tab.get {} (s.ctx c).ports n
  (s.fillChunks c w ((w.popped + k) * w.perOperand n) (w.perOperand n)).updCtx c fun x => { x with ports := Tab.upd {} x.ports n fun w =>
    { w with ahead := w.ahead.modify k (s.refetch c ((s.ctx c).seq * 16 + 16) n (w.popped + k) w), walked := [] } }

/-- An operand whose page no TLB holds requests a walk below the locked level (09 R161); one whose pages are there arrives. -/
def State.doArrive (s : State) (c n : Nat) : State :=
  match s.arriving c n with
  | none => s
  | some k =>
    let w := Tab.get {} (s.ctx c).ports n
    if (s.ctx c).level = 2 then (s.fillPort c n (w.popped + k) w).arriveAt_ c n k
    else match s.portMissing c n (w.popped + k) w with
      | some key => { s with walksWaiting := s.walksWaiting ++ [{
          who := .port c n, cluster := clusterOf (coreOf c), core := coreOf c, part := key.part, va := key.va, region := key.region
          since := s.cycle }] }
      | none => s.arriveAt_ c n k

def execPortOperandAvailable (c port : Nat) (s : State) := event (s.arriving c port).isSome (s.doArrive c port)

end Sys2Proof.Machine
end

