-- ==== Sys2Proof/Machine/Zstd.lean ====
section
/-! DEFINITION. The blocks of a Zstandard frame, its content checksum and its dictionaries (12 R197, R198), which the spec takes
from RFC 8878. PRESUMED (log entry 10): the RFC's own tables and rules come from outside the spec's files. A malformed block is
`none`. -/
namespace Sys2Proof.Machine

/-! ### Bit streams read from their end -/

/-- What is left of a stream that is read from its last bit down: a number and how many of its low bits are left. -/
structure BackBits where
  num  : Nat
  left : Nat
  deriving DecidableEq, Repr

/-- The highest set bit of the last byte closes the stream. -/
def BackBits.start (b : List Byte) : Option BackBits :=
  if b.getLastD 0 = 0 then none else some { num := ofBytes b, left := Nat.log2 (ofBytes b) }

/-- The next `n` bits, zeros standing for those that the stream no longer has. -/
def BackBits.peek (r : BackBits) (n : Nat) : Nat := r.num % 2 ^ r.left * 2 ^ n / 2 ^ r.left

def BackBits.skip (r : BackBits) (n : Nat) : Option BackBits := if r.left < n then none else some { r with left := r.left - n }

def BackBits.read (r : BackBits) (n : Nat) : Option (Nat × BackBits) := (r.skip n).map fun t => (r.peek n, t)

/-! ### Finite-state entropy tables -/

/-- A cell: its symbol, and the next state as a base and a number of bits to add. -/
structure FseCell where
  sym  : Nat := 0
  bits : Nat := 0
  base : Nat := 0
  deriving DecidableEq, Repr, Inhabited

structure FseTable where
  log   : Nat := 0
  cells : List FseCell := []
  deriving DecidableEq, Repr, Inhabited

def FseTable.cell (t : FseTable) (state : Nat) : FseCell := t.cells.getD state {}

/-- The symbol of every cell: a count of −1 takes one cell from the top down, the other symbols follow the stepping order. -/
def fseSymbols (log : Nat) (counts : List Int) : List Nat :=
  let size := 2 ^ log
  let rare := (counts.zipIdx.filter fun p => p.1 == -1).map Prod.snd
  let low := size - rare.length
  let places := ((List.range size).map fun k => k * (size / 2 + size / 8 + 3) % size).filter (· < low)
  let common := counts.zipIdx.flatMap fun p => List.replicate p.1.toNat p.2
  let cells := places.zip common
  ((List.range low).map fun i => ((cells.find? fun c => c.1 == i).map Prod.snd).getD 0) ++ rare.reverse

/-- The table of a distribution: the cells of a symbol count up from its own count. -/
def fseTable (log : Nat) (counts : List Int) : FseTable :=
  let syms := fseSymbols log counts
  { log
    cells := syms.zipIdx.map fun (sym, i) =>
      let next := (counts.getD sym 0).natAbs + (syms.take i).count sym
      let width := log - Nat.log2 next
      { sym, bits := width, base := next * 2 ^ width - 2 ^ log } }

/-- A table of one symbol. -/
def fseOne (sym : Nat) : FseTable := { cells := [{ sym }] }

/-- The symbols that runs of two-bit repeat counts leave out, and the position after them. -/
def zeroRun (v : Nat) : Nat → Nat → Nat × Nat
  | 0, pos => (0, pos)
  | fuel + 1, pos =>
    let k := bits v (pos + 1) pos
    if k = 3 then let (n, p) := zeroRun v fuel (pos + 2); (n + 3, p) else (k, pos + 2)

/-- The distribution that a table description holds from bit `pos` on, and the position after it. -/
def fseCounts (v : Nat) : Nat → Nat → Nat → Option (List Int × Nat)
  | 0, remaining, pos => if remaining = 0 then some ([], pos) else none
  | fuel + 1, remaining, pos =>
    if remaining = 0 then some ([], pos) else
    let width := Nat.log2 (remaining + 1) + 1
    let short := 2 ^ width - 1 - (remaining + 1)
    let low := bits v (pos + width - 2) pos
    let val := bits v (pos + width - 1) pos
    let (val, pos) :=
      if low < short then (low, pos + width - 1) else (if 2 ^ (width - 1) ≤ val then val - short else val, pos + width)
    let count : Int := (val : Int) - 1
    let (zeros, pos) := if count = 0 then zeroRun v 128 pos else (0, pos)
    (fseCounts v fuel (remaining - count.natAbs) pos).map fun (l, p) => (count :: List.replicate zeros 0 ++ l, p)

/-- A table description at the head of some bytes: its table and the bytes after it. -/
def fseRead (maxLog maxSym : Nat) (b : List Byte) : Option (FseTable × List Byte) :=
  let v := ofBytes (b.take 512)
  let log := v % 16 + 5
  if maxLog < log then none
  else match fseCounts v 256 (2 ^ log) 4 with
    | none => none
    | some (counts, pos) =>
      let n := (pos + 7) / 8
      if maxSym + 1 < counts.length || b.length < n then none else some (fseTable log counts, b.drop n)

/-! ### Huffman trees and literals -/

/-- A tree as the table of its codes: the width, and for every pattern of that width a symbol and its code's length. -/
structure HuffTable where
  log   : Nat := 0
  cells : List (Nat × Nat) := []
  deriving DecidableEq, Repr, Inhabited

/-- The table of some weights; the last symbol's weight completes the sum to a power of two. -/
def huffTable (weights : List Nat) : Option HuffTable :=
  let sum := (weights.map fun w => 2 ^ w / 2).sum
  let log := Nat.log2 sum + 1
  let rest := 2 ^ log - sum
  if sum = 0 || 11 < log || weights.any (11 < ·) || 255 < weights.length || rest ≠ 2 ^ Nat.log2 rest then none
  else
    let all := weights ++ [Nat.log2 rest + 1]
    some {
      log
      cells := (List.range (log + 1)).flatMap fun w => if w = 0 then [] else
        all.zipIdx.flatMap fun (x, sym) => if x = w then List.replicate (2 ^ (w - 1)) (sym, log + 1 - w) else [] }

/-- The weights of a stream with two states, each in turn; the stream's end leaves one symbol of the other state. -/
def weightStream (t : FseTable) : Nat → Nat → Nat → BackBits → Option (List Nat)
  | 0, _, _, _ => none
  | fuel + 1, a, b, r =>
    let c := t.cell a
    match r.read c.bits with
    | none => some [c.sym, (t.cell b).sym]
    | some (x, r) => (weightStream t fuel b (c.base + x) r).map (c.sym :: ·)

/-- A tree description at the head of some bytes, and the bytes after it. -/
def huffRead : List Byte → Option (HuffTable × List Byte)
  | [] => none
  | h :: b =>
    let n := h.toNat
    if 128 ≤ n then
      let k := n - 127
      let bytes := b.take ((k + 1) / 2)
      if bytes.length < (k + 1) / 2 then none
      else
        let weights := (bytes.flatMap fun x => [x.toNat / 16, x.toNat % 16]).take k
        (huffTable weights).map fun t => (t, b.drop ((k + 1) / 2))
    else if b.length < n then none
    else match fseRead 6 11 (b.take n) with
      | none => none
      | some (t, rest) =>
        match (BackBits.start rest).bind (·.read t.log) with
        | none => none
        | some (x, r) => match r.read t.log with
          | none => none
          | some (y, r) => ((weightStream t 255 x y r).bind huffTable).map fun t => (t, b.drop n)

/-- `n` symbols of a stream, which they use up. -/
def huffSymbols (t : HuffTable) : Nat → BackBits → Option (List Byte)
  | 0, r => if r.left = 0 then some [] else none
  | n + 1, r =>
    let (sym, len) := t.cells.getD (r.peek t.log) (0, 0)
    match r.skip len with
    | none => none
    | some r => (huffSymbols t n r).map (BitVec.ofNat 8 sym :: ·)

def huffStream (t : HuffTable) (n : Nat) (b : List Byte) : Option (List Byte) := (BackBits.start b).bind (huffSymbols t n)

/-- Four streams behind their jump table; the first three hold a quarter of the symbols each, rounded up. -/
def huffFour (t : HuffTable) (n : Nat) (b : List Byte) : Option (List Byte) :=
  let q := (n + 3) / 4
  let len := fun k => ofBytes ((b.drop (2 * k)).take 2)
  let body := b.drop 6
  if b.length < 6 + len 0 + len 1 + len 2 || n < 3 * q then none
  else
    match huffStream t q (body.take (len 0)), huffStream t q ((body.drop (len 0)).take (len 1)),
      huffStream t q ((body.drop (len 0 + len 1)).take (len 2)), huffStream t (n - 3 * q) (body.drop (len 0 + len 1 + len 2)) with
    | some w, some x, some y, some z => some (w ++ x ++ y ++ z)
    | _, _, _, _ => none

/-- What one block leaves to the next: the tree, the tables of literal lengths, offsets and match lengths, and the three
latest offsets. -/
structure ZEntropy where
  huff : Option HuffTable := none
  ll   : Option FseTable := none
  off  : Option FseTable := none
  ml   : Option FseTable := none
  reps : Nat × Nat × Nat := (1, 4, 8)
  deriving DecidableEq, Repr, Inhabited

/-- The literals of a block, the tree in use after it, and the bytes after the section. -/
def literalsRead (huff : Option HuffTable) (limit : Nat) (b : List Byte) : Option (List Byte × Option HuffTable × List Byte) :=
  let v := ofBytes (b.take 5)
  let kind := v % 4
  let form := bits v 3 2
  if kind < 2 then
    let (n, k) := if form % 2 = 0 then (bits v 7 3, 1) else if form = 1 then (bits v 15 4, 2) else (bits v 23 4, 3)
    let body := b.drop k
    if limit < n || b.length < k || body.length < (if kind = 0 then n else 1) then none
    else if kind = 0 then some (body.take n, huff, body.drop n)
    else some (List.replicate n (body.headD 0), huff, body.drop 1)
  else
    let w := if form < 2 then 10 else if form = 2 then 14 else 18
    let k := if form < 2 then 3 else if form = 2 then 4 else 5
    let n := bits v (3 + w) 4
    let size := bits v (3 + 2 * w) (4 + w)
    let body := (b.drop k).take size
    if limit < n || b.length < k + size then none
    else match (if kind = 2 then huffRead body else huff.map fun t => (t, body)) with
      | none => none
      | some (t, streams) =>
        (if form = 0 then huffStream t n streams else huffFour t n streams).map fun l => (l, some t, b.drop (k + size))

/-! ### Sequences -/

/-- Base and extra bits of a literal length code, and of a match length code. -/
def literalCode (c : Nat) : Nat × Nat :=
  if c < 16 then (c, 0)
  else [(16, 1), (18, 1), (20, 1), (22, 1), (24, 2), (28, 2), (32, 3), (40, 3), (48, 4)].getD (c - 16) (2 ^ (c - 19), c - 19)

def matchCode (c : Nat) : Nat × Nat :=
  if c < 32 then (c + 3, 0)
  else [(35, 1), (37, 1), (39, 1), (41, 1), (43, 2), (47, 2), (51, 3), (59, 3), (67, 4), (83, 4), (99, 5)].getD (c - 32)
    (2 ^ (c - 36) + 3, c - 36)

/-- The distributions that stand for a table with no description. -/
def literalCounts : List Int :=
  [4, 3] ++ List.replicate 11 2 ++ List.replicate 3 1 ++ List.replicate 9 2 ++ [3, 2] ++ List.replicate 5 1
    ++ List.replicate 4 (-1)
def offsetCounts : List Int := List.replicate 6 1 ++ List.replicate 3 2 ++ List.replicate 15 1 ++ List.replicate 5 (-1)
def matchCounts : List Int := [1, 4, 3] ++ List.replicate 6 2 ++ List.replicate 37 1 ++ List.replicate 7 (-1)

/-- The table that a mode names: predefined, of one symbol, described here, or the one used last. -/
def tableRead (mode : Nat) (std : FseTable) (maxLog maxSym : Nat) (last : Option FseTable) (b : List Byte) :
    Option (FseTable × List Byte) :=
  match mode, b with
  | 0, _ => some (std, b)
  | 1, [] => none
  | 1, x :: t => if maxSym < x.toNat then none else some (fseOne x.toNat, t)
  | 2, _ => fseRead maxLog maxSym b
  | _, _ => last.map fun t => (t, b)

/-- One copy: literals before it, its length, and its offset value, which counts the latest offsets first. -/
structure ZSeq where
  lits   : Nat
  len    : Nat
  offset : Nat
  deriving DecidableEq, Repr

/-- `n` sequences from three states, which use up the stream. -/
def sequencesRead (ll off ml : FseTable) : Nat → Nat → Nat → Nat → BackBits → Option (List ZSeq)
  | 0, _, _, _, _ => none
  | n + 1, x, y, z, r =>
    let cl := ll.cell x
    let co := off.cell y
    let cm := ml.cell z
    let (lb, lw) := literalCode cl.sym
    let (mb, mw) := matchCode cm.sym
    match r.read co.sym with
    | none => none
    | some (o, r) => match r.read mw with
      | none => none
      | some (m, r) => match r.read lw with
        | none => none
        | some (l, r) =>
          let q : ZSeq := { lits := lb + l, len := mb + m, offset := 2 ^ co.sym + o }
          if n = 0 then (if r.left = 0 then some [q] else none)
          else match r.read cl.bits with
            | none => none
            | some (dx, r) => match r.read cm.bits with
              | none => none
              | some (dz, r) => match r.read co.bits with
                | none => none
                | some (dy, r) =>
                  (sequencesRead ll off ml n (cl.base + dx) (co.base + dy) (cm.base + dz) r).map (q :: ·)

/-- The sequences of a block, which end it. -/
def sequencesSection (e : ZEntropy) (b : List Byte) : Option (List ZSeq × ZEntropy) :=
  match b with
  | [] => none
  | h :: b =>
    let n0 := h.toNat
    let (n, b) :=
      if n0 < 128 then (n0, b)
      else if n0 < 255 then ((n0 - 128) * 256 + (b.headD 0).toNat, b.drop 1)
      else (ofBytes (b.take 2) + 0x7F00, b.drop 2)
    if n0 = 0 then (if b = [] then some ([], e) else none) else
    match b with
    | [] => none
    | m :: b =>
      let m := m.toNat
      if m % 4 ≠ 0 || n = 0 then none else
      match tableRead (m / 64) (fseTable 6 literalCounts) 9 35 e.ll b with
      | none => none
      | some (ll, b) => match tableRead (bits m 5 4) (fseTable 5 offsetCounts) 8 31 e.off b with
        | none => none
        | some (off, b) => match tableRead (bits m 3 2) (fseTable 6 matchCounts) 9 52 e.ml b with
          | none => none
          | some (ml, b) =>
            let e := { e with ll := some ll, off := some off, ml := some ml }
            match (BackBits.start b).bind (·.read ll.log) with
            | none => none
            | some (x, r) => match r.read off.log with
              | none => none
              | some (y, r) => match r.read ml.log with
                | none => none
                | some (z, r) => (sequencesRead ll off ml n x y z r).map fun l => (l, e)

/-- The offset that a sequence names, and the latest three after it. -/
def takeOffset (reps : Nat × Nat × Nat) (q : ZSeq) : Nat × Nat × Nat :=
  let (a, b, c) := reps
  if 3 < q.offset then (q.offset - 3, a, b)
  else
    let k := q.offset + (if q.lits = 0 then 1 else 0)
    if k = 1 then (a, b, c) else if k = 2 then (b, a, c) else if k = 3 then (c, a, b) else (a - 1, a, b)

/-- Bytes copied from `off` back, over what has been copied already; the newest byte stands first. -/
def copyBack (off : Nat) : Nat → List Byte → List Byte
  | 0, h => h
  | n + 1, h => copyBack off n (h.getD (off - 1) 0 :: h)

/-- The sequences applied to the history, whose newest byte stands first. -/
def applySeqs : List ZSeq → Nat × Nat × Nat → List Byte → List Byte → Option (List Byte × Nat × Nat × Nat)
  | [], reps, lits, hist => some (lits.reverse ++ hist, reps)
  | q :: t, reps, lits, hist =>
    let reps := takeOffset reps q
    let hist := (lits.take q.lits).reverse ++ hist
    if lits.length < q.lits || reps.1 = 0 || hist.length < reps.1 then none
    else applySeqs t reps (lits.drop q.lits) (copyBack reps.1 q.len hist)

/-- One compressed block: the history after it, and what it leaves to the next. -/
def blockRead (e : ZEntropy) (limit : Nat) (b hist : List Byte) : Option (List Byte × ZEntropy) :=
  match literalsRead e.huff limit b with
  | none => none
  | some (lits, huff, rest) => match sequencesSection { e with huff } rest with
    | none => none
    | some (seqs, e) => (applySeqs seqs e.reps lits hist).map fun (h, reps) => (h, { e with reps })

/-! ### Frames -/

/-- The blocks of a frame to the last one: the history after those that are well formed, the bytes after them, and whether
all were. `limit` bounds a block, as data and as bytes of the frame. -/
def blocksRead (limit : Nat) : Nat → ZEntropy → List Byte → List Byte → List Byte × List Byte × Bool
  | 0, _, b, hist => (hist, b, false)
  | fuel + 1, e, b, hist =>
    let v := ofBytes (b.take 3)
    let kind := bits v 2 1
    let size := v / 8
    let body := b.drop 3
    let used := if kind = 1 then 1 else size
    let next :=
      if b.length < 3 || limit < size || body.length < used then none
      else if kind = 0 then some ((body.take size).reverse ++ hist, e)
      else if kind = 1 then some (List.replicate size (body.headD 0) ++ hist, e)
      else if kind = 2 then blockRead e limit (body.take size) hist
      else none
    match next with
    | none => (hist, b, false)
    | some (h, e) =>
      if hist.length + limit < h.length then (hist, b, false)
      else if v % 2 = 1 then (h, body.drop used, true)
      else blocksRead limit fuel e (body.drop used) h

/-- A dictionary's parts after its magic and identifier: the entropy tables with the offsets, and its content. -/
def dictRead (d : List Byte) : Option (ZEntropy × List Byte) :=
  match huffRead (d.drop 8) with
  | none => none
  | some (huff, b) => match fseRead 8 31 b with
    | none => none
    | some (off, b) => match fseRead 9 52 b with
      | none => none
      | some (ml, b) => match fseRead 9 35 b with
        | none => none
        | some (ll, b) =>
          let rep := fun k => ofBytes ((b.drop (4 * k)).take 4)
          let content := b.drop 12
          let bad := fun k => rep k = 0 || content.length < rep k
          if b.length < 12 || bad 0 || bad 1 || bad 2 then none
          else some ({ huff := some huff, ll := some ll, off := some off, ml := some ml, reps := (rep 0, rep 1, rep 2) }, content)

/-- R198: whether a dictionary's tables are well formed. -/
def dictTables (d : List Byte) : Bool := (dictRead d).isSome

/-- R197: what the blocks of a frame with a content of `size` bytes decode to under a dictionary: the content before a malformed
block, the bytes after the blocks, and whether every block was well formed. -/
def zstdDecode (size : Nat) (dict : Option (List Byte)) (b : List Byte) : List Byte × List Byte × Bool :=
  let (e, content) := (dict.bind dictRead).getD ({}, [])
  let (h, rest, good) := blocksRead (min size (2 ^ 17)) (b.length + 1) e b content.reverse
  ((h.take (h.length - content.length)).reverse, rest, good)

/-- A content as raw blocks. -/
def rawBlocks : Nat → List Byte → List Byte
  | 0, _ => []
  | fuel + 1, c =>
    let n := min c.length (2 ^ 17)
    bytesOf 3 (8 * n + (if c.length ≤ 2 ^ 17 then 1 else 0)) ++ c.take n ++ (if c.length ≤ 2 ^ 17 then [] else rawBlocks fuel (c.drop n))

/-- R196, R197: the blocks that the bobbin writes. The encoder is free (log entry 10), but what it writes decodes to the
content; a choice that did not is replaced by raw blocks. -/
def zstdEncode (content : List Byte) (dict : Option (List Byte)) : List Byte :=
  let free := Config.zstdBlocks content (dict.getD [])
  if zstdDecode content.length dict free = (content, [], true) then free else rawBlocks (content.length + 1) content

/-! ### The content checksum: the low half of XXH64 with seed 0 -/

def xxPrime (k : Nat) : Word64 :=
  [0x9E3779B185EBCA87#64, 0xC2B2AE3D27D4EB4F#64, 0x165667B19E3779F9#64, 0x85EBCA77C2B2AE63#64, 0x27D4EB2F165667C5#64].getD (k - 1) 0

def xxRound (acc x : Word64) : Word64 := (acc + x * xxPrime 2).rotateLeft 31 * xxPrime 1

def xxWord (b : List Byte) (k n : Nat) : Word64 := BitVec.ofNat 64 (ofBytes ((b.drop k).take n))

/-- The four lanes over every whole stripe of 32 bytes, and the bytes after the last. -/
def xxStripes : Nat → Word64 × Word64 × Word64 × Word64 → List Byte → (Word64 × Word64 × Word64 × Word64) × List Byte
  | 0, acc, b => (acc, b)
  | fuel + 1, (w, x, y, z), b =>
    if b.length < 32 then ((w, x, y, z), b)
    else xxStripes fuel (xxRound w (xxWord b 0 8), xxRound x (xxWord b 8 8), xxRound y (xxWord b 16 8), xxRound z (xxWord b 24 8))
      (b.drop 32)

/-- The bytes after the stripes: by eight, by four, by one. -/
def xxTail : Nat → Word64 → List Byte → Word64
  | 0, h, _ => h
  | fuel + 1, h, b =>
    if 8 ≤ b.length then
      xxTail fuel ((h ^^^ xxRound 0 (xxWord b 0 8)).rotateLeft 27 * xxPrime 1 + xxPrime 4) (b.drop 8)
    else if 4 ≤ b.length then
      xxTail fuel ((h ^^^ xxWord b 0 4 * xxPrime 1).rotateLeft 23 * xxPrime 2 + xxPrime 3) (b.drop 4)
    else if b = [] then h
    else xxTail fuel ((h ^^^ xxWord b 0 1 * xxPrime 5).rotateLeft 11 * xxPrime 1) (b.drop 1)

/-- R197: the content checksum of a frame. -/
def zstdChecksum (b : List Byte) : BitVec 32 :=
  let n := b.length
  let ((w, x, y, z), tail) := xxStripes n (xxPrime 1 + xxPrime 2, xxPrime 2, 0, 0 - xxPrime 1) b
  let mix := fun h v => (h ^^^ xxRound 0 v) * xxPrime 1 + xxPrime 4
  let h := if n < 32 then xxPrime 5
    else mix (mix (mix (mix (w.rotateLeft 1 + x.rotateLeft 7 + y.rotateLeft 12 + z.rotateLeft 18) w) x) y) z
  let h := xxTail n (h + BitVec.ofNat 64 n) tail
  let h := (h ^^^ (h >>> 33)) * xxPrime 2
  let h := (h ^^^ (h >>> 29)) * xxPrime 3
  (h ^^^ (h >>> 32)).truncate 32

end Sys2Proof.Machine
end

