-- ==== Sys2Proof/Machine/Engine.lean ====
section
/-! DEFINITION. The engines (12): issuing a command (R190, R191), the shuttle (R193, R194), the reed (R195), the bobbin
(R196 to R198), the chunks (R202), errors and completion (R199, R200). -/
namespace Sys2Proof.Machine

/-! ### Addresses (R192) -/

/-- STATUS of R200. -/
def enTrans : Nat := 1
def enVersion : Nat := 2
def enSpb : Nat := 3
def enRemote : Nat := 4
def enData : Nat := 5
def enTagTime : Nat := 6
def enShape : Nat := 7
def enNotPly : Nat := 8
def enTooBig : Nat := 9
def enSpace : Nat := 10
def enFrame : Nat := 11
def enDict : Nat := 12
def enCsum : Nat := 13

/-- Why a chunk does not perform: an error, a page that no TLB holds, or a port that the alarm has stopped (19 R264). -/
inductive EngStop | err (status : Nat) | miss (key : PageKey) | closed
  deriving DecidableEq, Repr

/-- Where an engine's address leads: a physical scratchpad offset of a core, the same of a pre-empted context, whose bytes are kept
with it, or a location with its descriptor's words. -/
inductive EngLoc | spad (core off : Nat) | kept (ctx off : Nat) | mem (loc w0 w1 : Nat)
  deriving DecidableEq, Repr

/-- Whether an address names scratchpad. -/
def inSpadSpace (a : Nat) : Bool := !bitAt a 63 && bitAt a 62

/-- The core that CORE names for a command: a logical position in the issuing core's logical cluster. -/
def EngCmd.coreAt (e : EngCmd) (a : Nat) : Nat :=
  let n := bits a 51 48
  let p := symPoint e.sym 4 4 (n % 4) (n / 4)
  16 * e.cluster + 4 * p.2 + p.1

/-- Whether `n` bytes of scratchpad lie in an allocation. -/
def Alloc.hasSpad (a : Alloc) (off n : Nat) : Bool := a.spbase ≤ off && off + n ≤ a.spbase + 256 * a.spad

/-- Where `n` bytes that lie in an allocation of the command's kernel on a core stand, if they do. -/
def State.engSpad (s : State) (e : EngCmd) (core off n : Nat) : Option EngLoc :=
  [2 * core, 2 * core + 1].findSome? fun c =>
    let x := s.ctxFor e.kernel c
    if x.run != .free && x.share.kernel == e.kernel && x.alloc.hasSpad off n then
      some (if s.saved.any fun v => v.c == c && v.kernel == e.kernel then .kept c off else .spad core off)
    else none

/-- The STATUS for a walk that failed: TRANS, or DATA for a descriptor with an uncorrectable error. -/
def walkStatus (cond : Nat) : Nat := if isWalkBad cond then enData else enTrans

/-- The page for an engine's access: at the locked level from the core's TLB, or walked once the chunk has been delayed for it
(R164); else from the cluster's. -/
def State.engPage (s : State) (e : EngCmd) (key : PageKey) : Except EngStop TlbEntry :=
  let l := if e.level = 2 then (s.core e.core).tlb else (s.cluster e.cluster).tlb
  match l.find? fun t => t.maps key.part key.region key.va with
  | some t => .ok t
  | none => if e.level = 2 && e.late == some e.chunk then
      match s.walk key.part key.region key.va with | .ok t => .ok t | .error cond => .error (.err (walkStatus cond))
    else match e.walked.find? fun w => w.1 == key.page with
    | some w => .error (.err (walkStatus w.2))
    | none => .error (.miss key)

/-- R256: where a COPY's address in a versioned region leads: reads go to the current version, writes of the learner to
the draft. -/
def State.copyAim (s : State) (part : Nat) (kind : AKind) (a : Nat) : Aim :=
  if bitAt a 63 then s.aim part 0 kind a
  else match s.regionOf (a % 2 ^ 48) with
    | none => s.aim part 0 kind a
    | some (r, g) =>
      if bits a 62 48 ≠ 0 then .trap .translation 3
      else if !(g.lpart == part || bitAt g.rmask part) then .trap .version 2
      else
        let slot := if kind == .write then (if g.lpart == part then g.slotIn stDraft else none) else g.slotIn stCurrent
        match slot with
        | some k => .page { part, region := some (r, k), va := a % 2 ^ 48 } false
        | none => .trap .version 3

/-- Where an engine's global address leads. -/
def State.engAim (s : State) (e : EngCmd) (kind : AKind) (a : Nat) : Aim :=
  if e.copy.isSome then s.copyAim e.part kind a else s.aim e.part e.vpin kind a

/-- The STATUS for a refusal by another device (R203). -/
def refusalStatus (r : Raised) : Nat := if r.cause = .version then enVersion else if r.cond = 5 then enRemote else enTrans

/-- An engine's access of `n` bytes that do not cross a page. -/
def State.engResolve (s : State) (e : EngCmd) (kind : AKind) (a n : Nat) : Except EngStop EngLoc :=
  if bitAt a 63 && bitAt a 62 && e.copy.isNone then .error (.err enTrans)
  else if inSpadSpace a && e.copy.isSome then
    let core := bits a 60 52
    if bitAt a 61 || bits a 51 48 ≠ 0 || bits a 47 19 ≠ 0 || !((s.part e.part).clusters.contains (clusterOf core)) then
      .error (.err enTrans)
    else .ok (.spad core (a % 2 ^ 19))
  else if inSpadSpace a then
    if bits a 61 52 ≠ 0 || bits a 47 19 ≠ 0 then .error (.err enTrans)
    else
      match s.engSpad e (e.coreAt a) (a % 2 ^ 19) n with | some l => .ok l | none => .error (.err enSpb)
  else if bitAt a 63 && s.shelves.contains (bits a 57 48) then .error (.err enRemote)
  else match s.engAim e kind a with
    | .trap .version _ => .error (.err enVersion)
    | .trap _ 5 => .error (.err enRemote)
    | .trap _ _ => .error (.err enTrans)
    | .remote => if s.alarm.isSome then .error .closed else match refusalOf e.id a with
      | none => .ok (.mem a 0 0)
      | some r => .error (.err (refusalStatus r))
    | .page key global => match s.engPage e key with
      | .error x => .error x
      | .ok t => match t.grant key kind false global a with
        | .ok r => .ok (.mem r.loc r.w0 r.w1)
        | .error r => .error (.err (if r.cause = .version then enVersion else enTrans))

/-- The bytes at an engine's location, as they stand at the point of coherence or at the start of the cycle (R176, R145). -/
def State.engRead (s : State) (e : EngCmd) (l : EngLoc) (n : Nat) : Except EngStop (List Byte) :=
  match l with
  | .spad core off =>
    if (s.core core).badAt off n then .error (.err enData) else .ok (Memory.readN (s.core core).spad0 off n)
  | .kept c off =>
    let base := (s.ctxFor e.kernel c).alloc.spbase
    .ok (((s.saved.find? fun v => v.c == c && v.kernel == e.kernel).map Saved.spad).getD [] |>.drop (off - base) |>.take n)
  | .mem loc _ _ =>
    if (List.range n).any fun i => (s.memoryError e.cluster (loc + i)).isSome then .error (.err enData)
    else .ok ((List.range n).map fun i => s.homeByte (loc + i))

/-- Bytes at an engine's address, one by one where they are not aligned to their number. -/
def State.engFetch (s : State) (e : EngCmd) (a n : Nat) : Except EngStop (List Byte) :=
  if a % n = 0 then
    match s.engResolve e .read a n with
    | .error x => .error x
    | .ok l => s.engRead e l n
  else (List.range n).foldlM (fun l i =>
    match s.engResolve e .read ((a + i) % 2 ^ 64) 1 with
    | .error x => .error x
    | .ok k => match s.engRead e k 1 with | .error x => .error x | .ok b => .ok (l ++ b)) []

/-- What a command writes: bytes of scratchpads, of those kept with pre-empted contexts, and of memory, in order. -/
structure EngOut where
  spad : List (Nat × Nat × Byte) := []
  kept : List (Nat × Nat × Byte) := []
  mem  : List (Nat × Byte) := []
  deriving DecidableEq, Repr

/-- Bytes added to what a command writes. -/
def EngOut.add (o : EngOut) (l : EngLoc) (b : List Byte) : EngOut :=
  match l with
  | .spad core off => { o with spad := o.spad ++ (cellsAt off b).map fun (a, x) => (core, a, x) }
  | .kept c off => { o with kept := o.kept ++ (cellsAt off b).map fun (a, x) => (c, a, x) }
  | .mem loc _ _ => { o with mem := o.mem ++ cellsAt loc b }

/-- Bytes to be written at an engine's address. -/
def State.engStore (s : State) (e : EngCmd) (a : Nat) (b : List Byte) (o : EngOut) : Except EngStop EngOut :=
  if a % b.length = 0 then
    match s.engResolve e .write a b.length with
    | .error x => .error x
    | .ok l => .ok (o.add l b)
  else b.zipIdx.foldlM (fun o (x, i) =>
    match s.engResolve e .write ((a + i) % 2 ^ 64) 1 with
    | .error x => .error x
    | .ok l => .ok (o.add l [x])) o

/-- A byte of the scratchpad that is kept with a pre-empted context. -/
def State.putKept (s : State) (kernel c off : Nat) (b : Byte) : State :=
  let base := (s.ctxFor kernel c).alloc.spbase
  { s with saved := s.saved.map fun v =>
      if v.c == c && v.kernel == kernel then { v with spad := v.spad.set (off - base) b } else v }

/-- A byte of scratchpad that an engine writes: an STS and an XDRAIN of the cycle come after it (09 R145). -/
def CoreSt.engWrite (k : CoreSt) (a : Nat) (b : Byte) : CoreSt :=
  if k.drained.contains a || k.stored.contains a then k else { k with spad := Memory.write k.spad a b, moved := a :: k.moved }

/-- The writes of a command of a kernel perform: scratchpad in the cycle, memory as a device commit, another device's at its home
(R176, R203). -/
def State.engCommit (s : State) (kernel : Nat) (o : EngOut) : State :=
  let t := o.spad.foldl (fun t (core, a, x) => t.updCore core fun k => k.engWrite a x) s
  let t := o.kept.foldl (fun t (c, a, x) => t.putKept kernel c a x) t
  let dev := o.mem.filter fun a => a.1 < 2 ^ 63
  let self := (o.mem.filter fun a => 2 ^ 64 ≤ a.1).map fun a => (a.1 - 2 ^ 64, a.2)
  let away := o.mem.filter fun a => (homeDpa a.1).isNone
  let t := if dev.isEmpty then t else t.deviceCommit .device dev
  let t := if self.isEmpty then t else t.deviceCommit .system self
  if away.isEmpty then t else t.sendRemote away

/-! ### Shapes (R193, R194) -/

/-- ESZ of a header. -/
def cmdEsz (h : Nat) : Nat := 2 ^ bits h 9 8

def EngCmd.st (e : EngCmd) (k : Nat) : Nat := (e.stage.getD k 0).toNat

/-- A level of a shape: count, source stride, destination stride. -/
structure ShapeLevel where
  count : Nat
  src   : Int
  dst   : Int
  deriving DecidableEq, Repr

/-- An entry of a shape record. -/
def recordLevel (b : List Byte) (l : Nat) : ShapeLevel :=
  let f := fun (o n : Nat) => ofBytes ((b.drop (16 * l + o)).take n)
  { count := f 0 2, src := toSigned 32 (f 4 4), dst := toSigned 32 (f 8 4) }

/-- Whether the reserved bytes of the first `n` entries are zero. DESIGN CHOICE (log entry 70): a record is asked for all of its six, those
above NL too, since R193 says "a record that has non-zero bytes" beside "levels above NL are ignored". -/
def recordClean (b : List Byte) (n : Nat) : Bool :=
  (List.range n).all fun l =>
    ofBytes ((b.drop (16 * l + 2)).take 2) = 0 && ofBytes ((b.drop (16 * l + 12)).take 4) = 0

/-- The levels of an ECOPY, or none for a bad record; a COPY has one level of bytes (19 R256). -/
def EngCmd.levels (e : EngCmd) : Option (List ShapeLevel) :=
  let n := bits e.cmdh 12 10 + 1
  if e.copy.isSome then some [{ count := e.st 2 - 1, src := 1, dst := 1 }]
  else if bitAt e.cmdh 13 then
    match e.shape with
    | some b => if recordClean b 6 then some ((List.range n).map (recordLevel b)) else none
    | none => none
  else some ((List.range n).map fun l =>
    let w := e.st (2 + l)
    { count := bits w 63 48, src := toSigned 24 (bits w 47 24), dst := toSigned 24 (bits w 23 0) })

/-- Elements of a shape. -/
def shapeCount (l : List ShapeLevel) : Nat := l.foldl (fun a x => a * (x.count + 1)) 1

/-- ROWB of an EGATHER. -/
def EngCmd.rowb (e : EngCmd) : Nat := e.st 4 % 2 ^ 32

/-- Elements of a reed's format. -/
def reedSize (h : Nat) : Nat := if bits h 11 10 = 1 then 2 else 4

/-- Chunks of a command (R202): 256 bytes of its destination stream; the lines of an EREDUCE; one for the bobbin's, and one for a
bad record or row length to be found at. DESIGN CHOICE (log entry 90): an EREDUCE with COUNT = 0 has none at which a bad DST could be
found. -/
def EngCmd.chunks (e : EngCmd) : Nat :=
  match e.op with
  | 0 => if e.copy.isSome && e.st 2 = 0 then 0 else match e.levels with
    | some l => (shapeCount l * cmdEsz e.cmdh + 255) / 256
    | none => 1
  | 1 => if e.rowb = 0 then min 1 (e.st 3 % 2 ^ 32) else (e.st 3 % 2 ^ 32 * e.rowb + 255) / 256
  | 2 => (e.st 2 % 2 ^ 32 * reedSize e.cmdh + 255) / 256
  | _ => 1

/-- Whether a command has an address on another device or a shelf. -/
def EngCmd.away (e : EngCmd) (devId : Nat) : Bool :=
  let far := fun a => bitAt a 63 && bits a 57 48 ≠ devId
  far (e.st 0) || (e.op ≤ 3 && far (e.st 1)) || (e.op = 1 && far (e.st 2)) || (e.op = 0 && bitAt e.cmdh 13 && far (e.st 2))
    || (e.op = 3 && far (e.st 4))

/-- L and P of R202. DESIGN CHOICE (log entry 90): between two scratchpads h is the distance of the destination. -/
def State.engTiming (s : State) (e : EngCmd) : Nat × Nat :=
  let src := e.st 0
  let dst := e.st 1
  let h := fun a => 2 * hops e.core (e.coreAt a)
  let base := if inSpadSpace dst then (if inSpadSpace src then 24 else 200) + h dst
    else if inSpadSpace src then 40 else 240
  let p := if e.op = 2 then 32 else 16
  if e.away s.devId then (3400, p) else if e.op = 2 then (260, p) else if e.op = 1 then (base + 160, p) else (base, p)

/-- The engine of a command: the shuttle, the reed or the bobbin. -/
def engineOf (op : Nat) : Nat := if op ≤ 1 then 0 else if op = 2 then 1 else 2

/-! ### Issue (R191) -/

/-- The 96 bytes of a shape record, read at issue in the issuing context's view (R176), or the STATUS of the error: the address
errors of R192, REMOTE for one on a shelf (R203), DATA for one whose bytes carry an uncorrectable error (R156), SHAPE for another
that cannot be read (R193; DEDUCED, log entry 70). DESIGN CHOICE (log entry 89): a page that no TLB holds delays nobody here. -/
def State.shapeRecord (s : State) (c a : Nat) (e : EngCmd) : Except Nat (List Byte) :=
  if bitAt a 63 && bitAt a 62 then .error enTrans
  else if bitAt a 63 && s.shelves.contains (bits a 57 48) then .error enRemote
  else if inSpadSpace a then
    let at_ := fun (i n : Nat) => s.engSpad e (e.coreAt a) (a % 2 ^ 19 + i) n
    match s.engResolve e .read a 1 with
    | .error (.err x) => .error x
    | _ =>
      if (List.range 96).any fun i => (at_ i 1).isNone then .error enSpb
      else if a % 16 ≠ 0 then .error enShape
      else (List.range 6).foldlM (fun b k => match (at_ (16 * k) 16).map fun l => s.engRead e l 16 with
        | some (.ok r) => .ok (b ++ r)
        | _ => .error enData) []
  else if a % 16 ≠ 0 then .error enShape
  else (List.range 6).foldlM (fun b k => match s.resolve c .read false (a + 16 * k) with
    | .error _ => .error enShape
    | .ok r => match s.readFault c s.storeOrder r.loc 16 with
      | some q => .error (if q.cause = .dataError then enData else enShape)
      | none => .ok (b ++ s.viewBytes c s.storeOrder r.ver r.loc 16)) []

/-- R198: the face that an EPAGE issued in a cycle binds: in the cycle of an exchange the one that was in use before. -/
def DictSlot.faceAt (d : DictSlot) (cycle : Nat) : Option (List Byte) := if d.swapped = some cycle then d.pend else d.use

/-- R191: the command enters flight, with its dictionary face (R198) and its place in the locked stream (R202). -/
def engineBody (op : Nat) (b : BitVec 5) (cmdh : Nat) (s : State) : State :=
  let c := s.slot.ctx
  let x := s.cur
  let e : EngCmd :=
    { id := s.serial + 1, op, cmdh, stage := x.staging b.toNat, vpin := x.vpin, ctx := c, core := coreOf c
      cluster := clusterOf (coreOf c), part := x.part, kernel := x.share.kernel, sym := ((s.kernel x.share.kernel).map Kernel.sym).getD 0, level := x.level
      baddr := s.slot.baddr
      pos := s.slot.pos, issued := s.cycle }
  let slot := Tab.get {} (s.cluster e.cluster).dict (bits cmdh 10 9)
  let e := { e with
    tag := s.kernelTag e.kernel, face := slot.face != (slot.swapped == some s.cycle)
    shape := if op = 0 && bitAt cmdh 13 then (s.shapeRecord c (e.st 2) e).toOption else none
    shapeErr := if op = 0 && bitAt cmdh 13 then (match s.shapeRecord c (e.st 2) e with | .error x => x | .ok _ => 0) else 0
    dict := if op = 3 && bitAt cmdh 8 then some (slot.faceAt s.cycle) else none }
  let (l, p) := s.engTiming e
  let u := Tab.get 0 s.curCore.engNext (engineOf op)
  let first := max (s.cycle + l) u
  let t := if x.level ≠ 2 then s else
    s.updCurCore fun k => { k with engNext := Tab.set 0 k.engNext (engineOf op) (first + p * e.chunks) }
  { t with serial := t.serial + 1, fresh := t.fresh + 1, engines := t.engines ++ [{ e with nextAt := first }] }

/-- CMDH of each command (R190). -/
def headerOf (cv ev : Bool) (rest evc : Nat) : Nat :=
  (if cv then 2 ^ 15 else 0) + (if ev then 2 ^ 14 else 0) + rest + evc
def eszCode : ESize → Nat
  | .b8 => 0 | .b16 => 1 | .b32 => 2 | .b64 => 3

def execEcopy (g : BitVec 3) (base : BitVec 5) (cv ev hv : Bool) (nl : BitVec 3) (z : ESize) (evc : BitVec 8) (s : State) :=
  perform (.ecopy g base cv ev hv nl z evc) s (engineBody 0 base
    (headerOf cv ev ((if hv then 2 ^ 13 else 0) + nl.toNat * 2 ^ 10 + eszCode z * 2 ^ 8) evc.toNat))
def execEgather (g : BitVec 3) (base : BitVec 5) (cv ev x : Bool) (z : ESize) (evc : BitVec 8) (s : State) :=
  perform (.egather g base cv ev x z evc) s (engineBody 1 base
    (headerOf cv ev ((if x then 2 ^ 13 else 0) + eszCode z * 2 ^ 8) evc.toNat))
def execEreduce (g : BitVec 3) (base : BitVec 5) (cv ev : Bool) (rop fmt : BitVec 2) (evc : BitVec 8) (s : State) :=
  perform (.ereduce g base cv ev rop fmt evc) s (engineBody 2 base
    (headerOf cv ev (rop.toNat * 2 ^ 12 + fmt.toNat * 2 ^ 10) evc.toNat))
def execEpage (g : BitVec 3) (base : BitVec 5) (cv ev dir : Bool) (k slot : BitVec 2) (dict : Bool) (evc : BitVec 8)
    (s : State) :=
  perform (.epage g base cv ev dir k slot dict evc) s (engineBody 3 base
    (headerOf cv ev ((if dir then 2 ^ 13 else 0) + k.toNat * 2 ^ 11 + slot.toNat * 2 ^ 9 + (if dict then 2 ^ 8 else 0))
      evc.toNat))
def execEdict (g : BitVec 3) (base : BitVec 5) (cv ev : Bool) (slot : BitVec 2) (evc : BitVec 8) (s : State) :=
  perform (.edict g base cv ev slot evc) s (engineBody 4 base (headerOf cv ev (slot.toNat * 2 ^ 9) evc.toNat))

/-! ### Chunks of the shuttle -/

/-- What performing a chunk leaves: writes, tagged lines, and whether an error stopped it. -/
structure ChunkOut where
  out   : EngOut := {}
  tags  : List TagWrite := []
  stop  : Option EngStop := none
  deriving DecidableEq, Repr

/-- Copying `n` bytes from one address to another. -/
def State.engMove (s : State) (e : EngCmd) (src dst n : Nat) (o : EngOut) : Except EngStop EngOut :=
  match s.engFetch e src n with
  | .error x => .error x
  | .ok b => s.engStore e dst b o

/-- Moves one after another, up to the first that stops. -/
def runMoves (f : Nat → EngOut → Except EngStop EngOut) : List Nat → EngOut → ChunkOut
  | [], o => { out := o }
  | i :: t, o => match f i o with
    | .ok o => runMoves f t o
    | .error x => { out := o, stop := some x }

/-- The elements of chunk `n` of a stream of `total` elements of `z` bytes. -/
def chunkElems (n z total : Nat) : List Nat :=
  ((List.range (256 / z)).map fun k => n * (256 / z) + k).filter fun i => i < total

/-- Elements of an ECOPY's or EGATHER's stream, and the address that element `i` is written to (R193, R194). -/
def EngCmd.elements (e : EngCmd) : Nat :=
  match e.op with
  | 0 => match e.levels with | some l => shapeCount l | none => 0
  | 1 => e.st 3 % 2 ^ 32 * e.rowb / cmdEsz e.cmdh
  | _ => 0
def EngCmd.target (e : EngCmd) (i : Nat) : Nat :=
  match e.op with
  | 0 => match e.levels with
    | some l => ofSigned 64 (e.st 1 + nestOffset (l.map ShapeLevel.count) (l.map ShapeLevel.dst) i)
    | none => 0
  | _ =>
    let b := i * cmdEsz e.cmdh
    (e.st 1 + b / e.rowb * (e.st 4 / 2 ^ 32) + b % e.rowb) % 2 ^ 64

/-- The addresses that chunk `k` of an ECOPY or EGATHER writes elements to. -/
def EngCmd.targets (e : EngCmd) (k : Nat) : List Nat := (chunkElems k (cmdEsz e.cmdh) e.elements).map e.target

/-- Where a page of 64 KB of a command's addresses leads, whether or not a TLB holds it: two pages that one page of memory serves lead to
one place, and one that leads nowhere has a place of its own. -/
def State.engFrame (s : State) (e : EngCmd) (page : Nat) : Nat :=
  let a := page * 2 ^ 16
  if inSpadSpace a then a else match s.engAim e .write a with
  | .page key _ => match s.walk key.part key.region key.va with
    | .ok t => t.dpa key.va
    | .error _ => 2 ^ 64 + a
  | _ => 2 ^ 64 + a

/-- The places of the bytes that chunk `k` writes. -/
def State.targetBytes (s : State) (e : EngCmd) (k : Nat) : List Nat :=
  let bytes := (e.targets k).flatMap fun a => (List.range (cmdEsz e.cmdh)).map fun i => (a + i) % 2 ^ 64
  let frames := ((bytes.map fun a => a / 2 ^ 16).eraseDups).map fun p => (p, s.engFrame e p)
  bytes.map fun a => (frames.lookup (a / 2 ^ 16)).getD 0 + a % 2 ^ 16

/-- Whether a chunk has to wait for one before it that is kept back: they write one byte, and the elements are written in order (R193,
R194), or the command has accesses to another device, which leave in order (R203; DEDUCED, log entry 93). -/
def State.overtakes (s : State) (e : EngCmd) (k : Nat) : Bool :=
  (e.behind.any fun j => j < k) && (e.away s.devId ||
    let mine := s.targetBytes e k
    e.behind.any fun j => j < k && (s.targetBytes e j).any fun a => mine.contains a)

/-- R193. -/
def State.ecopyChunk (s : State) (e : EngCmd) : ChunkOut :=
  let z := cmdEsz e.cmdh
  match e.levels with
  | none => { stop := some (.err (if e.shapeErr = 0 then enShape else e.shapeErr)) }
  | some l =>
    if e.st 0 % z ≠ 0 || e.st 1 % z ≠ 0 then { stop := some (.err enTrans) }
    else
      runMoves (fun i o =>
        s.engMove e (ofSigned 64 (e.st 0 + nestOffset (l.map ShapeLevel.count) (l.map ShapeLevel.src) i)) (e.target i) z o)
        (chunkElems e.chunk z (shapeCount l)) {}

/-- R194: index `n`, each read once. -/
def State.engIndex (s : State) (e : EngCmd) (n : Nat) : Except EngStop Nat :=
  let isz := if bitAt e.cmdh 13 then 8 else 4
  match e.rows.find? fun r => r.1 == n with
  | some r => .ok r.2
  | none => match s.engFetch e ((e.st 2 + n * isz) % 2 ^ 64) isz with
    | .error x => .error x
    | .ok b => .ok (ofBytes b)

/-- R194: one element of the gathered stream. -/
def State.egatherElem (s : State) (e : EngCmd) (z i : Nat) (o : EngOut) : Except EngStop EngOut :=
  match s.engIndex e (i * z / e.rowb) with
  | .error x => .error x
  | .ok x =>
    if e.st 5 ≤ x then s.engStore e (e.target i) (List.replicate z 0) o
    else s.engMove e ((e.st 0 + x * (e.st 3 / 2 ^ 32) + i * z % e.rowb) % 2 ^ 64) (e.target i) z o

def State.egatherChunk (s : State) (e : EngCmd) : ChunkOut :=
  let z := cmdEsz e.cmdh
  if e.rowb = 0 || e.rowb % z ≠ 0 then { stop := some (.err enShape) }
  else runMoves (s.egatherElem e z) (chunkElems e.chunk z e.elements) {}

/-- The indices that a chunk has read and that rows in further chunks need. -/
def State.keptRows (s : State) (e : EngCmd) : List (Nat × Nat) :=
  if e.op ≠ 1 || e.rowb = 0 then e.rows else
  let rows := [256 * e.chunk / e.rowb, (256 * e.chunk + 255) / e.rowb].eraseDups.filter fun n =>
    n < e.st 3 % 2 ^ 32 && !(e.rows.any fun r => r.1 == n)
      && (n * e.rowb < 256 * e.chunk || 256 * (e.chunk + 1) < (n + 1) * e.rowb)
  e.rows ++ rows.filterMap fun n => match s.engIndex e n with | .ok x => some (n, x) | .error _ => none

/-! ### The reed (R195) -/

/-- One combining step. -/
def reedCombine (rop fmt x y : Nat) : Nat :=
  let f := if fmt = 1 then bf16 else fp32
  if fmt = 2 then
    if rop = 0 then (x + y) % 2 ^ 32
    else if rop = 1 then (if toSigned 32 x ≤ toSigned 32 y then y else x)
    else (if toSigned 32 x ≤ toSigned 32 y then x else y)
  else if rop = 0 then (f.add false .rne x y).1
  else (f.pick (rop = 1) x y).1

/-- The source elements with some numbers. -/
def State.engElems (s : State) (e : EngCmd) (z : Nat) : List Nat → Except EngStop (List Nat)
  | [] => .ok []
  | i :: t => match s.engFetch e ((e.st 0 + i * z) % 2 ^ 64) z with
    | .error x => .error x
    | .ok b => match s.engElems e z t with
      | .error x => .error x
      | .ok l => .ok (ofBytes b :: l)

/-- The tagged write of line `e.chunk`. -/
def State.ereduceChunk (s : State) (e : EngCmd) : ChunkOut :=
  let z := reedSize e.cmdh
  let dst := e.st 1
  if inSpadSpace dst || dst % 256 ≠ 0 || e.st 0 % z ≠ 0 then { stop := some (.err enTrans) }
  else
    let ids := chunkElems e.chunk z (e.st 2 % 2 ^ 32)
    match s.engElems e z ids,  s.engResolve e .write ((dst + 256 * e.chunk) % 2 ^ 64) 256 with
    | .error x, _ => { stop := some x }
    | _, .error x => { stop := some x }
    | .ok vs, .ok (.mem loc _ _) =>
      let home := (homeDpa loc).getD loc
      { tags := [{
          line := home / 256, tag := e.st 3 % 2 ^ 16, ctx := e.ctx, cmd := some e.id, part := e.part, kernel := e.kernel
          baddr := e.baddr
          pos := e.pos, due := s.cycle
          act := .reduce (bits e.cmdh 13 12) (bits e.cmdh 11 10) (vs.zipIdx.map fun (v, k) => (home + k * z, v)) }] }
    | _, _ => { stop := some (.err enTrans) }

/-! ### The bobbin (R196 to R198) -/

/-- Whether a shelf serves a command: over the owner's routes, unless it refuses (R203). -/
def State.shelfRefuses (s : State) (e : EngCmd) (a : Nat) : Option Nat :=
  if Tab.get 0 s.routes (bits a 57 48) = 0 then some enRemote else (refusalOf e.id a).map refusalStatus

/-- A shelf's address (R196). DESIGN CHOICE (log entry 88): TRANS for one without its form, REMOTE where the device is no shelf. -/
def State.shelfAddress (s : State) (e : EngCmd) (a : Nat) : Option Nat :=
  if !bitAt a 63 || bits a 62 58 ≠ 0 || a % 512 ≠ 0 then some enTrans
  else if s.shelves.contains (bits a 57 48) then s.shelfRefuses e a else some enRemote

/-- Bytes of a shelf. -/
def State.shelfBytes (s : State) (a n : Nat) : List Byte := (List.range n).map fun i => s.remoteByte (a + i)

/-- Runs of bytes of window `w` that an EPAGE moves: those of plies 0 to K and the scales, and those of the other plies. -/
def pageSpans (e : EngCmd) (n w : Nat) : List (Nat × Nat) × List (Nat × Nat) :=
  let k := bits e.cmdh 12 11 + 1
  let base := e.st 0 + w * (e.st 2 / 2 ^ 32)
  let ply := fun j => (base + j * (n / 2), n / 2)
  ((List.range k).map ply ++ [(base + 2 * n, n / 8)], ((List.range 4).drop k).map ply)

/-- The locations of a run of bytes, by pieces of a page of 64 KB. -/
def State.runPieces (s : State) (e : EngCmd) (kind : AKind) (nlog : Nat) : Nat → Nat → Nat → Except EngStop (List (Nat × Nat))
  | 0, _, _ => .ok []
  | fuel + 1, a, n =>
    if n = 0 then .ok [] else
    let m := min n (2 ^ 16 - a % 2 ^ 16)
    match s.engResolve e kind a 1 with
    | .error x => .error x
    | .ok (.spad ..) | .ok (.kept ..) => .error (.err enNotPly)
    | .ok (.mem loc w0 w1) =>
      if !bitAt w0 53 || bits w1 35 31 ≠ nlog then .error (.err enNotPly)
      else match s.runPieces e kind nlog fuel (a + m) (n - m) with
        | .error x => .error x
        | .ok l => .ok ((loc, m) :: l)

/-- The locations of several runs. -/
def State.spanPieces (s : State) (e : EngCmd) (kind : AKind) (nlog : Nat) : List (Nat × Nat) → Except EngStop (List (Nat × Nat))
  | [] => .ok []
  | (a, n) :: t => match s.runPieces e kind nlog (n / 2 ^ 16 + 2) a n with
    | .error x => .error x
    | .ok p => match s.spanPieces e kind nlog t with
      | .error x => .error x
      | .ok q => .ok (p ++ q)

/-- NLOG of DADDR's page. DESIGN CHOICE (log entry 88): a DADDR in scratchpad is TRANS, one on another device NOTPLY. -/
def State.pageNlogOf (s : State) (e : EngCmd) (kind : AKind) : Except EngStop Nat :=
  match s.engResolve e kind (e.st 0) 1 with
  | .error x => .error x
  | .ok (.spad ..) | .ok (.kept ..) => .error (.err enTrans)
  | .ok (.mem _ w0 w1) => if bitAt w0 53 then .ok (bits w1 35 31) else .error (.err enNotPly)

/-- The magic number of a frame and of a dictionary (R197). -/
def frameMagic : Nat := 0xFD2FB528
def dictMagic : Nat := 0xEC30A437
/-- The ID of a dictionary. -/
def dictId (d : List Byte) : Nat := ofBytes ((d.drop 4).take 4)

/-- Bytes of a Frame_Content_Size field, and what is added to it (RFC 8878). -/
def sizeField (flag : Nat) : Nat × Nat := if flag = 0 then (1, 0) else if flag = 1 then (2, 256) else if flag = 2 then (4, 0) else (8, 0)

/-- The size flag of a frame: the encoder's free choice where it can hold the size. -/
def frameFlag (n : Nat) : Nat :=
  let f := Config.zstdSizeFlag n % 4
  let (b, add) := sizeField f
  if add ≤ n && n - add < 2 ^ (8 * b) then f else 3

/-- R196, R197: the frame of a content. -/
def frameOf (content : List Byte) (dict : Option (List Byte)) (csum : Bool) : List Byte :=
  let n := content.length
  let f := frameFlag n
  let (b, add) := sizeField f
  bytesOf 4 frameMagic
    ++ [BitVec.ofNat 8 (f * 64 + 32 + (if csum then 4 else 0) + (if dict.isSome then 3 else 0))]
    ++ (match dict with | some d => bytesOf 4 (dictId d) | none => [])
    ++ bytesOf b (n - add)
    ++ zstdEncode content dict
    ++ (if csum then bytesOf 4 (zstdChecksum content).toNat else [])

/-- A command's header bits: the dictionary that it uses, absent, or bound but empty. -/
def EngCmd.useDict (e : EngCmd) : Bool := bitAt e.cmdh 8
def EngCmd.boundDict (e : EngCmd) : Option (List Byte) := e.dict.getD none

/-- R197: what a frame holds; none where row 1 rejects it. -/
structure FrameHead where
  idBytes : Nat
  id      : Nat
  csum    : Bool
  body    : List Byte
  deriving DecidableEq, Repr

def frameHead (b : List Byte) (size : Nat) : Option FrameHead :=
  let d := (b.getD 4 0).toNat
  let (n, add) := sizeField (d / 64)
  let ids := if d % 4 = 3 then 4 else d % 4
  if ofBytes (b.take 4) ≠ frameMagic || !bitAt d 5 || bitAt d 3 || ofBytes ((b.drop (5 + ids)).take n) + add ≠ size
      || b.length < 5 + ids + n then none
  else some { idBytes := ids, id := ofBytes ((b.drop 5).take ids), csum := bitAt d 2, body := b.drop (5 + ids + n) }

/-- Whether the dictionary row of R197 holds. DESIGN CHOICE (log entry 37): an ID of 1 or 2 bytes, which R197 does not support, is
not the dictionary's, whatever its value. -/
def dictMismatch (e : EngCmd) (h : FrameHead) : Bool :=
  if e.useDict then
    match e.boundDict with
    | some d => h.id = 0 || h.idBytes ≠ 4 || h.id ≠ dictId d
    | none => true
  else h.id ≠ 0

/-- Bytes written at successive locations. -/
def spread : List (Nat × Nat) → List Byte → List (Nat × Byte)
  | [], _ => []
  | (loc, n) :: t, b => cellsAt loc (b.take n) ++ spread t (b.drop n)

/-- What an EPAGE comes to: the writes, the status, the frame length if there is one. -/
structure PageOut where
  out    : EngOut := {}
  stop   : Option EngStop := none
  length : Option Nat := none
  deriving DecidableEq, Repr

/-- Bytes that hold no valid frame (R196): they do not begin with its magic number. -/
def noFrame (b : List Byte) : List Byte := if ofBytes (b.take 4) = frameMagic then 0 :: b.drop 1 else b

/-- R196, out. -/
def State.pageOut (s : State) (e : EngCmd) : PageOut :=
  match s.pageNlogOf e .read with
  | .error x => { stop := some x }
  | .ok nlog =>
    let n := 2 ^ nlog
    let nw := e.st 2 % 2 ^ 32
    let flen := e.st 3 % 2 ^ 32
    if 8 * 2 ^ 20 < nw * ((bits e.cmdh 12 11 + 1) * (n / 2) + n / 8) then { stop := some (.err enTooBig) }
    else match s.spanPieces e .read nlog ((List.range nw).flatMap fun w => (pageSpans e n w).1 ++ (pageSpans e n w).2) with
      | .error x => { stop := some x }
      | .ok _ => match s.spanPieces e .read nlog ((List.range nw).flatMap fun w => (pageSpans e n w).1) with
        | .error x => { stop := some x }
        | .ok ps =>
          if ps.any fun p => (List.range p.2).any fun i => (s.memoryError e.cluster (p.1 + i)).isSome then
            { stop := some (.err enData) }
          else if e.useDict && e.boundDict.isNone then { stop := some (.err enDict) }
          else
            let content := ps.flatMap fun (loc, m) => (List.range m).map fun i => s.homeByte (loc + i)
            let f := frameOf content (if e.useDict then e.boundDict else none) (bitAt (e.st 5) 0)
            if flen < f.length then
              { out := { mem := cellsAt (e.st 1) (noFrame ((List.range flen).map fun i => Config.freeByte (s.fresh + i))) }
                stop := some (.err enSpace), length := some f.length }
            else { out := { mem := cellsAt (e.st 1) f }, length := some f.length }

/-- R196, R197, in. DESIGN CHOICE (log entry 88): the size stands before what the windows behind window 0's page hold, and a window's
page that is not mapped is TRANS. -/
def State.pageIn (s : State) (e : EngCmd) : PageOut :=
  match s.pageNlogOf e .write with
  | .error x => { stop := some x }
  | .ok nlog =>
    let n := 2 ^ nlog
    let nw := e.st 2 % 2 ^ 32
    let flen := e.st 3 % 2 ^ 32
    let win := (bits e.cmdh 12 11 + 1) * (n / 2) + n / 8
    let size := nw * win
    if 8 * 2 ^ 20 < size then { stop := some (.err enTooBig) }
    else match s.spanPieces e .write nlog ((List.range nw).flatMap fun w => (pageSpans e n w).1 ++ (pageSpans e n w).2) with
      | .error x => { stop := some x }
      | .ok _ =>
        match frameHead (s.shelfBytes (e.st 1) flen) size with
        | none => { stop := some (.err enFrame) }
        | some h =>
          if dictMismatch e h then { stop := some (.err enDict) }
          else
            let (content, rest, good) := zstdDecode size (if e.useDict then e.boundDict else none) h.body
            let whole := good && content.length = size && rest.length = if h.csum then 4 else 0
            let k := if whole then nw else min nw (content.length / win)
            let pieces := fun (l : List (Nat × Nat)) => match s.spanPieces e .write nlog l with | .ok p => p | .error _ => []
            let cells := (List.range k).flatMap fun w =>
              spread (pieces (pageSpans e n w).1) ((content.drop (w * win)).take win)
                ++ (pieces (pageSpans e n w).2).flatMap fun (loc, m) => cellsAt loc (List.replicate m 0)
            let status := if !whole then some (.err enFrame)
              else if h.csum && ofBytes rest ≠ (zstdChecksum content).toNat then some (.err enCsum)
              else none
            { out := { mem := cells }, stop := status }

/-- R196: EPAGE, its addresses first. -/
def State.epageRun (s : State) (e : EngCmd) : PageOut :=
  let r : PageOut := match s.shelfAddress e (e.st 1) with
    | some x => { stop := some (.err x) }
    | none => if bitAt e.cmdh 13 then s.pageIn e else s.pageOut e
  if bitAt e.cmdh 13 then { r with length := some (e.st 3 % 2 ^ 32) } else r

/-- Successive bytes at an engine's address. -/
def State.engBytes (s : State) (e : EngCmd) : Nat → Nat → Except EngStop (List Byte)
  | 0, _ => .ok []
  | n + 1, a => match s.engFetch e a 1 with
    | .error x => .error x
    | .ok b => match s.engBytes e n (a + 1) with
      | .error x => .error x
      | .ok l => .ok (b ++ l)

/-- R198: the dictionary that an EDICT loads. DESIGN CHOICE (log entry 88): a scratchpad source is TRANS. -/
def State.edictRun (s : State) (e : EngCmd) : Except EngStop (List Byte) :=
  let len := e.st 1 % 2 ^ 18
  let a := e.st 0
  if inSpadSpace a || (bitAt a 63 && (bitAt a 62 || bits a 59 58 ≠ 0)) then .error (.err enTrans)
  else if len < 8 || 131072 < len then .error (.err enDict)
  else
    let read := if bitAt a 63 && s.shelves.contains (bits a 57 48) then
        (match s.shelfRefuses e a with | some x => .error (.err x) | none => .ok (s.shelfBytes a len))
      else s.engBytes e len a
    match read with
    | .error x => .error x
    | .ok b => if ofBytes (b.take 4) ≠ dictMagic || !dictTables b then .error (.err enDict) else .ok b

/-- R198: an EDICT waits for an earlier one to its slot, and for an EPAGE bound to the face that it would write. DEDUCED (log entry
24): not for a later one of its own context, which begins after it (R191). -/
def State.edictWaits (s : State) (e : EngCmd) : Bool :=
  let slot := bits e.cmdh 10 9
  let inUse := (Tab.get {} (s.cluster e.cluster).dict slot).face
  s.engines.any fun f => f.cluster == e.cluster && bits f.cmdh 10 9 == slot && f.err == 0
    && ((f.op == 4 && f.id < e.id) || (f.op == 3 && f.useDict && f.face != inUse && (f.id < e.id || f.ctx != e.ctx)))

/-! ### ENGINE_CHUNK_PERFORM -/

/-- A command's record in flight changes. -/
def State.updEngine (s : State) (id : Nat) (f : EngCmd → EngCmd) : State :=
  { s with engines := s.engines.map fun e => if e.id == id then f e else e }

/-- One chunk of a command whose data move by chunks. -/
def State.runChunk (s : State) (e : EngCmd) : ChunkOut :=
  match e.op with
  | 0 => s.ecopyChunk e
  | 1 => s.egatherChunk e
  | _ => s.ereduceChunk e

/-- Whether the result record of an EPAGE can be written. -/
def State.recordStore (s : State) (e : EngCmd) : Except EngStop EngOut :=
  if e.st 4 = 0 then .ok {} else s.engStore e (e.st 4) (List.replicate 16 0) {}

/-- What stops the present chunk of a command, if anything does. -/
def State.chunkStop (s : State) (e : EngCmd) : Option EngStop :=
  match e.op with
  | 3 => match (s.epageRun e).stop, s.recordStore e with
    | some (.miss k), _ => some (.miss k)
    | _, .error (.miss k) => some (.miss k)
    | x, _ => x
  | 4 => match s.edictRun e with | .error x => some x | .ok _ => none
  | _ => (s.runChunk e).stop

/-- Whether a chunk needs a port that the alarm has stopped (19 R264). -/
def State.chunkClosed (s : State) (e : EngCmd) (k : Nat) : Bool :=
  s.alarm.isSome && (e.away s.devId || s.chunkStop { e with chunk := k } == some .closed)

/-- The page that a chunk of a command finds in no TLB. -/
def State.chunkMiss (s : State) (e : EngCmd) (k : Nat) : Option PageKey :=
  match s.chunkStop { e with chunk := k } with | some (.miss key) => some key | _ => none

/-- Whether a command waits for the walk of a page already. -/
def State.engWalking (s : State) (e : EngCmd) (key : PageKey) : Bool :=
  (s.walks ++ s.walksWaiting).any fun w => w.who == .engine e.id && s.samePage w.key key

/-- The chunk of a command that is dealt with next: at the locked level the next in order, at its cycle; else one that has been kept
back, by a page or behind a chunk that writes the same bytes, and that can go on, or else the next in order (R161). -/
def State.nextChunk (s : State) (e : EngCmd) : Option Nat :=
  let next := if e.chunk < e.chunks then some e.chunk else none
  if e.level = 2 then (if e.nextAt ≤ s.cycle then next else none)
  else match e.behind.find? fun k => (match s.chunkMiss e k with | some key => !s.engWalking e key | none => true) && !s.overtakes e k with
    | some k => some k
    | none => next

/-- Whether a command's next chunk may perform: after the earlier commands of its context to its engine have begun, at its cycle
at the locked level, and not over a port that the alarm has stopped (19 R264). -/
def State.canChunk (s : State) (n : Nat) : Bool :=
  match s.engines[n]? with
  | none => false
  | some e =>
    e.err == 0 && (match s.nextChunk e with | some k => !s.chunkClosed e k | none => false)
      && (e.op != 4 || !s.edictWaits e)
      && (e.copy.isSome || !(s.engines.any fun f => f.id < e.id && f.ctx == e.ctx && engineOf f.op == engineOf e.op && f.chunk == 0
          && f.chunk < f.chunks && f.err == 0 && f.copy.isNone))

/-- Whether a chunk of the locked level is due: it performs before the cycle ends, and before an acquire of the cycle (10 R177). -/
def State.lockedChunk (s : State) : Bool :=
  s.engines.zipIdx.any fun (e, n) => e.level == 2 && s.canChunk n

/-- R202: the later commands of the core to an engine take their places behind one whose last chunk gives them `u`; the commands
and the next u. -/
def State.restream (s : State) (e : EngCmd) : Nat → List EngCmd → List EngCmd × Nat
  | u, [] => ([], u)
  | u, f :: t =>
    if f.core == e.core && engineOf f.op == engineOf e.op && e.id < f.id && f.copy.isNone && f.level == 2 then
      let at_ := max (f.issued + (s.engTiming f).1) u
      let r := s.restream e (at_ + (s.engTiming f).2 * f.chunks) t
      ({ f with nextAt := at_ } :: r.1, r.2)
    else
      let r := s.restream e u t
      (f :: r.1, r.2)

/-- The stream of a core's engine behind a command from `u` on. -/
def State.followStream (s : State) (e : EngCmd) (u : Nat) : State :=
  let (l, v) := s.restream e u s.engines
  { s with engines := l }.updCore e.core fun k => { k with engNext := Tab.set 0 k.engNext (engineOf e.op) v }

/-- R164: a chunk of the locked level whose page the core's TLB lacks performs 640 cycles later, and what follows it moves with it. -/
def State.engDelay (s : State) (e : EngCmd) : State :=
  let t := s.putRecord e.core (e.ctx % 2)
    { cause := 6, baddr := e.baddr, pos := e.pos, start := (s.ctxFor e.kernel e.ctx).count, cyc := 640 }
  (t.updEngine e.id fun f => { f with nextAt := f.nextAt + 640, late := some f.chunk }).followStream e
    (e.nextAt + 640 + (s.engTiming e).2 * (e.chunks - e.chunk))

/-- The pages of a delayed chunk enter the core's TLB as it performs. -/
def State.engFill (e : EngCmd) : Nat → State → State
  | 0, s => s
  | n + 1, s => match s.chunkMiss { e with late := none } e.chunk with
    | none => s
    | some key => match s.walk key.part key.region key.va with
      | .ok _ => State.engFill e n (s.fillPage e.core key)
      | .error _ => s

/-- Below the locked level a chunk is kept back, and the chunks after it go on. -/
def EngCmd.keepBack (e : EngCmd) (k : Nat) : EngCmd :=
  if e.behind.contains k then e else { e with behind := e.behind ++ [k], chunk := e.chunk + 1 }

/-- Whether a walk keeps chunks of a command back, and the schedule count at which the first of those in flight was asked for. -/
def State.engWait (s : State) (e : EngCmd) : Option Nat :=
  if e.copy.isSome then none else ((s.walks ++ s.walksWaiting).find? fun w => w.who == .engine e.id).map Walk.start

/-- The record of a command's wait for walks, if it has one, is written (18 R242). -/
def State.endWait (s : State) (e : EngCmd) : State := match e.wait with | some d => s.putRecord e.core (e.ctx % 2) d | none => s

/-- R242: the cycles in which walks keep back chunks of a command, below the locked level, form one record as long as they have no
break. -/
def State.countWait (s : State) (e : EngCmd) : State :=
  match s.engWait e, e.wait with
  | some n, none => s.updEngine e.id fun f => { f with wait := some { cause := 6, baddr := e.baddr, pos := e.pos, start := n, cyc := 1 } }
  | some _, some d => s.updEngine e.id fun f => { f with wait := some { d with cyc := d.cyc + 1 } }
  | none, some _ => (s.endWait e).updEngine e.id fun f => { f with wait := none }
  | none, none => s

/-- R161, R162: below the locked level a chunk waits for the walk of its page. -/
def State.engMiss (s : State) (e : EngCmd) (k : Nat) (key : PageKey) : State :=
  let t := s.updEngine e.id fun f => f.keepBack k
  if s.engWalking e key then t else
  { t with walksWaiting := t.walksWaiting ++ [{
      who := .engine e.id, cluster := e.cluster, core := e.core, part := key.part, va := key.va, region := key.region
      since := s.cycle, start := (s.ctxFor e.kernel e.ctx).count }] }

/-- The completion word (R200). -/
def EngCmd.word (e : EngCmd) : Word64 :=
  BitVec.ofNat 64 (e.err * 2 ^ 56 + e.op * 2 ^ 52 + e.baddr / 16 % 2 ^ 44 * 16 + e.pos % 16)

/-- The result record of an EPAGE (R196). -/
def State.pageRecord (s : State) (e : EngCmd) (r : PageOut) : State :=
  if e.st 4 = 0 then s else
  let len := match r.length with
    | some n => bytesOf 8 n
    | none => (List.range 8).map fun i => Config.freeByte (s.fresh + i)
  let status := match r.stop with | some (.err x) => x | _ => 0
  match s.engStore e (e.st 4) (len ++ bytesOf 8 ({ e with err := status }).word.toNat) {} with
  | .ok o => ({ s with fresh := s.fresh + 8 }).engCommit e.kernel o
  | .error (.err x) => s.updEngine e.id fun f => { f with err := if f.err = 0 then x else f.err }
  | .error _ => s

/-- What a stop does to a command: an error ends it, and at the locked level what follows it moves up (R202). DESIGN CHOICE (log entry
95): a chunk or line before it in order that a page miss keeps back below the locked level then never performs. -/
def State.engStopped (s : State) (e : EngCmd) (x : Option EngStop) : State :=
  match x with
  | some (.err n) =>
    let t := s.updEngine e.id fun f => { f with err := n }
    if e.level = 2 then t.followStream e (s.cycle + (s.engTiming e).2) else t
  | _ => s

/-- A chunk counts as performed. -/
def EngCmd.stepped (e : EngCmd) (k p : Nat) : EngCmd :=
  if e.behind.contains k then { e with behind := e.behind.filter fun j => j != k }
  else { e with chunk := e.chunk + 1, nextAt := e.nextAt + p }

/-- The face that an EDICT leaves pending. DESIGN CHOICE (log entry 88): none, whatever error it ends with. -/
def State.pendDict (s : State) (e : EngCmd) (v : Option (List Byte)) : State :=
  s.updCluster e.cluster fun k => { k with dict := Tab.upd {} k.dict (bits e.cmdh 10 9) fun d => { d with pend := v } }

/-- The present chunk of a command performs: all its pages are there. -/
def State.performChunk (s : State) (e : EngCmd) : State :=
  let done := fun (t : State) => t.updEngine e.id fun f => f.stepped e.chunk (s.engTiming e).2
  match e.op with
  | 3 =>
    let r := s.epageRun e
    let t := { s.engCommit e.kernel r.out with fresh := s.fresh + e.st 3 % 2 ^ 32 + 1 }
    done ((t.engStopped e r.stop).pageRecord e r)
  | 4 => match s.edictRun e with
    | .ok b => done (s.pendDict e (some b))
    | .error x => done ((s.pendDict e none).engStopped e (some x))
  | _ =>
    let r := s.runChunk e
    let t := ({ s with fresh := s.fresh + 1 }.engCommit e.kernel r.out).updEngine e.id fun f =>
      { f with tagged := f.tagged + r.tags.length, rows := s.keptRows e }
    done (({ t with tagWrites := t.tagWrites ++ r.tags }).engStopped e r.stop)

/-- One chunk: it performs, or a page that it lacks delays it. -/
def State.doChunk (s : State) (n : Nat) : State :=
  match s.engines[n]? with
  | none => s
  | some e => match s.nextChunk e with
    | none => s
    | some k => if s.overtakes e k then s.updEngine e.id fun f => f.keepBack k else match s.chunkMiss e k with
      | some key => if e.level = 2 then s.engDelay e else s.engMiss e k key
      | none =>
        (if e.level = 2 && e.late == some k then State.engFill e 600 s else s).performChunk { e with chunk := k }

def execEngineChunkPerform (n : Nat) (s : State) := event (s.canChunk n) (s.doChunk n)

/-! ### ENGINE_COMPLETE (R199, R200) -/

/-- R56: an event counter goes up. -/
def State.countUp (s : State) (p c n : Nat) : State :=
  s.updPart p fun x => { x with counters := Tab.upd 0 x.counters c fun v => v + BitVec.ofNat 64 n }
/-- R56: a page-arrival set counts one more. -/
def State.arrive (s : State) (p c : Nat) : State :=
  s.updPart p fun x => { x with arrivals := Tab.upd 0 x.arrivals c fun v => v + 1 }

/-- Whether every chunk of a command has performed. -/
def EngCmd.performed (e : EngCmd) : Bool := e.chunks ≤ e.chunk && e.behind.isEmpty

/-- Whether a command has ended: its chunks have performed and its tagged lines too, or an error has stopped it. A command
without a chunk waits for its cycle at the locked level. -/
def State.canComplete (s : State) (n : Nat) : Bool :=
  match s.engines[n]? with
  | none => false
  | some e => e.copy.isNone && (e.err != 0 || (e.performed && e.tagged == 0
      && (e.level != 2 || e.chunks != 0 || e.nextAt ≤ s.cycle)))

/-- What the engines of a core still do in this cycle at the locked level, where its times are fixed: a chunk, or a completion, which lets
another command issue (R191, R202). -/
def State.lockedWork (s : State) (core : Nat) : Bool :=
  s.engines.zipIdx.any fun (e, n) => e.level == 2 && e.core == core && (s.canChunk n || s.canComplete n)

/-- Whether a command of the locked level completes in this cycle. -/
def State.lockedDone (s : State) : Bool := s.engines.zipIdx.any fun (e, n) => e.level == 2 && s.canComplete n

/-- The causes in the order of their codes (16 R227). -/
def causeOf (n : Nat) : Cause :=
  [.translation, .version, .illegalSyllable, .illegalBundle, .illegalOperand, .staleLatch, .queueOverflow, .arithFlag, .dataError
  ].getD n .debug

/-- The fault that an engine error is in the trailer of a dump (18 R253). A STATUS that no trap has gets a free CAUSE (log
entry 18). -/
def engineFault (status : Nat) : Raised :=
  match status with
  | 1 => { cause := .translation } | 2 => { cause := .version } | 3 => { cause := .translation, cond := 4 }
  | 4 => { cause := .translation, cond := 5 } | 5 => { cause := .dataError } | n => { cause := causeOf (Config.engineCause n % 10) }

/-- R253: an error of a command whose context waits for its dump. -/
def State.engineTrailer (s : State) (e : EngCmd) : State :=
  if (s.part e.part).dumps.contains e.ctx && (s.ctx e.ctx).share.kernel == e.kernel then
    s.updCtx e.ctx fun x => { x with stop := x.stop.map fun t =>
      { t with more := t.more ++ [({ engineFault e.err with pos := e.pos }, e.baddr)] } }
  else s

/-- The effects of completion at the command's level; an error reports to the owner and counts nothing. An interrupt is held until it is
taken: the 128 of R43 are those of the commands that a core can have in flight (R191). -/
def State.doComplete (s : State) (n : Nat) : State :=
  match s.engines[n]? with
  | none => s
  | some e =>
    let rest := s.engines.filter fun f => f.id != e.id
    let t := { s.endWait e with
      engines := rest
      walksWaiting := s.walksWaiting.filter fun w => w.who != .engine e.id
      saved := s.saved.filter fun v => (s.kernel v.kernel).isSome || rest.any fun f => f.kernel == v.kernel && f.copy.isNone }
    let slot := bits e.cmdh 10 9
    let t := if e.op = 4 then t.updCluster e.cluster fun k =>
      { k with dict := Tab.upd {} k.dict slot fun d => { d with loaded := some s.cycle } } else t
    if e.err ≠ 0 then (t.engineTrailer e).notify evEngine e.part e.core e.tag [e.word]
    else
      let t := if e.level != 2 && bitAt e.cmdh 14 then
        (if e.op = 3 && bitAt e.cmdh 13 then t.arrive e.part (e.cmdh % 64) else t.countUp e.part (e.cmdh % 256) 1) else t
      if e.level = 0 && bitAt e.cmdh 15 && !e.orphan then
        t.updFor e.kernel e.ctx fun x => { x with irq := x.irq ++ [e.word] }
      else t

def execEngineComplete (n : Nat) (s : State) := event (s.canComplete n) (s.doComplete n)

end Sys2Proof.Machine
end

