-- ==== Sys2Proof/Machine/Version.lean ====
section
/-! DEFINITION. Policy versions (14 R210 to R215, R332, R333): the states, pins and captures of slots, and the publish and
switch steps. -/
namespace Sys2Proof.Machine

/-- The locations of a region's descriptor, what the caches of clusters hold of them being flushed first (R173, R174). -/
def State.atRegion (s : State) (r : Nat) : State := s.flushAt ((List.range 128).map fun k => s.regionAt r + k)

/-- The first dword of a slot with its state, capture and pins replaced, and its reserved bits zero (R6). -/
def slotDword (d : Nat) (k : VSlot) : Nat :=
  d / 2 ^ 48 * 2 ^ 48 + k.state % 8 * 2 ^ 45 + (if k.cap then 2 ^ 44 else 0) + k.pins % 2 ^ 11 * 2 ^ 33

/-- A slot of region `r` changes: one step in the device total order (R210). -/
def State.updSlot (s : State) (r n : Nat) (f : VSlot → VSlot) : State :=
  match s.region r with
  | none => s
  | some g =>
    let a := s.regionAt r + 16 + 16 * n
    s.deviceCommit .device (cellsAt a (bytesOf 8 (slotDword (s.dword a) (f (g.slots.getD n {})))))

/-- EVC counts one event of region `r` (R210). -/
def State.countVersion (s : State) (r : Nat) : State :=
  match s.region r with
  | some g => s.countUp g.lpart g.evc 1
  | none => s

/-- R214: an older slot that nothing pins becomes retired, and EVC counts it. -/
def State.settleSlot (s : State) (r n : Nat) : State :=
  match s.region r with
  | none => s
  | some g =>
    let k := g.slots.getD n {}
    if k.state = stOlder && k.pins = 0 && !k.cap then
      (s.updSlot r n fun k => { k with state := stRetired }).countVersion r
    else s

/-- One pin more or less on the slot that holds a version. -/
def State.pin (s : State) (r v : Nat) : State :=
  match (s.region r).bind fun g => g.slotHolding v with
  | some n => s.updSlot r n fun k => { k with pins := k.pins + 1 }
  | none => s
def State.unpin (s : State) (r v : Nat) : State :=
  match (s.region r).bind fun g => g.slotHolding v with
  | some n => (s.updSlot r n fun k => { k with pins := k.pins - 1 }).settleSlot r n
  | none => s

/-- The region of which a partition is a rollout partition. DESIGN CHOICE (log entry 74): one that is named in RMASK and as LPART too,
which acts as the learner (R17), is asked by RMASK alone here, as R214 and R215 say it. -/
def State.rolloutRegion (s : State) (p : Nat) : Option Nat :=
  match s.boundRegion p with
  | some r => match s.region r with
    | some g => if bitAt g.rmask p then some r else none
    | none => none
  | none => none

/-- R214: every pin of a context is released. -/
def State.releasePins (s : State) (x : Ctx) : State :=
  match s.rolloutRegion x.part with
  | none => s
  | some r =>
    let s := s.atRegion r
    let s := s.unpin r x.vpin
    match x.pin with
    | some m => if m = x.vpin then s else s.unpin r m
    | none => s

/-- R214: the flip that exchanges VPIN, from version `old` to `new`. -/
def State.movePin (s : State) (p old new : Nat) : State :=
  if old = new then s else
  match s.rolloutRegion p with
  | none => s
  | some r => (s.atRegion r).unpin r old

/-! ### The publish step (R213) -/

/-- FAIL with a reason, and a version. -/
def pubFail (reason ver : Nat) : Nat := 2 ^ 63 + reason * 2 ^ 61 + ver

/-- R213 on a region after the release: the result word and the state after it. DESIGN CHOICE (log entry 91): where no slot is
current, c has version 0, no pins and no capture, and nothing is retired. -/
def State.publishRegion (s : State) (r : Nat) (g : Region) : Nat × State :=
  let cur := (g.slotIn stCurrent).getD 4
  let c := g.slots.getD cur {}
  let held := c.pins > 0 || c.cap
  match g.slotIn stDraft with
  | none => (pubFail 1 c.ver, s)
  | some dn =>
    let d := g.slots.getD dn {}
    if held && (g.slots.countP fun k => k.state == stOlder) = 2 then (pubFail 2 c.ver, s)
    else if g.slots.any fun k => (k.state == stCurrent || k.state == stOlder) && k.ver == d.ver then (pubFail 3 c.ver, s)
    else
      let t := s.updSlot r dn fun k => { k with state := stCurrent }
      let t := if cur < 4 then t.updSlot r cur fun k => { k with state := if held then stOlder else stRetired } else t
      let t := t.countVersion r
      (d.ver, if cur < 4 && !held then t.countVersion r else t)

/-- A request leaves the list, or is held there after a fault until its context resumes. -/
def State.holdVer (s : State) (n : Nat) : State := { s with verReqs := s.verReqs.modify n fun q => { q with held := true } }
def State.dropVer (s : State) (n : Nat) : State := { s with verReqs := s.verReqs.eraseIdx n }

/-- A result in flight that waits for the memory system takes its value, or a fault (R229). -/
def Ctx.fillResult (x : Ctx) (id val : Nat) (late : Option Raised) : Ctx :=
  { x with inflight := x.inflight.map fun r =>
      if r.id == id && r.isVar then
        { r with
          val := BitVec.ofNat 1024 val, lval := BitVec.ofNat 1024 val, ready := true
          late := late.map fun q => { q with pos := r.pos } }
      else r }

/-- A version fault found at a step is known at once (R217, R229). -/
def Ctx.versionFault (x : Ctx) (id cond : Nat) : Ctx :=
  { x with inflight := x.inflight.map fun r =>
      if r.id == id && r.isVar then
        { r with ready := true, found := true, late := some { cause := .version, cond, pos := r.pos } }
      else r }

/-- The step of a request finds a fault: the request is held until its context resumes, and the fault is reported. -/
def State.failVer (s : State) (n : Nat) (q : VerReq) (cond : Nat) : State :=
  (s.holdVer n).updCtx q.ctx fun x => x.versionFault q.res cond

/-- Whether a tagged write is an STQ of a context that no vault has accepted yet (R175). -/
def TagWrite.ofCtx (w : TagWrite) (c kernel : Nat) : Bool :=
  w.cmd.isNone && w.peer.isNone && w.held.isNone && w.ctx == c && w.kernel == kernel

/-- Whether a request may take its step: at a cycle after its issue (R213), in the order of issue among the requests of its
context of one kind (22 R332), those apart that a fault holds (16 R228, log entry 43); a publish is a release at device scope, which
waits for earlier STQs (R175) and, below the locked level, for room in the caches (R170). -/
def State.canVer (s : State) (pub : Bool) (n : Nat) : Bool :=
  match s.verReqs[n]? with
  | some q => q.pub == pub && !q.held && q.issued < s.cycle && !((s.verReqs.take n).any fun v => v.ctx == q.ctx && v.pub == pub && !v.held)
      && (!pub || (!(s.tagWrites.any fun w => w.ofCtx q.ctx (s.ctx q.ctx).share.kernel && w.num < q.res)
        && ((s.ctx q.ctx).level == 2 || s.roomToRelease q.ctx .device)))
  | none => false

/-- The region bound to a partition, as it stands at the device point of coherence, with its number. -/
def State.regionBound (s : State) (p : Nat) : Option (Nat × Region) :=
  (s.boundRegion p).bind fun r => ((s.atRegion r).region r).map fun g => (r, g)

/-- R213: the slots are read once the release has committed. -/
def State.doVerpub (s : State) (n : Nat) : State :=
  match s.verReqs[n]? with
  | none => s
  | some q => match s.regionBound (s.ctx q.ctx).part with
    | none => s.failVer n q 2
    | some (r, g) =>
      if g.lpart ≠ (s.ctx q.ctx).part then s.failVer n q 2
      else
        let t := ((s.atRegion r).release q.ctx .device).atRegion r
        let (res, u) := match t.region r with | some g => t.publishRegion r g | none => (pubFail 0 0, t)
        (u.dropVer n).updCtx q.ctx fun x => x.fillResult q.res res none

def execVerpubStep (n : Nat) (s : State) := event (s.canVer true n) (s.doVerpub n)

/-! ### The switch step (R214, R215) -/

/-- The version that a VERSW finds, or the condition of its fault. -/
def Region.switchTo (g : Region) (p : Nat) (named : Option Nat) : Except Nat Nat :=
  if !bitAt g.rmask p then .error 2
  else match named with
    | none => match g.slotIn stCurrent with
      | some k => .ok (g.slots.getD k {}).ver
      | none => .error 1
    | some v => match g.slotHolding v with
      | some _ => .ok v
      | none => .error 1

/-- R214: the pins at a VERSW's step for version `n`. -/
def State.switchPins (s : State) (r : Nat) (x : Ctx) (n : Nat) : State :=
  match x.pin with
  | some m =>
    let t := if m = n || m = x.vpin then s else s.unpin r m
    if n = x.vpin || n = m then t else t.pin r n
  | none => if n = x.vpin then s else s.pin r n

def State.doVersw (s : State) (n : Nat) : State :=
  match s.verReqs[n]? with
  | none => s
  | some q =>
    let x := s.ctx q.ctx
    match s.regionBound x.part with
    | none => s.failVer n q 2
    | some (r, g) => match g.switchTo x.part q.named with
      | .error cond => s.failVer n q cond
      | .ok v => (((s.atRegion r).switchPins r x v).dropVer n).updCtx q.ctx fun y =>
        { y.fillResult q.res v none with pin := some v }

def execVerswStep (n : Nat) (s : State) := event (s.canVer false n) (s.doVersw n)

end Sys2Proof.Machine
end

