-- ==== Sys2Proof/Machine/Flip.lean ====
section
/-! DEFINITION. What happens to a context between its bundles: results that memory delivers (02 R35), faults found late
(16 R229), atomics (10 R172), the waits and the exchange of a flip (02 R37, R38; 03 R54; 12 R198; 14 R214), the next task
(03 R53), the completion handler's entry (02 R43) and the random-bit queue (06 R110). Fetching a bundle's words stands first, since
DONE of a fault found late asks for the bundle at hand (04 R74). -/
namespace Sys2Proof.Machine

/-- Whether a context's bundles and waits go on. -/
def Ctx.alive (x : Ctx) : Bool := x.run == .running || (x.run == .finishing && x.handler.isSome)

/-! ### Fetching (04 R62, R63, R74; 09 R161) -/

/-- The class of a word, a NOP, and the class of a word at a place of a list. -/
def wordClass (w : Nat) : Nat := bits w 31 28
def isNop (w : Nat) : Bool := wordClass w == 2 && bits w 24 20 == 0

/-- Positions that hold the header, a link or a NOP, and those beyond the last quad, as a mask (R74). -/
def fixedMask (ws : List Nat) : Nat :=
  (List.range 12).foldl (fun m p =>
    let w := ws.getD p 0
    if ws.length ≤ p || wordClass w = 0 || wordClass w = 15 || isNop w then m + 2 ^ p else m) 0

/-- One quad, from memory at the device point of coherence; the trap of a fetch stands at position 0. -/
def State.quadAt (s : State) (c a : Nat) : Except Raised (List Nat) :=
  match s.resolve c .exec false a with
  | .error r => .error r
  | .ok k =>
    match (List.range 16).findSome? fun i => (s.memoryError (clusterOf (coreOf c)) (k.loc + i)).map fun d => (d, k.loc + i) with
    | some (d, loc) => .error { cause := .dataError, cond := d, faddr := a, loc }
    | none =>
      let b := (List.range 16).map fun i => s.homeByte (k.loc + i)
      .ok ((List.range 4).map fun i => ofBytes ((b.drop (4 * i)).take 4))

/-- The words of a bundle of at most `n` quads. -/
def State.fetch (s : State) (c : Nat) : Nat → Nat → Except Raised (List Nat)
  | 0, _ => .ok []
  | n + 1, a =>
    match s.quadAt c a with
    | .error r => .error r
    | .ok ws =>
      if wordClass (ws.getD 3 0) = 15 then
        match s.fetch c n (a + 16) with
        | .error r => .error r
        | .ok rest => .ok (ws ++ rest)
      else .ok ws

/-- The positions of the bundle at a context's program counter that hold no operation syllable, as far as it can be fetched (R74). -/
def State.fixedAt (s : State) (c : Nat) : Nat :=
  match s.fetch c 3 (s.ctx c).pc with | .ok ws => fixedMask ws | .error _ => 0

/-! ### Results and late faults -/

/-- Whether result number `id` of a context may land below the locked level: before the context's turn in the cycle, in which
flags that are due land too, a FLAGS of the turn reads it, and a CSRW or a FLAGS.c that lands in the cycle does not undo its
bits (R31, 20 R295). -/
def State.canLand (s : State) (c id : Nat) : Bool :=
  let x := s.ctx c
  x.alive && x.level != 2 && !s.served.contains c
    && x.inflight.any fun r => r.id == id && r.isVar && r.ready && r.late.isNone && r.at_ ≤ s.cycle

/-- R35: the memory system delivers a result. -/
def Ctx.landVariable (x : Ctx) (cycle id : Nat) : Ctx :=
  match x.inflight.find? fun r => r.id == id && r.isVar with
  | none => x
  | some r => ({ x with inflight := x.inflight.filter fun a => !(a.id == id && a.isVar) }).land cycle r

/-- The schedule count of this cycle's turn: a FLIP wait goes on by one. -/
def Ctx.turnCount (x : Ctx) : Nat := if x.flip.isSome && x.redo.isNone then x.count + 1 else x.count

def execVariableResultLand (c n : Nat) (s : State) :=
  event (s.canLand c n) (s.updCtx c fun x => (x.landUpTo x.turnCount s.cycle).landVariable s.cycle n)

/-- Whether the fault of a result has been found (R229): at a version step, when the data return, or at its resolution
cycle. -/
def Result.faulted (r : Result) (level count cycle : Nat) : Bool :=
  r.late.isSome && r.ready && (r.found || if r.isVar && level != 2 then r.at_ ≤ cycle else r.due ≤ count)

/-- The first result of a context whose fault has been found. -/
def State.lateFault (s : State) (c : Nat) : Option (Result × Raised) :=
  let x := s.ctx c
  if !x.alive then none
  else match x.inflight.find? fun r => r.faulted x.level x.count s.cycle with
    | some r => r.late.map fun q => (r, q)
    | none => none

/-- R229: the context stops at its boundary or in its FLIP wait; a bundle that a resumption has still to finish keeps its
DONE bits. DEDUCED (log entry 22): at a boundary RPC names the latest bundle that has issued, as it names the FLIP's bundle in a
FLIP wait, since R232 issues nothing of a bundle whose DONE bits are all set. -/
def State.stopLate (s : State) (c : Nat) (r : Result) (q : Raised) : State :=
  let x := s.ctx c
  s.setCtx c (match x.redo, x.flip with
  | some d, _ => x.takeTrap s.cycle q r.baddr x.pc (d ||| s.fixedAt c) false
  | none, some w => x.takeTrap s.cycle q r.baddr w.baddr (0xFFF - 2 ^ w.pos) true
  | none, none => x.takeTrap s.cycle q r.baddr x.last 0xFFF false)

def execLateFaultReport (c : Nat) (s : State) :=
  event (s.lateFault c).isSome (match s.lateFault c with
    | some (r, q) => s.stopLate c r q
    | none => s)

/-! ### HANDLER_ENTRY (02 R43) -/

/-- A held interrupt, a context that runs or waits at a FLIP, and no handler in progress. -/
def State.canHandle (s : State) (c : Nat) : Bool :=
  let x := s.ctx c
  x.level == 0 && (x.run == .running || x.run == .finishing) && x.handler.isNone && !x.irq.isEmpty && x.redo.isNone

/-- The boundary of R43 is the next one: the entry comes before the context's turn of the cycle, and at once in a FLIP wait
(`State.held`, `State.canExchange`). -/
def execHandlerEntry (c : Nat) (s : State) :=
  event (s.canHandle c) (s.updCtx c fun x =>
    match x.irq with
    | w :: rest => ({ x with irq := rest }).enterHandler w
    | [] => x)

/-- What a context has to do at its boundary before its turn: report a fault that has been found (16 R229), or take an
interrupt. -/
def State.boundary (s : State) (c : Nat) : Bool := (s.lateFault c).isSome || s.canHandle c

/-! ### Atomics (10 R172, R173) -/

/-- The locations that an atomic acts on. -/
def Atomic.locs (a : Atomic) : List Nat := (List.range a.size).map fun i => a.loc + i

/-- Whether an atomic acts at a cluster's cache. -/
def Atomic.atCluster (a : Atomic) : Bool := match a.inst with | .cluster _ => true | _ => false

/-- The atomics of the same context and instance that come before number `n` in the order of issue (R173). DEDUCED from R228 (log entry
43): one that a fault holds until its context resumes is passed over, since the results of the others are collected first. -/
def State.atomicsBefore (s : State) (a : Atomic) (n : Nat) : List Atomic :=
  (s.atomics.take n).filter fun b => b.ctx == a.ctx && b.inst == a.inst && !b.held

/-- Atomics of one context at one instance perform in the order of issue; none passes a fabric port while the alarm stands (19 R264),
and one at a cluster's cache comes before what the cycle commits to its bytes at the vault controllers (R169). -/
def State.canAtomic (s : State) (n : Nat) : Bool :=
  match s.atomics[n]? with
  | none => false
  | some a => !a.held && !(a.remote && s.alarm.isSome) && (s.atomicsBefore a n).isEmpty && !(a.atCluster && s.overtaken a.locs)

/-- The data error that an atomic meets (09 R155, R156). -/
def State.atomicError (s : State) (a : Atomic) : Option Raised :=
  (List.range a.size).findSome? fun i =>
    (match a.inst with | .cluster k => s.memoryError k (a.loc + i) | _ => s.vaultError (a.loc + i)).map fun d =>
      { cause := .dataError, cond := d, faddr := a.loc, loc := a.loc + i }

/-- The fault of an atomic names the address as it was issued (16 R230). -/
def Ctx.issuedAt (x : Ctx) (id : Nat) (q : Raised) : Raised :=
  match x.inflight.find? fun r => r.id == id && r.isVar with
  | some r => { q with faddr := r.ea }
  | none => q

def State.doAtomic (s : State) (n : Nat) : State :=
  match s.atomics[n]? with
  | none => s
  | some a =>
    let bad := if a.remote then refusalOf s.fresh a.loc else s.atomicError a
    let s := if a.remote then { s with fresh := s.fresh + 1 } else s
    match bad with
    | some q => ({ s with atomics := s.atomics.modify n fun b => { b with held := true } }).updCtx a.ctx fun x =>
        x.fillResult a.res 0 (some (x.issuedAt a.res q))
    | none =>
      let (old, t) := s.atomicRun a
      ({ t with atomics := t.atomics.eraseIdx n }).updCtx a.ctx fun x =>
        { x.fillResult a.res old none with
          inflight := (x.fillResult a.res old none).inflight.map fun (r : Result) =>
            if r.id == a.res && r.isVar then { r with at_ := max r.at_ s.cycle } else r }

def execAtomicPerform (n : Nat) (s : State) := event (s.canAtomic n) (s.doAtomic n)

/-! ### Barrier lines (03 R54) -/

/-- Whether a context is a participant of a kernel's lines: from the cycle in which its clear begins until the exchange of its
last RETIRE (R54). -/
def Ctx.participates (x : Ctx) (id cycle : Nat) : Bool :=
  x.share.kernel == id && !x.ended && match x.run with
    | .free | .dying => false
    | .clearing start _ => start ≤ cycle
    | _ => true

/-- The cycle F reaches every participant that has arrived. -/
def Ctx.fireAt (x : Ctx) (f : Nat) : Ctx :=
  { x with
    flip := x.flip.map fun w => { w with fire := some f }
    handler := x.handler.map fun h => { h with wait := h.wait.map fun w => { w with fire := some f } } }

/-- A line of which `who` are the participants: whether it completes. -/
def Line.complete (l : Line) (who : List Nat) : Bool := !l.arrived.isEmpty && who.all fun c => l.arrived.contains c

/-- The participants of a kernel's line. -/
def State.participants (s : State) (k : Kernel) (cluster : Option Nat) : List Nat :=
  k.ctxs.filter fun c =>
    (match cluster with | some j => clusterOf (coreOf c) == j | none => true) && (s.ctxFor k.id c).participates k.id s.cycle

/-- The line of a cluster is looked at again. -/
def State.settleCluster (s : State) (j : Nat) : State :=
  let l := (s.cluster j).line
  match l.holder.bind s.kernel with
  | none => s
  | some k =>
    if l.complete (s.participants k (some j)) then
      l.arrived.foldl (fun t c => t.updFor k.id c fun x => x.fireAt (s.cycle + 2))
        (s.updCluster j fun y => { y with line := { y.line with arrived := [] } })
    else s

/-- The line of a partition is looked at again. -/
def State.settlePart (s : State) (p : Nat) : State :=
  let l := (s.part p).line
  match l.holder.bind s.kernel with
  | none => s
  | some k =>
    if l.complete (s.participants k none) then
      l.arrived.foldl (fun t c => t.updFor k.id c fun x => x.fireAt (s.cycle + 8))
        (s.updPart p fun y => { y with line := { y.line with arrived := [] } })
    else s

/-- A context arrives on the line of a scope. -/
def State.arriveAt (s : State) (c : Nat) (b : BScope) : State :=
  let j := clusterOf (coreOf c)
  let p := (s.ctx c).part
  let t := s.updCtx c fun x => { x with flip := x.flip.map fun w => { w with arrived := true } }
  match b with
  | .nb => s
  | .cl => (t.updCluster j fun y => { y with line := { y.line with arrived := c :: y.line.arrived } }).settleCluster j
  | .pt => (t.updPart p fun y => { y with line := { y.line with arrived := c :: y.line.arrived } }).settlePart p

/-! ### Tagged writes that may arrive (10 R175) -/

/-- A line of another device: its tag is not this device's (log entry 9). -/
def TagWrite.isRemote (w : TagWrite) : Bool := 2 ^ 63 ≤ 256 * w.line
/-- The tag of a line. -/
def State.tagOf (s : State) (line : Nat) : Nat := Tab.get 0 s.tags line
/-- Whether a write's tag is the line's. -/
def State.tagMatches (s : State) (w : TagWrite) : Bool := w.isRemote || s.tagOf w.line == w.tag
/-- Writes that the vault of a line holds. -/
def State.heldAt (s : State) (line : Nat) : Nat :=
  let v := s.vaultOf (256 * line)
  s.tagWrites.countP fun w => w.held.isSome && s.vaultOf (256 * w.line) == v

/-- A write that its vault cannot take: the tag differs and the vault is full. -/
def State.tagBlocked (s : State) (w : TagWrite) : Bool := !s.tagMatches w && Config.heldMax ≤ s.heldAt w.line

/-- Whether two STQs of one context name one line: they reach its vault in the order of issue (22 R324). -/
def TagWrite.sameStream (v w : TagWrite) : Bool :=
  v.cmd.isNone && w.cmd.isNone && v.held.isNone && v.peer == w.peer && v.ctx == w.ctx && v.kernel == w.kernel && v.line == w.line

/-- A tagged write may arrive: its time has come, and nothing that waits in the network is before it. -/
def State.canTag (s : State) (n : Nat) : Bool :=
  match s.tagWrites[n]? with
  | none => false
  | some w => w.held.isNone && w.due ≤ s.cycle && !s.tagBlocked w && !(w.isRemote && s.alarm.isSome)
      && !((s.tagWrites.take n).any fun v => v.held.isNone && v.due ≤ s.cycle && s.tagBlocked v
        && s.vaultOf (256 * v.line) == s.vaultOf (256 * w.line))
      && !((s.tagWrites.take n).any fun v => v.sameStream w)

/-- Whether a tagged write of the locked level is due: an EREDUCE line performs in the cycle of its chunk, and an STQ is accepted in
its cycle (10 R177, 22 R325). -/
def State.lockedTag (s : State) : Bool :=
  s.tagWrites.zipIdx.any fun (w, n) => w.peer.isNone && s.canTag n && match w.cmd with
    | some k => s.engines.any fun e => e.id == k && e.level == 2
    | none => (s.ctxFor w.kernel w.ctx).level == 2

/-! ### FLIP_RELEASE (02 R37, R38) -/

/-- Publication cycles of the locked level (R38). -/
def pubCycles : PScope → Nat
  | .none => 0 | .cluster => 32 | .device => 224 | .system => 3136

/-- Whether the context's present task is the last of its share (R53). -/
def Ctx.lastTask (x : Ctx) : Bool := x.share.tileEnd ≤ x.share.tile + x.share.tileStep

/-- Whether a view stops being live once the writes of a flip have landed: at every FLIP and at the last RETIRE (10 R170). -/
def Ctx.endsView (x : Ctx) (w : FlipWait) : Bool := !w.retire || x.lastTask

/-- The writes of a flip have landed: the view stops being live (10 R170), and without a publication scope the context
arrives on its line. DESIGN CHOICE (log entry 67): flags that are formed later, those of class 9 and of plied updates that are
still due, are no writes of R37, and the flip does not wait for them: those of class 9 reach the hidden face after the exchange,
those of plied updates before it (`Ctx.landUpdates`). Nor is the answer to a store a register write (log entry 66). -/
def State.settleFlip (s : State) (c : Nat) : State :=
  let x := s.ctx c
  match x.flip with
  | none => s
  | some w =>
    if w.landedAt.isSome || x.inflight.any (fun r => !r.faultOnly) then s
    else
      let t := s.setCtx c { x with
        flip := some { w with landedAt := some x.count }, view := { x.view with live := x.view.live && !x.endsView w } }
      if w.pub = .none && !w.arrived then t.arriveAt c w.bar else t

/-- The schedule count of the present cycle of a FLIP wait, before the context's turn in the cycle or after it. -/
def State.countNow (s : State) (c : Nat) : Nat := if s.served.contains c then (s.ctx c).count else (s.ctx c).turnCount

/-- The locations of the pending bytes that a release of a scope other than the system's commits. -/
def Ctx.pendingLocs (x : Ctx) : List Nat := (x.pendingOf false).map Prod.fst

/-- Whether a flip's release waits for the answers to the context's stores, its acknowledgements (R37): one of system scope, which sends
them, and that of the last RETIRE, behind which no boundary is left to report a refusal at (log entry 66). -/
def Ctx.waitsForStores (x : Ctx) (w : FlipWait) : Bool :=
  (w.pub == .system || (w.retire && x.lastTask)) && x.inflight.any Result.faultOnly

/-- Whether a flip's release may end: once the STQs have been accepted (10 R175, 22 R325), at the locked level in its cycle, below it
once the commit has room for the images that it must keep (10 R170, 03 R59); one of cluster scope comes before what the cycle commits
to its bytes at the vault controllers (10 R169). -/
def State.canRelease (s : State) (c : Nat) : Bool :=
  let x := s.ctx c
  x.alive && !x.preempt && match x.flip with
    | none => false
    | some w => match w.landedAt with
      | none => false
      | some n => w.pub != .none && !w.released && x.stqs = 0 && !x.waitsForStores w && !(w.pub == .cluster && s.overtaken x.pendingLocs)
          && (if x.level = 2 then max n x.stqBy + pubCycles w.pub ≤ s.countNow c else s.roomToRelease c w.pub)

/-- R168, R171: the commit; then the context arrives on its line. -/
def State.doRelease (s : State) (c : Nat) : State :=
  match (s.ctx c).flip with
  | none => s
  | some w =>
    let t := (s.release c w.pub).updCtx c fun x =>
      { x with flip := x.flip.map fun w => { w with released := true } }
    if w.bar = .nb || w.arrived then t else t.arriveAt c w.bar

def execFlipRelease (c : Nat) (s : State) := event (s.canRelease c) (s.doRelease c)

/-- Whether an atomic of the locked level is due in this cycle: its result is, and waits for it. -/
def State.atomicDue (s : State) (a : Atomic) : Bool :=
  let x := s.ctx a.ctx
  x.level == 2 && x.inflight.any fun r => r.id == a.res && r.isVar && !r.ready && r.due ≤ x.turnCount

/-- Whether an atomic at a cluster's cache is due in this cycle, or has to perform before one that is, and can perform in it with those
before it (10 R172, R173). -/
def State.clusterAtomicDue (s : State) (a : Atomic) (n : Nat) : Bool :=
  a.atCluster && !a.held && (a :: s.atomicsBefore a n).all (fun b => !s.overtaken b.locs)
    && (s.atomics.drop n).any fun b => b.ctx == a.ctx && b.inst == a.inst && s.atomicDue b

/-- The locations that the locked level has still to commit in this cycle at a cluster's cache: what the cycle commits there at the
vault controllers comes after (10 R169). -/
def State.clusterDue (s : State) : List Nat :=
  (s.ctxs.flatMap fun x => if x.2.level == 2 && (x.2.flip.any fun w => w.pub == .cluster) && s.canRelease x.1 then x.2.pendingLocs else [])
    ++ s.atomics.zipIdx.flatMap fun (a, n) => if s.clusterAtomicDue a n then a.locs else []

/-- Whether a step from `s` to `t` comes no earlier than what R169 places before its commits. -/
def State.keepsOrder (s t : State) : Bool :=
  let due := s.clusterDue
  due.isEmpty || !((s.fresher t).any fun m => m.atVault && due.any fun a => (m.at_ a).isSome)

/-! ### FLIP_EXCHANGE (02 R29, R37) -/

/-- Whether a flip's waits are over. What engines of the locked level write in the cycle, their lines too, is written before an acquire
of the cycle (10 R177); a context that is to be pre-empted or interrupted is so in its wait (R43, 16 R234). -/
def State.canExchange (s : State) (c : Nat) : Bool :=
  let x := s.ctx c
  x.alive && s.served.contains c && !s.lockedChunk && !s.lockedTag && !x.preempt && !s.boundary c && match x.flip with
    | none => false
    | some w => w.landedAt.isSome && (w.pub == .none || w.released)
        && (w.bar == .nb || (match w.fire with | some f => f ≤ s.cycle | none => false))

/-- R198: the faces of a cluster's dictionary slots exchange where every EDICT to the slot has completed before. -/
def State.exchangeDicts (s : State) (j : Nat) : State :=
  s.updCluster j fun k =>
    { k with dict := (List.range 4).foldl (fun t n =>
        Tab.upd {} t n fun d => match d.loaded with
          | some f =>
            if f < s.cycle && !(s.engines.any fun e => e.op == 4 && e.copy.isNone && e.cluster == j && bits e.cmdh 10 9 == n) then
              { use := d.pend, pend := d.use, face := !d.face, loaded := none, swapped := some s.cycle }
            else d
          | none => d) k.dict }

/-- R311: operands fetched ahead and not popped are discarded, and fetched again from the next cycle. -/
def Ctx.dropAhead (x : Ctx) (cycle : Nat) : Ctx :=
  { x with ports := (List.range 4).foldl (fun t n =>
      if (Tab.get {} t n).glob then
        Tab.upd {} t n fun w => { w with ahead := [], lastFetch := none, from_ := cycle + 1 } else t) x.ports }

/-- A context leaves every line of its kernel (R53, R54). -/
def State.leaveLines (s : State) (c : Nat) : State :=
  (s.settleCluster (clusterOf (coreOf c))).settlePart (s.ctx c).part

/-- R53: the exchange of a RETIRE ends a task. -/
def State.endTask (s : State) (c : Nat) (f : Nat) : State :=
  let x := s.ctx c
  if !x.lastTask then
    (s.timeDrains c f).updCtx c fun x => { x with run := .between (s.cycle + 4), count := f + 4 }
  else
    ((s.updCtx c fun x => { x with run := .finishing, ended := true, view := { x.view with live := false } }).updKernel x.share.kernel
      fun k => { k with cyc := max k.cyc f }).leaveLines c

/-- The exchange with all that takes place in its cycle. A flip without a publication scope leaves the view (10 R168); DEDUCED (log
entry 21): when it exchanges a VPIN written in its phase, reads of versioned regions follow the commits made before it. -/
def State.doExchange (s : State) (c : Nat) : State :=
  let x := s.ctx c
  match x.flip with
  | none => s
  | some w =>
    let f := x.count
    let old := x.vpin
    let switched := (Tab.get {} x.csr csrVpin).wr
    let acquires := w.pub != .none && !w.retire
    let y := { (x.landUpdates s.cycle).exchange with flip := none, count := f + 1, pin := none }
    let y := if acquires || switched then y.dropAhead s.cycle else y
    let s := s.setCtx c y
    let s := if switched then ((s.movePin y.part old y.vpin).dropReadOnly c).acquireVersion c else s
    let s := if acquires then s.acquire c else s
    let s := if !w.retire && (w.bar != .nb || w.pub != .none) then s.exchangeDicts (clusterOf (coreOf c)) else s
    if w.retire then s.endTask c f else s

def execFlipExchange (c : Nat) (s : State) := event (s.canExchange c) (s.doExchange c)

/-! ### TASK_START (03 R53) -/

/-- The arguments in the visible faces of s1 to s(NARG). -/
def Ctx.giveArgs (x : Ctx) : Ctx :=
  { x with s := x.share.args.zipIdx.foldl (fun t (a, k) =>
      Tab.upd {} t (k + 1) fun (f : Face 64) => { f with v := a }) x.s }

/-- The coordinates of a context's present tile. -/
def State.tileCoords (s : State) (x : Ctx) : Tab Nat :=
  match s.kernel x.share.kernel with
  | some k => k.d.tileCoord x.share.tile
  | none => []

def State.canTask (s : State) (c : Nat) : Bool :=
  match (s.ctx c).run with
  | .between t => t ≤ s.cycle
  | _ => false

def State.doTask (s : State) (c : Nat) : State :=
  let x := s.ctx c
  let x := { x with share := { x.share with tile := x.share.tile + x.share.tileStep } }
  s.setCtx c { x.giveArgs with
    run := .running, pc := x.share.entry, tc := s.tileCoords x, loops := [], newLoop := none, target := none }

def execTaskStart (c : Nat) (s : State) := event (s.canTask c) (s.doTask c)

/-! ### RANDOM_WORD_FILL (06 R110) -/

/-- One word in each cycle, after the context's turn, while the queue has room. -/
def State.canFill (s : State) (c : Nat) : Bool :=
  let x := s.ctx c
  (match x.run with | .free | .clearing .. | .preempted | .dying => false | _ => true) && x.rnd.length < 64 && x.rndAt != some s.cycle
    && (!x.alive || s.served.contains c)

/-- Word n of the sequence of QKEY. -/
def Ctx.fillRandom (x : Ctx) (cycle : Nat) : Ctx :=
  { x with rndAt := some cycle, rnd := x.rnd ++ [BitVec.ofNat 64 (mix64 (x.csrV csrQkey).toNat x.rndN)], rndN := x.rndN + 1 }

def execRandomWordFill (c : Nat) (s : State) := event (s.canFill c) (s.updCtx c fun x => x.fillRandom s.cycle)

end Sys2Proof.Machine
end

