-- ==== Sys2Proof/Machine/Walk.lean ====
section
/-! DEFINITION. Page walks in flight (09 R161 to R164), invalidations (R163), the vault lending table (R154), tagged
writes at their vaults (10 R175; 12 R195; 22 R325) and the replacement of cluster-cache lines (10 R171). -/
namespace Sys2Proof.Machine

/-! ### Walks -/

/-- What a page found means to the one that asked for it. -/
def State.walkFound (s : State) (w : Walk) (e : TlbEntry) : State :=
  match w.who with
  | .prefetch c toL1 global => match e.grant w.key .read false global w.va with
    | .ok r => s.prefetchLine c r.loc (!toL1)
    | .error _ => s.pfFaulted c
  | _ => s

/-- What a walk that failed means to it: the waiting bundle or the operand of a port traps, the engine stops, the PF counts.
DESIGN CHOICE (log entry 87): a PF counts too where the walk met a descriptor with an uncorrectable error. -/
def State.walkFailed (s : State) (w : Walk) (cond : Nat) : State :=
  match w.who with
  | .bundle c => s.updCtx c fun x => { x with walked := (w.key.page, walkTrap cond w.va) :: x.walked }
  | .port c n => s.updCtx c fun x => { x with ports := Tab.upd {} x.ports n fun k =>
      { k with walked := (w.key.page, walkTrap cond w.va) :: k.walked } }
  | .engine n => s.updEngine n fun e => { e with walked := (w.key.page, cond) :: e.walked }
  | .prefetch c .. => s.pfFaulted c
  | .none => s

/-- The descriptors that a walk reads pass through the cluster's cache (R161). -/
def State.readThrough (s : State) (w : Walk) : State :=
  let (ver, level, root) := s.walkRoot w.part w.region
  (s.walkLines ver w.va (4 - level) level root).foldl (fun t l => t.touchCluster w.cluster l) s

/-- One request is answered: the TLBs of the core and of its cluster are filled; a failed walk leaves nothing (R160). -/
def State.answer (s : State) (w : Walk) : State :=
  let s := s.readThrough w
  match s.walk w.part w.region w.va with
  | .error cond => s.walkFailed w cond
  | .ok e =>
    let t := { s with fresh := s.fresh + 2 }.updCluster w.cluster fun k => { k with tlb := tlbPutSet e k.tlb s.fresh }
    let t := match w.who with
      | .engine _ | .none => t
      | _ => t.updCore w.core fun k => { k with tlb := tlbPut 256 e k.tlb (s.fresh + 1) }
    t.walkFound w e

/-- A walk that is not one that has joined another may end; at the locked level in its cycle, which does not end before it
(R164, `State.pressing`). -/
def State.canWalk (s : State) (n : Nat) : Bool :=
  match s.walks[n]? with
  | none => false
  | some w => !w.joined && (!w.isLocked || w.till ≤ s.cycle)

/-- The requests of a cluster that have joined a walk and whose walk is no longer in flight. -/
def State.joinedTo (s : State) (cluster : Nat) (v : Walk) : Bool := v.joined && v.cluster == cluster && !s.walking v

/-- A walk ends, and those that have joined it with it; each is answered for its own address. -/
def State.doWalk (s : State) (n : Nat) : State :=
  match s.walks[n]? with
  | none => s
  | some w =>
    let t := { s with walks := s.walks.eraseIdx n }
    if w.isLocked then t.answer w
    else (w :: t.walks.filter (t.joinedTo w.cluster)).foldl State.answer
      { t with walks := t.walks.filter fun v => !t.joinedTo w.cluster v }

def execTranslationWalkComplete (n : Nat) (s : State) := event (s.canWalk n) (s.doWalk n)

def execWalkerStart (cluster : Nat) (s : State) := event (s.nextWalk cluster).isSome (s.startWalk cluster)

/-- The context that has asked for a walk. -/
def Asker.ctx : Asker → Option Nat
  | .bundle c | .port c _ | .prefetch c .. => some c
  | _ => .none

/-- Contexts leave their places: what they wait for is dropped, and what is in flight for them below the locked level ends for
nobody, filling the cluster's TLB alone (log entry 14). -/
def State.orphanWalks (s : State) (gone : Nat → Bool) : State :=
  let theirs := fun (w : Walk) => w.who.ctx.any gone
  { s with
    walksWaiting := s.walksWaiting.filter fun w => !theirs w
    walks := (s.walks.filter fun w => !(theirs w && w.isLocked)).map fun w => if theirs w then { w with who := .none } else w }

/-! ### Invalidation (R163) -/

/-- Whether an entry is for the page that an invalidation names. -/
def TlbEntry.named (e : TlbEntry) (p va size : Nat) : Bool :=
  e.part == p && e.size == size && e.va == va / 2 ^ pageBits size * 2 ^ pageBits size

/-- The page leaves every TLB. -/
def State.invalidate (s : State) (p va size : Nat) : State :=
  let keep := fun (l : List TlbEntry) => l.filter fun e => !e.named p va size
  { s with
    cores := s.cores.foldl (fun t (k, c) =>
      if c.tlb.any fun e => e.named p va size then Tab.set {} t k { c with tlb := keep c.tlb } else t) s.cores
    clusters := s.clusters.foldl (fun t (k, c) =>
      if c.tlb.any fun e => e.named p va size then Tab.set {} t k { c with tlb := keep c.tlb } else t) s.clusters }

/-- R163: the page leaves the TLBs, the walks for it start again, and a replay of a locked kernel fails. -/
def State.doTlbinv (s : State) (p : Nat) (v : Word64) : State :=
  let va := bits v.toNat 47 16 * 2 ^ 16
  let size := v.toNat % 4
  let t := s.invalidate p va size
  let t := { t with kernels := t.kernels.map fun (k : Kernel) => if k.part == p && k.level == 2 then { k with nr := true } else k }
  t.updPart p fun x => { x with busy := true, inval := x.inval ++ [(va, size)] }

def execTlbinv (p : Nat) (v : Word64) (s : State) := event (s.ownerReaches && (s.part p).on) (s.hear.doTlbinv p v)

/-- The invalidations complete: what a walk has filled meanwhile under the old descriptor goes too. -/
def State.endTlbinv (s : State) (p : Nat) : State :=
  ((s.part p).inval.foldl (fun t (va, size) => t.invalidate p va size) s).updPart p fun x =>
    { x with busy := false, inval := [] }

def execTlbinvComplete (p : Nat) (s : State) := event (s.part p).busy (s.endTlbinv p)

/-! ### Lending a vault (R154) -/

/-- The owner receives a health event. -/
def State.healthEvent (s : State) (p core tag : Nat) : State := s.notify evHealth p core tag []

/-- Whether two ranges share an address. -/
def overlaps (a n b m : Nat) : Bool := a < b + m && b < a + n

/-- The rows of R154 that turn a write away. -/
def State.lendRefused (s : State) (pcore : Nat) (v : Word64) : Bool :=
  let busy := fun (q : Nat) => s.kernels.any fun k => k.part == q
  let old := Tab.get 0 s.vlend pcore
  (lendOn v && ((s.parts.any fun p => p.2.on && overlaps (lendBase v) Config.vaultBytes p.2.pbase p.2.span)
      || (s.vlend.any fun e => e.1 != pcore && lendOn e.2 && overlaps (lendBase v) Config.vaultBytes (lendBase e.2) Config.vaultBytes)))
    || (s.cluster (clusterOf pcore)).part.isSome
    || (lendOn old && busy (lendPart old)) || (lendOn v && busy (lendPart v))

/-- EN, PART and LBASE of a written entry; writes of reserved bits are ignored (R6). -/
def lendMask (v : Word64) : Word64 := v &&& 0xF000007FC0000000

def State.doVlend (s : State) (pcore : Nat) (v : Word64) : State :=
  if s.lendRefused pcore (lendMask v) then s.healthEvent 0 pcore 0
  else { s with vlend := Tab.set 0 s.vlend pcore (lendMask v) }

def execVlendWrite (pcore : Nat) (v : Word64) (s : State) := event (s.ownerReaches && pcore < Config.cores) (s.hear.doVlend pcore v)

/-! ### Tagged writes (10 R175) -/

/-- Bytes that a tagged write makes of a line. -/
def State.tagBytes (s : State) (w : TagWrite) : List (Nat × Byte) :=
  match w.act with
  | .bytes b => b
  | .reduce rop fmt elems =>
    let z := if fmt = 1 then 2 else 4
    elems.flatMap fun (a, v) => cellsAt a (bytesOf z (reedCombine rop fmt (ofBytes ((List.range z).map fun i => s.homeByte (a + i))) v))

/-- Whether a tagged write is a line of an EREDUCE. -/
def TagWrite.isReduce (w : TagWrite) : Bool := match w.act with | .reduce .. => true | .bytes _ => false

/-- The answer to the device that has sent a tagged write, while the ports work (19 R264). -/
def State.tagReply (s : State) (w : TagWrite) (refused : Option (Cause × Nat)) : State :=
  match w.peer with
  | some d => if s.alarm.isSome then s else { s with replies := s.replies ++ [{ dest := d, refused }] }
  | none => s

/-- The commands of a tagged write that has performed count it; another device hears of its EREDUCE. -/
def State.tagDone (s : State) (w : TagWrite) : State :=
  match w.cmd with
  | some n => s.updEngine n fun e => { e with tagged := e.tagged - 1 }
  | none => if w.isReduce then s.tagReply w none else s

/-- The errors of the bytes that a reduction reads stop its command (R200). -/
def State.tagError (s : State) (w : TagWrite) : Bool :=
  match w.act with
  | .bytes _ => false
  | .reduce _ _ elems => elems.any fun e => (s.vaultError e.1).isSome

/-- A tagged write performs: the bytes, visible from the next device-scope acquire, and the tag. -/
def State.tagPerform (s : State) (w : TagWrite) : State :=
  if w.isRemote then (s.sendRemote (s.tagBytes w)).tagDone w
  else
    let t := if s.tagError w then match w.cmd with
        | some n => s.updEngine n fun e => { e with err := if e.err = 0 then enData else e.err }
        | none => s
      else
        let u := s.flushAt ((s.tagBytes w).map Prod.fst)
        u.vaultCommit .device (u.tagBytes w)
    ({ t with tags := Tab.set 0 t.tags w.line ((t.tagOf w.line + 1) % 2 ^ 16) }).tagDone w

/-- R242: the record of a write that was held. -/
def State.tagRecord (s : State) (w : TagWrite) : State :=
  match w.held.filter fun _ => w.peer.isNone with
  | some n => s.putRecord (coreOf w.ctx) (w.ctx % 2) { cause := 7, baddr := w.baddr, pos := w.pos, start := w.start, cyc := s.cycle - n }
  | none => s

/-- Whether a vault holds a write that has not reached its time (R175). -/
def TagWrite.waitsAt (w : TagWrite) (cycle : Nat) : Bool :=
  match w.held with | some t => cycle < t + Config.heldCycles | none => false

/-- Held writes of a line whose tag has come perform, in the order of their arrival; one that has reached its time is discarded. -/
def State.recheck (line : Nat) : Nat → State → State
  | 0, s => s
  | fuel + 1, s =>
    match s.tagWrites.findIdx? fun w => w.waitsAt s.cycle && w.line == line && s.tagMatches w with
    | none => s
    | some n => match s.tagWrites[n]? with
      | none => s
      | some w => recheck line fuel ((({ s with tagWrites := s.tagWrites.eraseIdx n }).tagPerform w).tagRecord w)

/-- R325: an STQ has been accepted; where a full vault has kept it waiting (R175), what waits for it counts from now. -/
def State.tagAccepted (s : State) (w : TagWrite) : State :=
  if w.cmd.isSome then s
  else if w.peer.isSome then (if w.isReduce then s else s.tagReply w none)
  else s.updFor w.kernel w.ctx fun x => { x with stqs := x.stqs - 1, stqBy := max x.stqBy (s.countNow w.ctx) }

def State.doTag (s : State) (n : Nat) : State :=
  match s.tagWrites[n]? with
  | none => s
  | some w =>
    let t := ({ s with tagWrites := s.tagWrites.eraseIdx n }).tagAccepted w
    if s.tagMatches w then State.recheck w.line Config.heldMax (t.tagPerform w)
    else { t with tagWrites := t.tagWrites ++ [{ w with held := some s.cycle, start := (s.ctxFor w.kernel w.ctx).count }] }

def execTaggedWriteArrive (n : Nat) (s : State) := event (s.canTag n) (s.doTag n)

def State.canExpire (s : State) (n : Nat) : Bool :=
  match s.tagWrites[n]? with
  | some w => w.held.isSome && !w.waitsAt s.cycle
  | none => false

/-- R175, R200: the write is discarded; its command ends with TAGTIME, or the owner hears of the STQ; the line of
another device is refused (log entry 9). -/
def State.doExpire (s : State) (n : Nat) : State :=
  match s.tagWrites[n]? with
  | none => s
  | some w =>
    let t := { s with tagWrites := s.tagWrites.eraseIdx n }
    match w.cmd with
    | some k => (t.tagDone w).updEngine k fun e => { e with err := if e.err = 0 then enTagTime else e.err }
    | none =>
      if w.isReduce then t.tagReply w (some (.translation, 5)) else t.healthEvent w.part (coreOf w.ctx) w.launch

def execHeldWriteTimeout (n : Nat) (s : State) := event (s.canExpire n) (s.doExpire n)

/-! ### REPLACEMENT_WRITEBACK (10 R171, 09 R152) -/

/-- A line may leave the cache, unless pending bytes stand in it (10 R170). -/
def State.canReplace (s : State) (k line : Nat) : Bool :=
  !s.pendsAt k line && ((s.cluster k).lines.contains line || (s.cluster k).unflushed.any fun u => u.loc / 256 == line)

def execReplacementWriteback (cluster line : Nat) (s : State) :=
  event (s.canReplace cluster line) (s.replaceLine cluster line)

end Sys2Proof.Machine
end

