-- ==== Sys2Proof/Machine/Log.lean ====
section
/-! DEFINITION. Replay capture (18 R247 to R251): the log ring of a partition, its records, the snapshot, the digest of a
kernel and the comparison during a replay. -/
namespace Sys2Proof.Machine

/-! ### Memory as a partition sees it, read at the device point of coherence -/

/-- A page for a virtual address of a partition; a versioned region is read under its current version (19 R256). -/
def State.partPage (s : State) (p va : Nat) : Option TlbEntry :=
  match s.copyAim p .read va with
  | .page key _ => match s.walk key.part key.region key.va with
    | .ok e => if permits e.word0 .read false then some e else none
    | .error _ => none
  | _ => none

/-- `n` bytes at a virtual address, page by page; a byte that no page maps is free (log entry 5). -/
def State.partBytes (s : State) (p : Nat) : Nat → Nat → Nat → List Byte
  | 0, _, _ => []
  | fuel + 1, va, n =>
    if n = 0 then [] else
    let m := min n (2 ^ 16 - va % 2 ^ 16)
    (match s.partPage p va with
      | some e => (List.range m).map fun i => s.homeByte (e.dpa va + i)
      | none => (List.range m).map fun i => Config.freeByte (s.fresh + va + i))
      ++ s.partBytes p fuel (va + m) (n - m)

/-- `n` bytes of a partition's memory. -/
def State.bytesAt (s : State) (p va n : Nat) : List Byte := s.partBytes p (n / 2 ^ 16 + 2) va n

/-! ### The ring -/

/-- Bytes that a record takes: offsets in the ring are multiples of 16 (R243, R247). -/
def recordSize (body : Nat) : Nat := (16 + body + 15) / 16 * 16

/-- Bytes that may be written before the head would meet the tail (R243). -/
def Part.logRoom (p : Part) : Nat := if p.logLen = 0 then 0 else (p.logTail + 2 * p.logLen - p.logHead - 16) % p.logLen

/-- Whether a record fits beside the 32 bytes kept for a gap record (R250). -/
def Part.logFits (p : Part) (body : Nat) : Bool := recordSize body + 32 ≤ p.logRoom

/-- Bytes of the ring, from an offset on, at their device physical addresses. -/
def Part.ringCells (p : Part) (off : Nat) (b : List Byte) : List (Nat × Byte) :=
  b.zipIdx.map fun (x, i) => (bits p.logBase.toNat 38 12 * 4096 + (off + i) % p.logLen, x)

/-- The 16-byte header of a record (R248). -/
def logHeader (ty q len seq : Nat) : List Byte := bytesOf 8 (ty * 2 ^ 60 + q * 2 ^ 56 + len) ++ bytesOf 8 seq

/-- A record is written at the head. What is not logged after it stands behind it, so it ends a gap (R250). -/
def State.logWrite (s : State) (p ty q seq : Nat) (body : List Byte) : State :=
  let x := s.part p
  let t := s.deviceCommit .device (x.ringCells x.logHead (logHeader ty q body.length seq ++ body))
  t.updPart p fun y => { y with
    logHead := (y.logHead + recordSize body.length) % y.logLen
    gap := if ty = 3 then y.gap else none }

/-- R250, mark mode: one more packet of queue `q` that is not logged; the record names the queue of the first and, in its body, that
packet's SEQ. -/
def State.logGap (s : State) (p q seq : Nat) : State :=
  let x := s.part p
  match x.gap with
  | some (first, n, off) =>
    (s.deviceCommit .device (x.ringCells (off + 24) (bytesOf 8 (n + 1)))).updPart p fun y => { y with gap := some (first, n + 1, off) }
  | none =>
    if x.logRoom < 32 then s else
    (s.logWrite p 3 q x.logSeq (bytesOf 8 seq ++ bytesOf 8 1)).updPart p fun y => { y with gap := some (seq, 1, x.logHead) }

/-- The bytes of a packet as received. -/
def packetBytes (k : Packet) : List Byte := bytesOf 8 k.hdr.toNat ++ k.body.flatMap fun w => bytesOf 8 w.toNat

/-- A packet's record is written, or the packet runs unlogged, or the record is owed (R248, R250). -/
def State.logPacket (s : State) (p q : Nat) (k : QPacket) : QPacket × State :=
  let x := s.part p
  if !x.logOn then ({ k with owed := false }, s)
  else if x.logFits (packetBytes k.pk).length then
    ({ k with owed := false }, s.logWrite p 0 q k.seq (packetBytes k.pk))
  else if x.logMark then ({ k with owed := false }, s.logGap p q k.seq)
  else ({ k with owed := true }, s)

/-- Owed records are written as far as they fit now. -/
def State.settleOwed (s : State) (p : Nat) : State :=
  (s.part p).queues.foldl (fun t (q, x) =>
    x.packets.foldl (fun t k =>
      if !k.owed then t else
      let (k', u) := t.logPacket p q k
      u.updQueue p q fun y => { y with packets := y.packets.map fun a => if a.arrival == k.arrival then k' else a }) t) s

/-! ### Snapshots, digests, replays -/

/-- The in-regions or the out-regions of a queue, as addresses and lengths. -/
def Queue.regions (q : Queue) (out : Bool) : List (Nat × Nat) :=
  (q.declared.filter fun d => d.2.2 == out).map fun d => (d.1, d.2.1)

/-- Every declared in-region with its bytes (R247). -/
def State.snapshot (s : State) (p q : Nat) : List (Nat × List Byte) :=
  ((s.queue p q).regions false).map fun (va, n) => (va, s.bytesAt p va n)

/-- The body of a snapshot record. -/
def snapBody (l : List (Nat × List Byte)) : List Byte :=
  l.flatMap fun (va, b) => bytesOf 8 va ++ bytesOf 8 b.length ++ b

/-- R249. -/
def State.kernelDigest (s : State) (p q : Nat) : List Byte :=
  shake256 (((s.queue p q).regions true).flatMap fun (va, n) => bytesOf 8 va ++ bytesOf 8 n ++ s.bytesAt p va n)

/-- The body of a digest record (R248). -/
def digestBody (k : Kernel) (digest : List Byte) : List Byte :=
  bytesOf 8 k.seq ++ bytesOf 8 k.cyc ++ digest ++ bytesOf 8 (if k.nr then 1 else 0)

/-- `n` bytes of the log ring. -/
def State.logBytes (s : State) (p off n : Nat) : List Byte :=
  let x := s.part p
  (List.range n).map fun i => Memory.read s.dram (bits x.logBase.toNat 38 12 * 4096 + (off + i) % x.logLen)

/-- A record of the log: its type, queue and SEQ, and its offset in the ring (R248). -/
structure LogRec where
  ty  : Nat
  q   : Nat
  seq : Nat
  off : Nat
  deriving DecidableEq, Repr

/-- The records from an offset on up to the head. -/
def State.recordsFrom (s : State) (p : Nat) : Nat → Nat → List LogRec
  | 0, _ => []
  | fuel + 1, off =>
    if off = (s.part p).logHead then [] else
    let h := ofBytes (s.logBytes p off 8)
    { ty := h / 2 ^ 60, q := bits h 59 56, seq := ofBytes (s.logBytes p (off + 8) 8), off }
      :: s.recordsFrom p fuel ((off + recordSize (h % 2 ^ 32)) % (s.part p).logLen)

/-- The records of a partition's log. -/
def State.logRecords (s : State) (p : Nat) : List LogRec := s.recordsFrom p ((s.part p).logLen / 16 + 1) (s.part p).logTail

/-- The first dword of a record's body. -/
def State.firstDword (s : State) (p : Nat) (r : LogRec) : Nat := ofBytes (s.logBytes p (r.off + 16) 8)

/-- Whether a replay from SEQ `base` on has met a gap by SEQ `n` (R250, R251). -/
def State.gapBy (s : State) (p base n : Nat) : Bool :=
  (s.logRecords p).any fun r => r.ty == 3 && base ≤ s.firstDword p r && s.firstDword p r ≤ n

/-- The SEQs of the LAUNCH packets of queue `q` in the log that a replay from SEQ `base` on has still to issue. -/
def State.launchSeqs (s : State) (p q base : Nat) : List Nat :=
  ((s.logRecords p).filter fun r => r.ty == 0 && r.q == q && base ≤ r.seq && s.firstDword p r / 2 ^ 60 == 0
    && (match Tab.get none (s.part p).replayAt q with | some n => n < r.seq | none => true)).map LogRec.seq

/-- The record of the digest of the LAUNCH with a SEQ. -/
def State.digestRecord (s : State) (p q seq : Nat) : Option LogRec :=
  (s.logRecords p).find? fun r => r.ty == 2 && r.q == q && s.firstDword p r == seq

/-- A replay ends. -/
def State.endReplay (s : State) (p : Nat) : State := s.updPart p fun x => { x with replay := none }

/-- R251: the packets of a replay are issued in SEQ order from the snapshot on, so a LAUNCH that a queue accepts is that with the lowest
SEQ of those that the log holds for the queue and that it has not been issued yet; at a gap the replay ends. -/
def State.nameLogged (s : State) (p q : Nat) (launch : Bool) : Option Nat × State :=
  match (s.part p).replay with
  | none => (none, s)
  | some base =>
    if !launch then (none, s) else
    match (s.launchSeqs p q base).min? with
    | none => (none, s)
    | some n =>
      if s.gapBy p base n then (none, s.endReplay p)
      else (some n, s.updPart p fun x => { x with replayAt := Tab.set none x.replayAt q (some n) })

end Sys2Proof.Machine
end

