-- ==== Sys2Proof/Machine/Packet.lean ====
section
/-! DEFINITION. Queue packets (19 R254 to R257, R346): their fields, acceptance, the head of a queue, and the packets other
than LAUNCH: COPY, DEP, SIGNAL, SETDET (16 R226), PUBLISH, CAPTURE (14 R220) and MARK (18 R247). -/
namespace Sys2Proof.Machine

/-! ### Fields (R254, R255) -/

def pkType (k : Packet) : Nat := bits k.hdr.toNat 63 60
def pkPart (k : Packet) : Nat := bits k.hdr.toNat 59 57
def pkQueue (k : Packet) : Nat := bits k.hdr.toNat 56 53
def pkLen (k : Packet) : Nat := bits k.hdr.toNat 52 40
def pkSrc (k : Packet) : Nat := bits k.hdr.toNat 39 30
/-- Body dword `n`. -/
def pkWord (k : Packet) (n : Nat) : Nat := (k.body.getD n 0).toNat

/-- Packet types. -/
def tyLaunch : Nat := 0
def tyCopy : Nat := 1
def tyDep : Nat := 2
def tySignal : Nat := 3
def tySetdet : Nat := 4
def tyPublish : Nat := 5
def tyCapture : Nat := 6
def tyMark : Nat := 7
def tyResync : Nat := 8
def tyOwner : Nat := 9

/-- The LEN of each type (R255). -/
def lenOf (k : Packet) : Nat :=
  match pkType k with
  | 0 => 5 + bits (pkWord k 0) 52 48
  | 1 => 3 | 2 => 2 | 3 => 2 | 4 => 1 | 5 => 1 | 6 => 2 | 7 => 2
  | 8 => if bitAt (pkWord k 0) 0 then 5 else 1
  | _ => 3725

/-- R257, the first row. A packet whose body is not LEN dwords is not what its header says. -/
def malformed (k : Packet) : Bool :=
  let ty := pkType k
  10 ≤ ty || k.body.length ≠ pkLen k || pkLen k ≠ lenOf k
    || ((ty = tyResync || ty = tyOwner) && (pkPart k ≠ 0 || pkQueue k ≠ 0))
    || (ty = tyResync && pkWord k 0 / 2 ≠ 0) || (ty = tyOwner && bits (pkWord k 0) 61 42 ≠ 0)

/-- Reasons of a refusal (R257, R259, R260); the codes are the model's (log entry 15). -/
def rfMalformed : Nat := 1
def rfNotOwner : Nat := 2
def rfNoPart : Nat := 3
def rfFull : Nat := 4
def rfBadSig : Nat := 5
def rfOwned : Nat := 6

/-- A refusal goes to SRC (R257, R258). -/
def State.refuse (s : State) (k : Packet) (reason : Nat) : State :=
  s.sendTo (pkSrc k) (eventD0 evRefusal (pkPart k) 0 (pkTag k)) [BitVec.ofNat 64 reason]

/-- Bytes of queue memory in use. -/
def Part.queueBytes (p : Part) : Nat :=
  p.queues.foldl (fun a q => q.2.packets.foldl (fun a k => a + 8 * (1 + k.pk.body.length)) a) 0

/-- R257: acceptance into queue memory; under capture the packet is numbered and logged (18 R248), in a replay it takes its number in
the log (18 R251). -/
def State.accept (s : State) (k : Packet) : State :=
  let p := pkPart k
  let q := pkQueue k
  let n := s.serial + 1
  let seq := if (s.part p).logOn then (s.part p).logSeq + 1 else 0
  let t := { s with serial := n }.updPart p fun x => { x with logSeq := if x.logOn then seq else x.logSeq }
  let (logged, t) := t.nameLogged p q (pkType k == tyLaunch)
  let (e, t) := t.logPacket p q { pk := k, arrival := n, seq, logged }
  t.updQueue p q fun x => { x with packets := x.packets ++ [e] }

/-- Ownership lapses; queues, kernels and control blocks are untouched (R260). -/
def State.lapse (s : State) : State := { s with owner := { s.owner with id := none } }

/-- An ownership event: the owner there now, and the epoch (log entry 15). -/
def State.tellOwner (s : State) (dest tag : Nat) : State :=
  s.sendTo dest (eventD0 evOwner 0 0 tag)
    [match s.owner.id with | some o => BitVec.ofNat 64 (2 ^ 63 + o) | none => 0, BitVec.ofNat 64 s.owner.epoch]

/-- A new owner: its lease begins in this cycle, and it receives the kept events, oldest first (R258); while the alarm stands the ports drop
them (R264). -/
def State.becomeOwner (s : State) (o : Nat) : State :=
  { s with
    owner := { s.owner with id := some o, heard := s.cycle }
    sent := if s.alarm.isSome then s.sent else s.sent ++ s.kept.map fun m => { m with dest := o }
    kept := [] }

/-- The claim that wins: the highest EPOCH, then the lowest SRC. -/
def winner : List Claim → Option Claim
  | [] => none
  | a :: t => match winner t with
    | none => some a
    | some b => if b.epoch < a.epoch || (a.epoch == b.epoch && a.src ≤ b.src) then some a else some b

/-- The election window has closed. -/
def State.electionOver (s : State) : Bool := match s.owner.closes with | some t => t ≤ s.cycle | none => false

/-- The winner's EPOCH becomes the device's, and every participant is told. DESIGN CHOICE (log entry 19): its lease begins as the window
closes. -/
def State.closeElection (s : State) : State :=
  let l := s.owner.claims
  let closed := s.owner.closes.getD s.cycle
  let s := { s with owner := { s.owner with claims := [], closes := none } }
  match winner l with
  | none => s
  | some w =>
    let t := ({ s with owner := { s.owner with epoch := w.epoch } }).becomeOwner w.src
    let t := { t with owner := { t.owner with heard := closed } }
    l.foldl (fun t c => t.tellOwner c.src c.tag) t

/-- R260: what participant `src` has sent. It comes after the election whose window has closed; what the owner sends lets its lease go
on, whatever becomes of it; a lease that is over has lapsed. -/
def State.hearSrc (s : State) (src : Nat) : State :=
  let s := if s.electionOver then s.closeElection else s
  if s.leaseOver then s.lapse else if s.owner.id = some src then s.hear else s

/-- A packet has arrived from its sender. -/
def State.heard (s : State) (k : Packet) : State := s.hearSrc (pkSrc k)

/-- R257 for a packet of a queued type. -/
def State.queuePacket (s : State) (k : Packet) : State :=
  let p := s.part (pkPart k)
  if s.owner.id ≠ some (pkSrc k) then s.refuse k rfNotOwner
  else
    if !p.on then s.refuse k rfNoPart
    else if Config.queueMemory < p.queueBytes + 8 * (1 + k.body.length) then s.refuse k rfFull
    else s.accept k

/-! ### The head of a queue (R56, R346) -/

/-- The head packet, if the queue is not halted and its record is not owed. -/
def State.head (s : State) (p q : Nat) : Option QPacket :=
  let x := s.queue p q
  if !(s.part p).on || (s.part p).dead || x.halt.isSome then none
  else match x.packets with
    | k :: _ => if k.owed then none else some k
    | [] => none

/-- The head packet if it is of a type and has not begun. -/
def State.fresh? (s : State) (p q ty : Nat) : Option QPacket :=
  match s.head p q with
  | some k => if pkType k.pk = ty && (s.queue p q).head == .idle then some k else none
  | none => none

/-- The head packet has completed, and the next one comes to the head. -/
def State.finish (s : State) (p q : Nat) : State :=
  s.updQueue p q fun x => { x with packets := x.packets.tail, head := .idle, watch := 0, acted := 0, digest := none }

/-- A queue stops at its head packet with a status. -/
def Queue.stop (x : Queue) (h : Halt) : Queue := { x with halt := some h, head := .idle, digest := none }

/-- The queue halts with a status, and the owner receives a health event with the packet's TAG. -/
def State.haltQueue (s : State) (p q : Nat) (h : Halt) : State :=
  (s.updQueue p q fun x => x.stop h).healthEvent p 0 (s.headTag p q)

/-- The two runs of R235 of a queue's head packet are given up: what halts, discards or kills the head ends them. -/
def State.dropRerun (s : State) (p q : Nat) : State :=
  s.updPart p fun x => { x with reruns := x.reruns.filter fun r => r.kernel.queue != q }

/-- R346: what in the body of a packet other than LAUNCH and SETDET is not allowed. -/
def bodyBad (k : Packet) : Bool :=
  let w := pkWord k 0
  match pkType k with
  | 2 => bits w 62 8 ≠ 0 || (bitAt w 63 && 64 ≤ w % 256)
  | 3 => w / 256 ≠ 0
  | 5 => w / 8 ≠ 0
  | 6 => w / 2 ^ 32 ≠ 0 || bits w 15 5 ≠ 0 || w % 4 = 3
  | 7 => w / 16 ≠ 0 || 5 ≤ w % 8 || (bitAt w 3 && w % 8 ≠ 4) || (w % 8 ≠ 2 && pkWord k 1 ≠ 0)
  | _ => false

/-- In a replay, packets of other types than LAUNCH, COPY, DEP, SIGNAL and SETDET are skipped (18 R251). -/
def State.skips (s : State) (p : Nat) (k : QPacket) : Bool := (s.part p).replay.isSome && tyPublish ≤ pkType k.pk

/-- A packet at the head: performed, skipped in a replay, or the queue halts (R346). -/
def State.perform? (s : State) (p q : Nat) (k : QPacket) (f : State → State) : State :=
  if s.skips p k then s.finish p q
  else if bodyBad k.pk then s.haltQueue p q .packetError else f s

/-- A head packet that waits. -/
def State.wait? (s : State) (p q : Nat) : State := s.updQueue p q fun x => { x with head := .waiting }

/-! ### COPY (R256) -/

def execCopy (p q : Nat) (s : State) :=
  event (s.fresh? p q tyCopy).isSome (match s.fresh? p q tyCopy with
    | none => s
    | some k => s.perform? p q k fun t =>
      let id := t.serial + 1
      let j := (t.part p).clusters.headD 0
      let e : EngCmd :=
        { id, stage := k.pk.body, core := 16 * j, cluster := j, part := p, issued := t.cycle, copy := some (p, q) }
      { t with serial := id, engines := t.engines ++ [e] }.updQueue p q fun x => { x with head := .running id })

/-- The command of the COPY at the head of a queue. -/
def State.copyCmd (s : State) (p q : Nat) : Option EngCmd :=
  if (s.head p q).isSome then s.engines.find? fun e => e.copy == some (p, q) && (s.queue p q).head == .running e.id else none

/-- R256: a COPY is complete with its last chunk or at an error. -/
def State.copyEnded (s : State) (p q : Nat) : Bool :=
  match s.copyCmd p q with
  | some e => e.err != 0 || e.performed
  | none => false

def State.endCopy (s : State) (p q : Nat) : State :=
  match s.copyCmd p q with
  | none => s
  | some e =>
    let t := { s with
      engines := s.engines.filter fun f => f.id != e.id
      walksWaiting := s.walksWaiting.filter fun (w : Walk) => w.who != Asker.engine e.id }
    if e.err = 0 then t.finish p q
    else (t.updQueue p q fun x => x.stop .copyError).notify evEngine p 0 (s.headTag p q) [e.word]

def execCopyComplete (p q : Nat) (s : State) := event (s.copyEnded p q) (s.endCopy p q)

/-! ### DEP and SIGNAL (R56) -/

/-- A DEP of one kind at the head. -/
def State.freshDep (s : State) (p q : Nat) (set : Bool) : Option QPacket :=
  match s.fresh? p q tyDep with
  | some k => if bitAt (pkWord k.pk 0) 63 == set then some k else none
  | none => none

def State.doDep (s : State) (p q : Nat) (set : Bool) : State :=
  match s.freshDep p q set with
  | none => s
  | some k => s.perform? p q k fun t => t.wait? p q

def execDepEvent (p q : Nat) (s : State) := event (s.freshDep p q false).isSome (s.doDep p q false)
def execDepPageSet (p q : Nat) (s : State) := event (s.freshDep p q true).isSome (s.doDep p q true)

/-- Whether the condition of a waiting DEP is met; during a replay a page-arrival set is (18 R251). -/
def State.depMet (s : State) (p q : Nat) : Bool :=
  match s.head p q with
  | none => false
  | some k =>
    let x := s.part p
    let n := pkWord k.pk 0 % 256
    pkType k.pk = tyDep && (s.queue p q).head == .waiting
      && (if bitAt (pkWord k.pk 0) 63 then x.replay.isSome || pkWord k.pk 1 ≤ Tab.get 0 x.arrivals n
        else pkWord k.pk 1 ≤ (Tab.get 0 x.counters n).toNat)

def State.endDep (s : State) (p q : Nat) : State :=
  match s.head p q with
  | none => s
  | some k =>
    let n := pkWord k.pk 0 % 256
    let t := if bitAt (pkWord k.pk 0) 63 then
      s.updPart p fun x => { x with arrivals := Tab.upd 0 x.arrivals n fun v => v - pkWord k.pk 1 } else s
    t.finish p q

def execDepComplete (p q : Nat) (s : State) := event (s.depMet p q) (s.endDep p q)

def execSignal (p q : Nat) (s : State) :=
  event (s.fresh? p q tySignal).isSome (match s.fresh? p q tySignal with
    | none => s
    | some k => s.perform? p q k fun t => (t.countUp p (pkWord k.pk 0 % 256) (pkWord k.pk 1)).finish p q)

/-! ### SETDET (16 R226) -/

/-- A SETDET of one scope at the head of a queue. -/
def State.freshSetdet (s : State) (p q : Nat) (whole : Bool) : Option QPacket :=
  match s.fresh? p q tySetdet with
  | some k => if bitAt (pkWord k.pk 0) 2 == whole then some k else none
  | none => none

def State.doSetdet (s : State) (p q : Nat) (whole : Bool) : State :=
  match s.freshSetdet p q whole with
  | none => s
  | some k => if pkWord k.pk 0 % 4 = 3 then s.haltQueue p q .launchError else s.wait? p q

def execSetdetQueue (p q : Nat) (s : State) := event (s.freshSetdet p q false).isSome (s.doSetdet p q false)
def execSetdetPartition (p q : Nat) (s : State) := event (s.freshSetdet p q true).isSome (s.doSetdet p q true)

/-- The partition-scope SETDET that waits at the head of a queue. -/
def State.waitingSetdet (s : State) (p q : Nat) (whole : Bool) : Option QPacket :=
  match s.head p q with
  | some k => if pkType k.pk = tySetdet && (s.queue p q).head == .waiting && bitAt (pkWord k.pk 0) 2 == whole then some k else none
  | none => none

/-- Whether a partition-scope SETDET stops dispatch. -/
def State.setdetStops (s : State) (p : Nat) : Bool := (List.range 16).any fun q => (s.waitingSetdet p q true).isSome

/-- Whether a kernel of a partition, and of one queue if it is given, has not retired: it is in flight, or between the runs of
R235. -/
def State.unretired (s : State) (p : Nat) (q : Option Nat) : Bool :=
  let of := fun (k : Kernel) => k.part == p && (match q with | some q => k.queue == q | none => true)
  s.kernels.any of || (s.part p).reruns.any fun r => of r.kernel

/-- A partition-scope SETDET at the head of a queue, begun or not. -/
def State.headSetdet (s : State) (p q : Nat) : Option QPacket :=
  match s.head p q with
  | some k => if pkType k.pk = tySetdet && bitAt (pkWord k.pk 0) 2 && pkWord k.pk 0 % 4 ≠ 3 then some k else none
  | none => none

/-- R226: no kernel is before it, and no partition-scope SETDET that arrived earlier stands at a head. -/
def State.setdetMet (s : State) (p q : Nat) : Bool :=
  match s.waitingSetdet p q false with
  | some _ => !s.unretired p (some q)
  | none => match s.waitingSetdet p q true with
    | some k => !s.unretired p none && (List.range 16).all fun r =>
        match s.headSetdet p r with | some j => k.arrival ≤ j.arrival | none => true
    | none => false

/-- A LAUNCH that has been accepted and not dispatched is checked again: R48 turns on the level of its queue. DESIGN CHOICE (log
entry 68): the spec states no second check, and without one a kernel with two contexts a core could be dispatched locked. -/
def State.recheck? (s : State) (p q : Nat) : State :=
  match s.head p q with
  | some k => if pkType k.pk = tyLaunch && (s.queue p q).head == .waiting then s.updQueue p q fun x => { x with head := .idle } else s
  | none => s

def State.endSetdet (s : State) (p q : Nat) : State :=
  match s.head p q with
  | none => s
  | some k =>
    let n := pkWord k.pk 0 % 4
    let t := if bitAt (pkWord k.pk 0) 2 then
        (List.range 16).foldl (fun t r => (t.updQueue p r fun x => { x with level := n }).recheck? p r) s
      else s.updQueue p q fun x => { x with level := n }
    t.finish p q

def execSetdetComplete (p q : Nat) (s : State) := event (s.setdetMet p q) (s.endSetdet p q)

/-! ### PUBLISH (R255) -/

def execPublish (p q : Nat) (s : State) :=
  event (s.fresh? p q tyPublish).isSome (match s.fresh? p q tyPublish with
    | none => s
    | some k => s.perform? p q k fun t =>
      let r := pkWord k.pk 0 % 8
      let t := t.atRegion r
      let (res, t) := match t.region r with
        | some g => if g.lpart = p then t.publishRegion r g else (pubFail 0 0, t)
        | none => (pubFail 0 0, t)
      (t.sendTo (pkSrc k.pk) (eventD0 evPublish p 0 (pkTag k.pk)) [BitVec.ofNat 64 res]).finish p q)

/-! ### CAPTURE (14 R220) -/

/-- A dword at a location of the device changes, as one step in the device total order. -/
def State.putDword (s : State) (a v : Nat) : State := s.deviceCommit .device (cellsAt a (bytesOf 8 v))

/-- The page descriptors of a table, with the virtual addresses that they map, in VA order: their address and size. -/
def State.tablePages (s : State) : Nat → Nat → Nat → Nat → Nat → List (Nat × Nat × Nat)
  | 0, _, _, _, _ => []
  | fuel + 1, level, table, n, va =>
    (List.range n).flatMap fun i =>
      let d := table + 16 * i
      let here := va + i * 2 ^ levelLow level
      match readDescriptor s.dpaMapped none level (s.dword d) (s.dword (d + 8)) with
      | .page size => [(here, d, size)]
      | .table a => s.tablePages fuel (level + 1) a (2 ^ levelBits (level + 1)) here
      | .bad _ => []

/-- The page descriptors of a slot, in VA order. -/
def State.slotPages (s : State) (g : Region) (n : Nat) : List (Nat × Nat × Nat) :=
  s.tablePages 3 1 ((g.slots.getD n {}).root + 16 * (g.vbase % 512)) g.ngb (g.vbase * 2 ^ 30)

/-- The first page with G ≠ CG. -/
def State.nextCapture (s : State) (g : Region) (n : Nat) : Option (Nat × Nat × Nat) :=
  (s.slotPages g n).find? fun (_, d, _) => bitAt (s.dword d) 54 != g.cg

/-- CAP of a slot is cleared and its capture ends; a slot that nothing pins retires (R214). -/
def State.dropCapture (s : State) (r n : Nat) : State :=
  ({ s with captures := s.captures.filter fun c => c.region != r }.updSlot r n fun k => { k with cap := false }).settleSlot r n

/-- CAPTURE_END: with no page left, CAP is cleared and EVC incremented. -/
def State.settleCapture (s : State) (r : Nat) : State :=
  match s.captures.find? (fun c => c.region == r), s.region r with
  | some c, some g => if (s.nextCapture g c.slot).isSome then s else (s.countVersion r).dropCapture r c.slot
  | _, _ => s

/-- FBASE without its reserved bits, which the device ignores (R6; R146, R196). -/
def flashBase (w : Nat) : Nat := bits w 63 60 * 2 ^ 60 + bits w 57 0

/-- A capture of another slot of a region in progress ends, as a stop ends it: CG and the descriptors' G serve one capture of a
region. DESIGN CHOICE (log entry 81): the spec states no outcome of a start beside it. -/
def State.endOther (s : State) (r n : Nat) : State :=
  match s.captures.find? fun c => c.region == r && c.slot != n with
  | some c => s.dropCapture r c.slot
  | none => s

/-- A start, toggling CG unless it resumes; the reserved bits of the dword that is written are zero (R6). DESIGN CHOICE (log entry 81):
where the region is not valid, or no current or older slot holds the version, nothing starts and the packet completes. -/
def State.startCapture (s : State) (r v fbase : Nat) (resume : Bool) : State :=
  let s := s.atRegion r
  match s.region r with
  | none => s
  | some g => match g.slotHolding v with
    | none => s
    | some n =>
      let s := s.endOther r n
      let a := s.regionAt r + 8
      let d := s.dword a
      let kept := bits d 19 0
      let t := if resume then s else s.putDword a (if bitAt d 3 then kept - 8 else kept + 8)
      let t := t.updSlot r n fun k => { k with cap := true }
      let c : Capture := { region := r, slot := n, fbase }
      State.settleCapture { t with captures := (t.captures.filter fun (b : Capture) => b.region != r) ++ [c] } r

/-- A CAPTURE at the head whose op is one of a list. -/
def State.freshCapture (s : State) (p q : Nat) (ops : List Nat) : Option QPacket :=
  match s.fresh? p q tyCapture with
  | some k => if ops.contains (pkWord k.pk 0 % 4) then some k else none
  | none => none

/-- The effect of a CAPTURE at the head. -/
def State.doCapture (s : State) (p q : Nat) (ops : List Nat) : State :=
  match s.freshCapture p q ops with
  | none => s
  | some k => s.perform? p q k fun t =>
    let w := pkWord k.pk 0
    let r := bits w 4 2
    let v := bits w 31 16
    let t := if w % 4 = 1 then
        let u := t.atRegion r
        match u.captures.find? (fun c => c.region == r), u.region r with
        | some c, some g => if (g.slots.getD c.slot {}).ver = v then u.dropCapture r c.slot else u
        | _, _ => u
      else t.startCapture r v (flashBase (pkWord k.pk 1)) (w % 4 = 2)
    t.finish p q

/-- A reserved op is met as a start (R346). -/
def execCaptureStart (p q : Nat) (s : State) := event (s.freshCapture p q [0, 3]).isSome (s.doCapture p q [0, 3])
def execCaptureStop (p q : Nat) (s : State) := event (s.freshCapture p q [1]).isSome (s.doCapture p q [1])
def execCaptureResume (p q : Nat) (s : State) := event (s.freshCapture p q [2]).isSome (s.doCapture p q [2])

def State.canCapture (s : State) (r : Nat) : Bool :=
  s.alarm.isNone && match s.captures.find? (fun c => c.region == r), s.region r with
  | some _, some _ => true
  | _, _ => false

/-- One page to flash, and its G (R220). -/
def State.capturePage (s : State) (r : Nat) : State :=
  match s.captures.find? (fun c => c.region == r), s.region r with
  | some c, some g => match s.nextCapture g c.slot with
    | none => s.settleCapture r
    | some (va, d, size) =>
      let w := s.dword d
      let page := (List.range (2 ^ pageBits size)).map fun i => s.homeByte (descAddr w + i)
      let t := s.sendRemote (cellsAt (c.fbase + (va - g.vbase * 2 ^ 30)) page)
      (t.putDword d (if g.cg then w + 2 ^ 54 else w - 2 ^ 54)).settleCapture r
  | _, _ => s

def execCapturePageWrite (region : Nat) (s : State) := event (s.canCapture region) (s.capturePage region)

/-! ### MARK (18 R247, R250) -/

/-- A MARK at the head whose op is one of a list. -/
def State.freshMark (s : State) (p q : Nat) (ops : List Nat) : Option QPacket :=
  match s.fresh? p q tyMark with
  | some k => if ops.contains (pkWord k.pk 0 % 8) then some k else none
  | none => none

/-- The entries of a region list: up to 32; one of length 0 names nothing (log entry 16). -/
def declared (b : List Byte) : List (Nat × Nat × Bool) :=
  ((List.range 32).map fun i =>
    let w := ofBytes ((b.drop (16 * i)).take 8)
    let z := ofBytes ((b.drop (16 * i + 8)).take 8)
    (w / 16 * 16, z % 2 ^ 32, bitAt z 32)).filter fun d => d.2.1 != 0

/-- SNAP: a snapshot that the log has no room for stalls its queue or runs unlogged (R250). -/
def State.takeSnap (s : State) (p q : Nat) : State :=
  let x := s.part p
  if !x.logOn then s.finish p q
  else
    let l := s.snapshot p q
    let b := snapBody l
    if x.logFits b.length then
      ((s.logWrite p 1 q x.logSeq b).updQueue p q fun y => { y with snap := some l }).finish p q
    else if x.logMark then (s.logGap p q (match s.head p q with | some k => k.seq | none => x.logSeq)).finish p q
    else s.wait? p q

/-- A digest record that was owed (R249): its LAUNCH completes with it; in mark mode a gap record names its SEQ (R250). -/
def State.settleDigest (s : State) (p q : Nat) : State :=
  match (s.queue p q).digest with
  | none => s
  | some b =>
    if (s.part p).logFits b.length then (s.logWrite p 2 q (s.part p).logSeq b).finish p q
    else if !(s.part p).logOn then s.finish p q
    else if (s.part p).logMark then (s.logGap p q (ofBytes (b.take 8))).finish p q
    else s

/-- A SNAP that waits for log room. -/
def State.settleSnap (s : State) (p q : Nat) : State :=
  match s.head p q with
  | some k => if pkType k.pk = tyMark && (s.queue p q).head == .waiting then s.takeSnap p q else s
  | none => s

/-- What waits for log room goes on as far as it can (R250, R253). -/
def State.settleLog (s : State) (p : Nat) : State :=
  (List.range 16).foldl (fun t q => (t.settleDigest p q).settleSnap p q) (s.settleOwed p)

/-- The effect of a MARK at the head. -/
def State.doMark (s : State) (p q : Nat) (ops : List Nat) : State :=
  match s.freshMark p q ops with
  | none => s
  | some k => s.perform? p q k fun t =>
    let w := pkWord k.pk 0
    match w % 8 with
    | 0 => (t.updPart p fun x => { x with logOn := true, logSeq := 0, gap := none }).finish p q
    | 1 => ((t.updPart p fun x => { x with logOn := false }).finish p q).settleLog p
    | 2 => (t.updQueue p q fun x => { x with declared := declared (t.bytesAt p (pkWord k.pk 1) 512) }).finish p q
    | 3 => t.takeSnap p q
    | _ => ((t.updPart p fun x => { x with logMark := bitAt w 3 }).finish p q).settleLog p

/-- A reserved op is met as ON (R346). -/
def execMarkOn (p q : Nat) (s : State) := event (s.freshMark p q [0, 5, 6, 7]).isSome (s.doMark p q [0, 5, 6, 7])
def execMarkOff (p q : Nat) (s : State) := event (s.freshMark p q [1]).isSome (s.doMark p q [1])
def execMarkDecl (p q : Nat) (s : State) := event (s.freshMark p q [2]).isSome (s.doMark p q [2])
def execMarkSnap (p q : Nat) (s : State) := event (s.freshMark p q [3]).isSome (s.doMark p q [3])
def execMarkMode (p q : Nat) (s : State) := event (s.freshMark p q [4]).isSome (s.doMark p q [4])

end Sys2Proof.Machine
end

