-- ==== Sys2Proof/Machine/Launch.lean ====
section
/-! DEFINITION. Kernels (03 R47 to R57, R61): the check of a LAUNCH, the choice and the placement of a kernel, the start and
the end of its contexts, its retirement and its killing, and the watchdog. -/
namespace Sys2Proof.Machine

/-! ### LAUNCH (R48) -/

/-- The symmetries that SYM allows. -/
def Desc.syms (d : Desc) : List Nat := if d.sym = 8 then List.range 8 else [d.sym]

/-- Whether the range fits in a rectangle of pw × ph clusters at an origin, under a symmetry. -/
def Desc.fitsAt (d : Desc) (pw ph sym ox oy : Nat) : Bool :=
  let (w, h) := symSize sym d.rangeW d.rangeH
  ox + w ≤ pw && oy + h ≤ ph

/-- The first row of R48. -/
def Desc.fieldsOk (d : Desc) : Bool :=
  bits (d.w 0) 63 60 = 0 && bits (d.w 1) 63 45 = 0 && bits (d.w 1) 33 30 = 0 && bits (d.w 3) 63 50 = 0
    && bits (d.w 4) 63 12 = 0 && d.barr < 3 && d.sym < 9 && 1 ≤ d.depth && d.depth ≤ 6 && d.narg ≤ 16 && d.entry % 16 = 0

/-- The second row. -/
def Desc.permOk (d : Desc) : Bool :=
  let l := (List.range d.depth).map d.perm
  l.all (fun x => x < d.depth) && l.eraseDups.length == d.depth
    && ((List.range 6).drop d.depth).all fun j => d.perm j == 0

/-- R48: whether a LAUNCH is accepted in a partition at its queue's level. -/
def Desc.ok (d : Desc) (p : Part) (level : Nat) : Bool :=
  d.fieldsOk && d.permOk
    && (((List.range 6).drop d.depth).all fun l => d.extent l == 1)
    && (d.narg ≤ d.scnt && d.vcnt ≤ 32 && d.ecnt ≤ 32 && d.spad * d.perCore ≤ 2048)
    && d.rangeW * d.rangeH % d.stages = 0 && (d.syms.any fun y => d.fitsAt p.w p.h y 0 0)
    && (!d.fixed || d.syms.any fun y => d.fitsAt p.w p.h y d.orgx d.orgy)
    && !(d.perCore = 2 && level = 2)

/-- The descriptor of a LAUNCH. -/
def packetDesc (k : Packet) : Desc := { words := k.body.map BitVec.toNat }

def execLaunch (p q : Nat) (s : State) :=
  event (s.fresh? p q tyLaunch).isSome (match s.fresh? p q tyLaunch with
    | none => s
    | some k => if (packetDesc k.pk).ok (s.part p) (s.queue p q).level then s.wait? p q else s.haltQueue p q .launchError)

/-! ### Placement (R50, R57; 09 R144, R150) -/

/-- A place for a kernel: the symmetry and the physical origin in the device's cluster mesh. -/
structure Spot where
  sym  : Nat
  orgx : Nat
  orgy : Nat
  deriving DecidableEq, Repr, Inhabited

/-- Every spot at which the range of a descriptor fits in a partition. -/
def Desc.spots (d : Desc) (p : Part) : List Spot :=
  d.syms.flatMap fun y =>
    (if d.fixed then [(d.orgx, d.orgy)] else (List.range p.h).flatMap fun oy => (List.range p.w).map fun ox => (ox, oy)).filterMap
      fun (ox, oy) => if d.fitsAt p.w p.h y ox oy then some { sym := y, orgx := p.x + ox, orgy := p.y + oy } else none

/-- The physical clusters of a spot. -/
def Desc.clustersAt (d : Desc) (y : Spot) : List Nat :=
  let (w, h) := symSize y.sym d.rangeW d.rangeH
  (List.range h).flatMap fun j => (List.range w).map fun i => 4 * (y.orgy + j) + y.orgx + i

/-- The cores of some clusters. -/
def coresOf (l : List Nat) : List Nat := l.flatMap fun j => (List.range 16).map fun i => 16 * j + i

/-- Whether a hardware context may be given to a kernel: it is free, or what it held has been saved. -/
def State.vacant (s : State) (c : Nat) : Bool :=
  match (s.ctx c).run with | .free | .preempted => true | _ => false

/-- The hardware contexts of a core that a kernel may take, in their order; none beside a locked context until its last RETIRE
(R57). DESIGN CHOICE (log entry 84): that is its last exchange, while its kernel retires when the context is freed (R53). -/
def State.vacantAt (s : State) (core : Nat) : List Nat :=
  let l := [2 * core, 2 * core + 1].filter s.vacant
  if l.length = 1 && ([2 * core, 2 * core + 1].any fun c => !s.vacant c && (s.ctx c).level == 2 && !(s.ctx c).ended) then [] else l

/-- Whether a core takes part in placements. -/
def CoreSt.works (k : CoreSt) : Bool := !k.retired && !k.fenced

/-- Scratchpad ranges in use on a core, in granules. -/
def State.spadUsed (s : State) (core : Nat) : List (Nat × Nat) :=
  [2 * core, 2 * core + 1].filterMap fun c =>
    let a := (s.ctx c).alloc
    if s.vacant c || a.spad = 0 then none else some (a.spbase / 256, a.spad)

/-- The granule offsets at which an allocation fits on every core, beside the ranges in `also`. -/
def State.spadOffsets (s : State) (cores : List Nat) (n : Nat) (also : List (Nat × Nat)) : List Nat :=
  if n = 0 then [0] else
  let used := (cores.flatMap s.spadUsed).eraseDups ++ also
  (List.range (2049 - n)).filter fun o => used.all fun u => !(overlaps o n u.1 u.2)

/-- The offsets at which the first allocation of a kernel fits: with two contexts a core those that leave room for the second. -/
def State.firstOffsets (s : State) (cores : List Nat) (d : Desc) : List Nat :=
  (s.spadOffsets cores d.spad []).filter fun o => d.perCore = 1 || !(s.spadOffsets cores d.spad [(o, d.spad)]).isEmpty

/-- A free choice among several (log entry 8). -/
def pickOne {α : Type} [Inhabited α] (n : Nat) : List α → α
  | [x] => x
  | l => l.getD (Config.placement n % l.length) default

/-- Whether some clusters have the cores, the contexts and the lines that a kernel needs (R55, R57), and their L1s the fusion
(09 R150). -/
def State.clustersOpen (s : State) (p : Nat) (d : Desc) (level : Nat) (cl : List Nat) : Bool :=
  let need := if level = 2 then 2 else d.perCore
  ((coresOf cl).all fun k => (s.core k).works && need ≤ (s.vacantAt k).length)
    && (cl.all fun j => s.kernels.all fun k => !k.clusters.contains j || k.d.fuse == d.fuse)
    && (d.barr = 0 || cl.all fun j => (s.cluster j).line.holder.isNone)
    && (d.barr < 2 || (s.part p).line.holder.isNone)

/-- The spots at which a kernel may be dispatched now. -/
def State.openSpots (s : State) (p : Nat) (d : Desc) (level : Nat) : List Spot :=
  (d.spots (s.part p)).filter fun y =>
    let cl := d.clustersAt y
    s.clustersOpen p d level cl && !(s.firstOffsets (coresOf cl) d).isEmpty

/-! ### KERNEL_DISPATCH (R57) -/

/-- A ready LAUNCH: its queue and packet. -/
structure Ready where
  queue : Nat
  k     : QPacket
  deriving DecidableEq, Repr

def Ready.desc (r : Ready) : Desc := packetDesc r.k.pk

/-- Whether one kernel is selected before another: by priority, then by age. -/
def ahead (prio arrival prio' arrival' : Nat) : Bool := prio' < prio || (prio == prio' && arrival < arrival')

/-- Dispatch is stopped in a partition (16 R226; 18 R253; 19 R264, R265). -/
def State.dispatchStopped (s : State) (p : Nat) : Bool :=
  s.setdetStops p || (s.part p).draining || s.alarm.isSome || !(s.part p).on

/-- The ready LAUNCHes; above the power limit those of the locked level only (19 R267). -/
def State.readies (s : State) (p : Nat) : List Ready :=
  (List.range 16).filterMap fun q =>
    match s.head p q with
    | some k => if pkType k.pk = tyLaunch && (s.queue p q).head == .waiting && (!s.powerHigh || (s.queue p q).level == 2) then
        some { queue := q, k } else none
    | none => none

/-- The one selected. -/
def firstReady : List Ready → Option Ready
  | [] => none
  | r :: t => match firstReady t with
    | none => some r
    | some u => if ahead r.desc.prio r.k.arrival u.desc.prio u.k.arrival then some r else some u

/-- Whether a pre-empted kernel of the partition is before a LAUNCH (R61: it keeps its age). -/
def State.savedAhead (s : State) (p : Nat) (r : Ready) : Bool :=
  s.saved.any fun v => match s.kernel v.kernel with
    | some k => k.part == p && ahead k.prio k.arrival r.desc.prio r.k.arrival
    | none => false

/-- Whether a kernel that is to run again after a data error is before a LAUNCH: it keeps its place, and no LAUNCH overtakes it
(R57). -/
def State.rerunAhead (s : State) (p : Nat) (r : Ready) : Bool :=
  (s.part p).reruns.any fun u => (!s.powerHigh || u.kernel.level == 2) && ahead u.kernel.prio u.kernel.arrival r.desc.prio r.k.arrival
    && !(s.kernels.any fun k => k.part == p && k.queue == u.kernel.queue)

/-- The LAUNCH that may be dispatched now, and where. -/
def State.dispatchable (s : State) (p : Nat) : Option (Ready × List Spot) :=
  if s.dispatchStopped p then none else
  match firstReady (s.readies p) with
  | none => none
  | some r =>
    if s.savedAhead p r || s.rerunAhead p r then none else
    match s.openSpots p r.desc (s.queue p r.queue).level with
    | [] => none
    | l => some (r, l)

/-- The ordinals of slice `k` of `P`: from kT/P up to (k+1)T/P (R51). -/
def sliceOf (d : Desc) (k : Nat) : Nat × Nat :=
  let per := 16 * (d.rangeW * d.rangeH / d.stages)
  (k * d.tiles / per, (k + 1) * d.tiles / per)

/-- What one kernel context of one logical core is to run: its number on the core and its share, if it is not empty. -/
structure Post where
  pcore : Nat
  j     : Nat
  share : Share
  deriving DecidableEq, Repr

/-- The posts of a kernel (R51). -/
def Kernel.posts (k : Kernel) : List Post :=
  let d := k.d
  let per := d.rangeW * d.rangeH / d.stages
  (List.range (d.rangeW * d.rangeH)).flatMap fun n => (List.range 16).flatMap fun i =>
    let lx := i % 4
    let ly := i / 4
    let stage := n / per
    let slice := (n - stage * per) * 16 + i
    let (a, b) := sliceOf d slice
    (List.range d.perCore).filterMap fun j =>
      if a + j < b then some {
        pcore := k.pcore n lx ly, j
        share := {
          kernel := k.id, queue := k.queue, entry := d.entry, args := d.args.map (BitVec.ofNat 64), tile := a + j, tileEnd := b
          tileStep := d.perCore, lcorex := 4 * (n % d.rangeW) + lx, lcorey := 4 * (n / d.rangeW) + ly, lcore := slice, lclu := n
          lpart := k.part, stage, nstage := d.stages } }
      else none

/-- The cycles of a clear (R52). -/
def Desc.clearCycles (d : Desc) : Nat := 38 + (d.scnt + 1 + 15) / 16 + d.vcnt + (d.ecnt + 15) / 16

/-- The end of a clear that now runs on a core. -/
def State.clearEnds (s : State) (core : Nat) : Nat :=
  [2 * core, 2 * core + 1].foldl (fun t c => match (s.ctx c).run with | .clearing _ n => max t n | _ => t) s.cycle

/-- What a hardware context keeps from one kernel to the next: BRKA0 to BRKA3. Every register reads zero at the first issue,
h0 to h7 too (02 R26). -/
def Ctx.emptied (x : Ctx) : Ctx := { brka := x.takeBrka.brka }

/-- What a hardware context held for a pre-empted kernel leaves it. -/
def State.displace (s : State) (c : Nat) : State :=
  let x := s.ctx c
  if x.run = .preempted then
    { s with saved := s.saved.map fun v =>
        if v.c == c && v.away.isNone && v.kernel == x.share.kernel then { v with away := some x } else v }
  else s

/-- The hardware context for a post (R57): with one context a core the first that is vacant, or the one that a run after a data
error has had before (16 R235). -/
def State.contextFor (s : State) (k : Kernel) (again : List Nat) (t : Post) : Nat :=
  if k.d.perCore = 2 then 2 * t.pcore + t.j
  else (again.find? fun c => coreOf c == t.pcore).getD ((s.vacantAt t.pcore).headD (2 * t.pcore))

/-- R52, R214, R57: a hardware context is given to a post: its clear begins, its view and its pin are set. DESIGN CHOICE (log entry 80):
kernel start, at which R168 sets the view, is this dispatch. -/
def State.bindPost (s : State) (k : Kernel) (again : List Nat) (t : Post) : State :=
  let c := s.contextFor k again t
  let s := s.displace c
  let start := s.clearEnds t.pcore
  let region := (s.rolloutRegion k.part).bind fun r => (s.region r).bind fun g => (g.slotIn stCurrent).map fun n => (r, n, (g.slots.getD n {}).ver)
  let d := k.d
  let x : Ctx := { (s.ctx c).emptied with
    run := .clearing start (start + d.clearCycles), level := k.level, share := t.share
    alloc := { scnt := d.scnt + 1, vcnt := d.vcnt, ecnt := d.ecnt, spad := d.spad, spbase := 256 * k.bases.getD t.j 0 }
    csr := match region with
      | some (_, _, v) => Tab.set {} [] csrVpin { v := BitVec.ofNat 64 v, h := BitVec.ofNat 64 v, wr := false }
      | none => [] }
  let s := ((s.setCtx c x).acquireView c).dropReadOnly c
  let s := match region with
    | some (r, n, _) => s.updSlot r n fun y => { y with pins := y.pins + 1 }
    | none => s
  let s := if k.level = 2 then s.updCore t.pcore fun y => { y with tlb := [] } else s
  s.updKernel k.id fun y => { y with ctxs := y.ctxs ++ [c], left := y.left ++ [c] }

/-- R55, R150: the lines that a kernel holds and the fusion of its L1s. -/
def State.claim (s : State) (k : Kernel) : State :=
  let s := if k.d.barr = 0 then s else
    k.clusters.foldl (fun t j => t.updCluster j fun y => { y with line := { holder := some k.id } }) s
  let s := if k.d.barr < 2 then s else s.updPart k.part fun y => { y with line := { holder := some k.id } }
  if k.d.fuse then (coresOf k.clusters).foldl (fun t c => t.updCore c fun y => { y with fused := true, l1 := [] }) s else s

/-- A kernel of a LAUNCH at a spot, with its scratchpad. -/
def State.makeKernel (s : State) (p q : Nat) (k : QPacket) (y : Spot) : Kernel :=
  let d := packetDesc k.pk
  let cores := coresOf (d.clustersAt y)
  let b0 := pickOne (s.fresh + 1) (s.firstOffsets cores d)
  let b1 := pickOne (s.fresh + 2) (s.spadOffsets cores d.spad [(b0, d.spad)])
  { id := s.serial + 1, part := p, queue := q, desc := k.pk.body, level := (s.queue p q).level, prio := d.prio
    arrival := k.arrival, clusters := d.clustersAt y, orgx := y.orgx, orgy := y.orgy, sym := y.sym, bases := [b0, b1]
    captured := k.seq != 0 && (s.part p).logOn, seq := k.seq, logged := k.logged, nr := k.nr }

/-- A kernel takes its place, in some contexts again if it runs once more. -/
def State.place (s : State) (k : Kernel) (again : List Nat) : State :=
  let t := { s with serial := k.id, fresh := s.fresh + 3, kernels := s.kernels ++ [k] }.claim k
  let t := t.updQueue k.part k.queue fun x => { x with head := .running k.id }
  k.posts.foldl (fun t y => t.bindPost k again y) t

def State.doDispatch (s : State) (p : Nat) : State :=
  match s.dispatchable p with
  | none => s
  | some (r, l) => s.place (s.makeKernel p r.queue r.k (pickOne s.fresh l)) []

def execKernelDispatch (p : Nat) (s : State) := event ((s.dispatchable p).isSome && !s.lockedChunk && !s.lockedTag) (s.doDispatch p)

/-! ### CONTEXT_START (R52; 07 R130) -/

def State.canStart (s : State) (c : Nat) : Bool :=
  s.alarm.isNone && match (s.ctx c).run with | .clearing _ t => t ≤ s.cycle | _ => false

/-- The arguments and the first coordinates, and the clear inside the array and of the transpose queue. -/
def State.doStart (s : State) (c : Nat) : State :=
  let x := s.ctx c
  let t := s.setCtx c { x.giveArgs with run := .running, pc := x.share.entry, tc := s.tileCoords x }
  if c % 2 = 0 then t.updCore (coreOf c) fun k => { k with arr := {}, tiles := [], drains := [] } else t

def execContextStart (c : Nat) (s : State) := event (s.canStart c) (s.doStart c)

/-! ### CONTEXT_FREE and the retirement of a kernel (R53; 18 R249) -/

/-- The lines and the fused L1s of a kernel are given back: each cluster's L1 is invalidated, and comes apart unless another fused
kernel still runs there (R150). -/
def State.unclaim (s : State) (k : Kernel) : State :=
  let s := k.clusters.foldl (fun t j =>
    if (t.cluster j).line.holder == some k.id then t.updCluster j fun y => { y with line := {} } else t) s
  let s := if (s.part k.part).line.holder == some k.id then s.updPart k.part fun y => { y with line := {} } else s
  if k.d.fuse then
    (coresOf k.clusters).foldl (fun t c =>
      let still := t.kernels.any fun o => o.id != k.id && o.clusters.contains (clusterOf c)
      t.updCore c fun y => { y with fused := still, l1 := [] }) s
  else s

/-- A kernel leaves the list of those in flight. -/
def State.dropKernel (s : State) (k : Kernel) : State :=
  { s.unclaim k with kernels := (s.unclaim k).kernels.filter fun o => o.id != k.id }

/-- 18 R251: a kernel's digest is compared with that of its LAUNCH in the log, and its cycles at the locked level; a mismatch names
the SEQ. The replay ends at a gap, or at a kernel whose NR is set. -/
def State.replayCheck (s : State) (p q : Nat) (k : Kernel) : State :=
  match (s.part p).replay, k.logged with
  | some base, some seq =>
    if s.gapBy p base seq then s.endReplay p else
    match s.digestRecord p q seq with
    | none => s
    | some r =>
      let b := s.logBytes p (r.off + 16) 56
      let nr := bitAt (ofBytes (b.drop 48)) 0
      let same := (b.drop 16).take 32 == s.kernelDigest p q && (k.level != 2 || ofBytes ((b.drop 8).take 8) == k.cyc)
      if nr then s.endReplay p
      else if same then s else s.notify evReplay p 0 (s.headTag p q) [BitVec.ofNat 64 seq]
  | _, _ => s

/-- A LAUNCH completes with its kernel (18 R249): once its digest record is written if the kernel is captured. -/
def State.endLaunch (s : State) (k : Kernel) : State :=
  let t := s.replayCheck k.part k.queue k
  if k.captured then
    (t.updQueue k.part k.queue fun x => { x with digest := some (digestBody k (t.kernelDigest k.part k.queue)) }).settleDigest
      k.part k.queue
  else t.finish k.part k.queue

/-- One of the two runs of R235 of a queue's kernel has ended. -/
def State.endRun (s : State) (k : Kernel) (e : RunEnd) : State :=
  s.updPart k.part fun x => { x with reruns := x.reruns.map fun r =>
    if r.kernel.queue == k.queue then { r with ends := r.ends ++ [e] } else r }

/-- The kernel retires: its LAUNCH completes; a run after a data error waits to be compared (16 R235). -/
def State.retireKernel (s : State) (k : Kernel) : State :=
  let t := s.dropKernel k
  if k.rerun ≠ 0 then t.endRun k (.retired (t.kernelDigest k.part k.queue) k.cyc k.nr) else t.endLaunch k

/-- Whether a context that has ended may be freed: its commands have completed, and their handlers (R53). A killed one keeps its
scratchpad until the commands of its kernel, which run on, have completed (12 R199). -/
def State.canFree (s : State) (c : Nat) : Bool :=
  let x := s.ctx c
  match x.run with
  | .dying => !(s.core (coreOf c)).fenced && !(s.engines.any fun e => e.kernel == x.share.kernel && e.copy.isNone)
  | .finishing => x.handler.isNone && x.irq.isEmpty
      && !(s.engines.any fun e => e.ctx == c && e.kernel == x.share.kernel && e.copy.isNone)
  | _ => false

/-- The deviations of a context are all written. -/
def State.flushRecords (s : State) (c : Nat) : State :=
  (s.ctx c).devs.foldl (fun t d => t.putRecord (coreOf c) (c % 2) d) (s.updCtx c fun x => { x with devs := [] })

/-- R53: the context is free, and its kernel retires with its last context. DESIGN CHOICE (log entry 84): the pins that R214 releases
with the last RETIRE go here, after the commands and handlers of the context. -/
def State.doFree (s : State) (c : Nat) : State :=
  let s := ((s.flushRecords c).dropReadOnly c).orphanWalks (· == c)
  let x := s.ctx c
  if x.run = .dying then s.updCtx c Ctx.emptied
  else
    let t := (s.releasePins x).updCtx c Ctx.emptied
    let t := t.updKernel x.share.kernel fun k => { k with left := k.left.filter fun a => a != c }
    match t.kernel x.share.kernel with
    | some k => if k.left.isEmpty then t.retireKernel k else t
    | none => t

def execContextFree (c : Nat) (s : State) := event (s.canFree c) (s.doFree c)

/-! ### Killing (R61, 16 R232) -/

/-- R61 step 2: a kernel's contexts are discarded without saving; its lines are released, its pins too; its commands run on,
and their interrupts are discarded (12 R199). A saved scratchpad that they may name stays until they have completed. -/
def State.killKernel (s : State) (k : Kernel) : State :=
  let here := k.left.filter fun c => (s.ctx c).share.kernel == k.id && (s.ctx c).run != .free
  let t := k.left.foldl (fun t c => t.releasePins (s.ctxFor k.id c)) s
  let t := here.foldl (fun t c => t.updCtx c fun x => { x with run := .dying, stop := none, flip := none, view := { x.view with live := false } }) t
  let gone := fun (c : Nat) => here.contains c
  let t := t.updPart k.part fun x => { x with dumps := x.dumps.filter fun c => !gone c }
  let t := t.orphanWalks gone
  { t.dropKernel k with
    saved := t.saved.filter fun v => v.kernel != k.id || (s.engines.any fun e => e.kernel == k.id && e.copy.isNone)
    atomics := t.atomics.filter fun a => !gone a.ctx
    verReqs := t.verReqs.filter fun v => !gone v.ctx
    engines := t.engines.map fun (e : EngCmd) => if e.kernel == k.id && e.copy.isNone then { e with orphan := true } else e }

/-- The last row of R235: the core of the first record is retired and fenced, and the queue halts. -/
def State.giveUpRerun (s : State) (r : Rerun) : State :=
  let p := r.kernel.part
  let q := r.kernel.queue
  let t := (s.dropRerun p q).updCore r.core fun x => { x with retired := true, fenced := true }
  (t.updQueue p q fun x => x.stop .dataError).healthEvent p r.core (s.headTag p q)

/-- A kernel is killed and its queue halts with a status. DEDUCED (log entry 26): a kill of one of the two runs after a data error is
the last row of R235 for the core of the first record, and the queue's status is that of the kill (R61). -/
def State.killInQueue (s : State) (k : Kernel) (h : Halt) : State :=
  let t := (s.killKernel k).haltQueue k.part k.queue h
  match (s.part k.part).reruns.find? fun r => k.rerun != 0 && r.kernel.queue == k.queue with
  | some r => ((t.dropRerun k.part k.queue).updCore r.core fun x => { x with retired := true, fenced := true }).healthEvent k.part r.core
      (s.headTag k.part k.queue)
  | none => t

/-! ### The watchdog (R61) -/

/-- The kernel at the head of a queue. -/
def State.headKernel (s : State) (p q : Nat) : Option Kernel :=
  match (s.queue p q).head with
  | .running n => s.kernels.find? fun k => k.id == n && k.part == p && k.queue == q
  | _ => none

/-- The contexts of a killed kernel of a queue that have not stopped. -/
def State.stuck (s : State) (p q : Nat) : List Nat :=
  (s.ctxs.filter fun x => x.2.run == .dying && x.2.share.lpart == p && x.2.share.queue == q).map Prod.fst

/-- A step of the watchdog is due: the steps act one after another, each when the counter reaches its limit. DESIGN CHOICE (log entry
47): R61 says that each limit must be greater than the one before it and not what becomes of one that is not; a queue takes any limits,
and a step whose limit is passed already acts as soon as the step before it has. -/
def State.watchDue (s : State) (p q n : Nat) : Bool :=
  let x := s.queue p q
  (s.part p).on && !x.packets.isEmpty && x.acted + 1 == n
    && (if n = 1 then x.lim1 else if n = 2 then x.lim2 else x.lim3) ≤ x.watch

/-- The next step of a queue's watchdog acts in this cycle. -/
def State.watchPressing (s : State) (p q : Nat) : Bool :=
  ((s.queue p q).halt.isNone && (s.watchDue p q 1 || s.watchDue p q 2)) || (s.watchDue p q 3 && !(s.stuck p q).isEmpty)

def State.watchActed (s : State) (p q n : Nat) : State := s.updQueue p q fun x => { x with acted := n }

def State.watchPreempt (s : State) (p q : Nat) : State :=
  let t := s.watchActed p q 1
  match s.headKernel p q with
  | some k => k.left.foldl (fun t c =>
      if (t.ctx c).share.kernel == k.id then t.updCtx c fun x => { x with preempt := true } else t) t
  | none => t

def execWatchdogPreempt (p q : Nat) (s : State) :=
  event (s.watchDue p q 1 && (s.queue p q).halt.isNone) (s.watchPreempt p q)

/-- A kernel of the locked level whose watchdog has acted is not replayable, were its LAUNCH restarted (R61). -/
def markHead (locked : Bool) : List QPacket → List QPacket
  | k :: l => { k with nr := k.nr || locked } :: l
  | [] => []

/-- The head kernel is killed, or the head packet abandoned, with the runs of R235 and a digest record that waits; the queue
halts. -/
def State.watchKill (s : State) (p q : Nat) : State :=
  let t := match s.headKernel p q with
    | some k => (s.killInQueue k .killed).updQueue p q fun x => { x with packets := markHead (k.level == 2) x.packets }
    | none => ({ s with engines := s.engines.filter fun e => e.copy != some (p, q) }.dropRerun p q).haltQueue p q .killed
  t.watchActed p q 2

def execWatchdogKill (p q : Nat) (s : State) :=
  event (s.watchDue p q 2 && (s.queue p q).halt.isNone) (s.watchKill p q)

/-- The cores of contexts that have not stopped since the kill are fenced out. -/
def State.watchFence (s : State) (p q : Nat) : State :=
  let l := s.stuck p q
  ((l.foldl (fun t c => t.updCore (coreOf c) fun k => { k with fenced := true }) s).watchActed p q 3).healthEvent p
    (coreOf (l.headD 0)) (s.headTag p q)

def execWatchdogFence (p q : Nat) (s : State) :=
  event (s.watchDue p q 3 && !(s.stuck p q).isEmpty) (s.watchFence p q)

end Sys2Proof.Machine
end

