-- ==== Sys2Proof/Machine/Store.lean ====
section
/-! DEFINITION. The stores and atomics of class 8: ST and STS (22 R319 to R321), STK (22 R322, 14 R216), STQ (22 R324,
10 R175), ATOM (11 R204, 20 R274) and ACAS (20 R269 to R271). -/
namespace Sys2Proof.Machine

/-- The data of a store: the low bytes of a scalar or vector source (R27, R320). -/
def State.storeData (s : State) (d : BitVec 6) (m : ASize) : List Byte :=
  bytesOf m.bytes (if m.isVector then s.vb d.toNat else s.sb d.toNat)

/-- The refusal of a store by the device that is the home of its address (R165, 16 R227). DEDUCED (log entry 66): that device
translates a store as it is issued, and its answer comes as a load's does. -/
def State.storeRefusal (s : State) (loc : Nat) : Option Raised := if (homeDpa loc).isSome then none else refusalOf s.fresh loc

/-- A store that another device refuses: it performs nothing, and its fault is found when the answer comes (R229). -/
def State.storeRefused (s : State) (a tag : Nat) (bs : List Byte) (q : Raised) : State :=
  { s with fresh := s.fresh + 1 }.lateFor latRemote a true (ofBytes bs) tag { q with faddr := a }

/-- R320, R170: bytes at an address become pending bytes of the context. -/
def storeAt (a : Nat) (bs : List Byte) (s : State) : State :=
  if a % bs.length ≠ 0 then s.misaligned a
  else match s.resolve s.slot.ctx .write false a with
    | .error r => s.trapWith r
    | .ok k =>
      let cells := cellsAt k.loc bs
      if !s.cur.withinBudget cells then s.raise .illegalOperand
      else match s.storeRefusal k.loc with
        | some q => s.storeRefused a 0 bs q
        | none => (s.addPending cells).cacheWrite s.slot.ctx k.loc

def execSt (g : BitVec 3) (d base imm : BitVec 6) (m : ASize) (s : State) :=
  perform (.st g d base imm m) s fun t =>
    t.unlessBad (storeAt (t.address base imm m.bytes) (t.storeData d m))

/-- R320: bytes at an offset of the context's scratchpad allocation, in the issue cycle; they prevail over what engines and
XDRAIN write in it (R145). -/
def storeSpadAt (a : Nat) (bs : List Byte) (s : State) : State :=
  if a % bs.length ≠ 0 then s.misaligned a
  else if !s.inSpad a bs.length then s.beyondSpad a
  else
    let cells := cellsAt (s.spadAt a) bs
    s.updCurCore fun k => { k with spad := Memory.writeAll k.spad cells, stored := cells.map Prod.fst ++ k.stored }

def execSts (g : BitVec 3) (d base imm : BitVec 6) (m : ASize) (s : State) :=
  perform (.sts g d base imm m) s fun t =>
    t.unlessBad (storeSpadAt (t.address base imm m.bytes) (t.storeData d m))

/-- R216: the record of STK. -/
def State.tokenRecord (s : State) (d : BitVec 6) : Nat :=
  s.sb d.toNat % 2 ^ 32 * 2 ^ 32 + s.cur.vpin * 2 ^ 16 + s.cur.phase % 2 ^ 16

def execStk (g : BitVec 3) (d base imm : BitVec 6) (s : State) :=
  perform (.stk g d base imm) s fun t => storeAt (t.address base imm 8) (bytesOf 8 (t.tokenRecord d)) t

/-! ### STQ -/

/-- Cycles after which an STQ is accepted (R325). -/
def stqCycles (loc : Nat) : Nat := if (homeDpa loc).isSome then 220 else 3072

/-- R324: a tagged write of some bytes at an address, with its expected tag. DESIGN CHOICE (log entry 33): below the locked level too
it reaches its vault no earlier than R325 says for the locked level. -/
def tagStoreAt (a tag : Nat) (bs : List Byte) (s : State) : State :=
  if a % bs.length ≠ 0 then s.misaligned a
  else match s.resolve s.slot.ctx .write false a with
    | .error r => s.trapWith r
    | .ok k =>
      let home := (homeDpa k.loc).getD k.loc
      let w : TagWrite :=
        { line := home / 256, tag, act := .bytes (cellsAt home bs), ctx := s.slot.ctx, part := s.cur.part
          kernel := s.cur.share.kernel, baddr := s.slot.baddr, pos := s.slot.pos, due := s.cycle + stqCycles k.loc
          num := s.cur.seq * 64 + s.slot.pos * 4, launch := s.kernelTag s.cur.share.kernel }
      match s.storeRefusal k.loc with
      | some q => s.storeRefused a tag bs q
      | none =>
        let t := s.updCur fun x =>
          { x with stqs := x.stqs + 1, stqBy := max x.stqBy (x.count + stqCycles k.loc) }
        { t with tagWrites := t.tagWrites ++ [w] }

def execStq (g : BitVec 3) (d base tag : BitVec 6) (m : ASize) (s : State) :=
  perform (.stq g d base tag m) s fun t =>
    t.unlessBad (tagStoreAt (t.sa base.toNat) ((t.cur.readS tag.toNat).toNat % 2 ^ 16) (t.storeData d m))

/-! ### Atomics -/

/-- The instance at which an atomic performs: EXT[1:0], or system scope for a fabric-global address (R70, R146, R270). -/
def State.atomInst (s : State) (loc : Nat) : Inst :=
  if isGlobal loc then .system
  else match s.slot.lend.ext with
    | some e => if e % 4 = 1 then .cluster (clusterOf (coreOf s.slot.ctx)) else if e % 4 = 2 then .system else .device
    | none => .device

/-- The latency of an atomic's old value (R35, R270). -/
def atomLatency (loc : Nat) (inst : Inst) : Nat :=
  if (homeDpa loc).isNone then latRemote else match inst with | .cluster _ => latAtomCluster | _ => latAtomDevice

/-- R204, R270: an atomic leaves for its point of coherence; its old value is a result that waits for it. -/
def atomicAt (op : Option AtomOp) (size a arg swap : Nat) (old : BitVec 6) (s : State) : State :=
  if a % size ≠ 0 then s.misaligned a
  else
    let kind : AKind := if op = some .load then .read else .write
    match s.resolve s.slot.ctx kind true a with
    | .error r => s.trapWith r
    | .ok k =>
      let inst := s.atomInst k.loc
      let r : Result :=
        { file := destFile s .s old.toNat, reg := old.toNat, ben := 0xFF, unit := s.slot.unit
          due := s.cur.count + atomLatency k.loc inst, ready := false }
      let t := s.post [r.variable a s.cycle none]
      if t.slot.raised.length = s.slot.raised.length then
        { t with atomics := t.atomics ++ [{
            ctx := s.slot.ctx, res := s.cur.seq * 64 + s.slot.pos * 4, inst, loc := k.loc, size, op, arg, swap
            remote := (homeDpa k.loc).isNone }] }
      else t

def execAtom (g : BitVec 3) (d base old : BitVec 6) (op : AtomOp) (s : State) :=
  perform (.atom g d base old op) s fun t =>
    atomicAt (some op) (if op = .fadd32 then 4 else 8) (t.sa base.toNat) (t.sb d.toNat) 0 old t

def execAcas (g : BitVec 3) (d base old : BitVec 6) (dword : Bool) (s : State) :=
  perform (.acas g d base old dword) s fun t =>
    atomicAt none (if dword then 8 else 4) (t.sa base.toNat) (t.cur.readS d.toNat).toNat
      (t.cur.readS (d.toNat + 1)).toNat old t

end Sys2Proof.Machine
end

