-- ==== Sys2Proof/Machine/Plied.lean ====
section
/-! DEFINITION. The plied accesses (14 R207 to R209): LDP (21 R302, 06 R126), STP (22 R323), PACC (21 R308, 06 R127) and
PDEC (21 R308, 06 R128). -/
namespace Sys2Proof.Machine

/-- R207: the base address of window `w`. -/
def Ctx.window (x : Ctx) (w : Nat) : Nat := bits (x.csrV (csrPw + w)).toNat 47 8 * 256

/-- PL, PLYS and NLOG of a page (R159). -/
def pagePlied (e : TlbEntry) : Bool := bitAt e.word0 53
def pagePlys (w1 : Nat) : Nat := bits w1 37 36
def pageNlog (w1 : Nat) : Nat := bits w1 35 31

/-- A trap of a plied access at an address. -/
def pliedTrap (cond a : Nat) : Raised := { cause := .translation, cond, faddr := a }

/-- R208, first check: the page of the window's base; NLOG of it. -/
def State.windowNlog (s : State) (kind : AKind) (wb : Nat) : Except Raised Nat :=
  match s.aim s.cur.part s.cur.vpin kind wb with
  | .trap cause cond => .error { cause, cond, faddr := wb }
  | .remote => .error (pliedTrap 3 wb)
  | .page key _ => match s.pageFor s.slot.ctx key with
    | .error cond => .error (walkTrap cond wb)
    | .ok e => if pagePlied e then .ok (pageNlog e.word1) else .error (pliedTrap 1 wb)

/-- A run of bytes that a plied access touches: the ply (4 for the scales), its address, its length. -/
structure PlySpan where
  ply  : Nat
  addr : Nat
  len  : Nat
  /-- Its page is one of a versioned region. -/
  ver  : Bool := false
  deriving DecidableEq, Repr

/-- The spans of elements n0 to n0 + cnt − 1 in plies 0 to k − 1, with the block scales if asked (R123, R208). -/
def plySpans (wb nlog n0 cnt k : Nat) (scales : Bool) : List PlySpan :=
  ((List.range k).map fun j => { ply := j, addr := wb + j * 2 ^ (nlog - 1) + n0 / 2, len := cnt / 2 })
    ++ (if scales then [{ ply := 4, addr := wb + 2 ^ (nlog + 1) + n0 / 8, len := cnt / 8 }] else [])

/-- The 64 KB pieces of a span: plies with the first address and the length in each. -/
def PlySpan.pieces (p : PlySpan) : List PlySpan :=
  let n := 2 ^ 16 - p.addr % 2 ^ 16
  if p.len ≤ n then [p] else [{ p with len := n }, { p with addr := p.addr + n, len := p.len - n }]

/-- R208, third check, on the pieces in increasing address order: where each lies, and PLYS of its page. `most` is the
ply above which a page that is written traps. -/
def State.resolvePieces (s : State) (kind : AKind) (nlog : Nat) (strict : PlySpan → Nat → Bool) :
    List PlySpan → Except Raised (List (PlySpan × Nat × Nat))
  | [] => .ok []
  | p :: t =>
    match s.reach s.slot.ctx kind false p.addr with
    | .error r => .error r
    | .ok k =>
      if !bitAt k.w0 53 || pageNlog k.w1 ≠ nlog || strict p (pagePlys k.w1) then .error (pliedTrap 1 p.addr)
      else match s.resolvePieces kind nlog strict t with
        | .error r => .error r
        | .ok l => .ok (({ p with ver := k.ver }, k.loc, pagePlys k.w1) :: l)

/-- The version fault of R212 that a plied write meets: after the checks of R208 on every page (22 R323, 21 R308). DESIGN CHOICE (log
entry 41): the pages of the block scales, which PACC and PDEC read and leave, count as written, so that one with COW = 1 raises it. -/
def State.sharedPiece (s : State) (kind : AKind) (l : List PlySpan) : Option Raised :=
  l.findSome? fun p => match s.resolve s.slot.ctx kind false p.addr with | .error r => some r | .ok _ => none

/-- What the checks of R208 leave: the pieces with their locations. -/
def State.pliedCheck (s : State) (kind : AKind) (wb n0 cnt k : Nat) (scales : Bool) (strict : PlySpan → Nat → Bool) :
    Except Raised (List (PlySpan × Nat × Nat)) :=
  match s.windowNlog kind wb with
  | .error r => .error r
  | .ok nlog =>
    if n0 % 8 ≠ 0 || 2 ^ nlog < n0 + cnt then .error (pliedTrap 2 (wb + n0 / 2))
    else
      let pieces := (plySpans wb nlog n0 cnt k scales).flatMap PlySpan.pieces
      match s.resolvePieces kind nlog strict pieces with
      | .error r => .error r
      | .ok l => match s.sharedPiece kind pieces with
        | some r => .error r
        | none => .ok l

/-- The bytes of one ply (or of the scales), those of a page that lacks the ply being zero (R159). -/
def State.plyBytes (s : State) (l : List (PlySpan × Nat × Nat)) (j : Nat) : List Byte :=
  (l.filter fun p => p.1.ply == j).flatMap fun (p, loc, plys) =>
    if j < 4 && plys < j then List.replicate p.len 0 else s.viewBytes s.slot.ctx s.storeOrder p.ver loc p.len

/-- Nibble `i` of a run of bytes (R123). -/
def nibbleAt (b : List Byte) (i : Nat) : Nat := (b.getD (i / 2) 0).toNat / (if i % 2 = 0 then 1 else 16) % 16

/-- Element `i` in 16-bit form from its plies (R119). -/
def plyElement (plies : List (List Byte)) (i : Nat) : Nat :=
  (plies.zipIdx.map fun (b, j) => nibbleAt b i * 2 ^ (12 - 4 * j)).foldl (· + ·) 0

/-- Bytes of ply `j` of elements in 16-bit form. -/
def plyPack (j : Nat) : List Nat → List Byte
  | a :: b :: t => BitVec.ofNat 8 (a / 2 ^ (12 - 4 * j) % 16 + 16 * (b / 2 ^ (12 - 4 * j) % 16)) :: plyPack j t
  | _ => []

/-- The first element of a plied access (R208). -/
def State.firstElement (s : State) (base : BitVec 6) (off : BitVec 4) : Nat := s.sa base.toNat + 8 * off.toNat

/-- The error that the data of a plied read carry, if any; a ply that its page lacks touches no memory (R159). -/
def State.pliedError (s : State) (l : List (PlySpan × Nat × Nat)) : Option Raised :=
  l.findSome? fun (p, loc, plys) =>
    if p.ply < 4 && plys < p.ply then none
    else (s.readError s.slot.ctx s.storeOrder loc p.len).map fun r => { r with pos := s.slot.pos, faddr := p.addr }

/-! ### LDP -/

/-- R126: an element read without or with rounding to `k` plies. -/
def readPlies (round : Bool) (k x : Nat) : Nat × Flags :=
  if round then
    match (ply 4).value x with
    | .num n m e =>
      let r := (ply k).roundNum true .rne n n m e
      (r.1 * 2 ^ (16 - 4 * k), r.2 &&& flOF)
    | _ => (0x8000, 0)
  else (if k < 4 && x = 0x8000 then 0 else x, 0)

/-- R302: LDP of 64 elements from element `n0` on of the window at `wb`. DESIGN CHOICE (log entry 86): it looks in no cache and fills
none, and takes the vault's 96 cycles. -/
def ldpAt (d : BitVec 6) (wb n0 : Nat) (plies : BitVec 2) (round : Bool) (s : State) : State :=
  let k := plies.toNat + 1
  let need := if round then 4 else k
  match s.pliedCheck .read wb n0 64 need false (fun _ _ => false) with
  | .error r => s.trapWith r
  | .ok l =>
    let b := (List.range need).map fun j => s.plyBytes l j
    let y := (List.range 64).map fun i => readPlies round k (plyElement b i)
    let v := BitVec.ofNat 1024 (ofLanes 16 (y.map Prod.fst))
    let r : Result :=
      { file := destFile s .v d.toNat, reg := d.toNat, ben := BitVec.ofNat 128 (s.ben 1024 16), val := v
        unit := s.slot.unit, lval := v, due := s.cur.count + latLoad }
    s.settle (s.laneFlags 16 (y.map Prod.snd)) latLoad
      [r.variable ((l.head?.map fun p => p.1.addr).getD 0) (s.cycle + 96) (s.pliedError l)]

def ldpBody (d base : BitVec 6) (win : BitVec 2) (off : BitVec 4) (plies : BitVec 2) (round : Bool) (s : State) : State :=
  ldpAt d (s.cur.window win.toNat) (s.firstElement base off) plies round s

def execLdp (g : BitVec 3) (d base : BitVec 6) (win : BitVec 2) (off : BitVec 4) (plies : BitVec 2) (round : Bool)
    (s : State) :=
  perform (.ldp g d base win off plies round) s (ldpBody d base win off plies round)

/-! ### STP -/

/-- The elements' plies 0 to k − 1 over the pieces of a plied access, as pending bytes. -/
def plyCells (l : List (PlySpan × Nat × Nat)) (xs : List Nat) (base : Nat → Nat) : List (Nat × Byte) :=
  l.flatMap fun (p, loc, _) =>
    if p.ply < 4 then cellsAt loc (((plyPack p.ply xs).drop (p.addr - base p.ply)).take p.len) else []

/-- The address of the first byte of ply `j` among the pieces. -/
def plyStart (l : List (PlySpan × Nat × Nat)) (j : Nat) : Nat :=
  ((l.find? fun p => p.1.ply == j).map fun p => p.1.addr).getD 0

/-- The pending bytes of a plied write, within the locked level's budget (R170). -/
def State.pliedStore (s : State) (l : List (PlySpan × Nat × Nat)) (xs : List Nat) : State :=
  let cells := plyCells l xs (plyStart l)
  if s.cur.withinBudget cells then
    l.foldl (fun t p => (sectorsOf p.2.1 p.1.len).foldl (fun t a => t.cacheWrite s.slot.ctx a) t) (s.addPending cells true)
  else s.raise .illegalOperand

/-- R323. -/
def stpBody (d base : BitVec 6) (win : BitVec 2) (off : BitVec 4) (plies : BitVec 2) (s : State) : State :=
  let k := plies.toNat + 1
  match s.pliedCheck .write (s.cur.window win.toNat) (s.firstElement base off) 64 k false (fun p plys => plys < p.ply) with
  | .error r => s.trapWith r
  | .ok l => s.pliedStore l (lanes (s.cur.readV d.toNat).toNat 16 64)

def execStp (g : BitVec 3) (d base : BitVec 6) (win : BitVec 2) (off : BitVec 4) (plies : BitVec 2) (s : State) :=
  perform (.stp g d base win off plies) s (stpBody d base win off plies)

/-! ### PACC and PDEC -/

/-- A value over a block scale, rounded to PLY16 (R127, R120). -/
def overBlock (mode : RMode) (sc : Nat) : FV → Nat × Flags
  | .nan .. => (0x8000, 0)
  | .inf n => ((ply 4).sign n + (ply 4).maxc, flOF ||| flNX)
  | .num n m e =>
    let (q, x, st) := overScale m e (e3m5 sc)
    (ply 4).roundNum true mode n n q x st

/-- An exact sum of finite values; an infinity prevails. -/
def addFV : FV → FV → FV
  | .num na ma ea, .num nb mb eb => let r := exactSum na ma ea nb mb eb; .num (r.1 < 0) r.1.natAbs r.2
  | .inf n, _ | _, .inf n => .inf n
  | x, _ => x

/-- An element's value times its block's scale. -/
def scaledFV (sc : Nat) : FV → FV
  | .num n m e => .num n (m * e3m5 sc) (e - 8)
  | v => v

/-- R127: one element under PACC. -/
def paccElement (mode : RMode) (sc x delta : Nat) : Nat × Flags :=
  let e := (ply 4).value x
  let d := fp32.value delta
  if e.isNan || d.isNan then (0x8000, nvIf d.signals)
  else overBlock mode sc (addFV (scaledFV sc e) d)

/-- R128: one element under PDEC. -/
def pdecElement (mode : RMode) (sc x lam : Nat) : Nat × Flags :=
  let e := (ply 4).value x
  match fp32.value lam with
  | .nan .. => (0x8000, flNV)
  | l =>
    let f := addFV (.num false 1 0) l.negate
    if e.isNan then (0x8000, 0)
    else match exactProd (scaledFV sc e) f with
      | some v => overBlock mode sc v
      | none => (0x8000, flNV)

/-- R308, R127: the mould over 32 elements in four blocks; a block of scale 0xFF keeps its elements and sets NV. -/
def pliedUpdate (f : Nat → Nat → Nat → Nat × Flags) (scales xs : List Nat) : List (Nat × Flags) :=
  xs.zipIdx.map fun (x, i) =>
    let sc := scales.getD (i / 8) 0
    if sc = 0xFF then (x, flNV) else f i sc x

/-- The flags of a plied update reach FLG when its read returns; while some TE bit is set even none of them hold the next
bundle back until then, and the schedule count of the locked level stands still meanwhile (R308). -/
def State.flagsOnReturn (s : State) (fl : Flags) : State :=
  s.updCur fun x =>
    if fl = 0 && x.trapMask = 0 then x else
    { x with flagsDue :=
        { due := x.count + (if x.level = 2 && x.trapMask ≠ 0 then 1 else latLoad), isVar := true
          at_ := s.cycle + (if x.level = 2 then latLoad else 96), seq := x.seq, fslot := s.slot.fslot
          baddr := s.slot.baddr, pos := s.slot.pos, flags := fl } :: x.flagsDue }

/-- R308: the mould. A store beyond the budget of R170 is a lower cause than a data error, and sets no flag (R227). -/
def updateBody (base : BitVec 6) (win : BitVec 2) (off : BitVec 4) (f : Nat → Nat → Nat → Nat × Flags) (s : State) : State :=
  match s.pliedCheck .write (s.cur.window win.toNat) (s.firstElement base off) 32 4 true (fun _ plys => plys ≠ 3) with
  | .error r => s.trapWith r
  | .ok l =>
    let b := (List.range 4).map fun j => s.plyBytes l j
    let y := pliedUpdate f ((s.plyBytes l 4).map BitVec.toNat) ((List.range 32).map fun i => plyElement b i)
    let fl := orFlags (y.map Prod.snd)
    if !s.cur.withinBudget (plyCells l (y.map Prod.fst) (plyStart l)) then s.raise .illegalOperand
    else match s.pliedError l with
    | some r => s.trapWith r
    | none =>
      if fl &&& s.cur.trapMask = 0 then (s.flagsOnReturn fl).pliedStore l (y.map Prod.fst)
      else s.raiseEnabled fl s.cur.trapMask latLoad

/-- The mode of element `i` of a plied update. -/
def State.updateMode (s : State) (sr : Bool) (i : Nat) : RMode :=
  if sr then .sr (laneRandom s.slot.word64.toNat i) else .rne

def execPacc (g : BitVec 3) (d base : BitVec 6) (win : BitVec 2) (off : BitVec 4) (sr : Bool) (s : State) :=
  perform (.pacc g d base win off sr) s fun t =>
    t.unlessBad (updateBody base win off fun i sc x => paccElement (t.updateMode sr i) sc x (lane (t.vb d.toNat) i 32))

def execPdec (g : BitVec 3) (d base : BitVec 6) (win : BitVec 2) (off : BitVec 4) (sr : Bool) (s : State) :=
  perform (.pdec g d base win off sr) s fun t =>
    updateBody base win off (fun i sc x => pdecElement (t.updateMode sr i) sc x ((t.cur.readE d.toNat).toNat % 2 ^ 32)) t

end Sys2Proof.Machine
end

