-- ==== Sys2Proof/Machine/Slot.lean ====
section
/-! DEFINITION. The bytes of a context image (16 R234; 18 R252): what each part of a save slot and of a dump holds. The spec gives
the parts by offset and size; their inner form is the model's (log entry 17). -/
namespace Sys2Proof.Machine

/-- `n` bytes whose form the spec does not give. -/
def State.freeBytes (s : State) (from_ n : Nat) : List Byte := (List.range n).map fun i => Config.freeByte (s.fresh + from_ + i)

/-- Dwords as bytes. -/
def dwordBytes (l : List Nat) : List Byte := l.flatMap (bytesOf 8)

/-- The number whose bits are the list's, bit 0 first. -/
def flagBits : List Bool → Nat
  | [] => 0
  | b :: t => (if b then 1 else 0) + 2 * flagBits t

/-- Both faces of the first `regs` registers of a file, of `n` bytes each: register by register, the visible face first. -/
def faceBytes {w : Nat} (t : Tab (Face w)) (regs : List Nat) (n : Nat) : List Byte :=
  regs.flatMap fun k => bytesOf n (Tab.get {} t k).v.toNat ++ bytesOf n (Tab.get {} t k).h.toNat

/-- The written bits of a file (02 R28). -/
def writtenBits {w : Nat} (t : Tab (Face w)) (regs : List Nat) : Nat := flagBits (regs.map fun k => (Tab.get {} t k).wr)

/-- 1,024 bytes: b0, b1, the valid bits, the landing cycles, and b2 to b7. -/
def State.latchImage (s : State) (x : Ctx) : List Byte :=
  let held := fun k => ((Tab.get none x.latch k).getD 0).toNat
  dwordBytes ([held 0, held 1, flagBits ((List.range 8).map fun k => (Tab.get none x.latch k).isSome)]
      ++ (List.range 8).map fun k => Tab.get 0 x.latchAt k)
    ++ s.freeBytes 10392 168 ++ (List.range 6).flatMap fun k => bytesOf 128 (held (k + 2))

/-- 80 bytes of a port walker: its configuration, START, the operands popped, and each level's count and stride. -/
def Walker.image (w : Walker) : List Byte :=
  dwordBytes ([w.nl + 8 * w.clog + 128 * w.opw + 512 * flagBits [w.glob, w.armed], w.start, w.popped]
    ++ (List.range 7).map fun l => w.counts.getD l 0 * 2 ^ 32 + ofSigned 32 (w.strides.getD l 0))

/-- 512 bytes of the walkers of q0 to q3, w0 and w1. -/
def State.walkerImage (s : State) (x : Ctx) : List Byte :=
  (List.range 6).flatMap (fun k => (Tab.get {} x.ports k).image) ++ s.freeBytes 11808 32

/-- 32 bytes of an active loop: where it is, its count, its iteration, its masks. -/
def Loop.image (l : Loop) : List Byte :=
  dwordBytes [l.start + l.len * 2 ^ 48 + l.pos * 2 ^ 53 + l.lvl * 2 ^ 58 + 2 ^ 63, l.count, l.iter, l.first + l.last * 2 ^ 32]

/-- 256 bytes of the dobby: six loops, those that are active first, outermost first, and LIDX0 to LIDX5. -/
def State.dobbyImage (s : State) (x : Ctx) : List Byte :=
  (x.loops.take 6).flatMap Loop.image ++ List.replicate (32 * (6 - x.loops.length)) 0
    ++ dwordBytes ((List.range 6).map fun k => (Tab.get 0 x.lidx k).toNat) ++ s.freeBytes 12080 16

/-- 32 bytes of a tile's fill state: the element size, the rows pushed and popped, and the cycle of its last push. -/
def Tile.state (t : Tile) : List Byte := dwordBytes [t.size, t.rows.length, t.popped, t.last]

/-- 8,256 bytes of the transpose queue: the rows, of 128 bytes each, and the two fill states. -/
def tileImage (tiles : List Tile) : List Byte :=
  let two := (List.range 2).map fun k => tiles.getD k {}
  two.flatMap (fun t => (List.range 32).flatMap fun r => bytesOf 128 (t.rows.getD r 0)) ++ two.flatMap Tile.state

/-- 576 bytes: the random-bit queue's words, QKEY, n, the native generators' counts, and the words in the queue. -/
def State.randomImage (s : State) (x : Ctx) : List Byte :=
  dwordBytes ((List.range 64).map (fun n => (x.rnd.getD n 0).toNat) ++ [(x.csrV csrQkey).toNat, x.rndN]
      ++ (List.range 3).map (fun n => Tab.get 0 x.srCount n) ++ [x.rnd.length]) ++ s.freeBytes 20912 16

/-- The two-faced CSRs, in the order of their numbers (20 R280). -/
def facedCsrs : List Nat := [0, 1, 2, 8, 9, 10, 11, 0x10, 0x11, 0x12] ++ upFrom 0x18 9 ++ [0x30] ++ upFrom 0x40 4

/-- 1,024 bytes: the two-faced CSRs, and the written bits of the files. -/
def State.csrImage (s : State) (x : Ctx) : List Byte :=
  faceBytes x.csr facedCsrs 8
    ++ dwordBytes [writtenBits x.s (List.range 64), writtenBits x.v (List.range 32) + writtenBits x.e (List.range 32) * 2 ^ 32,
      writtenBits x.p (List.range 16) + writtenBits x.csr facedCsrs * 2 ^ 16]
    ++ s.freeBytes 21336 616

/-- 576 bytes: PC, the schedule count, the handler, FPROG with the FLIP that waits, PHASE and the pin, and the interrupts held, of
which 64 have room. -/
def State.placeImage (s : State) (x : Ctx) : List Byte :=
  let wait := fun (f : Option FlipWait) => match f with
    | some w => w.baddr % 2 ^ 48 + flagBits [w.released, w.arrived, w.retire, true] * 2 ^ 48 + w.pos * 2 ^ 52
    | none => 0
  let inside := match x.handler with | some h => [h.pc % 2 ^ 48 + 2 ^ 63, wait h.wait] | none => [0, 0]
  dwordBytes ([x.pc, x.count] ++ inside ++ [wait x.flip, x.phase, match x.pin with | some n => n + 2 ^ 63 | none => 0, x.irq.length]
      ++ ((x.irq.take 64).map BitVec.toNat)) ++ s.freeBytes 22016 (8 * (64 - x.irq.length))

/-- The 22,528 bytes of a context before its in-flight list, with the transpose queue of the array's context. -/
def State.fixedImage (s : State) (tiles : List Tile) (x : Ctx) : List Byte :=
  faceBytes x.s (List.range 64) 8 ++ faceBytes x.v (List.range 32) 128 ++ faceBytes x.p (List.range 16) 16 ++ faceBytes x.e (List.range 32) 8
    ++ dwordBytes ((List.range 8).map fun n => (x.readH n).toNat) ++ s.latchImage x ++ s.walkerImage x ++ s.dobbyImage x
    ++ tileImage tiles ++ s.randomImage x ++ s.csrImage x ++ s.placeImage x

/-- A cell in 64 bits: accumulator, poison bit, residue (07 R130). -/
def Cell.word (k : Cell) : Nat := k.acc.toNat + (if k.poison then 2 ^ 48 else 0) + k.res.toNat * 2 ^ 49

/-- The 168,000 bytes of the array state (07 R130): the two banks, the attribute files, and the configuration: of each bank I and J,
DEXP and the drain pointer, then the current bank and the beat counter. -/
def State.arrayImage (s : State) (k : MatrixArray) : List Byte :=
  let banks := [k.bank0, k.bank1]
  banks.flatMap (fun b => (List.range 8192).flatMap fun n => bytesOf 8 (Tab.get {} b.cells n).word)
    ++ (List.range 8192).flatMap (fun n => bytesOf 3 (Tab.get 0 k.aAttr n))
    ++ (List.range 4096).flatMap (fun n => bytesOf 3 (Tab.get 0 k.bAttr n))
    ++ dwordBytes (banks.flatMap (fun b => [b.i + b.j * 2 ^ 32, ofSigned 32 b.dexp + b.drain * 2 ^ 32]) ++ [if k.cur then 1 else 0, k.beat])
    ++ s.freeBytes 200272 16

end Sys2Proof.Machine
end

