-- ==== Sys2Proof/Machine/Fault.lean ====
section
/-! DEFINITION. After a trap (16 R228 to R235; 18 R252, R253; 19 R261): the fault record, resuming and killing, the save slot
and pre-emption, core dumps, the two runs after a data error, and QCTL. -/
namespace Sys2Proof.Machine

/-! ### The fault record (16 R230) -/

/-- FPROG: bit 0 release done, bit 1 arrived. -/
def FlipWait.prog (w : FlipWait) : Nat := (if w.released then 1 else 0) + (if w.arrived then 2 else 0)

/-- Words 0 to 3 for a trap of a context. -/
def Ctx.recordWords (x : Ctx) (t : Stop) (r : Raised) (baddr nif : Nat) : List Nat :=
  let prog := match t.fwait, x.flip with | true, some w => w.prog | _, _ => 0
  [ r.cause.code * 2 ^ 56 + r.cond % 16 * 2 ^ 52 + baddr / 16 % 2 ^ 44 * 16 + r.pos % 16,
    x.phase % 2 ^ 16 * 2 ^ 48 + r.imm % 256 * 2 ^ 40 + x.level % 4 * 2 ^ 38 + (if t.hnd then 2 ^ 37 else 0)
      + (if t.fwait then 2 ^ 36 else 0) + prog * 2 ^ 32 + nif * 2 ^ 12 + t.done % 2 ^ 12,
    r.faddr % 2 ^ 64,
    t.rpc / 16 % 2 ^ 44 * 16 ]

/-- A landing that updates a latch and no register. -/
def Result.latchOnly (r : Result) : Bool := r.file == .latch

/-- An entry of the in-flight list. DESIGN CHOICE (log entry 57): where the landing updates no latch UNIT is 0. -/
def Result.entry (r : Result) (count : Nat) : List Byte :=
  let place := if r.latchOnly then RFile.latch.code * 2 ^ 61 else r.file.code * 2 ^ 61 + r.reg % 2 ^ 13 * 2 ^ 48
  bytesOf 8 (place + r.unit.getD 0 % 8 * 2 ^ 45 + (if r.late.isSome then 2 ^ 43 else 0) + min (r.due - count) 3072)
    ++ bytesOf 16 (if r.latchOnly then 0 else r.ben.toNat)
    ++ (if r.late.isSome then bytesOf 8 r.syl ++ bytesOf 8 r.ea ++ List.replicate 112 0
      else bytesOf 128 (if r.latchOnly then r.lval else r.val).toNat)

/-- The order of the list: by resolution cycle; in one cycle by position, then by bundle (R32). -/
def Result.listedBefore (a b : Result) : Bool :=
  a.due < b.due || (a.due == b.due && (a.pos < b.pos || (a.pos == b.pos && a.seq ≤ b.seq)))

def insertListed (r : Result) : List Result → List Result
  | [] => [r]
  | a :: t => if r.listedBefore a then r :: a :: t else a :: insertListed r t

def sortListed : List Result → List Result
  | [] => []
  | r :: t => insertListed r (sortListed t)

/-- Of a list of entries, all results and the first `n` of those that stand for a fault alone. -/
def listRoom : Nat → List Result → List Result
  | _, [] => []
  | n, r :: t =>
    if r.faultOnly then (match n with | 0 => listRoom 0 t | n + 1 => r :: listRoom n t) else r :: listRoom n t

/-- The in-flight list, in order of resolution cycle: the record has room for 64 entries (log entry 57). -/
def Ctx.listed (x : Ctx) : List Result :=
  (listRoom (Config.resultsMax - x.results) (sortListed x.inflight)).take Config.resultsMax

def Ctx.entries (x : Ctx) : List Byte := x.listed.flatMap fun r => r.entry x.count

/-- The record of a stopped context. -/
def Ctx.record (x : Ctx) (t : Stop) : List Byte :=
  ((x.recordWords t t.raised t.baddr x.listed.length).flatMap fun w => bytesOf 8 w) ++ x.entries

/-- Every variable-latency result has come back from memory (R228). -/
def State.collected (s : State) (c : Nat) : Bool :=
  (s.ctx c).inflight.all fun r => !r.isVar || (r.ready && r.at_ ≤ s.cycle)

/-- What has come back lands at its schedule cycle from now on (R232); below the locked level it reaches no latch (R42). -/
def Ctx.settled (x : Ctx) : Ctx :=
  { x with inflight := x.inflight.map fun r =>
      if r.isVar && r.late.isNone then { r with isVar := false, unit := if x.level = 2 then r.unit else none } else r }

/-- The fatal faults of a context that the first trap's record does not name, each with the address of its bundle (18 R252,
R253). -/
def Ctx.laterFaults (x : Ctx) (t : Stop) (fatal : Word64) : List (Raised × Nat) :=
  (x.inflight.filterMap fun r => r.late.map fun q => (q, r.baddr)).filter fun q =>
    q != (t.raised, t.baddr) && q.1.cause != .dataError && bitAt fatal.toNat q.1.cause.code

/-! ### Data errors (16 R235) -/

/-- The bytes of a snapshot are put back. -/
def State.restoreSnap (s : State) (p : Nat) (l : List (Nat × List Byte)) : State :=
  l.foldl (fun t (va, b) =>
    t.deviceCommit .device (b.zipIdx.filterMap fun (x, i) => (t.partPage p (va + i)).map fun e => (e.dpa (va + i), x))) s

/-- The health event of a data error in memory names the vault in which the bad word stands, and the page of the access (R235). -/
def State.badMemoryEvent (s : State) (p faddr loc tag : Nat) : State :=
  let v := ((homeDpa loc).bind s.vaultOf).getD 0
  s.notify evHealth p v tag [BitVec.ofNat 64 v, BitVec.ofNat 64 (faddr / 2 ^ 16 * 2 ^ 16)]

/-- A queue halts for a data error. -/
def State.haltData (s : State) (k : Kernel) (cond faddr loc : Nat) : State :=
  if cond = 2 then
    (s.updQueue k.part k.queue fun x => x.stop .dataError).badMemoryEvent k.part faddr loc (s.headTag k.part k.queue)
  else s.haltQueue k.part k.queue .dataError

/-- DATA_ERROR_RERUN, by the rows of R235; the two runs begin once the contexts are free again. -/
def State.dataError (s : State) (k : Kernel) (c : Nat) (t : Stop) : State :=
  if k.rerun ≠ 0 then (s.killKernel k).endRun k (.trapped t.baddr t.raised.pos t.raised.faddr t.raised.loc)
  else if t.raised.cond = 2 || (s.queue k.part k.queue).snap.isNone then
    (s.killKernel k).haltData k t.raised.cond t.raised.faddr t.raised.loc
  else
    let r : Rerun := { core := coreOf c, kernel := k }
    (s.killKernel k).updPart k.part fun x => { x with reruns := x.reruns ++ [r] }

/-! ### FAULT_RECORD_WRITE -/

/-- CTXCMD kill. -/
def State.killCtx (s : State) (c : Nat) : State :=
  match s.kernel (s.ctx c).share.kernel with
  | some k => s.killInQueue k .killed
  | none => s

/-- The access of a listed entry, at its effective address: a load reads again, a store that another device refused goes to it
again. A syllable that a port gave a word with an error is given it again (log entry 11). -/
def Result.access (r : Result) : Instr → Option (State → State)
  | .ld _ d _ _ m => some (ldAt d m r.ea)
  | .ldr _ d _ _ m => some (ldrAt d m r.ea)
  | .lds _ d _ _ m => some (ldsAt d m r.ea)
  | .ldp _ d _ _ _ plies round => some (ldpAt d r.ea 0 plies round)
  | .st _ _ _ _ m => if r.ea = 0 then none else some (storeAt r.ea (bytesOf m.bytes r.lval.toNat))
  | .stk .. => some (storeAt r.ea (bytesOf 8 r.lval.toNat))
  | .stq _ _ _ _ m => if r.ea = 0 then none else some (tagStoreAt r.ea (r.val.toNat % 2 ^ 16) (bytesOf m.bytes r.lval.toNat))
  | _ => none

/-- A listed access is performed again, and its entry keeps its landing (R232): it takes what the access finds now. -/
def State.performAgain (s : State) (c : Nat) (r : Result) (f : State → State) : State :=
  let rest := (s.ctx c).inflight.filter fun a => a.id != r.id
  let slot : Slot := { ctx := c, baddr := r.baddr, pos := r.pos, word := r.syl, fslot := r.fslot, spad := (s.core (coreOf c)).spad0 }
  let seq := (s.ctx c).seq
  let t := f { s.updCtx c fun x => { x with inflight := rest, seq := r.seq } with slot }
  let now := match t.slot.raised, (t.ctx c).inflight[rest.length]? with
    | q :: _, _ => [{ r with late := some q }]
    | [], some a => [{ r with val := a.val, lval := a.lval, late := a.late, at_ := a.at_, isVar := a.isVar, ready := a.ready, found := false }]
    | [], none => []
  t.updCtx c fun x => { x with inflight := rest ++ now, seq }

/-- An entry of the list is dealt with as its context resumes. -/
def State.reissueOne (s : State) (c : Nat) (r : Result) : State :=
  if (s.atomics.any fun a => a.held && a.ctx == c && a.res == r.id) || (s.verReqs.any fun v => v.held && v.ctx == c && v.res == r.id)
  then s.updCtx c fun x => { x with inflight := x.inflight.map fun a =>
    if a.id == r.id && a.late.isSome then
      { a with late := none, found := false, ready := false, due := max a.due x.count, at_ := s.cycle + (a.due - x.count) } else a }
  else match decode r.syl with
    | .ok i => match r.access i with
      | some f => s.performAgain c r f
      | none => s
    | .error _ => s

/-- R229, R232: the faulting accesses of the in-flight list are performed again. -/
def State.reissue (s : State) (c : Nat) : State :=
  let t := (((s.ctx c).inflight.filter fun r => r.late.isSome).foldl (fun t r => t.reissueOne c r) s).updCtx c (Ctx.reclock s.cycle)
  { t with
    fresh := t.fresh + 1
    atomics := t.atomics.map fun a => if a.ctx == c then { a with held := false } else a
    verReqs := t.verReqs.map fun v => if v.ctx == c && v.held then { v with held := false, issued := s.cycle } else v }

/-- CTXCMD resume of a stopped context. -/
def State.resumeCtx (s : State) (c : Nat) : State := (s.reissue c).updCtx c Ctx.resume

/-- The cycle of the fault that a stopped context was stopped for. -/
def State.faultCycle (s : State) (c : Nat) : Nat := match (s.ctx c).stop with | some t => t.at_ | none => 0

/-- A dump among the queued ones: behind those of earlier faults, and among those of one cycle in increasing CTX (18 R253). -/
def State.queueDump (s : State) (c : Nat) : List Nat → List Nat
  | [] => [c]
  | a :: t =>
    if s.faultCycle c < s.faultCycle a || (s.faultCycle c == s.faultCycle a && c < a) then c :: a :: t else a :: s.queueDump c t

/-- A fatal trap (18 R252, R253): its dump is queued, or with eight pending the context gets none, and the owner is told. Its kernel
is then killed, once the dumps of its other contexts are written (`State.doDump`). -/
def State.fatalTrap (s : State) (k : Kernel) (c : Nat) : State :=
  let x := s.part k.part
  if 8 ≤ x.dumps.length then
    let t := if x.dumps.any fun d => (s.ctx d).share.kernel == k.id then s.updCtx c fun y => { y with stop := none }
      else s.killInQueue k .fault
    t.notify evDump k.part (coreOf c) (s.kernelTag k.id) [BitVec.ofNat 64 c]
  else s.updPart k.part fun x => { x with dumps := s.queueDump c x.dumps }

/-- Whether the trap for which a context stops is fatal (18 R252). -/
def State.stopsFatally (s : State) (c : Nat) : Bool :=
  match (s.ctx c).stop with
  | some t => (s.ctx c).run == .stopping && t.raised.cause != .dataError
    && bitAt (s.part (s.ctx c).part).fatal.toNat t.raised.cause.code
  | none => false

/-- Whether a fatal trap is dealt with in its turn: after its cycle, and behind those of its cycle and partition in contexts of a lower
CTX (18 R253). -/
def State.fatalInTurn (s : State) (c : Nat) : Bool :=
  s.faultCycle c < s.cycle && !(s.ctxs.any fun (d, x) =>
    d < c && x.part == (s.ctx c).part && s.stopsFatally d && s.faultCycle d == s.faultCycle c)

/-- The results have come back (R228); fatal faults of one cycle are queued in increasing CTX (18 R253). -/
def State.canRecord (s : State) (c : Nat) : Bool :=
  (s.ctx c).run == .stopping && s.collected c && (!s.stopsFatally c || s.fatalInTurn c)

/-- The record is written and the owner told; then what it names is dealt with. -/
def State.doRecord (s : State) (c : Nat) : State :=
  let x := s.ctx c
  match x.stop, s.kernel x.share.kernel with
  | some t, some k =>
    let t := { t with more := x.laterFaults t (s.part k.part).fatal }
    let y := { x.settled with run := .stopped, stop := some t }
    let s := (s.setCtx c y).deviceCommit .device (cellsAt ((s.part k.part).frbase.toNat + 10240 * c) (y.record t))
    let s := s.notify evFault k.part (coreOf c) (s.kernelTag k.id) [BitVec.ofNat 64 (c % 2)]
    if t.raised.cause = .dataError then s.dataError k c t
    else if bitAt (s.part k.part).fatal.toNat t.raised.cause.code then s.fatalTrap k c
    else match t.held with
      | some 1 => s.resumeCtx c
      | some _ => s.killCtx c
      | none => s
  | _, _ => s.updCtx c fun x => { x with run := .stopped }

def execFaultRecordWrite (c : Nat) (s : State) := event (s.canRecord c) (s.doRecord c)

/-! ### CTXCMD (16 R232) -/

/-- Whether a context is held for its dump. -/
def State.frozen (s : State) (p c : Nat) : Bool := (s.part p).dumps.contains c

/-- A resume or a kill that has been asked for before the record is written; a kill stands, whatever is asked for after it. -/
def Ctx.holdAct (x : Ctx) (act : Nat) : Ctx :=
  { x with stop := x.stop.map fun t => { t with held := if t.held = some 2 then t.held else some act } }

/-- Whether CTXCMD of a partition reaches a context; only its reconfiguration restarts a partition that its dump engine has
stopped (18 R253). -/
def State.commands (s : State) (p c : Nat) : Bool :=
  (s.ctx c).run != .free && (s.ctx c).part == p && !s.frozen p c && !(s.part p).dead

/-- What CTXCMD ignores leaves the state as it is. -/
def State.ctxResume (s : State) (p c : Nat) : State :=
  if !s.commands p c then s
  else match (s.ctx c).run with
    | .stopped => if (s.ctx c).stop.isSome then s.resumeCtx c else s
    | .stopping => s.updCtx c fun x => x.holdAct 1
    | _ => s

def execCtxcmdResume (b : Commander) (c : Nat) (s : State) := event (s.supervised b) ((s.hearFrom b).ctxResume b.part c)

def State.ctxKill (s : State) (p c : Nat) : State :=
  if !s.commands p c then s
  else match (s.ctx c).run with
    | .stopped => s.killCtx c
    | .stopping => s.updCtx c fun x => x.holdAct 2
    | _ => s

def execCtxcmdKill (b : Commander) (c : Nat) (s : State) := event (s.supervised b) ((s.hearFrom b).ctxKill b.part c)

def State.ctxPreempt (s : State) (p c : Nat) : State :=
  if s.commands p c && ((s.ctx c).alive || (match (s.ctx c).run with | .between _ => true | _ => false)) then
    s.updCtx c fun x => { x with preempt := true }
  else s

def execCtxcmdPreempt (b : Commander) (c : Nat) (s : State) := event (s.supervised b) ((s.hearFrom b).ctxPreempt b.part c)

/-! ### Pre-emption (16 R234) -/

/-- What the in-flight list of a context that goes to its slot says of the place where it stands: a bundle that a resumption has still to
finish, a FLIP's wait, or a boundary, with DONE of R74. -/
def State.placeOf (s : State) (c : Nat) : Stop :=
  let x := s.ctx c
  let fixed := s.fixedAt c
  match x.redo, x.flip with
  | some d, _ => { rpc := x.pc, done := d ||| fixed, hnd := x.inHandler }
  | none, some w => { rpc := w.baddr, done := 0xFFF - 2 ^ w.pos, hnd := x.inHandler, fwait := true }
  | none, none => { rpc := x.pc, done := fixed, hnd := x.inHandler }

/-- The 32,288 bytes of a context in its slot, with the transpose queue of the array's context: what stands at fixed places, then
the in-flight list, for a context that is stopped with the words of its record. -/
def State.image (s : State) (tiles : List Tile) (c : Nat) : List Byte :=
  let x := s.ctx c
  let list := x.record (x.stop.getD (s.placeOf c))
  s.fixedImage tiles x ++ list ++ s.freeBytes 22528 (9760 - list.length)

/-- Whether the array state is saved with a context (07 R130). -/
def Ctx.savesArray (x : Ctx) (c : Nat) : Bool := c % 2 == 0 && x.usedX

/-- A context with its scratchpad and the array state. -/
def State.wholeImage (s : State) (c : Nat) : List Byte :=
  let x := s.ctx c
  let k := s.core (coreOf c)
  s.image (if c % 2 = 0 then k.tiles else []) c ++ Memory.readN k.spad x.alloc.spbase (256 * x.alloc.spad)
    ++ (if x.savesArray c then s.arrayImage k.arr else [])

def State.canPreempt (s : State) (c : Nat) : Bool :=
  let x := s.ctx c
  x.preempt && (x.alive || (match x.run with | .between _ => true | _ => false)) && s.collected c
    && !((s.core (coreOf c)).drains.any fun d => d.ctx == c && d.till.isSome)
    && !(s.verReqs.any fun v => v.ctx == c) && !(s.atomics.any fun a => a.ctx == c)

/-- The context goes to its slot, its scratchpad and the array state with it. Drains that wait for their schedule cycle wait with
it. -/
def State.doPreempt (s : State) (c : Nat) : State :=
  let x := s.ctx c
  let k := s.core (coreOf c)
  let mine := fun (d : DrainWrite) => d.ctx == c
  let v : Saved :=
    { c, kernel := x.share.kernel, run := x.run, spad := Memory.readN k.spad x.alloc.spbase (256 * x.alloc.spad)
      arr := if x.savesArray c then some k.arr else none, tiles := if c % 2 = 0 then k.tiles else []
      drains := k.drains.filter mine }
  let t := s.deviceCommit .device (cellsAt ((s.part x.part).svbase.toNat + 2 ^ 20 * c) (s.wholeImage c))
  let t := { t.orphanWalks (· == c) with saved := t.saved ++ [v], fresh := t.fresh + 2 ^ 20 }
  let t := t.updCore (coreOf c) fun k => { k with drains := k.drains.filter fun d => !mine d }
  let t := t.setCtx c { (x.settled.dropAhead s.cycle) with run := .preempted, preempt := false, walked := [] }
  if x.level = 2 then t.updKernel x.share.kernel fun k => { k with nr := true } else t

def execPreemption (c : Nat) (s : State) := event (s.canPreempt c) (s.doPreempt c)

/-- Whether a ready LAUNCH that can be placed is before a saved kernel (R57, R61). -/
def State.launchAhead (s : State) (k : Kernel) : Bool :=
  match s.dispatchable k.part with
  | some (r, _) => ahead r.desc.prio r.k.arrival k.prio k.arrival
  | none => false

/-- Whether the place of a saved context is free again: its hardware context, and what the core's other context has taken
meanwhile (R57, 09 R144). -/
def State.placeFree (s : State) (v : Saved) : Bool :=
  let x := s.ctxFor v.kernel v.c
  let o := s.ctx (2 * coreOf v.c + (1 - v.c % 2))
  (s.core (coreOf v.c)).works
    && (if v.away.isSome then (s.ctx v.c).run == .free
      else (s.ctx v.c).run == .preempted && (s.ctx v.c).share.kernel == v.kernel)
    && (s.vacant (2 * coreOf v.c + (1 - v.c % 2)) || (x.level != 2 && (o.level != 2 || o.ended)
      && !(overlaps x.alloc.spbase (256 * x.alloc.spad) o.alloc.spbase (256 * o.alloc.spad))))

/-- The saved context that comes back to a place now. -/
def State.restorable (s : State) (c : Nat) : Option Saved :=
  s.saved.find? fun v => v.c == c && s.placeFree v && !(s.part (s.ctxFor v.kernel c).part).dead && s.alarm.isNone
    && (match s.kernel v.kernel with | some k => !s.launchAhead k | none => false)

/-- R234: the same bytes are written back on the same core and context. DEDUCED (log entry 69): the array of a context that saved
none is as its start left it, clear, whatever another kernel has left there (07 R130). -/
def State.doRestore (s : State) (c : Nat) : State :=
  match s.restorable c with
  | none => s
  | some v =>
    let x := s.ctxFor v.kernel c
    let t := { s with saved := s.saved.filter fun u => !(u.c == c && u.kernel == v.kernel) }
    let t := t.setCtx c { x.reclock s.cycle with run := v.run, brka := (t.ctx c).brka, brkaNew := (t.ctx c).brkaNew }
    t.updCore (coreOf c) fun k => { k with
      spad := Memory.writeAll k.spad (cellsAt x.alloc.spbase v.spad)
      bad := k.bad.filter fun w => 8 * w < x.alloc.spbase || x.alloc.spbase + v.spad.length ≤ 8 * w
      arr := if c % 2 = 0 then v.arr.getD {} else k.arr
      tiles := if c % 2 = 0 then v.tiles else k.tiles
      drains := k.drains ++ v.drains
      tlb := if x.level = 2 then [] else k.tlb }

def execContextRestore (c : Nat) (s : State) := event (s.restorable c).isSome (s.doRestore c)

/-! ### Dumps (18 R252, R253) -/

/-- Bytes of a dump slot, slots of the ring (log entry 18), and the slots' place. -/
def Part.dumpSlot (p : Part) : Nat := 2 ^ p.dmpShift
def Part.dumpRing (p : Part) : Nat := p.dumpSlot * 2 ^ bits p.dmpBase.toNat 3 0
def Part.dumpFull (p : Part) : Bool := (p.dmpHead + p.dumpSlot) % p.dumpRing == p.dmpTail % p.dumpRing
def Part.dumpAt (p : Part) : Nat := bits p.dmpBase.toNat 38 12 * 4096 + p.dmpHead

/-- Whether the scratchpad of the context to be dumped holds a word in error, which the dump engine meets as it reads it. -/
def State.dumpReadsBad (s : State) (p : Nat) : Bool :=
  match (s.part p).dumps with
  | [] => false
  | c :: _ => (s.core (coreOf c)).badAt (s.ctx c).alloc.spbase (256 * (s.ctx c).alloc.spad)

/-- The dump engine faults: the slot lies in no memory, a word of it is in error, or one that it reads is (18 R253). -/
def State.dumpBad (s : State) (p : Nat) : Bool :=
  let x := s.part p
  x.dmpShift < 20 || 23 < x.dmpShift || !s.dpaMapped x.dumpAt || !s.dpaMapped (x.dumpAt + x.dumpSlot - 1)
    || s.poisoned.any (fun l => x.dumpAt ≤ 256 * l && 256 * l < x.dumpAt + x.dumpSlot)
    || (s.badDram.any fun w => x.dumpAt ≤ 32 * w && 32 * w < x.dumpAt + x.dumpSlot) || s.dumpReadsBad p

/-- The bytes of a dump. -/
def State.dumpBytes (s : State) (c : Nat) (slot : Nat) : List Byte :=
  let x := s.ctx c
  let t := x.stop.getD {}
  let more := t.more.take 8
  let record := x.record t
  let body := record ++ s.freeBytes 400000 (10240 - record.length) ++ s.wholeImage c
    ++ more.flatMap fun r => (x.recordWords t r.1 r.2 0).flatMap fun w => bytesOf 8 w
  let len := 64 + body.length
  let head := bytesOf 8 (2 ^ 63 + (if slot < len then 2 ^ 62 else 0) + more.length * 2 ^ 58 + min (t.more.length - 8) 1023 * 2 ^ 48 + c)
    ++ bytesOf 8 (min len slot) ++ s.freeBytes 420000 48
  (head ++ body).take slot

def State.canDump (s : State) (p : Nat) : Bool :=
  !(s.part p).dumps.isEmpty && !s.dumpBad p && !(s.part p).dumpFull

/-- A dump is written, the owner told, and the kernel killed once no dump of it waits; its queue halts with a fault status. -/
def State.doDump (s : State) (p : Nat) : State :=
  match (s.part p).dumps with
  | [] => s
  | c :: rest =>
    let x := s.part p
    let t := s.deviceCommit .device (cellsAt x.dumpAt (s.dumpBytes c x.dumpSlot))
    let t := { t with fresh := t.fresh + 2 ^ 20 }.updPart p fun y =>
      { y with dumps := rest, dmpHead := (y.dmpHead + y.dumpSlot) % y.dumpRing }
    let t := t.notify evDump p (coreOf c) (t.kernelTag (t.ctx c).share.kernel) [BitVec.ofNat 64 (x.dmpHead / x.dumpSlot)]
    match t.kernel (t.ctx c).share.kernel with
    | some k => if rest.any fun d => (t.ctx d).share.kernel == k.id then t else t.killInQueue k .fault
    | none => t

def execDumpComplete (p : Nat) (s : State) := event (s.canDump p) (s.doDump p)

/-- The partition stops: contexts, dispatch and queues. -/
def State.doDumpFault (s : State) (p : Nat) : State :=
  let t := s.ctxs.foldl (fun t (c, x) =>
    if x.run != .free && x.part == p then t.updCtx c fun y => { y with run := match y.run with | .preempted => .preempted | .dying => .dying | _ => .stopped } else t) s
  let t := (List.range 16).foldl (fun t q => t.updQueue p q fun x => { x with halt := some .dumpEngine }) t
  (t.updPart p fun x => { x with dead := true, dumps := [] }).healthEvent p 0 0

def execDumpEngineFault (p : Nat) (s : State) := event (!(s.part p).dumps.isEmpty && !(s.part p).dumpFull && s.dumpBad p) (s.doDumpFault p)

/-! ### RERUN_COMPARE (16 R235) -/

/-- Nothing of a kernel that runs twice is in flight. -/
def State.rerunIdle (s : State) (r : Rerun) : Bool := !(s.kernels.any fun k => k.part == r.kernel.part && k.queue == r.kernel.queue)

/-- Whether a run may begin on the placement of the first: its contexts, scratchpad and lines are free again. -/
def State.rerunFits (s : State) (r : Rerun) : Bool :=
  let k := r.kernel
  let open_ := s.spadOffsets (coresOf k.clusters) k.d.spad []
  !(s.part k.part).dead && s.alarm.isNone && (!s.powerHigh || k.level == 2) && s.clustersOpen k.part k.d k.level k.clusters
    && k.ctxs.all s.vacant && (List.range k.d.perCore).all fun j => open_.contains (k.bases.getD j 0)

/-- The runs of a partition that go on now: the next run begins, or the two are compared. -/
def State.nextRerun (s : State) (p : Nat) : Option Rerun :=
  (s.part p).reruns.find? fun r => s.rerunIdle r && (2 ≤ r.ends.length || s.rerunFits r)

/-- Both runs retired alike. -/
def sameRuns (level : Nat) : List RunEnd → Bool
  | [.retired d c _, .retired e f _] => d == e && (level != 2 || c == f)
  | _ => false
/-- Both runs met the error at one syllable and address. -/
def sameTraps : List RunEnd → Bool
  | [.trapped b n a _, .trapped b' n' a' _] => b == b' && n == n' && a == a'
  | _ => false

/-- A run from the snapshot, at the kernel's own level and on the same placement. -/
def State.startRun (s : State) (r : Rerun) : State :=
  let k := r.kernel
  let t := match (s.queue k.part k.queue).snap with | some l => s.restoreSnap k.part l | none => s
  t.place { k with id := t.serial + 1, ctxs := [], left := [], cyc := 0, rerun := r.ends.length + 1 } k.ctxs

/-- The rows by which two runs are compared. -/
def State.compareRuns (s : State) (r : Rerun) : State :=
  let k := r.kernel
  if sameRuns k.level r.ends then
    let (cyc, nr) := match r.ends with | [_, .retired _ c n] => (c, n) | _ => (0, false)
    ((s.dropRerun k.part k.queue).notify evSoft k.part r.core (s.headTag k.part k.queue) []).endLaunch
      { k with cyc, nr }
  else if sameTraps r.ends then
    let (a, loc) := match r.ends with | .trapped _ _ a l :: _ => (a, l) | _ => (0, 0)
    (s.dropRerun k.part k.queue).haltData k 2 a loc
  else s.giveUpRerun r

def State.doCompare (s : State) (p : Nat) : State :=
  match s.nextRerun p with
  | none => s
  | some r => if r.ends.length < 2 then s.startRun r else s.compareRuns r

def execRerunCompare (p : Nat) (s : State) := event (s.nextRerun p).isSome (s.doCompare p)

/-! ### QCTL (19 R261) -/

/-- ACT 1: the head packet of a halted queue is as if it had just reached the head. -/
def State.queueResume (s : State) (p q : Nat) : State :=
  if (s.queue p q).halt.isNone || (s.part p).dead then s
  else s.updQueue p q fun x => { x with halt := none, head := .idle, watch := 0, acted := 0 }

def execQctlResume (b : Commander) (q : Nat) (s : State) := event (s.supervised b) ((s.hearFrom b).queueResume b.part q)

/-- ACT 2. -/
def State.queueDiscard (s : State) (p q : Nat) : State :=
  if (s.queue p q).halt.isNone || (s.part p).dead then s
  else ((s.dropRerun p q).updQueue p q fun x => { x with halt := none }).finish p q

def execQctlDiscardHead (b : Commander) (q : Nat) (s : State) := event (s.supervised b) ((s.hearFrom b).queueDiscard b.part q)

/-- ACT 3: every packet of a queue whose head is not a running kernel; a COPY that runs stops at its next chunk. -/
def State.queueClear (s : State) (p q : Nat) : State :=
  if (s.headKernel p q).isSome then s
  else ({ s with engines := s.engines.filter fun e => e.copy != some (p, q) }.dropRerun p q).updQueue p q fun x =>
    { x with packets := [], head := .idle, watch := 0, acted := 0, digest := none }

def execQctlDiscardAll (b : Commander) (q : Nat) (s : State) := event (s.supervised b) ((s.hearFrom b).queueClear b.part q)

end Sys2Proof.Machine
end

