-- ==== Sys2Proof/Machine/Owner.lean ====
section
/-! DEFINITION. Packets that arrive (19 R257), the RESYNC summary (19 R262) and ownership (19 R259, R260). While the security
alarm stands every port drops its traffic (19 R264), so none of them is taken. -/
namespace Sys2Proof.Machine

/-! ### RESYNC (R262) -/

/-- Code of a queue's state in the summary (log entry 15). -/
def Queue.stateCode (q : Queue) : Nat :=
  match q.halt with
  | some .launchError => 2 | some .copyError => 3 | some .packetError => 4 | some .killed => 5 | some .dataError => 6
  | some .fault => 7 | some .dumpEngine => 8
  | none => if q.packets.isEmpty then 0 else 1

/-- The role of a partition (01 R17): 1 learner, 2 rollout, 0 neither. -/
def State.role (s : State) (p : Nat) : Nat :=
  let l := (List.range 8).filterMap s.region
  if l.any fun g => g.lpart == p then 1 else if l.any fun g => bitAt g.rmask p then 2 else 0

/-- Whether a core is in the retired-core mask. -/
def State.coreRetired (s : State) (k : Nat) : Bool := (s.core k).retired || (s.cluster (clusterOf k)).retired

/-- The retired-core mask. -/
def State.retiredMask (s : State) : List Nat :=
  (List.range 8).map fun w => (List.range 64).foldl (fun a b => if s.coreRetired (64 * w + b) then a + 2 ^ b else a) 0

/-- A digest as four dwords. -/
def digestWords (b : List Byte) : List Nat := (List.range 4).map fun n => ofBytes (((shake256 b).drop (8 * n)).take 8)

/-- Kind and number of a live-service operation. -/
def Service.code : Service → Nat
  | .firmware p _ => 2 ^ 32 + p
  | .vault v => 2 * 2 ^ 32 + v
  | .port n => 3 * 2 ^ 32 + n

/-- What a summary says of a partition. -/
def State.partSummary (s : State) (p : Nat) : List Nat :=
  let x := s.part p
  [(if x.on then 1 else 0) + x.x * 2 ^ 8 + x.y * 2 ^ 16 + x.w * 2 ^ 24 + x.h * 2 ^ 32, s.role p]
    ++ ((List.range 16).flatMap fun q =>
      let y := s.queue p q
      [y.level + y.stateCode * 2 ^ 8, match y.packets with | k :: _ => pkTag k.pk | [] => 0])
    ++ ((List.range 256).map fun n => (Tab.get 0 x.counters n).toNat) ++ (List.range 64).map fun n => Tab.get 0 x.arrivals n

/-- The summary: what R262 lists, in its order, with a layout of the model's own (log entry 15). -/
def State.summary (s : State) : List Nat :=
  let left := s.owner.lease + s.owner.heard - s.cycle
  [s.owner.epoch, match s.owner.id with | some o => 2 ^ 63 + o | none => 0, if s.owner.id.isSome then left else 0]
    ++ (Config.firmwareVersion s.fwImage :: digestWords s.fwImage)
    ++ ((List.range 8).flatMap fun p => Config.firmwareVersion (s.part p).fwImage :: digestWords (s.part p).fwImage)
    ++ [match s.alarm with | some a => a + 1 | none => 0] ++ s.retiredMask
    ++ (s.services.length :: s.services.map Service.code)
    ++ (List.range 8).flatMap s.partSummary

/-- The summary goes to SRC; an attested one carries the nonce and a signature over all of it, which a zeroised identity
key cannot make (R264). -/
def State.doResync (s : State) (k : Packet) : State :=
  let s := s.heard k
  let w := s.summary.map (BitVec.ofNat 64)
  let d0 := eventD0 evResync 0 0 (pkTag k)
  if bitAt (pkWord k 0) 0 && !s.keysGone then
    let all := w ++ k.body.tail
    s.sendTo (pkSrc k) d0 (all ++ Config.attest (d0 :: all))
  else s.sendTo (pkSrc k) d0 w

/-- A well-formed RESYNC while the ports work. -/
def State.canResync (s : State) (k : Packet) : Bool := s.alarm.isNone && !malformed k && pkType k == tyResync

def execResync (pk : Packet) (s : State) := event (s.canResync pk) (s.doResync pk)

/-! ### Ownership (R259, R260) -/

/-- OP, TO and EPOCH. -/
def ownOp (k : Packet) : Nat := bits (pkWord k 0) 63 62
def ownTo (k : Packet) : Nat := bits (pkWord k 0) 41 32
def ownEpoch (k : Packet) : Nat := bits (pkWord k 0) 31 0

/-- R259: whether the signature verifies; zeroised keys verify nothing (R264). -/
def State.signed (s : State) (k : Packet) : Bool :=
  !s.keysGone && Config.ownerSignature (k.body.headD 0) (pkSrc k) k.body.tail

/-- A well-formed OWNER packet with an OP while the ports work. -/
def State.canOwn (s : State) (k : Packet) (op : Nat) : Bool :=
  s.alarm.isNone && !malformed k && pkType k == tyOwner && ownOp k == op

/-- The first three rows of R260 for a claim. -/
def State.doClaim (s : State) (k : Packet) : State :=
  let s := s.heard k
  if !s.signed k then s.refuse k rfBadSig
  else if s.owner.id.isSome then s.refuse k rfOwned
  else if s.owner.epoch < ownEpoch k then
    { s with owner := { s.owner with
        claims := s.owner.claims ++ [{ src := pkSrc k, epoch := ownEpoch k, tag := pkTag k }]
        closes := some (s.owner.closes.getD (s.cycle + Config.electionCycles)) } }
  else s.refuse k rfNotOwner

def execOwnerClaim (pk : Packet) (s : State) := event (s.canOwn pk 0) (s.doClaim pk)

/-- A request that only the owner may make. -/
def State.ownerOnly (s : State) (k : Packet) (f : State → State) : State :=
  let s := s.heard k
  if !s.signed k then s.refuse k rfBadSig
  else if s.owner.id = some (pkSrc k) then (f s).tellOwner (pkSrc k) (pkTag k)
  else s.refuse k rfNotOwner

/-- The successor is told as well. -/
def State.doHandover (s : State) (k : Packet) : State :=
  s.ownerOnly k fun t => (t.becomeOwner (ownTo k)).tellOwner (ownTo k) (pkTag k)

def execOwnerHandover (pk : Packet) (s : State) := event (s.canOwn pk 1) (s.doHandover pk)

/-- Any message of the owner lets its lease go on, a renewal too. -/
def State.doRenew (s : State) (k : Packet) : State := s.ownerOnly k State.hear

def execOwnerRenew (pk : Packet) (s : State) := event (s.canOwn pk 2) (s.doRenew pk)

def State.doRelinquish (s : State) (k : Packet) : State := s.ownerOnly k State.lapse

def execOwnerRelease (pk : Packet) (s : State) := event (s.canOwn pk 3) (s.doRelinquish pk)

def execElectionClose (s : State) := event s.electionOver s.closeElection

def execLeaseExpiry (s : State) := event s.leaseOver s.lapse

/-! ### PACKET_ARRIVAL (R257) -/

/-- The first matching row, for every type. -/
def State.receive (s : State) (k : Packet) : State :=
  if malformed k then (s.heard k).refuse k rfMalformed
  else if pkType k = tyResync then s.doResync k
  else if pkType k = tyOwner then
    match ownOp k with
    | 0 => s.doClaim k
    | 1 => s.doHandover k
    | 2 => s.doRenew k
    | _ => s.doRelinquish k
  else (s.heard k).queuePacket k

def execPacketArrival (pk : Packet) (s : State) := event s.alarm.isNone (s.receive pk)

end Sys2Proof.Machine
end

