-- ==== Sys2Proof/Machine/Debug.lean ====
section
/-! DEFINITION. Breakpoint registers (18 R239), invariant monitors (18 R244 to R246) and the tails of the rings that the owner
advances (18 R250, R253). -/
namespace Sys2Proof.Machine

/-! ### BRKA_WRITE (R239) -/

/-- EN, MASK and BADDR. -/
def brkaMask (v : Word64) : Word64 := v &&& 0x8FFFFFFFFFFFFFF0

/-- A write to a stopped context waits for its resumption; another takes effect at once, which is a bundle boundary. -/
def Ctx.writeBrka (x : Ctx) (n : Nat) (v : Word64) : Ctx :=
  if x.run = .stopped || x.run = .stopping then { x with brkaNew := x.brkaNew ++ [(n, brkaMask v)] }
  else { x with brka := Tab.set 0 x.brka n (brkaMask v) }

def State.canBrka (s : State) (c n : Nat) : Bool :=
  s.ownerReaches && n < 4 && (s.cluster (clusterOf (coreOf c))).part.isSome

def execBrkaWrite (c n : Nat) (v : Word64) (s : State) :=
  event (s.canBrka c n) (s.hear.updCtx c fun x => x.writeBrka n v)

/-! ### Monitors (R244, R245) -/

def Monitor.en (m : Monitor) : Bool := bitAt m.d0.toNat 63
def Monitor.rel (m : Monitor) : Nat := bits m.d0.toNat 62 60
def Monitor.act (m : Monitor) : Nat := bits m.d0.toNat 59 57
def Monitor.bq (m : Monitor) : Bool := bitAt m.d0.toNat 56
def Monitor.akind (m : Monitor) : Nat := bits m.d0.toNat 55 52
def Monitor.aidx (m : Monitor) : Nat := bits m.d0.toNat 51 40
def Monitor.bkind (m : Monitor) : Nat := bits m.d0.toNat 39 36
def Monitor.bidx (m : Monitor) : Nat := bits m.d0.toNat 35 24
def Monitor.fails (m : Monitor) : Nat := bits m.d0.toNat 15 0

/-- Whether a core lies in a partition. -/
def State.coreIn (s : State) (p core : Nat) : Bool := core < Config.cores && (s.cluster (clusterOf core)).part == some p

/-- Whether a quantity and its index are ones that a monitor of the partition may watch. -/
def State.watchable (s : State) (p kind idx : Nat) : Bool :=
  match kind with
  | 0 => s.coreIn p (idx / 8)
  | 1 | 4 | 5 => s.coreIn p idx
  | 2 => idx < 16
  | 3 => idx = 32 || (idx < 32 && (s.cluster idx).part == some p)
  | 6 => idx < 256
  | 7 => idx < 64
  | 8 => idx = 0
  | _ => false

/-- What a written monitor holds: reserved bits clear, FAILS kept, and EN clear for a value that is not allowed. -/
def State.newMonitor (s : State) (p : Nat) (old : Monitor) (d0 d1 : Word64) : Monitor :=
  let m : Monitor := { d0 := d0 &&& 0xFFFFFFFFFF000000 ||| BitVec.ofNat 64 old.fails, d1 }
  if m.rel < 6 && m.act < 6 && s.watchable p m.akind m.aidx && (!m.bq || s.watchable p m.bkind m.bidx) then m
  else { m with d0 := m.d0 &&& 0x7FFFFFFFFFFFFFFF }

/-- GATE (R246): open while any filter monitor fails, and without one. -/
def Part.gateNow (x : Part) : Bool :=
  let l := (x.mons.map Prod.snd).filter fun m => m.en && m.act == 3
  l.isEmpty || l.any fun m => m.failing

def execMonitorWrite (p n : Nat) (d0 d1 : Word64) (s : State) :=
  event (s.ownerReaches && (s.part p).on && n < 16) (s.hear.updPart p fun x =>
    { x with mons := Tab.upd {} x.mons n fun m => s.newMonitor p m d0 d1 })

/-- The value of a quantity. -/
def State.quantity (s : State) (p kind idx : Nat) : Nat :=
  match kind with
  | 0 =>
    let n := idx % 4
    let w := Tab.get {} (s.ctx (idx / 4)).ports n
    if w.armed then w.left n else 0
  | 1 => (s.core idx).tiles.foldl (fun a t => a + (t.rows.length - t.popped)) 0
  | 2 => Config.linkCredit idx s.cycle
  | 3 => if idx = 32 then (s.part p).line.arrived.length else (s.cluster idx).line.arrived.length
  | 4 => s.tagWrites.countP fun w => w.held.isSome && s.vaultOf (256 * w.line) == some idx
  | 5 => (s.core idx).ringFill
  | 6 => (Tab.get 0 (s.part p).counters idx).toNat
  | 7 => Tab.get 0 (s.part p).arrivals idx
  | _ => s.cycle - (s.part p).since

/-- Whether the relation of a monitor holds. -/
def State.holds (s : State) (p : Nat) (m : Monitor) : Bool :=
  let a := s.quantity p m.akind m.aidx
  let b := if m.bq then s.quantity p m.bkind m.bidx else m.d1.toNat
  match m.rel with
  | 0 => a == b
  | 1 => a != b
  | 2 => a < b
  | 3 => a ≤ b
  | 4 => b < a
  | _ => b ≤ a

/-- R246: the sample of a cycle. -/
def State.sample (s : State) (p : Nat) : State :=
  if (s.part p).mons.isEmpty then s else
  s.updPart p fun x => { x with mons := x.mons.map fun (n, m) =>
    (n, { m with turned := m.en && m.failing == s.holds p m }) }

/-! ### MONITOR_FAILURE and MONITOR_RELATION_HOLDS (R246) -/

/-- A monitor whose sample differs from what it was; those of one cycle act in increasing number. -/
def State.monTurned (s : State) (p n : Nat) (failing : Bool) : Bool :=
  let m := Tab.get {} (s.part p).mons n
  (s.part p).on && m.en && m.turned && m.failing == failing && !((s.part p).mons.any fun a => a.1 < n && a.2.en && a.2.turned)

/-- Whether a monitor has still to act on the sample of this cycle. -/
def Part.monsPending (x : Part) : Bool := x.on && x.mons.any fun a => a.2.en && a.2.turned

/-- Whether a debug monitor stops a context. -/
def Ctx.haltable (x : Ctx) (p : Nat) : Bool :=
  x.part == p && (x.alive || (match x.run with | .between _ => true | _ => false))

/-- Entering failure: FAILS counts and the action is applied, to DVCTL from the next cycle on. -/
def State.failMonitor (s : State) (p n : Nat) : State :=
  let m := Tab.get {} (s.part p).mons n
  let d0 := if m.fails = 65535 then m.d0 else m.d0 + 1
  let t := s.updPart p fun x =>
    { x with
      mons := Tab.set {} x.mons n { m with d0, failing := true, turned := false }
      ringActs := if m.act = 1 || m.act = 2 || m.act = 4 then x.ringActs ++ [m.act] else x.ringActs }
  if m.act = 5 then
    ((t.ctxs.filter fun x => x.2.haltable p).foldl (fun u x => u.updCtx x.1 fun y => { y with halt := true }) t).notify
      evDebug p 0 0 [BitVec.ofNat 64 n]
  else t

def execMonitorFailure (p n : Nat) (s : State) := event (s.monTurned p n false) (s.failMonitor p n)

def execMonitorRelationHolds (p n : Nat) (s : State) :=
  event (s.monTurned p n true) (s.updPart p fun x =>
    { x with mons := Tab.upd {} x.mons n fun m => { m with failing := false, turned := false } })

/-- The actions of a cycle on DVCTL, in their order, and the gate that the records of the next cycle meet. -/
def State.applyActs (s : State) (p : Nat) : State :=
  let x := s.part p
  let t := if x.ringActs.isEmpty then s else
    (coresOf x.clusters).foldl (fun t k => t.updCore k fun y =>
      x.ringActs.foldl (fun z a => if a = 1 then { z with dvEn := true } else if a = 2 then { z with dvEn := false }
        else { z with dvFrz := true }) y) s
  if x.ringActs.isEmpty && x.gate == x.gateNow then t
  else t.updPart p fun y => { y with ringActs := [], gate := y.gateNow }

/-! ### RING_TAIL_ADVANCE (R250, R253) -/

/-- DMPTAIL or LOGTAIL is written; a queue that waits for log room goes on. -/
def State.advanceTail (s : State) (p : Nat) (log : Bool) (v : Word64) : State :=
  let off := v.toNat % 2 ^ 32 / 16 * 16
  if log then (s.updPart p fun x => { x with logTail := off }).settleLog p
  else s.updPart p fun x => { x with dmpTail := off }

def execRingTailAdvance (p : Nat) (log : Bool) (v : Word64) (s : State) :=
  event (s.ownerReaches && (s.part p).on) (s.hear.advanceTail p log v)

end Sys2Proof.Machine
end

