-- ==== Sys2Proof/Machine/Service.lean ====
section
/-! DEFINITION. The control blocks' plain registers (19 R261), live service (19 R265), the alarm (19 R264), device reset (19
R266), the power limit (19 R267) and the accesses of other devices (09 R146). The numbers of the registers are the model's
own (log entry 19): the spec names the registers and gives them no addresses. -/
namespace Sys2Proof.Machine

/-! ### REGISTER_WRITE (R261) -/

/-- Bits `hi` to `lo` of a written value, in place. -/
def fieldOf (v : Word64) (hi lo : Nat) : Nat := bits v.toNat hi lo * 2 ^ lo

/-- A dword of a partition control block: PTROOT, FRBASE, SVBASE, FATAL, DMPBASE, DMPSHIFT, LOGBASE, LOGLEN, the replay
of R251 with the SEQ that it begins with, LOGHEAD for a log that comes from elsewhere, and the watchdog limits of queue `(reg - 16) / 3`; reserved bits are not written (R6). -/
def Part.writeReg (x : Part) (reg : Nat) (v : Word64) : Part :=
  match reg with
  | 0 => { x with ptroot := BitVec.ofNat 64 (fieldOf v 38 13) }
  | 1 => { x with frbase := BitVec.ofNat 64 (fieldOf v 38 16) }
  | 2 => { x with svbase := BitVec.ofNat 64 (fieldOf v 38 0) }
  | 3 => { x with fatal := BitVec.ofNat 64 (fieldOf v 9 0) }
  | 4 => { x with dmpBase := BitVec.ofNat 64 (fieldOf v 38 12 + fieldOf v 3 0) }
  | 5 => { x with dmpShift := v.toNat }
  | 6 => { x with logBase := BitVec.ofNat 64 (fieldOf v 38 12) }
  | 7 => { x with logLen := fieldOf v 31 12 }
  | 8 => { x with replay := if bitAt v.toNat 0 then some (v.toNat / 2) else none, replayAt := [] }
  | 10 => { x with logHead := fieldOf v 31 4 }
  | _ => { x with queues := Tab.upd {} x.queues ((reg - 16) / 3) fun q =>
      match (reg - 16) % 3 with
      | 0 => { q with lim1 := v.toNat }
      | 1 => { q with lim2 := v.toNat }
      | _ => { q with lim3 := v.toNat } }

/-- DVBASE, DVTAIL and DVCTL of a core; GATE is read-only (18 R243). -/
def CoreSt.writeReg (k : CoreSt) (reg : Nat) (v : Word64) : CoreSt :=
  match reg with
  | 0 => { k with dvBase := BitVec.ofNat 64 (fieldOf v 38 12 + fieldOf v 3 0) }
  | 1 => { k with dvTail := fieldOf v 31 4 }
  | _ => { k with dvEn := bitAt v.toNat 0, dvFrz := bitAt v.toNat 1 }

/-- A dword of the device control block: LEASE, VRTBASE, ALARMCFG, the routes by device and which of them are flash shelves. -/
def State.writeDevice (s : State) (reg : Nat) (v : Word64) : State :=
  match reg with
  | 0 => { s with owner := { s.owner with lease := v.toNat } }
  | 1 => { s with vrtbase := BitVec.ofNat 64 (fieldOf v 38 0) }
  | 2 => { s with alarmCfg := BitVec.ofNat 64 (fieldOf v 0 0) }
  | _ =>
    if reg < 2048 then { s with routes := Tab.set 0 s.routes (reg - 1024) v.toNat }
    else
      let rest := s.shelves.filter fun d => d != reg - 2048
      { s with shelves := if bitAt v.toNat 0 then (reg - 2048) :: rest else rest }

/-- Whether a register stands at a number: blocks 0 to 7 are those of the partitions, block 8 is the device's. -/
def State.hasReg (s : State) (block reg : Nat) : Bool :=
  if block < 8 then
    (s.part block).on && (reg < 9 || (reg = 10 && !(s.part block).logOn) || (16 ≤ reg && reg < 64)
      || (1024 ≤ reg && reg % 4 < 3 && s.coreIn block ((reg - 1024) / 4)))
  else block = 8 && (reg < 3 || (1024 ≤ reg && reg < 3072))

def State.doRegister (s : State) (block reg : Nat) (v : Word64) : State :=
  if block = 8 then s.writeDevice reg v
  else if reg < 1024 then s.updPart block fun x => x.writeReg reg v
  else s.updCore ((reg - 1024) / 4) fun k => k.writeReg (reg % 4) v

/-- Whether a register that is read has a number: those that are written, and those that only steps change (R261, 18 R239, R243, R244;
09 R163; log entry 19). -/
def State.readable (s : State) (block reg : Nat) : Bool :=
  s.hasReg block reg || (if block < 8 then
      (s.part block).on && ((9 ≤ reg && reg < 14) || (64 ≤ reg && reg < 96)
        || (1024 ≤ reg && reg < 4096 && s.coreIn block ((reg - 1024) / 4))
        || (4096 ≤ reg && s.coreIn block (coreOf ((reg - 4096) / 4))))
    else block = 8 && ((3 ≤ reg && reg < 5) || (8 ≤ reg && reg < 16) || (3072 ≤ reg && reg < 3584)))

/-- What a partition's register reads as; REPLAY reads as whether a replay runs (log entry 19). -/
def Part.readReg (x : Part) (reg : Nat) : Word64 :=
  match reg with
  | 0 => x.ptroot
  | 1 => x.frbase
  | 2 => x.svbase
  | 3 => x.fatal
  | 4 => x.dmpBase
  | 5 => BitVec.ofNat 64 x.dmpShift
  | 6 => x.logBase
  | 7 => BitVec.ofNat 64 x.logLen
  | 8 => if x.replay.isSome then 1 else 0
  | 9 => if x.busy then 1 else 0
  | 10 => BitVec.ofNat 64 x.logHead
  | 11 => BitVec.ofNat 64 x.logTail
  | 12 => BitVec.ofNat 64 x.dmpHead
  | 13 => BitVec.ofNat 64 x.dmpTail
  | _ =>
    if 64 ≤ reg then
      let m := Tab.get {} x.mons ((reg - 64) / 2)
      if reg % 2 = 0 then m.d0 else m.d1
    else
    let q := Tab.get {} x.queues ((reg - 16) / 3)
    BitVec.ofNat 64 (match (reg - 16) % 3 with
      | 0 => q.lim1
      | 1 => q.lim2
      | _ => q.lim3)

/-- What a core's debug register reads as; DVCTL holds EN, FRZ and, read-only, GATE (18 R243). -/
def CoreSt.readReg (k : CoreSt) (gate : Bool) (reg : Nat) : Word64 :=
  match reg with
  | 0 => k.dvBase
  | 1 => BitVec.ofNat 64 k.dvTail
  | 3 => BitVec.ofNat 64 k.dvHead
  | _ => BitVec.ofNat 64 (k.dvEn.toNat + 2 * k.dvFrz.toNat + 4 * gate.toNat)

/-- What a register of the device control block reads as. -/
def State.readDevice (s : State) (reg : Nat) : Word64 :=
  match reg with
  | 0 => BitVec.ofNat 64 s.owner.lease
  | 1 => s.vrtbase
  | 2 => s.alarmCfg
  | 3 => match s.owner.id with | some o => BitVec.ofNat 64 (2 ^ 63 + o) | none => 0
  | 4 => BitVec.ofNat 64 s.owner.epoch
  | _ =>
    if reg < 16 then BitVec.ofNat 64 (s.retiredMask.getD (reg - 8) 0)
    else if 3072 ≤ reg then Tab.get 0 s.vlend (reg - 3072)
    else if reg < 2048 then BitVec.ofNat 64 (Tab.get 0 s.routes (reg - 1024))
    else if s.shelves.contains (reg - 2048) then 1 else 0

/-- R260: the value that any participant reads of a register of either control block. -/
def State.readRegister (s : State) (block reg : Nat) : Option Word64 :=
  if !s.readable block reg then none
  else if block = 8 then some (s.readDevice reg)
  else if reg < 1024 then some ((s.part block).readReg reg)
  else if 4096 ≤ reg then some (Tab.get 0 (s.ctx ((reg - 4096) / 4)).brka (reg % 4))
  else some ((s.core ((reg - 1024) / 4)).readReg (s.part block).gate (reg % 4))

/-- A read of a register by participant `src` while the ports work: the answer goes back, and a read by the owner lets its lease go on. -/
def State.sendRegister (s : State) (src block reg : Nat) : Host.Outcome State Fault Refusal :=
  let t := s.hearSrc src
  match (t.readRegister block reg).filter fun _ => s.alarm.isNone with
  | none => .fault .notEnabled
  | some v =>
    .next { t with replies := t.replies ++ [{ dest := src, bytes := bytesOf 8 v.toNat }] }

def execRegisterWrite (block reg : Nat) (v : Word64) (s : State) :=
  event (s.ownerReaches && s.hasReg block reg) (s.hear.doRegister block reg v)

/-! ### Live service (R265) -/

/-- Operations of one kind: one at a time. -/
def Service.kind : Service → Nat
  | .firmware .. => 0 | .vault .. => 1 | .port .. => 2

/-- What an operation does when it starts: a partition begins to drain. -/
def State.startService (s : State) (o : Service) : State :=
  let t := { s with services := s.services ++ [o] }
  match o with
  | .firmware p _ => t.updPart p fun x => { x with draining := true }
  | _ => t

/-- A request starts, or waits for the operation of its kind that is in progress. -/
def State.askService (s : State) (o : Service) : State :=
  if s.services.any fun q => q.kind == o.kind then { s with queuedServices := s.queuedServices ++ [o] }
  else s.startService o

def execPartitionFirmwareUpdate (p : Nat) (image : List Byte) (s : State) :=
  event (s.ownerReaches && (s.part p).on) (s.hear.askService (.firmware p image))
def execVaultRetraining (vault : Nat) (s : State) :=
  event (s.ownerReaches && vault < Config.cores) (s.hear.askService (.vault vault))
def execFabricPortRetraining (port : Nat) (s : State) :=
  event (s.ownerReaches && port < 16) (s.hear.askService (.port port))

/-- An operation may finish; a firmware update once its partition has drained. -/
def State.canEndService (s : State) (n : Nat) : Bool :=
  match s.services[n]? with
  | some (.firmware p _) => !s.unretired p none
  | some _ => true
  | none => false

/-- What an operation does when it ends: a verified image is loaded; else the old firmware stays, and the owner hears. -/
def State.endService (s : State) (o : Service) : State :=
  match o with
  | .firmware p image =>
    let t := s.updPart p fun x => { x with draining := false }
    if Config.firmwareSignature image then t.updPart p fun x => { x with fwImage := image } else t.healthEvent p 0 0
  | _ => s

/-- The next request of the kind starts. -/
def State.nextService (s : State) (kind : Nat) : State :=
  match s.queuedServices.findIdx? fun q => q.kind == kind with
  | none => s
  | some n => match s.queuedServices[n]? with
    | none => s
    | some o => { s with queuedServices := s.queuedServices.eraseIdx n }.startService o

def State.completeService (s : State) (n : Nat) : State :=
  match s.services[n]? with
  | none => s
  | some o => ({ s with services := s.services.eraseIdx n }.endService o).nextService o.kind

def execLiveServiceOperationComplete (n : Nat) (s : State) := event (s.canEndService n) (s.completeService n)

/-- A partition that is empty, with no kernel and no queued packet; one that its dump engine's fault has stopped (18
R253) is restarted in any case. -/
def State.partEmpty (s : State) (p : Nat) : Bool :=
  !(s.kernels.any fun k => k.part == p) && (List.range 16).all fun q => (s.queue p q).packets.isEmpty

/-- The clusters of a rectangle at a place of the mesh. -/
def rectangle (x y w h : Nat) : List Nat := (List.range h).flatMap fun j => (List.range w).map fun i => 4 * (y + j) + x + i

/-- Whether a rectangle may become partition `p` (01 R17; 03 R50): inside the mesh, apart from the other partitions, and
without a retired core. An empty rectangle takes the partition away. DESIGN CHOICE (log entry 71): the PBASE is not checked
against the other partitions' and the lent vaults' ranges, nor against the end of the 39-bit space (09 R153). -/
def State.mayConfigure (s : State) (p x y w h : Nat) : Bool :=
  p < 8 && (s.partEmpty p || (s.part p).dead) && x + w ≤ 4 && y + h ≤ 8
    && (rectangle x y w h).all fun k =>
      ((s.cluster k).part.isNone || (s.cluster k).part == some p) && !(s.cluster k).retired
        && (coresOf [k]).all fun c => !(s.core c).retired

/-- What a dead partition still ran is killed, and its COPY commands are abandoned. The clusters of the old rectangle belong to no
partition, those of the new one to it, without what their TLBs and dictionary slots held; a cluster in a partition has no lent vault
(09 R154). DESIGN CHOICE (log entry 75): DRAM keeps its bytes by device physical address. -/
def State.configure (s : State) (p x y w h pbase : Nat) : State :=
  let new := rectangle x y w h
  let s := (s.kernels.filter fun k => k.part == p).foldl State.killKernel s
  let copies := s.engines.filter fun e => e.copy.any fun c => c.1 == p
  let s := { s with
    engines := s.engines.filter fun e => !copies.contains e
    walksWaiting := s.walksWaiting.filter fun (w : Walk) => !copies.any fun e => w.who == Asker.engine e.id }
  let t := ((s.part p).clusters.filter fun _ => (s.part p).on).foldl (fun t k => t.updCluster k fun c => { c with part := none }) s
  let t := new.foldl (fun t k => t.updCluster k fun c => { c with part := some p, tlb := [], dict := [], line := {} }) t
  let t := (coresOf new).foldl (fun t c => t.updCore c fun k => { k with tlb := [] }) t
  let t := { t with vlend := t.vlend.filter fun v => !new.contains (clusterOf v.1) }
  t.setPart p (if new.isEmpty then {} else { on := true, x, y, w, h, pbase, since := s.cycle })

def execPartitionReconfiguration (p x y w h pbase : Nat) (s : State) :=
  event s.ownerReaches (if s.mayConfigure p x y w h then s.hear.configure p x y w h pbase else s.hear)

/-- Only a cluster that belongs to no partition is retired. -/
def execClusterRetirement (k : Nat) (s : State) :=
  event (s.ownerReaches && k < Config.clusters)
    (if (s.cluster k).part.isSome then s.hear else s.hear.updCluster k fun c => { c with retired := true })

/-! ### The alarm (R264) -/

/-- One alarm event to each attached host, and nothing after it. -/
def State.raiseAlarm (s : State) (cause : Nat) : State :=
  let t := s.sendTo 1024 (eventD0 evAlarm 0 0 0) [BitVec.ofNat 64 cause]
  { t with
    alarm := some cause
    keysGone := s.keysGone || bitAt s.alarmCfg.toNat 0
    ctxs := s.ctxs.map fun (c, x) => (c, match x.run with | .free => x | _ => { x with run := .stopped, preempt := false }) }

/-- The four causes: the tamper mesh, the supply voltage, a clock, a junction temperature. -/
def execSecurityAlarm (cause : Nat) (s : State) := event (s.alarm.isNone && cause < 4) (s.raiseAlarm cause)

/-! ### DEVICE_RESET (R266) -/

/-- The cores that fail their test. -/
def failedCores : Tab CoreSt :=
  (List.range Config.cores).foldl (fun t k => if Config.coreTest k then t else Tab.set {} t k { retired := true }) []

/-- Everything starts afresh but what lies outside the reset: the clock, the fabric id, the firmware's store, zeroised
keys, other devices' memory, and the messages already sent. The boot ROM loads the firmware only when it verifies (R263, R266). -/
def State.restart (s : State) : State :=
  { State.reset with
    cycle := s.cycle, devId := s.devId, fwImage := if Config.firmwareSignature s.fwImage then s.fwImage else [], keysGone := s.keysGone, remote := s.remote
    sent := s.sent ++ State.reset.sent, replies := s.replies, cores := failedCores, fresh := s.fresh }

def execDeviceReset (s : State) := event true s.restart

/-! ### The power limit (R267) -/

def execPowerLimit (s : State) := event (!s.powerHigh) { s with powerHigh := true }
def execPowerBelowLimit (s : State) := event s.powerHigh { s with powerHigh := false }

/-! ### FABRIC_GLOBAL_ACCESS (09 R146, R165; 10 R169, R172) -/

/-- The kind of an access, and whether it asks for R and W. -/
def FabricOp.asks : FabricOp → AKind × Bool
  | .load => (.read, false) | .store | .tagged _ | .reduce .. => (.write, false) | .atomic .load _ => (.read, true) | _ => (.write, true)

/-- Where the access leads in partition PART, or why it is refused. -/
def State.fabricAim (s : State) (r : FabricReq) : Except Raised Reach :=
  let kind := (FabricOp.asks r.op).1
  match s.aim r.part r.ver kind (r.va % 2 ^ 48) with
  | .trap cause cond => .error { cause, cond }
  | .remote => .error { cause := .translation, cond := 5 }
  | .page key _ => match s.walk key.part key.region key.va with
    | .error cond => .error (walkTrap cond r.va)
    | .ok e => e.grant key kind (FabricOp.asks r.op).2 true r.va

/-- Bytes that an access reads or writes. -/
def fabricSize (r : FabricReq) : Nat :=
  match r.op with
  | .load => r.len
  | .store => r.bytes.length
  | .atomic _ true | .cas true => 4
  | _ => 8

/-- The access at its home, under system scope: the bytes that the answer carries. -/
def State.fabricServe (s : State) (r : FabricReq) (loc : Nat) : List Byte × State :=
  let a := loc % 2 ^ 64
  let n := fabricSize r
  let run := fun (op : Option AtomOp) =>
    let (old, t) := s.atomicRun
      { inst := .system, loc, size := n, op, arg := ofBytes (r.bytes.take n), swap := ofBytes ((r.bytes.drop n).take n) }
    (bytesOf n old, t)
  match r.op with
  | .load => ((List.range n).map fun i => s.homeByte (a + i), s)
  | .store | .tagged _ | .reduce .. => ([], s.deviceCommit .system (cellsAt a r.bytes))
  | .atomic op _ => run (some op)
  | .cas _ => run none

/-- The tagged write of another device enters this device's network (10 R175). -/
def State.fabricTag (s : State) (r : FabricReq) (loc tag : Nat) (act : TagAct) : State :=
  let w : TagWrite := { line := loc % 2 ^ 64 / 256, tag := tag % 2 ^ 16, act, part := r.part, due := s.cycle, peer := some r.src }
  { s with tagWrites := s.tagWrites ++ [w] }

/-- The elements of an EREDUCE's line, each with its location. -/
def reduceElems (fmt a : Nat) (b : List Byte) : List (Nat × Nat) :=
  let z := if fmt = 1 then 2 else 4
  (List.range (b.length / z)).map fun i => (a + i * z, ofBytes ((b.drop (i * z)).take z))

/-- The error that an access that reads would meet. -/
def State.fabricError (s : State) (r : FabricReq) (loc : Nat) : Option Nat :=
  match r.op with
  | .store | .tagged _ | .reduce .. => none
  | .load => (List.range r.len).findSome? fun i => s.memoryError Config.clusters (loc + i)
  | .atomic .. | .cas _ => (List.range (fabricSize r)).findSome? fun i => s.vaultError (loc + i)

/-- Served or refused; the answer goes back to the sender, for a tagged write once its vault has accepted or performed it. -/
def State.fabricAccess (s : State) (r : FabricReq) : State :=
  let answer := fun (t : State) (refused : Option (Cause × Nat)) (bytes : List Byte) =>
    { t with replies := t.replies ++ [{ dest := r.src, refused, bytes }] }
  match s.fabricAim r with
  | .error q => answer s (some (q.cause, q.cond)) []
  | .ok k => match s.fabricError r k.loc with
    | some d => answer s (some (.dataError, d)) []
    | none => match r.op with
      | .tagged tag => s.fabricTag r k.loc tag (.bytes (cellsAt (k.loc % 2 ^ 64) r.bytes))
      | .reduce rop fmt tag => s.fabricTag r k.loc tag (.reduce rop fmt (reduceElems fmt (k.loc % 2 ^ 64) r.bytes))
      | _ => let (b, t) := s.fabricServe r k.loc; answer t none b

/-- An access for a partition of this device, within one page, while the ports work. -/
def State.canFabric (s : State) (r : FabricReq) : Bool :=
  s.alarm.isNone && (s.part r.part).on && r.va % 2 ^ 16 + max r.len r.bytes.length ≤ 2 ^ 16

/-- What the owner accesses over the fabric lets its lease go on too (19 R260). -/
def execFabricGlobalAccess (r : FabricReq) (s : State) := event (s.canFabric r) ((s.hearSrc r.src).fabricAccess r)

end Sys2Proof.Machine
end

