-- ==== Sys2Proof/Machine/Dispatch.lean ====
section
/-! DEFINITION. The meaning of every instruction: one arm for each constructor, in the order of the opcode table. -/
namespace Sys2Proof.Machine

def exec (i : Instr) (s : State) : Host.Outcome State Fault Refusal :=
  match i with
  | .add g d a b im => Sys2Proof.Machine.execAdd g d a b im s
  | .sub g d a b im => Sys2Proof.Machine.execSub g d a b im s
  | .mul g d a b im => Sys2Proof.Machine.execMul g d a b im s
  | .mulh g d a b im => Sys2Proof.Machine.execMulh g d a b im s
  | .mulhu g d a b im => Sys2Proof.Machine.execMulhu g d a b im s
  | .div g d a b im => Sys2Proof.Machine.execDiv g d a b im s
  | .rem g d a b im => Sys2Proof.Machine.execRem g d a b im s
  | .and g d a b im => Sys2Proof.Machine.execAnd g d a b im s
  | .or g d a b im => Sys2Proof.Machine.execOr g d a b im s
  | .xor g d a b im => Sys2Proof.Machine.execXor g d a b im s
  | .shl g d a b im => Sys2Proof.Machine.execShl g d a b im s
  | .shr g d a b im => Sys2Proof.Machine.execShr g d a b im s
  | .sra g d a b im => Sys2Proof.Machine.execSra g d a b im s
  | .min g d a b im => Sys2Proof.Machine.execMin g d a b im s
  | .max g d a b im => Sys2Proof.Machine.execMax g d a b im s
  | .mov g d a b im => Sys2Proof.Machine.execMov g d a b im s
  | .sel g d a b im => Sys2Proof.Machine.execSel g d a b im s
  | .li g d imm => Sys2Proof.Machine.execLi g d imm s
  | .mve g d a b im => Sys2Proof.Machine.execMve g d a b im s
  | .mfe g d a b im => Sys2Proof.Machine.execMfe g d a b im s
  | .cmp g cond d a b im => Sys2Proof.Machine.execCmp g cond d a b im s
  | .nop g => Sys2Proof.Machine.execNop g s
  | .br g off => Sys2Proof.Machine.execBr g off s
  | .jmp g a => Sys2Proof.Machine.execJmp g a s
  | .call g off => Sys2Proof.Machine.execCall g off s
  | .callReg g a => Sys2Proof.Machine.execCallReg g a s
  | .ret g => Sys2Proof.Machine.execRet g s
  | .loop g lvl len cnt => Sys2Proof.Machine.execLoop g lvl len cnt s
  | .flip g bar pub => Sys2Proof.Machine.execFlip g bar pub s
  | .retire g => Sys2Proof.Machine.execRetire g s
  | .trap g imm => Sys2Proof.Machine.execTrap g imm s
  | .bkpt g imm => Sys2Proof.Machine.execBkpt g imm s
  | .reth g => Sys2Proof.Machine.execReth g s
  | .vadd g w z u d a b => Sys2Proof.Machine.execVadd g w z u d a b s
  | .vsub g w z u d a b => Sys2Proof.Machine.execVsub g w z u d a b s
  | .vmul g w z u d a b => Sys2Proof.Machine.execVmul g w z u d a b s
  | .vmulh g w z u d a b => Sys2Proof.Machine.execVmulh g w z u d a b s
  | .vand g w z u d a b => Sys2Proof.Machine.execVand g w z u d a b s
  | .vor g w z u d a b => Sys2Proof.Machine.execVor g w z u d a b s
  | .vxor g w z u d a b => Sys2Proof.Machine.execVxor g w z u d a b s
  | .vshl g w z u d a b => Sys2Proof.Machine.execVshl g w z u d a b s
  | .vshr g w z u d a b => Sys2Proof.Machine.execVshr g w z u d a b s
  | .vsra g w z u d a b => Sys2Proof.Machine.execVsra g w z u d a b s
  | .vmin g w z u d a b => Sys2Proof.Machine.execVmin g w z u d a b s
  | .vmax g w z u d a b => Sys2Proof.Machine.execVmax g w z u d a b s
  | .vabs g w z u d a => Sys2Proof.Machine.execVabs g w z u d a s
  | .vsel g w z u d a b => Sys2Proof.Machine.execVsel g w z u d a b s
  | .vcnt g w z u d a => Sys2Proof.Machine.execVcnt g w z u d a s
  | .vredi g w z u d a sel => Sys2Proof.Machine.execVredi g w z u d a sel s
  | .vcmp g cond w z u d a b => Sys2Proof.Machine.execVcmp g cond w z u d a b s
  | .fadd g w f sat d a b => Sys2Proof.Machine.execFadd g w f sat d a b s
  | .fsub g w f sat d a b => Sys2Proof.Machine.execFsub g w f sat d a b s
  | .fmul g w f sat d a b => Sys2Proof.Machine.execFmul g w f sat d a b s
  | .fma g w f sat d a b => Sys2Proof.Machine.execFma g w f sat d a b s
  | .fmin g w f sat d a b => Sys2Proof.Machine.execFmin g w f sat d a b s
  | .fmax g w f sat d a b => Sys2Proof.Machine.execFmax g w f sat d a b s
  | .fabs g w f sat d a => Sys2Proof.Machine.execFabs g w f sat d a s
  | .fneg g w f sat d a => Sys2Proof.Machine.execFneg g w f sat d a s
  | .fred g w f sat d a sel => Sys2Proof.Machine.execFred g w f sat d a sel s
  | .fsca g w f sat d a b => Sys2Proof.Machine.execFsca g w f sat d a b s
  | .fcmp g cond w f sat d a b => Sys2Proof.Machine.execFcmp g cond w f sat d a b s
  | .cvt g w src d a dst rnd => Sys2Proof.Machine.execCvt g w src d a dst rnd s
  | .qnt g w mode d a rnd => Sys2Proof.Machine.execQnt g w mode d a rnd s
  | .dqnt g w mode d a => Sys2Proof.Machine.execDqnt g w mode d a s
  | .vperm g w z d a b => Sys2Proof.Machine.execVperm g w z d a b s
  | .vbcast g w z k d a => Sys2Proof.Machine.execVbcast g w z k d a s
  | .vseq g w z d a b => Sys2Proof.Machine.execVseq g w z d a b s
  | .visect g w z d a b => Sys2Proof.Machine.execVisect g w z d a b s
  | .vmovp g w toPred d a => Sys2Proof.Machine.execVmovp g w toPred d a s
  | .rngc g w z d a b => Sys2Proof.Machine.execRngc g w z d a b s
  | .vext g w z d a b => Sys2Proof.Machine.execVext g w z d a b s
  | .vins g w z d a b => Sys2Proof.Machine.execVins g w z d a b s
  | .fexp2 g w f d a => Sys2Proof.Machine.execFexp2 g w f d a s
  | .flog2 g w f d a => Sys2Proof.Machine.execFlog2 g w f d a s
  | .frcp g w f d a => Sys2Proof.Machine.execFrcp g w f d a s
  | .frsq g w f d a => Sys2Proof.Machine.execFrsq g w f d a s
  | .fsqrt g w f d a => Sys2Proof.Machine.execFsqrt g w f d a s
  | .fdiv g w f d a b => Sys2Proof.Machine.execFdiv g w f d a b s
  | .ld g d base imm m => Sys2Proof.Machine.execLd g d base imm m s
  | .lds g d base imm m => Sys2Proof.Machine.execLds g d base imm m s
  | .ldr g d base imm m => Sys2Proof.Machine.execLdr g d base imm m s
  | .ldp g d base win off plies round => Sys2Proof.Machine.execLdp g d base win off plies round s
  | .pf g base imm cluster => Sys2Proof.Machine.execPf g base imm cluster s
  | .qpop g d m => Sys2Proof.Machine.execQpop g d m s
  | .st g d base imm m => Sys2Proof.Machine.execSt g d base imm m s
  | .sts g d base imm m => Sys2Proof.Machine.execSts g d base imm m s
  | .stp g d base win off plies => Sys2Proof.Machine.execStp g d base win off plies s
  | .stq g d base tag m => Sys2Proof.Machine.execStq g d base tag m s
  | .atom g d base old op => Sys2Proof.Machine.execAtom g d base old op s
  | .acas g d base old dword => Sys2Proof.Machine.execAcas g d base old dword s
  | .pacc g d base win off sr => Sys2Proof.Machine.execPacc g d base win off sr s
  | .pdec g d base win off sr => Sys2Proof.Machine.execPdec g d base win off sr s
  | .qpush g d z => Sys2Proof.Machine.execQpush g d z s
  | .stk g d base imm => Sys2Proof.Machine.execStk g d base imm s
  | .xcfg g bank pa pb dexp => Sys2Proof.Machine.execXcfg g bank pa pb dexp s
  | .xpush g => Sys2Proof.Machine.execXpush g s
  | .xacc g bank => Sys2Proof.Machine.execXacc g bank s
  | .xshift g bank => Sys2Proof.Machine.execXshift g bank s
  | .xdrain g bank => Sys2Proof.Machine.execXdrain g bank s
  | .ecopy g base cv ev hv nl z evc => Sys2Proof.Machine.execEcopy g base cv ev hv nl z evc s
  | .egather g base cv ev x z evc => Sys2Proof.Machine.execEgather g base cv ev x z evc s
  | .ereduce g base cv ev rop fmt evc => Sys2Proof.Machine.execEreduce g base cv ev rop fmt evc s
  | .epage g base cv ev dir k slot dict evc => Sys2Proof.Machine.execEpage g base cv ev dir k slot dict evc s
  | .edict g base cv ev slot evc => Sys2Proof.Machine.execEdict g base cv ev slot evc s
  | .csrr g d csr => Sys2Proof.Machine.execCsrr g d csr s
  | .csrw g src csr => Sys2Proof.Machine.execCsrw g src csr s
  | .flags g d clear slot => Sys2Proof.Machine.execFlags g d clear slot s
  | .versw g => Sys2Proof.Machine.execVersw g s
  | .verswNamed g src => Sys2Proof.Machine.execVerswNamed g src s
  | .verpub g d => Sys2Proof.Machine.execVerpub g d s
  | .qarm g port base => Sys2Proof.Machine.execQarm g port base s
  | .variableResultLand c n => Sys2Proof.Machine.execVariableResultLand c n s
  | .lateFaultReport c => Sys2Proof.Machine.execLateFaultReport c s
  | .verpubStep n => Sys2Proof.Machine.execVerpubStep n s
  | .verswStep n => Sys2Proof.Machine.execVerswStep n s
  | .translationWalkComplete n => Sys2Proof.Machine.execTranslationWalkComplete n s
  | .walkerStart cluster => Sys2Proof.Machine.execWalkerStart cluster s
  | .flipRelease c => Sys2Proof.Machine.execFlipRelease c s
  | .flipExchange c => Sys2Proof.Machine.execFlipExchange c s
  | .taskStart c => Sys2Proof.Machine.execTaskStart c s
  | .contextFree c => Sys2Proof.Machine.execContextFree c s
  | .handlerEntry c => Sys2Proof.Machine.execHandlerEntry c s
  | .packetArrival pk => Sys2Proof.Machine.execPacketArrival pk s
  | .launch p q => Sys2Proof.Machine.execLaunch p q s
  | .kernelDispatch p => Sys2Proof.Machine.execKernelDispatch p s
  | .contextStart c => Sys2Proof.Machine.execContextStart c s
  | .copy p q => Sys2Proof.Machine.execCopy p q s
  | .copyComplete p q => Sys2Proof.Machine.execCopyComplete p q s
  | .depEvent p q => Sys2Proof.Machine.execDepEvent p q s
  | .depPageSet p q => Sys2Proof.Machine.execDepPageSet p q s
  | .depComplete p q => Sys2Proof.Machine.execDepComplete p q s
  | .signal p q => Sys2Proof.Machine.execSignal p q s
  | .setdetQueue p q => Sys2Proof.Machine.execSetdetQueue p q s
  | .setdetPartition p q => Sys2Proof.Machine.execSetdetPartition p q s
  | .setdetComplete p q => Sys2Proof.Machine.execSetdetComplete p q s
  | .publish p q => Sys2Proof.Machine.execPublish p q s
  | .captureStart p q => Sys2Proof.Machine.execCaptureStart p q s
  | .captureStop p q => Sys2Proof.Machine.execCaptureStop p q s
  | .captureResume p q => Sys2Proof.Machine.execCaptureResume p q s
  | .capturePageWrite region => Sys2Proof.Machine.execCapturePageWrite region s
  | .markOn p q => Sys2Proof.Machine.execMarkOn p q s
  | .markOff p q => Sys2Proof.Machine.execMarkOff p q s
  | .markDecl p q => Sys2Proof.Machine.execMarkDecl p q s
  | .markSnap p q => Sys2Proof.Machine.execMarkSnap p q s
  | .markMode p q => Sys2Proof.Machine.execMarkMode p q s
  | .resync pk => Sys2Proof.Machine.execResync pk s
  | .ownerClaim pk => Sys2Proof.Machine.execOwnerClaim pk s
  | .ownerHandover pk => Sys2Proof.Machine.execOwnerHandover pk s
  | .ownerRenew pk => Sys2Proof.Machine.execOwnerRenew pk s
  | .ownerRelease pk => Sys2Proof.Machine.execOwnerRelease pk s
  | .electionClose => Sys2Proof.Machine.execElectionClose s
  | .leaseExpiry => Sys2Proof.Machine.execLeaseExpiry s
  | .engineChunkPerform n => Sys2Proof.Machine.execEngineChunkPerform n s
  | .engineComplete n => Sys2Proof.Machine.execEngineComplete n s
  | .taggedWriteArrive n => Sys2Proof.Machine.execTaggedWriteArrive n s
  | .heldWriteTimeout n => Sys2Proof.Machine.execHeldWriteTimeout n s
  | .replacementWriteback cluster line => Sys2Proof.Machine.execReplacementWriteback cluster line s
  | .randomWordFill c => Sys2Proof.Machine.execRandomWordFill c s
  | .portOperandFetch c port => Sys2Proof.Machine.execPortOperandFetch c port s
  | .watchdogPreempt p q => Sys2Proof.Machine.execWatchdogPreempt p q s
  | .watchdogKill p q => Sys2Proof.Machine.execWatchdogKill p q s
  | .watchdogFence p q => Sys2Proof.Machine.execWatchdogFence p q s
  | .preemption c => Sys2Proof.Machine.execPreemption c s
  | .contextRestore c => Sys2Proof.Machine.execContextRestore c s
  | .faultRecordWrite c => Sys2Proof.Machine.execFaultRecordWrite c s
  | .ctxcmdResume b c => Sys2Proof.Machine.execCtxcmdResume b c s
  | .ctxcmdKill b c => Sys2Proof.Machine.execCtxcmdKill b c s
  | .ctxcmdPreempt b c => Sys2Proof.Machine.execCtxcmdPreempt b c s
  | .qctlResume b q => Sys2Proof.Machine.execQctlResume b q s
  | .qctlDiscardHead b q => Sys2Proof.Machine.execQctlDiscardHead b q s
  | .qctlDiscardAll b q => Sys2Proof.Machine.execQctlDiscardAll b q s
  | .tlbinv p v => Sys2Proof.Machine.execTlbinv p v s
  | .tlbinvComplete p => Sys2Proof.Machine.execTlbinvComplete p s
  | .vlendWrite pcore v => Sys2Proof.Machine.execVlendWrite pcore v s
  | .brkaWrite c n v => Sys2Proof.Machine.execBrkaWrite c n v s
  | .monitorWrite p n d0 d1 => Sys2Proof.Machine.execMonitorWrite p n d0 d1 s
  | .monitorFailure p n => Sys2Proof.Machine.execMonitorFailure p n s
  | .dumpComplete p => Sys2Proof.Machine.execDumpComplete p s
  | .dumpEngineFault p => Sys2Proof.Machine.execDumpEngineFault p s
  | .rerunCompare p => Sys2Proof.Machine.execRerunCompare p s
  | .registerWrite block reg v => Sys2Proof.Machine.execRegisterWrite block reg v s
  | .partitionFirmwareUpdate p image => Sys2Proof.Machine.execPartitionFirmwareUpdate p image s
  | .vaultRetraining vault => Sys2Proof.Machine.execVaultRetraining vault s
  | .fabricPortRetraining port => Sys2Proof.Machine.execFabricPortRetraining port s
  | .partitionReconfiguration p x y w h pbase => Sys2Proof.Machine.execPartitionReconfiguration p x y w h pbase s
  | .clusterRetirement k => Sys2Proof.Machine.execClusterRetirement k s
  | .securityAlarm cause => Sys2Proof.Machine.execSecurityAlarm cause s
  | .deviceReset => Sys2Proof.Machine.execDeviceReset s
  | .powerLimit => Sys2Proof.Machine.execPowerLimit s
  | .atomicPerform n => Sys2Proof.Machine.execAtomicPerform n s
  | .fabricGlobalAccess r => Sys2Proof.Machine.execFabricGlobalAccess r s
  | .portOperandAvailable c port => Sys2Proof.Machine.execPortOperandAvailable c port s
  | .powerBelowLimit => Sys2Proof.Machine.execPowerBelowLimit s
  | .liveServiceOperationComplete n => Sys2Proof.Machine.execLiveServiceOperationComplete n s
  | .monitorRelationHolds p n => Sys2Proof.Machine.execMonitorRelationHolds p n s
  | .ringTailAdvance p log v => Sys2Proof.Machine.execRingTailAdvance p log v s

end Sys2Proof.Machine
end

