-- ==== Sys2Proof/Machine/Bundle.lean ====
section
/-! DEFINITION. A context's turn in a cycle: decoding a bundle (04 R62 to R74), the waits before it issues (02
R345), the merge of a core's two contexts (03 R58), the issue of its syllables, breakpoints (18 R240), what a bundle leaves
(02 R34, 21 R305), and the cycles of a FLIP wait (02 R38). -/
namespace Sys2Proof.Machine

/-! ### Decoding (R62 to R68) -/

/-- A source kind (R27). -/
def kindOf (n : Nat) : Kind :=
  match n with | 0 => .reg | 1 => .latch | 2 => .pop | _ => .peek

/-- A 9-bit lend (R66). -/
def lendOf (n : Nat) : Lend :=
  { ak := kindOf (bits n 8 7), bk := kindOf (bits n 6 5), ws := bitAt n 4, lp := bits n 3 1 }

/-- The header of a bundle, if position 0 holds one. -/
def headerWord (ws : List Nat) : Option Nat := if wordClass (ws.headD 0) = 0 && !ws.isEmpty then some (ws.headD 0) else none

/-- Whether a header has type 1. -/
def isImm (h : Nat) : Bool := bitAt h 27

/-- The 9-bit lend that a header or a link gives to a position, and the position that carries it (R65, R67, R68). -/
def lendAt (ws : List Nat) (p : Nat) : Option (Nat × Nat) :=
  if p < 4 then
    match headerWord ws with
    | some h => if isImm h || p = 0 then none else some (0, bits h (9 * (3 - p) + 8) (9 * (3 - p)))
    | none => none
  else if p % 4 = 3 then none
  else
    let l := ws.getD (p / 4 * 4 - 1) 0
    if wordClass l = 15 then some (p / 4 * 4 - 1, bits l (9 * (2 - p % 4) + 8) (9 * (2 - p % 4))) else none

/-- The extension that a type-1 header gives to a position. -/
def extAt (ws : List Nat) (p : Nat) : Option Nat :=
  match headerWord ws with
  | some h => if isImm h && bits h 26 25 = p then some (h % 2 ^ 25) else none
  | none => none

/-- An operation syllable of a bundle: its position, word, instruction, lend and unit. Units are numbered S0, S1, V0, V1,
V2, F, M0, M1 (0 to 7), X (8), C (9), E (10). -/
structure Syl where
  pos   : Nat := 0
  word  : Nat := 0
  instr : Instr := .nop 0
  lend  : Lend := {}
  ucode : Nat := 0
  deriving DecidableEq, Repr

/-- A decoded bundle: its quads, its words and its operation syllables. -/
structure Bundle where
  quads : Nat := 1
  words : List Nat := []
  syls  : List Syl := []
  deriving DecidableEq, Repr

/-- The lowest position of a list at which a check fails. -/
def lowest (l : List Nat) (bad : Nat → Bool) : Option Nat := l.find? bad

/-- Whether a position's word takes no lend: a link or a NOP. -/
def lendless (w : Nat) : Bool := wordClass w == 15 || isNop w

/-- The first row of R73: the lowest offending position. -/
def structureFault (ws : List Nat) : Option Nat :=
  lowest (List.range ws.length) fun p =>
    let w := ws.getD p 0
    (wordClass w = 0 && p ≠ 0) || (wordClass w = 15 && p ≠ 3 && p ≠ 7)
      || ((wordClass w = 0 || wordClass w = 15) && (List.range ws.length).any fun q =>
        lendless (ws.getD q 0)
          && ((match lendAt ws q with | some (c, l) => c == p && l != 0 | none => false)
            || (p == 0 && match extAt ws q with | some e => e != 0 | none => false)))

/-- The second row: what is no legal syllable, header or link at a position. -/
def syllableFault (ws : List Nat) : Option Nat :=
  lowest (List.range ws.length) fun p =>
    let w := ws.getD p 0
    match wordClass w with
    | 0 => if isImm w then bits w 26 25 = 0 else bitAt w 18 || bitAt w 9 || bitAt w 0
    | 15 => bitAt w 27 || bitAt w 18 || bitAt w 9 || bitAt w 0
    | _ => match decode w with | .ok _ => false | .error _ => true

/-- Units of a class, in order of appearance (R71). -/
def unitsOf (c : Nat) : List Nat :=
  match c with
  | 1 => [0, 1]
  | 3 | 4 | 5 => [2, 3, 4]
  | 6 => [5]
  | 7 | 8 => [6, 7]
  | 9 => [8]
  | 10 => [10]
  | _ => [9]

/-- The syllables with their units, or the position of the first that finds none (R71, R72). -/
def assign : List Nat → List Syl → Except Nat (List Syl)
  | _, [] => .ok []
  | used, y :: t =>
    match (unitsOf (classOf y.instr)).find? fun u => !used.contains u with
    | none => .error y.pos
    | some u => match assign (u :: used) t with
      | .error p => .error p
      | .ok l => .ok ({ y with ucode := u } :: l)

/-- The width that a syllable of class 3, 4 or 5 asks for (R72). -/
def widthOf : Instr → Nat
  | .vadd _ w .. | .vsub _ w .. | .vmul _ w .. | .vmulh _ w .. | .vand _ w .. | .vor _ w .. | .vxor _ w .. | .vshl _ w ..
  | .vshr _ w .. | .vsra _ w .. | .vmin _ w .. | .vmax _ w .. | .vabs _ w .. | .vsel _ w .. | .vcnt _ w .. | .vredi _ w ..
  | .vcmp _ _ w .. | .fadd _ w .. | .fsub _ w .. | .fmul _ w .. | .fma _ w .. | .fmin _ w .. | .fmax _ w .. | .fabs _ w ..
  | .fneg _ w .. | .fred _ w .. | .fsca _ w .. | .fcmp _ _ w .. | .cvt _ w .. | .qnt _ w .. | .dqnt _ w .. | .vperm _ w ..
  | .vbcast _ w .. | .vseq _ w .. | .visect _ w .. | .vmovp _ w .. | .rngc _ w .. | .vext _ w .. | .vins _ w .. => w.bits
  | _ => 0

/-- The syllable whose width first passes what is left. -/
def widthFault : Nat → List Syl → Option Nat
  | _, [] => none
  | left, y :: t => if left < widthOf y.instr then some y.pos else widthFault (left - widthOf y.instr) t

/-- The ports that a syllable pops. -/
def Syl.pops (y : Syl) : List Nat := (portsOf y.instr y.lend).filterMap fun (n, d) => if d then some n else none

/-- The position of a second pop of a port. -/
def popFault : List Nat → List Syl → Option Nat
  | _, [] => none
  | seen, y :: t =>
    if y.pops.any fun n => seen.contains n then some y.pos
    else if y.pops.eraseDups.length ≠ y.pops.length then some y.pos
    else popFault (y.pops ++ seen) t

/-- The operation syllables of some words, without units. -/
def sylsOf (ws : List Nat) : List Syl :=
  (List.range ws.length).filterMap fun p =>
    let w := ws.getD p 0
    if isNop w then none else
    match decode w with
    | .ok i =>
      let l := match lendAt ws p with | some (_, n) => lendOf n | none => {}
      some { pos := p, word := w, instr := i, lend := { l with ext := extAt ws p } }
    | .error _ => none

/-- The rows of R73 that the words alone decide. -/
def decodeBundle (ws : List Nat) : Except (Cause × Nat) Bundle :=
  match structureFault ws with
  | some p => .error (.illegalBundle, p)
  | none => match syllableFault ws with
    | some p => .error (.illegalSyllable, p)
    | none => match assign [] (sylsOf ws) with
      | .error p => .error (.illegalBundle, p)
      | .ok l =>
        match widthFault 2048 l with
        | some p => .error (.illegalBundle, p)
        | none => match popFault [] l with
          | some p => .error (.illegalBundle, p)
          | none => .ok { quads := ws.length / 4, words := ws, syls := l }

/-! ### Fetching (R62, R63; 09 R161) -/

/-- Bytes of the bundle at an address; what cannot be read counts as one quad. -/
def State.sizeAt (s : State) (c a : Nat) : Nat :=
  match s.fetch c 3 a with
  | .ok ws => 4 * ws.length
  | .error _ => 16

/-- The quads that a fetch touches, whether or not their pages are at hand. -/
def State.fetchAddrs (s : State) (c : Nat) : Nat → Nat → List Nat
  | 0, _ => []
  | n + 1, a =>
    a :: match s.quadAt c a with
      | .ok ws => if wordClass (ws.getD 3 0) = 15 then s.fetchAddrs c n (a + 16) else []
      | .error _ => []

/-! ### The slot of a syllable -/

/-- The ports of a bundle as its next syllable sees them: each walk stands as it did before the bundle (R72), and an operand
fetched ahead reads as it stands now at place `o` of the order of issue, the stores of lower positions included (R311, 22 R321). -/
def State.portsSeen (s : State) (c o : Nat) (ports : Tab Walker) : Tab Walker :=
  ports.map fun (n, w) =>
    if w.glob then
      match w.ahead with
      | f :: t => if f.here then (n, { w with ahead := s.refetch c o n w.popped w f :: t }) else (n, w)
      | [] => (n, w)
    else (n, w)

/-- The slot of a bundle at an address with `quads` quads. -/
def State.openSlot (s : State) (c a quads : Nat) : State :=
  let x := s.ctx c
  { s with slot := {
      ctx := c, baddr := a, next := a + 16 * quads, ports := x.ports, spad := (s.core (coreOf c)).spad0, h := x.h
      resumed := x.redo.isSome } }

/-- The slot moves to a syllable. -/
def State.atSyl (s : State) (y : Syl) : State :=
  { s with slot := { s.slot with
      pos := y.pos, word := y.word, lend := y.lend, ecc := false, ports := s.portsSeen s.slot.ctx (s.cur.seq * 16 + y.pos) s.slot.ports
      unit := if y.ucode < 8 then some y.ucode else none, fslot := if y.ucode ≤ 8 then y.ucode else 0 } }

/-! ### What a bundle asks for -/

/-- The accesses to global memory of a plied access: the base's page first, then the pieces (R208). -/
def State.pliedAccesses (s : State) (kind : AKind) (w n0 cnt k : Nat) (scales : Bool) : List (AKind × Nat) :=
  let wb := s.cur.window w
  (kind, wb) :: match s.windowNlog kind wb with
    | .error _ => []
    | .ok nlog =>
      if n0 % 8 ≠ 0 || 2 ^ nlog < n0 + cnt then []
      else ((plySpans wb nlog n0 cnt k scales).flatMap PlySpan.pieces).map fun p => (kind, p.addr)

/-- An access of `z` bytes, unless its address is misaligned (R147). -/
def oneAccess (kind : AKind) (a z : Nat) : List (AKind × Nat) := if a % z = 0 then [(kind, a)] else []

/-- The accesses to global memory of the syllable at the slot that hold its bundle until they are translated (R161). DESIGN CHOICE
(log entry 89): the shape record that an ECOPY reads at issue is not among them. -/
def State.accesses (s : State) (i : Instr) : List (AKind × Nat) :=
  match i with
  | .ld _ _ b im m => oneAccess .read (s.addressLd b im m.bytes) m.bytes
  | .ldr _ _ b im m => oneAccess .read (s.address b im m.bytes) m.bytes
  | .st _ _ b im m => oneAccess .write (s.address b im m.bytes) m.bytes
  | .stk _ _ b im => oneAccess .write (s.address b im 8) 8
  | .stq _ _ b _ m => oneAccess .write (s.sa b.toNat) m.bytes
  | .atom _ _ b _ op => oneAccess (if op = .load then .read else .write) (s.sa b.toNat) (if op = .fadd32 then 4 else 8)
  | .acas _ _ b _ dw => oneAccess .write (s.sa b.toNat) (if dw then 8 else 4)
  | .ldp _ _ b w o k r => s.pliedAccesses .read w.toNat (s.firstElement b o) 64 (if r then 4 else k.toNat + 1) false
  | .stp _ _ b w o k => s.pliedAccesses .write w.toNat (s.firstElement b o) 64 (k.toNat + 1) false
  | .pacc _ _ b w o _ | .pdec _ _ b w o _ => s.pliedAccesses .write w.toNat (s.firstElement b o) 32 4 true
  | _ => []

/-- Whether a syllable draws from the random-bit queue (06 R110). -/
def drawsWord : Instr → Bool
  | .cvt _ _ _ _ _ _ .srq | .qnt _ _ _ _ _ .srq => true
  | .pacc _ _ _ _ _ sr | .pdec _ _ _ _ _ sr => sr
  | _ => false

/-- The flags that a float result in a format can raise: those of sums, which are exact where they are tiny, and of
products. -/
def flSum : Flags := flNV ||| flOF ||| flNX
def flAll : Flags := flSum ||| flUF

/-- The invalid flag of a class 4 operation: E4M3 has neither infinities nor signaling NaNs, so none of its sums, products and
extremes can raise it (R102, R104). -/
def nvOf (f : FFmt) : Flags := if f = .e4m3 then 0 else flNV

/-- The compares that call every NaN operand invalid (20 R292). -/
def comparesOrder : FCond → Bool
  | .lt | .le | .gt | .ge => true
  | _ => false

/-- Whether a format has signaling NaNs, and whether a value of one format is exact in another. -/
def cfmtSignals : CFmt → Bool
  | .fp32 | .bf16 | .e5m2 => true
  | _ => false

/-- The flags that a conversion can raise (R103, R116, R285). -/
def cvtRaises (sf df : CFmt) : Flags :=
  (if cfmtSignals sf then flNV else 0) |||
  match sf, df with
  | .int8, .int32 | .int8, .fp32 | .int8, .bf16 => 0
  | .int32, .int8 => flNV
  | .int8, .e4m3 | .int8, .e5m2 | .int32, .fp32 | .int32, .bf16 => flNX
  | .int8, _ | .int32, _ => flOF ||| flNX
  | _, .int8 | _, .int32 => flNV ||| flNX
  | _, .fp32 | .e4m3, .bf16 | .e5m2, .bf16 | .ply4, _ => 0
  | .e4m3, .e5m2 | .ply16, .bf16 | .ply16, .e5m2 => flNX
  | .ply16, .e4m3 => flNX ||| flUF
  | _, .ply16 | _, .ply4 => flOF ||| flNX
  | _, _ => flOF ||| flUF ||| flNX

/-- The flags that a syllable is able to raise (R268). -/
def raises : Instr → Flags
  | .div .. => flDZ ||| flOF
  | .rem .. => flDZ
  | .fadd _ _ f .. | .fsub _ _ f .. => nvOf f ||| flOF ||| flNX
  | .fred _ _ _ _ _ _ sel => if sel = 0 then flSum else flNV
  | .fmul _ _ f .. | .fma _ _ f .. => nvOf f ||| flOF ||| flUF ||| flNX
  | .fsca .. => flAll
  | .fmin _ _ f .. | .fmax _ _ f .. => nvOf f
  | .fcmp _ c _ f .. => if comparesOrder c then flNV else nvOf f
  | .cvt _ _ sf _ _ df _ => cvtRaises sf df
  | .qnt _ _ m .. => if m = 0 then flAll else flSum
  | .dqnt _ _ m .. => if m = 0 then flOF ||| flNX else 0
  | .fexp2 .. => flAll
  | .flog2 .. | .frsq .. => flNV ||| flDZ ||| flNX
  | .frcp .. | .fdiv .. => flAll ||| flDZ
  | .fsqrt .. => flNV ||| flNX
  | .ldp _ _ _ _ _ _ r => if r then flOF else 0
  | .pacc .. | .pdec .. => flSum
  | .xpush .. | .xacc .. | .xshift .. => flAOV
  | .xdrain .. => flOF ||| flUF ||| flNX
  | _ => 0

/-- Whether a syllable's flags are formed when a read returns (R268). -/
def formedByRead : Instr → Bool
  | .ldp _ _ _ _ _ _ r => r
  | .pacc .. | .pdec .. => true
  | _ => false

/-- The cycles after issue at which a syllable's flags are known (R35, R268, R343); those of a read below the locked level are
known when it returns. -/
def flagCycles (locked : Bool) (i : Instr) : Nat :=
  match i with
  | .ldp .. | .pacc .. | .pdec .. => if locked then latLoad else 0
  | .xdrain .. => 11
  | .fsqrt .. | .fdiv .. => 14
  | _ => match classOf i with
    | 4 => 4
    | 5 => 6
    | 6 => 10
    | _ => 1

/-- The syllables of a bundle that hold the next one back while some TE bit is set: those able to raise an enabled flag, and
every PACC and PDEC (R268, R308). -/
def Ctx.holders (x : Ctx) (l : List Syl) : List Syl :=
  if x.trapMask = 0 then [] else
  l.filter fun y => raises y.instr &&& x.trapMask ≠ 0 || (match y.instr with | .pacc .. | .pdec .. => true | _ => false)

/-- The flag hold after a bundle: the latest of its holders (R268). -/
def flagHold (x : Ctx) (l : List Syl) : Nat :=
  (x.holders l).foldl (fun n y => max n (flagCycles (x.level == 2) y.instr)) 0

/-- The bundle whose reads have to return before the next one, below the locked level (R268). -/
def Ctx.holdReads (x : Ctx) (l : List Syl) : Option Nat :=
  if x.level ≠ 2 && (x.holders l).any fun y => formedByRead y.instr then some x.seq else none

/-- R268: whether the flag hold keeps the next bundle back in a cycle. -/
def Ctx.holding (x : Ctx) (cycle : Nat) : Bool :=
  cycle < x.hold || match x.holdFor with
    | none => false
    | some n =>
      (x.inflight.any fun r => r.seq == n && r.isVar && match decode r.syl with | .ok i => formedByRead i | .error _ => false)
        || x.flagsDue.any fun f => f.isVar && f.seq == n

/-! ### The bundle that a context would issue -/

/-- A bundle ready to issue: the syllables still to issue with true and false guards, and those that breakpoints mask. -/
structure Plan where
  bundle : Bundle
  todo   : List Syl
  masked : List Nat
  deriving DecidableEq, Repr

/-- A trap that a context takes at its boundary, with its DONE bits. -/
structure Early where
  raised : Raised
  done   : Nat
  deriving DecidableEq, Repr

/-- The first syllable of a list that meets a cause under R73. -/
def State.verdictAt (s : State) (l : List Syl) (c : Cause) : Option Nat :=
  (l.find? fun y => verdict y.instr (s.atSyl y) == some c).map Syl.pos

/-- The positions that breakpoints mask in a bundle (18 R240). -/
def Ctx.breakMask (x : Ctx) (b : Bundle) : List Nat :=
  if x.noBrk then [] else
  let m := x.brka.foldl (fun m (_, v) =>
    if bitAt v.toNat 63 && bits v.toNat 47 4 = x.pc / 16 % 2 ^ 44 then m ||| bits v.toNat 59 48 else m) 0
  (b.syls.map Syl.pos).filter fun p => bitAt m p

/-- What a context's next bundle is: the checks of R73 in their order, or the trap they raise. DESIGN CHOICE (log entry 78): the
illegal-syllable traps of R44 and R316, of a syllable that the handler does not run and of a RETH outside it, stand after the rows
of the bundle's composition and before those of operands. DESIGN CHOICE (log entry 44): a data error met as the bundle's own quads are
fetched is recorded with DONE 0x000, as R276 says it of a translation fault, or with the bits of the resumption under way; no bit stands
for a header, a link or a NOP of a quad that has been fetched, nor for positions beyond the bundle, whose end is not known. -/
def State.look (s : State) (c : Nat) : Except Early Plan :=
  let x := s.ctx c
  match s.fetch c 3 x.pc with
  | .error r => .error { raised := r, done := x.redo.getD 0 }
  | .ok ws =>
    let fixed := fixedMask ws
    let trap := fun (cause : Cause) (p : Nat) => Except.error { raised := { cause, pos := p }, done := fixed : Early }
    match decodeBundle ws with
    | .error (cause, p) => trap cause p
    | .ok b =>
      let t := s.openSlot c x.pc b.quads
      let todo := b.syls.filter fun y => !bitAt (x.redo.getD 0) y.pos
      match t.verdictAt todo .illegalSyllable with
      | some p => trap .illegalSyllable p
      | none => match t.verdictAt todo .illegalOperand with
        | some p => trap .illegalOperand p
        | none => match t.verdictAt todo .staleLatch with
          | some p => trap .staleLatch p
          | none =>
            let masked := x.breakMask b
            .ok { bundle := b, todo := todo.filter fun y => !masked.contains y.pos, masked }

/-- The syllables of a context's plan whose guards are true. -/
def State.acting (s : State) (c : Nat) (l : List Syl) : List Syl :=
  l.filter fun y => guardHolds y.instr { s with slot := { s.slot with ctx := c } }

/-! ### The waits before issue (R345) -/

/-- A page that an access waits for, with the position of the access. -/
structure Miss where
  pos : Nat
  key : PageKey
  deriving DecidableEq, Repr

/-- The distinct pages among some misses, the first of each. -/
def distinct : List PageKey → List Miss → List Miss
  | _, [] => []
  | seen, m :: t => if seen.contains m.key then distinct seen t else m :: distinct (m.key :: seen) t

/-- The pages that a context's next bundle misses, those of its fetch first. -/
def State.misses (s : State) (c : Nat) (l : List Syl) (quads : Nat) : List Miss :=
  let x := s.ctx c
  let t := s.openSlot c x.pc quads
  let miss := fun (p : Nat) (a : AKind × Nat) => (s.pageMissing c a.1 a.2).map fun k => { pos := p, key := s.wholePage k : Miss }
  distinct [] (((s.fetchAddrs c 3 x.pc).filterMap fun a => miss 0 (.exec, a))
    ++ l.flatMap fun y => ((t.atSyl y).accesses y.instr).filterMap (miss y.pos))

/-- Whether a port has an operand to pop or to peek (R311). -/
def Walker.offers (w : Walker) (n : Nat) : Bool :=
  w.armed && w.left n != 0 && (!w.glob || match w.ahead with | f :: _ => f.here | [] => false)

/-- Whether a VERPUB of a context holds back its accesses to the region (14 R213): until the result lands. -/
def State.publishing (s : State) (c : Nat) : Bool :=
  let x := s.ctx c
  x.inflight.any fun r => r.isVar && r.clocked.isSome

/-- The addresses of the operands that a syllable takes from global walks. -/
def Ctx.walkedBy (x : Ctx) (y : Syl) : List Nat :=
  (portsOf y.instr y.lend).flatMap fun n =>
    let w := Tab.get {} x.ports n.1
    if w.armed && w.glob then (List.range (w.perOperand n.1)).map fun i => ofSigned 64 (w.addr (w.popped * w.perOperand n.1 + i)) else []

/-- The region of an address of this device, if it lies in one: one that names another device, or that is malformed, does not (09 R146). -/
def State.regionAtAddress (s : State) (a : Nat) : Option Nat :=
  if (if bitAt a 63 then bits a 59 58 = 0 && bits a 57 48 = s.devId else bits a 62 48 = 0) then (s.regionOf (a % 2 ^ 48)).map Prod.fst
  else none

/-- The lowest syllable that accesses the region that a context's partition is bound to, by its address or through a global walk. -/
def State.regionUser (s : State) (c quads : Nat) (l : List Syl) : Option Nat :=
  let x := s.ctx c
  let t := s.openSlot c x.pc quads
  let r := s.boundRegion x.part
  (l.find? fun y => (((t.atSyl y).accesses y.instr).map Prod.snd ++ x.walkedBy y).any fun a =>
    r.isSome && s.regionAtAddress a == r).map Syl.pos

/-- Commands in flight on a core (12 R191). -/
def State.commands_ (s : State) (core : Nat) : Nat := s.engines.countP fun e => e.core == core && e.copy.isNone

/-- The causes, other than translation, that hold a bundle back in this cycle, with the slots they name. -/
def State.waits (s : State) (c : Nat) (p : Plan) : List (Nat × Nat) :=
  let x := s.ctx c
  let l := s.acting c p.todo
  let engine := (l.filter fun y => classOf y.instr == 10 && Config.inflightMax ≤ s.commands_ (coreOf c)).map fun y => (4, y.pos)
  let random := match l.find? fun y => drawsWord y.instr with
    | some y => if x.rnd.isEmpty then [(4, y.pos)] else []
    | none => []
  let port := (l.filter fun y => (portsOf y.instr y.lend).any fun n =>
    !((Tab.get {} x.ports n.1).offers n.1)).map fun y => (4, y.pos)
  let pops := l.filterMap fun y => match y.instr with | .qpop _ _ m => some (y.pos, m) | _ => none
  let pop := (popStalls s.cycle (s.core (coreOf c)).tiles pops).map fun p => (4, p)
  let verpub := if s.publishing c then (match s.regionUser c p.bundle.quads l with | some q => [(3, q)] | none => []) else []
  (engine ++ random ++ port ++ pop ++ verpub).eraseDups

/-! ### Merging (R58) -/

/-- The other context of a core. -/
def siblingOf (c : Nat) : Nat := 2 * coreOf c + (1 - c % 2)

/-- The occupied set of a bundle. -/
def Bundle.occupied (b : Bundle) (c : Nat) : Occ :=
  { ctx := c, units := b.syls.map Syl.ucode
    ports := (b.syls.flatMap fun y => (portsOf y.instr y.lend).map Prod.fst).eraseDups
    width := b.syls.foldl (fun n y => n + widthOf y.instr) 0 }

def Occ.collides (a b : Occ) : Bool :=
  (a.units.any fun u => b.units.contains u) || (a.ports.any fun n => b.ports.contains n) || 2048 < a.width + b.width

/-- Whether a context may present a bundle: it runs, and waits at no FLIP unless it resumes a bundle. -/
def Ctx.presents (x : Ctx) (cycle : Nat) : Bool := x.alive && !x.halt && !x.preempt && (x.flip.isNone || x.redo.isSome) && !x.holding cycle

/-- The occupied set that a context presents in this cycle, if it does. -/
def State.presented (s : State) (c : Nat) : Option Occ :=
  let s := s.updCtx c (Ctx.landDue s.cycle)
  let x := s.ctx c
  if x.level = 2 || !x.presents s.cycle || s.boundary c then none
  else match s.look c with
    | .error _ => none
    | .ok p =>
      if (s.misses c (s.acting c p.todo) p.bundle.quads).isEmpty && (s.waits c p).isEmpty then some (p.bundle.occupied c) else none

/-- The bundle of the other context that this context's bundle meets in this cycle, and whether it has issued already. -/
def State.rival (s : State) (c : Nat) : Option (Occ × Bool) :=
  let o := siblingOf c
  if (s.ctx c).level = 2 then none
  else if s.served.contains o then
    match (s.core (coreOf c)).issued with
    | some q => if q.ctx = o then some (q, true) else none
    | none => none
  else (s.presented o).map fun q => (q, false)

/-- Denials of context 1 in the cycles just before this one, without a gap (R58). -/
def CoreSt.denials (k : CoreSt) (cycle : Nat) : Nat := if k.deniedAt + 1 = cycle then k.denied else 0

/-- R58: which of two bundles that collide issues: context 1's once it has been denied in 31 cycles in a row, else context 0's. -/
def State.prevails (s : State) (c : Nat) : Bool := (c % 2 == 1) == decide (31 ≤ (s.core (coreOf c)).denials s.cycle)

/-- R58: whether a context's bundle is denied. -/
def State.deniedBy (s : State) (c : Nat) (mine : Occ) : Option Occ :=
  match s.rival c with
  | none => none
  | some (q, out) =>
    if !mine.collides q then none
    else if out || !s.prevails c then some q
    else none

/-- The slot that a denial names: the lowest position that collides on a unit or a port, else the vector syllable whose
width, added to the other bundle's, first passes 2,048 (R242). -/
def denialPos (b : Bundle) (q : Occ) : Nat :=
  match b.syls.find? fun y => q.units.contains y.ucode || (portsOf y.instr y.lend).any fun n => q.ports.contains n.1 with
  | some y => y.pos
  | none => (widthFault (2048 - q.width) b.syls).getD 0

/-- A context that presents nothing, or is not denied, breaks its row of denials. -/
def State.setDenied (s : State) (c : Nat) (denied : Bool) : State :=
  if c % 2 = 0 then s
  else if denied then
    s.updCore (coreOf c) fun k => { k with denied := k.denials s.cycle + 1, deniedAt := s.cycle }
  else if (s.core (coreOf c)).denied = 0 then s
  else s.updCore (coreOf c) fun k => { k with denied := 0 }

/-! ### Stalls -/

/-- Every cause that holds a context in this cycle loses it one cycle. -/
def State.loseAll (s : State) (c : Nat) (l : List (Nat × Nat)) : State :=
  l.foldl (fun t (cause, p) => t.lose c cause (t.ctx c).pc p) s

/-- A record of translation ends before the next pair of misses begins (R164). -/
def State.endPair (s : State) (c : Nat) : State :=
  let x := s.ctx c
  let ended := x.devs.filter fun d => d.cause == 6
  ended.foldl (fun t d => t.putRecord (coreOf c) (c % 2) d)
    (s.setCtx c { x with devs := x.devs.filter fun d => d.cause != 6 })

/-- The request of a context for a page. -/
def State.request (s : State) (c : Nat) (m : Miss) (till : Nat) : Walk :=
  { who := .bundle c, cluster := clusterOf (coreOf c), core := coreOf c, part := m.key.part, va := m.key.va
    region := m.key.region, till, since := s.cycle, start := (s.ctx c).count }

/-- Whether a context has asked for a page. -/
def State.asked (s : State) (c : Nat) (k : PageKey) : Bool :=
  (s.walks ++ s.walksWaiting).any fun w => w.who == .bundle c && w.key == k

/-- The cycles of translation: at the locked level two misses at a time, 640 cycles each pair (R164, R345). -/
def State.translate (s : State) (c : Nat) (l : List Miss) : State :=
  if (s.ctx c).level = 2 then
    let going := l.filter fun m => s.asked c m.key
    match going with
    | m :: _ => s.loseAll c [(6, m.pos)]
    | [] =>
      let t := s.endPair c
      let t := { t with walks := t.walks ++ (l.take 2).map fun m => t.request c m (t.cycle + 640) }
      t.loseAll c ((l.take 1).map fun m => (6, m.pos))
  else
    let new := l.filter fun m => !s.asked c m.key
    ({ s with walksWaiting := s.walksWaiting ++ new.map fun m => s.request c m 0 }).loseAll c
      ((l.map Miss.pos).eraseDups.map fun p => (6, p))

/-! ### Issue -/

/-- One syllable at its slot. -/
def runSyl (y : Syl) (s : State) : Host.Outcome State Fault Refusal := exec y.instr (s.atSyl y)

/-- Syllables one after another. -/
def runSyls : List Syl → State → Host.Outcome State Fault Refusal
  | [], s => .next s
  | y :: t, s =>
    match runSyl y s with
    | .next u => runSyls t u
    | .fault f => .fault f
    | .refused r => .refused r

/-- The order in which the syllables of a bundle take effect: pops of the transpose queue first (R141), a QARM last (R311),
the others by position. DESIGN CHOICE (log entry 85): a QARM takes effect although an XPUSH of its bundle traps, so the XPUSH pops
the new walks when it issues again. -/
def issueOrder (l : List Syl) : List Syl :=
  let pops := fun (y : Syl) => match y.instr with | .qpop .. => true | _ => false
  let arms := fun (y : Syl) => match y.instr with | .qarm .. => true | _ => false
  l.filter pops ++ (l.filter fun y => !pops y && !arms y) ++ l.filter arms

/-- The word that a bundle draws (06 R110). -/
def State.draw (s : State) (c : Nat) (l : List Syl) : State :=
  if l.any fun y => drawsWord y.instr then
    let w := (s.ctx c).rnd.headD 0
    { s.updCtx c fun x => { x with rnd := x.rnd.tail } with slot := { s.slot with word64 := w } }
  else s

/-- Positions as a mask. -/
def maskOf (l : List Nat) : Nat := l.foldl (fun m p => m ||| 2 ^ p) 0

/-- The DONE bits of a bundle that has trapped: clear for what trapped, what a breakpoint masks, and a flip that did not take
place (R39, R74, R240). -/
def doneMask (clear : List Nat) (flip : Option FlipWait) : Nat :=
  let undone := clear ++ (match flip with | some w => [w.pos] | none => [])
  maskOf ((List.range 12).filter fun p => !undone.contains p)

/-- A bundle that has trapped: the context stops, and the flip of the bundle does not take place. A bundle that only a
breakpoint stops keeps its flip for the resumption, and a RETH that has issued ends the handler when the bundle is finished
(R240). The flags of the arithmetic-flag traps are set (R112). -/
def State.trapBundle (s : State) (c : Nat) (p : Plan) (r : Raised) : State :=
  let raised := s.slot.raised.map Raised.pos
  let broken := raised.isEmpty
  s.updCtx c fun x =>
    let y := { x.trapFlags s.cycle x.pc s.slot.raised with
      flip := if broken then x.flip else none, walked := [], leaving := x.leaving || s.slot.leave }
    y.takeTrap s.cycle r x.pc x.pc (doneMask (raised ++ p.masked) (if broken then none else x.flip)) false

/-- LIDX of the loops whose body bundle issues (R305). -/
def noteLoops (t : Tab Word64) (l : List Loop) : Tab Word64 :=
  l.foldl (fun t q => Tab.set 0 t q.lvl (BitVec.ofNat 64 q.iter)) t

/-- Where the context goes after a bundle (R305, R306): a taken transfer ends every active loop. -/
def Ctx.advance (x : Ctx) (size : Nat → Nat) (next : Nat) : Ctx :=
  match x.target with
  | some a => { x with pc := a, loops := if x.inHandler then x.loops else [], target := none, newLoop := none }
  | none =>
    if x.inHandler then { x with pc := next, newLoop := none }
    else
      let p := nextPlace size next x.loops x.newLoop
      { x with pc := p.addr, loops := p.loops, newLoop := none }

/-- A bundle that has issued: the schedule count, the program counter, the flag hold, and the waits of its flip. DEDUCED (log entry 94):
the counts follow R34, R37 and R38 where R238 gives one of its two kernels another. -/
def State.finishBundle (s : State) (c : Nat) (p : Plan) : State :=
  let x := s.ctx c
  let quiet := x.inHandler
  let moved := !quiet && x.flip.isNone
  let y := x.advance (s.sizeAt c) s.slot.next
  let y := { y with
    count := if moved then x.count + 1 else x.count
    last := x.pc, seq := x.seq + 1, redo := none, noBrk := false, walked := [], leaving := false
    hold := max x.hold (s.cycle + flagHold x (s.acting c p.todo))
    holdFor := x.holdReads (s.acting c p.todo) }
  let y := if s.slot.leave || x.leaving then y.leaveHandler else y
  let t := s.setCtx c y
  if quiet then t else (t.landDrains c x.count).settleFlip c

/-- What is left of a syllable that trapped between its two results goes as it issues again (16 R231, log entry 57). -/
def Ctx.replaced (x : Ctx) (todo : List Syl) : List Result :=
  x.inflight.filter fun r => !(r.seq == x.seq && todo.any fun y => y.pos == r.pos)

/-- The bundle of a plan issues. -/
def State.issuePlan (s : State) (c : Nat) (p : Plan) : Host.Outcome State Fault Refusal :=
  let s := s.updCtx c fun x =>
    { x with
      birth := some (x.birth.getD s.cycle)
      inflight := if x.redo.isSome then x.replaced p.todo else x.inflight
      lidx := if x.inHandler then x.lidx else noteLoops x.lidx x.loops
      usedX := x.usedX || p.todo.any fun y => classOf y.instr == 9 }
  let t := s.openSlot c (s.ctx c).pc p.bundle.quads
  let t := t.draw c (s.acting c p.todo)
  match runSyls (issueOrder p.todo) t with
  | .fault f => .fault f
  | .refused r => .refused r
  | .next u =>
    let u := if (u.ctx c).level = 2 then u else u.updCore (coreOf c) fun k => { k with issued := some (p.bundle.occupied c) }
    match firstRaised u.slot.raised with
    | some r => .next (u.trapBundle c p r)
    | none => match p.masked.foldl (fun (m : Option Nat) q => some (match m with | some n => min n q | none => q)) none with
      | some q => .next (u.trapBundle c p { cause := .debug, cond := 2, pos := q })
      | none => .next (u.finishBundle c p)

/-! ### A turn -/

/-- The cause that a FLIP's cycle is lost to: a writer, publication, or a barrier (R38). -/
def FlipWait.cause (w : FlipWait) : Nat :=
  if w.landedAt.isNone then 1 else if w.pub != .none && !w.released then 3 else 2

/-- One cycle of a FLIP wait: the schedule count goes on, and what is due lands. -/
def State.waitTurn (s : State) (c : Nat) (w : FlipWait) : State :=
  let s := if (s.ctx c).level = 2 then s else s.lose c w.cause w.baddr w.pos
  let t := s.updCtx c fun x => ({ x with count := x.count + 1 }).landDue s.cycle
  (t.landDrains c (t.ctx c).count).settleFlip c

/-- A monitor's debug stop (18 R246), at the boundary or in a FLIP wait. -/
def State.haltTurn (s : State) (c : Nat) : State :=
  let x := s.ctx c
  let fixed := s.fixedAt c
  s.setCtx c (match x.redo, x.flip with
    | some d, _ => x.takeTrap s.cycle { cause := .debug, cond := 3 } x.pc x.pc (d ||| fixed) false
    | none, some w => x.takeTrap s.cycle { cause := .debug, cond := 3, pos := w.pos } w.baddr w.baddr (0xFFF - 2 ^ w.pos) true
    | none, none => x.takeTrap s.cycle { cause := .debug, cond := 3 } x.pc x.pc fixed false)

/-- A context for which the merge has just denied the other one issues its bundle. -/
def State.prevail (s : State) (c : Nat) : Host.Outcome State Fault Refusal :=
  let s := { s with served := c :: s.served }.updCtx c (Ctx.landDue s.cycle)
  match s.look c with
  | .error _ => .next s
  | .ok p => (s.setDenied c false).issuePlan c p

/-- A bundle that nothing holds back issues, unless the merge denies it: then the bundle that it is denied for issues in the same
cycle (R58). DESIGN CHOICE (log entry 53): a context that would prevail but whose bundle comes up only after the other's has issued in the
cycle, as when the owner has resumed it meanwhile, presents it from the next cycle on, and nothing is denied. -/
def State.mergeTurn (s : State) (c : Nat) (p : Plan) : Host.Outcome State Fault Refusal :=
  match s.deniedBy c (p.bundle.occupied c) with
  | some q =>
    if s.prevails c && s.served.contains (siblingOf c) then .next s else
    let t := (s.setDenied c true).loseAll c [(5, denialPos p.bundle q)]
    if s.served.contains (siblingOf c) then .next t else t.prevail (siblingOf c)
  | none => (s.setDenied c false).issuePlan c p

/-- A context's turn at a boundary: what is due lands, the waits are looked at, and the bundle issues or traps. DESIGN CHOICE (log entry
77): the pages of a bundle's own quads are missed one after another, and before those of its accesses, at the locked level too, where
the pages of the accesses are then walked two at a time (02 R345, 09 R164). -/
def State.bundleTurn (s : State) (c : Nat) : Host.Outcome State Fault Refusal :=
  let s := s.updCtx c (Ctx.landDue s.cycle)
  let x := s.ctx c
  match s.look c with
  | .error e =>
    let m := s.misses c [] 1
    if !m.isEmpty then .next ((s.setDenied c false).translate c m)
    else if x.holding s.cycle then .next (s.setDenied c false)
    else .next ((s.setDenied c false).setCtx c ({ x with walked := [] }.takeTrap s.cycle e.raised x.pc x.pc e.done false))
  | .ok p =>
    let m := s.misses c (s.acting c p.todo) p.bundle.quads
    let w := s.waits c p
    if m.isEmpty && w.isEmpty && !x.holding s.cycle then s.mergeTurn c p
    else
      let t := s.setDenied c false
      let t := if m.isEmpty then t else t.translate c m
      .next (t.loseAll c (if x.level = 2 then w.filter fun a => a.1 != 3 else w))

/-- A context takes its turn in this cycle; one that is to be pre-empted stands at its boundary or in its FLIP wait (16 R234). -/
def State.turn (s : State) (c : Nat) : Host.Outcome State Fault Refusal :=
  let x := s.ctx c
  if !x.alive || s.served.contains c then .fault .notEnabled
  else
    let s := { s with served := c :: s.served }
    if x.halt then .next (s.haltTurn c)
    else if x.preempt then .next s
    else match x.flip, x.redo with
      | some w, none => .next (s.waitTurn c w)
      | _, _ => s.bundleTurn c

end Sys2Proof.Machine
end

