-- ==== Sys2Proof/Machine/Agenda.lean ====
section
/-! DEFINITION. The turns that a step is made of: the end of an arithmetic cycle (00 R2), the errors that strike memories
(09 R155, R156; 07 R139), and the order in which the agents of the device move when the agenda names none. Which agent moves
next is the model's own (log entry 1): the spec orders what R17, R175 and the rules of each part order, and no more. -/
namespace Sys2Proof.Machine

/-! ### The end of a cycle -/

/-- R61: the watchdog counts while a packet is at the head, and the queue is not halted; after its own kill until the contexts of the
killed kernel have stopped (log entry 47). -/
def State.watchCounts (s : State) (p q : Nat) : Bool :=
  let x := s.queue p q
  !x.packets.isEmpty && (x.halt.isNone || (x.acted == 2 && !(s.stuck p q).isEmpty))

/-- The watchdogs of a partition count one cycle. -/
def State.countWatch (s : State) (p : Nat) : State :=
  ((s.part p).queues.map Prod.fst).foldl (fun t q =>
    if t.watchCounts p q then t.updQueue p q fun x => { x with watch := x.watch + 1 } else t) s

/-- Whether a cycle has written all eight bytes of a scratchpad word, which is then free of errors (log entry 13). -/
def CoreSt.rewrote (k : CoreSt) (word : Nat) : Bool :=
  (List.range 8).all fun i => let a := 8 * word + i; k.drained.contains a || k.stored.contains a || k.moved.contains a

/-- Scratchpad reads of the next cycle see what this one has written (09 R145), the drains of this cycle between two tasks too. -/
def CoreSt.nextCycle (cycle : Nat) (k : CoreSt) : CoreSt :=
  let y := k.drainNow fun d => match d.till with | some t => t ≤ cycle | none => false
  { y with
    spad0 := y.spad
    bad := y.bad.filter fun w => !y.rewrote w
    issued := none
    drained := []
    stored := []
    moved := [] }

/-- Whether the end of a cycle changes a core. -/
def CoreSt.stale (k : CoreSt) : Bool :=
  k.spad0 != k.spad || k.issued.isSome || !k.drained.isEmpty || !k.stored.isEmpty || !k.moved.isEmpty || k.drains.any fun d => d.till.isSome

/-- The arithmetic cycle ends: records that the cycle has not continued are written, watchdogs count, the monitors' actions
take effect, and the monitors sample the new cycle. -/
def State.tick (s : State) : State :=
  let s := s.engines.foldl State.countWait ((s.ctxs.map Prod.fst).foldl State.endRecords s)
  let s := (s.parts.map Prod.fst).foldl (fun t p => (t.countWatch p).applyActs p) s
  let s := ((s.cores.filter fun k => k.2.stale).map Prod.fst).foldl (fun t k => t.updCore k (CoreSt.nextCycle s.cycle)) s
  let s := { s with cycle := s.cycle + 1, served := [] }
  (s.parts.map Prod.fst).foldl State.sample s

/-! ### Errors -/

/-- R156: an uncorrectable error of a line of a cluster cache: a line with dirty bytes, not yet flushed or pending there, is
poisoned, another is dropped. -/
def State.strikeLine (s : State) (k line : Nat) : State :=
  let pends := s.pendsAt k line
  s.updCluster k fun y =>
    if pends || y.unflushed.any fun u => u.loc / 256 == line then
      if y.poisoned.contains line then y else { y with poisoned := line :: y.poisoned }
    else { y with lines := y.lines.filter fun l => l != line }

/-- A cell of a bank takes a value that its residue does not match. -/
def Bank.strike (b : Bank) (cell : Nat) (acc : BitVec 48) : Bank :=
  { b with cells := Tab.upd {} b.cells cell fun x => { x with acc } }

/-- R139: a wrong value in the array of a core. -/
def State.strikeCell (s : State) (core bank cell : Nat) (acc : BitVec 48) : State :=
  s.updCore core fun k => { k with arr :=
    if bank = 0 then { k.arr with bank0 := k.arr.bank0.strike cell acc } else { k.arr with bank1 := k.arr.bank1.strike cell acc } }

/-! ### One turn -/

/-- A version request whose step could still be taken in the cycle of its resolution, the last in which it may be (14 R213, R215). -/
def State.versionDue (s : State) (c : Nat) (r : Result) : Bool :=
  r.isVar && !r.ready && r.resolved ((s.ctx c).level == 2) (s.ctx c).turnCount s.cycle
    && s.verReqs.zipIdx.any fun (v, n) => v.ctx == c && v.res == r.id && s.canVer v.pub n

/-- A result of the locked level whose syllable has a step that could still be taken in the cycle in which it is due: its atomic, or
one that has to perform before it (10 R173). -/
def State.stepDue (s : State) (c : Nat) (r : Result) : Bool :=
  r.isVar && !r.ready && r.due ≤ (s.ctx c).turnCount
    && s.atomics.any fun a => a.ctx == c && a.res == r.id
      && s.atomics.zipIdx.any fun (b, n) => b.ctx == c && b.inst == a.inst && s.canAtomic n

/-- Whether the merge keeps a context's turn back below the locked level: what the core's other context has to do at its boundary
comes first, its start and its next task too, and of the two turns that of context 0, which looks at what both present (03 R58). -/
def State.mergeHeld (s : State) (c : Nat) : Bool :=
  let o := siblingOf c
  (s.ctx c).level != 2 && (s.ctx o).level != 2 && !s.served.contains o
    && (s.canStart o || s.canTask o || ((s.ctx o).alive && (c % 2 == 1 || s.boundary o)))

/-- Whether a context's turn in this cycle has to wait for another step of the cycle: the report of a fault that is found (16 R229),
an interrupt (02 R43), a version step that is due (14 R213, R215), the merge; and at the locked level a walk or a result that is
due, an operand of a port, and what the core's engines do (16 R225). -/
def State.held (s : State) (c : Nat) : Bool :=
  let x := s.ctx c
  s.boundary c || x.inflight.any (s.versionDue c) || s.mergeHeld c || (x.level == 2
    && ((s.walks.zipIdx.any fun (w, n) => w.who == .bundle c && s.canWalk n) || x.inflight.any (s.stepDue c)
      || ((List.range 4).any fun n => (s.arriving c n).isSome) || s.lockedTag || s.lockedWork (coreOf c)))

/-- What a context leaves undone in a cycle that cannot end without it: its turn; what it has to do at its boundary; an exchange whose
waits are over; its start after a clear; a random word, while there is room (06 R110); at the locked level the next task, a release,
an operand of a port. -/
def State.ctxPressing (s : State) (c : Nat) : Bool :=
  let x := s.ctx c
  (x.alive && !s.served.contains c) || s.boundary c || s.canExchange c || s.canStart c || s.canFill c || (x.level == 2
    && (s.canTask c || s.canRelease c || (List.range 4).any fun n => s.canFetch c n || (s.arriving c n).isSome))

/-- What the arithmetic cycle cannot end without (03 R54, R58, R59, R61; 06 R110; 10 R175, R177; 16 R224, R225; 18 R246): the turns and the
exchanges of the contexts, what is due in it at the locked level, the steps of the watchdogs, a held write that has reached its time,
the monitors' actions, the lines that a full set gives up, and the end of an election window or of a lease (19 R260). -/
def State.pressing (s : State) : Bool :=
  (s.ctxs.any fun x => s.ctxPressing x.1) || s.lockedChunk || s.lockedDone || s.lockedTag
    || (s.walks.zipIdx.any fun (w, n) => w.isLocked && s.canWalk n)
    || ((List.range s.tagWrites.length).any s.canExpire)
    || (s.parts.any fun p => p.2.monsPending || p.2.queues.any fun q => s.watchPressing p.1 q.1)
    || (s.clusters.any fun k => !(s.overfull k.1).isEmpty) || s.electionOver || s.leaseOver

/-- The steps below the locked level whose commits wait for room for the images that they must keep (10 R170, 03 R59): those of engines
and COPY packets, atomics, tagged writes, PUBLISH packets and the accesses of other devices. A flip and a VERPUB ask by
themselves (`State.canRelease`, `State.canVer`). DESIGN CHOICE (log entry 63): a replacement and what the hardware writes for itself (records,
logs, dumps, saved contexts, capture pages, pins) wait for none. -/
def State.asksRoom (s : State) : Instr → Bool
  | .engineChunkPerform n => (s.engines[n]?).any fun e => e.level != 2
  | .atomicPerform n => (s.atomics[n]?).any fun a => (s.ctx a.ctx).level != 2
  | .taggedWriteArrive n => (s.tagWrites[n]?).any fun w => w.peer.isSome || match w.cmd with
    | some k => !(s.engines.any fun e => e.id == k && e.level == 2)
    | none => (s.ctxFor w.kernel w.ctx).level != 2
  | .publish .. | .fabricGlobalAccess _ => true
  | _ => false

/-- A step without a syllable, taken where its commits keep the order of R169 and find the room that they wait for. -/
def State.takeStep (s : State) (i : Instr) : Host.Outcome State Fault Refusal :=
  match exec i s with
  | .next t => if s.keepsOrder t && (!s.asksRoom i || s.roomFor t) then .next t else .fault .notEnabled
  | o => o

/-- A turn of the agenda. A syllable is none: it runs inside a bundle only. -/
def State.runTurn (s : State) : Turn → Host.Outcome State Fault Refusal
  | .event i => if classOf i = 0 then s.takeStep i else .fault .notAStep
  | .issue c => if s.held c then .fault .notEnabled else s.turn c
  | .readRegister src block reg => s.sendRegister src block reg
  | .tick => if s.pressing then .fault .notEnabled else .next s.tick
  | .upsetDram a => .next (if s.badDram.contains (a / 32) then s else { s with badDram := a / 32 :: s.badDram })
  | .corrected n => .next { s with health := Tab.upd 0 s.health n (· + 1) }
  | .upsetSpad k a => .next (s.updCore k fun y => if y.bad.contains (a / 8) then y else { y with bad := a / 8 :: y.bad })
  | .upsetLine k l => .next (s.strikeLine k l)
  | .upsetL1 k l => .next (s.updCore k fun y => { y with l1 := y.l1.filter fun a => a.line != l })
  | .upsetReadOnly .. => .next s
  | .upsetCell k b n v => .next (s.strikeCell k b n v)

/-! ### Who moves next (log entry 1) -/

/-- What a context may have to do besides its turn. -/
def State.ctxSteps (s : State) (c : Nat) : List Instr :=
  let x := s.ctx c
  (x.inflight.filterMap fun r => if r.isVar then some (.variableResultLand c r.id) else none)
    ++ [.contextStart c, .taskStart c, .preemption c, .lateFaultReport c, .faultRecordWrite c, .handlerEntry c
      , .flipRelease c, .flipExchange c, .contextFree c]
    ++ (x.ports.flatMap fun w => if w.2.glob then [.portOperandAvailable c w.1, .portOperandFetch c w.1] else [])

/-- What a queue may have to do. -/
def queueSteps (p q : Nat) : List Instr :=
  [.launch p q, .copy p q, .copyComplete p q, .depEvent p q, .depPageSet p q, .depComplete p q, .signal p q
  , .setdetQueue p q, .setdetPartition p q, .setdetComplete p q, .publish p q, .captureStart p q, .captureStop p q
  , .captureResume p q, .markOn p q, .markOff p q, .markDecl p q, .markSnap p q, .markMode p q
  , .watchdogPreempt p q, .watchdogKill p q, .watchdogFence p q]

/-- What a partition may have to do. -/
def State.partSteps (s : State) (p : Nat) : List Instr :=
  ((s.part p).mons.flatMap fun m => [.monitorFailure p m.1, .monitorRelationHolds p m.1])
    ++ [.tlbinvComplete p, .dumpComplete p, .dumpEngineFault p, .rerunCompare p, .kernelDispatch p]
    ++ (s.part p).queues.flatMap fun q => if q.2.packets.isEmpty then [] else queueSteps p q.1

/-- What a cluster may have to do: a set that holds too many lines gives up one of a free choice (log entry 13). -/
def State.clusterSteps (s : State) (j : Nat) : List Instr :=
  match s.overfull j with
  | [] => []
  | l => [.replacementWriteback j (l.getD (Config.cacheVictim s.fresh % l.length) 0)]

/-- What the memory system and the engines may have to do. -/
def State.trafficSteps (s : State) : List Instr :=
  let upTo := fun {α : Type} (l : List α) (f : Nat → Instr) => (List.range l.length).map f
  upTo s.walks .translationWalkComplete
    ++ (s.walksWaiting.map fun w => .walkerStart w.cluster)
    ++ upTo s.atomics .atomicPerform
    ++ s.verReqs.zipIdx.map (fun (v, n) => if v.pub then .verpubStep n else .verswStep n)
    ++ upTo s.tagWrites .taggedWriteArrive
    ++ upTo s.tagWrites .heldWriteTimeout
    ++ upTo s.engines .engineChunkPerform
    ++ upTo s.engines .engineComplete

/-- Every step without a syllable that may be enabled, in the order in which the model tries them. -/
def State.candidates (s : State) : List Instr :=
  (s.parts.flatMap fun p => s.partSteps p.1)
    ++ (s.ctxs.flatMap fun c => s.ctxSteps c.1)
    ++ s.trafficSteps
    ++ (s.clusters.flatMap fun k => s.clusterSteps k.1)
    ++ (s.saved.map fun v => .contextRestore v.c)
    ++ (s.captures.map fun c => .capturePageWrite c.region)
    ++ [.electionClose, .leaseExpiry]
    ++ (List.range s.services.length).map .liveServiceOperationComplete

/-- The first of some steps that may be taken. -/
def firstEnabled (s : State) : List Instr → Option State
  | [] => none
  | i :: t =>
    match s.takeStep i with
    | .next u => some u
    | _ => firstEnabled s t

/-- The move that the model makes when the agenda names none: a step without a syllable, else the turn of the first context
that has had none in this cycle, else a random word, else the end of the cycle. -/
def State.idleTurn (s : State) : Host.Outcome State Fault Refusal :=
  match firstEnabled s s.candidates with
  | some u => .next u
  | none =>
    match s.ctxs.find? fun x => x.2.alive && !s.served.contains x.1 with
    | some x => s.turn x.1
    | none =>
      match firstEnabled s (s.ctxs.map fun x => .randomWordFill x.1) with
      | some u => .next u
      | none => .next s.tick

/-- One move of the device. -/
def State.move (s : State) : Host.Outcome State Fault Refusal :=
  match s.agenda with
  | [] => s.idleTurn
  | t :: rest => { s with agenda := rest }.runTurn t

/-! ### Placing an instruction (log entry 1) -/

/-- The page that a placed bundle is fetched from: virtual address 0 on, 1 GB, with R, W and X, at device physical address 0. -/
def placedPage : TlbEntry := { part := 0, va := 0, size := 2, word0 := 2 ^ 63 + 2 * 2 ^ 60 + 7 * 2 ^ 57, word1 := 0 }

/-- The address of a placed bundle. -/
def placedAt : Nat := 0x1000

/-- A bundle of one quad: a syllable and three NOPs, as its bytes (R62). -/
def placedBytes (w : Nat) : List (Nat × Byte) :=
  cellsAt placedAt (bytesOf 4 w ++ bytesOf 4 0x20000000 ++ bytesOf 4 0x20000000 ++ bytesOf 4 0x20000000)

/-- A region table at address 0 of which no region is VALID (14 R210). -/
def placedTable : List (Nat × Byte) := (List.range 8).map fun r => (128 * r + 7, 0)

/-- Context 0 at the boundary before the placed bundle. -/
def Ctx.placed (x : Ctx) : Ctx :=
  { x with
    run := .running, pc := placedAt, alloc := { scnt := 64, vcnt := 32, ecnt := 32, spad := 2048, spbase := 0 }
    flip := none, handler := none, redo := none, stop := none, halt := false, hold := 0, holdFor := none, noBrk := true
    walked := [], leaving := false
    loops := [], newLoop := none, target := none }

/-- The device with a syllable in a bundle at which context 0 of partition 0 stands, and the next turn given to it. -/
def State.placeWord (s : State) (w : Nat) : State :=
  let s := s.updPart 0 fun x => { x with on := true, w := 1, h := 1 }
  let s := s.updCluster 0 fun k => { k with part := some 0 }
  let s := s.updCore 0 fun k => { k with tlb := placedPage :: k.tlb }
  let s := s.updCtx 0 Ctx.placed
  { s with
    dram := Memory.writeAll s.dram (placedBytes w ++ placedTable)
    badDram := s.badDram.filter fun a => a != placedAt / 32
    poisoned := s.poisoned.filter fun l => l != placedAt / 256
    vrtbase := 0, served := [], agenda := [.issue 0] }

end Sys2Proof.Machine
end

