-- ==== Sys2Proof/Machine/Step.lean ====
section
/-! DEFINITION. The step of the device, and the placing of one instruction where the next step issues it. -/
namespace Sys2Proof.Machine

/-- One step: the agent that the agenda names moves, or, with no agenda, the one that the model chooses (log entry 1). -/
def step (s : State) : Host.Outcome State Fault Refusal := s.move

/-- The instruction of an opcode-table row placed where the very next step issues it: a program is loaded into DRAM by a
queue packet or by the owner over the fabric, and a LAUNCH starts it (log entry 1); this stands for that load. -/
def State.withFetchWord (s : State) (nbits w : Nat) : State := s.placeWord (w % 2 ^ nbits)

end Sys2Proof.Machine
end

