-- ==== Sys2Proof/Safety.lean ====
section
/-! DEFINITION. What counts as a safe run, and the terms in which claims about the machine are made: the canonical form of
its tables, a syllable that issues normally, and the results that it puts in flight. -/
namespace Sys2Proof.Machine

/-- A safe run: every step of it answers a next state. -/
def SafeRun : Nat → State → Prop
  | 0, _ => True
  | n + 1, s => ∃ t, step s = .next t ∧ SafeRun n t

/-- The canonical form of memory and of the device's tables by number (log entry 3): contexts, cores, clusters, partitions, bytes of
other devices, tags, corrected errors, lent vaults and routes. Numbers are strictly rising, and no entry equals what an unlisted number
holds. -/
structure State.Canonical (s : State) : Prop where
  ctxs     : Tab.wf {} s.ctxs = true
  cores    : Tab.wf {} s.cores = true
  clusters : Tab.wf {} s.clusters = true
  parts    : Tab.wf {} s.parts = true
  dram     : Memory.wf s.dram = true
  remote   : Tab.wf none s.remote = true
  tags     : Tab.wf 0 s.tags = true
  health   : Tab.wf 0 s.health = true
  vlend    : Tab.wf 0 s.vlend = true
  routes   : Tab.wf 0 s.routes = true

/-- A syllable issues normally at its slot: it meets no row of R73, its guard is true (R25), and no operand of a port that
it reads traps (R311). -/
abbrev Normal (i : Instr) (s : State) : Prop :=
  verdict i s = none ∧ guardHolds i s = true ∧ s.portFault i = none

/-- Room for `n` more results in flight (R231): entries that stand for a fault alone are none (log entry 57). -/
abbrev State.Room (s : State) (n : Nat) : Prop := s.cur.results + n ≤ 64

/-- A flag traps: its bit of TE in FLGEN is set (R112). -/
abbrev State.Enabled (s : State) (f : Flags) : Prop := f &&& s.cur.trapMask ≠ 0

/-- The `k`-th result of the syllable at the slot (R34, R35, R230): bytes `ben` of `val` for a register, `lval` for the
latch of the slot's unit, `lat` cycles after issue, with flags. -/
def State.resultOf (s : State) (k : Nat) (file : RFile) (reg : Nat) (ben : Pred) (val lval : Vec) (lat : Nat)
    (fl : Flags := 0) : Result :=
  { id := s.cur.seq * 64 + s.slot.pos * 4 + k, file, reg, ben, val, unit := s.slot.unit, lval
    due := s.cur.count + lat, pos := s.slot.pos, seq := s.cur.seq, baddr := s.slot.baddr, flags := fl
    fslot := s.slot.fslot, syl := s.slot.word
    late := if s.slot.ecc then some { cause := .dataError, pos := s.slot.pos } else none }

/-- Results enter flight, and nothing else changes. -/
def State.withResults (s : State) (rs : List Result) : State :=
  s.setCtx s.slot.ctx { s.cur with inflight := s.cur.inflight ++ rs }

/-- A trap at the slot, raised in a state `t` reached from `s`: the operands of ports that the syllable has read are put back,
since it issues again (log entry 11); its random numbers are not, since it has issued (R109). -/
def State.trapped (s t : State) (r : Raised) : State :=
  let u : State := { t with slot := { t.slot with raised := { r with pos := t.slot.pos } :: t.slot.raised } }
  u.updCur fun x => { x with ports := s.cur.ports }

/-- R112, R268: enabled flags trap `lat` cycles after issue, all the syllable's flags set their bits when the trap is raised, and
no result enters flight. -/
def State.flagTrap (s t : State) (fl : Flags) (lat : Nat) : State :=
  s.trapped t { cause := .arithFlag, cond := lowestFlag (fl &&& t.cur.trapMask), after := lat, flags := fl, fslot := t.slot.fslot }

/-- The file of a scalar result: s0 discards writes, and a suppressed result reaches its latch only (R23, R66). -/
def State.scalarFile (s : State) (d : BitVec 6) : RFile := if s.slot.lend.ws ∨ d = 0 then .latch else .s

/-- A 64-bit result for an s-register, `lat` cycles after issue; a member of the scalar unit takes one cycle (R272). -/
def State.scalarResult (s : State) (d : BitVec 6) (v : Word64) (fl : Flags := 0) (lat : Nat := 1) : State :=
  s.withResults [s.resultOf 0 (s.scalarFile d) d.toNat 0xFF (v.setWidth 1024) (v.setWidth 1024) lat fl]

/-- What a handler register takes (R44); a suppressed result goes nowhere (R66). -/
def State.handlerResult (s : State) (d : BitVec 6) (v : Word64) : State :=
  if s.slot.lend.ws then s else s.updCur fun x => { x with h := Tab.set 0 x.h d.toNat v }

/-- A fault of a syllable without a result, found `lat` cycles after its issue, waits in flight in an entry that reaches no register
and no latch (R229, R230); for a store it holds the data, and the tag of an STQ. -/
def State.lateEntry (s : State) (lat a : Nat) (isVar : Bool) (data tag : Nat) (q : Raised) : Result :=
  { s.resultOf 0 .latch 0 0 (BitVec.ofNat 1024 tag) (BitVec.ofNat 1024 data) lat with
    unit := none, isVar, at_ := s.cycle + lat, ea := a, late := some { q with pos := s.slot.pos } }

/-- The data error of a syllable of class 8 whose port gave it a word with an uncorrectable error (R156, R229). -/
def State.portError (s : State) : State := s.withResults [s.lateEntry 1 0 false 0 0 { cause := .dataError }]

/-- Another device refuses a store: its answer comes 3,072 cycles after issue (R165, R229). -/
def State.storeRefusedBy (s : State) (a data tag : Nat) (q : Raised) : State :=
  { s with fresh := s.fresh + 1 }.withResults [s.lateEntry 3072 a true data tag { q with faddr := a }]

/-- The file of a vector result: a suppressed one reaches its latch only (R66). -/
def State.vectorFile (s : State) : RFile := if s.slot.lend.ws then .latch else .v

/-- The bit of the lane predicate lent to the syllable that stands for byte `j`; set for every byte with none lent (R25). -/
def State.laneBit (s : State) (j : Nat) : Bool :=
  s.slot.lend.lp == 0 || (s.cur.readP (8 + s.slot.lend.lp)).getLsbD j

/-- A vector result of `wbits` bits in elements of `eb` bits (R25, R28, R268): the bytes below the width land, those of
an element whose lane predicate bit is clear do not; an element's bit is that of its lowest byte, and elements narrower than
a byte share the bit of their byte. The latch takes the whole value, zero-extended. -/
structure VectorResult (s : State) (r : Result) (d : BitVec 5) (wbits eb lat : Nat) (fl : Flags) : Prop where
  shape : r = s.resultOf 0 s.vectorFile d.toNat r.ben r.val r.val lat fl
  short : r.val.toNat < 2 ^ wbits
  bytes : ∀ j, j < 128 → r.ben.getLsbD j =
    (decide (j < wbits / 8) && s.laneBit (max 1 (eb / 8) * (j / max 1 (eb / 8))))

/-- Element `k` of `n` bits of a value. -/
def element (n : Nat) (v : Nat) (k : Nat) : BitVec n := BitVec.ofNat n (v / 2 ^ (n * k))

/-- The flags of the active elements among `n` elements of `eb` bits (R268). -/
def State.elementFlags (s : State) (eb n : Nat) (f : Nat → Flags) : Flags :=
  (List.range n).foldl (fun acc k => if s.laneBit (eb * k / 8) then acc ||| f k else acc) 0

/-- The effective address of an access (R301): the base, an s-register or a latch, plus an offset in units of `z` bytes,
modulo 2^64. -/
def State.effective (s : State) (base : BitVec 6) (off : Int) (z : Nat) : Nat :=
  (BitVec.ofNat 64 (s.sa base.toNat) + BitVec.ofInt 64 (off * z)).toNat

/-- The signed offset of R70: six bits, or 31 with an extension. -/
def State.offset31 (s : State) (imm : BitVec 6) : Int :=
  match s.slot.lend.ext with
  | none => imm.toInt
  | some e => (BitVec.ofNat 25 e ++ imm).toInt

/-- The signed offset of LD: six bits, or 24 with the upper bits of an extension (R70). -/
def State.offset24 (s : State) (imm : BitVec 6) : Int :=
  match s.slot.lend.ext with
  | none => imm.toInt
  | some e => (BitVec.ofNat 18 (e / 128) ++ imm).toInt

/-- A result of variable latency (R35, R229): its effective address, about when it arrives, and the fault found after
issue. -/
def Result.awaited (r : Result) (ea about : Nat) (late : Option Raised) : Result :=
  { r with isVar := true, ea, at_ := about, late := (r.late.map fun x => { x with faddr := ea }).or late }

/-- A refused access traps at its slot with the cause, condition and address given (R227). -/
def State.refused (s t : State) (r : Raised) : State := s.trapped t { cause := r.cause, cond := r.cond, faddr := r.faddr }

/-- Packet `k` of a type stands at the head of a queue that runs: its partition is on and not stopped, the queue is not
halted, and its record is not owed (R56, R250). -/
structure State.AtHead (s : State) (p q : Nat) (k : QPacket) (ty : Nat) : Prop where
  on    : (s.part p).on = true
  live  : (s.part p).dead = false
  runs  : (s.queue p q).halt = none
  first : ∃ l, (s.queue p q).packets = k :: l
  known : k.owed = false
  isTy  : pkType k.pk = ty

/-- The owner reaches the device: there is one, it has sent something in the last LEASE cycles, and the ports carry its traffic
(R260, R264). -/
abbrev State.Reached (s : State) : Prop :=
  s.owner.id.isSome = true ∧ s.cycle < s.owner.heard + s.owner.lease ∧ s.alarm = none

/-- A syllable that has read what it reads, which leaves the state `t`, and gives `n` elements of `eb` bits with flags: enabled
flags trap; else one vector result enters flight with the flags of its active elements, zero above its elements. -/
def FloatElements (i : Instr) (s t : State) (d : BitVec 5) (wbits eb lat n : Nat) (f : Nat → Nat × Flags) : Prop :=
  let fl := t.elementFlags eb n fun k => (f k).2
  Normal i s → t.Room 1 →
    if t.Enabled fl then exec i s = .next (s.flagTrap t fl lat)
    else ∃ r, exec i s = .next (t.withResults [r]) ∧ VectorResult t r d wbits eb lat fl ∧ r.val.toNat < 2 ^ (eb * n) ∧
      ∀ k < n, element eb r.val.toNat k = BitVec.ofNat eb (f k).1

/-- A compare of elements of `eb` bits over `wbits` bits (R189, R331): enabled flags trap; else a predicate pair enters
flight, each byte below the width taking its element's condition and the opposite of it, the bytes above it 0 in both; the
latch takes all ones in each true element. Suppressed, the latch alone. -/
def CompareElements (i : Instr) (s : State) (pair wbits eb lat : Nat) (cond : Nat → Bool) (fl : Flags) : Prop :=
  let t := s.popPorts i
  Normal i s → t.Room 2 →
    if t.Enabled fl then exec i s = .next (s.flagTrap t fl lat)
    else ∃ (yes no : Pred) (l : Vec),
      exec i s = .next (if t.slot.lend.ws then
          t.withResults [t.resultOf 0 .latch (2 * pair) 0xFFFF (yes.setWidth 1024) l lat fl]
        else t.withResults [t.resultOf 0 .p (2 * pair) 0xFFFF (yes.setWidth 1024) l lat fl,
          t.resultOf 1 .p (2 * pair + 1) 0xFFFF (no.setWidth 1024) l lat]) ∧
      (∀ j, j < 128 → yes.getLsbD j = (decide (j < wbits / 8) && cond (j / (eb / 8)))) ∧
      (∀ j, j < 128 → no.getLsbD j = (decide (j < wbits / 8) && !cond (j / (eb / 8)))) ∧
      ∀ j, j < 1024 → l.getLsbD j = (decide (j < wbits) && cond (j / eb))

end Sys2Proof.Machine
end

