-- ==== Sys2Proof/Certificates/Slice0/Obligations.lean ====
section
/-! DEFINITION. The statements about the model. Each docstring says which rules of the spec a statement formalises; OBLIGATIONS.json
lists them. -/
open Sys2Proof Sys2Proof.Machine

/-! ### Class 1 -/

/-- R272, R273: outside the completion handler ADD, SUB, MUL, MULH, MULHU, AND, OR, XOR, SHL, SHR, SRA, MIN and MAX put one
64-bit result in flight, one cycle after issue, and change nothing else: no flag, no register before it lands, no memory, no
program counter. A and B are what the sources give: a register, a latch, or the immediate. -/
def Claims.ScalarArithmeticResults : Prop :=
  ∀ (g : BitVec 3) (d a b : BitVec 6) (im : Bool) (s : State), s.cur.inHandler = false → s.Room 1 →
    let A := BitVec.ofNat 64 (s.sa a.toNat)
    let B := BitVec.ofNat 64 (s.aluB b im)
    let n := B.toNat % 64
    (Normal (.add g d a b im) s → exec (.add g d a b im) s = .next (s.scalarResult d (A + B))) ∧
    (Normal (.sub g d a b im) s → exec (.sub g d a b im) s = .next (s.scalarResult d (A - B))) ∧
    (Normal (.mul g d a b im) s → exec (.mul g d a b im) s = .next (s.scalarResult d (A * B))) ∧
    (Normal (.mulh g d a b im) s → exec (.mulh g d a b im) s =
      .next (s.scalarResult d (((A.signExtend 128 * B.signExtend 128) >>> 64).setWidth 64))) ∧
    (Normal (.mulhu g d a b im) s → exec (.mulhu g d a b im) s =
      .next (s.scalarResult d (((A.setWidth 128 * B.setWidth 128) >>> 64).setWidth 64))) ∧
    (Normal (.and g d a b im) s → exec (.and g d a b im) s = .next (s.scalarResult d (A &&& B))) ∧
    (Normal (.or g d a b im) s → exec (.or g d a b im) s = .next (s.scalarResult d (A ||| B))) ∧
    (Normal (.xor g d a b im) s → exec (.xor g d a b im) s = .next (s.scalarResult d (A ^^^ B))) ∧
    (Normal (.shl g d a b im) s → exec (.shl g d a b im) s = .next (s.scalarResult d (A <<< n))) ∧
    (Normal (.shr g d a b im) s → exec (.shr g d a b im) s = .next (s.scalarResult d (A >>> n))) ∧
    (Normal (.sra g d a b im) s → exec (.sra g d a b im) s = .next (s.scalarResult d (A.sshiftRight n))) ∧
    (Normal (.min g d a b im) s → exec (.min g d a b im) s = .next (s.scalarResult d (if A.sle B then A else B))) ∧
    (Normal (.max g d a b im) s → exec (.max g d a b im) s = .next (s.scalarResult d (if A.sle B then B else A)))

/-- R273: DIV and REM outside the handler, with the flags that go with their result where none of them is enabled; an
enabled flag sets its bits and traps one cycle after issue, and no result enters flight (R112, R268). -/
def Claims.ScalarDivisionResults : Prop :=
  ∀ (g : BitVec 3) (d a b : BitVec 6) (im : Bool) (s : State), s.cur.inHandler = false → s.Room 1 →
    let A := BitVec.ofNat 64 (s.sa a.toNat)
    let B := BitVec.ofNat 64 (s.aluB b im)
    let fd : Flags := if B = 0 then flDZ else if A = BitVec.intMin 64 ∧ B = -1 then flOF else 0
    let fr : Flags := if B = 0 then flDZ else 0
    (Normal (.div g d a b im) s → exec (.div g d a b im) s =
      .next (if s.Enabled fd then s.flagTrap s fd 1 else s.scalarResult d (if B = 0 then -1 else A.sdiv B) fd)) ∧
    (Normal (.rem g d a b im) s → exec (.rem g d a b im) s =
      .next (if s.Enabled fr then s.flagTrap s fr 1 else s.scalarResult d (A.srem B) fr))

/-- R303, R307, R318: MOV, MVE, MFE, LI and SEL outside the handler. SEL selects by its guard, and its result enters
flight whatever the guard is. The immediate of LI is 13 bits, or 38 with an extension. -/
def Claims.ScalarMoveResults : Prop :=
  ∀ (g : BitVec 3) (d a b : BitVec 6) (im : Bool) (imm : BitVec 13) (s : State), s.cur.inHandler = false → s.Room 1 →
    let A := BitVec.ofNat 64 (s.sa a.toNat)
    let B := BitVec.ofNat 64 (s.sb b.toNat)
    let wide : Word64 := match s.slot.lend.ext with
      | none => imm.signExtend 64
      | some e => (BitVec.ofNat 25 e ++ imm).signExtend 64
    (Normal (.mov g d a b im) s → exec (.mov g d a b im) s = .next (s.scalarResult d A)) ∧
    (Normal (.mve g d a b im) s → exec (.mve g d a b im) s =
      .next (s.withResults [s.resultOf 0 (if s.slot.lend.ws then .latch else .e) d.toNat 0xFF (A.setWidth 1024) (A.setWidth 1024) 1])) ∧
    (Normal (.mfe g d a b im) s → exec (.mfe g d a b im) s = .next (s.scalarResult d (s.cur.readE a.toNat))) ∧
    (Normal (.li g d imm) s → exec (.li g d imm) s = .next (s.scalarResult d wide)) ∧
    (Normal (.sel g d a b im) s → exec (.sel g d a b im) s = .next (s.scalarResult d (if s.cur.guard g then A else B)))

/-- R278: CMP writes a whole predicate and its complement one cycle after issue, and its latch takes 1 or 0; suppressed, it
reaches its latch only. -/
def Claims.ScalarComparePair : Prop :=
  ∀ (g : BitVec 3) (c : Cond) (d a b : BitVec 6) (im : Bool) (s : State), Normal (.cmp g c d a b im) s → s.Room 2 →
    let A := BitVec.ofNat 64 (s.sa a.toNat)
    let B := BitVec.ofNat 64 (s.aluB b im)
    let t : Bool := match c with
      | .eq => A == B | .ne => A != B | .lt => A.slt B | .ge => B.sle A | .ltu => A.ult B | .geu => B.ule A
      | .le => A.sle B | .gt => B.slt A
    let yes : Vec := if t then 2 ^ 128 - 1 else 0
    let no : Vec := if t then 0 else 2 ^ 128 - 1
    let l : Vec := if t then 1 else 0
    exec (.cmp g c d a b im) s = .next (if s.slot.lend.ws then
        s.withResults [s.resultOf 0 .latch (2 * d.toNat) 0xFFFF yes l 1]
      else s.withResults [s.resultOf 0 .p (2 * d.toNat) 0xFFFF yes l 1, s.resultOf 1 .p (2 * d.toNat + 1) 0xFFFF no l 1])

/-- Class 1 outside the completion handler: the claims before, together. -/
def Obligations.ScalarUnit : Prop :=
  Claims.ScalarArithmeticResults ∧ Claims.ScalarDivisionResults ∧ Claims.ScalarMoveResults ∧ Claims.ScalarComparePair

/-- R44: in the completion handler the class 1 syllables that run there act on h0 to h7 as they stood before the bundle, and
give no latch, flag or in-flight result; a suppressed result goes nowhere. -/
def Obligations.ScalarHandlerResults : Prop :=
  ∀ (g : BitVec 3) (d a b : BitVec 6) (im : Bool) (imm : BitVec 13) (s : State), s.cur.inHandler = true →
    let A := BitVec.ofNat 64 (s.hreg a.toNat)
    let B := BitVec.ofNat 64 (if im then s.imm6 b else s.hreg b.toNat)
    let n := B.toNat % 64
    (Normal (.add g d a b im) s → exec (.add g d a b im) s = .next (s.handlerResult d (A + B))) ∧
    (Normal (.sub g d a b im) s → exec (.sub g d a b im) s = .next (s.handlerResult d (A - B))) ∧
    (Normal (.mul g d a b im) s → exec (.mul g d a b im) s = .next (s.handlerResult d (A * B))) ∧
    (Normal (.mulh g d a b im) s → exec (.mulh g d a b im) s =
      .next (s.handlerResult d (((A.signExtend 128 * B.signExtend 128) >>> 64).setWidth 64))) ∧
    (Normal (.mulhu g d a b im) s → exec (.mulhu g d a b im) s =
      .next (s.handlerResult d (((A.setWidth 128 * B.setWidth 128) >>> 64).setWidth 64))) ∧
    (Normal (.div g d a b im) s → exec (.div g d a b im) s = .next (s.handlerResult d (if B = 0 then -1 else A.sdiv B))) ∧
    (Normal (.rem g d a b im) s → exec (.rem g d a b im) s = .next (s.handlerResult d (A.srem B))) ∧
    (Normal (.and g d a b im) s → exec (.and g d a b im) s = .next (s.handlerResult d (A &&& B))) ∧
    (Normal (.or g d a b im) s → exec (.or g d a b im) s = .next (s.handlerResult d (A ||| B))) ∧
    (Normal (.xor g d a b im) s → exec (.xor g d a b im) s = .next (s.handlerResult d (A ^^^ B))) ∧
    (Normal (.shl g d a b im) s → exec (.shl g d a b im) s = .next (s.handlerResult d (A <<< n))) ∧
    (Normal (.shr g d a b im) s → exec (.shr g d a b im) s = .next (s.handlerResult d (A >>> n))) ∧
    (Normal (.sra g d a b im) s → exec (.sra g d a b im) s = .next (s.handlerResult d (A.sshiftRight n))) ∧
    (Normal (.min g d a b im) s → exec (.min g d a b im) s = .next (s.handlerResult d (if A.sle B then A else B))) ∧
    (Normal (.max g d a b im) s → exec (.max g d a b im) s = .next (s.handlerResult d (if A.sle B then B else A))) ∧
    (Normal (.mov g d a b im) s → exec (.mov g d a b im) s = .next (s.handlerResult d A)) ∧
    (Normal (.li g d imm) s → exec (.li g d imm) s = .next (s.handlerResult d (BitVec.ofNat 64 (liImm imm s))))

/-! ### Class 3 -/

/-- R329: the two-operand members of the vector integer mould, element by element, two cycles after issue. What the ports
they pop give is read as before the bundle; a pop advances its walk, and nothing else changes. -/
def Claims.VectorIntegerLanes : Prop :=
  ∀ (g : BitVec 3) (w : Width) (z : ESize) (u : Bool) (d a b : BitVec 5) (s : State),
    let run := fun (i : Instr) (f : BitVec z.bits → BitVec z.bits → BitVec z.bits) =>
      let t := s.popPorts i
      Normal i s → t.Room 1 → ∃ r, exec i s = .next (t.withResults [r]) ∧ VectorResult t r d w.bits z.bits 2 0 ∧
        ∀ k < w.bits / z.bits, element z.bits r.val.toNat k =
          f (element z.bits (t.va a.toNat) k) (element z.bits (t.vb b.toNat) k)
    run (.vadd g w z u d a b) (fun x y => x + y) ∧
    run (.vsub g w z u d a b) (fun x y => x - y) ∧
    run (.vmul g w z u d a b) (fun x y => x * y) ∧
    run (.vmulh g w z u d a b) (fun x y =>
      if u then ((x.setWidth (2 * z.bits) * y.setWidth (2 * z.bits)) >>> z.bits).setWidth z.bits
      else ((x.signExtend (2 * z.bits) * y.signExtend (2 * z.bits)) >>> z.bits).setWidth z.bits) ∧
    run (.vand g w z u d a b) (fun x y => x &&& y) ∧
    run (.vor g w z u d a b) (fun x y => x ||| y) ∧
    run (.vxor g w z u d a b) (fun x y => x ^^^ y) ∧
    run (.vshl g w z u d a b) (fun x y => x <<< (y.toNat % z.bits)) ∧
    run (.vshr g w z u d a b) (fun x y => x >>> (y.toNat % z.bits)) ∧
    run (.vsra g w z u d a b) (fun x y => x.sshiftRight (y.toNat % z.bits)) ∧
    run (.vmin g w z u d a b) (fun x y => if (if u then x.ule y else x.sle y) then x else y) ∧
    run (.vmax g w z u d a b) (fun x y => if (if u then x.ule y else x.sle y) then y else x)

/-- R327, R339, R340, R331: the other members of class 3, two cycles after issue. VABS and VCNT work element by element;
VSEL takes each byte from A where the lane predicate lent to it has the byte's bit and from B elsewhere, and all its bytes
land; VREDI puts the reduction over all elements into element 0 and zero into the others; VCMP writes a predicate pair. -/
def Claims.VectorIntegerOthers : Prop :=
  ∀ (g : BitVec 3) (w : Width) (z : ESize) (u : Bool) (c : Cond) (d a b sel : BitVec 5) (pair : BitVec 3) (s : State),
    let n := w.bits / z.bits
    let unary := fun (i : Instr) (f : BitVec z.bits → BitVec z.bits) =>
      let t := s.popPorts i
      Normal i s → t.Room 1 → ∃ r, exec i s = .next (t.withResults [r]) ∧ VectorResult t r d w.bits z.bits 2 0 ∧
        ∀ k < n, element z.bits r.val.toNat k = f (element z.bits (t.va a.toNat) k)
    let cond := fun (x y : BitVec z.bits) => match c with
      | .eq => x == y | .ne => x != y | .lt => x.slt y | .ge => y.sle x | .ltu => x.ult y | .geu => y.ule x
      | .le => x.sle y | .gt => y.slt x
    unary (.vabs g w z u d a) (fun x => if x.msb then -x else x) ∧
    unary (.vcnt g w z u d a) (fun x => BitVec.ofNat z.bits ((List.range z.bits).countP fun j => x.getLsbD j)) ∧
    (let i := Instr.vsel g w z u d a b
     let t := s.popPorts i
     Normal i s → t.Room 1 → ∃ r : Result, exec i s = .next (t.withResults [r]) ∧
       r = t.resultOf 0 t.vectorFile d.toNat r.ben r.val r.val 2 0 ∧
       (∀ j, j < 128 → r.ben.getLsbD j = decide (j < w.bits / 8)) ∧
       ∀ j, j < 1024 → r.val.getLsbD j = (decide (j < w.bits) &&
         if t.laneBit (j / 8) then (t.va a.toNat).testBit j else (t.vb b.toNat).testBit j)) ∧
    (let i := Instr.vredi g w z u d a sel
     let t := s.popPorts i
     let x := fun k => element z.bits (t.va a.toNat) k
     let le := fun (p q : BitVec z.bits) => if u then p.ule q else p.sle q
     Normal i s → t.Room 1 → ∃ r, exec i s = .next (t.withResults [r]) ∧ VectorResult t r d w.bits z.bits 2 0 ∧
       r.val.toNat < 2 ^ z.bits ∧
       let y := element z.bits r.val.toNat 0
       (sel = 0 → y = (List.range n).foldl (fun acc k => acc + x k) 0) ∧
       (sel = 1 → (∃ k < n, y = x k) ∧ ∀ k < n, le (x k) y) ∧
       (sel = 2 → (∃ k < n, y = x k) ∧ ∀ k < n, le y (x k))) ∧
    (let i := Instr.vcmp g c w z u pair a b
     let t := s.popPorts i
     CompareElements i s pair.toNat w.bits z.bits 2
       (fun k => cond (element z.bits (t.va a.toNat) k) (element z.bits (t.vb b.toNat) k)) 0)

/-- Class 3: the claims before, together. -/
def Obligations.VectorIntegerUnit : Prop :=
  Claims.VectorIntegerLanes ∧ Claims.VectorIntegerOthers

/-! ### Class 4 -/

/-- R291, R296, R298, R113: FADD, FSUB, FMUL, FMIN, FMAX, FMA and FSCA, element by element, four cycles after issue, in the
format of the syllable and the mode of FRM. FMA and FSCA add to the destination's visible face; the multiplier of FSCA is
BF16 at a distance of 16 bits. An enabled flag traps, and that the operands of ports are then put back is log entry 11. -/
def Claims.FloatLanes : Prop :=
  ∀ (g : BitVec 3) (w : Width) (f : FFmt) (sat : Bool) (d a b : BitVec 5) (s : State),
    let run := fun (i : Instr) (op : State → Nat → Nat → Nat → Nat × Flags) =>
      let t := s.popPorts i
      FloatElements i s t d w.bits f.bits 4 (w.bits / f.bits) fun k =>
        op t k (element f.bits (t.va a.toNat) k).toNat (element f.bits (t.vb b.toNat) k).toNat
    let acc := fun (t : State) k => (element f.bits (t.cur.readV d.toNat).toNat k).toNat
    run (.fadd g w f sat d a b) (fun t _ x y => (fmtOf f).add sat t.mode x y) ∧
    run (.fsub g w f sat d a b) (fun t _ x y => (fmtOf f).sub sat t.mode x y) ∧
    run (.fmul g w f sat d a b) (fun t _ x y => (fmtOf f).mul sat t.mode x y) ∧
    run (.fmin g w f sat d a b) (fun _ _ x y => (fmtOf f).pick false x y) ∧
    run (.fmax g w f sat d a b) (fun _ _ x y => (fmtOf f).pick true x y) ∧
    run (.fma g w f sat d a b) (fun t k x y => (fmtOf f).fma (fmtOf f) sat t.mode x y (acc t k)) ∧
    run (.fsca g w f sat d a b) (fun t k x _ =>
      (fmtOf f).fma bf16 false t.mode x (element 16 (t.vb b.toNat) k).toNat (acc t k))

/-- R289, R297, R292, R114: FABS and FNEG change the sign bit alone and set no flag; FRED combines all elements in pairs,
level by level, whatever the lane predicate is, into element 0, with the flags of every node; FCMP writes a predicate pair
with the flags of every element. What the trap of an enabled flag puts back is log entry 11. -/
def Claims.FloatOthers : Prop :=
  ∀ (g : BitVec 3) (w : Width) (f : FFmt) (sat : Bool) (c : FCond) (d a b sel : BitVec 5) (pair : BitVec 3) (s : State),
    let n := w.bits / f.bits
    let sign := fun (i : Instr) (op : BitVec f.bits → BitVec f.bits) =>
      let t := s.popPorts i
      Normal i s → t.Room 1 → ∃ r, exec i s = .next (t.withResults [r]) ∧ VectorResult t r d w.bits f.bits 4 0 ∧
        ∀ k < n, element f.bits r.val.toNat k = op (element f.bits (t.va a.toNat) k)
    sign (.fabs g w f sat d a) (fun x => x &&& ~~~(BitVec.intMin f.bits)) ∧
    sign (.fneg g w f sat d a) (fun x => x ^^^ BitVec.intMin f.bits) ∧
    (let i := Instr.fred g w f sat d a sel
     let t := s.popPorts i
     let node := if sel = 0 then (fmtOf f).add false t.mode else (fmtOf f).pick (sel = 1)
     let y := tree node (Nat.log2 n) ((List.range n).map fun k => (element f.bits (t.va a.toNat) k).toNat)
     Normal i s → t.Room 1 →
       if t.Enabled y.2 then exec i s = .next (s.flagTrap t y.2 4)
       else ∃ r, exec i s = .next (t.withResults [r]) ∧ VectorResult t r d w.bits f.bits 4 y.2 ∧
         r.val.toNat = y.1) ∧
    (let i := Instr.fcmp g c w f sat pair a b
     let t := s.popPorts i
     let e := fun k => (fmtOf f).compare c (element f.bits (t.va a.toNat) k).toNat (element f.bits (t.vb b.toNat) k).toNat
     CompareElements i s pair.toNat w.bits f.bits 4 (fun k => (e k).1) ((List.range n).foldl (fun acc k => acc ||| (e k).2) 0))

/-- Class 4: the claims before, together. -/
def Obligations.VectorFloatUnit : Prop :=
  Claims.FloatLanes ∧ Claims.FloatOthers

/-! ### Class 6 -/

/-- R293, R294, R115: the special functions, element by element; FEXP2, FLOG2, FRCP and FRSQ land ten cycles after issue,
FSQRT and FDIV fourteen. What the trap of an enabled flag puts back is log entry 11. -/
def Obligations.SpecialFunctionLanes : Prop :=
  ∀ (g : BitVec 3) (w : Width) (f : FFmt) (d a b : BitVec 5) (s : State),
    let run := fun (i : Instr) (lat : Nat) (op : RMode → Nat → Nat → Nat × Flags) =>
      let t := s.popPorts i
      FloatElements i s t d w.bits f.bits lat (w.bits / f.bits) fun k =>
        op t.mode (element f.bits (t.va a.toNat) k).toNat (element f.bits (t.vb b.toNat) k).toNat
    run (.fexp2 g w f d a) 10 (fun m x _ => (fmtOf f).exp2 m x) ∧
    run (.flog2 g w f d a) 10 (fun m x _ => (fmtOf f).log2 m x) ∧
    run (.frcp g w f d a) 10 (fun m x _ => (fmtOf f).rcp m x) ∧
    run (.frsq g w f d a) 10 (fun m x _ => (fmtOf f).rsqrt m x) ∧
    run (.fsqrt g w f d a) 14 (fun m x _ => (fmtOf f).sqrt m x) ∧
    run (.fdiv g w f d a b) 14 (fun m x y => (fmtOf f).div m x y)

/-- R104, R105, R115: special values of FP32 in every mode. A sum of opposite infinities, zero times infinity, 0/0 and the
root of a negative number are invalid, with the default NaN; a finite number over zero is an infinity with DZ; the sum of a
number and its opposite is +0, or −0 where the mode rounds down; a quiet NaN operand comes back with its quiet bit set and
no flag. -/
def Obligations.FloatSpecialValues : Prop :=
  ∀ (mode : RMode) (sat : Bool) (x : Nat), x < 2 ^ 31 →
    (fp32.add sat mode 0x7F800000 0xFF800000 = (0x7FC00000, flNV)) ∧
    (fp32.mul sat mode 0 0x7F800000 = (0x7FC00000, flNV)) ∧
    (fp32.div mode 0 0 = (0x7FC00000, flNV)) ∧
    (0 < x → x < 0x7F800000 → fp32.sqrt mode (x + 2 ^ 31) = (0x7FC00000, flNV) ∧
      fp32.div mode x 0 = (0x7F800000, flDZ) ∧ fp32.div mode (x + 2 ^ 31) 0 = (0xFF800000, flDZ) ∧
      fp32.add sat mode x (x + 2 ^ 31) = (if mode = .rd then 2 ^ 31 else 0, 0)) ∧
    (∀ y, y < 0x7F800000 → 0x7FC00000 ≤ x → fp32.add sat mode x y = (x, 0) ∧ fp32.mul sat mode y x = (x, 0))

/-! ### Class 5 -/

/-- R283 to R286, R312: CVT converts n = W / max(ss, ds) elements; QNT makes a block of 32 E4M3 codes and its scale, or four
blocks of eight PLY16 codes and their scales; DQNT gives 32 FP32 elements. All land six cycles after issue. A native random
source counts one use, which the trap of an enabled flag does not take back; that the trap puts back the operands of ports is log
entry 11. -/
def Obligations.Conversions : Prop :=
  ∀ (g : BitVec 3) (w : Width) (src dst : CFmt) (d a : BitVec 5) (rnd : Rnd) (mode : BitVec 2) (s : State),
    (let i := Instr.cvt g w src d a dst rnd
     let p := s.popPorts i
     FloatElements i s (p.rndUse rnd) d w.bits (cfmtBits dst) 6 (w.bits / max (cfmtBits src) (cfmtBits dst)) fun k =>
       convertElement src dst (rndMode p.cur.frm rnd (p.rndWord rnd) k) (element (cfmtBits src) (p.va a.toNat) k).toNat) ∧
    (let i := Instr.dqnt g w mode d a
     let p := s.popPorts i
     let x := p.va a.toNat
     FloatElements i s p d 1024 32 6 32 fun k =>
       if mode = 0 then mxDequantize p.mode (element 8 x 32).toNat (element 8 x k).toNat
       else plyDequantize (element 8 x (64 + k / 8)).toNat (element 16 x k).toNat) ∧
    (let i := Instr.qnt g w mode d a rnd
     let p := s.popPorts i
     let t := p.rndUse rnd
     let m := fun k => rndMode p.cur.frm rnd (p.rndWord rnd) k
     let x := fun k => fp32.value (element 32 (p.va a.toNat) k).toNat
     let mx := mxQuantize m ((List.range 32).map x)
     let ply := fun (j : Nat) => plyQuantize (fun k => m (8 * j + k)) ((List.range 8).map fun k => x (8 * j + k))
     let eb := if mode = 0 then 8 else 16
     let y := fun (k : Nat) => if mode = 0 then mx.1.getD k (0, 0) else (ply (k / 8)).1.getD (k % 8) (0, 0)
     let fl := t.elementFlags eb 32 fun k => (y k).2
     Normal i s → t.Room 1 →
       if t.Enabled fl then exec i s = .next (s.flagTrap t fl 6)
       else ∃ r : Result, exec i s = .next (t.withResults [r]) ∧
         r = t.resultOf 0 t.vectorFile d.toNat r.ben r.val r.val 6 fl ∧
         (∀ j, j < 128 → r.ben.getLsbD j = t.laneBit (if j < 4 * eb then eb / 8 * (j / (eb / 8)) else j)) ∧
         (∀ k < 32, element eb r.val.toNat k = BitVec.ofNat eb (y k).1) ∧
         if mode = 0 then element 8 r.val.toNat 32 = BitVec.ofNat 8 mx.2 ∧ r.val.toNat < 2 ^ 264
         else (∀ j < 4, element 8 r.val.toNat (64 + j) = BitVec.ofNat 8 (ply j).2) ∧ r.val.toNat < 2 ^ 544)

/-- R334 to R338, R330, R341, R317, R111: the members of class 5 that move elements, six cycles after issue. That VMOVP to a
vector lets each byte land by its own bit of the lane predicate is the model's reading (log entry 12). -/
def Obligations.PermutationLanes : Prop :=
  ∀ (g : BitVec 3) (w : Width) (z : ESize) (d a b : BitVec 5) (s : State),
    let n := w.bits / z.bits
    let run := fun (i : Instr) (eb : Nat) (count : Nat) (f : State → Nat → BitVec eb) =>
      let t := s.popPorts i
      Normal i s → t.Room 1 → ∃ r, exec i s = .next (t.withResults [r]) ∧ VectorResult t r d w.bits eb 6 0 ∧
        r.val.toNat < 2 ^ (eb * count) ∧ ∀ k < count, element eb r.val.toNat k = f t k
    let mix := fun (key c : Word64) =>
      let z0 := key + c * 0x9E3779B97F4A7C15
      let z1 := (z0 ^^^ (z0 >>> 30)) * 0xBF58476D1CE4E5B9
      let z2 := (z1 ^^^ (z1 >>> 27)) * 0x94D049BB133111EB
      z2 ^^^ (z2 >>> 31)
    run (.vperm g w z d a b) z.bits n (fun t k =>
      element z.bits (t.va a.toNat) ((element z.bits (t.vb b.toNat) k).toNat % n)) ∧
    run (.vbcast g w z false d a) z.bits n (fun t _ => BitVec.ofNat z.bits (t.va a.toNat)) ∧
    run (.vbcast g w z true d a) z.bits n (fun t _ => BitVec.ofNat z.bits (t.sa a.toNat)) ∧
    run (.vseq g w z d a b) z.bits n (fun t k =>
      BitVec.ofNat z.bits (t.sa a.toNat) + BitVec.ofNat z.bits k * BitVec.ofNat z.bits (t.sb b.toNat)) ∧
    run (.rngc g w z d a b) z.bits n (fun t k =>
      (mix (BitVec.ofNat 64 (t.sa a.toNat)) (BitVec.ofNat 64 (t.sb b.toNat) + BitVec.ofNat 64 k)).setWidth z.bits) ∧
    run (.vmovp g w false d a) 8 16 (fun t k => element 8 (t.cur.readP a.toNat).toNat k) ∧
    run (.vins g w z d a b) z.bits n (fun t k =>
      if k = t.sb b.toNat % n then BitVec.ofNat z.bits (t.sa a.toNat) else element z.bits (t.cur.readV d.toNat).toNat k) ∧
    (let i := Instr.vext g w z d a b
     let t := s.popPorts i
     Normal i s → t.Room 1 → exec i s = .next (t.scalarResult (d.setWidth 6)
       ((element z.bits (t.va a.toNat) (t.sb b.toNat % n)).setWidth 64) 0 6)) ∧
    (let i := Instr.vmovp g w true d a
     let t := s.popPorts i
     Normal i s → t.Room 1 → exec i s = .next (t.withResults [t.resultOf 0
       (if t.slot.lend.ws ∨ d.toNat ≤ 1 then .latch else .p) d.toNat 0xFFFF
       (BitVec.ofNat 1024 (t.va a.toNat % 2 ^ 128)) (BitVec.ofNat 1024 (t.va a.toNat % 2 ^ 128)) 6])) ∧
    (let i := Instr.visect g w z d a b
     let t := s.popPorts i
     let x := fun k => (element 32 (t.va a.toNat) k).toNat
     let y := fun k => (element 32 (t.vb b.toNat) k).toNat
     let m := Nat.min (x 31) (y 31)
     let word := fun (p : Nat → Bool) => (List.range 32).foldl (fun acc j => if p j then acc + 2 ^ j else acc) 0
     run i 32 32 fun _ k =>
       match k with
       | 0 => BitVec.ofNat 32 ((List.range 32).countP fun j => x j ≤ m)
       | 1 => BitVec.ofNat 32 ((List.range 32).countP fun j => y j ≤ m)
       | 2 => BitVec.ofNat 32 (word fun j => decide (x j ≤ m) && (List.range 32).any fun l => x j == y l)
       | 3 => BitVec.ofNat 32 (word fun j => decide (y j ≤ m) && (List.range 32).any fun l => y j == x l)
       | _ => 0)

/-! ### Class 2 -/

/-- R79, R277: NOP changes nothing. BR, JMP, CALL and RET name the next bundle, in quads from the bundle's first quad or from
a register whose bits [3:0] are zero; else the illegal-operand trap. CALL puts the address of the quad after its bundle in
flight for s63. JMP runs in the completion handler too, on h0 to h7 (R44). -/
def Claims.ControlTransfers : Prop :=
  ∀ (g : BitVec 3) (off : BitVec 20) (off19 : BitVec 19) (a : BitVec 6) (s : State),
    let away := fun (q : Word64) => (BitVec.ofNat 64 s.slot.baddr + 16 * q).toNat
    let A := if s.cur.inHandler then s.hreg a.toNat else s.sa a.toNat
    let stop := s.trapped s { cause := .illegalOperand }
    let goTo := fun (x : Nat) => s.updCur fun y => { y with target := some x }
    (Normal (.nop g) s → portsOf (.nop g) s.slot.lend = [] → exec (.nop g) s = .next s) ∧
    (Normal (.br g off) s → exec (.br g off) s = .next (goTo (away (off.signExtend 64)))) ∧
    (Normal (.jmp g a) s → exec (.jmp g a) s = .next (if A % 16 = 0 then goTo A else stop)) ∧
    (Normal (.ret g) s → exec (.ret g) s =
      .next (if (s.cur.readS 63).toNat % 16 = 0 then goTo (s.cur.readS 63).toNat else stop)) ∧
    (Normal (.call g off19) s → s.Room 1 → exec (.call g off19) s =
      .next ((goTo (away (off19.signExtend 64))).scalarResult 63 (BitVec.ofNat 64 s.slot.next))) ∧
    (Normal (.callReg g a) s → s.Room 1 → exec (.callReg g a) s =
      .next (if s.sa a.toNat % 16 = 0 then (goTo (s.sa a.toNat)).scalarResult 63 (BitVec.ofNat 64 s.slot.next) else stop))

/-- R304, R305: LOOP begins a loop of its body length and of the count in its register, with the masks of its extension;
where its level is in use or its body would outlast an active loop's body it raises the illegal-operand trap. -/
def Claims.LoopBegins : Prop :=
  ∀ (g : BitVec 3) (lvl : Fin 6) (len : BitVec 4) (cnt : BitVec 6) (s : State), Normal (.loop g lvl len cnt) s →
    let n := len.toNat + 1
    let bad := ∃ l ∈ s.cur.loops, l.lvl = lvl.val ∨ l.len < l.pos + 1 + n
    (bad → exec (.loop g lvl len cnt) s = .next (s.trapped s { cause := .illegalOperand })) ∧
    (¬ bad → exec (.loop g lvl len cnt) s = .next (s.updCur fun x => { x with newLoop := some {
      lvl := lvl.val, len := n, count := (s.cur.readS cnt.toNat).toNat
      first := match s.slot.lend.ext with | some e => e / 2 ^ 12 | none => 0
      last := match s.slot.lend.ext with | some e => e % 2 ^ 12 * 2 | none => 0
      start := s.slot.next } }))

/-- R36, R53: FLIP and RETIRE begin their waits, and nothing else changes when they issue; RETIRE releases as FLIP.nb.dv
does. -/
def Claims.FlipAndRetireBegin : Prop :=
  ∀ (g : BitVec 3) (bar : BScope) (pub : PScope) (s : State),
    (Normal (.flip g bar pub) s → exec (.flip g bar pub) s = .next (s.updCur fun x =>
      { x with flip := some { bar, pub, baddr := s.slot.baddr, pos := s.slot.pos } })) ∧
    (Normal (.retire g) s → exec (.retire g) s = .next (s.updCur fun x =>
      { x with flip := some { retire := true, pub := .device, baddr := s.slot.baddr, pos := s.slot.pos } }))

/-- R275, R326, R240: TRAP and BKPT raise the debug trap with their condition and imm8; in a bundle that issues again after a
trap they are passed over. -/
def Claims.DebugTraps : Prop :=
  ∀ (g : BitVec 3) (imm : BitVec 8) (s : State),
    let trap := fun (cond : Nat) => s.trapped s { cause := .debug, cond, imm := imm.toNat }
    (Normal (.trap g imm) s → exec (.trap g imm) s = .next (if s.slot.resumed then s else trap 1)) ∧
    (Normal (.bkpt g imm) s → exec (.bkpt g imm) s = .next (if s.slot.resumed then s else trap 0))

/-- R316: RETH ends the completion handler when its bundle has issued; outside the handler, and with a guard other than p0, it is an
illegal syllable. -/
def Claims.HandlerEnds : Prop :=
  ∀ (g : BitVec 3) (s : State),
    (Normal (.reth g) s → exec (.reth g) s = .next { s with slot := { s.slot with leave := true } }) ∧
    (s.cur.inHandler = false ∨ g ≠ 0 → exec (.reth g) s = .next (s.raise .illegalSyllable))

/-- Class 2: the claims before, together. -/
def Obligations.ControlSyllables : Prop :=
  Claims.ControlTransfers ∧ Claims.LoopBegins ∧ Claims.FlipAndRetireBegin ∧ Claims.DebugTraps ∧ Claims.HandlerEnds

/-! ### Classes 7 and 8 -/

/-- R300, R301, R157: LD and LDR. A misaligned address and a failed translation trap at the slot, and nothing is loaded; else
one result of variable latency enters flight, 160 cycles after issue or 3,072 for another device, with the bytes of the
context's view as of its place in the order of issue (R321), or those of the read-only path, zero-extended. What else changes is the caches and the count of free
choices. About when the data come below the locked level (20, 48, 96 or 3,072 cycles) is the model's choice (log entry 33), and so is
that a load of another device's memory, or of this one's by a fabric-global address, performs as it issues (log entry 34); the view of
a versioned region is log entry 21. -/
def Claims.GlobalLoads : Prop :=
  ∀ (g : BitVec 3) (d base imm : BitVec 6) (m : ASize) (s : State) (k : Reach) (r : Raised),
    let c := s.slot.ctx
    let result := fun (v : Nat) (lat a about : Nat) (late : Option Raised) =>
      (s.resultOf 0 (destFile s (dataFile m) d.toNat) d.toNat (BitVec.ofNat 128 (s.loadBen m)) (BitVec.ofNat 1024 v)
        (BitVec.ofNat 1024 v) lat).awaited a about (late.map fun q => { q with pos := s.slot.pos, faddr := a })
    let used := { s with fresh := s.fresh + 1 }
    (let i := Instr.ld g d base imm m
     let a := s.effective base (s.offset24 imm) m.bytes
     let read := s.resolve c .read false a
     Normal i s → s.Room 1 →
       (a % m.bytes ≠ 0 → exec i s = .next (s.refused s { cause := .translation, cond := 2, faddr := a })) ∧
       (a % m.bytes = 0 → read = .error r → exec i s = .next (s.refused s r)) ∧
       (a % m.bytes = 0 → read = .ok k → exec i s =
         let seen := used.cacheRead c k.loc (some s.hint)
         .next (seen.1.withResults [result (ofBytes (s.viewBytes c s.storeOrder k.ver k.loc m.bytes))
           (if (homeDpa k.loc).isSome then 160 else 3072) a (s.cycle + seen.2) (s.readFault c s.storeOrder k.loc m.bytes)]))) ∧
    (let i := Instr.ldr g d base imm m
     let a := s.effective base (s.offset31 imm) m.bytes
     let read := s.resolve c .read false a
     Normal i s → s.Room 1 →
       (a % m.bytes ≠ 0 → exec i s = .next (s.refused s { cause := .translation, cond := 2, faddr := a })) ∧
       (a % m.bytes = 0 → read = .error r → exec i s = .next (s.refused s r)) ∧
       (a % m.bytes = 0 → read = .ok k → homeDpa k.loc = none → exec i s =
         .next (used.withResults [result (ofBytes (s.viewBytes c s.storeOrder k.ver k.loc m.bytes)) 3072 a
           (s.cycle + 3072) (s.readFault c s.storeOrder k.loc m.bytes)])) ∧
       (∀ dpa, a % m.bytes = 0 → read = .ok k → homeDpa k.loc = some dpa → exec i s =
         let bytes := s.readOnlyBytes c dpa m.bytes
         .next (bytes.2.withResults [result (ofBytes bytes.1) 160 a (s.cycle + 48) (s.roError c dpa m.bytes)])))

/-- R309, R166: PF never traps and puts no result in flight. At the locked level it does nothing. Else a failed check counts
one dropped prefetch, and so does the refusal of another device; a page that a TLB holds gives the line to the L1 and the cluster
cache, or to the cluster cache alone; a page that none holds asks for a walk, which begins or joins the one in flight for that page,
or counts one prefetch that found no walker. Which accesses another device refuses is free (log entry 9). -/
def Claims.Prefetch : Prop :=
  ∀ (g : BitVec 3) (base imm : BitVec 6) (cluster : Bool) (s : State) (key : PageKey) (global : Bool),
    let i := Instr.pf g base imm cluster
    let c := s.slot.ctx
    let x := s.cur
    let a := s.effective base (s.offset31 imm) 256
    let found := s.tlbFind (coreOf c) key.part key.region key.va
    let count := fun (n : Nat) => min (n + 1) (2 ^ 32 - 1)
    Normal i s →
      (x.level = 2 → exec i s = .next s) ∧
      (x.level ≠ 2 → (∃ q n, s.aim x.part x.vpin .read a = .trap q n) →
        exec i s = .next (s.updCtx c fun y => { y with pfFault := count y.pfFault })) ∧
      (x.level ≠ 2 → s.aim x.part x.vpin .read a = .remote →
        let t := { s with fresh := s.fresh + 1 }
        exec i s = .next (if (refusalOf s.fresh a).isSome then t.updCtx c fun y => { y with pfFault := count y.pfFault } else t)) ∧
      (x.level ≠ 2 → s.aim x.part x.vpin .read a = .page key global →
        (∀ e r, found = some e → e.grant key .read false global a = .error r →
          exec i s = .next (s.updCtx c fun y => { y with pfFault := count y.pfFault })) ∧
        (∀ e k, found = some e → e.grant key .read false global a = .ok k →
          exec i s = .next (s.prefetchLine c k.loc cluster)) ∧
        (let w : Walk := { who := .prefetch c (!cluster) global, cluster := clusterOf (coreOf c), core := coreOf c, part := key.part
                           va := key.va, region := key.region }
         (found = none → s.walkerFree w = false →
           exec i s = .next (s.updCtx c fun y => { y with pfBusy := count y.pfBusy })) ∧
         (found = none → s.walkerFree w = true →
           exec i s = .next { s with walks := s.walks ++ [{ w with joined := s.walking w }] })))

/-- Loads of global memory and prefetches: the claims before, together. -/
def Obligations.LoadsAndPrefetch : Prop :=
  Claims.GlobalLoads ∧ Claims.Prefetch

/-- R301, R320, R144, R145: LDS and STS at an offset of the context's scratchpad allocation. Misaligned or beyond the
allocation they trap at their slot. LDS puts the bytes as they stood before the bundle in flight, six cycles after issue; STS
writes its bytes, which prevail over what engines and XDRAIN write in the cycle, and every other byte of the scratchpad reads as
before. A word with an uncorrectable error, read by LDS or by the port of STS, is a data error found after issue, and a trap at the slot is the
lower cause (R227): when it is known is log entry 66, and that a trap at the slot puts the operands of the ports back is log entry 11. -/
def Claims.ScratchpadAccesses : Prop :=
  ∀ (g : BitVec 3) (d base imm : BitVec 6) (m : ASize) (s : State),
    (let i := Instr.lds g d base imm m
     let a := s.effective base (s.offset31 imm) m.bytes
     let v := BitVec.ofNat 1024 (ofBytes (Memory.readN s.slot.spad (s.cur.alloc.spbase + a) m.bytes))
     let t := { s with slot := { s.slot with ecc := s.slot.ecc || s.curCore.badAt (s.cur.alloc.spbase + a) m.bytes } }
     Normal i s → s.Room 1 →
       (a % m.bytes ≠ 0 → exec i s = .next (s.refused s { cause := .translation, cond := 2, faddr := a })) ∧
       (a % m.bytes = 0 → 256 * s.cur.alloc.spad < a + m.bytes →
         exec i s = .next (s.refused s { cause := .translation, cond := 4, faddr := a })) ∧
       (a % m.bytes = 0 → a + m.bytes ≤ 256 * s.cur.alloc.spad → exec i s = .next (t.withResults [
         { t.resultOf 0 (destFile s (dataFile m) d.toNat) d.toNat (BitVec.ofNat 128 (s.loadBen m)) v v 6 with
           ea := a, late := if t.slot.ecc then some { cause := .dataError, pos := s.slot.pos, faddr := a } else none }]))) ∧
    (let i := Instr.sts g d base imm m
     let t := s.popPorts i
     let a := t.effective base (t.offset31 imm) m.bytes
     let data := bytesOf m.bytes (if m.isVector then t.vb d.toNat else t.sb d.toNat)
     let at_ := t.cur.alloc.spbase + a
     let spad := Memory.writeAll t.curCore.spad (cellsAt at_ data)
     Normal i s →
       (a % m.bytes ≠ 0 → exec i s = .next (s.refused t { cause := .translation, cond := 2, faddr := a })) ∧
       (a % m.bytes = 0 → 256 * t.cur.alloc.spad < a + m.bytes →
         exec i s = .next (s.refused t { cause := .translation, cond := 4, faddr := a })) ∧
       (a % m.bytes = 0 → a + m.bytes ≤ 256 * t.cur.alloc.spad → t.slot.ecc = true → exec i s = .next t.portError) ∧
       (a % m.bytes = 0 → a + m.bytes ≤ 256 * t.cur.alloc.spad → t.slot.ecc = false →
         exec i s = .next (t.updCurCore fun k => { k with spad, stored := (cellsAt at_ data).map Prod.fst ++ k.stored }) ∧
         (∀ n, n < at_ ∨ at_ + m.bytes ≤ n → Memory.read spad n = Memory.read t.curCore.spad n) ∧
         (Memory.wf t.curCore.spad = true → ∀ n, n < m.bytes → Memory.read spad (at_ + n) = data.getD n 0)))

/-- R141, R313, R314: the transpose queue. QPUSH adds the low 32 elements of its source as a row: to the tile being filled,
of the same element size, or to a new tile while fewer than two stand; else it traps. QPOP gives row `popped` of the
transposed front tile, element m being element `popped` of input row m, six cycles after issue; with no full front tile of
its width it traps. A row that a port gives with an uncorrectable error is not pushed, and is a data error found after issue where
the push would not trap (R227). What a trap puts back is log entry 11, and when a port's error is known log entry 66. -/
def Claims.TransposeQueue : Prop :=
  ∀ (g : BitVec 3) (d : BitVec 6) (z : QSize) (m : ASize) (s : State),
    (let i := Instr.qpush g d z
     let t := s.popPorts i
     let n := qsizeBits z
     let row := t.vb d.toNat % 2 ^ (32 * n)
     let set := fun (l : List Tile) => t.updCurCore fun k => { k with tiles := l }
     let pushes := fun (l : List Tile) =>
       (t.slot.ecc = true → exec i s = .next t.portError) ∧ (t.slot.ecc = false → exec i s = .next (set l))
     Normal i s →
       (t.curCore.tiles = [] → pushes [{ size := n, rows := [row] }]) ∧
       ∀ l q, t.curCore.tiles = l ++ [q] →
         (q.rows.length < 32 → q.size ≠ n → exec i s = .next (s.trapped t { cause := .illegalOperand })) ∧
         (q.rows.length < 32 → q.size = n → pushes (l ++ [{ q with
           rows := q.rows ++ [row], last := if q.rows.length = 31 then t.cycle else q.last }])) ∧
         (32 ≤ q.rows.length → l.length = 1 → exec i s = .next (s.trapped t { cause := .queueOverflow })) ∧
         (32 ≤ q.rows.length → l = [] → pushes [q, { size := n, rows := [row] }])) ∧
    (let i := Instr.qpop g d m
     Normal i s → s.Room 1 →
       (s.curCore.tiles = [] → exec i s = .next (s.trapped s { cause := .illegalOperand })) ∧
       ∀ q rest, s.curCore.tiles = q :: rest →
         (q.rows.length ≠ 32 ∨ 32 * q.size ≠ 8 * m.bytes → exec i s = .next (s.trapped s { cause := .illegalOperand })) ∧
         (q.rows.length = 32 → 32 * q.size = 8 * m.bytes → ∃ v : Vec,
           exec i s = .next ((s.updCurCore fun k => { k with
               tiles := if q.popped = 31 then rest else { q with popped := q.popped + 1 } :: rest }).withResults [
             s.resultOf 0 s.vectorFile d.toNat (BitVec.ofNat 128 (s.ben (8 * m.bytes) 8)) v v 6]) ∧
           v.toNat < 2 ^ (8 * m.bytes) ∧
           ∀ j < 32, element q.size v.toNat j = element q.size (q.rows.getD j 0) q.popped))

/-- The scratchpad and the transpose queue: the claims before, together. -/
def Obligations.ScratchpadAndTranspose : Prop :=
  Claims.ScratchpadAccesses ∧ Claims.TransposeQueue

/-- R319 to R322, R165, R168, R170, R216: ST and STK make their bytes pending bytes of the context, with the order of issue, and
every other pending byte and all of memory stays; misaligned, failed or beyond the locked level's budget they trap at their
slot. STK stores the token, VPIN and the phase. A byte has one pending byte, so that what was pending at its other address goes
(R321); where a later store has written the byte already it stays, and the byte stored is kept for those that read as of a place between
the two. A store that another device refuses, or whose port gave it a word with an uncorrectable error, stores nothing and carries its
fault, to which a trap at the slot is the lower cause (R227); when a refusal is known is the model's reading (log entry 66), and so are which lines the budget counts (log entry 62) and that
a trap at the slot puts the operands of ports back (log entry 11). -/
def Claims.GlobalStores : Prop :=
  ∀ (g : BitVec 3) (d base imm : BitVec 6) (m : ASize) (s : State) (k : Reach) (r : Raised),
    let run := fun (i : Instr) (n : Nat) (port : Bool) (data : State → List Byte) =>
      let t := s.popPorts i
      let a := t.effective base (t.offset31 imm) n
      let write := t.resolve t.slot.ctx .write false a
      let cells := cellsAt k.loc (data t)
      let refusal := if (homeDpa k.loc).isSome then none else refusalOf t.fresh k.loc
      let u := t.addPending cells
      let bad := port = true ∧ t.slot.ecc = true
      Normal i s →
        (a % n ≠ 0 → exec i s = .next (s.refused t { cause := .translation, cond := 2, faddr := a })) ∧
        (a % n = 0 → write = .error r → exec i s = .next (s.refused t r)) ∧
        (a % n = 0 → write = .ok k → t.cur.withinBudget cells = false →
          exec i s = .next (s.trapped t { cause := .illegalOperand })) ∧
        (a % n = 0 → write = .ok k → t.cur.withinBudget cells = true → bad → exec i s = .next t.portError) ∧
        (∀ q, a % n = 0 → write = .ok k → t.cur.withinBudget cells = true → ¬ bad → refusal = some q →
          exec i s = .next (t.storeRefusedBy a (ofBytes (data t)) 0 q)) ∧
        (a % n = 0 → write = .ok k → t.cur.withinBudget cells = true → ¬ bad → refusal = none →
          exec i s = .next (u.cacheWrite t.slot.ctx k.loc) ∧ (u.cacheWrite t.slot.ctx k.loc).dram = s.dram ∧
          (∀ loc, (∀ j < n, loc ≠ k.loc + j ∧ loc ≠ aliasOf (k.loc + j)) →
            Tab.get none u.cur.pending loc = Tab.get none t.cur.pending loc) ∧
          (Tab.wf none t.cur.pending = true → ∀ j < n,
            let order := t.cur.seq * 16 + t.slot.pos
            let byte := (data t).getD j 0
            let latest := ∀ q, t.cur.pendingNow (k.loc + j) = some q → q.2.at_ ≤ order
            (latest → Tab.get none u.cur.pending (k.loc + j) = some { byte, at_ := order } ∧
              (aliasOf (k.loc + j) ≠ k.loc + j → Tab.get none u.cur.pending (aliasOf (k.loc + j)) = none)) ∧
            ∀ q, t.cur.pendingNow (k.loc + j) = some q → order < q.2.at_ → u.cur.pendingNow (k.loc + j) = some q ∧
              { loc := k.loc + j, byte, at_ := order, till := q.2.at_ } ∈ u.cur.past))
    run (.st g d base imm m) m.bytes true (fun t => bytesOf m.bytes (if m.isVector then t.vb d.toNat else t.sb d.toNat)) ∧
    run (.stk g d base imm) 8 false (fun t => bytesOf 8
      ((BitVec.ofNat 32 (t.sb d.toNat) ++ BitVec.ofNat 16 t.cur.vpin ++ BitVec.ofNat 16 t.cur.phase).toNat))

/-- R324, R325, R165, R175: STQ sends its bytes with the expected tag to the home of their line, and the context counts one STQ that
is not yet accepted; no byte of memory changes before it arrives. One that another device refuses, or whose port gave it a word with
an uncorrectable error, sends nothing and carries its fault, to which a trap at the slot is the lower cause (R227). It reaches its vault 220 or 3,072 cycles after issue, below the locked
level by the model's choice (log entry 33); when a refusal or a port's error is known is log entry 66, and that a trap at the slot puts
the operands of ports back is log entry 11. -/
def Claims.TaggedStore : Prop :=
  ∀ (g : BitVec 3) (d base tag : BitVec 6) (m : ASize) (s : State) (k : Reach) (r : Raised),
    let i := Instr.stq g d base tag m
    let t := s.popPorts i
    let a := t.sa base.toNat
    let write := t.resolve t.slot.ctx .write false a
    let data := bytesOf m.bytes (if m.isVector then t.vb d.toNat else t.sb d.toNat)
    let home := (homeDpa k.loc).getD k.loc
    let cycles := if (homeDpa k.loc).isSome then 220 else 3072
    let expected := (t.cur.readS tag.toNat).toNat % 2 ^ 16
    let refusal := if (homeDpa k.loc).isSome then none else refusalOf t.fresh k.loc
    Normal i s →
      (a % m.bytes ≠ 0 → exec i s = .next (s.refused t { cause := .translation, cond := 2, faddr := a })) ∧
      (a % m.bytes = 0 → write = .error r → exec i s = .next (s.refused t r)) ∧
      (a % m.bytes = 0 → write = .ok k → t.slot.ecc = true → exec i s = .next t.portError) ∧
      (∀ q, a % m.bytes = 0 → write = .ok k → t.slot.ecc = false → refusal = some q →
        exec i s = .next (t.storeRefusedBy a (ofBytes data) expected q)) ∧
      (a % m.bytes = 0 → write = .ok k → t.slot.ecc = false → refusal = none → exec i s = .next {
        t.updCur fun x => { x with stqs := x.stqs + 1, stqBy := max x.stqBy (x.count + cycles) } with
        tagWrites := t.tagWrites ++ [{
          line := home / 256, tag := expected, act := .bytes (cellsAt home data)
          ctx := t.slot.ctx, part := t.cur.part, kernel := t.cur.share.kernel, baddr := t.slot.baddr, pos := t.slot.pos
          due := t.cycle + cycles, num := t.cur.seq * 64 + t.slot.pos * 4, launch := t.kernelTag t.cur.share.kernel }] })

/-- R204, R270, R274: ATOM and ACAS leave for their point of coherence with their operands, and the old value is a result that
waits for them; memory changes when the atomic performs. The scope is device, or what the extension names, or system for a
fabric-global address. -/
def Claims.AtomicsLeave : Prop :=
  ∀ (g : BitVec 3) (d base old : BitVec 6) (op : AtomOp) (dword : Bool) (s : State) (k : Reach) (r : Raised),
    let run := fun (i : Instr) (o : Option AtomOp) (n arg swap : Nat) =>
      let a := s.sa base.toNat
      let c := s.slot.ctx
      let reach := s.resolve c (if o = some .load then .read else .write) true a
      let inst : Inst := if isGlobal k.loc then .system else match s.slot.lend.ext with
        | none => .device
        | some e => if e % 4 = 1 then .cluster (clusterOf (coreOf c)) else if e % 4 = 2 then .system else .device
      let lat := if (homeDpa k.loc).isNone then 3072 else match inst with | .cluster _ => 96 | _ => 220
      Normal i s → s.Room 1 →
        (a % n ≠ 0 → exec i s = .next (s.refused s { cause := .translation, cond := 2, faddr := a })) ∧
        (a % n = 0 → reach = .error r → exec i s = .next (s.refused s r)) ∧
        (a % n = 0 → reach = .ok k → exec i s = .next {
          s.withResults [{ (s.resultOf 0 (destFile s .s old.toNat) old.toNat 0xFF 0 0 lat).awaited a s.cycle none with
            ready := false }] with
          atomics := s.atomics ++ [{
            ctx := c, res := s.cur.seq * 64 + s.slot.pos * 4, inst, loc := k.loc, size := n, op := o, arg, swap
            remote := (homeDpa k.loc).isNone }] })
    run (.atom g d base old op) (some op) (if op = .fadd32 then 4 else 8) (s.sb d.toNat) 0 ∧
    run (.acas g d base old dword) none (if dword then 8 else 4) (s.cur.readS d.toNat).toNat (s.cur.readS (d.toNat + 1)).toNat

/-- Stores to global memory and atomics: the claims before, together. -/
def Obligations.StoresAndAtomics : Prop :=
  Claims.GlobalStores ∧ Claims.TaggedStore ∧ Claims.AtomicsLeave

/-- R302, R323, R126, R207, R208: LDP and STP once the checks of R208 have passed. LDP puts 64 elements of 16 bits in flight,
each made of the plies asked for; STP makes the plies of its 64 elements pending bytes. A check that fails traps at the
slot. That the base of the window is checked first and by itself is log entry 41, which lines the budget counts log entry 62, about when
the data come log entries 33 and 86, what a trap puts back log entry 11. -/
def Claims.PliedAccesses : Prop :=
  ∀ (g : BitVec 3) (d base : BitVec 6) (win : BitVec 2) (off : BitVec 4) (plies : BitVec 2) (round : Bool) (s : State)
      (l : List (PlySpan × Nat × Nat)) (r : Raised),
    let n := plies.toNat + 1
    let n0 := s.sa base.toNat + 8 * off.toNat
    (let i := Instr.ldp g d base win off plies round
     let need := if round then 4 else n
     let check := s.pliedCheck .read (s.cur.window win.toNat) n0 64 need false fun _ _ => false
     let y := fun (k : Nat) => readPlies round n (plyElement ((List.range need).map fun j => s.plyBytes l j) k)
     let fl := s.elementFlags 16 64 fun k => (y k).2
     Normal i s → s.Room 1 →
       (check = .error r → exec i s = .next (s.refused s r)) ∧
       (check = .ok l → s.Enabled fl → exec i s = .next (s.flagTrap s fl 160)) ∧
       (check = .ok l → ¬ s.Enabled fl → ∃ (v : Vec) (ea : Nat), exec i s = .next (s.withResults [
           (s.resultOf 0 s.vectorFile d.toNat (BitVec.ofNat 128 (s.ben 1024 16)) v v 160 fl).awaited ea (s.cycle + 96)
             (s.pliedError l)]) ∧
         ∀ k < 64, element 16 v.toNat k = BitVec.ofNat 16 (y k).1)) ∧
    (let i := Instr.stp g d base win off plies
     let check := s.pliedCheck .write (s.cur.window win.toNat) n0 64 n false fun p plys => plys < p.ply
     let cells := plyCells l ((List.range 64).map fun k => (element 16 (s.cur.readV d.toNat).toNat k).toNat) (plyStart l)
     Normal i s →
       (check = .error r → exec i s = .next (s.refused s r)) ∧
       (check = .ok l → s.cur.withinBudget cells = false → exec i s = .next (s.trapped s { cause := .illegalOperand })) ∧
       (check = .ok l → s.cur.withinBudget cells = true →
         exec i s = .next (l.foldl (fun t p => (sectorsOf p.2.1 p.1.len).foldl (fun t a => t.cacheWrite s.slot.ctx a) t)
           (s.addPending cells true))))

/-- R308, R127, R128: PACC and PDEC read 32 elements with their block scales, update each under its block's scale, and make
the elements pending bytes. Their flags reach FLG when the read returns, and while some TE bit is set even none of them are waited
for; an enabled flag traps and nothing is stored. Of its causes the lowest is raised, and a delta that a port gives with an uncorrectable
error is found after issue (R227). At the locked level the read returns after 160 cycles, and while some TE bit is set
the schedule count stands still until then; below it the model takes 96 cycles (log entry 33). An infinite delta is log entry 40, when
a port's error is known log entry 66, which lines the budget counts log entry 62, the check of the window's base log entry 41, and what
a trap puts back log entry 11. -/
def Claims.PliedUpdates : Prop :=
  ∀ (g : BitVec 3) (d base : BitVec 6) (win : BitVec 2) (off : BitVec 4) (sr : Bool) (s : State)
      (l : List (PlySpan × Nat × Nat)) (r : Raised),
    let run := fun (i : Instr) (port : Bool) (f : State → Nat → RMode → Nat → Nat → Nat × Flags) =>
      let t := s.popPorts i
      let n0 := t.sa base.toNat + 8 * off.toNat
      let check := t.pliedCheck .write (t.cur.window win.toNat) n0 32 4 true fun _ plys => plys ≠ 3
      let mode := fun (k : Nat) => if sr then RMode.sr (laneRandom t.slot.word64.toNat k) else .rne
      let plies := (List.range 4).map fun j => t.plyBytes l j
      let scale := fun (k : Nat) => ((t.plyBytes l 4).map BitVec.toNat).getD (k / 8) 0
      let y := (List.range 32).map fun k =>
        if scale k = 0xFF then (plyElement plies k, flNV) else f t k (mode k) (scale k) (plyElement plies k)
      let fl := orFlags (y.map Prod.snd)
      let cells := plyCells l (y.map Prod.fst) (plyStart l)
      let u := t.updCur fun x => { x with flagsDue := if fl = 0 ∧ x.trapMask = 0 then x.flagsDue else {
        due := x.count + (if x.level = 2 ∧ x.trapMask ≠ 0 then 1 else 160), isVar := true
        at_ := t.cycle + (if x.level = 2 then 160 else 96), seq := x.seq, fslot := t.slot.fslot, baddr := t.slot.baddr
        pos := t.slot.pos, flags := fl } :: x.flagsDue }
      let bad := port = true ∧ t.slot.ecc = true
      let sound := check = .ok l ∧ t.cur.withinBudget cells = true ∧ t.pliedError l = none
      Normal i s →
        (check = .error r → exec i s = .next (s.refused t r)) ∧
        (check = .ok l → t.cur.withinBudget cells = false → exec i s = .next (s.trapped t { cause := .illegalOperand })) ∧
        (check = .ok l → t.cur.withinBudget cells = true → t.pliedError l = some r → exec i s = .next (s.refused t r)) ∧
        (sound → bad → exec i s = .next t.portError) ∧
        (sound → ¬ bad → t.Enabled fl → exec i s = .next (s.flagTrap t fl 160)) ∧
        (sound → ¬ bad → ¬ t.Enabled fl →
          exec i s = .next (l.foldl (fun v p => (sectorsOf p.2.1 p.1.len).foldl (fun v a => v.cacheWrite t.slot.ctx a) v)
            (u.addPending cells true)))
    run (.pacc g d base win off sr) true (fun t k mode sc x => paccElement mode sc x (element 32 (t.vb d.toNat) k).toNat) ∧
    run (.pdec g d base win off sr) false (fun t _ mode sc x => pdecElement mode sc x ((t.cur.readE d.toNat).toNat % 2 ^ 32))

/-- The plied accesses: the claims before, together. -/
def Obligations.PliedSyllables : Prop :=
  Claims.PliedAccesses ∧ Claims.PliedUpdates

/-! ### Class 9 -/

/-- R133, R136: what XACC and XSHIFT do to a cell of their bank. XACC adds the other bank's accumulator, saturating at plus and minus
2^47 - 1, joins the poison of both, and clears the other bank; XSHIFT multiplies by 16, saturating alike; the configurations stay. The
member saturates, for which AOV stands, where the exact value of some cell lies outside. -/
def Claims.ArrayCells : Prop :=
  ∀ (m : MatrixArray) (bank : Bool) (n : Nat), Tab.wf {} (m.bank bank).cells = true → Tab.wf {} (m.bank !bank).cells = true → n < 8192 →
    let top : Int := 2 ^ 47 - 1
    let sat := fun (x : Int) => max (-top) (min top x)
    let mine := fun (k : Nat) => Tab.get {} (m.bank bank).cells k
    let other := fun (k : Nat) => Tab.get {} (m.bank !bank).cells k
    let sum := fun (k : Nat) => (mine k).acc.toInt + (other k).acc.toInt
    let shifted := fun (k : Nat) => 16 * (mine k).acc.toInt
    let a := m.accumulate bank
    let b := m.shift bank
    let ca := Tab.get {} (a.1.bank bank).cells n
    let cb := Tab.get {} (b.1.bank bank).cells n
    ca.acc.toInt = sat (sum n) ∧ ca.poison = ((mine n).poison || (other n).poison) ∧
    Tab.get {} (a.1.bank !bank).cells n = {} ∧
    cb.acc.toInt = sat (shifted n) ∧ cb.poison = (mine n).poison ∧ Tab.get {} (b.1.bank !bank).cells n = other n ∧
    (∀ k : Bool, (a.1.bank k).i = (m.bank k).i ∧ (a.1.bank k).j = (m.bank k).j ∧ (a.1.bank k).dexp = (m.bank k).dexp ∧
      (a.1.bank k).drain = (m.bank k).drain ∧ (b.1.bank k).i = (m.bank k).i ∧ (b.1.bank k).j = (m.bank k).j ∧
      (b.1.bank k).dexp = (m.bank k).dexp ∧ (b.1.bank k).drain = (m.bank k).drain) ∧
    (a.2 = true ↔ ∃ k < 8192, sat (sum k) ≠ sum k) ∧ (b.2 = true ↔ ∃ k < 8192, sat (shifted k) ≠ shifted k)

/-- R136, R343, R138, R139: XCFG, XPUSH, XACC and XSHIFT act on the array at issue. A saturating member whose AOV is enabled
traps and leaves the array as it was; else AOV reaches FLG.X a cycle later. XPUSH takes the operands of its four ports, and
one of a word with an uncorrectable error raises the data error and adds nothing. XDRAIN turns two rows of a bank into FP32,
clears them, and writes them through w0 twelve cycles after issue; of its causes the lowest is raised (R227): a chunk that traps, an
enabled flag, a cell whose residue disagrees. What a trap puts back of the ports is the model's reading (log entry 11). -/
def Claims.ArraySyllables : Prop :=
  ∀ (g : BitVec 3) (bank : Bool) (pa pb : BitVec 2) (dexp : BitVec 8) (s : State),
    let due := fun (t : State) (x : Ctx) (fl : Flags) (lat : Nat) =>
      { x with
        usedX := true
        flagsDue := if fl = 0 then x.flagsDue else
          { due := x.count + lat, seq := x.seq, fslot := t.slot.fslot, baddr := t.slot.baddr, pos := t.slot.pos, flags := fl } :: x.flagsDue }
    let aov := fun (t : State) (r : MatrixArray × Bool) =>
      let fl := if r.2 then flAOV else 0
      if t.Enabled fl then s.flagTrap t fl 1
      else (t.updCurCore fun k => { k with arr := r.1 }).updCur fun x => due t x fl 1
    let m := s.curCore.arr
    (Normal (.xcfg g bank pa pb dexp) s → exec (.xcfg g bank pa pb dexp) s = .next (
      (s.updCurCore fun k => { k with arr :=
        { m.setBank bank { m.bank bank with i := pa.toNat, j := pb.toNat, dexp := dexp.toInt, drain := 0 } with
          cur := bank, beat := 0 } }).updCur fun x => { x with usedX := true })) ∧
    (Normal (.xpush g) s →
      let t := s.popPorts (.xpush g)
      let op := fun n => match t.port n with | .ok v => v | .error _ => 0
      (t.slot.ecc = false → exec (.xpush g) s = .next (aov t (t.curCore.arr.push (op 0) (op 1) (op 2) (op 3)))) ∧
      (t.slot.ecc = true → exec (.xpush g) s = .next
        { s.trapped t { cause := .dataError } with slot := { (s.trapped t { cause := .dataError }).slot with ecc := false } })) ∧
    (Normal (.xacc g bank) s → exec (.xacc g bank) s = .next (aov s (m.accumulate bank))) ∧
    (Normal (.xshift g bank) s → exec (.xshift g bank) s = .next (aov s (m.shift bank))) ∧
    (Normal (.xdrain g bank) s →
      let b := m.bank bank
      let w := Tab.get {} s.cur.ports 4
      let z := 2 ^ w.clog
      let cells := (List.range 128).map fun k => Tab.get {} b.cells (64 * b.drain + k)
      let wrong := ∃ c ∈ cells, c.poison = false ∧ (c.value % 15).toNat ≠ c.res.toNat
      let chunks := drainChunks w s.cur.alloc (w.popped * (512 / z)) (512 / z)
      let y := cells.map b.drainCell
      let fl := orFlags (y.map Prod.snd)
      (∀ r, chunks = .error r → exec (.xdrain g bank) s = .next (s.refused s r)) ∧
      (∀ offs, chunks = .ok offs → s.Enabled fl → exec (.xdrain g bank) s = .next (s.flagTrap s fl 11)) ∧
      (∀ offs, chunks = .ok offs → ¬ s.Enabled fl → wrong →
        exec (.xdrain g bank) s = .next (s.trapped s { cause := .dataError, cond := 1 })) ∧
      (∀ offs, ¬ wrong → chunks = .ok offs → ¬ s.Enabled fl →
        let cleared := (List.range 128).foldl (fun u k => Tab.set {} u (64 * b.drain + k) {}) b.cells
        let data := offs.zipIdx.flatMap fun o => cellsAt (s.cur.alloc.spbase + o.1)
          (((bytesOf 512 (ofLanes 32 (y.map Prod.fst))).drop (z * o.2)).take z)
        exec (.xdrain g bank) s = .next ((((s.updCurCore fun k => { k with
            arr := m.setBank bank { b with cells := cleared, drain := (b.drain + 2) % 128 } }).updCur fun x =>
            { x with ports := Tab.upd {} x.ports 4 Walker.pop }).updCurCore fun k =>
            { k with drains := k.drains ++ [{ ctx := s.slot.ctx, at_ := s.cur.count + 12, data }] }).updCur fun x =>
            due s x fl 11) ∧
        (Tab.wf {} b.cells = true → ∀ k, Tab.get {} cleared k =
          if 64 * b.drain ≤ k ∧ k < 64 * b.drain + 128 then {} else Tab.get {} b.cells k)))

/-- Class 9, and what XACC and XSHIFT do to the cells: the claims before, together. -/
def Obligations.ArraySyllables : Prop :=
  Claims.ArraySyllables ∧ Claims.ArrayCells

/-- R132, R133: what a beat adds to a cell. With neither scale 0xFF, the accumulator takes the product of the two scales and of
the sum of the eight products of terms, saturating at plus and minus 2^47 - 1; else the cell is poisoned and its accumulator
stays. -/
def Obligations.BeatAddsProducts : Prop :=
  ∀ (b : Bank) (as bs : Array (List Int × Nat)) (k : Nat), Tab.wf {} b.cells = true → k < 8192 →
    let c := Tab.get {} b.cells k
    let c' := Tab.get {} (b.push as bs).1.cells k
    let x := as.getD (k / 64) ([], 0)
    let y := bs.getD (k % 64) ([], 0)
    let scale := fun (n : Nat) => (32 + n % 32) * 2 ^ (n / 32)
    let sum := c.acc.toInt + (scale x.2 * scale y.2 : Nat) * (List.zipWith (· * ·) x.1 y.1).sum
    let top : Int := 2 ^ 47 - 1
    (x.2 = 0xFF ∨ y.2 = 0xFF → c' = { c with poison := true }) ∧
    (x.2 ≠ 0xFF → y.2 ≠ 0xFF → c'.poison = c.poison ∧ c'.acc.toInt = max (-top) (min top sum))

/-! ### Class 10 -/

/-- R190, R191, R202: an engine command enters flight with its header, the eight staging registers from its base on as they are
visible, VPIN and its context; at the locked level its first chunk performs L cycles after issue or when the engine of its core is
free, and the engine is taken until its last; no register, latch or flag changes. The h of a copy between two scratchpads is the
model's choice (log entry 90), and so is how the record of a shape is read (log entry 89). -/
def Obligations.EngineCommandsEnterFlight : Prop :=
  ∀ (g : BitVec 3) (b : BitVec 5) (cv ev x hv dir dict : Bool) (nl : BitVec 3) (z : ESize) (rop fmt k slot : BitVec 2)
      (evc : BitVec 8) (s : State),
    let esz : BitVec 2 := match z with | .b8 => 0 | .b16 => 1 | .b32 => 2 | .b64 => 3
    let bit := fun (t : Bool) => BitVec.ofBool t
    let run := fun (i : Instr) (op engine : Nat) (cmdh : BitVec 16) => Normal i s → ∃ e : EngCmd,
      exec i s = .next { (if s.cur.level = 2 then s.updCurCore fun c => { c with
          engNext := Tab.set 0 c.engNext engine (e.nextAt + (s.engTiming e).2 * e.chunks) } else s) with
        serial := s.serial + 1, fresh := s.fresh + 1, engines := s.engines ++ [e] } ∧
      e.id = s.serial + 1 ∧ e.op = op ∧ e.cmdh = cmdh.toNat ∧
      e.stage = (List.range 8).map (fun n => s.cur.readE (b.toNat + n)) ∧ e.vpin = s.cur.vpin ∧ e.ctx = s.slot.ctx ∧
      e.part = s.cur.part ∧ e.kernel = s.cur.share.kernel ∧ e.level = s.cur.level ∧ e.issued = s.cycle ∧ e.chunk = 0 ∧
      e.err = 0 ∧ e.copy = none ∧ e.orphan = false ∧ e.behind = [] ∧ e.late = none ∧ e.tag = s.kernelTag s.cur.share.kernel ∧
      e.nextAt = max (s.cycle + (s.engTiming e).1) (Tab.get 0 s.curCore.engNext engine)
    run (.ecopy g b cv ev hv nl z evc) 0 0 (bit cv ++ bit ev ++ bit hv ++ nl ++ esz ++ evc) ∧
    run (.egather g b cv ev x z evc) 1 0 (bit cv ++ bit ev ++ bit x ++ (0 : BitVec 3) ++ esz ++ evc) ∧
    run (.ereduce g b cv ev rop fmt evc) 2 1 (bit cv ++ bit ev ++ rop ++ fmt ++ (0 : BitVec 2) ++ evc) ∧
    run (.epage g b cv ev dir k slot dict evc) 3 2 (bit cv ++ bit ev ++ bit dir ++ k ++ slot ++ bit dict ++ evc) ∧
    run (.edict g b cv ev slot evc) 4 2 (bit cv ++ bit ev ++ (0 : BitVec 3) ++ slot ++ (0 : BitVec 1) ++ evc)

/-! ### Class 11 -/

/-- R279, R282, R295, R31: CSRR puts the visible face of a control or status CSR, or a live CSR's value, in flight for an
s-register, one cycle after issue; CSRW puts the low bits that the CSR has in flight for its hidden face; FLAGS reads the
flags of a slot as they stand on the hidden face, or of all nine slots together, reaches no latch, and clears the slot if asked. R231: a
65th result in flight traps; of the two results of a FLAGS the first may still enter, which is the model's reading (log entry 57). -/
def Claims.ControlRegisters : Prop :=
  ∀ (g : BitVec 3) (d : BitVec 6) (csr : BitVec 13) (clear : Bool) (slot : BitVec 4) (s : State),
    let face := fun (n k : Nat) (v : Nat) =>
      { s.resultOf k .csr n 0xFF (BitVec.ofNat 1024 v) 0 1 with unit := none }
    let flag := fun (k : Nat) => (s.cur.csrH (0x018 + k)).toNat % 64
    (Normal (.csrr g d csr) s → s.Room 1 → exec (.csrr g d csr) s = .next (s.scalarResult d
      (if csrClass csr.toNat = some .live then BitVec.ofNat 64 (s.live csr.toNat) else s.cur.csrV csr.toNat))) ∧
    (Normal (.csrw g d csr) s → s.Room 1 → exec (.csrw g d csr) s =
      .next (s.withResults [face csr.toNat 0 (s.sa d.toNat &&& csrMask csr.toNat)])) ∧
    (Normal (.flags g d clear slot) s → s.Room (if clear then 2 else 1) → exec (.flags g d clear slot) s =
      let v := BitVec.ofNat 1024 (if slot = 15 then (List.range 9).foldl (fun acc k => acc ||| flag k) 0 else flag slot.toNat)
      .next (s.withResults ({ s.resultOf 0 (s.scalarFile d) d.toNat 0xFF v 0 1 with unit := none } ::
        if clear then [face (0x018 + slot.toNat) 1 0] else []))) ∧
    (let full := fun (t : State) => s.trapped t { cause := .illegalOperand }
     let v := BitVec.ofNat 1024 (if slot = 15 then (List.range 9).foldl (fun acc k => acc ||| flag k) 0 else flag slot.toNat)
     (Normal (.csrr g d csr) s → ¬ s.Room 1 → exec (.csrr g d csr) s = .next (full s)) ∧
     (Normal (.csrw g d csr) s → ¬ s.Room 1 → exec (.csrw g d csr) s = .next (full s)) ∧
     (Normal (.flags g d clear slot) s → ¬ s.Room 1 → exec (.flags g d clear slot) s = .next (full s)) ∧
     (Normal (.flags g d true slot) s → s.Room 1 → ¬ s.Room 2 → exec (.flags g d true slot) s =
       .next (full (s.withResults [{ s.resultOf 0 (s.scalarFile d) d.toNat 0xFF v 0 1 with unit := none }]))))

/-- R213 to R215, R332, R333: VERSW, with or without a named version, and VERPUB send a request, which remembers its cycle; the
result, VPIN's hidden face or an s-register, waits for its step. That a VERPUB's stall of the locked level is counted in device cycles
is log entry 83. -/
def Claims.VersionRequests : Prop :=
  ∀ (g : BitVec 3) (d : BitVec 6) (s : State),
    let run := fun (i : Instr) (pub : Bool) (named : Option Nat) (r : Result) =>
      Normal i s → s.Room 1 → exec i s = .next { s.withResults [{ r with isVar := true, ready := false }] with
        verReqs := s.verReqs ++ [{ ctx := s.slot.ctx, pub, named, res := s.cur.seq * 64 + s.slot.pos * 4, issued := s.cycle }] }
    let pin := { s.resultOf 0 .csr csrVpin 0xFF 0 0 220 with unit := none }
    run (.versw g) false none pin ∧
    run (.verswNamed g d) false (some ((s.cur.readS d.toNat).toNat % 2 ^ 16)) pin ∧
    run (.verpub g d) true none { s.resultOf 0 (s.scalarFile d) d.toNat 0xFF 0 0 220 with
      unit := none, at_ := s.cycle, clocked := some (s.cycle + 220) }

/-- R310: QARM arms a port with the walk that its eight staging registers describe, from its first operand. A descriptor with a
reserved bit, an operand width of 10 or 11, a level count of 6 or 7, a chunk wider than the operand, a global walk on a write port, or
chunks that do not fill whole operands raises the illegal-operand trap and leaves the port as it was; every other one arms it. Counts
and strides of levels above the last are ignored, while their reserved bits trap; that, and the trap of a level count of 6 or 7, which
R310's list does not name (R90 read onto the descriptor), is log entry 38. A global walk may fetch from the next cycle on. -/
def Claims.PortArms : Prop :=
  ∀ (g : BitVec 3) (port : BitVec 3) (b : BitVec 5) (s : State), Normal (.qarm g port b) s →
    let e := fun (k : Nat) => (s.cur.readE (b.toNat + k)).toNat
    let nl := bits (e 0) 62 60
    let chunk := 2 ^ bits (e 0) 59 56
    let opw := bits (e 0) 55 54
    let operand := (if port.toNat = 0 ∨ port.toNat = 1 ∨ port.toNat = 4 then 512 else 128) / 2 ^ opw
    let chunks := (List.range (nl + 1)).foldl (fun n l => n * (bits (e (l + 1)) 47 32 + 1)) 1
    let bad := bits (e 0) 53 48 ≠ 0 ∨ (∃ l < 6, bits (e (l + 1)) 63 48 ≠ 0) ∨ e 7 ≠ 0 ∨ 2 ≤ opw ∨ 6 ≤ nl ∨ operand < chunk ∨
      (bitAt (e 0) 63 = true ∧ 4 ≤ port.toNat) ∨ chunks % (operand / chunk) ≠ 0
    (bad → exec (.qarm g port b) s = .next (s.trapped s { cause := .illegalOperand })) ∧
    (¬ bad → ∃ k : Walker, exec (.qarm g port b) s =
        .next (s.updCur fun x => { x with ports := Tab.set {} x.ports port.toNat { k with from_ := s.cycle + 1 } }) ∧
      k.armed = true ∧ k.popped = 0 ∧ k.ahead = [] ∧ k.lastFetch = none ∧ k.glob = bitAt (e 0) 63 ∧ k.nl = nl ∧
      k.clog = bits (e 0) 59 56 ∧ k.opw = opw ∧ k.start = e 0 % 2 ^ 48 ∧
      ∀ j < 6, k.counts.getD j 0 = bits (e (j + 1)) 47 32 ∧ k.strides.getD j 0 = toSigned 32 (e (j + 1)))

/-- Class 11, the control and status registers: CSRR, CSRW and FLAGS. -/
def Obligations.SystemSyllables : Prop := Claims.ControlRegisters

/-- Class 11, versions and ports: VERSW, VERPUB and QARM. -/
def Obligations.VersionAndPortSyllables : Prop := Claims.VersionRequests ∧ Claims.PortArms

/-! ### The steps of a context between its bundles -/

/-- R35, R229, R43, R110: below the locked level a result that memory has delivered lands at a free time before its context's
turn in a cycle, after what is due in it; a fault found after issue stops the context at its boundary, in its FLIP wait, or in a
bundle that a resumption has still to finish, with RPC and DONE to match; a held interrupt enters the completion handler at HVEC
with its word in h0; the random-bit queue takes the next word of its sequence, after the context's turn of a cycle where it has one.
Nothing else changes. What RPC and DONE say of a fault found after issue is the model's reading (log entry 22). -/
def Claims.ContextSteps : Prop :=
  ∀ (c n : Nat) (s : State) (r : Result) (q : Raised) (w : Word64) (rest : List Word64),
    let x := s.ctx c
    let alive := x.run = .running ∨ (x.run = .finishing ∧ x.handler.isSome)
    let y := x.landUpTo (if x.flip.isSome ∧ x.redo = none then x.count + 1 else x.count) s.cycle
    (alive → x.level ≠ 2 → c ∉ s.served → (∃ a ∈ x.inflight, a.id = n ∧ a.isVar = true ∧ a.ready = true ∧ a.late = none ∧ a.at_ ≤ s.cycle) →
      y.inflight.find? (fun a => a.id == n && a.isVar) = some r → exec (.variableResultLand c n) s =
        .next (s.setCtx c (({ y with inflight := y.inflight.filter fun a => !(a.id == n && a.isVar) }).land s.cycle r))) ∧
    (alive → x.inflight.find? (fun a => a.faulted x.level x.count s.cycle) = some r → r.late = some q →
      exec (.lateFaultReport c) s = .next (s.setCtx c (match x.redo, x.flip with
        | some d, _ => x.takeTrap s.cycle q r.baddr x.pc (d ||| s.fixedAt c) false
        | none, some f => x.takeTrap s.cycle q r.baddr f.baddr (0xFFF - 2 ^ f.pos) true
        | none, none => x.takeTrap s.cycle q r.baddr x.last 0xFFF false))) ∧
    (x.level = 0 → x.run = .running ∨ x.run = .finishing → x.handler = none → x.redo = none → x.irq = w :: rest →
      exec (.handlerEntry c) s = .next (s.setCtx c { x with
        irq := rest, handler := some { pc := x.pc, wait := x.flip, noBrk := x.noBrk }, flip := none, noBrk := false
        pc := (x.csrV csrHvec).toNat / 16 % 2 ^ 44 * 16, h := Tab.set 0 x.h 0 w })) ∧
    (x.run ≠ .free → (∀ a b, x.run ≠ .clearing a b) → x.run ≠ .preempted → x.run ≠ .dying → x.rnd.length < 64 →
      x.rndAt ≠ some s.cycle → (alive → c ∈ s.served) →
      exec (.randomWordFill c) s = .next (s.setCtx c { x with
        rndAt := some s.cycle, rnd := x.rnd ++ [BitVec.ofNat 64 (mix64 (x.csrV csrQkey).toNat x.rndN)], rndN := x.rndN + 1 }))

/-- R53, R46: when the next task of a context may start, the context runs at its kernel's entry with its arguments in the
visible faces of s1 on, its next tile and that tile's coordinates, and no loop active. -/
def Claims.TaskStartStep : Prop :=
  ∀ (c n : Nat) (s : State), (s.ctx c).run = .between n → n ≤ s.cycle →
    let x := s.ctx c
    let share := { x.share with tile := x.share.tile + x.share.tileStep }
    ∃ tc, exec (.taskStart c) s = .next (s.setCtx c { x with
        share, run := .running, pc := share.entry, tc, loops := [], newLoop := none, target := none
        s := x.share.args.zipIdx.foldl (fun t a => Tab.upd {} t (a.2 + 1) fun f => { f with v := a.1 }) x.s }) ∧
      ∀ k, s.kernel x.share.kernel = some k → tc = k.d.tileCoord share.tile

/-- What a context does between its bundles: the claims before, together. -/
def Obligations.ContextEvents : Prop :=
  Claims.ContextSteps ∧ Claims.TaskStartStep

/-- R37, R38, R54, R168, R170, R175: the release of a FLIP or a RETIRE, when its writes have landed and its tagged stores have been
accepted: at the locked level once its cycles have passed, below it when its commit finds room for the images it keeps: the commit at its
scope, then the arrival on its line. One of cluster scope whose bytes the cycle has already committed at the vault controllers waits for the
next (R169, log entry 82). One of system scope, and that of the last RETIRE, waits for the answers to the stores that another device has
refused (the model's reading, log entry 66). A context that is to be pre-empted is so first (R234). Which caches have to have room is the
model's reading (log entry 63). -/
def Claims.FlipReleaseStep : Prop :=
  ∀ (c n : Nat) (s : State) (w : FlipWait),
    let x := s.ctx c
    let t := (s.release c w.pub).updCtx c fun y => { y with flip := y.flip.map fun v => { v with released := true } }
    let now := if c ∈ s.served ∨ x.redo.isSome then x.count else x.count + 1
    x.alive = true → x.preempt = false → x.flip = some w → w.landedAt = some n → w.pub ≠ .none → w.released = false → x.stqs = 0 →
      (w.pub = .system ∨ (w.retire = true ∧ x.lastTask = true) → ∀ r ∈ x.inflight, r.faultOnly = false) →
      (w.pub = .cluster → s.overtaken x.pendingLocs = false) →
      (if x.level = 2 then max n x.stqBy + (match w.pub with | .none => 0 | .cluster => 32 | .device => 224 | .system => 3136) ≤ now
        else s.roomToRelease c w.pub = true) →
      exec (.flipRelease c) s = .next (if w.bar = .nb ∨ w.arrived then t else t.arriveAt c w.bar)

/-- R54: an arrival on the barrier line of a cluster or of a partition. The context counts as arrived. While a participant has not arrived
the line only remembers who has, and no other context changes; the arrival of the last one completes the line, which is then empty, and
every context that has arrived exchanges 2 cycles later in a cluster, 8 in a partition. The participants are the contexts of the kernel
that holds the line, in its scope, from the cycle in which their clear begins until the exchange of their last RETIRE. -/
def Claims.BarrierLines : Prop :=
  ∀ (c : Nat) (s : State) (k : Kernel), s.Canonical → s.kernel k.id = some k →
    let j := clusterOf (coreOf c)
    let p := (s.ctx c).part
    let takesPart := fun (d : Nat) =>
      let y := s.ctxFor k.id d
      y.share.kernel = k.id ∧ y.ended = false ∧ y.run ≠ .free ∧ y.run ≠ .dying ∧ ∀ a b, y.run = .clearing a b → a ≤ s.cycle
    let arrives := fun (bar : BScope) (line : State → Line) (inScope : Nat → Prop) (later : Nat) =>
      let who := c :: (line s).arrived
      let t := s.arriveAt c bar
      let last := ∀ d ∈ k.ctxs, inScope d → takesPart d → d ∈ who
      (line s).holder = some k.id →
        (¬ last → line t = { holder := some k.id, arrived := who } ∧
          ∀ d, t.ctx d = if d = c then { s.ctx c with flip := (s.ctx c).flip.map fun w => { w with arrived := true } } else s.ctx d) ∧
        (last → line t = { holder := some k.id, arrived := [] } ∧
          ∀ d ∈ who, (s.ctx d).share.kernel = k.id → (∀ v ∈ s.saved, ¬ (v.c = d ∧ v.kernel = k.id ∧ v.away.isSome)) →
            (t.ctx d).flip = (s.ctx d).flip.map fun w => { w with arrived := w.arrived || d == c, fire := some (s.cycle + later) })
    arrives .cl (fun t => (t.cluster j).line) (fun d => clusterOf (coreOf d) = j) 2 ∧
    arrives .pt (fun t => (t.part p).line) (fun _ => True) 8

/-- The release of a flip and its arrival: the claims before, together. -/
def Obligations.FlipReleaseStep : Prop :=
  Claims.FlipReleaseStep ∧ Claims.BarrierLines

/-- R168, R171: a release of device scope is one commit: each pending byte of the context that is not at a fabric-global
address stands in memory afterwards, and the context has no such byte pending; a byte of memory that the context has not
pending, that its cluster has not committed unflushed, and that no plied access which another cluster holds unflushed has written, stays
as it was. That such an access reaches memory whole is read from R185 (log entry 92). -/
def Obligations.DeviceReleaseCommits : Prop :=
  ∀ (c : Nat) (s : State), s.Canonical → Tab.wf none (s.ctx c).pending = true →
    let t := s.release c .device
    (∀ a p, Tab.get none (s.ctx c).pending a = some p → a < 2 ^ 63 → Memory.read t.dram a = p.byte) ∧
    (∀ a, Tab.get none (s.ctx c).pending a = none → (∀ u ∈ (s.cluster (clusterOf (coreOf c))).unflushed, u.loc ≠ a) →
      (∀ k, ∀ u ∈ (s.cluster k).unflushed, u.loc = a → u.access = 0) →
      Memory.read t.dram a = Memory.read s.dram a) ∧
    (∀ a, Tab.get none (t.ctx c).pending a = if a < 2 ^ 63 then none else Tab.get none (s.ctx c).pending a) ∧
    (t.cluster (clusterOf (coreOf c))).unflushed = []

/-- R29, R37, R53, R157, R168, R198, R214: the exchange of a FLIP or RETIRE whose waits are over, with no fault found or interrupt
held that its context has to take first, and once the chunks and lines of the locked level that are due in the cycle have performed: the
flags of plied updates that are still due join their phase (log entry 67), the faces exchange, the schedule count goes on to F + 1, a
switch of VPIN moves the pin, drops the read-only lines and lets reads of versioned regions follow the commits made so far (read from
R219 and R223, log entry 21), a FLIP with a publication scope acquires, operands fetched ahead are discarded, a FLIP with any scope
exchanges dictionary faces, and a RETIRE goes on to the next task or ends the context's share. -/
def Obligations.FlipExchangeStep : Prop :=
  ∀ (c : Nat) (s : State) (w : FlipWait),
    let x := s.ctx c
    x.alive = true → c ∈ s.served → x.flip = some w → w.landedAt.isSome → (w.pub = .none ∨ w.released) →
      (w.bar = .nb ∨ ∃ f, w.fire = some f ∧ f ≤ s.cycle) → s.lockedChunk = false → s.lockedTag = false → x.preempt = false →
      s.boundary c = false →
      let switched := (Tab.get {} x.csr csrVpin).wr = true
      let acquires := w.pub ≠ .none ∧ w.retire = false
      let y := { (x.landUpdates s.cycle).exchange with flip := none, count := x.count + 1, pin := none }
      let y := if acquires ∨ switched then y.dropAhead s.cycle else y
      let t := s.setCtx c y
      let t := if switched then ((t.movePin y.part x.vpin y.vpin).dropReadOnly c).acquireVersion c else t
      let t := if acquires then t.acquire c else t
      let t := if w.retire = false ∧ (w.bar ≠ .nb ∨ w.pub ≠ .none) then t.exchangeDicts (clusterOf (coreOf c)) else t
      exec (.flipExchange c) s = .next (if w.retire then t.endTask c x.count else t)

/-- R29, R41: what an exchange does to a context: a register or CSR whose written bit is set takes its hidden face and keeps the
old visible face behind it; one whose bit is clear stays; every written bit is then clear and every latch is empty; s0, p0 and p1 read as
they did. PHASE counts the exchange (R216), a new SRKEY sets its generator's count to 0 (R109), a new QKEY empties the random-bit queue and
begins its sequence again (R110), and the writes landed in the phase are forgotten. Everything else stays: h0 to h7, the single-faced CSRs
(LIDX, TC, PFDROP, SPBASE and the identity of the share among them), and what is in flight or pending. -/
def Obligations.ExchangeSwapsFaces : Prop :=
  ∀ (x : Ctx), Tab.wf {} x.s = true → Tab.wf {} x.v = true → Tab.wf {} x.p = true → Tab.wf {} x.e = true →
    Tab.wf {} x.csr = true → ∀ n : Nat,
    (Tab.get {} x.exchange.s n = if (Tab.get {} x.s n).wr
      then { v := (Tab.get {} x.s n).h, h := (Tab.get {} x.s n).v, wr := false } else Tab.get {} x.s n) ∧
    (Tab.get {} x.exchange.v n = if (Tab.get {} x.v n).wr
      then { v := (Tab.get {} x.v n).h, h := (Tab.get {} x.v n).v, wr := false } else Tab.get {} x.v n) ∧
    (Tab.get {} x.exchange.p n = if (Tab.get {} x.p n).wr
      then { v := (Tab.get {} x.p n).h, h := (Tab.get {} x.p n).v, wr := false } else Tab.get {} x.p n) ∧
    (Tab.get {} x.exchange.e n = if (Tab.get {} x.e n).wr
      then { v := (Tab.get {} x.e n).h, h := (Tab.get {} x.e n).v, wr := false } else Tab.get {} x.e n) ∧
    (Tab.get {} x.exchange.csr n = if (Tab.get {} x.csr n).wr
      then { v := (Tab.get {} x.csr n).h, h := (Tab.get {} x.csr n).v, wr := false } else Tab.get {} x.csr n) ∧
    Tab.get none x.exchange.latch n = none ∧ x.exchange.readS 0 = 0 ∧ x.exchange.readP 0 = -1 ∧ x.exchange.readP 1 = 0 ∧
    (Tab.wf 0 x.srCount = true → Tab.get 0 x.exchange.srCount n =
      if n < 3 ∧ (Tab.get {} x.csr (0x008 + n)).wr then 0 else Tab.get 0 x.srCount n) ∧
    (let anew := (Tab.get {} x.csr 0x00B).wr
     x.exchange = { x with
       s := x.exchange.s, v := x.exchange.v, p := x.exchange.p, e := x.exchange.e, csr := x.exchange.csr, latch := x.exchange.latch
       latchAt := [], srCount := x.exchange.srCount, landed := [], phase := x.phase + 1
       rnd := if anew then [] else x.rnd, rndN := if anew then 0 else x.rndN })

/-- What a landing leaves of a file whose register `reg` it writes: each byte that `takes` names takes `val`, every other byte of the
hidden face keeps what it held, or the visible face where nothing had been written (R28); the visible face stays, the written bit is
set, and every other register stays. -/
def Claims.Merged {w : Nat} (old new : Tab (Face w)) (reg : Nat) (val : Vec) (takes : Nat → Prop) : Prop :=
  let f := Tab.get {} old reg
  let g := Tab.get {} new reg
  g.v = f.v ∧ g.wr = true ∧ (∀ n, n ≠ reg → Tab.get {} new n = Tab.get {} old n) ∧
  ∀ j, j < w → (takes (j / 8) → g.h.getLsbD j = val.getLsbD j) ∧
    (¬ takes (j / 8) → g.h.getLsbD j = (if f.wr then f.h else f.v).getLsbD j)

/-- R28, R31, R32, R40 to R42: a result without flags lands. A register of its file takes the bytes that its enables name, but those that
a write landed before in the phase prevails in, by the later resolution cycle, then the higher position, then the later bundle; the other
files stay. A CSR takes it unless an earlier landing that shares a byte with it prevails (R282, R333). The latch of its unit takes the
value and the cycle, but for a result of variable latency below the locked level; the other latches stay. -/
def Claims.LandingMerges : Prop :=
  ∀ (x : Ctx) (cycle : Nat) (r : Result), Tab.wf {} x.s = true → Tab.wf {} x.v = true → Tab.wf {} x.p = true → Tab.wf {} x.e = true →
    Tab.wf {} x.csr = true → Tab.wf none x.latch = true → Tab.wf 0 x.latchAt = true → r.flags = 0 →
    let y := x.land cycle r
    let before := fun (l : Landed) => l.file = r.file ∧ l.reg = r.reg ∧ l.ben &&& r.ben ≠ 0 ∧
      (r.due < l.due ∨ (r.due = l.due ∧ (r.pos < l.pos ∨ (r.pos = l.pos ∧ r.seq < l.seq))))
    let takes := fun (n : Nat) => r.ben.getLsbD n = true ∧ ∀ l ∈ x.landed, before l → l.ben.getLsbD n = false
    (if r.file = .s then Claims.Merged x.s y.s r.reg r.val takes else y.s = x.s) ∧
    (if r.file = .v then Claims.Merged x.v y.v r.reg r.val takes else y.v = x.v) ∧
    (if r.file = .p then Claims.Merged x.p y.p r.reg r.val takes else y.p = x.p) ∧
    (if r.file = .e then Claims.Merged x.e y.e r.reg r.val takes else y.e = x.e) ∧
    (r.file = .csr → (∃ l ∈ x.landed, before l) → y.csr = x.csr) ∧
    (r.file = .csr → (∀ l ∈ x.landed, ¬ before l) → Claims.Merged x.csr y.csr r.reg r.val fun n => r.ben.getLsbD n = true) ∧
    (∀ u, Tab.get none y.latch u = (if r.unit = some u ∧ (r.isVar = false ∨ x.level = 2) then some r.lval else Tab.get none x.latch u) ∧
      Tab.get 0 y.latchAt u = if r.unit = some u ∧ (r.isVar = false ∨ x.level = 2) then r.due else Tab.get 0 x.latchAt u)

/-- R32, R33: a result that shares a byte with a write landed before in the phase sets DWR in PSTAT, and DWREC records its file, its
register, its bundle and its position where DWR was clear on both faces; a result that shares none leaves every CSR as it was. -/
def Claims.DoubleWrites : Prop :=
  ∀ (x : Ctx) (cycle : Nat) (r : Result), Tab.wf {} x.csr = true → r.flags = 0 → r.file ≠ .csr →
    let y := x.land cycle r
    let double := r.file ≠ .latch ∧ ∃ l ∈ x.landed, l.file = r.file ∧ l.reg = r.reg ∧ l.ben &&& r.ben ≠ 0
    let code := match r.file with | .v => 1 | .p => 2 | .e => 3 | _ => 0
    let stat := Tab.get {} x.csr 0x010
    let was := if stat.wr then stat.h else stat.v
    let dwrec := (Tab.get {} y.csr 0x011).h.toNat
    (¬ double → y.csr = x.csr) ∧
    (double → Tab.get {} y.csr 0x010 = { v := stat.v, h := was ||| 1, wr := true } ∧
      (∀ n, n ≠ 0x010 → n ≠ 0x011 → Tab.get {} y.csr n = Tab.get {} x.csr n) ∧
      (bitAt stat.v.toNat 0 = true ∨ bitAt was.toNat 0 = true → Tab.get {} y.csr 0x011 = Tab.get {} x.csr 0x011) ∧
      (bitAt stat.v.toNat 0 = false → bitAt was.toNat 0 = false → r.reg < 64 → r.pos < 12 →
        (Tab.get {} y.csr 0x011).v = (Tab.get {} x.csr 0x011).v ∧ (Tab.get {} y.csr 0x011).wr = true ∧
        bits dwrec 63 62 = code ∧ bits dwrec 61 56 = r.reg ∧ bits dwrec 55 48 = 0 ∧
        bits dwrec 47 4 = r.baddr / 16 % 2 ^ 44 ∧ bits dwrec 3 0 = r.pos))

/-- R112, R31: the flags of a result reach the hidden face of FLG of its slot, beside those that stand there. FEVT records the event
while EV is set and V is clear on both faces; of the events of one cycle the one at the lowest position stays, and of those the one of
the lowest flag. Which cycle the event that FEVT holds is of is kept in the context. -/
def Claims.LandingFlags : Prop :=
  ∀ (x : Ctx) (cycle : Nat) (r : Result), Tab.wf {} x.csr = true → r.file ≠ .csr → r.flags ≠ 0 → r.pos < 12 → r.fslot < 9 →
    let y := x.land cycle r
    let flg := Tab.get {} x.csr (0x018 + r.fslot)
    let old := Tab.get {} x.csr 0x012
    let held := (if old.wr then old.h else old.v).toNat
    let first := fun (k : Nat) => k < 6 ∧ r.flags.getLsbD k = true ∧ ∀ j < k, r.flags.getLsbD j = false
    let on := bitAt (Tab.get {} x.csr 0x002).v.toNat 8 = true ∧ bitAt old.v.toNat 63 = false
    let recorded := fun (k : Nat) =>
      let new := Tab.get {} y.csr 0x012
      new.v = old.v ∧ new.wr = true ∧ bitAt new.h.toNat 63 = true ∧ bits new.h.toNat 62 51 = 0 ∧ bits new.h.toNat 50 48 = k ∧
        bits new.h.toNat 47 4 = r.baddr / 16 % 2 ^ 44 ∧ bits new.h.toNat 3 0 = r.pos
    let earlier := fun (k : Nat) => r.pos < bits held 3 0 ∨ (r.pos = bits held 3 0 ∧ k < bits held 50 48)
    (Tab.get {} y.csr (0x018 + r.fslot) =
      { v := flg.v, h := (if flg.wr then flg.h else flg.v) ||| r.flags.setWidth 64, wr := true }) ∧
    (∀ n < 9, n ≠ r.fslot → Tab.get {} y.csr (0x018 + n) = Tab.get {} x.csr (0x018 + n)) ∧
    (¬ on → Tab.get {} y.csr 0x012 = old) ∧
    ∀ k, first k → on →
      (bitAt held 63 = false → recorded k) ∧
      (bitAt held 63 = true → x.fevtAt = some cycle → earlier k → recorded k) ∧
      (bitAt held 63 = true → x.fevtAt ≠ some cycle ∨ ¬ earlier k → Tab.get {} y.csr 0x012 = old)

/-- What the landing of a result does to the registers, the latches and the status CSRs: the claims before, together. -/
def Obligations.LandingMergesBytes : Prop :=
  Claims.LandingMerges ∧ Claims.DoubleWrites ∧ Claims.LandingFlags

/-! ### Versions -/

/-- R213, R217, R229, R332, R175, R170: the publish step of a request, at a cycle after its issue, after the earlier ones of its context,
those apart that a fault holds (R228, log entry 43), and once the STQs that the context has issued before it have been accepted and, below the locked level, its commit finds room (log
entry 63). Where no region bound to the context's partition has it as its learner, the
request waits, and its result carries the version fault COND 2, known at once; else the context's pending bytes are released at
device scope, the region as it then stands publishes, the result takes the result word, and the request is gone. -/
def Claims.PublishStep : Prop :=
  ∀ (n : Nat) (s : State) (q : VerReq), s.verReqs[n]? = some q → q.pub = true → q.held = false → q.issued < s.cycle →
    (∀ v ∈ s.verReqs.take n, ¬ (v.ctx = q.ctx ∧ v.pub = true ∧ v.held = false)) →
    (∀ w ∈ s.tagWrites, w.cmd = none → w.peer = none → w.held = none → w.ctx = q.ctx →
      w.kernel = (s.ctx q.ctx).share.kernel → q.res ≤ w.num) →
    (s.ctx q.ctx).level = 2 ∨ s.roomToRelease q.ctx .device = true →
    let bound := s.regionBound (s.ctx q.ctx).part
    let fault := exec (.verpubStep n) s =
      .next (({ s with verReqs := s.verReqs.modify n fun v => { v with held := true } }).updCtx q.ctx fun x =>
        x.versionFault q.res 2)
    (bound = none → fault) ∧
    (∀ r g, bound = some (r, g) → g.lpart ≠ (s.ctx q.ctx).part → fault) ∧
    (∀ r g h, bound = some (r, g) → g.lpart = (s.ctx q.ctx).part →
      let u := ((s.atRegion r).release q.ctx .device).atRegion r
      u.region r = some h →
      let t := u.publishRegion r h
      exec (.verpubStep n) s = .next (({ t.2 with verReqs := t.2.verReqs.eraseIdx n }).updCtx q.ctx fun x =>
        x.fillResult q.res t.1 none))

/-- R214, R215, R217, R229: the switch step of a VERSW, at a cycle after its issue and after the earlier ones of its context, those
apart that a fault holds (R228, log entry 43), finds
the current version, or the named one among current and older slots, in a region that its partition rolls out: the pins move, the
result for VPIN takes the version, and the context keeps it as the phase's pin; else its result carries a version fault, COND 1 or
2, known at once, and the request waits. -/
def Claims.SwitchStep : Prop :=
  ∀ (n : Nat) (s : State) (q : VerReq), s.verReqs[n]? = some q → q.pub = false → q.held = false → q.issued < s.cycle →
    (∀ v ∈ s.verReqs.take n, ¬ (v.ctx = q.ctx ∧ v.pub = false ∧ v.held = false)) →
    let x := s.ctx q.ctx
    let fault := fun (cond : Nat) => exec (.verswStep n) s =
      .next (({ s with verReqs := s.verReqs.modify n fun v => { v with held := true } }).updCtx q.ctx fun y =>
        y.versionFault q.res cond)
    (s.regionBound x.part = none → fault 2) ∧
    ∀ r g, s.regionBound x.part = some (r, g) →
      let take := fun (v : Nat) =>
        let u := (s.atRegion r).switchPins r x v
        exec (.verswStep n) s = .next (({ u with verReqs := u.verReqs.eraseIdx n }).updCtx q.ctx fun y =>
          { y.fillResult q.res v none with pin := some v })
      (bitAt g.rmask x.part = false → fault 2) ∧
      (bitAt g.rmask x.part = true → match q.named with
        | none => match g.slotIn stCurrent with
          | none => fault 1
          | some k => take (g.slots.getD k {}).ver
        | some v => if (g.slotHolding v).isSome then take v else fault 1)

/-- R214: the pins of region `r`, whose descriptor lies in memory with nothing unflushed. The switch step of a context takes one pin for
the version found, unless VPIN or the earlier switch of the phase has pinned it, and gives one back for the version of that earlier
switch, unless it is the same or VPIN's; the flip that exchanges VPIN gives one back for the old version. An older slot that has then
no pin and no capture is retired, and EVC counts it. Nothing else of the region changes. -/
def Claims.PinsMove : Prop :=
  ∀ (s : State) (r n p : Nat) (x : Ctx) (g : Region), s.Canonical → s.region r = some g →
    s.regionAt r + 128 ≤ 2 ^ Config.dpaBits → s.unflushedAt ((List.range 128).map fun k => s.regionAt r + k) = [] →
    (∀ v ∈ g.slots, v.pins < 2047) → Tab.wf 0 (s.part g.lpart).counters = true →
    let moves := fun (t : State) (more less : Nat → Bool) =>
      let slot := fun (k : Nat) =>
        let v := g.slots.getD k {}
        let w := { v with pins := v.pins - 1 }
        if more k then { v with pins := v.pins + 1 }
        else if less k then if w.state = stOlder ∧ w.pins = 0 ∧ w.cap = false then { w with state := stRetired } else w
        else v
      t.region r = some { g with slots := (List.range 4).map slot } ∧
      Tab.get 0 (t.part g.lpart).counters g.evc = Tab.get 0 (s.part g.lpart).counters g.evc +
        if (List.range 4).any fun k => (slot k).state != (g.slots.getD k {}).state then 1 else 0
    moves (s.switchPins r x n)
      (fun k => n != x.vpin && x.pin != some n && g.slotHolding n == some k)
      (fun k => x.pin.any fun m => m != n && m != x.vpin && g.slotHolding m == some k) ∧
    ∀ old new, s.rolloutRegion p = some r → old ≠ new → moves (s.movePin p old new) (fun _ => false) fun k => g.slotHolding old == some k

/-- The steps of VERPUB and VERSW, and the pins: the claims before, together. -/
def Obligations.VersionSteps : Prop :=
  Claims.PublishStep ∧ Claims.SwitchStep ∧ Claims.PinsMove

/-- R213: the result word of a publish. With no draft it fails with reason 1, with two older versions and a current one that is
pinned or captured with reason 2, with a draft whose version another slot holds with reason 3, each with the current version
and nothing changed; else it is the draft's version: the draft is then current, the slot that was current is older where it is pinned or
captured and else retired, EVC counts the publish and the retirement, and no byte of memory outside the slots changes. What counts as the current version where no slot is current is the model's
choice (log entry 91). -/
def Obligations.PublishOutcome : Prop :=
  ∀ (s : State) (r : Nat) (g : Region),
    let cur := g.slots.getD ((g.slotIn stCurrent).getD 4) {}
    let held := 0 < cur.pins ∨ cur.cap = true
    let fail := fun (reason : Nat) => s.publishRegion r g = (2 ^ 63 + reason * 2 ^ 61 + cur.ver, s)
    (g.slotIn stDraft = none → fail 1) ∧
    ∀ k, g.slotIn stDraft = some k →
      let draft := g.slots.getD k {}
      let olders := g.slots.countP fun v => v.state == stOlder
      let taken := ∃ v ∈ g.slots, (v.state = stCurrent ∨ v.state = stOlder) ∧ v.ver = draft.ver
      (held → olders = 2 → fail 2) ∧
      (¬ (held ∧ olders = 2) → taken → fail 3) ∧
      (¬ (held ∧ olders = 2) → ¬ taken →
        let t := s.publishRegion r g
        t.1 = draft.ver ∧
        (s.Canonical → s.region r = some g → s.regionAt r + 128 ≤ 2 ^ Config.dpaBits →
          s.unflushedAt ((List.range 128).map fun k => s.regionAt r + k) = [] → Tab.wf 0 (s.part g.lpart).counters = true →
          let slot := fun (n : Nat) =>
            let v : VSlot := g.slots.getD n {}
            if n = k then { v with state := stCurrent }
            else if g.slotIn stCurrent = some n then { v with state := if held then stOlder else stRetired }
            else v
          t.2.region r = some { g with slots := (List.range 4).map slot } ∧
          Tab.get 0 (t.2.part g.lpart).counters g.evc = Tab.get 0 (s.part g.lpart).counters g.evc +
            (if (g.slotIn stCurrent).isSome ∧ ¬ held then 2 else 1) ∧
          ∀ x, x < s.regionAt r + 16 ∨ s.regionAt r + 80 ≤ x → Memory.read t.2.dram x = Memory.read s.dram x))

/-! ### Walks and invalidations -/

/-- R155, R158 to R164, R166: a waiting request starts, alone or joined to one in flight for its page; a walk ends, at the locked level
at its cycle, and those that have joined it and whose walk is then in flight no more end with it. An answer changes no byte of memory.
Found, the page enters the TLB of the cluster and, but for an engine's walk and one whose context has left (log entry 14), of the core,
and a prefetch that may read it has its line in the cluster cache and, as PF asks, in the L1. Failed, the bundle, the port or the engine
that waits learns of it, and a prefetch counts one more fault, for a descriptor in error too, which is the model's choice (log entry
87). -/
def Obligations.WalkSteps : Prop :=
  ∀ (n k : Nat) (s : State) (w : Walk),
    (s.nextWalk k = some n → s.walksWaiting[n]? = some w → exec (.walkerStart k) s = .next { s with
      walksWaiting := s.walksWaiting.eraseIdx n
      walks := s.walks ++ [{ w with joined := s.walking w }] }) ∧
    (s.walks[n]? = some w → w.joined = false → w.till ≤ s.cycle →
      let t := { s with walks := s.walks.eraseIdx n }
      let ends := fun (v : Walk) => v.joined && v.cluster == w.cluster && !t.walking v
      exec (.translationWalkComplete n) s = .next (if w.till ≠ 0 then t.answer w
        else (w :: t.walks.filter ends).foldl State.answer { t with walks := t.walks.filter fun v => !ends v })) ∧
    (let t := s.answer w
     t.dram = s.dram ∧
     (∀ e, s.walk w.part w.region w.va = .ok e → e ∈ (t.cluster w.cluster).tlb ∧
       ((∀ m, w.who ≠ .engine m) → w.who ≠ .none → e ∈ (t.core w.core).tlb) ∧
       ∀ c toL1 global r a, w.who = .prefetch c toL1 global → e.grant w.key .read false global w.va = .ok r →
         homeDpa r.loc = some a → a / 256 ∈ (t.cluster (clusterOf (coreOf c))).lines ∧
         (toL1 = true → ∃ l ∈ (t.core (s.l1Slice (coreOf c) (a / 256))).l1, l.line = a / 256 ∧ l.sectors = 3)) ∧
     (∀ cond, s.walk w.part w.region w.va = .error cond →
       let u := s.readThrough w
       let known := (w.key.page, walkTrap cond w.va)
       (∀ c, w.who = .bundle c → t = u.updCtx c fun x => { x with walked := known :: x.walked }) ∧
       (∀ c m, w.who = .port c m → t = u.updCtx c fun x =>
         { x with ports := Tab.upd {} x.ports m fun p => { p with walked := known :: p.walked } }) ∧
       (∀ m, w.who = .engine m → t = u.updEngine m fun e => { e with walked := (w.key.page, cond) :: e.walked }) ∧
       (∀ c toL1 global, w.who = .prefetch c toL1 global →
         t = u.updCtx c fun x => { x with pfFault := min (x.pfFault + 1) (2 ^ 32 - 1) }) ∧
       (w.who = .none → t = u)))

/-- R163: an invalidation that the owner asks for takes the page it names out of every TLB of the device, marks the partition
busy, and makes a replay of a locked kernel fail; when the invalidations complete, the pages that they named are in no TLB and
the partition is no longer busy. No byte of memory changes. -/
def Claims.InvalidationSteps : Prop :=
  ∀ (p : Nat) (v : Word64) (s : State), s.Canonical →
    let va := bits v.toNat 47 16 * 2 ^ 16
    let size := v.toNat % 4
    (s.Reached → (s.part p).on = true → ∃ t, exec (.tlbinv p v) s = .next t ∧ t.dram = s.dram ∧
      (t.part p).busy = true ∧ (t.part p).inval = (s.part p).inval ++ [(va, size)] ∧
      (∀ k, (t.core k).tlb = (s.core k).tlb.filter fun e => !e.named p va size) ∧
      (∀ k, (t.cluster k).tlb = (s.cluster k).tlb.filter fun e => !e.named p va size) ∧
      t.kernels = s.kernels.map fun k => if k.part = p ∧ k.level = 2 then { k with nr := true } else k) ∧
    ((s.part p).busy = true → ∃ t, exec (.tlbinvComplete p) s = .next t ∧ t.dram = s.dram ∧
      (t.part p).busy = false ∧ (t.part p).inval = [] ∧
      ∀ q ∈ (s.part p).inval, (∀ k, ∀ e ∈ (t.core k).tlb, e.named p q.1 q.2 = false) ∧
        ∀ k, ∀ e ∈ (t.cluster k).tlb, e.named p q.1 q.2 = false)

/-- R154: the owner writes an entry of the vault lending table. A write that would overlap a range, that names a vault of a
partition's own cluster, or whose old or new borrower has a kernel in flight is turned away with a health event; else the
entry takes EN, PART and LBASE. Which writes are turned away is the model's reading (log entry 51), and so is the event's body
(log entry 15). -/
def Claims.VaultLending : Prop :=
  ∀ (m : Nat) (v : Word64) (s : State), s.Reached → m < 512 →
    let w := v &&& 0xF000007FC0000000
    let t := { s with owner := { s.owner with heard := s.cycle } }
    (s.lendRefused m w = true → exec (.vlendWrite m v) s = .next (t.notify evHealth 0 m 0 [])) ∧
    (s.lendRefused m w = false → exec (.vlendWrite m v) s = .next { t with vlend := Tab.set 0 t.vlend m w })

/-- Invalidations and the vault lending table: the claims before, together. -/
def Obligations.TablesOfTheOwner : Prop :=
  Claims.InvalidationSteps ∧ Claims.VaultLending

/-! ### Atomics and tagged writes -/

/-- R172 to R174, R204, R155, R230: an atomic performs at its point of coherence when no earlier one of its context waits at the same
instance, those apart that a fault holds (R228, log entry 43): its result takes the old value, and memory the new one; an error or a refusal of its home leaves memory as it was, and
its result carries the fault with the address as issued. While the alarm stands none passes a fabric port (R264). One at a cluster's cache
to whose bytes the cycle has already committed at the vault controllers waits for the next (R169, log entry 82). -/
def Obligations.AtomicPerforms : Prop :=
  ∀ (n : Nat) (s : State) (a : Atomic), s.atomics[n]? = some a → a.held = false →
    (∀ b ∈ s.atomics.take n, ¬ (b.ctx = a.ctx ∧ b.inst = a.inst ∧ b.held = false)) → (a.remote = true → s.alarm = none) →
    ((∃ k, a.inst = .cluster k) → s.overtaken ((List.range a.size).map fun i => a.loc + i) = false) →
    let issued := fun (x : Ctx) => match x.inflight.find? fun r => r.id == a.res && r.isVar with | some r => some r.ea | none => none
    let u := if a.remote then { s with fresh := s.fresh + 1 } else s
    let bad := if a.remote then refusalOf s.fresh a.loc else s.atomicError a
    (∀ q, bad = some q → exec (.atomicPerform n) s =
      .next (({ u with atomics := u.atomics.modify n fun b => { b with held := true } }).updCtx a.ctx fun x =>
        x.fillResult a.res 0 (some { q with faddr := (issued x).getD q.faddr }))) ∧
    (bad = none → let r := u.atomicRun a
      exec (.atomicPerform n) s = .next (({ r.2 with atomics := r.2.atomics.eraseIdx n }).updCtx a.ctx fun x =>
        { x.fillResult a.res r.1 none with inflight := (x.fillResult a.res r.1 none).inflight.map fun (q : Result) =>
            if q.id == a.res && q.isVar then { q with at_ := max q.at_ s.cycle } else q }))

/-- R172, R173, R274: the effect of an atomic of device scope on this device's memory, with nothing unflushed at its bytes: the
old value is what stood there, little-endian; the bytes become the new value, or stay where nothing is written; every other byte
stays. -/
def Obligations.AtomicChangesMemory : Prop :=
  ∀ (s : State) (a : Atomic) (d : Nat), Memory.wf s.dram = true → a.loc = d → d < 2 ^ Config.dpaBits → a.inst = .device →
    0 < a.size → s.unflushedAt ((List.range a.size).map fun i => d + i) = [] →
    let old := ofBytes (Memory.readN s.dram d a.size)
    let t := s.atomicRun a
    t.1 = old ∧
    (∀ x, x < d ∨ d + a.size ≤ x → Memory.read t.2.dram x = Memory.read s.dram x) ∧
    (atomNew a.op a.size old a.arg a.swap = none → t.2.dram = s.dram) ∧
    ∀ v, atomNew a.op a.size old a.arg a.swap = some v → Memory.readN t.2.dram d a.size = bytesOf a.size v

/-- R175, R324, R325: a tagged write of this device arrives at its vault, after the earlier STQs of its context to its line, and an
STQ is accepted there. Where its tag is the line's it performs, the tag goes up by one, and held writes whose tag has come follow;
else it is held, and its time begins. A held write whose time is over is discarded: its command ends with TAGTIME, or the owner
hears of the STQ; the reduction of another device is answered with a refusal, which is the model's reading (log entry 9), as the
event's TAG is (log entry 15). While the alarm stands the ports carry neither the write nor the answer (R264). -/
def Obligations.TaggedWriteSteps : Prop :=
  ∀ (n : Nat) (s : State) (w : TagWrite), s.tagWrites[n]? = some w →
    let t := { s with tagWrites := s.tagWrites.eraseIdx n }
    (w.held = none → w.peer = none → w.due ≤ s.cycle → (w.isRemote = true → s.alarm = none) → s.tagBlocked w = false →
      (∀ v ∈ s.tagWrites.take n, v.sameStream w = false) →
      (∀ v ∈ s.tagWrites.take n, v.held = none → v.due ≤ s.cycle → s.tagBlocked v = true →
        s.vaultOf (256 * v.line) ≠ s.vaultOf (256 * w.line)) →
      let u := if w.cmd.isSome then t else t.updFor w.kernel w.ctx fun x => { x with stqs := x.stqs - 1 }
      (s.tagMatches w = true → exec (.taggedWriteArrive n) s = .next (State.recheck w.line Config.heldMax (u.tagPerform w))) ∧
      (s.tagMatches w = false → exec (.taggedWriteArrive n) s = .next { u with
        tagWrites := u.tagWrites ++ [{ w with held := some s.cycle, start := (s.ctxFor w.kernel w.ctx).count }] })) ∧
    (∀ h, w.held = some h → h + Config.heldCycles ≤ s.cycle →
      (∀ k, w.cmd = some k → exec (.heldWriteTimeout n) s = .next ((t.updEngine k fun e => { e with tagged := e.tagged - 1 }).updEngine k
        fun e => { e with err := if e.err = 0 then enTagTime else e.err })) ∧
      (w.cmd = none → w.isReduce = false → exec (.heldWriteTimeout n) s = .next (t.notify evHealth w.part (coreOf w.ctx) w.launch [])) ∧
      (∀ d, w.cmd = none → w.isReduce = true → w.peer = some d → exec (.heldWriteTimeout n) s =
        .next (if s.alarm.isSome then t else { t with replies := t.replies ++ [{ dest := d, refused := some (.translation, 5) }] })))

/-- R152, R171: a cluster cache gives up a line: its bytes that are committed and not flushed reach memory as a device commit,
and neither the line nor those bytes are in the cache afterwards; of the bytes of other lines only those that a plied access has
written may follow them (read from R185, log entry 92). A clean line changes no byte of memory. A line with pending bytes is not given up
(R170). -/
def Claims.ReplacementStep : Prop :=
  ∀ (k line : Nat) (s : State), s.Canonical → s.pendsAt k line = false →
    line ∈ (s.cluster k).lines ∨ (∃ u ∈ (s.cluster k).unflushed, u.loc / 256 = line) →
    ∃ t, exec (.replacementWriteback k line) s = .next t ∧
      (t.cluster k).lines = (s.cluster k).lines.filter (fun l => l != line) ∧
      (∀ u ∈ (t.cluster k).unflushed, u.loc / 256 ≠ line) ∧
      ((∀ u ∈ (s.cluster k).unflushed, u.loc / 256 ≠ line) → t.dram = s.dram) ∧
      (∀ x, x / 256 ≠ line → (∀ j, ∀ u ∈ (s.cluster j).unflushed, u.loc = x → u.access = 0) →
        Memory.read t.dram x = Memory.read s.dram x)

/-- R311, R161, R149: a global walk begins a fetch of its next operand, one every four cycles and at most eight ahead, while its context
runs, between its tasks and while a trap has stopped it. The first
operand that has not arrived arrives, at the locked level 160 cycles after its fetch began, below it once the TLBs hold its pages: with
the bytes of the context's view or the fault that reading them meets, and every sector of its chunks fills the L1. Below the locked
level the page that the TLBs lack is asked for first; at that level it enters the core's TLB on arrival (log entry 56). -/
def Claims.PortOperandSteps : Prop :=
  ∀ (c port k : Nat) (s : State),
    let x := s.ctx c
    let w := Tab.get {} x.ports port
    let placed := x.run = .running ∨ x.run = .finishing ∨ x.run = .stopping ∨ x.run = .stopped ∨ ∃ t, x.run = .between t
    (placed → w.armed = true → w.glob = true → port < 4 → w.ahead.length < 8 → w.ahead.length < w.left port → w.from_ ≤ s.cycle →
      (∀ t, w.lastFetch = some t → t + 4 ≤ s.cycle) →
      exec (.portOperandFetch c port) s = .next (s.setCtx c { x with ports := Tab.set {} x.ports port { w with
        ahead := w.ahead ++ [{ began := s.cycle }], lastFetch := some s.cycle } })) ∧
    (w.ahead.findIdx? (fun f => !f.here) = some k →
      let per := w.operandBytes port / 2 ^ w.clog
      let addr := fun (i : Nat) => ofSigned 64 (w.addr ((w.popped + k) * per + i))
      let arrive := fun (t : State) =>
        let sees := t.updCtx c fun y => { y with walked := w.walked }
        let u := (List.range per).foldl (fun u i => match sees.resolve c .read false (addr i) with
          | .ok q => (sectorsOf q.loc (2 ^ w.clog)).foldl (fun v a => (v.cacheRead c a none).1) u
          | .error _ => u) t
        u.setCtx c { x with ports := Tab.set {} x.ports port { w with
          walked := []
          ahead := w.ahead.modify k fun f => match t.globalOperand c (x.seq * 16 + 16) port (w.popped + k) w with
            | .ok v => { f with here := true, val := v, fault := none }
            | .error r => { f with here := true, val := 0, fault := some r } } }
      (x.level = 2 → (w.ahead.getD k {}).began + 160 ≤ s.cycle →
        exec (.portOperandAvailable c port) s = .next (arrive (s.fillPort c port (w.popped + k) w))) ∧
      (x.level ≠ 2 → (∀ v ∈ s.walks ++ s.walksWaiting, v.who ≠ .port c port) →
        (s.portMissing c port (w.popped + k) w = none → exec (.portOperandAvailable c port) s = .next (arrive s)) ∧
        ∀ key, s.portMissing c port (w.popped + k) w = some key →
          exec (.portOperandAvailable c port) s = .next { s with walksWaiting := s.walksWaiting ++ [{
            who := .port c port, cluster := clusterOf (coreOf c), core := coreOf c, part := key.part, va := key.va
            region := key.region, since := s.cycle }] }))

/-- The cluster cache gives up a line, and a port fetches ahead: the claims before, together. -/
def Obligations.CacheAndPortSteps : Prop :=
  Claims.ReplacementStep ∧ Claims.PortOperandSteps

/-! ### Engines in flight -/

/-- R193 to R196, R198, R200, R202: a chunk of a command whose pages are in a TLB performs: what it writes reaches scratchpad
and memory, its tagged lines leave, an error is kept in the command, and the command counts the chunk; an EPAGE writes its pages
and its result record; an EDICT puts its dictionary on the pending face of its slot, or empties that face where it fails, with whatever
error, which is the model's choice (log entry 88). -/
def Claims.EngineChunkPerforms : Prop :=
  ∀ (n k : Nat) (s : State) (e : EngCmd), s.engines[n]? = some e → s.canChunk n = true → s.nextChunk e = some k →
    s.overtakes e k = false → s.chunkMiss e k = none → (e.level ≠ 2 ∨ e.late ≠ some k) →
    let f := { e with chunk := k }
    let count := fun (t : State) => t.updEngine e.id fun g =>
      if g.behind.contains k then { g with behind := g.behind.filter fun j => j != k }
      else { g with chunk := g.chunk + 1, nextAt := g.nextAt + (s.engTiming e).2 }
    let plain := fun (r : ChunkOut) =>
      let t := ({ s with fresh := s.fresh + 1 }.engCommit e.kernel r.out).updEngine e.id fun g =>
        { g with tagged := g.tagged + r.tags.length, rows := s.keptRows f }
      exec (.engineChunkPerform n) s = .next (count (({ t with tagWrites := t.tagWrites ++ r.tags }).engStopped f r.stop))
    let pend := fun (v : Option (List Byte)) => s.updCluster e.cluster fun y =>
      { y with dict := Tab.upd {} y.dict (bits e.cmdh 10 9) fun d => { d with pend := v } }
    (e.op = 0 → plain (s.ecopyChunk f)) ∧ (e.op = 1 → plain (s.egatherChunk f)) ∧ (e.op = 2 → plain (s.ereduceChunk f)) ∧
    (e.op = 3 → let r := s.epageRun f
      let t := { s.engCommit e.kernel r.out with fresh := s.fresh + e.st 3 % 2 ^ 32 + 1 }
      exec (.engineChunkPerform n) s = .next (count ((t.engStopped f r.stop).pageRecord f r))) ∧
    (e.op = 4 → (∀ b, s.edictRun f = .ok b → exec (.engineChunkPerform n) s = .next (count (pend (some b)))) ∧
      ∀ x, s.edictRun f = .error x → exec (.engineChunkPerform n) s = .next (count ((pend none).engStopped f (some x))))

/-- R161, R164: a chunk whose page no TLB holds: below the locked level it is kept back, its page's walk is asked for once, and
the chunks after it go on; at the locked level it performs 640 cycles later. -/
def Claims.EngineChunkMisses : Prop :=
  ∀ (n k : Nat) (s : State) (e : EngCmd) (key : PageKey), s.engines[n]? = some e → s.canChunk n = true →
    s.nextChunk e = some k → s.chunkMiss e k = some key →
    (s.overtakes e k = false → e.level ≠ 2 → ∃ t, exec (.engineChunkPerform n) s = .next t ∧
      t.engines = s.engines.map (fun f => if f.id = e.id ∧ k ∉ f.behind then
        { f with behind := f.behind ++ [k], chunk := f.chunk + 1 } else f) ∧ t.dram = s.dram ∧ t.tagWrites = s.tagWrites ∧
      t.walksWaiting = if s.engWalking e key then s.walksWaiting else s.walksWaiting ++ [{
        who := .engine e.id, cluster := e.cluster, core := e.core, part := key.part, va := key.va, region := key.region
        since := s.cycle, start := (s.ctxFor e.kernel e.ctx).count }]) ∧
    (s.overtakes e k = false → e.level = 2 → ∃ t, exec (.engineChunkPerform n) s = .next t ∧ t.tagWrites = s.tagWrites ∧
      { e with nextAt := e.nextAt + 640, late := some e.chunk } ∈ t.engines)

/-- R193, R194, R203: a chunk that writes a byte which a chunk before it, kept back, writes too, wherever the pages of their addresses
lead, is kept back behind that one, so that the elements of an ECOPY and the rows of an EGATHER are written in order. So is every chunk
behind one kept back in a command with an address of another device, whose accesses leave in order; that this comes before a page miss
is the model's reading (log entry 93). -/
def Claims.EngineChunkOrder : Prop :=
  ∀ (n k : Nat) (s : State) (e : EngCmd), s.engines[n]? = some e → s.canChunk n = true → s.nextChunk e = some k →
    (s.overtakes e k = true ↔ ∃ j ∈ e.behind, j < k ∧
      (e.away s.devId = true ∨ ∃ a ∈ s.targetBytes e j, a ∈ s.targetBytes e k)) ∧
    (s.overtakes e k = true → exec (.engineChunkPerform n) s = .next (s.updEngine e.id fun f => if k ∈ f.behind then f
      else { f with behind := f.behind ++ [k], chunk := f.chunk + 1 }))

/-- The chunks of engine commands in flight: the claims before, together. -/
def Obligations.EngineSteps : Prop :=
  Claims.EngineChunkPerforms ∧ Claims.EngineChunkMisses ∧ Claims.EngineChunkOrder

/-- R199, R200, R56, R43, R242: a command that has ended leaves flight, with the record of its wait for walks where it has one in
progress, and so does the scratchpad kept for a killed kernel whose last
command it was, which the model keeps that long (log entry 27). With an error its completion word goes to the owner, under the TAG of
its LAUNCH, and nothing is counted; else, below the locked level and with EV, its event counter or its page-arrival set goes up by one,
and at the elastic level with CI its word is held for its context's completion handler. The dictionary of an EDICT counts as loaded from
then on (R198). The event's TAG is the model's reading (log entry 15). -/
def Obligations.EngineCompletion : Prop :=
  ∀ (n : Nat) (s : State) (e : EngCmd), s.engines[n]? = some e → e.copy = none →
    let rest := s.engines.filter fun f => f.id != e.id
    let t := match e.wait with | some d => s.putRecord e.core (e.ctx % 2) d | none => s
    let t := { t with
      engines := rest, walksWaiting := s.walksWaiting.filter fun w => w.who != .engine e.id
      saved := s.saved.filter fun v => (s.kernel v.kernel).isSome || rest.any fun f => f.kernel == v.kernel && f.copy.isNone }
    let t := if e.op = 4 then t.updCluster e.cluster fun k =>
      { k with dict := Tab.upd {} k.dict (bits e.cmdh 10 9) fun d => { d with loaded := some s.cycle } } else t
    let ends := e.chunks ≤ e.chunk ∧ e.behind = [] ∧ e.tagged = 0 ∧ (e.level ≠ 2 ∨ e.chunks ≠ 0 ∨ e.nextAt ≤ s.cycle)
    let count := fun (u : State) => if e.level ≠ 2 ∧ bitAt e.cmdh 14 then
        if e.op = 3 ∧ bitAt e.cmdh 13 then
          u.updPart e.part fun x => { x with arrivals := Tab.upd 0 x.arrivals (e.cmdh % 64) fun v => v + 1 }
        else u.updPart e.part fun x => { x with counters := Tab.upd 0 x.counters (e.cmdh % 256) fun v => v + 1 }
      else u
    (e.err ≠ 0 → exec (.engineComplete n) s = .next ((t.engineTrailer e).notify evEngine e.part e.core e.tag [e.word])) ∧
    (e.err = 0 → ends → e.level ≠ 0 ∨ bitAt e.cmdh 15 = false ∨ e.orphan = true →
      exec (.engineComplete n) s = .next (count t)) ∧
    (e.err = 0 → ends → e.level = 0 → bitAt e.cmdh 15 = true → e.orphan = false →
      exec (.engineComplete n) s = .next ((count t).updFor e.kernel e.ctx fun x =>
        { x with irq := x.irq ++ [e.word] }))

/-! ### Kernels -/

/-- R57: where a LAUNCH is ready one is selected: of the ready LAUNCHes one of the highest priority, and of those the oldest. -/
def Obligations.OldestOfHighestPriorityFirst : Prop :=
  ∀ (l : List Ready), (firstReady l = none ↔ l = []) ∧ ∀ r, firstReady l = some r →
    r ∈ l ∧ ∀ u ∈ l, u.desc.prio < r.desc.prio ∨ (u.desc.prio = r.desc.prio ∧ r.k.arrival ≤ u.k.arrival)

/-- R49, R51: tile ordinal n of a descriptor whose PERM names each level once has the coordinate whose digits it is, position
D − 1 varying fastest; the slices of a kernel's cores partition its tiles: the first begins at tile 0, each begins where the one
before it ends, and the last ends with the last tile. -/
def Claims.TilesAndSlices : Prop :=
  ∀ (d : Desc),
    let below := fun (j : Nat) => (((List.range d.depth).filter fun i => j < i).map fun i => d.extent (d.perm i)).prod
    (d.tiles = ((List.range d.depth).map d.extent).prod) ∧
    ((∀ i < d.depth, ∀ j < d.depth, d.perm i = d.perm j → i = j) → ∀ n < d.tiles, ∀ j < d.depth,
      Tab.get 0 (d.tileCoord n) (d.perm j) = n / below j % d.extent (d.perm j)) ∧
    (0 < d.rangeW * d.rangeH / d.stages →
      (sliceOf d 0).1 = 0 ∧ (∀ k, (sliceOf d k).2 = (sliceOf d (k + 1)).1) ∧
      (sliceOf d (16 * (d.rangeW * d.rangeH / d.stages) - 1)).2 = d.tiles)

/-- R51: stage s has the C/S logical clusters from s × C/S on; the core at (lx, ly) of one of them has the slice of its index in the
stage, the ordinals from ⌊kT/P⌋ up to ⌊(k + 1)T/P⌋ − 1. Each of its kernel contexts, one or two, begins at its own ordinal, goes on by
the number of contexts, and ends with the slice; j counts both the tasks and the contexts, and hardware context j runs them where there
are two. Where that leaves it no ordinal, a core or a context receives nothing. -/
def Claims.SlicesToContexts : Prop :=
  ∀ (k : Kernel),
    let d := k.d
    let per := d.rangeW * d.rangeH / d.stages
    let index := fun (n lx ly : Nat) => (n - n / per * per) * 16 + 4 * ly + lx
    let first := fun (i : Nat) => i * d.tiles / (16 * per)
    0 < per →
    (∀ t ∈ k.posts, ∃ n lx ly : Nat, n < d.rangeW * d.rangeH ∧ lx < 4 ∧ ly < 4 ∧ t.j < d.perCore ∧ t.pcore = k.pcore n lx ly ∧
      t.share.stage = n / per ∧ t.share.lclu = n ∧ t.share.lcore = index n lx ly ∧
      t.share.tile = first (index n lx ly) + t.j ∧ t.share.tileEnd = first (index n lx ly + 1) ∧ t.share.tile < t.share.tileEnd ∧
      t.share.tileStep = d.perCore) ∧
    (∀ n < d.rangeW * d.rangeH, ∀ lx < 4, ∀ ly < 4, ∀ j < d.perCore,
      first (index n lx ly) + j < first (index n lx ly + 1) →
      ∃ t ∈ k.posts, t.j = j ∧ t.pcore = k.pcore n lx ly ∧ t.share.lclu = n ∧ t.share.lcore = index n lx ly) ∧
    (∀ (s : State) (again : List Nat) (t : Post), d.perCore = 2 → s.contextFor k again t = 2 * t.pcore + t.j) ∧
    ∀ x : Ctx, x.lastTask = decide (x.share.tileEnd ≤ x.share.tile + x.share.tileStep)

/-- The tiles of a kernel and what its cores and contexts receive of them: the claims before, together. -/
def Obligations.TilesAndSlices : Prop :=
  Claims.TilesAndSlices ∧ Claims.SlicesToContexts

/-- R57, R52, R53, R199: a kernel that can be dispatched takes its place; a context whose clear has ended runs at its kernel's entry
with its arguments, and kernel context 0 of a core begins with an empty array and transpose queue and with no drain due, which is the
model's choice (log entry 65); a context that has ended, with no command and no handler left, is freed, and its kernel retires with its
last context; a killed one is freed once no command of its kernel is in flight, which is the model's reading (log entry 27). A walk of a
context that leaves ends for nobody (log entry 14). That a kernel retires when its contexts are freed, and what may be placed beside a
locked context that has ended, is the model's choice (log entry 84). -/
def Obligations.KernelSteps : Prop :=
  ∀ (p c m n : Nat) (s : State) (r : Ready) (l : List Spot),
    let x := s.ctx c
    (s.dispatchable p = some (r, l) → s.lockedChunk = false → s.lockedTag = false →
      exec (.kernelDispatch p) s = .next (s.place (s.makeKernel p r.queue r.k (pickOne s.fresh l)) [])) ∧
    (x.run = .clearing m n → n ≤ s.cycle → s.alarm = none →
      let t := s.setCtx c { x.giveArgs with run := .running, pc := x.share.entry, tc := s.tileCoords x }
      exec (.contextStart c) s = .next (if c % 2 = 0 then
        t.updCore (coreOf c) fun k => { k with arr := {}, tiles := [], drains := [] } else t)) ∧
    (x.run = .dying → (s.core (coreOf c)).fenced = false → s.Canonical →
      (∀ e ∈ s.engines, ¬ (e.kernel = x.share.kernel ∧ e.copy = none)) →
      exec (.contextFree c) s = .next ((((s.flushRecords c).dropReadOnly c).orphanWalks (· == c)).updCtx c Ctx.emptied)) ∧
    (x.run = .finishing → x.handler = none → x.irq = [] → s.Canonical →
      (∀ e ∈ s.engines, ¬ (e.ctx = c ∧ e.kernel = x.share.kernel ∧ e.copy = none)) →
      ∃ t, exec (.contextFree c) s = .next t ∧ (t.ctx c).run = .free ∧
        ∀ k, s.kernel x.share.kernel = some k →
          let left := k.left.filter fun a => a != c
          t.kernel x.share.kernel = if left = [] then none else some { k with left })

/-- R61, R235: the three steps of the watchdog, one after another, when their limits are reached. The first asks every context of the
head kernel for a pre-emption; the second kills the head kernel, or abandons the head packet, and halts the queue; the third fences out
the cores of contexts that have not stopped and tells the owner. That the counter goes on after the kill is the model's reading (log
entry 47), as are the event's body and TAG (log entry 15) and what becomes of a kernel that runs again after a data error (log entry
26). -/
def Obligations.WatchdogSteps : Prop :=
  ∀ (p q : Nat) (s : State), (s.part p).on = true → (s.queue p q).packets ≠ [] →
    let x := s.queue p q
    let acted := fun (n : Nat) (t : State) => t.updQueue p q fun y => { y with acted := n }
    (x.halt = none → x.acted = 0 → x.lim1 ≤ x.watch → exec (.watchdogPreempt p q) s = .next (match s.headKernel p q with
      | none => acted 1 s
      | some k => k.left.foldl (fun t c => if (t.ctx c).share.kernel = k.id then
          t.updCtx c fun y => { y with preempt := true } else t) (acted 1 s))) ∧
    (x.halt = none → x.acted = 1 → x.lim2 ≤ x.watch → exec (.watchdogKill p q) s = .next (acted 2 (match s.headKernel p q with
        | some k => (s.killInQueue k .killed).updQueue p q fun y => { y with packets := markHead (k.level == 2) y.packets }
        | none => ({ s with engines := s.engines.filter fun e => e.copy != some (p, q) }.dropRerun p q).haltQueue p q .killed))) ∧
    (x.acted = 2 → x.lim3 ≤ x.watch → s.stuck p q ≠ [] → exec (.watchdogFence p q) s = .next ((acted 3
      ((s.stuck p q).foldl (fun t c => t.updCore (coreOf c) fun k => { k with fenced := true }) s)).notify evHealth p
        (coreOf ((s.stuck p q).headD 0)) (s.headTag p q) []))

/-! ### Packets at the head of a queue -/

/-- R48, R346, R56: a LAUNCH whose descriptor passes every row of R48 waits for its dispatch, and one that does not halts the
queue; a COPY enters its command in flight; a DEP and a SETDET wait for their conditions, a SETDET with the reserved level halting
the queue; a SIGNAL adds to its event counter and completes. A DEP or a SIGNAL whose body is not allowed halts the queue; R255 reserves no
bit of a COPY's body. -/
def Obligations.PacketsBegin : Prop :=
  ∀ (p q : Nat) (s : State) (k : QPacket), (s.queue p q).head = .idle →
    let w := pkWord k.pk 0
    let waits := s.updQueue p q fun x => { x with head := .waiting }
    let finish := fun (t : State) => t.updQueue p q fun x =>
      { x with packets := x.packets.tail, head := .idle, watch := 0, acted := 0, digest := none }
    (s.AtHead p q k tyLaunch → exec (.launch p q) s =
      .next (if (packetDesc k.pk).ok (s.part p) (s.queue p q).level then waits else s.haltQueue p q .launchError)) ∧
    (s.AtHead p q k tyCopy →
      let e : EngCmd :=
        { id := s.serial + 1, stage := k.pk.body, core := 16 * (s.part p).clusters.headD 0
          cluster := (s.part p).clusters.headD 0, part := p, issued := s.cycle, copy := some (p, q) }
      let t : State := { s with serial := s.serial + 1, engines := s.engines ++ [e] }
      exec (.copy p q) s = .next (t.updQueue p q fun x => { x with head := .running (s.serial + 1) })) ∧
    (s.AtHead p q k tyDep → bitAt w 63 = false → exec (.depEvent p q) s =
      .next (if bodyBad k.pk then s.haltQueue p q .packetError else waits)) ∧
    (s.AtHead p q k tyDep → bitAt w 63 = true → exec (.depPageSet p q) s =
      .next (if bodyBad k.pk then s.haltQueue p q .packetError else waits)) ∧
    (s.AtHead p q k tySignal → exec (.signal p q) s = .next (if 256 ≤ w then s.haltQueue p q .packetError else
      finish (s.updPart p fun x =>
        { x with counters := Tab.upd 0 x.counters (w % 256) fun v => v + BitVec.ofNat 64 (pkWord k.pk 1) }))) ∧
    (s.AtHead p q k tySetdet → bitAt w 2 = false → exec (.setdetQueue p q) s =
      .next (if w % 4 = 3 then s.haltQueue p q .launchError else waits)) ∧
    (s.AtHead p q k tySetdet → bitAt w 2 = true → exec (.setdetPartition p q) s =
      .next (if w % 4 = 3 then s.haltQueue p q .launchError else waits))

/-- R56, R226, R256: what waits at the head of a queue completes. A DEP completes when its counter or its set has reached its value,
and takes that value from a set; a SETDET when every kernel of its queue or of its partition has retired and, for the partition, no
SETDET that arrived earlier stands at a head, setting the level of one queue or of all sixteen, whose accepted LAUNCHes are checked
again (the model's choice, log entry 68); a COPY with its last chunk, or with an error that halts the queue and reaches the owner. -/
def Obligations.PacketsComplete : Prop :=
  ∀ (p q : Nat) (s : State) (k : QPacket) (e : EngCmd),
    let w := pkWord k.pk 0
    let finish := fun (t : State) => t.updQueue p q fun x =>
      { x with packets := x.packets.tail, head := .idle, watch := 0, acted := 0, digest := none }
    let waiting := (s.queue p q).head = .waiting
    (s.AtHead p q k tyDep → waiting → bitAt w 63 = false → pkWord k.pk 1 ≤ (Tab.get 0 (s.part p).counters (w % 256)).toNat →
      exec (.depComplete p q) s = .next (finish s)) ∧
    (s.AtHead p q k tyDep → waiting → bitAt w 63 = true → pkWord k.pk 1 ≤ Tab.get 0 (s.part p).arrivals (w % 256) →
      exec (.depComplete p q) s = .next (finish (s.updPart p fun x =>
        { x with arrivals := Tab.upd 0 x.arrivals (w % 256) fun v => v - pkWord k.pk 1 }))) ∧
    (s.AtHead p q k tySetdet → waiting → bitAt w 2 = false → s.unretired p (some q) = false →
      exec (.setdetComplete p q) s = .next (finish (s.updQueue p q fun x => { x with level := w % 4 }))) ∧
    (s.AtHead p q k tySetdet → waiting → bitAt w 2 = true → s.unretired p none = false →
      (∀ r < 16, ∀ j, s.headSetdet p r = some j → k.arrival ≤ j.arrival) →
      exec (.setdetComplete p q) s = .next (finish ((List.range 16).foldl (fun t r =>
        (t.updQueue p r fun x => { x with level := w % 4 }).recheck? p r) s))) ∧
    (s.AtHead p q k tyCopy → (s.queue p q).head = .running e.id →
      s.engines.find? (fun f => f.copy == some (p, q) && f.id == e.id) = some e →
      let t := { s with
        engines := s.engines.filter fun f => f.id != e.id, walksWaiting := s.walksWaiting.filter fun w => w.who != .engine e.id }
      (e.err = 0 → e.chunks ≤ e.chunk → e.behind = [] → exec (.copyComplete p q) s = .next (finish t)) ∧
      (e.err ≠ 0 → exec (.copyComplete p q) s = .next ((t.updQueue p q fun x =>
        { x with halt := some .copyError, head := .idle, digest := none }).notify evEngine p 0 (pkTag k.pk) [e.word])))

/-- R213, R220, R251, R255: PUBLISH publishes a region of which the partition is the learner, sends the result word to its SRC and
completes; a CAPTURE starts, stops or resumes the capture of a version, and what becomes of the capture of another version of the region
is the model's choice (log entry 81); a page of a capture goes to flash, the first whose G differs from CG, and takes the G of the
capture. In a replay PUBLISH and CAPTURE are skipped. -/
def Claims.VersionPackets : Prop :=
  ∀ (p q r d va size : Nat) (s : State) (k : QPacket) (c : Capture) (g : Region),
    let w := pkWord k.pk 0
    let finish := fun (t : State) => t.updQueue p q fun x =>
      { x with packets := x.packets.tail, head := .idle, watch := 0, acted := 0, digest := none }
    let good := (s.queue p q).head = .idle ∧ bodyBad k.pk = false ∧ (s.part p).replay = none
    let skipped := (s.queue p q).head = .idle ∧ (s.part p).replay.isSome
    (s.AtHead p q k tyPublish → skipped → exec (.publish p q) s = .next (finish s)) ∧
    (s.AtHead p q k tyCapture → skipped → (w % 4 = 0 → exec (.captureStart p q) s = .next (finish s)) ∧
      (w % 4 = 1 → exec (.captureStop p q) s = .next (finish s)) ∧ (w % 4 = 2 → exec (.captureResume p q) s = .next (finish s))) ∧
    (s.AtHead p q k tyPublish → good →
      let t := s.atRegion (w % 8)
      let out := match t.region (w % 8) with
        | some g => if g.lpart = p then t.publishRegion (w % 8) g else (pubFail 0 0, t)
        | none => (pubFail 0 0, t)
      exec (.publish p q) s =
        .next (finish (out.2.sendTo (pkSrc k.pk) (eventD0 evPublish p 0 (pkTag k.pk)) [BitVec.ofNat 64 out.1]))) ∧
    (s.AtHead p q k tyCapture → good → w % 4 = 0 → exec (.captureStart p q) s =
      .next (finish (s.startCapture (bits w 4 2) (bits w 31 16) (flashBase (pkWord k.pk 1)) false))) ∧
    (s.AtHead p q k tyCapture → good → w % 4 = 2 → exec (.captureResume p q) s =
      .next (finish (s.startCapture (bits w 4 2) (bits w 31 16) (flashBase (pkWord k.pk 1)) true))) ∧
    (s.AtHead p q k tyCapture → good → w % 4 = 1 →
      let u := s.atRegion (bits w 4 2)
      exec (.captureStop p q) s = .next (finish (match u.captures.find? (fun c => c.region == bits w 4 2), u.region (bits w 4 2) with
        | some c, some g => if (g.slots.getD c.slot {}).ver = bits w 31 16 then u.dropCapture (bits w 4 2) c.slot else u
        | _, _ => u))) ∧
    (s.alarm = none → s.captures.find? (fun c => c.region == r) = some c → s.region r = some g → s.nextCapture g c.slot = some (va, d, size) →
      let a := s.dword d
      let page := (List.range (2 ^ pageBits size)).map fun i => s.homeByte (descAddr a + i)
      exec (.capturePageWrite r) s = .next (((s.sendRemote (cellsAt (c.fbase + (va - g.vbase * 2 ^ 30)) page)).putDword d
        (if g.cg then a + 2 ^ 54 else a - 2 ^ 54)).settleCapture r))

/-- R247, R248, R250: the MARK packets. ON numbers packets afresh; OFF ends the capture; DECL takes the list of regions from
memory; SNAP writes the declared in-regions to the log, waits for room, or in mark mode counts a gap; MODE says what happens
with no room. In a replay each is skipped (R251). The tails of the rings go on when their reader says so. The list of a DECL in memory is
laid out as log entry 16 says. -/
def Claims.MarkPackets : Prop :=
  ∀ (p q : Nat) (v : Word64) (s : State) (k : QPacket),
    let w := pkWord k.pk 0
    let finish := fun (t : State) => t.updQueue p q fun x =>
      { x with packets := x.packets.tail, head := .idle, watch := 0, acted := 0, digest := none }
    let first := s.AtHead p q k tyMark ∧ (s.queue p q).head = .idle
    let good := first ∧ bodyBad k.pk = false ∧ (s.part p).replay = none
    let x := s.part p
    let body := snapBody (s.snapshot p q)
    let tail := v.toNat % 2 ^ 32 / 16 * 16
    let t := { s with owner := { s.owner with heard := s.cycle } }
    (good → w % 8 = 0 → exec (.markOn p q) s = .next (finish (s.updPart p fun x => { x with logOn := true, logSeq := 0, gap := none }))) ∧
    (good → w % 8 = 1 → exec (.markOff p q) s = .next ((finish (s.updPart p fun x => { x with logOn := false })).settleLog p)) ∧
    (good → w % 8 = 2 → exec (.markDecl p q) s =
      .next (finish (s.updQueue p q fun x => { x with declared := declared (s.bytesAt p (pkWord k.pk 1) 512) }))) ∧
    (good → w % 8 = 4 → exec (.markMode p q) s =
      .next ((finish (s.updPart p fun x => { x with logMark := bitAt w 3 })).settleLog p)) ∧
    (good → w % 8 = 3 →
      (x.logOn = false → exec (.markSnap p q) s = .next (finish s)) ∧
      (x.logOn = true → x.logFits body.length = true → exec (.markSnap p q) s =
        .next (finish ((s.logWrite p 1 q x.logSeq body).updQueue p q fun y => { y with snap := some (s.snapshot p q) }))) ∧
      (x.logOn = true → x.logFits body.length = false → x.logMark = true →
        exec (.markSnap p q) s = .next (finish (s.logGap p q k.seq))) ∧
      (x.logOn = true → x.logFits body.length = false → x.logMark = false → exec (.markSnap p q) s =
        .next (s.updQueue p q fun y => { y with head := .waiting }))) ∧
    (first → x.replay.isSome → (w % 8 = 0 → exec (.markOn p q) s = .next (finish s)) ∧
      (w % 8 = 1 → exec (.markOff p q) s = .next (finish s)) ∧ (w % 8 = 2 → exec (.markDecl p q) s = .next (finish s)) ∧
      (w % 8 = 3 → exec (.markSnap p q) s = .next (finish s)) ∧ (w % 8 = 4 → exec (.markMode p q) s = .next (finish s))) ∧
    (s.Reached → x.on = true →
      exec (.ringTailAdvance p false v) s = .next (t.updPart p fun y => { y with dmpTail := tail }) ∧
      exec (.ringTailAdvance p true v) s = .next ((t.updPart p fun y => { y with logTail := tail }).settleLog p))

/-- Versions, captures and marks at the head of a queue: the claims before, together. -/
def Obligations.CaptureAndMarkPackets : Prop :=
  Claims.VersionPackets ∧ Claims.MarkPackets

/-! ### Faults, pre-emption, dumps and the supervisor -/

/-- R228, R230, R232, R253: once every variable-latency result has come back, the record step of a stopped context completes; that of a
fatal trap after the cycle of its fault, and behind those of the same cycle and partition in contexts of a lower CTX. For a trap
that is neither a data error nor fatal, with no request held, the record stands at FRBASE + 10,240 per context afterwards, no longer than
those bytes, and every byte of memory outside that place stays; the owner is told; the context is then stopped with its faces, written
bits and latches as they were, and results that memory has delivered wait for their cycles like any other. How many entries the record
holds is the model's reading (log entry 57), and so is the event's body and TAG (log entry 15). -/
def Claims.FaultRecordStep : Prop :=
  ∀ (c : Nat) (s : State) (t : Stop) (k : Kernel),
    let x := s.ctx c
    let at_ := (s.part k.part).frbase.toNat + 10240 * c
    let fatal := fun (d : Nat) => (s.ctx d).run = .stopping ∧ ∃ z, (s.ctx d).stop = some z ∧ z.raised.cause ≠ .dataError ∧
      bitAt (s.part (s.ctx d).part).fatal.toNat z.raised.cause.code = true
    x.run = .stopping → (∀ r ∈ x.inflight, r.isVar = true → r.ready = true ∧ r.at_ ≤ s.cycle) →
    (fatal c → s.faultCycle c < s.cycle ∧
      ∀ d < c, (s.ctx d).part = x.part → fatal d → s.faultCycle d ≠ s.faultCycle c) →
    (∃ u, exec (.faultRecordWrite c) s = .next u) ∧
    (s.Canonical → x.stop = some t → s.kernel x.share.kernel = some k → t.raised.cause ≠ .dataError →
      bitAt (s.part k.part).fatal.toNat t.raised.cause.code = false → t.held = none →
      let stop := { t with more := x.laterFaults t (s.part k.part).fatal }
      let y := { x.settled with run := .stopped, stop := some stop }
      ∃ u : State, exec (.faultRecordWrite c) s =
          .next (u.notify evFault k.part (coreOf c) (s.kernelTag k.id) [BitVec.ofNat 64 (c % 2)]) ∧
        u.ctx c = y ∧ (∀ j, j ≠ c → u.ctx j = s.ctx j) ∧ u.sent = s.sent ∧ u.kept = s.kept ∧ u.parts = s.parts ∧
        (y.record stop).length ≤ 10240 ∧ Memory.readN u.dram at_ (y.record stop).length = y.record stop ∧
        ∀ a, a < at_ ∨ at_ + 10240 ≤ a → Memory.read u.dram a = Memory.read s.dram a)

/-- R230, R228: what the record holds. Its first four words are the cause with its condition, the bundle and position of the faulting
syllable; the phase, imm8, the level, whether the handler ran and whether the trap fell in a FLIP wait, and how far that had come, the
number of entries and DONE; the faulting address; and RPC. The entries follow, 152 bytes each. -/
def Claims.FaultRecordBytes : Prop :=
  ∀ (x : Ctx) (t : Stop),
    let word := fun (n : Nat) => ofBytes (((x.record t).drop (8 * n)).take 8)
    let n := x.listed.length
    t.raised.cond < 16 → t.raised.pos < 12 → t.raised.imm < 256 → x.level < 3 →
    n ≤ 64 ∧ (x.record t).length = 32 + 152 * n ∧
    bits (word 0) 63 56 = t.raised.cause.code ∧ bits (word 0) 55 52 = t.raised.cond ∧ bits (word 0) 51 48 = 0 ∧
    bits (word 0) 47 4 = t.baddr / 16 % 2 ^ 44 ∧ bits (word 0) 3 0 = t.raised.pos ∧
    bits (word 1) 63 48 = x.phase % 2 ^ 16 ∧ bits (word 1) 47 40 = t.raised.imm ∧ bits (word 1) 39 38 = x.level ∧
    bitAt (word 1) 37 = t.hnd ∧ bitAt (word 1) 36 = t.fwait ∧ bits (word 1) 31 19 = 0 ∧ bits (word 1) 18 12 = n ∧
    bits (word 1) 11 0 = t.done % 2 ^ 12 ∧
    (∀ w, t.fwait = true → x.flip = some w → bitAt (word 1) 32 = w.released ∧ bitAt (word 1) 33 = w.arrived) ∧
    word 2 = t.raised.faddr % 2 ^ 64 ∧ bits (word 3) 47 4 = t.rpc / 16 % 2 ^ 44 ∧ bits (word 3) 3 0 = 0 ∧ bits (word 3) 63 48 = 0

/-- The fault record, its bytes and the step that writes it: the claims before, together. -/
def Obligations.FaultRecordStep : Prop :=
  Claims.FaultRecordStep ∧ Claims.FaultRecordBytes

/-- R232, R261, R253: the supervisor commands, of the owner or of the partition firmware. CTXCMD resumes, kills or pre-empts a
context of its partition, and what it cannot apply to it ignores; a kill that waits for the record is not undone by a resume; QCTL
lets a halted queue go on, discards its head, or discards every packet of a queue whose head is no running kernel. Only what the
owner sends lets its lease go on, which is the model's reading (log entry 19). -/
def Obligations.SupervisorCommands : Prop :=
  ∀ (p c q : Nat) (owner : Bool) (s : State), (s.part p).on = true → s.alarm = none → (owner = true → s.Reached) →
    let x := s.ctx c
    let t := if owner then { s with owner := { s.owner with heard := s.cycle } } else s
    let reached := x.run ≠ .free ∧ x.share.lpart = p ∧ c ∉ (s.part p).dumps ∧ (s.part p).dead = false
    let queue := s.queue p q
    let dropped := fun (u : State) => u.updPart p fun y => { y with reruns := y.reruns.filter fun r => r.kernel.queue != q }
    (x.run = .stopped → x.stop.isSome → reached → exec (.ctxcmdResume ⟨p, owner⟩ c) s = .next (t.resumeCtx c)) ∧
    (x.run = .stopping → reached → exec (.ctxcmdResume ⟨p, owner⟩ c) s = .next (t.updCtx c fun y =>
      { y with stop := y.stop.map fun z => { z with held := if z.held = some 2 then z.held else some 1 } })) ∧
    (x.run = .stopped → reached → exec (.ctxcmdKill ⟨p, owner⟩ c) s = .next (t.killCtx c)) ∧
    (x.run = .stopping → reached → exec (.ctxcmdKill ⟨p, owner⟩ c) s = .next (t.updCtx c fun y =>
      { y with stop := y.stop.map fun z => { z with held := some 2 } })) ∧
    (x.run = .running ∨ (x.run = .finishing ∧ x.handler.isSome) ∨ (∃ n, x.run = .between n) → reached →
      exec (.ctxcmdPreempt ⟨p, owner⟩ c) s = .next (t.updCtx c fun y => { y with preempt := true })) ∧
    (¬ reached → exec (.ctxcmdResume ⟨p, owner⟩ c) s = .next t ∧ exec (.ctxcmdKill ⟨p, owner⟩ c) s = .next t ∧
      exec (.ctxcmdPreempt ⟨p, owner⟩ c) s = .next t) ∧
    (queue.halt.isSome → (s.part p).dead = false → exec (.qctlResume ⟨p, owner⟩ q) s = .next (t.updQueue p q fun y =>
        { y with halt := none, head := .idle, watch := 0, acted := 0 })) ∧
    (queue.halt.isSome → (s.part p).dead = false → exec (.qctlDiscardHead ⟨p, owner⟩ q) s =
      .next (((dropped t).updQueue p q fun y => { y with halt := none }).finish p q)) ∧
    (s.headKernel p q = none →
      let u : State := { t with engines := t.engines.filter fun e => e.copy != some (p, q) }
      exec (.qctlDiscardAll ⟨p, owner⟩ q) s = .next ((dropped u).updQueue p q fun y =>
        { y with packets := [], head := .idle, watch := 0, acted := 0, digest := none })) ∧
    ((s.headKernel p q).isSome → exec (.qctlDiscardAll ⟨p, owner⟩ q) s = .next t)

/-- R234: a context asked for its pre-emption, at its boundary and with everything it has sent come back, goes to its slot with
its scratchpad and, where it has used it, the array (R234: what stands where in the slot is `State.wholeImage`); a saved context whose place is free, and that no LAUNCH is before, comes
back with what was saved, or with a clear array where none was. A locked kernel's replay fails. What the bytes of a slot are where
the spec gives only their place is the model's own (log entry 17), and so is the order against a LAUNCH (log entry 26), the clear array
(log entry 69), the empty TLB of a locked context that comes back (log entry 54), the scratchpad words that are then free of errors (log
entry 13) and the time that a VERPUB in flight has still to wait (log entry 83). -/
def Claims.PreemptionSteps : Prop :=
  ∀ (c : Nat) (s : State) (v : Saved),
    let x := s.ctx c
    let k := s.core (coreOf c)
    (x.preempt = true → x.run = .running ∨ (x.run = .finishing ∧ x.handler.isSome) ∨ (∃ n, x.run = .between n) →
      s.collected c = true → (∀ d ∈ k.drains, d.ctx = c → d.till = none) → (∀ w ∈ s.verReqs, w.ctx ≠ c) →
      (∀ a ∈ s.atomics, a.ctx ≠ c) →
      let t := s.deviceCommit .device (cellsAt ((s.part x.part).svbase.toNat + 2 ^ 20 * c) (s.wholeImage c))
      let saved : Saved :=
        { c, kernel := x.share.kernel, run := x.run, spad := Memory.readN k.spad x.alloc.spbase (256 * x.alloc.spad)
          arr := if c % 2 = 0 ∧ x.usedX = true then some k.arr else none, tiles := if c % 2 = 0 then k.tiles else []
          drains := k.drains.filter fun d => d.ctx == c }
      let u : State := { t.orphanWalks (· == c) with saved := t.saved ++ [saved], fresh := t.fresh + 2 ^ 20 }
      let u := u.updCore (coreOf c) fun y => { y with drains := y.drains.filter fun d => !(d.ctx == c) }
      let u := u.setCtx c { x.settled.dropAhead s.cycle with run := .preempted, preempt := false, walked := [] }
      exec (.preemption c) s = .next (if x.level = 2 then u.updKernel x.share.kernel fun k => { k with nr := true } else u)) ∧
    (s.restorable c = some v →
      let y := s.ctxFor v.kernel c
      let t := { s with saved := s.saved.filter fun u => !(u.c == c && u.kernel == v.kernel) }
      let y : Ctx := { y with inflight := y.inflight.map fun (r : Result) => { r with clocked := r.clocked.map fun _ => s.cycle + (r.due - y.count) } }
      exec (.contextRestore c) s = .next ((t.setCtx c { y with run := v.run, brka := x.brka, brkaNew := x.brkaNew }).updCore
        (coreOf c) fun k => { k with
          spad := Memory.writeAll k.spad (cellsAt y.alloc.spbase v.spad)
          bad := k.bad.filter fun w => 8 * w < y.alloc.spbase || y.alloc.spbase + v.spad.length ≤ 8 * w
          arr := if c % 2 = 0 then v.arr.getD {} else k.arr
          tiles := if c % 2 = 0 then v.tiles else k.tiles
          drains := k.drains ++ v.drains
          tlb := if y.level = 2 then [] else k.tlb }))

/-- R235, R252, R253: a dump is written to the next slot of its ring, and the ring's head goes on; a dump engine that cannot write
a free slot stops the partition: its contexts, its dispatch and its sixteen queues. A data error's two runs begin from the snapshot,
on the placement of the first run; where both retire alike the owner is told and the LAUNCH completes. The place of a dump in its
ring is the model's reading (log entry 18), and so are the bodies and TAGs of the events (log entry 15). -/
def Claims.DumpAndRerunSteps : Prop :=
  ∀ (p c m : Nat) (s : State) (rest : List Nat) (r : Rerun) (d : List Byte) (n1 n2 : Bool), s.Canonical →
    let x := s.part p
    let k := r.kernel
    (x.dumps = c :: rest → s.dumpBad p = false → x.dumpFull = false → ∃ t, exec (.dumpComplete p) s = .next t ∧
      (t.part p).dumps = rest ∧ (t.part p).dmpHead = (x.dmpHead + x.dumpSlot) % x.dumpRing) ∧
    (x.dumps ≠ [] → x.dumpFull = false → s.dumpBad p = true → ∃ t, exec (.dumpEngineFault p) s = .next t ∧
      (t.part p).dead = true ∧
      (t.part p).dumps = [] ∧ (∀ q < 16, (t.queue p q).halt = some .dumpEngine) ∧ t.dram = s.dram ∧
      ∀ j, (s.ctx j).run = .running → (s.ctx j).share.lpart = p → (t.ctx j).run = .stopped) ∧
    (s.nextRerun p = some r → r.ends.length < 2 →
      let t := match (s.queue k.part k.queue).snap with | some l => s.restoreSnap k.part l | none => s
      exec (.rerunCompare p) s = .next (t.place { k with
        id := t.serial + 1, ctxs := [], left := [], cyc := 0, rerun := r.ends.length + 1 } k.ctxs)) ∧
    (s.nextRerun p = some r → r.ends = [.retired d m n1, .retired d m n2] → exec (.rerunCompare p) s =
      .next (((s.dropRerun k.part k.queue).notify evSoft k.part r.core (s.headTag k.part k.queue) []).endLaunch
        { k with cyc := m, nr := n2 }))

/-- R234: what the slot of a context holds, by offset: the registers of each file, h0 to h7, the in-flight list in the form of the fault
record, with DONE and RPC of the place where the context stands, the latches' valid bits and landing cycles, the scratchpad allocation,
and behind it the array state where class 9 has been used. The order of the two faces of a register, the
visible one first, is the model's, and so is the place of a latch and of its cycle among the latches' bytes (log entry 17). -/
def Claims.SlotLayout : Prop :=
  ∀ (c : Nat) (s : State),
    let x := s.ctx c
    let at_ := fun (off n : Nat) => ((s.wholeImage c).drop off).take n
    let place : Stop := match x.redo, x.flip with
      | some d, _ => { rpc := x.pc, done := d ||| s.fixedAt c, hnd := x.inHandler }
      | none, some w => { rpc := w.baddr, done := 0xFFF - 2 ^ w.pos, hnd := x.inHandler, fwait := true }
      | none, none => { rpc := x.pc, done := s.fixedAt c, hnd := x.inHandler }
    let list := x.record (x.stop.getD place)
    let spad := Memory.readN (s.core (coreOf c)).spad x.alloc.spbase (256 * x.alloc.spad)
    (∀ n < 64, at_ (16 * n) 8 = bytesOf 8 (Tab.get {} x.s n).v.toNat ∧ at_ (16 * n + 8) 8 = bytesOf 8 (Tab.get {} x.s n).h.toNat) ∧
    (∀ n < 32, at_ (1024 + 256 * n) 128 = bytesOf 128 (Tab.get {} x.v n).v.toNat ∧
      at_ (1024 + 256 * n + 128) 128 = bytesOf 128 (Tab.get {} x.v n).h.toNat) ∧
    (∀ n < 16, at_ (9216 + 32 * n) 16 = bytesOf 16 (Tab.get {} x.p n).v.toNat ∧
      at_ (9216 + 32 * n + 16) 16 = bytesOf 16 (Tab.get {} x.p n).h.toNat) ∧
    (∀ n < 32, at_ (9728 + 16 * n) 8 = bytesOf 8 (Tab.get {} x.e n).v.toNat ∧ at_ (9728 + 16 * n + 8) 8 = bytesOf 8 (Tab.get {} x.e n).h.toNat) ∧
    (∀ n < 8, at_ (10240 + 8 * n) 8 = bytesOf 8 (x.readH n).toNat) ∧
    (∀ n < 2, at_ (10304 + 8 * n) 8 = bytesOf 8 ((Tab.get none x.latch n).getD 0).toNat) ∧
    at_ 10320 8 = bytesOf 8 (flagBits ((List.range 8).map fun k => (Tab.get none x.latch k).isSome)) ∧
    (∀ n < 8, at_ (10328 + 8 * n) 8 = bytesOf 8 (Tab.get 0 x.latchAt n)) ∧
    (∀ n < 6, at_ (10560 + 128 * n) 128 = bytesOf 128 ((Tab.get none x.latch (n + 2)).getD 0).toNat) ∧
    at_ 22528 list.length = list ∧ list.length ≤ 9760 ∧ at_ 32288 (256 * x.alloc.spad) = spad ∧
    (s.wholeImage c).length = 32288 + 256 * x.alloc.spad + if c % 2 = 0 ∧ x.usedX = true then 168000 else 0

/-- Pre-emption, dumps and reruns: the claims before, together. -/
def Obligations.PreemptionAndDumps : Prop :=
  Claims.PreemptionSteps ∧ Claims.SlotLayout ∧ Claims.DumpAndRerunSteps

/-! ### Arrivals and ownership -/

/-- R260: the state `e` that what arrives in `s` finds: an election whose window has closed is closed first. -/
def Claims.ElectionSettled (s e : State) : Prop :=
  match s.owner.closes with
  | some m => if m ≤ s.cycle then exec .electionClose s = .next e else e = s
  | none => e = s

/-- R257 to R260, R262: a packet that arrives is refused if it is malformed, if its SRC is not the owner, if its partition is not
configured, or if queue memory is full, in that order; else it is accepted into its queue. RESYNC answers with the summary. What the
owner sends lets its lease go on, but a lease that is over has lapsed, and an election whose window has closed has been decided. The codes and bodies of what is told, and the layout of the
summary, are the model's own (log entry 15). -/
def Claims.PacketArrivals : Prop :=
  ∀ (k : Packet) (s e : State), s.alarm = none → Claims.ElectionSettled s e →
    let t := if e.owner.id.isSome ∧ e.owner.heard + e.owner.lease ≤ e.cycle then { e with owner := { e.owner with id := none } }
      else if e.owner.id = some (pkSrc k) then { e with owner := { e.owner with heard := e.cycle } } else e
    let owned := t.owner.id = some (pkSrc k)
    let p := s.part (pkPart k)
    let refused := fun (reason : Nat) => exec (.packetArrival k) s = .next (t.sendTo (pkSrc k)
      (eventD0 evRefusal (pkPart k) 0 (pkTag k)) [BitVec.ofNat 64 reason])
    (malformed k = true → refused rfMalformed) ∧
    (malformed k = false → pkType k < 8 →
      (¬ owned → refused rfNotOwner) ∧
      (owned → p.on = false → refused rfNoPart) ∧
      (owned → p.on = true → Config.queueMemory < p.queueBytes + 8 * (1 + k.body.length) → refused rfFull) ∧
      (owned → p.on = true → p.queueBytes + 8 * (1 + k.body.length) ≤ Config.queueMemory →
        exec (.packetArrival k) s = .next (t.accept k))) ∧
    (malformed k = false → pkType k = tyResync →
      exec (.packetArrival k) s = exec (.resync k) s ∧
      (bitAt (pkWord k 0) 0 = false → exec (.resync k) s =
        .next (t.sendTo (pkSrc k) (eventD0 evResync 0 0 (pkTag k)) (t.summary.map (BitVec.ofNat 64)))))

/-- R257, R248: acceptance. With no capture and no replay the packet joins its queue as the last, numbered by its arrival, and nothing else
changes. -/
def Claims.AcceptanceAppends : Prop :=
  ∀ (k : Packet) (s : State), s.Canonical → (s.part (pkPart k)).logOn = false → (s.part (pkPart k)).replay = none →
    let t := s.accept k
    t.serial = s.serial + 1 ∧
    (t.queue (pkPart k) (pkQueue k)).packets =
      (s.queue (pkPart k) (pkQueue k)).packets ++ [{ pk := k, arrival := s.serial + 1 }] ∧
    t.dram = s.dram ∧ t.ctxs = s.ctxs ∧ ∀ j, j ≠ pkPart k → t.part j = s.part j

/-- What arrives from outside: the claims before, together. -/
def Obligations.PacketsArrive : Prop :=
  Claims.PacketArrivals ∧ Claims.AcceptanceAppends

/-- R259, R260: ownership. A claim with a good signature while there is no owner, with an EPOCH above the device's, enters the
election, which its first claim opens for 2^20 cycles; the owner may hand over, renew or release. An owner silent for LEASE cycles has
lapsed when a packet arrives later, and an election whose window has closed has been decided. The bodies of the answers are the model's own (log entry 15). -/
def Claims.OwnershipSteps : Prop :=
  ∀ (k : Packet) (s e : State), s.alarm = none → Claims.ElectionSettled s e →
    let sent := malformed k = false ∧ pkType k = tyOwner
    let own := fun (op : Nat) => sent ∧ bits (pkWord k 0) 63 62 = op ∧ s.signed k = true
    let t := if e.owner.id.isSome ∧ e.owner.heard + e.owner.lease ≤ e.cycle then { e with owner := { e.owner with id := none } }
      else if e.owner.id = some (pkSrc k) then { e with owner := { e.owner with heard := e.cycle } } else e
    let owned := t.owner.id = some (pkSrc k)
    let refused := fun (reason : Nat) => exec (.packetArrival k) s = .next (t.sendTo (pkSrc k)
      (eventD0 evRefusal (pkPart k) 0 (pkTag k)) [BitVec.ofNat 64 reason])
    (sent → s.signed k = false → refused rfBadSig) ∧
    (own 0 → t.owner.id.isSome → refused rfOwned) ∧
    (own 0 → t.owner.id = none → bits (pkWord k 0) 31 0 ≤ t.owner.epoch → refused rfNotOwner) ∧
    (∀ op, own op → op ≠ 0 → ¬ owned → refused rfNotOwner) ∧
    (own 0 → t.owner.id = none → t.owner.epoch < bits (pkWord k 0) 31 0 → exec (.ownerClaim k) s = .next { t with
      owner := { t.owner with
        claims := t.owner.claims ++ [{ src := pkSrc k, epoch := bits (pkWord k 0) 31 0, tag := pkTag k }]
        closes := some (t.owner.closes.getD (s.cycle + 2 ^ 20)) } }) ∧
    (own 1 → owned → exec (.ownerHandover k) s =
      .next (((t.becomeOwner (bits (pkWord k 0) 41 32)).tellOwner (bits (pkWord k 0) 41 32) (pkTag k)).tellOwner (pkSrc k) (pkTag k))) ∧
    (own 2 → owned → exec (.ownerRenew k) s = .next (t.tellOwner (pkSrc k) (pkTag k))) ∧
    (own 3 → owned →
      let u : State := { t with owner := { t.owner with id := none } }
      exec (.ownerRelease k) s = .next (u.tellOwner (pkSrc k) (pkTag k)))

/-- R260, R258, R264: the ends of an election and of a lease. When its window has closed, an election makes the winner the owner with
its EPOCH, and every participant is told; the kept events go to the new owner, unless the alarm stands, while the ports drop them. The
lease begins as the window closes (DESIGN CHOICE, log entry 19). Where no claim is in, nothing else changes. An owner silent for LEASE
cycles lapses, and nothing else changes. -/
def Claims.OwnershipEnds : Prop :=
  ∀ (n : Nat) (s : State) (w : Claim),
    (s.owner.closes = some n → n ≤ s.cycle →
      (s.owner.claims = [] → exec .electionClose s = .next { s with owner := { s.owner with closes := none } }) ∧
      (winner s.owner.claims = some w →
        let u : State := { s with
          owner := { s.owner with id := some w.src, epoch := w.epoch, heard := n, claims := [], closes := none }
          sent := if s.alarm.isSome then s.sent else s.sent ++ s.kept.map fun m => { m with dest := w.src }
          kept := [] }
        exec .electionClose s = .next (s.owner.claims.foldl (fun v c => v.sendTo c.src (eventD0 evOwner 0 0 c.tag)
          [BitVec.ofNat 64 (2 ^ 63 + w.src), BitVec.ofNat 64 w.epoch]) u))) ∧
    (s.owner.id.isSome → s.owner.heard + s.owner.lease ≤ s.cycle → exec .leaseExpiry s =
      .next { s with owner := { s.owner with id := none } })

/-- R260: the winner of an election is a claim of the highest EPOCH, and of those one of the lowest SRC. -/
def Claims.ElectionWinner : Prop :=
  ∀ (l : List Claim), (l = [] ↔ winner l = none) ∧ ∀ w, winner l = some w →
    w ∈ l ∧ ∀ c ∈ l, c.epoch < w.epoch ∨ (c.epoch = w.epoch ∧ w.src ≤ c.src)

/-- Ownership: the claims before, together. -/
def Obligations.Ownership : Prop :=
  Claims.OwnershipSteps ∧ Claims.OwnershipEnds ∧ Claims.ElectionWinner

/-! ### Debug, control blocks, service and the rest of the device -/

/-- R239, R244 to R246: a breakpoint register that is written takes effect at once, or with the resumption of a stopped context; a
monitor that is written keeps its failures and loses EN where it may not watch what it names; a monitor whose relation fails
counts one failure and applies its action, and one whose relation holds again is quiet. The debug action stops every context of the
partition that runs, at its next boundary, and tells the owner which monitor it was. When a breakpoint takes effect, what a
written monitor keeps and when a relation counts are the model's readings (log entries 23, 48 and 58), as the event's body is (log entry
15). The monitors of one partition act in increasing number. -/
def Claims.DebugSteps : Prop :=
  ∀ (c n p : Nat) (v d0 d1 : Word64) (s : State),
    let t := { s with owner := { s.owner with heard := s.cycle } }
    let b := v &&& 0x8FFFFFFFFFFFFFF0
    let m := Tab.get {} (s.part p).mons n
    let first := ∀ a ∈ (s.part p).mons, a.1 < n → a.2.en = true → a.2.turned = false
    (s.Reached → n < 4 → (s.cluster (clusterOf (coreOf c))).part.isSome → exec (.brkaWrite c n v) s = .next (t.updCtx c fun x =>
      if x.run = .stopped ∨ x.run = .stopping then { x with brkaNew := x.brkaNew ++ [(n, b)] }
      else { x with brka := Tab.set 0 x.brka n b })) ∧
    (s.Reached → (s.part p).on = true → n < 16 → exec (.monitorWrite p n d0 d1) s = .next (t.updPart p fun x =>
      { x with mons := Tab.upd {} x.mons n fun y => t.newMonitor p y d0 d1 })) ∧
    ((s.part p).on = true → m.en = true → m.turned = true → m.failing = false → first → m.act ≠ 5 → exec (.monitorFailure p n) s =
      .next (s.updPart p fun x => { x with
        mons := Tab.set {} x.mons n { m with d0 := if m.fails = 65535 then m.d0 else m.d0 + 1, failing := true, turned := false }
        ringActs := if m.act = 1 ∨ m.act = 2 ∨ m.act = 4 then x.ringActs ++ [m.act] else x.ringActs })) ∧
    ((s.part p).on = true → m.en = true → m.turned = true → m.failing = false → first → m.act = 5 → s.Canonical →
      let u := s.updPart p fun x => { x with
        mons := Tab.set {} x.mons n { m with d0 := if m.fails = 65535 then m.d0 else m.d0 + 1, failing := true, turned := false } }
      ∃ t : State, exec (.monitorFailure p n) s = .next (t.notify evDebug p 0 0 [BitVec.ofNat 64 n]) ∧ t = { u with ctxs := t.ctxs } ∧
        ∀ j, let x := s.ctx j
          let runs := x.share.lpart = p ∧ (x.run = .running ∨ (x.run = .finishing ∧ x.handler.isSome) ∨ ∃ k, x.run = .between k)
          (runs → t.ctx j = { x with halt := true }) ∧ (¬ runs → t.ctx j = x)) ∧
    ((s.part p).on = true → m.en = true → m.turned = true → m.failing = true → first → exec (.monitorRelationHolds p n) s =
      .next (s.updPart p fun x => { x with mons := Tab.upd {} x.mons n fun y => { y with failing := false, turned := false } }))

/-- R261, R243, R251: a write of a control block's register changes that register alone, reserved bits left out; LOGHEAD takes a value
while no capture runs, and REPLAY begins or ends a replay. The numbers of the registers, that LOGHEAD is written and what REPLAY holds are
the model's own (log entry 19). -/
def Claims.RegisterWrites : Prop :=
  ∀ (p q k : Nat) (v : Word64) (s : State), s.Reached → p < 8 → (s.part p).on = true → q < 16 →
    let t := { s with owner := { s.owner with heard := s.cycle } }
    let part := fun (reg : Nat) (f : Part → Part) => exec (.registerWrite p reg v) s = .next (t.updPart p f)
    let field := fun (hi lo : Nat) => BitVec.ofNat 64 (bits v.toNat hi lo * 2 ^ lo)
    part 0 (fun x => { x with ptroot := field 38 13 }) ∧ part 1 (fun x => { x with frbase := field 38 16 }) ∧
    part 2 (fun x => { x with svbase := field 38 0 }) ∧ part 3 (fun x => { x with fatal := field 9 0 }) ∧
    part 5 (fun x => { x with dmpShift := v.toNat }) ∧ part 6 (fun x => { x with logBase := field 38 12 }) ∧
    part 8 (fun x => { x with replay := if bitAt v.toNat 0 then some (v.toNat / 2) else none, replayAt := [] }) ∧
    ((s.part p).logOn = false → part 10 (fun x => { x with logHead := bits v.toNat 31 4 * 2 ^ 4 })) ∧
    part (16 + 3 * q) (fun x => { x with queues := Tab.upd {} x.queues q fun y => { y with lim1 := v.toNat } }) ∧
    part (17 + 3 * q) (fun x => { x with queues := Tab.upd {} x.queues q fun y => { y with lim2 := v.toNat } }) ∧
    part (18 + 3 * q) (fun x => { x with queues := Tab.upd {} x.queues q fun y => { y with lim3 := v.toNat } }) ∧
    (s.coreIn p k = true → exec (.registerWrite p (1026 + 4 * k) v) s = .next (t.updCore k fun x =>
      { x with dvEn := bitAt v.toNat 0, dvFrz := bitAt v.toNat 1 })) ∧
    exec (.registerWrite 8 0 v) s = .next { t with owner := { t.owner with lease := v.toNat } } ∧
    exec (.registerWrite 8 1 v) s = .next { t with vrtbase := field 38 0 }

/-- R260: any participant reads a control block while the ports work; the answer goes back to it, and a read by the owner lets its lease go
on. Stated for PTROOT, LEASE, the owner and EPOCH, which read as an election whose window has closed and a lease that is over leave them;
the numbers of the registers are the model's own (log entry 19), and so is what an answer looks like (log
entry 9). -/
def Claims.RegisterReads : Prop :=
  ∀ (src p block reg : Nat) (rest : List Turn) (s e : State), s.agenda = .readRegister src block reg :: rest → s.alarm = none →
    Claims.ElectionSettled { s with agenda := rest } e →
    let t := if e.owner.id.isSome ∧ e.owner.heard + e.owner.lease ≤ e.cycle then { e with owner := { e.owner with id := none } }
      else if e.owner.id = some src then { e with owner := { e.owner with heard := e.cycle } } else e
    let answer := fun (v : Nat) => step s = .next { t with replies := t.replies ++ [{ dest := src, bytes := bytesOf 8 v }] }
    (p < 8 → (s.part p).on = true → block = p → reg = 0 → answer (s.part p).ptroot.toNat) ∧
    (block = 8 → reg = 0 → answer (s.owner.lease % 2 ^ 64)) ∧
    (block = 8 → reg = 3 → answer (match t.owner.id with | some o => (2 ^ 63 + o) % 2 ^ 64 | none => 0)) ∧
    (block = 8 → reg = 4 → answer (t.owner.epoch % 2 ^ 64))

/-- Breakpoints, monitors and control blocks: the claims before, together. -/
def Obligations.DebugAndControlBlocks : Prop :=
  Claims.DebugSteps ∧ Claims.RegisterWrites ∧ Claims.RegisterReads

/-- R265, R17, R154: live service. A request starts where no operation of its kind is in progress, and else waits; a partition's
firmware update drains it; an operation that ends lets the first of its kind that waits start, and an image that does not verify is not
loaded. A partition is configured on a rectangle that it may have, whatever its PBASE (the model's choice, log entry 71); a cluster is
retired only where it belongs to no partition.
Which operations wait for one another, and what a new partition keeps, is the model's reading (log entry 49), as are the body of the
health event (log entry 15) and that memory keeps its bytes (log entry 75). -/
def Claims.ServiceSteps : Prop :=
  ∀ (p k n x y w h pbase : Nat) (image : List Byte) (s : State), s.Reached →
    let t := { s with owner := { s.owner with heard := s.cycle } }
    let free := fun (kind : Nat) => ∀ o ∈ s.services, o.kind ≠ kind
    let wait := fun (o : Service) => { t with queuedServices := t.queuedServices ++ [o] }
    let start := fun (o : Service) => { t with services := t.services ++ [o] }
    ((s.part p).on = true → (free 0 → exec (.partitionFirmwareUpdate p image) s =
        .next ((start (.firmware p image)).updPart p fun z => { z with draining := true })) ∧
      (¬ free 0 → exec (.partitionFirmwareUpdate p image) s = .next (wait (.firmware p image)))) ∧
    (n < 512 → (free 1 → exec (.vaultRetraining n) s = .next (start (.vault n))) ∧
      (¬ free 1 → exec (.vaultRetraining n) s = .next (wait (.vault n)))) ∧
    (n < 16 → (free 2 → exec (.fabricPortRetraining n) s = .next (start (.port n))) ∧
      (¬ free 2 → exec (.fabricPortRetraining n) s = .next (wait (.port n)))) ∧
    (∀ o, s.services[n]? = some o → (∀ q i, o = .firmware q i → s.unretired q none = false) →
      let u := { s with services := s.services.eraseIdx n }
      let ended := match o with
        | .firmware q i =>
          let v := u.updPart q fun z => { z with draining := false }
          if Config.firmwareSignature i then v.updPart q fun z => { z with fwImage := i } else v.notify evHealth q 0 0 []
        | _ => u
      ((∀ a ∈ s.queuedServices, a.kind ≠ o.kind) → exec (.liveServiceOperationComplete n) s = .next ended) ∧
      ∀ before next after, s.queuedServices = before ++ next :: after → (∀ a ∈ before, a.kind ≠ o.kind) → next.kind = o.kind →
        let v := { ended with queuedServices := before ++ after, services := ended.services ++ [next] }
        exec (.liveServiceOperationComplete n) s = .next (match next with
          | .firmware q _ => v.updPart q fun z => { z with draining := true }
          | _ => v)) ∧
    (s.mayConfigure p x y w h = true → s.Canonical → ∃ u, exec (.partitionReconfiguration p x y w h pbase) s = .next u ∧
      (0 < w → 0 < h → u.part p = { on := true, x, y, w, h, pbase, since := s.cycle } ∧
        ∀ j ∈ rectangle x y w h, (u.cluster j).part = some p ∧ (u.cluster j).tlb = []) ∧ (s.partEmpty p = true → u.dram = s.dram)) ∧
    (k < 32 → exec (.clusterRetirement k) s = .next (if (s.cluster k).part.isSome then t
      else t.updCluster k fun c => { c with retired := true }))

/-- R264, R266, R267: the alarm tells every attached host once, keeps its cause, clears the keys if asked, and stops every context
that is not free; a reset leaves the device as after power-on, but for its clock, its fabric id, its firmware where it verifies
(R263) and cleared keys; the power limit is a bit. What the alarm and a reset keep is the model's reading (log entries 50 and 52),
and so are the destination 1024 of every attached host and the bodies of the alarm and ready events (log entry 15). -/
def Claims.DeviceSteps : Prop :=
  ∀ (cause : Nat) (s : State),
    (s.alarm = none → cause < 4 → ∃ t, exec (.securityAlarm cause) s = .next t ∧ t.alarm = some cause ∧
      t.sent = s.sent ++ [{ dest := 1024, d0 := eventD0 evAlarm 0 0 0, body := [BitVec.ofNat 64 cause] }] ∧
      t.keysGone = (s.keysGone || bitAt s.alarmCfg.toNat 0) ∧ t.dram = s.dram ∧
      ∀ c, (t.ctx c).run = if (s.ctx c).run = .free then .free else .stopped) ∧
    (∃ t, exec .deviceReset s = .next t ∧ t.parts = [] ∧ t.ctxs = [] ∧ t.clusters = [] ∧ t.kernels = [] ∧ t.engines = [] ∧
      t.owner = {} ∧ t.vlend = [] ∧ t.tags = [] ∧ t.alarm = none ∧ t.sent = s.sent ++ [{ dest := 1024 }] ∧ t.devId = s.devId ∧
      t.keysGone = s.keysGone ∧ t.fwImage = if Config.firmwareSignature s.fwImage then s.fwImage else []) ∧
    (s.powerHigh = false → exec .powerLimit s = .next { s with powerHigh := true }) ∧
    (s.powerHigh = true → exec .powerBelowLimit s = .next { s with powerHigh := false })

/-- Live service and the device: the claims before, together. -/
def Obligations.DeviceAndService : Prop :=
  Claims.ServiceSteps ∧ Claims.DeviceSteps

/-- R146, R155, R165, R169, R172, R175, R195: an access of another device to a page that this device grants is served under system
scope: a load answers with the bytes that the vaults hold and changes nothing but the answers; a store's bytes stand in memory
afterwards, and every other byte stays; an atomic or a compare-and-swap answers with the old value, and the new one stands in memory
where there is one; the tagged write of an STQ, and that of a line of an EREDUCE with its elements, enter the network to their vault,
which answers them; an access that fails a check, or reads a word in error, is refused with its cause, and memory stays. What a request
and its answer look like is the model's own (log entry 9), and so is the cause that an error in memory is answered with (log entry
70). R260: what the owner accesses lets its lease go on. -/
def Obligations.FabricAccesses : Prop :=
  ∀ (r : FabricReq) (k : Reach) (q : Raised) (s₀ e : State), s₀.alarm = none → Claims.ElectionSettled s₀ e → (s₀.part r.part).on = true →
    r.va % 2 ^ 16 + max r.len r.bytes.length ≤ 2 ^ 16 →
    let s := if e.owner.id.isSome ∧ e.owner.heard + e.owner.lease ≤ e.cycle then { e with owner := { e.owner with id := none } }
      else if e.owner.id = some r.src then { e with owner := { e.owner with heard := e.cycle } } else e
    let answer := fun (refused : Option (Cause × Nat)) (bytes : List Byte) (t : State) =>
      { t with replies := t.replies ++ [{ dest := r.src, refused, bytes }] }
    let a := k.loc % 2 ^ 64
    (s.fabricAim r = .error q → exec (.fabricGlobalAccess r) s₀ = .next (answer (some (q.cause, q.cond)) [] s)) ∧
    (s.fabricAim r = .ok k → r.op = .load → s.fabricError r k.loc = none → exec (.fabricGlobalAccess r) s₀ =
      .next (answer none ((List.range r.len).map fun i => s.homeByte (a + i)) s)) ∧
    (∀ d, s.fabricAim r = .ok k → s.fabricError r k.loc = some d →
      exec (.fabricGlobalAccess r) s₀ = .next (answer (some (.dataError, d)) [] s)) ∧
    (∀ (op : Option AtomOp) (w32 : Bool) (d : Nat), s.fabricAim r = .ok k →
      r.op = (match op with | some o => .atomic o w32 | none => .cas w32) → s.fabricError r k.loc = none → s.Canonical →
      homeDpa k.loc = some d →
      let n := if w32 then 4 else 8
      s.unflushedAt ((List.range n).map fun i => d + i) = [] →
      let old := ofBytes (Memory.readN s.dram d n)
      let new := atomNew op n old (ofBytes (r.bytes.take n)) (ofBytes ((r.bytes.drop n).take n))
      ∃ t, exec (.fabricGlobalAccess r) s₀ = .next (answer none (bytesOf n old) t) ∧ t.replies = s.replies ∧
        (∀ x, x < d ∨ d + n ≤ x → Memory.read t.dram x = Memory.read s.dram x) ∧
        (new = none → t.dram = s.dram) ∧ ∀ v, new = some v → Memory.readN t.dram d n = bytesOf n v) ∧
    (s.fabricAim r = .ok k → r.op = .store → s.Canonical → a < 2 ^ Config.dpaBits →
      s.unflushedAt ((cellsAt a r.bytes).map Prod.fst) = [] → ∃ t, exec (.fabricGlobalAccess r) s₀ = .next t ∧
        Memory.readN t.dram a r.bytes.length = r.bytes ∧
        (∀ x, x < a ∨ a + r.bytes.length ≤ x → Memory.read t.dram x = Memory.read s.dram x) ∧
        t.replies = s.replies ++ [{ dest := r.src }]) ∧
    (∀ tag, s.fabricAim r = .ok k → r.op = .tagged tag → exec (.fabricGlobalAccess r) s₀ = .next { s with
      tagWrites := s.tagWrites ++ [{ line := a / 256, tag := tag % 2 ^ 16, act := .bytes (cellsAt a r.bytes), part := r.part
                                     due := s.cycle, peer := some r.src }] }) ∧
    (∀ rop fmt tag, s.fabricAim r = .ok k → r.op = .reduce rop fmt tag → exec (.fabricGlobalAccess r) s₀ =
      let size := if fmt = 1 then 2 else 4
      let elems := (List.range (r.bytes.length / size)).map fun i => (a + i * size, ofBytes ((r.bytes.drop (i * size)).take size))
      .next { s with tagWrites := s.tagWrites ++ [{ line := a / 256, tag := tag % 2 ^ 16, act := .reduce rop fmt elems, part := r.part
                                                    due := s.cycle, peer := some r.src }] })

/-! ### The issue of a bundle -/

/-- R73, R25, R227, R311: a syllable has its effect only where nothing of R73 is wrong with it, its guard is true and no operand of a
port that it reads traps; else it raises its trap, or leaves the state as it is. Where a port traps, the trap is raised at the syllable,
beside what else it meets but for flags, and nothing but the counts of its random generators changes; that these stay is read from R109
(log entry 11). That a QPUSH or QPOP outside context 0, or an empty latch, traps whatever the guard holds is the model's
reading (log entries 30 and 72). No syllable stops the machine. -/
def Obligations.SyllableStopsBeforeEffect : Prop :=
  ∀ (i : Instr) (s : State), classOf i ≠ 0 →
    (∀ cause, verdict i s = some cause → exec i s = .next (s.raise cause)) ∧
    (verdict i s = none → guardHolds i s = false → exec i s = .next s) ∧
    (∀ r, verdict i s = none → guardHolds i s = true → s.portFault i = some r → ∃ (own : List Raised) (counts : Tab Nat),
      exec i s = .next { s.updCur fun x => { x with srCount := counts } with
        slot := { s.slot with raised := own ++ { r with pos := s.slot.pos } :: s.slot.raised } } ∧
      ∀ q ∈ own, q.cause ≠ .arithFlag) ∧
    (Normal i s → ∃ t, exec i s = .next t)

/-- R34, R35, R41, R168: when a syllable issues, no register, latch, CSR, program counter or loop changes but the registers of the
completion handler, since results and flags wait in flight; no byte of memory, no other context and no
partition, kernel, queue or owner changes; of other cores only the caches of level 1 may. -/
def Obligations.SyllableFrame : Prop :=
  ∀ (i : Instr) (s t : State), classOf i ≠ 0 → s.Canonical → exec i s = .next t →
    let c := s.slot.ctx
    let x := s.ctx c
    let y := t.ctx c
    t = { s with
      ctxs := t.ctxs, cores := t.cores, clusters := t.clusters, walks := t.walks, atomics := t.atomics, verReqs := t.verReqs
      tagWrites := t.tagWrites, engines := t.engines, serial := t.serial, fresh := t.fresh, slot := t.slot } ∧
    (∀ j, j ≠ c → t.ctx j = s.ctx j) ∧
    (∀ k, k ≠ coreOf c → t.core k = { s.core k with l1 := (t.core k).l1 }) ∧
    (∀ k, t.cluster k = { s.cluster k with lines := (t.cluster k).lines, ro := (t.cluster k).ro }) ∧
    y.s = x.s ∧ y.v = x.v ∧ y.p = x.p ∧ y.e = x.e ∧ y.latch = x.latch ∧ y.csr = x.csr ∧
    y.pc = x.pc ∧ y.count = x.count ∧ y.run = x.run ∧ y.loops = x.loops ∧ y.share = x.share ∧ y.handler = x.handler ∧
    (x.inHandler = false → y.h = x.h)

/-- R2, R62, R72, R230: the turn of a context whose next bundle is one quad with a syllable at position 0 and three NOPs. The
syllable that the word at the program counter decodes to runs by `exec` at the slot of position 0, unless R73 stops it: then the
context takes the trap, with RPC at the bundle and only the syllable's DONE bit clear. When it has run, the bundle ends, or the
context takes the first trap that it has raised. Stated where nothing holds the bundle back in this cycle. -/
def Obligations.StepRunsDecodedInstruction : Prop :=
  ∀ (c w : Nat) (i : Instr) (rest : List Turn) (s : State),
    let z := s.ctx c
    let landed := { s with agenda := rest, served := c :: s.served }.updCtx c (Ctx.landDue s.cycle)
    let x := landed.ctx c
    let words := [w, 0x20000000, 0x20000000, 0x20000000]
    let y : Syl := { word := w, instr := i, ucode := (unitsOf (classOf i)).headD 0 }
    let b : Bundle := { words, syls := if isNop w then [] else [y] }
    let p : Plan := { bundle := b, todo := b.syls, masked := [] }
    let before := (landed.setDenied c false).updCtx c fun k => { k with
      birth := some (k.birth.getD landed.cycle)
      lidx := if k.inHandler then k.lidx else noteLoops k.lidx k.loops
      usedX := k.usedX || b.syls.any fun y => classOf y.instr == 9 }
    let u := (before.openSlot c (before.ctx c).pc 1).draw c (before.acting c b.syls)
    s.agenda = .issue c :: rest → { s with agenda := rest }.held c = false → c ∉ s.served → z.alive = true →
      z.halt = false → z.preempt = false → z.flip = none → x.redo = none → x.holding landed.cycle = false → (∀ q ∈ x.brka, bitAt q.2.toNat 63 = false) →
      landed.fetch c 3 x.pc = .ok words → decode w = .ok i →
      landed.misses c (landed.acting c b.syls) 1 = [] → landed.misses c [] 1 = [] → landed.waits c p = [] →
      landed.deniedBy c (b.occupied c) = none →
      let stopped := verdict i ((landed.openSlot c x.pc 1).atSyl y)
      let issued := fun (t : State) =>
        if (t.ctx c).level = 2 then t else t.updCore (coreOf c) fun k => { k with issued := some (b.occupied c) }
      (isNop w = true → step s = .next ((issued u).finishBundle c p)) ∧
      (∀ cause, isNop w = false → stopped = some cause → step s =
        .next ((landed.setDenied c false).setCtx c ({ x with walked := [] }.takeTrap landed.cycle { cause } x.pc x.pc 0xFFE
          false))) ∧
      (∀ t, isNop w = false → stopped = none → exec i (u.atSyl y) = .next t →
        (t.slot.raised = [] → step s = .next ((issued t).finishBundle c p)) ∧
        (∀ r, firstRaised t.slot.raised = some r → step s = .next ((issued t).trapBundle c p r)))

/-- R230, R74, R268: of the traps of a bundle the first is taken: the earliest, then the lowest position, then the lowest cause.
The context stops at the boundary before the bundle, its faces, written bits and latches as they were, but for the flags of
arithmetic-flag traps, and its schedule count where it was; RPC is the bundle, and DONE is clear for the slots that trapped, for
those that a breakpoint masks, and for a FLIP that another slot's trap keeps from taking place. That a breakpoint masks its slot
in DONE is the model's reading (log entry 23), as is what a trapped bundle has used up (log entry 11). -/
def Claims.TrapStopsContext : Prop :=
  (∀ (l : List Raised) (r : Raised), firstRaised l = some r → r ∈ l ∧ ∀ q ∈ l,
    r.after < q.after ∨ (r.after = q.after ∧ (r.pos < q.pos ∨ (r.pos = q.pos ∧ r.cause.code ≤ q.cause.code)))) ∧
  ∀ (c : Nat) (p : Plan) (r : Raised) (s : State), s.Canonical →
    let x := s.ctx c
    let y := (s.trapBundle c p r).ctx c
    y.run = .stopping ∧ y.pc = x.pc ∧ y.count = x.count ∧ y.s = x.s ∧ y.v = x.v ∧ y.p = x.p ∧ y.e = x.e ∧
    y.csr = (x.trapFlags s.cycle x.pc s.slot.raised).csr ∧ y.latch = x.latch ∧ y.inflight = x.inflight ∧ y.loops = x.loops ∧
    y.flip = (if s.slot.raised = [] then x.flip else none) ∧
    ((s.trapBundle c p r) = s.setCtx c y) ∧
    ∃ z, y.stop = some z ∧ z.raised = r ∧ z.baddr = x.pc ∧ z.rpc = x.pc ∧ z.hnd = x.inHandler ∧ z.fwait = false ∧
      ∀ n < 12, (bitAt z.done n = false ↔ n ∈ s.slot.raised.map Raised.pos ∨ n ∈ p.masked ∨
        (s.slot.raised ≠ [] ∧ x.flip.map FlipWait.pos = some n))

/-- R34, R38, R43, R44, R277: a bundle that has issued and begun no FLIP, with no RETH in it, takes one cycle of the schedule, or
none in the completion handler; control goes to the target of a transfer, which ends every loop, or else to the bundle after it; registers
stay. -/
def Claims.BundleLeaves : Prop :=
  ∀ (c : Nat) (p : Plan) (s : State), s.Canonical → (s.ctx c).flip = none → s.slot.leave = false → (s.ctx c).leaving = false →
    let x := s.ctx c
    let y := (s.finishBundle c p).ctx c
    y.count = (if x.inHandler then x.count else x.count + 1) ∧ y.seq = x.seq + 1 ∧ y.run = x.run ∧
    y.s = x.s ∧ y.v = x.v ∧ y.p = x.p ∧ y.e = x.e ∧ y.csr = x.csr ∧ y.latch = x.latch ∧ y.inflight = x.inflight ∧
    (∀ a, x.target = some a → y.pc = a ∧ (x.inHandler = false → y.loops = [])) ∧
    (x.target = none → x.loops = [] → x.newLoop = none → y.pc = s.slot.next) ∧
    (s.finishBundle c p).dram = s.dram ∧ ∀ j, j ≠ c → (s.finishBundle c p).ctx j = s.ctx j

/-- R305: a loop without masks. It begins at the bundle after its own, or is passed over whole with a count of zero; in it the
bundles follow one another in memory, and after the last the body begins again until its iterations are over. -/
def Claims.LoopRuns : Prop :=
  ∀ (size : Nat → Nat) (next : Nat) (l : Loop), l.first = 0 → l.last = 0 → l.pos < l.len → l.iter < l.count →
    let at_ := fun (p : Place) (a : Nat) (ls : List Loop) => p.addr = a ∧ p.loops = ls
    (l.pos + 1 < l.len → at_ (nextPlace size next [l] none) next [{ l with pos := l.pos + 1 }]) ∧
    (l.pos + 1 = l.len → l.iter + 1 < l.count →
      at_ (nextPlace size next [l] none) l.start [{ l with iter := l.iter + 1, pos := 0 }]) ∧
    (l.pos + 1 = l.len → l.iter + 1 = l.count → at_ (nextPlace size next [l] none) next []) ∧
    at_ (nextPlace size next [] (some l)) next [l] ∧
    at_ (nextPlace size next [] (some { l with count := 0 })) (skipBundles size l.len next) []

/-- How a bundle ends: in a trap, or in the bundle that comes next. -/
def Obligations.BundleEnds : Prop :=
  Claims.TrapStopsContext ∧ Claims.BundleLeaves ∧ Claims.LoopRuns

/-! ### Reset, steps and encodings -/

/-- R266, R154, R175, R198, R264: after reset no partition is configured, there is no owner, no context runs and no kernel or command is in
flight; every sequence tag and every entry of the lending table is 0, every dictionary slot is empty, no alarm stands, and the ready
event has been sent to every attached host, whose destination number 1024 is the model's own (log entry 15). -/
def Obligations.ResetState : Prop :=
  let s := State.reset
  (∀ p, (s.part p).on = false) ∧ s.owner.id = none ∧ s.owner.epoch = 0 ∧ (∀ c, (s.ctx c).run = .free) ∧ s.kernels = [] ∧
  s.engines = [] ∧ (∀ n, Tab.get 0 s.tags n = 0) ∧ (∀ m, Tab.get 0 s.vlend m = 0) ∧
  (∀ k n, Tab.get {} (s.cluster k).dict n = {}) ∧ s.alarm = none ∧ s.sent.map Message.dest = [1024]

/-- The state after reset has the canonical form of its ten tables (log entry 3). -/
def Obligations.ResetIsCanonical : Prop := State.reset.Canonical

/-- Every step keeps the canonical form of the ten tables that `State.Canonical` names: memory and what this device has written
elsewhere, the tags, health words, lending table and routes, and the tables of partitions, clusters, cores and contexts. Equal ones are
then equal data, and an unlisted entry reads as the value of log entry 3. The form is the model's own. -/
def Obligations.StepKeepsCanonicalForm : Prop := ∀ s t : State, s.Canonical → step s = .next t → t.Canonical

/-- The device never stops by itself: with no agenda it always has a next state, whatever its memory, its queues and its contexts
hold. What moves when the agenda names nothing is the model's own (log entry 1). -/
def Obligations.StepNeverStops : Prop := ∀ s : State, s.Canonical → s.agenda = [] → ∃ t, step s = .next t

/-- R62, R75 to R90: every syllable's word, with every operand at every value that its fields admit, is 32 bits and decodes to the
syllable. -/
def Obligations.DecodeOfEncode : Prop := ∀ i : Instr, classOf i ≠ 0 → encode i < 2 ^ 32 ∧ decode (encode i) = .ok i

/-- R75, R90: a word that decodes is the word of its syllable, which is of the class that its bits [31:28] give; no two words
decode to one syllable, and no bit of a word is ignored. -/
def Obligations.EncodeOfDecode : Prop :=
  ∀ (w : Nat) (i : Instr), w < 2 ^ 32 → decode w = .ok i → encode i = w ∧ classOf i = w / 2 ^ 28 ∧ classOf i ≠ 0

/-- R65, R67, R77 to R90: words written out from the encodings of the spec, one for each class at least, and words that hold no
syllable. -/
def Obligations.ListedWordsDecode : Prop :=
  decode 0x10006084 = .ok (.add 0 3 1 2 false) ∧ decode 0x1088BFFF = .ok (.li 0 5 0x1FFF) ∧
  decode 0x14718624 = .ok (.max 2 12 12 18 false) ∧ decode 0x20506280 = .ok (.loop 0 0 3 5) ∧
  decode 0x20000000 = .ok (.nop 0) ∧ decode 0x206A0000 = .ok (.flip 0 .pt .device) ∧
  decode 0x300A0443 = .ok (.vadd 0 .w1024 .b32 false 1 2 3) ∧ decode 0x40280443 = .ok (.fmul 0 .w1024 .fp32 false 1 2 3) ∧
  decode 0x50080444 = .ok (.cvt 0 .w1024 .fp32 1 2 .bf16 .frm) ∧ decode 0x60580443 = .ok (.fdiv 0 .w1024 .fp32 1 2 3) ∧
  decode 0x70018403 = .ok (.ld 0 3 2 0 .dword) ∧ decode 0x80018403 = .ok (.st 0 3 2 0 .dword) ∧
  decode 0x90400000 = .ok (.xpush 0) ∧ decode 0xA0080000 = .ok (.ecopy 0 8 false false false 0 .b8 0) ∧
  decode 0xB0006080 = .ok (.csrr 0 3 0x080) ∧
  decode 0x00000000 = .error .header ∧ decode 0xF0000000 = .error .link ∧ decode 0xC0000000 = .error .reservedClass ∧
  decode 0x20000001 = .error .nonZeroField ∧ decode 0x21F00000 = .error .unassignedOp ∧ decode 0x700CC007 = .error .reservedValue
end

