-- ==== Sys2Proof/Laws/Tab.lean ====
section
/-! SUPPORT. Laws of sparse tables and of memories: reading after writing, and the canonical form that every
writing keeps. -/
namespace Sys2Proof

namespace Tab
variable {α : Type}

/-- Every number listed in a table is above `n`. -/
def above (n : Nat) (t : Tab α) : Prop := ∀ p ∈ t, n < p.1

theorem wf_cons [DecidableEq α] {d : α} {j : Nat} {x : α} {t : Tab α} :
    wf d ((j, x) :: t) = true ↔ x ≠ d ∧ above j t ∧ wf d t = true := by
  induction t generalizing j x with
  | nil => simp [wf, above]
  | cons p t ih =>
    obtain ⟨k, y⟩ := p
    simp only [wf, Bool.and_eq_true, decide_eq_true_eq]
    constructor
    · rintro ⟨⟨h1, h2⟩, h3⟩
      refine ⟨h2, ?_, h3⟩
      have h4 := (ih.mp h3).2.1
      intro q hq
      cases List.mem_cons.mp hq with
      | inl h => rw [h]; exact h1
      | inr h => exact Nat.lt_trans h1 (h4 q h)
    · rintro ⟨h1, h2, h3⟩
      exact ⟨⟨h2 (k, y) (List.mem_cons_self ..), h1⟩, h3⟩

theorem get_above [DecidableEq α] {d : α} {t : Tab α} {k n : Nat} (h : above n t) (hk : k ≤ n) : get d t k = d := by
  induction t with
  | nil => rfl
  | cons p t ih =>
    obtain ⟨j, y⟩ := p
    have : n < j := h (j, y) (List.mem_cons_self ..)
    simp only [get, if_neg (show ¬ j = k by omega)]
    exact ih fun q hq => h q (List.mem_cons_of_mem _ hq)

theorem get_insert {d : α} (t : Tab α) (k : Nat) (x : α) (j : Nat) :
    get d (insert t k x) j = if j = k then x else get d t j := by
  induction t with
  | nil => by_cases h : k = j <;> simp [insert, get, h, eq_comm]
  | cons p t ih =>
    obtain ⟨i, y⟩ := p
    simp only [insert]
    split
    · rename_i h
      simp only [get, ih]
      by_cases h2 : i = j
      · simp [h2, show ¬ j = k by omega]
      · simp [h2]
    · split
      · rename_i h; subst h
        by_cases h2 : i = j
        · simp [get, h2]
        · simp [get, h2, show ¬ j = i by omega]
      · by_cases h2 : k = j
        · simp [get, h2]
        · simp [get, h2, show ¬ j = k by omega]

theorem get_drop_of_ne {d : α} (t : Tab α) {k j : Nat} (h : j ≠ k) : get d (drop t k) j = get d t j := by
  induction t with
  | nil => rfl
  | cons p t ih =>
    obtain ⟨i, y⟩ := p
    simp only [drop]
    split
    · simp [get, show ¬ i = j by omega]
    · simp [get, ih]

theorem get_drop_self [DecidableEq α] {d : α} {t : Tab α} (h : wf d t = true) (k : Nat) : get d (drop t k) k = d := by
  induction t with
  | nil => rfl
  | cons p t ih =>
    obtain ⟨i, y⟩ := p
    obtain ⟨_, h2, h3⟩ := wf_cons.mp h
    simp only [drop]
    split
    · rename_i e; exact get_above h2 (by omega)
    · rename_i e; simp [get, e, ih h3]

/-- Reading another number than the one written. -/
theorem get_set_of_ne [DecidableEq α] {d : α} (t : Tab α) {k j : Nat} (x : α) (h : j ≠ k) :
    get d (set d t k x) j = get d t j := by
  unfold set
  split
  · exact get_drop_of_ne t h
  · simp [get_insert, h]

/-- Reading the number written, in a canonical table. -/
theorem get_set_self [DecidableEq α] {d : α} {t : Tab α} (h : wf d t = true) (k : Nat) (x : α) :
    get d (set d t k x) k = x := by
  unfold set
  split
  · rename_i e; rw [get_drop_self h, e]
  · simp [get_insert]

theorem get_set [DecidableEq α] {d : α} {t : Tab α} (h : wf d t = true) (k : Nat) (x : α) (j : Nat) :
    get d (set d t k x) j = if j = k then x else get d t j := by
  split
  · rename_i e; rw [e, get_set_self h]
  · rename_i e; exact get_set_of_ne t x e

theorem above_drop {t : Tab α} {n : Nat} (h : above n t) (k : Nat) : above n (drop t k) := by
  induction t with
  | nil => exact h
  | cons p t ih =>
    obtain ⟨i, y⟩ := p
    have ht : above n t := fun q hq => h q (List.mem_cons_of_mem _ hq)
    simp only [drop]
    split
    · exact ht
    · intro q hq
      cases List.mem_cons.mp hq with
      | inl e => rw [e]; exact h (i, y) (List.mem_cons_self ..)
      | inr e => exact ih ht q e

theorem above_insert {t : Tab α} {n k : Nat} (h : above n t) (hk : n < k) (x : α) : above n (insert t k x) := by
  induction t with
  | nil =>
    intro q hq
    rw [insert, List.mem_singleton] at hq
    rw [hq]; exact hk
  | cons p t ih =>
    obtain ⟨i, y⟩ := p
    have ht : above n t := fun q hq => h q (List.mem_cons_of_mem _ hq)
    have hi : n < i := h (i, y) (List.mem_cons_self ..)
    simp only [insert]
    split
    · intro q hq
      cases List.mem_cons.mp hq with
      | inl e => rw [e]; exact hi
      | inr e => exact ih ht q e
    · split
      · intro q hq
        cases List.mem_cons.mp hq with
        | inl e => rw [e]; exact hk
        | inr e => exact ht q e
      · intro q hq
        cases List.mem_cons.mp hq with
        | inl e => rw [e]; exact hk
        | inr e => exact h q e

theorem wf_drop [DecidableEq α] {d : α} {t : Tab α} (h : wf d t = true) (k : Nat) : wf d (drop t k) = true := by
  induction t with
  | nil => rfl
  | cons p t ih =>
    obtain ⟨i, y⟩ := p
    obtain ⟨h1, h2, h3⟩ := wf_cons.mp h
    simp only [drop]
    split
    · exact h3
    · exact wf_cons.mpr ⟨h1, above_drop h2 k, ih h3⟩

theorem wf_insert [DecidableEq α] {d : α} {t : Tab α} (h : wf d t = true) (k : Nat) {x : α} (hx : x ≠ d) :
    wf d (insert t k x) = true := by
  induction t with
  | nil => simp [insert, wf, hx]
  | cons p t ih =>
    obtain ⟨i, y⟩ := p
    obtain ⟨h1, h2, h3⟩ := wf_cons.mp h
    simp only [insert]
    split
    · rename_i e
      exact wf_cons.mpr ⟨h1, above_insert h2 e x, ih h3⟩
    · split
      · rename_i e; exact wf_cons.mpr ⟨hx, e ▸ h2, h3⟩
      · rename_i e e'
        refine wf_cons.mpr ⟨hx, ?_, h⟩
        intro q hq
        cases List.mem_cons.mp hq with
        | inl e => rw [e]; show k < i; omega
        | inr e => have := h2 q e; omega

/-- Every writing keeps the canonical form. -/
theorem wf_set [DecidableEq α] {d : α} {t : Tab α} (h : wf d t = true) (k : Nat) (x : α) : wf d (set d t k x) = true := by
  unfold set
  split
  · exact wf_drop h k
  · rename_i e; exact wf_insert h k e

theorem wf_upd [DecidableEq α] {d : α} {t : Tab α} (h : wf d t = true) (k : Nat) (f : α → α) :
    wf d (upd d t k f) = true := wf_set h k _

theorem get_upd [DecidableEq α] {d : α} {t : Tab α} (h : wf d t = true) (k : Nat) (f : α → α) (j : Nat) :
    get d (upd d t k f) j = if j = k then f (get d t k) else get d t j := get_set h k _ j

/-- Filtering keeps the canonical form. -/
theorem wf_filter [DecidableEq α] {d : α} {t : Tab α} (h : wf d t = true) (f : Nat × α → Bool) :
    wf d (t.filter f) = true := by
  induction t with
  | nil => rfl
  | cons p t ih =>
    obtain ⟨i, y⟩ := p
    obtain ⟨h1, h2, h3⟩ := wf_cons.mp h
    simp only [List.filter]
    split
    · exact wf_cons.mpr ⟨h1, fun q hq => h2 q (List.mem_filter.mp hq).1, ih h3⟩
    · exact ih h3

/-- Changing the entries without making one a default keeps the canonical form. -/
theorem wf_map [DecidableEq α] {d : α} {t : Tab α} (h : wf d t = true) (f : Nat → α → α)
    (hf : ∀ k x, x ≠ d → f k x ≠ d) : wf d (t.map fun p => (p.1, f p.1 p.2)) = true := by
  induction t with
  | nil => rfl
  | cons p t ih =>
    obtain ⟨i, y⟩ := p
    obtain ⟨h1, h2, h3⟩ := wf_cons.mp h
    simp only [List.map]
    refine wf_cons.mpr ⟨hf i y h1, ?_, ih h3⟩
    intro q hq
    obtain ⟨r, hr, e⟩ := List.mem_map.mp hq
    rw [← e]; exact h2 r hr

/-- A fold of writings keeps the canonical form. -/
theorem wf_foldl [DecidableEq α] {β : Type} {d : α} (f : Tab α → β → Tab α)
    (hf : ∀ t b, wf d t = true → wf d (f t b) = true) (l : List β) {t : Tab α} (h : wf d t = true) :
    wf d (l.foldl f t) = true := by
  induction l generalizing t with
  | nil => exact h
  | cons b l ih => exact ih (hf t b h)

/-- Equal canonical tables read alike, and conversely. -/
theorem ext_get [DecidableEq α] {d : α} {t u : Tab α} (ht : wf d t = true) (hu : wf d u = true)
    (h : ∀ k, get d t k = get d u k) : t = u := by
  induction t generalizing u with
  | nil =>
    cases u with
    | nil => rfl
    | cons p u =>
      obtain ⟨j, y⟩ := p
      have := h j
      simp [get] at this
      exact absurd this.symm (wf_cons.mp hu).1
  | cons p t ih =>
    obtain ⟨i, x⟩ := p
    obtain ⟨h1, h2, h3⟩ := wf_cons.mp ht
    cases u with
    | nil =>
      have := h i
      simp [get] at this
      exact absurd this h1
    | cons q u =>
      obtain ⟨j, y⟩ := q
      obtain ⟨g1, g2, g3⟩ := wf_cons.mp hu
      have hi := h i
      have hj := h j
      simp only [get, if_true] at hi hj
      by_cases e : i = j
      · subst e
        simp only [if_true] at hi
        subst hi
        congr 1
        refine ih h3 g3 fun k => ?_
        by_cases c : k ≤ i
        · rw [get_above h2 c, get_above g2 c]
        · have := h k
          simpa [get, show ¬ i = k by omega] using this
      · rw [if_neg (by omega)] at hi
        rw [if_neg (by omega)] at hj
        by_cases c : i < j
        · rw [get_above g2 (by omega)] at hi; exact absurd hi h1
        · rw [get_above h2 (by omega)] at hj; exact absurd hj.symm g1

end Tab

/-! ### Memory -/

namespace Memory

theorem wf_write {m : Tab Byte} (h : wf m = true) (a : Nat) (b : Byte) : wf (write m a b) = true := Tab.wf_set h a b

theorem wf_writeAll {m : Tab Byte} (h : wf m = true) (l : List (Nat × Byte)) : wf (writeAll m l) = true := by
  induction l generalizing m with
  | nil => exact h
  | cons p l ih => exact ih (wf_write h p.1 p.2)

theorem read_write {m : Tab Byte} (h : wf m = true) (a : Nat) (b : Byte) (j : Nat) :
    read (write m a b) j = if j = a then b else read m j := Tab.get_set h a b j

theorem read_write_of_ne (m : Tab Byte) {a j : Nat} (b : Byte) (h : j ≠ a) : read (write m a b) j = read m j :=
  Tab.get_set_of_ne m b h

/-- A write of some bytes leaves every other address alone. -/
theorem read_writeAll_of_notMem (m : Tab Byte) (l : List (Nat × Byte)) {j : Nat} (h : ∀ p ∈ l, p.1 ≠ j) :
    read (writeAll m l) j = read m j := by
  induction l generalizing m with
  | nil => rfl
  | cons p l ih =>
    rw [writeAll, ih _ fun q hq => h q (List.mem_cons_of_mem _ hq)]
    exact read_write_of_ne m p.2 (Ne.symm (h p (List.mem_cons_self ..)))

end Memory

end Sys2Proof
end

