-- ==== Sys2Proof/Laws/State.lean ====
section
/-! SUPPORT. Laws of the state: what each update of a part leaves alone, one lemma for each field and update, and reading
a part after it has been written. -/
namespace Sys2Proof.Machine


/-! ### setCtx -/

@[simp] theorem State.setCtx_cycle (s : State) (c : Nat) (x : Ctx) : (s.setCtx c x).cycle = s.cycle := rfl
@[simp] theorem State.setCtx_cores (s : State) (c : Nat) (x : Ctx) : (s.setCtx c x).cores = s.cores := rfl
@[simp] theorem State.setCtx_clusters (s : State) (c : Nat) (x : Ctx) : (s.setCtx c x).clusters = s.clusters := rfl
@[simp] theorem State.setCtx_parts (s : State) (c : Nat) (x : Ctx) : (s.setCtx c x).parts = s.parts := rfl
@[simp] theorem State.setCtx_kernels (s : State) (c : Nat) (x : Ctx) : (s.setCtx c x).kernels = s.kernels := rfl
@[simp] theorem State.setCtx_serial (s : State) (c : Nat) (x : Ctx) : (s.setCtx c x).serial = s.serial := rfl
@[simp] theorem State.setCtx_dram (s : State) (c : Nat) (x : Ctx) : (s.setCtx c x).dram = s.dram := rfl
@[simp] theorem State.setCtx_badDram (s : State) (c : Nat) (x : Ctx) : (s.setCtx c x).badDram = s.badDram := rfl
@[simp] theorem State.setCtx_poisoned (s : State) (c : Nat) (x : Ctx) : (s.setCtx c x).poisoned = s.poisoned := rfl
@[simp] theorem State.setCtx_remote (s : State) (c : Nat) (x : Ctx) : (s.setCtx c x).remote = s.remote := rfl
@[simp] theorem State.setCtx_devCommits (s : State) (c : Nat) (x : Ctx) : (s.setCtx c x).devCommits = s.devCommits := rfl
@[simp] theorem State.setCtx_sysCommits (s : State) (c : Nat) (x : Ctx) : (s.setCtx c x).sysCommits = s.sysCommits := rfl
@[simp] theorem State.setCtx_commits (s : State) (c : Nat) (x : Ctx) : (s.setCtx c x).commits = s.commits := rfl
@[simp] theorem State.setCtx_tags (s : State) (c : Nat) (x : Ctx) : (s.setCtx c x).tags = s.tags := rfl
@[simp] theorem State.setCtx_tagWrites (s : State) (c : Nat) (x : Ctx) : (s.setCtx c x).tagWrites = s.tagWrites := rfl
@[simp] theorem State.setCtx_atomics (s : State) (c : Nat) (x : Ctx) : (s.setCtx c x).atomics = s.atomics := rfl
@[simp] theorem State.setCtx_verReqs (s : State) (c : Nat) (x : Ctx) : (s.setCtx c x).verReqs = s.verReqs := rfl
@[simp] theorem State.setCtx_saved (s : State) (c : Nat) (x : Ctx) : (s.setCtx c x).saved = s.saved := rfl
@[simp] theorem State.setCtx_engines (s : State) (c : Nat) (x : Ctx) : (s.setCtx c x).engines = s.engines := rfl
@[simp] theorem State.setCtx_walksWaiting (s : State) (c : Nat) (x : Ctx) : (s.setCtx c x).walksWaiting = s.walksWaiting := rfl
@[simp] theorem State.setCtx_walks (s : State) (c : Nat) (x : Ctx) : (s.setCtx c x).walks = s.walks := rfl
@[simp] theorem State.setCtx_sent (s : State) (c : Nat) (x : Ctx) : (s.setCtx c x).sent = s.sent := rfl
@[simp] theorem State.setCtx_kept (s : State) (c : Nat) (x : Ctx) : (s.setCtx c x).kept = s.kept := rfl
@[simp] theorem State.setCtx_dropped (s : State) (c : Nat) (x : Ctx) : (s.setCtx c x).dropped = s.dropped := rfl
@[simp] theorem State.setCtx_owner (s : State) (c : Nat) (x : Ctx) : (s.setCtx c x).owner = s.owner := rfl
@[simp] theorem State.setCtx_devId (s : State) (c : Nat) (x : Ctx) : (s.setCtx c x).devId = s.devId := rfl
@[simp] theorem State.setCtx_vlend (s : State) (c : Nat) (x : Ctx) : (s.setCtx c x).vlend = s.vlend := rfl
@[simp] theorem State.setCtx_vrtbase (s : State) (c : Nat) (x : Ctx) : (s.setCtx c x).vrtbase = s.vrtbase := rfl
@[simp] theorem State.setCtx_captures (s : State) (c : Nat) (x : Ctx) : (s.setCtx c x).captures = s.captures := rfl
@[simp] theorem State.setCtx_routes (s : State) (c : Nat) (x : Ctx) : (s.setCtx c x).routes = s.routes := rfl
@[simp] theorem State.setCtx_shelves (s : State) (c : Nat) (x : Ctx) : (s.setCtx c x).shelves = s.shelves := rfl
@[simp] theorem State.setCtx_alarmCfg (s : State) (c : Nat) (x : Ctx) : (s.setCtx c x).alarmCfg = s.alarmCfg := rfl
@[simp] theorem State.setCtx_alarm (s : State) (c : Nat) (x : Ctx) : (s.setCtx c x).alarm = s.alarm := rfl
@[simp] theorem State.setCtx_keysGone (s : State) (c : Nat) (x : Ctx) : (s.setCtx c x).keysGone = s.keysGone := rfl
@[simp] theorem State.setCtx_services (s : State) (c : Nat) (x : Ctx) : (s.setCtx c x).services = s.services := rfl
@[simp] theorem State.setCtx_queuedServices (s : State) (c : Nat) (x : Ctx) : (s.setCtx c x).queuedServices = s.queuedServices := rfl
@[simp] theorem State.setCtx_powerHigh (s : State) (c : Nat) (x : Ctx) : (s.setCtx c x).powerHigh = s.powerHigh := rfl
@[simp] theorem State.setCtx_health (s : State) (c : Nat) (x : Ctx) : (s.setCtx c x).health = s.health := rfl
@[simp] theorem State.setCtx_replies (s : State) (c : Nat) (x : Ctx) : (s.setCtx c x).replies = s.replies := rfl
@[simp] theorem State.setCtx_fwImage (s : State) (c : Nat) (x : Ctx) : (s.setCtx c x).fwImage = s.fwImage := rfl
@[simp] theorem State.setCtx_agenda (s : State) (c : Nat) (x : Ctx) : (s.setCtx c x).agenda = s.agenda := rfl
@[simp] theorem State.setCtx_served (s : State) (c : Nat) (x : Ctx) : (s.setCtx c x).served = s.served := rfl
@[simp] theorem State.setCtx_slot (s : State) (c : Nat) (x : Ctx) : (s.setCtx c x).slot = s.slot := rfl
@[simp] theorem State.setCtx_fresh (s : State) (c : Nat) (x : Ctx) : (s.setCtx c x).fresh = s.fresh := rfl

/-! ### setCore -/

@[simp] theorem State.setCore_cycle (s : State) (c : Nat) (x : CoreSt) : (s.setCore c x).cycle = s.cycle := rfl
@[simp] theorem State.setCore_ctxs (s : State) (c : Nat) (x : CoreSt) : (s.setCore c x).ctxs = s.ctxs := rfl
@[simp] theorem State.setCore_clusters (s : State) (c : Nat) (x : CoreSt) : (s.setCore c x).clusters = s.clusters := rfl
@[simp] theorem State.setCore_parts (s : State) (c : Nat) (x : CoreSt) : (s.setCore c x).parts = s.parts := rfl
@[simp] theorem State.setCore_kernels (s : State) (c : Nat) (x : CoreSt) : (s.setCore c x).kernels = s.kernels := rfl
@[simp] theorem State.setCore_serial (s : State) (c : Nat) (x : CoreSt) : (s.setCore c x).serial = s.serial := rfl
@[simp] theorem State.setCore_dram (s : State) (c : Nat) (x : CoreSt) : (s.setCore c x).dram = s.dram := rfl
@[simp] theorem State.setCore_badDram (s : State) (c : Nat) (x : CoreSt) : (s.setCore c x).badDram = s.badDram := rfl
@[simp] theorem State.setCore_poisoned (s : State) (c : Nat) (x : CoreSt) : (s.setCore c x).poisoned = s.poisoned := rfl
@[simp] theorem State.setCore_remote (s : State) (c : Nat) (x : CoreSt) : (s.setCore c x).remote = s.remote := rfl
@[simp] theorem State.setCore_devCommits (s : State) (c : Nat) (x : CoreSt) : (s.setCore c x).devCommits = s.devCommits := rfl
@[simp] theorem State.setCore_sysCommits (s : State) (c : Nat) (x : CoreSt) : (s.setCore c x).sysCommits = s.sysCommits := rfl
@[simp] theorem State.setCore_commits (s : State) (c : Nat) (x : CoreSt) : (s.setCore c x).commits = s.commits := rfl
@[simp] theorem State.setCore_tags (s : State) (c : Nat) (x : CoreSt) : (s.setCore c x).tags = s.tags := rfl
@[simp] theorem State.setCore_tagWrites (s : State) (c : Nat) (x : CoreSt) : (s.setCore c x).tagWrites = s.tagWrites := rfl
@[simp] theorem State.setCore_atomics (s : State) (c : Nat) (x : CoreSt) : (s.setCore c x).atomics = s.atomics := rfl
@[simp] theorem State.setCore_verReqs (s : State) (c : Nat) (x : CoreSt) : (s.setCore c x).verReqs = s.verReqs := rfl
@[simp] theorem State.setCore_saved (s : State) (c : Nat) (x : CoreSt) : (s.setCore c x).saved = s.saved := rfl
@[simp] theorem State.setCore_engines (s : State) (c : Nat) (x : CoreSt) : (s.setCore c x).engines = s.engines := rfl
@[simp] theorem State.setCore_walksWaiting (s : State) (c : Nat) (x : CoreSt) : (s.setCore c x).walksWaiting = s.walksWaiting := rfl
@[simp] theorem State.setCore_walks (s : State) (c : Nat) (x : CoreSt) : (s.setCore c x).walks = s.walks := rfl
@[simp] theorem State.setCore_sent (s : State) (c : Nat) (x : CoreSt) : (s.setCore c x).sent = s.sent := rfl
@[simp] theorem State.setCore_kept (s : State) (c : Nat) (x : CoreSt) : (s.setCore c x).kept = s.kept := rfl
@[simp] theorem State.setCore_dropped (s : State) (c : Nat) (x : CoreSt) : (s.setCore c x).dropped = s.dropped := rfl
@[simp] theorem State.setCore_owner (s : State) (c : Nat) (x : CoreSt) : (s.setCore c x).owner = s.owner := rfl
@[simp] theorem State.setCore_devId (s : State) (c : Nat) (x : CoreSt) : (s.setCore c x).devId = s.devId := rfl
@[simp] theorem State.setCore_vlend (s : State) (c : Nat) (x : CoreSt) : (s.setCore c x).vlend = s.vlend := rfl
@[simp] theorem State.setCore_vrtbase (s : State) (c : Nat) (x : CoreSt) : (s.setCore c x).vrtbase = s.vrtbase := rfl
@[simp] theorem State.setCore_captures (s : State) (c : Nat) (x : CoreSt) : (s.setCore c x).captures = s.captures := rfl
@[simp] theorem State.setCore_routes (s : State) (c : Nat) (x : CoreSt) : (s.setCore c x).routes = s.routes := rfl
@[simp] theorem State.setCore_shelves (s : State) (c : Nat) (x : CoreSt) : (s.setCore c x).shelves = s.shelves := rfl
@[simp] theorem State.setCore_alarmCfg (s : State) (c : Nat) (x : CoreSt) : (s.setCore c x).alarmCfg = s.alarmCfg := rfl
@[simp] theorem State.setCore_alarm (s : State) (c : Nat) (x : CoreSt) : (s.setCore c x).alarm = s.alarm := rfl
@[simp] theorem State.setCore_keysGone (s : State) (c : Nat) (x : CoreSt) : (s.setCore c x).keysGone = s.keysGone := rfl
@[simp] theorem State.setCore_services (s : State) (c : Nat) (x : CoreSt) : (s.setCore c x).services = s.services := rfl
@[simp] theorem State.setCore_queuedServices (s : State) (c : Nat) (x : CoreSt) : (s.setCore c x).queuedServices = s.queuedServices := rfl
@[simp] theorem State.setCore_powerHigh (s : State) (c : Nat) (x : CoreSt) : (s.setCore c x).powerHigh = s.powerHigh := rfl
@[simp] theorem State.setCore_health (s : State) (c : Nat) (x : CoreSt) : (s.setCore c x).health = s.health := rfl
@[simp] theorem State.setCore_replies (s : State) (c : Nat) (x : CoreSt) : (s.setCore c x).replies = s.replies := rfl
@[simp] theorem State.setCore_fwImage (s : State) (c : Nat) (x : CoreSt) : (s.setCore c x).fwImage = s.fwImage := rfl
@[simp] theorem State.setCore_agenda (s : State) (c : Nat) (x : CoreSt) : (s.setCore c x).agenda = s.agenda := rfl
@[simp] theorem State.setCore_served (s : State) (c : Nat) (x : CoreSt) : (s.setCore c x).served = s.served := rfl
@[simp] theorem State.setCore_slot (s : State) (c : Nat) (x : CoreSt) : (s.setCore c x).slot = s.slot := rfl
@[simp] theorem State.setCore_fresh (s : State) (c : Nat) (x : CoreSt) : (s.setCore c x).fresh = s.fresh := rfl

/-! ### setCluster -/

@[simp] theorem State.setCluster_cycle (s : State) (c : Nat) (x : Cluster) : (s.setCluster c x).cycle = s.cycle := rfl
@[simp] theorem State.setCluster_ctxs (s : State) (c : Nat) (x : Cluster) : (s.setCluster c x).ctxs = s.ctxs := rfl
@[simp] theorem State.setCluster_cores (s : State) (c : Nat) (x : Cluster) : (s.setCluster c x).cores = s.cores := rfl
@[simp] theorem State.setCluster_parts (s : State) (c : Nat) (x : Cluster) : (s.setCluster c x).parts = s.parts := rfl
@[simp] theorem State.setCluster_kernels (s : State) (c : Nat) (x : Cluster) : (s.setCluster c x).kernels = s.kernels := rfl
@[simp] theorem State.setCluster_serial (s : State) (c : Nat) (x : Cluster) : (s.setCluster c x).serial = s.serial := rfl
@[simp] theorem State.setCluster_dram (s : State) (c : Nat) (x : Cluster) : (s.setCluster c x).dram = s.dram := rfl
@[simp] theorem State.setCluster_badDram (s : State) (c : Nat) (x : Cluster) : (s.setCluster c x).badDram = s.badDram := rfl
@[simp] theorem State.setCluster_poisoned (s : State) (c : Nat) (x : Cluster) : (s.setCluster c x).poisoned = s.poisoned := rfl
@[simp] theorem State.setCluster_remote (s : State) (c : Nat) (x : Cluster) : (s.setCluster c x).remote = s.remote := rfl
@[simp] theorem State.setCluster_devCommits (s : State) (c : Nat) (x : Cluster) : (s.setCluster c x).devCommits = s.devCommits := rfl
@[simp] theorem State.setCluster_sysCommits (s : State) (c : Nat) (x : Cluster) : (s.setCluster c x).sysCommits = s.sysCommits := rfl
@[simp] theorem State.setCluster_commits (s : State) (c : Nat) (x : Cluster) : (s.setCluster c x).commits = s.commits := rfl
@[simp] theorem State.setCluster_tags (s : State) (c : Nat) (x : Cluster) : (s.setCluster c x).tags = s.tags := rfl
@[simp] theorem State.setCluster_tagWrites (s : State) (c : Nat) (x : Cluster) : (s.setCluster c x).tagWrites = s.tagWrites := rfl
@[simp] theorem State.setCluster_atomics (s : State) (c : Nat) (x : Cluster) : (s.setCluster c x).atomics = s.atomics := rfl
@[simp] theorem State.setCluster_verReqs (s : State) (c : Nat) (x : Cluster) : (s.setCluster c x).verReqs = s.verReqs := rfl
@[simp] theorem State.setCluster_saved (s : State) (c : Nat) (x : Cluster) : (s.setCluster c x).saved = s.saved := rfl
@[simp] theorem State.setCluster_engines (s : State) (c : Nat) (x : Cluster) : (s.setCluster c x).engines = s.engines := rfl
@[simp] theorem State.setCluster_walksWaiting (s : State) (c : Nat) (x : Cluster) : (s.setCluster c x).walksWaiting = s.walksWaiting := rfl
@[simp] theorem State.setCluster_walks (s : State) (c : Nat) (x : Cluster) : (s.setCluster c x).walks = s.walks := rfl
@[simp] theorem State.setCluster_sent (s : State) (c : Nat) (x : Cluster) : (s.setCluster c x).sent = s.sent := rfl
@[simp] theorem State.setCluster_kept (s : State) (c : Nat) (x : Cluster) : (s.setCluster c x).kept = s.kept := rfl
@[simp] theorem State.setCluster_dropped (s : State) (c : Nat) (x : Cluster) : (s.setCluster c x).dropped = s.dropped := rfl
@[simp] theorem State.setCluster_owner (s : State) (c : Nat) (x : Cluster) : (s.setCluster c x).owner = s.owner := rfl
@[simp] theorem State.setCluster_devId (s : State) (c : Nat) (x : Cluster) : (s.setCluster c x).devId = s.devId := rfl
@[simp] theorem State.setCluster_vlend (s : State) (c : Nat) (x : Cluster) : (s.setCluster c x).vlend = s.vlend := rfl
@[simp] theorem State.setCluster_vrtbase (s : State) (c : Nat) (x : Cluster) : (s.setCluster c x).vrtbase = s.vrtbase := rfl
@[simp] theorem State.setCluster_captures (s : State) (c : Nat) (x : Cluster) : (s.setCluster c x).captures = s.captures := rfl
@[simp] theorem State.setCluster_routes (s : State) (c : Nat) (x : Cluster) : (s.setCluster c x).routes = s.routes := rfl
@[simp] theorem State.setCluster_shelves (s : State) (c : Nat) (x : Cluster) : (s.setCluster c x).shelves = s.shelves := rfl
@[simp] theorem State.setCluster_alarmCfg (s : State) (c : Nat) (x : Cluster) : (s.setCluster c x).alarmCfg = s.alarmCfg := rfl
@[simp] theorem State.setCluster_alarm (s : State) (c : Nat) (x : Cluster) : (s.setCluster c x).alarm = s.alarm := rfl
@[simp] theorem State.setCluster_keysGone (s : State) (c : Nat) (x : Cluster) : (s.setCluster c x).keysGone = s.keysGone := rfl
@[simp] theorem State.setCluster_services (s : State) (c : Nat) (x : Cluster) : (s.setCluster c x).services = s.services := rfl
@[simp] theorem State.setCluster_queuedServices (s : State) (c : Nat) (x : Cluster) : (s.setCluster c x).queuedServices = s.queuedServices := rfl
@[simp] theorem State.setCluster_powerHigh (s : State) (c : Nat) (x : Cluster) : (s.setCluster c x).powerHigh = s.powerHigh := rfl
@[simp] theorem State.setCluster_health (s : State) (c : Nat) (x : Cluster) : (s.setCluster c x).health = s.health := rfl
@[simp] theorem State.setCluster_replies (s : State) (c : Nat) (x : Cluster) : (s.setCluster c x).replies = s.replies := rfl
@[simp] theorem State.setCluster_fwImage (s : State) (c : Nat) (x : Cluster) : (s.setCluster c x).fwImage = s.fwImage := rfl
@[simp] theorem State.setCluster_agenda (s : State) (c : Nat) (x : Cluster) : (s.setCluster c x).agenda = s.agenda := rfl
@[simp] theorem State.setCluster_served (s : State) (c : Nat) (x : Cluster) : (s.setCluster c x).served = s.served := rfl
@[simp] theorem State.setCluster_slot (s : State) (c : Nat) (x : Cluster) : (s.setCluster c x).slot = s.slot := rfl
@[simp] theorem State.setCluster_fresh (s : State) (c : Nat) (x : Cluster) : (s.setCluster c x).fresh = s.fresh := rfl

/-! ### setPart -/

@[simp] theorem State.setPart_cycle (s : State) (c : Nat) (x : Part) : (s.setPart c x).cycle = s.cycle := rfl
@[simp] theorem State.setPart_ctxs (s : State) (c : Nat) (x : Part) : (s.setPart c x).ctxs = s.ctxs := rfl
@[simp] theorem State.setPart_cores (s : State) (c : Nat) (x : Part) : (s.setPart c x).cores = s.cores := rfl
@[simp] theorem State.setPart_clusters (s : State) (c : Nat) (x : Part) : (s.setPart c x).clusters = s.clusters := rfl
@[simp] theorem State.setPart_kernels (s : State) (c : Nat) (x : Part) : (s.setPart c x).kernels = s.kernels := rfl
@[simp] theorem State.setPart_serial (s : State) (c : Nat) (x : Part) : (s.setPart c x).serial = s.serial := rfl
@[simp] theorem State.setPart_dram (s : State) (c : Nat) (x : Part) : (s.setPart c x).dram = s.dram := rfl
@[simp] theorem State.setPart_badDram (s : State) (c : Nat) (x : Part) : (s.setPart c x).badDram = s.badDram := rfl
@[simp] theorem State.setPart_poisoned (s : State) (c : Nat) (x : Part) : (s.setPart c x).poisoned = s.poisoned := rfl
@[simp] theorem State.setPart_remote (s : State) (c : Nat) (x : Part) : (s.setPart c x).remote = s.remote := rfl
@[simp] theorem State.setPart_devCommits (s : State) (c : Nat) (x : Part) : (s.setPart c x).devCommits = s.devCommits := rfl
@[simp] theorem State.setPart_sysCommits (s : State) (c : Nat) (x : Part) : (s.setPart c x).sysCommits = s.sysCommits := rfl
@[simp] theorem State.setPart_commits (s : State) (c : Nat) (x : Part) : (s.setPart c x).commits = s.commits := rfl
@[simp] theorem State.setPart_tags (s : State) (c : Nat) (x : Part) : (s.setPart c x).tags = s.tags := rfl
@[simp] theorem State.setPart_tagWrites (s : State) (c : Nat) (x : Part) : (s.setPart c x).tagWrites = s.tagWrites := rfl
@[simp] theorem State.setPart_atomics (s : State) (c : Nat) (x : Part) : (s.setPart c x).atomics = s.atomics := rfl
@[simp] theorem State.setPart_verReqs (s : State) (c : Nat) (x : Part) : (s.setPart c x).verReqs = s.verReqs := rfl
@[simp] theorem State.setPart_saved (s : State) (c : Nat) (x : Part) : (s.setPart c x).saved = s.saved := rfl
@[simp] theorem State.setPart_engines (s : State) (c : Nat) (x : Part) : (s.setPart c x).engines = s.engines := rfl
@[simp] theorem State.setPart_walksWaiting (s : State) (c : Nat) (x : Part) : (s.setPart c x).walksWaiting = s.walksWaiting := rfl
@[simp] theorem State.setPart_walks (s : State) (c : Nat) (x : Part) : (s.setPart c x).walks = s.walks := rfl
@[simp] theorem State.setPart_sent (s : State) (c : Nat) (x : Part) : (s.setPart c x).sent = s.sent := rfl
@[simp] theorem State.setPart_kept (s : State) (c : Nat) (x : Part) : (s.setPart c x).kept = s.kept := rfl
@[simp] theorem State.setPart_dropped (s : State) (c : Nat) (x : Part) : (s.setPart c x).dropped = s.dropped := rfl
@[simp] theorem State.setPart_owner (s : State) (c : Nat) (x : Part) : (s.setPart c x).owner = s.owner := rfl
@[simp] theorem State.setPart_devId (s : State) (c : Nat) (x : Part) : (s.setPart c x).devId = s.devId := rfl
@[simp] theorem State.setPart_vlend (s : State) (c : Nat) (x : Part) : (s.setPart c x).vlend = s.vlend := rfl
@[simp] theorem State.setPart_vrtbase (s : State) (c : Nat) (x : Part) : (s.setPart c x).vrtbase = s.vrtbase := rfl
@[simp] theorem State.setPart_captures (s : State) (c : Nat) (x : Part) : (s.setPart c x).captures = s.captures := rfl
@[simp] theorem State.setPart_routes (s : State) (c : Nat) (x : Part) : (s.setPart c x).routes = s.routes := rfl
@[simp] theorem State.setPart_shelves (s : State) (c : Nat) (x : Part) : (s.setPart c x).shelves = s.shelves := rfl
@[simp] theorem State.setPart_alarmCfg (s : State) (c : Nat) (x : Part) : (s.setPart c x).alarmCfg = s.alarmCfg := rfl
@[simp] theorem State.setPart_alarm (s : State) (c : Nat) (x : Part) : (s.setPart c x).alarm = s.alarm := rfl
@[simp] theorem State.setPart_keysGone (s : State) (c : Nat) (x : Part) : (s.setPart c x).keysGone = s.keysGone := rfl
@[simp] theorem State.setPart_services (s : State) (c : Nat) (x : Part) : (s.setPart c x).services = s.services := rfl
@[simp] theorem State.setPart_queuedServices (s : State) (c : Nat) (x : Part) : (s.setPart c x).queuedServices = s.queuedServices := rfl
@[simp] theorem State.setPart_powerHigh (s : State) (c : Nat) (x : Part) : (s.setPart c x).powerHigh = s.powerHigh := rfl
@[simp] theorem State.setPart_health (s : State) (c : Nat) (x : Part) : (s.setPart c x).health = s.health := rfl
@[simp] theorem State.setPart_replies (s : State) (c : Nat) (x : Part) : (s.setPart c x).replies = s.replies := rfl
@[simp] theorem State.setPart_fwImage (s : State) (c : Nat) (x : Part) : (s.setPart c x).fwImage = s.fwImage := rfl
@[simp] theorem State.setPart_agenda (s : State) (c : Nat) (x : Part) : (s.setPart c x).agenda = s.agenda := rfl
@[simp] theorem State.setPart_served (s : State) (c : Nat) (x : Part) : (s.setPart c x).served = s.served := rfl
@[simp] theorem State.setPart_slot (s : State) (c : Nat) (x : Part) : (s.setPart c x).slot = s.slot := rfl
@[simp] theorem State.setPart_fresh (s : State) (c : Nat) (x : Part) : (s.setPart c x).fresh = s.fresh := rfl

/-! ### updCtx -/

@[simp] theorem State.updCtx_cycle (s : State) (c : Nat) (f : Ctx → Ctx) : (s.updCtx c f).cycle = s.cycle := rfl
@[simp] theorem State.updCtx_cores (s : State) (c : Nat) (f : Ctx → Ctx) : (s.updCtx c f).cores = s.cores := rfl
@[simp] theorem State.updCtx_clusters (s : State) (c : Nat) (f : Ctx → Ctx) : (s.updCtx c f).clusters = s.clusters := rfl
@[simp] theorem State.updCtx_parts (s : State) (c : Nat) (f : Ctx → Ctx) : (s.updCtx c f).parts = s.parts := rfl
@[simp] theorem State.updCtx_kernels (s : State) (c : Nat) (f : Ctx → Ctx) : (s.updCtx c f).kernels = s.kernels := rfl
@[simp] theorem State.updCtx_serial (s : State) (c : Nat) (f : Ctx → Ctx) : (s.updCtx c f).serial = s.serial := rfl
@[simp] theorem State.updCtx_dram (s : State) (c : Nat) (f : Ctx → Ctx) : (s.updCtx c f).dram = s.dram := rfl
@[simp] theorem State.updCtx_badDram (s : State) (c : Nat) (f : Ctx → Ctx) : (s.updCtx c f).badDram = s.badDram := rfl
@[simp] theorem State.updCtx_poisoned (s : State) (c : Nat) (f : Ctx → Ctx) : (s.updCtx c f).poisoned = s.poisoned := rfl
@[simp] theorem State.updCtx_remote (s : State) (c : Nat) (f : Ctx → Ctx) : (s.updCtx c f).remote = s.remote := rfl
@[simp] theorem State.updCtx_devCommits (s : State) (c : Nat) (f : Ctx → Ctx) : (s.updCtx c f).devCommits = s.devCommits := rfl
@[simp] theorem State.updCtx_sysCommits (s : State) (c : Nat) (f : Ctx → Ctx) : (s.updCtx c f).sysCommits = s.sysCommits := rfl
@[simp] theorem State.updCtx_commits (s : State) (c : Nat) (f : Ctx → Ctx) : (s.updCtx c f).commits = s.commits := rfl
@[simp] theorem State.updCtx_tags (s : State) (c : Nat) (f : Ctx → Ctx) : (s.updCtx c f).tags = s.tags := rfl
@[simp] theorem State.updCtx_tagWrites (s : State) (c : Nat) (f : Ctx → Ctx) : (s.updCtx c f).tagWrites = s.tagWrites := rfl
@[simp] theorem State.updCtx_atomics (s : State) (c : Nat) (f : Ctx → Ctx) : (s.updCtx c f).atomics = s.atomics := rfl
@[simp] theorem State.updCtx_verReqs (s : State) (c : Nat) (f : Ctx → Ctx) : (s.updCtx c f).verReqs = s.verReqs := rfl
@[simp] theorem State.updCtx_saved (s : State) (c : Nat) (f : Ctx → Ctx) : (s.updCtx c f).saved = s.saved := rfl
@[simp] theorem State.updCtx_engines (s : State) (c : Nat) (f : Ctx → Ctx) : (s.updCtx c f).engines = s.engines := rfl
@[simp] theorem State.updCtx_walksWaiting (s : State) (c : Nat) (f : Ctx → Ctx) : (s.updCtx c f).walksWaiting = s.walksWaiting := rfl
@[simp] theorem State.updCtx_walks (s : State) (c : Nat) (f : Ctx → Ctx) : (s.updCtx c f).walks = s.walks := rfl
@[simp] theorem State.updCtx_sent (s : State) (c : Nat) (f : Ctx → Ctx) : (s.updCtx c f).sent = s.sent := rfl
@[simp] theorem State.updCtx_kept (s : State) (c : Nat) (f : Ctx → Ctx) : (s.updCtx c f).kept = s.kept := rfl
@[simp] theorem State.updCtx_dropped (s : State) (c : Nat) (f : Ctx → Ctx) : (s.updCtx c f).dropped = s.dropped := rfl
@[simp] theorem State.updCtx_owner (s : State) (c : Nat) (f : Ctx → Ctx) : (s.updCtx c f).owner = s.owner := rfl
@[simp] theorem State.updCtx_devId (s : State) (c : Nat) (f : Ctx → Ctx) : (s.updCtx c f).devId = s.devId := rfl
@[simp] theorem State.updCtx_vlend (s : State) (c : Nat) (f : Ctx → Ctx) : (s.updCtx c f).vlend = s.vlend := rfl
@[simp] theorem State.updCtx_vrtbase (s : State) (c : Nat) (f : Ctx → Ctx) : (s.updCtx c f).vrtbase = s.vrtbase := rfl
@[simp] theorem State.updCtx_captures (s : State) (c : Nat) (f : Ctx → Ctx) : (s.updCtx c f).captures = s.captures := rfl
@[simp] theorem State.updCtx_routes (s : State) (c : Nat) (f : Ctx → Ctx) : (s.updCtx c f).routes = s.routes := rfl
@[simp] theorem State.updCtx_shelves (s : State) (c : Nat) (f : Ctx → Ctx) : (s.updCtx c f).shelves = s.shelves := rfl
@[simp] theorem State.updCtx_alarmCfg (s : State) (c : Nat) (f : Ctx → Ctx) : (s.updCtx c f).alarmCfg = s.alarmCfg := rfl
@[simp] theorem State.updCtx_alarm (s : State) (c : Nat) (f : Ctx → Ctx) : (s.updCtx c f).alarm = s.alarm := rfl
@[simp] theorem State.updCtx_keysGone (s : State) (c : Nat) (f : Ctx → Ctx) : (s.updCtx c f).keysGone = s.keysGone := rfl
@[simp] theorem State.updCtx_services (s : State) (c : Nat) (f : Ctx → Ctx) : (s.updCtx c f).services = s.services := rfl
@[simp] theorem State.updCtx_queuedServices (s : State) (c : Nat) (f : Ctx → Ctx) : (s.updCtx c f).queuedServices = s.queuedServices := rfl
@[simp] theorem State.updCtx_powerHigh (s : State) (c : Nat) (f : Ctx → Ctx) : (s.updCtx c f).powerHigh = s.powerHigh := rfl
@[simp] theorem State.updCtx_health (s : State) (c : Nat) (f : Ctx → Ctx) : (s.updCtx c f).health = s.health := rfl
@[simp] theorem State.updCtx_replies (s : State) (c : Nat) (f : Ctx → Ctx) : (s.updCtx c f).replies = s.replies := rfl
@[simp] theorem State.updCtx_fwImage (s : State) (c : Nat) (f : Ctx → Ctx) : (s.updCtx c f).fwImage = s.fwImage := rfl
@[simp] theorem State.updCtx_agenda (s : State) (c : Nat) (f : Ctx → Ctx) : (s.updCtx c f).agenda = s.agenda := rfl
@[simp] theorem State.updCtx_served (s : State) (c : Nat) (f : Ctx → Ctx) : (s.updCtx c f).served = s.served := rfl
@[simp] theorem State.updCtx_slot (s : State) (c : Nat) (f : Ctx → Ctx) : (s.updCtx c f).slot = s.slot := rfl
@[simp] theorem State.updCtx_fresh (s : State) (c : Nat) (f : Ctx → Ctx) : (s.updCtx c f).fresh = s.fresh := rfl

/-! ### updCur -/

@[simp] theorem State.updCur_cycle (s : State) (f : Ctx → Ctx) : (s.updCur f).cycle = s.cycle := rfl
@[simp] theorem State.updCur_cores (s : State) (f : Ctx → Ctx) : (s.updCur f).cores = s.cores := rfl
@[simp] theorem State.updCur_clusters (s : State) (f : Ctx → Ctx) : (s.updCur f).clusters = s.clusters := rfl
@[simp] theorem State.updCur_parts (s : State) (f : Ctx → Ctx) : (s.updCur f).parts = s.parts := rfl
@[simp] theorem State.updCur_kernels (s : State) (f : Ctx → Ctx) : (s.updCur f).kernels = s.kernels := rfl
@[simp] theorem State.updCur_serial (s : State) (f : Ctx → Ctx) : (s.updCur f).serial = s.serial := rfl
@[simp] theorem State.updCur_dram (s : State) (f : Ctx → Ctx) : (s.updCur f).dram = s.dram := rfl
@[simp] theorem State.updCur_badDram (s : State) (f : Ctx → Ctx) : (s.updCur f).badDram = s.badDram := rfl
@[simp] theorem State.updCur_poisoned (s : State) (f : Ctx → Ctx) : (s.updCur f).poisoned = s.poisoned := rfl
@[simp] theorem State.updCur_remote (s : State) (f : Ctx → Ctx) : (s.updCur f).remote = s.remote := rfl
@[simp] theorem State.updCur_devCommits (s : State) (f : Ctx → Ctx) : (s.updCur f).devCommits = s.devCommits := rfl
@[simp] theorem State.updCur_sysCommits (s : State) (f : Ctx → Ctx) : (s.updCur f).sysCommits = s.sysCommits := rfl
@[simp] theorem State.updCur_commits (s : State) (f : Ctx → Ctx) : (s.updCur f).commits = s.commits := rfl
@[simp] theorem State.updCur_tags (s : State) (f : Ctx → Ctx) : (s.updCur f).tags = s.tags := rfl
@[simp] theorem State.updCur_tagWrites (s : State) (f : Ctx → Ctx) : (s.updCur f).tagWrites = s.tagWrites := rfl
@[simp] theorem State.updCur_atomics (s : State) (f : Ctx → Ctx) : (s.updCur f).atomics = s.atomics := rfl
@[simp] theorem State.updCur_verReqs (s : State) (f : Ctx → Ctx) : (s.updCur f).verReqs = s.verReqs := rfl
@[simp] theorem State.updCur_saved (s : State) (f : Ctx → Ctx) : (s.updCur f).saved = s.saved := rfl
@[simp] theorem State.updCur_engines (s : State) (f : Ctx → Ctx) : (s.updCur f).engines = s.engines := rfl
@[simp] theorem State.updCur_walksWaiting (s : State) (f : Ctx → Ctx) : (s.updCur f).walksWaiting = s.walksWaiting := rfl
@[simp] theorem State.updCur_walks (s : State) (f : Ctx → Ctx) : (s.updCur f).walks = s.walks := rfl
@[simp] theorem State.updCur_sent (s : State) (f : Ctx → Ctx) : (s.updCur f).sent = s.sent := rfl
@[simp] theorem State.updCur_kept (s : State) (f : Ctx → Ctx) : (s.updCur f).kept = s.kept := rfl
@[simp] theorem State.updCur_dropped (s : State) (f : Ctx → Ctx) : (s.updCur f).dropped = s.dropped := rfl
@[simp] theorem State.updCur_owner (s : State) (f : Ctx → Ctx) : (s.updCur f).owner = s.owner := rfl
@[simp] theorem State.updCur_devId (s : State) (f : Ctx → Ctx) : (s.updCur f).devId = s.devId := rfl
@[simp] theorem State.updCur_vlend (s : State) (f : Ctx → Ctx) : (s.updCur f).vlend = s.vlend := rfl
@[simp] theorem State.updCur_vrtbase (s : State) (f : Ctx → Ctx) : (s.updCur f).vrtbase = s.vrtbase := rfl
@[simp] theorem State.updCur_captures (s : State) (f : Ctx → Ctx) : (s.updCur f).captures = s.captures := rfl
@[simp] theorem State.updCur_routes (s : State) (f : Ctx → Ctx) : (s.updCur f).routes = s.routes := rfl
@[simp] theorem State.updCur_shelves (s : State) (f : Ctx → Ctx) : (s.updCur f).shelves = s.shelves := rfl
@[simp] theorem State.updCur_alarmCfg (s : State) (f : Ctx → Ctx) : (s.updCur f).alarmCfg = s.alarmCfg := rfl
@[simp] theorem State.updCur_alarm (s : State) (f : Ctx → Ctx) : (s.updCur f).alarm = s.alarm := rfl
@[simp] theorem State.updCur_keysGone (s : State) (f : Ctx → Ctx) : (s.updCur f).keysGone = s.keysGone := rfl
@[simp] theorem State.updCur_services (s : State) (f : Ctx → Ctx) : (s.updCur f).services = s.services := rfl
@[simp] theorem State.updCur_queuedServices (s : State) (f : Ctx → Ctx) : (s.updCur f).queuedServices = s.queuedServices := rfl
@[simp] theorem State.updCur_powerHigh (s : State) (f : Ctx → Ctx) : (s.updCur f).powerHigh = s.powerHigh := rfl
@[simp] theorem State.updCur_health (s : State) (f : Ctx → Ctx) : (s.updCur f).health = s.health := rfl
@[simp] theorem State.updCur_replies (s : State) (f : Ctx → Ctx) : (s.updCur f).replies = s.replies := rfl
@[simp] theorem State.updCur_fwImage (s : State) (f : Ctx → Ctx) : (s.updCur f).fwImage = s.fwImage := rfl
@[simp] theorem State.updCur_agenda (s : State) (f : Ctx → Ctx) : (s.updCur f).agenda = s.agenda := rfl
@[simp] theorem State.updCur_served (s : State) (f : Ctx → Ctx) : (s.updCur f).served = s.served := rfl
@[simp] theorem State.updCur_slot (s : State) (f : Ctx → Ctx) : (s.updCur f).slot = s.slot := rfl
@[simp] theorem State.updCur_fresh (s : State) (f : Ctx → Ctx) : (s.updCur f).fresh = s.fresh := rfl

/-! ### updCore -/

@[simp] theorem State.updCore_cycle (s : State) (c : Nat) (f : CoreSt → CoreSt) : (s.updCore c f).cycle = s.cycle := rfl
@[simp] theorem State.updCore_ctxs (s : State) (c : Nat) (f : CoreSt → CoreSt) : (s.updCore c f).ctxs = s.ctxs := rfl
@[simp] theorem State.updCore_clusters (s : State) (c : Nat) (f : CoreSt → CoreSt) : (s.updCore c f).clusters = s.clusters := rfl
@[simp] theorem State.updCore_parts (s : State) (c : Nat) (f : CoreSt → CoreSt) : (s.updCore c f).parts = s.parts := rfl
@[simp] theorem State.updCore_kernels (s : State) (c : Nat) (f : CoreSt → CoreSt) : (s.updCore c f).kernels = s.kernels := rfl
@[simp] theorem State.updCore_serial (s : State) (c : Nat) (f : CoreSt → CoreSt) : (s.updCore c f).serial = s.serial := rfl
@[simp] theorem State.updCore_dram (s : State) (c : Nat) (f : CoreSt → CoreSt) : (s.updCore c f).dram = s.dram := rfl
@[simp] theorem State.updCore_badDram (s : State) (c : Nat) (f : CoreSt → CoreSt) : (s.updCore c f).badDram = s.badDram := rfl
@[simp] theorem State.updCore_poisoned (s : State) (c : Nat) (f : CoreSt → CoreSt) : (s.updCore c f).poisoned = s.poisoned := rfl
@[simp] theorem State.updCore_remote (s : State) (c : Nat) (f : CoreSt → CoreSt) : (s.updCore c f).remote = s.remote := rfl
@[simp] theorem State.updCore_devCommits (s : State) (c : Nat) (f : CoreSt → CoreSt) : (s.updCore c f).devCommits = s.devCommits := rfl
@[simp] theorem State.updCore_sysCommits (s : State) (c : Nat) (f : CoreSt → CoreSt) : (s.updCore c f).sysCommits = s.sysCommits := rfl
@[simp] theorem State.updCore_commits (s : State) (c : Nat) (f : CoreSt → CoreSt) : (s.updCore c f).commits = s.commits := rfl
@[simp] theorem State.updCore_tags (s : State) (c : Nat) (f : CoreSt → CoreSt) : (s.updCore c f).tags = s.tags := rfl
@[simp] theorem State.updCore_tagWrites (s : State) (c : Nat) (f : CoreSt → CoreSt) : (s.updCore c f).tagWrites = s.tagWrites := rfl
@[simp] theorem State.updCore_atomics (s : State) (c : Nat) (f : CoreSt → CoreSt) : (s.updCore c f).atomics = s.atomics := rfl
@[simp] theorem State.updCore_verReqs (s : State) (c : Nat) (f : CoreSt → CoreSt) : (s.updCore c f).verReqs = s.verReqs := rfl
@[simp] theorem State.updCore_saved (s : State) (c : Nat) (f : CoreSt → CoreSt) : (s.updCore c f).saved = s.saved := rfl
@[simp] theorem State.updCore_engines (s : State) (c : Nat) (f : CoreSt → CoreSt) : (s.updCore c f).engines = s.engines := rfl
@[simp] theorem State.updCore_walksWaiting (s : State) (c : Nat) (f : CoreSt → CoreSt) : (s.updCore c f).walksWaiting = s.walksWaiting := rfl
@[simp] theorem State.updCore_walks (s : State) (c : Nat) (f : CoreSt → CoreSt) : (s.updCore c f).walks = s.walks := rfl
@[simp] theorem State.updCore_sent (s : State) (c : Nat) (f : CoreSt → CoreSt) : (s.updCore c f).sent = s.sent := rfl
@[simp] theorem State.updCore_kept (s : State) (c : Nat) (f : CoreSt → CoreSt) : (s.updCore c f).kept = s.kept := rfl
@[simp] theorem State.updCore_dropped (s : State) (c : Nat) (f : CoreSt → CoreSt) : (s.updCore c f).dropped = s.dropped := rfl
@[simp] theorem State.updCore_owner (s : State) (c : Nat) (f : CoreSt → CoreSt) : (s.updCore c f).owner = s.owner := rfl
@[simp] theorem State.updCore_devId (s : State) (c : Nat) (f : CoreSt → CoreSt) : (s.updCore c f).devId = s.devId := rfl
@[simp] theorem State.updCore_vlend (s : State) (c : Nat) (f : CoreSt → CoreSt) : (s.updCore c f).vlend = s.vlend := rfl
@[simp] theorem State.updCore_vrtbase (s : State) (c : Nat) (f : CoreSt → CoreSt) : (s.updCore c f).vrtbase = s.vrtbase := rfl
@[simp] theorem State.updCore_captures (s : State) (c : Nat) (f : CoreSt → CoreSt) : (s.updCore c f).captures = s.captures := rfl
@[simp] theorem State.updCore_routes (s : State) (c : Nat) (f : CoreSt → CoreSt) : (s.updCore c f).routes = s.routes := rfl
@[simp] theorem State.updCore_shelves (s : State) (c : Nat) (f : CoreSt → CoreSt) : (s.updCore c f).shelves = s.shelves := rfl
@[simp] theorem State.updCore_alarmCfg (s : State) (c : Nat) (f : CoreSt → CoreSt) : (s.updCore c f).alarmCfg = s.alarmCfg := rfl
@[simp] theorem State.updCore_alarm (s : State) (c : Nat) (f : CoreSt → CoreSt) : (s.updCore c f).alarm = s.alarm := rfl
@[simp] theorem State.updCore_keysGone (s : State) (c : Nat) (f : CoreSt → CoreSt) : (s.updCore c f).keysGone = s.keysGone := rfl
@[simp] theorem State.updCore_services (s : State) (c : Nat) (f : CoreSt → CoreSt) : (s.updCore c f).services = s.services := rfl
@[simp] theorem State.updCore_queuedServices (s : State) (c : Nat) (f : CoreSt → CoreSt) : (s.updCore c f).queuedServices = s.queuedServices := rfl
@[simp] theorem State.updCore_powerHigh (s : State) (c : Nat) (f : CoreSt → CoreSt) : (s.updCore c f).powerHigh = s.powerHigh := rfl
@[simp] theorem State.updCore_health (s : State) (c : Nat) (f : CoreSt → CoreSt) : (s.updCore c f).health = s.health := rfl
@[simp] theorem State.updCore_replies (s : State) (c : Nat) (f : CoreSt → CoreSt) : (s.updCore c f).replies = s.replies := rfl
@[simp] theorem State.updCore_fwImage (s : State) (c : Nat) (f : CoreSt → CoreSt) : (s.updCore c f).fwImage = s.fwImage := rfl
@[simp] theorem State.updCore_agenda (s : State) (c : Nat) (f : CoreSt → CoreSt) : (s.updCore c f).agenda = s.agenda := rfl
@[simp] theorem State.updCore_served (s : State) (c : Nat) (f : CoreSt → CoreSt) : (s.updCore c f).served = s.served := rfl
@[simp] theorem State.updCore_slot (s : State) (c : Nat) (f : CoreSt → CoreSt) : (s.updCore c f).slot = s.slot := rfl
@[simp] theorem State.updCore_fresh (s : State) (c : Nat) (f : CoreSt → CoreSt) : (s.updCore c f).fresh = s.fresh := rfl

/-! ### updCurCore -/

@[simp] theorem State.updCurCore_cycle (s : State) (f : CoreSt → CoreSt) : (s.updCurCore f).cycle = s.cycle := rfl
@[simp] theorem State.updCurCore_ctxs (s : State) (f : CoreSt → CoreSt) : (s.updCurCore f).ctxs = s.ctxs := rfl
@[simp] theorem State.updCurCore_clusters (s : State) (f : CoreSt → CoreSt) : (s.updCurCore f).clusters = s.clusters := rfl
@[simp] theorem State.updCurCore_parts (s : State) (f : CoreSt → CoreSt) : (s.updCurCore f).parts = s.parts := rfl
@[simp] theorem State.updCurCore_kernels (s : State) (f : CoreSt → CoreSt) : (s.updCurCore f).kernels = s.kernels := rfl
@[simp] theorem State.updCurCore_serial (s : State) (f : CoreSt → CoreSt) : (s.updCurCore f).serial = s.serial := rfl
@[simp] theorem State.updCurCore_dram (s : State) (f : CoreSt → CoreSt) : (s.updCurCore f).dram = s.dram := rfl
@[simp] theorem State.updCurCore_badDram (s : State) (f : CoreSt → CoreSt) : (s.updCurCore f).badDram = s.badDram := rfl
@[simp] theorem State.updCurCore_poisoned (s : State) (f : CoreSt → CoreSt) : (s.updCurCore f).poisoned = s.poisoned := rfl
@[simp] theorem State.updCurCore_remote (s : State) (f : CoreSt → CoreSt) : (s.updCurCore f).remote = s.remote := rfl
@[simp] theorem State.updCurCore_devCommits (s : State) (f : CoreSt → CoreSt) : (s.updCurCore f).devCommits = s.devCommits := rfl
@[simp] theorem State.updCurCore_sysCommits (s : State) (f : CoreSt → CoreSt) : (s.updCurCore f).sysCommits = s.sysCommits := rfl
@[simp] theorem State.updCurCore_commits (s : State) (f : CoreSt → CoreSt) : (s.updCurCore f).commits = s.commits := rfl
@[simp] theorem State.updCurCore_tags (s : State) (f : CoreSt → CoreSt) : (s.updCurCore f).tags = s.tags := rfl
@[simp] theorem State.updCurCore_tagWrites (s : State) (f : CoreSt → CoreSt) : (s.updCurCore f).tagWrites = s.tagWrites := rfl
@[simp] theorem State.updCurCore_atomics (s : State) (f : CoreSt → CoreSt) : (s.updCurCore f).atomics = s.atomics := rfl
@[simp] theorem State.updCurCore_verReqs (s : State) (f : CoreSt → CoreSt) : (s.updCurCore f).verReqs = s.verReqs := rfl
@[simp] theorem State.updCurCore_saved (s : State) (f : CoreSt → CoreSt) : (s.updCurCore f).saved = s.saved := rfl
@[simp] theorem State.updCurCore_engines (s : State) (f : CoreSt → CoreSt) : (s.updCurCore f).engines = s.engines := rfl
@[simp] theorem State.updCurCore_walksWaiting (s : State) (f : CoreSt → CoreSt) : (s.updCurCore f).walksWaiting = s.walksWaiting := rfl
@[simp] theorem State.updCurCore_walks (s : State) (f : CoreSt → CoreSt) : (s.updCurCore f).walks = s.walks := rfl
@[simp] theorem State.updCurCore_sent (s : State) (f : CoreSt → CoreSt) : (s.updCurCore f).sent = s.sent := rfl
@[simp] theorem State.updCurCore_kept (s : State) (f : CoreSt → CoreSt) : (s.updCurCore f).kept = s.kept := rfl
@[simp] theorem State.updCurCore_dropped (s : State) (f : CoreSt → CoreSt) : (s.updCurCore f).dropped = s.dropped := rfl
@[simp] theorem State.updCurCore_owner (s : State) (f : CoreSt → CoreSt) : (s.updCurCore f).owner = s.owner := rfl
@[simp] theorem State.updCurCore_devId (s : State) (f : CoreSt → CoreSt) : (s.updCurCore f).devId = s.devId := rfl
@[simp] theorem State.updCurCore_vlend (s : State) (f : CoreSt → CoreSt) : (s.updCurCore f).vlend = s.vlend := rfl
@[simp] theorem State.updCurCore_vrtbase (s : State) (f : CoreSt → CoreSt) : (s.updCurCore f).vrtbase = s.vrtbase := rfl
@[simp] theorem State.updCurCore_captures (s : State) (f : CoreSt → CoreSt) : (s.updCurCore f).captures = s.captures := rfl
@[simp] theorem State.updCurCore_routes (s : State) (f : CoreSt → CoreSt) : (s.updCurCore f).routes = s.routes := rfl
@[simp] theorem State.updCurCore_shelves (s : State) (f : CoreSt → CoreSt) : (s.updCurCore f).shelves = s.shelves := rfl
@[simp] theorem State.updCurCore_alarmCfg (s : State) (f : CoreSt → CoreSt) : (s.updCurCore f).alarmCfg = s.alarmCfg := rfl
@[simp] theorem State.updCurCore_alarm (s : State) (f : CoreSt → CoreSt) : (s.updCurCore f).alarm = s.alarm := rfl
@[simp] theorem State.updCurCore_keysGone (s : State) (f : CoreSt → CoreSt) : (s.updCurCore f).keysGone = s.keysGone := rfl
@[simp] theorem State.updCurCore_services (s : State) (f : CoreSt → CoreSt) : (s.updCurCore f).services = s.services := rfl
@[simp] theorem State.updCurCore_queuedServices (s : State) (f : CoreSt → CoreSt) : (s.updCurCore f).queuedServices = s.queuedServices := rfl
@[simp] theorem State.updCurCore_powerHigh (s : State) (f : CoreSt → CoreSt) : (s.updCurCore f).powerHigh = s.powerHigh := rfl
@[simp] theorem State.updCurCore_health (s : State) (f : CoreSt → CoreSt) : (s.updCurCore f).health = s.health := rfl
@[simp] theorem State.updCurCore_replies (s : State) (f : CoreSt → CoreSt) : (s.updCurCore f).replies = s.replies := rfl
@[simp] theorem State.updCurCore_fwImage (s : State) (f : CoreSt → CoreSt) : (s.updCurCore f).fwImage = s.fwImage := rfl
@[simp] theorem State.updCurCore_agenda (s : State) (f : CoreSt → CoreSt) : (s.updCurCore f).agenda = s.agenda := rfl
@[simp] theorem State.updCurCore_served (s : State) (f : CoreSt → CoreSt) : (s.updCurCore f).served = s.served := rfl
@[simp] theorem State.updCurCore_slot (s : State) (f : CoreSt → CoreSt) : (s.updCurCore f).slot = s.slot := rfl
@[simp] theorem State.updCurCore_fresh (s : State) (f : CoreSt → CoreSt) : (s.updCurCore f).fresh = s.fresh := rfl

/-! ### updCluster -/

@[simp] theorem State.updCluster_cycle (s : State) (c : Nat) (f : Cluster → Cluster) : (s.updCluster c f).cycle = s.cycle := rfl
@[simp] theorem State.updCluster_ctxs (s : State) (c : Nat) (f : Cluster → Cluster) : (s.updCluster c f).ctxs = s.ctxs := rfl
@[simp] theorem State.updCluster_cores (s : State) (c : Nat) (f : Cluster → Cluster) : (s.updCluster c f).cores = s.cores := rfl
@[simp] theorem State.updCluster_parts (s : State) (c : Nat) (f : Cluster → Cluster) : (s.updCluster c f).parts = s.parts := rfl
@[simp] theorem State.updCluster_kernels (s : State) (c : Nat) (f : Cluster → Cluster) : (s.updCluster c f).kernels = s.kernels := rfl
@[simp] theorem State.updCluster_serial (s : State) (c : Nat) (f : Cluster → Cluster) : (s.updCluster c f).serial = s.serial := rfl
@[simp] theorem State.updCluster_dram (s : State) (c : Nat) (f : Cluster → Cluster) : (s.updCluster c f).dram = s.dram := rfl
@[simp] theorem State.updCluster_badDram (s : State) (c : Nat) (f : Cluster → Cluster) : (s.updCluster c f).badDram = s.badDram := rfl
@[simp] theorem State.updCluster_poisoned (s : State) (c : Nat) (f : Cluster → Cluster) : (s.updCluster c f).poisoned = s.poisoned := rfl
@[simp] theorem State.updCluster_remote (s : State) (c : Nat) (f : Cluster → Cluster) : (s.updCluster c f).remote = s.remote := rfl
@[simp] theorem State.updCluster_devCommits (s : State) (c : Nat) (f : Cluster → Cluster) : (s.updCluster c f).devCommits = s.devCommits := rfl
@[simp] theorem State.updCluster_sysCommits (s : State) (c : Nat) (f : Cluster → Cluster) : (s.updCluster c f).sysCommits = s.sysCommits := rfl
@[simp] theorem State.updCluster_commits (s : State) (c : Nat) (f : Cluster → Cluster) : (s.updCluster c f).commits = s.commits := rfl
@[simp] theorem State.updCluster_tags (s : State) (c : Nat) (f : Cluster → Cluster) : (s.updCluster c f).tags = s.tags := rfl
@[simp] theorem State.updCluster_tagWrites (s : State) (c : Nat) (f : Cluster → Cluster) : (s.updCluster c f).tagWrites = s.tagWrites := rfl
@[simp] theorem State.updCluster_atomics (s : State) (c : Nat) (f : Cluster → Cluster) : (s.updCluster c f).atomics = s.atomics := rfl
@[simp] theorem State.updCluster_verReqs (s : State) (c : Nat) (f : Cluster → Cluster) : (s.updCluster c f).verReqs = s.verReqs := rfl
@[simp] theorem State.updCluster_saved (s : State) (c : Nat) (f : Cluster → Cluster) : (s.updCluster c f).saved = s.saved := rfl
@[simp] theorem State.updCluster_engines (s : State) (c : Nat) (f : Cluster → Cluster) : (s.updCluster c f).engines = s.engines := rfl
@[simp] theorem State.updCluster_walksWaiting (s : State) (c : Nat) (f : Cluster → Cluster) : (s.updCluster c f).walksWaiting = s.walksWaiting := rfl
@[simp] theorem State.updCluster_walks (s : State) (c : Nat) (f : Cluster → Cluster) : (s.updCluster c f).walks = s.walks := rfl
@[simp] theorem State.updCluster_sent (s : State) (c : Nat) (f : Cluster → Cluster) : (s.updCluster c f).sent = s.sent := rfl
@[simp] theorem State.updCluster_kept (s : State) (c : Nat) (f : Cluster → Cluster) : (s.updCluster c f).kept = s.kept := rfl
@[simp] theorem State.updCluster_dropped (s : State) (c : Nat) (f : Cluster → Cluster) : (s.updCluster c f).dropped = s.dropped := rfl
@[simp] theorem State.updCluster_owner (s : State) (c : Nat) (f : Cluster → Cluster) : (s.updCluster c f).owner = s.owner := rfl
@[simp] theorem State.updCluster_devId (s : State) (c : Nat) (f : Cluster → Cluster) : (s.updCluster c f).devId = s.devId := rfl
@[simp] theorem State.updCluster_vlend (s : State) (c : Nat) (f : Cluster → Cluster) : (s.updCluster c f).vlend = s.vlend := rfl
@[simp] theorem State.updCluster_vrtbase (s : State) (c : Nat) (f : Cluster → Cluster) : (s.updCluster c f).vrtbase = s.vrtbase := rfl
@[simp] theorem State.updCluster_captures (s : State) (c : Nat) (f : Cluster → Cluster) : (s.updCluster c f).captures = s.captures := rfl
@[simp] theorem State.updCluster_routes (s : State) (c : Nat) (f : Cluster → Cluster) : (s.updCluster c f).routes = s.routes := rfl
@[simp] theorem State.updCluster_shelves (s : State) (c : Nat) (f : Cluster → Cluster) : (s.updCluster c f).shelves = s.shelves := rfl
@[simp] theorem State.updCluster_alarmCfg (s : State) (c : Nat) (f : Cluster → Cluster) : (s.updCluster c f).alarmCfg = s.alarmCfg := rfl
@[simp] theorem State.updCluster_alarm (s : State) (c : Nat) (f : Cluster → Cluster) : (s.updCluster c f).alarm = s.alarm := rfl
@[simp] theorem State.updCluster_keysGone (s : State) (c : Nat) (f : Cluster → Cluster) : (s.updCluster c f).keysGone = s.keysGone := rfl
@[simp] theorem State.updCluster_services (s : State) (c : Nat) (f : Cluster → Cluster) : (s.updCluster c f).services = s.services := rfl
@[simp] theorem State.updCluster_queuedServices (s : State) (c : Nat) (f : Cluster → Cluster) : (s.updCluster c f).queuedServices = s.queuedServices := rfl
@[simp] theorem State.updCluster_powerHigh (s : State) (c : Nat) (f : Cluster → Cluster) : (s.updCluster c f).powerHigh = s.powerHigh := rfl
@[simp] theorem State.updCluster_health (s : State) (c : Nat) (f : Cluster → Cluster) : (s.updCluster c f).health = s.health := rfl
@[simp] theorem State.updCluster_replies (s : State) (c : Nat) (f : Cluster → Cluster) : (s.updCluster c f).replies = s.replies := rfl
@[simp] theorem State.updCluster_fwImage (s : State) (c : Nat) (f : Cluster → Cluster) : (s.updCluster c f).fwImage = s.fwImage := rfl
@[simp] theorem State.updCluster_agenda (s : State) (c : Nat) (f : Cluster → Cluster) : (s.updCluster c f).agenda = s.agenda := rfl
@[simp] theorem State.updCluster_served (s : State) (c : Nat) (f : Cluster → Cluster) : (s.updCluster c f).served = s.served := rfl
@[simp] theorem State.updCluster_slot (s : State) (c : Nat) (f : Cluster → Cluster) : (s.updCluster c f).slot = s.slot := rfl
@[simp] theorem State.updCluster_fresh (s : State) (c : Nat) (f : Cluster → Cluster) : (s.updCluster c f).fresh = s.fresh := rfl

/-! ### updPart -/

@[simp] theorem State.updPart_cycle (s : State) (c : Nat) (f : Part → Part) : (s.updPart c f).cycle = s.cycle := rfl
@[simp] theorem State.updPart_ctxs (s : State) (c : Nat) (f : Part → Part) : (s.updPart c f).ctxs = s.ctxs := rfl
@[simp] theorem State.updPart_cores (s : State) (c : Nat) (f : Part → Part) : (s.updPart c f).cores = s.cores := rfl
@[simp] theorem State.updPart_clusters (s : State) (c : Nat) (f : Part → Part) : (s.updPart c f).clusters = s.clusters := rfl
@[simp] theorem State.updPart_kernels (s : State) (c : Nat) (f : Part → Part) : (s.updPart c f).kernels = s.kernels := rfl
@[simp] theorem State.updPart_serial (s : State) (c : Nat) (f : Part → Part) : (s.updPart c f).serial = s.serial := rfl
@[simp] theorem State.updPart_dram (s : State) (c : Nat) (f : Part → Part) : (s.updPart c f).dram = s.dram := rfl
@[simp] theorem State.updPart_badDram (s : State) (c : Nat) (f : Part → Part) : (s.updPart c f).badDram = s.badDram := rfl
@[simp] theorem State.updPart_poisoned (s : State) (c : Nat) (f : Part → Part) : (s.updPart c f).poisoned = s.poisoned := rfl
@[simp] theorem State.updPart_remote (s : State) (c : Nat) (f : Part → Part) : (s.updPart c f).remote = s.remote := rfl
@[simp] theorem State.updPart_devCommits (s : State) (c : Nat) (f : Part → Part) : (s.updPart c f).devCommits = s.devCommits := rfl
@[simp] theorem State.updPart_sysCommits (s : State) (c : Nat) (f : Part → Part) : (s.updPart c f).sysCommits = s.sysCommits := rfl
@[simp] theorem State.updPart_commits (s : State) (c : Nat) (f : Part → Part) : (s.updPart c f).commits = s.commits := rfl
@[simp] theorem State.updPart_tags (s : State) (c : Nat) (f : Part → Part) : (s.updPart c f).tags = s.tags := rfl
@[simp] theorem State.updPart_tagWrites (s : State) (c : Nat) (f : Part → Part) : (s.updPart c f).tagWrites = s.tagWrites := rfl
@[simp] theorem State.updPart_atomics (s : State) (c : Nat) (f : Part → Part) : (s.updPart c f).atomics = s.atomics := rfl
@[simp] theorem State.updPart_verReqs (s : State) (c : Nat) (f : Part → Part) : (s.updPart c f).verReqs = s.verReqs := rfl
@[simp] theorem State.updPart_saved (s : State) (c : Nat) (f : Part → Part) : (s.updPart c f).saved = s.saved := rfl
@[simp] theorem State.updPart_engines (s : State) (c : Nat) (f : Part → Part) : (s.updPart c f).engines = s.engines := rfl
@[simp] theorem State.updPart_walksWaiting (s : State) (c : Nat) (f : Part → Part) : (s.updPart c f).walksWaiting = s.walksWaiting := rfl
@[simp] theorem State.updPart_walks (s : State) (c : Nat) (f : Part → Part) : (s.updPart c f).walks = s.walks := rfl
@[simp] theorem State.updPart_sent (s : State) (c : Nat) (f : Part → Part) : (s.updPart c f).sent = s.sent := rfl
@[simp] theorem State.updPart_kept (s : State) (c : Nat) (f : Part → Part) : (s.updPart c f).kept = s.kept := rfl
@[simp] theorem State.updPart_dropped (s : State) (c : Nat) (f : Part → Part) : (s.updPart c f).dropped = s.dropped := rfl
@[simp] theorem State.updPart_owner (s : State) (c : Nat) (f : Part → Part) : (s.updPart c f).owner = s.owner := rfl
@[simp] theorem State.updPart_devId (s : State) (c : Nat) (f : Part → Part) : (s.updPart c f).devId = s.devId := rfl
@[simp] theorem State.updPart_vlend (s : State) (c : Nat) (f : Part → Part) : (s.updPart c f).vlend = s.vlend := rfl
@[simp] theorem State.updPart_vrtbase (s : State) (c : Nat) (f : Part → Part) : (s.updPart c f).vrtbase = s.vrtbase := rfl
@[simp] theorem State.updPart_captures (s : State) (c : Nat) (f : Part → Part) : (s.updPart c f).captures = s.captures := rfl
@[simp] theorem State.updPart_routes (s : State) (c : Nat) (f : Part → Part) : (s.updPart c f).routes = s.routes := rfl
@[simp] theorem State.updPart_shelves (s : State) (c : Nat) (f : Part → Part) : (s.updPart c f).shelves = s.shelves := rfl
@[simp] theorem State.updPart_alarmCfg (s : State) (c : Nat) (f : Part → Part) : (s.updPart c f).alarmCfg = s.alarmCfg := rfl
@[simp] theorem State.updPart_alarm (s : State) (c : Nat) (f : Part → Part) : (s.updPart c f).alarm = s.alarm := rfl
@[simp] theorem State.updPart_keysGone (s : State) (c : Nat) (f : Part → Part) : (s.updPart c f).keysGone = s.keysGone := rfl
@[simp] theorem State.updPart_services (s : State) (c : Nat) (f : Part → Part) : (s.updPart c f).services = s.services := rfl
@[simp] theorem State.updPart_queuedServices (s : State) (c : Nat) (f : Part → Part) : (s.updPart c f).queuedServices = s.queuedServices := rfl
@[simp] theorem State.updPart_powerHigh (s : State) (c : Nat) (f : Part → Part) : (s.updPart c f).powerHigh = s.powerHigh := rfl
@[simp] theorem State.updPart_health (s : State) (c : Nat) (f : Part → Part) : (s.updPart c f).health = s.health := rfl
@[simp] theorem State.updPart_replies (s : State) (c : Nat) (f : Part → Part) : (s.updPart c f).replies = s.replies := rfl
@[simp] theorem State.updPart_fwImage (s : State) (c : Nat) (f : Part → Part) : (s.updPart c f).fwImage = s.fwImage := rfl
@[simp] theorem State.updPart_agenda (s : State) (c : Nat) (f : Part → Part) : (s.updPart c f).agenda = s.agenda := rfl
@[simp] theorem State.updPart_served (s : State) (c : Nat) (f : Part → Part) : (s.updPart c f).served = s.served := rfl
@[simp] theorem State.updPart_slot (s : State) (c : Nat) (f : Part → Part) : (s.updPart c f).slot = s.slot := rfl
@[simp] theorem State.updPart_fresh (s : State) (c : Nat) (f : Part → Part) : (s.updPart c f).fresh = s.fresh := rfl

/-! ### updQueue -/

@[simp] theorem State.updQueue_cycle (s : State) (p q : Nat) (f : Queue → Queue) : (s.updQueue p q f).cycle = s.cycle := rfl
@[simp] theorem State.updQueue_ctxs (s : State) (p q : Nat) (f : Queue → Queue) : (s.updQueue p q f).ctxs = s.ctxs := rfl
@[simp] theorem State.updQueue_cores (s : State) (p q : Nat) (f : Queue → Queue) : (s.updQueue p q f).cores = s.cores := rfl
@[simp] theorem State.updQueue_clusters (s : State) (p q : Nat) (f : Queue → Queue) : (s.updQueue p q f).clusters = s.clusters := rfl
@[simp] theorem State.updQueue_kernels (s : State) (p q : Nat) (f : Queue → Queue) : (s.updQueue p q f).kernels = s.kernels := rfl
@[simp] theorem State.updQueue_serial (s : State) (p q : Nat) (f : Queue → Queue) : (s.updQueue p q f).serial = s.serial := rfl
@[simp] theorem State.updQueue_dram (s : State) (p q : Nat) (f : Queue → Queue) : (s.updQueue p q f).dram = s.dram := rfl
@[simp] theorem State.updQueue_badDram (s : State) (p q : Nat) (f : Queue → Queue) : (s.updQueue p q f).badDram = s.badDram := rfl
@[simp] theorem State.updQueue_poisoned (s : State) (p q : Nat) (f : Queue → Queue) : (s.updQueue p q f).poisoned = s.poisoned := rfl
@[simp] theorem State.updQueue_remote (s : State) (p q : Nat) (f : Queue → Queue) : (s.updQueue p q f).remote = s.remote := rfl
@[simp] theorem State.updQueue_devCommits (s : State) (p q : Nat) (f : Queue → Queue) : (s.updQueue p q f).devCommits = s.devCommits := rfl
@[simp] theorem State.updQueue_sysCommits (s : State) (p q : Nat) (f : Queue → Queue) : (s.updQueue p q f).sysCommits = s.sysCommits := rfl
@[simp] theorem State.updQueue_commits (s : State) (p q : Nat) (f : Queue → Queue) : (s.updQueue p q f).commits = s.commits := rfl
@[simp] theorem State.updQueue_tags (s : State) (p q : Nat) (f : Queue → Queue) : (s.updQueue p q f).tags = s.tags := rfl
@[simp] theorem State.updQueue_tagWrites (s : State) (p q : Nat) (f : Queue → Queue) : (s.updQueue p q f).tagWrites = s.tagWrites := rfl
@[simp] theorem State.updQueue_atomics (s : State) (p q : Nat) (f : Queue → Queue) : (s.updQueue p q f).atomics = s.atomics := rfl
@[simp] theorem State.updQueue_verReqs (s : State) (p q : Nat) (f : Queue → Queue) : (s.updQueue p q f).verReqs = s.verReqs := rfl
@[simp] theorem State.updQueue_saved (s : State) (p q : Nat) (f : Queue → Queue) : (s.updQueue p q f).saved = s.saved := rfl
@[simp] theorem State.updQueue_engines (s : State) (p q : Nat) (f : Queue → Queue) : (s.updQueue p q f).engines = s.engines := rfl
@[simp] theorem State.updQueue_walksWaiting (s : State) (p q : Nat) (f : Queue → Queue) : (s.updQueue p q f).walksWaiting = s.walksWaiting := rfl
@[simp] theorem State.updQueue_walks (s : State) (p q : Nat) (f : Queue → Queue) : (s.updQueue p q f).walks = s.walks := rfl
@[simp] theorem State.updQueue_sent (s : State) (p q : Nat) (f : Queue → Queue) : (s.updQueue p q f).sent = s.sent := rfl
@[simp] theorem State.updQueue_kept (s : State) (p q : Nat) (f : Queue → Queue) : (s.updQueue p q f).kept = s.kept := rfl
@[simp] theorem State.updQueue_dropped (s : State) (p q : Nat) (f : Queue → Queue) : (s.updQueue p q f).dropped = s.dropped := rfl
@[simp] theorem State.updQueue_owner (s : State) (p q : Nat) (f : Queue → Queue) : (s.updQueue p q f).owner = s.owner := rfl
@[simp] theorem State.updQueue_devId (s : State) (p q : Nat) (f : Queue → Queue) : (s.updQueue p q f).devId = s.devId := rfl
@[simp] theorem State.updQueue_vlend (s : State) (p q : Nat) (f : Queue → Queue) : (s.updQueue p q f).vlend = s.vlend := rfl
@[simp] theorem State.updQueue_vrtbase (s : State) (p q : Nat) (f : Queue → Queue) : (s.updQueue p q f).vrtbase = s.vrtbase := rfl
@[simp] theorem State.updQueue_captures (s : State) (p q : Nat) (f : Queue → Queue) : (s.updQueue p q f).captures = s.captures := rfl
@[simp] theorem State.updQueue_routes (s : State) (p q : Nat) (f : Queue → Queue) : (s.updQueue p q f).routes = s.routes := rfl
@[simp] theorem State.updQueue_shelves (s : State) (p q : Nat) (f : Queue → Queue) : (s.updQueue p q f).shelves = s.shelves := rfl
@[simp] theorem State.updQueue_alarmCfg (s : State) (p q : Nat) (f : Queue → Queue) : (s.updQueue p q f).alarmCfg = s.alarmCfg := rfl
@[simp] theorem State.updQueue_alarm (s : State) (p q : Nat) (f : Queue → Queue) : (s.updQueue p q f).alarm = s.alarm := rfl
@[simp] theorem State.updQueue_keysGone (s : State) (p q : Nat) (f : Queue → Queue) : (s.updQueue p q f).keysGone = s.keysGone := rfl
@[simp] theorem State.updQueue_services (s : State) (p q : Nat) (f : Queue → Queue) : (s.updQueue p q f).services = s.services := rfl
@[simp] theorem State.updQueue_queuedServices (s : State) (p q : Nat) (f : Queue → Queue) : (s.updQueue p q f).queuedServices = s.queuedServices := rfl
@[simp] theorem State.updQueue_powerHigh (s : State) (p q : Nat) (f : Queue → Queue) : (s.updQueue p q f).powerHigh = s.powerHigh := rfl
@[simp] theorem State.updQueue_health (s : State) (p q : Nat) (f : Queue → Queue) : (s.updQueue p q f).health = s.health := rfl
@[simp] theorem State.updQueue_replies (s : State) (p q : Nat) (f : Queue → Queue) : (s.updQueue p q f).replies = s.replies := rfl
@[simp] theorem State.updQueue_fwImage (s : State) (p q : Nat) (f : Queue → Queue) : (s.updQueue p q f).fwImage = s.fwImage := rfl
@[simp] theorem State.updQueue_agenda (s : State) (p q : Nat) (f : Queue → Queue) : (s.updQueue p q f).agenda = s.agenda := rfl
@[simp] theorem State.updQueue_served (s : State) (p q : Nat) (f : Queue → Queue) : (s.updQueue p q f).served = s.served := rfl
@[simp] theorem State.updQueue_slot (s : State) (p q : Nat) (f : Queue → Queue) : (s.updQueue p q f).slot = s.slot := rfl
@[simp] theorem State.updQueue_fresh (s : State) (p q : Nat) (f : Queue → Queue) : (s.updQueue p q f).fresh = s.fresh := rfl

/-! ### raise -/

@[simp] theorem State.raise_cycle (s : State) (a : Cause) (n m k : Nat) : (s.raise a n m k).cycle = s.cycle := rfl
@[simp] theorem State.raise_ctxs (s : State) (a : Cause) (n m k : Nat) : (s.raise a n m k).ctxs = s.ctxs := rfl
@[simp] theorem State.raise_cores (s : State) (a : Cause) (n m k : Nat) : (s.raise a n m k).cores = s.cores := rfl
@[simp] theorem State.raise_clusters (s : State) (a : Cause) (n m k : Nat) : (s.raise a n m k).clusters = s.clusters := rfl
@[simp] theorem State.raise_parts (s : State) (a : Cause) (n m k : Nat) : (s.raise a n m k).parts = s.parts := rfl
@[simp] theorem State.raise_kernels (s : State) (a : Cause) (n m k : Nat) : (s.raise a n m k).kernels = s.kernels := rfl
@[simp] theorem State.raise_serial (s : State) (a : Cause) (n m k : Nat) : (s.raise a n m k).serial = s.serial := rfl
@[simp] theorem State.raise_dram (s : State) (a : Cause) (n m k : Nat) : (s.raise a n m k).dram = s.dram := rfl
@[simp] theorem State.raise_badDram (s : State) (a : Cause) (n m k : Nat) : (s.raise a n m k).badDram = s.badDram := rfl
@[simp] theorem State.raise_poisoned (s : State) (a : Cause) (n m k : Nat) : (s.raise a n m k).poisoned = s.poisoned := rfl
@[simp] theorem State.raise_remote (s : State) (a : Cause) (n m k : Nat) : (s.raise a n m k).remote = s.remote := rfl
@[simp] theorem State.raise_devCommits (s : State) (a : Cause) (n m k : Nat) : (s.raise a n m k).devCommits = s.devCommits := rfl
@[simp] theorem State.raise_sysCommits (s : State) (a : Cause) (n m k : Nat) : (s.raise a n m k).sysCommits = s.sysCommits := rfl
@[simp] theorem State.raise_commits (s : State) (a : Cause) (n m k : Nat) : (s.raise a n m k).commits = s.commits := rfl
@[simp] theorem State.raise_tags (s : State) (a : Cause) (n m k : Nat) : (s.raise a n m k).tags = s.tags := rfl
@[simp] theorem State.raise_tagWrites (s : State) (a : Cause) (n m k : Nat) : (s.raise a n m k).tagWrites = s.tagWrites := rfl
@[simp] theorem State.raise_atomics (s : State) (a : Cause) (n m k : Nat) : (s.raise a n m k).atomics = s.atomics := rfl
@[simp] theorem State.raise_verReqs (s : State) (a : Cause) (n m k : Nat) : (s.raise a n m k).verReqs = s.verReqs := rfl
@[simp] theorem State.raise_saved (s : State) (a : Cause) (n m k : Nat) : (s.raise a n m k).saved = s.saved := rfl
@[simp] theorem State.raise_engines (s : State) (a : Cause) (n m k : Nat) : (s.raise a n m k).engines = s.engines := rfl
@[simp] theorem State.raise_walksWaiting (s : State) (a : Cause) (n m k : Nat) : (s.raise a n m k).walksWaiting = s.walksWaiting := rfl
@[simp] theorem State.raise_walks (s : State) (a : Cause) (n m k : Nat) : (s.raise a n m k).walks = s.walks := rfl
@[simp] theorem State.raise_sent (s : State) (a : Cause) (n m k : Nat) : (s.raise a n m k).sent = s.sent := rfl
@[simp] theorem State.raise_kept (s : State) (a : Cause) (n m k : Nat) : (s.raise a n m k).kept = s.kept := rfl
@[simp] theorem State.raise_dropped (s : State) (a : Cause) (n m k : Nat) : (s.raise a n m k).dropped = s.dropped := rfl
@[simp] theorem State.raise_owner (s : State) (a : Cause) (n m k : Nat) : (s.raise a n m k).owner = s.owner := rfl
@[simp] theorem State.raise_devId (s : State) (a : Cause) (n m k : Nat) : (s.raise a n m k).devId = s.devId := rfl
@[simp] theorem State.raise_vlend (s : State) (a : Cause) (n m k : Nat) : (s.raise a n m k).vlend = s.vlend := rfl
@[simp] theorem State.raise_vrtbase (s : State) (a : Cause) (n m k : Nat) : (s.raise a n m k).vrtbase = s.vrtbase := rfl
@[simp] theorem State.raise_captures (s : State) (a : Cause) (n m k : Nat) : (s.raise a n m k).captures = s.captures := rfl
@[simp] theorem State.raise_routes (s : State) (a : Cause) (n m k : Nat) : (s.raise a n m k).routes = s.routes := rfl
@[simp] theorem State.raise_shelves (s : State) (a : Cause) (n m k : Nat) : (s.raise a n m k).shelves = s.shelves := rfl
@[simp] theorem State.raise_alarmCfg (s : State) (a : Cause) (n m k : Nat) : (s.raise a n m k).alarmCfg = s.alarmCfg := rfl
@[simp] theorem State.raise_alarm (s : State) (a : Cause) (n m k : Nat) : (s.raise a n m k).alarm = s.alarm := rfl
@[simp] theorem State.raise_keysGone (s : State) (a : Cause) (n m k : Nat) : (s.raise a n m k).keysGone = s.keysGone := rfl
@[simp] theorem State.raise_services (s : State) (a : Cause) (n m k : Nat) : (s.raise a n m k).services = s.services := rfl
@[simp] theorem State.raise_queuedServices (s : State) (a : Cause) (n m k : Nat) : (s.raise a n m k).queuedServices = s.queuedServices := rfl
@[simp] theorem State.raise_powerHigh (s : State) (a : Cause) (n m k : Nat) : (s.raise a n m k).powerHigh = s.powerHigh := rfl
@[simp] theorem State.raise_health (s : State) (a : Cause) (n m k : Nat) : (s.raise a n m k).health = s.health := rfl
@[simp] theorem State.raise_replies (s : State) (a : Cause) (n m k : Nat) : (s.raise a n m k).replies = s.replies := rfl
@[simp] theorem State.raise_fwImage (s : State) (a : Cause) (n m k : Nat) : (s.raise a n m k).fwImage = s.fwImage := rfl
@[simp] theorem State.raise_agenda (s : State) (a : Cause) (n m k : Nat) : (s.raise a n m k).agenda = s.agenda := rfl
@[simp] theorem State.raise_served (s : State) (a : Cause) (n m k : Nat) : (s.raise a n m k).served = s.served := rfl
@[simp] theorem State.raise_fresh (s : State) (a : Cause) (n m k : Nat) : (s.raise a n m k).fresh = s.fresh := rfl

/-! ### Reading what was written -/

theorem State.ctx_setCtx {s : State} (h : Tab.wf {} s.ctxs = true) (k : Nat) (x : Ctx) (j : Nat) :
    (s.setCtx k x).ctx j = if j = k then x else s.ctx j := Tab.get_set h k x j

@[simp] theorem State.ctx_setCtx_of_ne (s : State) {k j : Nat} (x : Ctx) (h : j ≠ k) :
    (s.setCtx k x).ctx j = s.ctx j := Tab.get_set_of_ne s.ctxs x h

theorem State.ctx_updCtx {s : State} (h : Tab.wf {} s.ctxs = true) (k : Nat) (f : Ctx → Ctx) (j : Nat) :
    (s.updCtx k f).ctx j = if j = k then f (s.ctx k) else s.ctx j := Tab.get_set h k _ j

@[simp] theorem State.ctx_updCtx_of_ne (s : State) {k j : Nat} (f : Ctx → Ctx) (h : j ≠ k) :
    (s.updCtx k f).ctx j = s.ctx j := Tab.get_set_of_ne s.ctxs _ h

theorem State.core_setCore {s : State} (h : Tab.wf {} s.cores = true) (k : Nat) (x : CoreSt) (j : Nat) :
    (s.setCore k x).core j = if j = k then x else s.core j := Tab.get_set h k x j

@[simp] theorem State.core_setCore_of_ne (s : State) {k j : Nat} (x : CoreSt) (h : j ≠ k) :
    (s.setCore k x).core j = s.core j := Tab.get_set_of_ne s.cores x h

theorem State.core_updCore {s : State} (h : Tab.wf {} s.cores = true) (k : Nat) (f : CoreSt → CoreSt) (j : Nat) :
    (s.updCore k f).core j = if j = k then f (s.core k) else s.core j := Tab.get_set h k _ j

@[simp] theorem State.core_updCore_of_ne (s : State) {k j : Nat} (f : CoreSt → CoreSt) (h : j ≠ k) :
    (s.updCore k f).core j = s.core j := Tab.get_set_of_ne s.cores _ h

theorem State.cluster_setCluster {s : State} (h : Tab.wf {} s.clusters = true) (k : Nat) (x : Cluster) (j : Nat) :
    (s.setCluster k x).cluster j = if j = k then x else s.cluster j := Tab.get_set h k x j

@[simp] theorem State.cluster_setCluster_of_ne (s : State) {k j : Nat} (x : Cluster) (h : j ≠ k) :
    (s.setCluster k x).cluster j = s.cluster j := Tab.get_set_of_ne s.clusters x h

theorem State.cluster_updCluster {s : State} (h : Tab.wf {} s.clusters = true) (k : Nat) (f : Cluster → Cluster) (j : Nat) :
    (s.updCluster k f).cluster j = if j = k then f (s.cluster k) else s.cluster j := Tab.get_set h k _ j

@[simp] theorem State.cluster_updCluster_of_ne (s : State) {k j : Nat} (f : Cluster → Cluster) (h : j ≠ k) :
    (s.updCluster k f).cluster j = s.cluster j := Tab.get_set_of_ne s.clusters _ h

theorem State.part_setPart {s : State} (h : Tab.wf {} s.parts = true) (k : Nat) (x : Part) (j : Nat) :
    (s.setPart k x).part j = if j = k then x else s.part j := Tab.get_set h k x j

@[simp] theorem State.part_setPart_of_ne (s : State) {k j : Nat} (x : Part) (h : j ≠ k) :
    (s.setPart k x).part j = s.part j := Tab.get_set_of_ne s.parts x h

theorem State.part_updPart {s : State} (h : Tab.wf {} s.parts = true) (k : Nat) (f : Part → Part) (j : Nat) :
    (s.updPart k f).part j = if j = k then f (s.part k) else s.part j := Tab.get_set h k _ j

@[simp] theorem State.part_updPart_of_ne (s : State) {k j : Nat} (f : Part → Part) (h : j ≠ k) :
    (s.updPart k f).part j = s.part j := Tab.get_set_of_ne s.parts _ h

@[simp] theorem State.setCtx_core (s : State) (c : Nat) (x : Ctx) (j : Nat) : (s.setCtx c x).core j = s.core j := rfl
@[simp] theorem State.setCtx_cluster (s : State) (c : Nat) (x : Ctx) (j : Nat) : (s.setCtx c x).cluster j = s.cluster j := rfl
@[simp] theorem State.setCtx_part (s : State) (c : Nat) (x : Ctx) (j : Nat) : (s.setCtx c x).part j = s.part j := rfl
@[simp] theorem State.setCore_ctx (s : State) (c : Nat) (x : CoreSt) (j : Nat) : (s.setCore c x).ctx j = s.ctx j := rfl
@[simp] theorem State.setCore_cluster (s : State) (c : Nat) (x : CoreSt) (j : Nat) : (s.setCore c x).cluster j = s.cluster j := rfl
@[simp] theorem State.setCore_part (s : State) (c : Nat) (x : CoreSt) (j : Nat) : (s.setCore c x).part j = s.part j := rfl
@[simp] theorem State.setCluster_ctx (s : State) (c : Nat) (x : Cluster) (j : Nat) : (s.setCluster c x).ctx j = s.ctx j := rfl
@[simp] theorem State.setCluster_core (s : State) (c : Nat) (x : Cluster) (j : Nat) : (s.setCluster c x).core j = s.core j := rfl
@[simp] theorem State.setCluster_part (s : State) (c : Nat) (x : Cluster) (j : Nat) : (s.setCluster c x).part j = s.part j := rfl
@[simp] theorem State.setPart_ctx (s : State) (c : Nat) (x : Part) (j : Nat) : (s.setPart c x).ctx j = s.ctx j := rfl
@[simp] theorem State.setPart_core (s : State) (c : Nat) (x : Part) (j : Nat) : (s.setPart c x).core j = s.core j := rfl
@[simp] theorem State.setPart_cluster (s : State) (c : Nat) (x : Part) (j : Nat) : (s.setPart c x).cluster j = s.cluster j := rfl
@[simp] theorem State.updCtx_core (s : State) (c : Nat) (f : Ctx → Ctx) (j : Nat) : (s.updCtx c f).core j = s.core j := rfl
@[simp] theorem State.updCtx_cluster (s : State) (c : Nat) (f : Ctx → Ctx) (j : Nat) : (s.updCtx c f).cluster j = s.cluster j := rfl
@[simp] theorem State.updCtx_part (s : State) (c : Nat) (f : Ctx → Ctx) (j : Nat) : (s.updCtx c f).part j = s.part j := rfl
@[simp] theorem State.updCur_core (s : State) (f : Ctx → Ctx) (j : Nat) : (s.updCur f).core j = s.core j := rfl
@[simp] theorem State.updCur_cluster (s : State) (f : Ctx → Ctx) (j : Nat) : (s.updCur f).cluster j = s.cluster j := rfl
@[simp] theorem State.updCur_part (s : State) (f : Ctx → Ctx) (j : Nat) : (s.updCur f).part j = s.part j := rfl
@[simp] theorem State.updCore_ctx (s : State) (c : Nat) (f : CoreSt → CoreSt) (j : Nat) : (s.updCore c f).ctx j = s.ctx j := rfl
@[simp] theorem State.updCore_cluster (s : State) (c : Nat) (f : CoreSt → CoreSt) (j : Nat) : (s.updCore c f).cluster j = s.cluster j := rfl
@[simp] theorem State.updCore_part (s : State) (c : Nat) (f : CoreSt → CoreSt) (j : Nat) : (s.updCore c f).part j = s.part j := rfl
@[simp] theorem State.updCurCore_ctx (s : State) (f : CoreSt → CoreSt) (j : Nat) : (s.updCurCore f).ctx j = s.ctx j := rfl
@[simp] theorem State.updCurCore_cluster (s : State) (f : CoreSt → CoreSt) (j : Nat) : (s.updCurCore f).cluster j = s.cluster j := rfl
@[simp] theorem State.updCurCore_part (s : State) (f : CoreSt → CoreSt) (j : Nat) : (s.updCurCore f).part j = s.part j := rfl
@[simp] theorem State.updCluster_ctx (s : State) (c : Nat) (f : Cluster → Cluster) (j : Nat) : (s.updCluster c f).ctx j = s.ctx j := rfl
@[simp] theorem State.updCluster_core (s : State) (c : Nat) (f : Cluster → Cluster) (j : Nat) : (s.updCluster c f).core j = s.core j := rfl
@[simp] theorem State.updCluster_part (s : State) (c : Nat) (f : Cluster → Cluster) (j : Nat) : (s.updCluster c f).part j = s.part j := rfl
@[simp] theorem State.updPart_ctx (s : State) (c : Nat) (f : Part → Part) (j : Nat) : (s.updPart c f).ctx j = s.ctx j := rfl
@[simp] theorem State.updPart_core (s : State) (c : Nat) (f : Part → Part) (j : Nat) : (s.updPart c f).core j = s.core j := rfl
@[simp] theorem State.updPart_cluster (s : State) (c : Nat) (f : Part → Part) (j : Nat) : (s.updPart c f).cluster j = s.cluster j := rfl
@[simp] theorem State.updQueue_ctx (s : State) (p q : Nat) (f : Queue → Queue) (j : Nat) : (s.updQueue p q f).ctx j = s.ctx j := rfl
@[simp] theorem State.updQueue_core (s : State) (p q : Nat) (f : Queue → Queue) (j : Nat) : (s.updQueue p q f).core j = s.core j := rfl
@[simp] theorem State.updQueue_cluster (s : State) (p q : Nat) (f : Queue → Queue) (j : Nat) : (s.updQueue p q f).cluster j = s.cluster j := rfl
@[simp] theorem State.raise_ctx (s : State) (a : Cause) (n m k : Nat) (j : Nat) : (s.raise a n m k).ctx j = s.ctx j := rfl
@[simp] theorem State.raise_core (s : State) (a : Cause) (n m k : Nat) (j : Nat) : (s.raise a n m k).core j = s.core j := rfl
@[simp] theorem State.raise_cluster (s : State) (a : Cause) (n m k : Nat) (j : Nat) : (s.raise a n m k).cluster j = s.cluster j := rfl
@[simp] theorem State.raise_part (s : State) (a : Cause) (n m k : Nat) (j : Nat) : (s.raise a n m k).part j = s.part j := rfl

@[simp] theorem State.raise_cur (s : State) (a : Cause) (n m k : Nat) : (s.raise a n m k).cur = s.cur := rfl

end Sys2Proof.Machine
end

