-- ==== Sys2Proof/Laws/Exec.lean ====
section
/-! SUPPORT. Laws of issuing a syllable: what `perform` answers in each case, and what the shared operations that put
results in flight do. -/
namespace Sys2Proof.Machine

/-! ### perform -/

/-- A syllable that issues normally has its effect. -/
theorem perform_normal {i : Instr} {s : State} (h : Normal i s) (body : State → State) :
    perform i s body = .next (undoReads s (body (s.popPorts i))) := by
  simp [perform, h.1, h.2.1, h.2.2]

/-- A syllable that meets a row of R73 traps, and has no effect. -/
theorem perform_illegal {i : Instr} {s : State} {c : Cause} (h : verdict i s = some c) (body : State → State) :
    perform i s body = .next (s.raise c) := by
  simp [perform, h]

/-- A false guard leaves the state as it is. -/
theorem perform_off {i : Instr} {s : State} (h : verdict i s = none) (g : guardHolds i s = false) (body : State → State) :
    perform i s body = .next s := by
  simp [perform, h, g]

/-- An operand of a port that traps stops the syllable before its effect, but for the count of its random generator. -/
theorem perform_port {i : Instr} {s : State} {r : Raised} (h : verdict i s = none) (g : guardHolds i s = true)
    (p : s.portFault i = some r) (body : State → State) : perform i s body = .next (s.raisePort r (body (s.popPorts i))) := by
  simp [perform, h, g, p]

/-- Every syllable answers a next state. -/
theorem perform_next (i : Instr) (s : State) (body : State → State) : ∃ t, perform i s body = .next t := by
  unfold perform
  split
  · exact ⟨_, rfl⟩
  · split
    · split <;> exact ⟨_, rfl⟩
    · exact ⟨_, rfl⟩

/-! ### Every syllable is a `perform` -/

/-- The meaning of every syllable is a `perform` of its effect. -/
theorem exec_perform (i : Instr) (h : classOf i ≠ 0) : ∃ body, ∀ s, exec i s = perform i s body := by
  cases i with
  | add g d a b im => exact ⟨_, fun s => by rw [show exec (.add g d a b im) s = execAdd g d a b im s from rfl, execAdd]⟩
  | sub g d a b im => exact ⟨_, fun s => by rw [show exec (.sub g d a b im) s = execSub g d a b im s from rfl, execSub]⟩
  | mul g d a b im => exact ⟨_, fun s => by rw [show exec (.mul g d a b im) s = execMul g d a b im s from rfl, execMul]⟩
  | mulh g d a b im => exact ⟨_, fun s => by rw [show exec (.mulh g d a b im) s = execMulh g d a b im s from rfl, execMulh]⟩
  | mulhu g d a b im => exact ⟨_, fun s => by rw [show exec (.mulhu g d a b im) s = execMulhu g d a b im s from rfl, execMulhu]⟩
  | div g d a b im => exact ⟨_, fun s => by rw [show exec (.div g d a b im) s = execDiv g d a b im s from rfl, execDiv]⟩
  | rem g d a b im => exact ⟨_, fun s => by rw [show exec (.rem g d a b im) s = execRem g d a b im s from rfl, execRem]⟩
  | and g d a b im => exact ⟨_, fun s => by rw [show exec (.and g d a b im) s = execAnd g d a b im s from rfl, execAnd]⟩
  | or g d a b im => exact ⟨_, fun s => by rw [show exec (.or g d a b im) s = execOr g d a b im s from rfl, execOr]⟩
  | xor g d a b im => exact ⟨_, fun s => by rw [show exec (.xor g d a b im) s = execXor g d a b im s from rfl, execXor]⟩
  | shl g d a b im => exact ⟨_, fun s => by rw [show exec (.shl g d a b im) s = execShl g d a b im s from rfl, execShl]⟩
  | shr g d a b im => exact ⟨_, fun s => by rw [show exec (.shr g d a b im) s = execShr g d a b im s from rfl, execShr]⟩
  | sra g d a b im => exact ⟨_, fun s => by rw [show exec (.sra g d a b im) s = execSra g d a b im s from rfl, execSra]⟩
  | min g d a b im => exact ⟨_, fun s => by rw [show exec (.min g d a b im) s = execMin g d a b im s from rfl, execMin]⟩
  | max g d a b im => exact ⟨_, fun s => by rw [show exec (.max g d a b im) s = execMax g d a b im s from rfl, execMax]⟩
  | mov g d a b im => exact ⟨_, fun s => by rw [show exec (.mov g d a b im) s = execMov g d a b im s from rfl, execMov]⟩
  | sel g d a b im => exact ⟨_, fun s => by rw [show exec (.sel g d a b im) s = execSel g d a b im s from rfl, execSel]⟩
  | li g d imm => exact ⟨_, fun s => by rw [show exec (.li g d imm) s = execLi g d imm s from rfl, execLi]⟩
  | mve g d a b im => exact ⟨_, fun s => by rw [show exec (.mve g d a b im) s = execMve g d a b im s from rfl, execMve]⟩
  | mfe g d a b im => exact ⟨_, fun s => by rw [show exec (.mfe g d a b im) s = execMfe g d a b im s from rfl, execMfe]⟩
  | cmp g cond d a b im => exact ⟨_, fun s => by rw [show exec (.cmp g cond d a b im) s = execCmp g cond d a b im s from rfl, execCmp]⟩
  | nop g => exact ⟨_, fun s => by rw [show exec (.nop g) s = execNop g s from rfl, execNop]⟩
  | br g off => exact ⟨_, fun s => by rw [show exec (.br g off) s = execBr g off s from rfl, execBr]⟩
  | jmp g a => exact ⟨_, fun s => by rw [show exec (.jmp g a) s = execJmp g a s from rfl, execJmp]⟩
  | call g off => exact ⟨_, fun s => by rw [show exec (.call g off) s = execCall g off s from rfl, execCall]⟩
  | callReg g a => exact ⟨_, fun s => by rw [show exec (.callReg g a) s = execCallReg g a s from rfl, execCallReg]⟩
  | ret g => exact ⟨_, fun s => by rw [show exec (.ret g) s = execRet g s from rfl, execRet]⟩
  | loop g lvl len cnt => exact ⟨_, fun s => by rw [show exec (.loop g lvl len cnt) s = execLoop g lvl len cnt s from rfl, execLoop]⟩
  | flip g bar pub => exact ⟨_, fun s => by rw [show exec (.flip g bar pub) s = execFlip g bar pub s from rfl, execFlip]⟩
  | retire g => exact ⟨_, fun s => by rw [show exec (.retire g) s = execRetire g s from rfl, execRetire]⟩
  | trap g imm => exact ⟨_, fun s => by rw [show exec (.trap g imm) s = execTrap g imm s from rfl, execTrap]⟩
  | bkpt g imm => exact ⟨_, fun s => by rw [show exec (.bkpt g imm) s = execBkpt g imm s from rfl, execBkpt]⟩
  | reth g => exact ⟨_, fun s => by rw [show exec (.reth g) s = execReth g s from rfl, execReth]⟩
  | vadd g w z u d a b => exact ⟨_, fun s => by rw [show exec (.vadd g w z u d a b) s = execVadd g w z u d a b s from rfl, execVadd]⟩
  | vsub g w z u d a b => exact ⟨_, fun s => by rw [show exec (.vsub g w z u d a b) s = execVsub g w z u d a b s from rfl, execVsub]⟩
  | vmul g w z u d a b => exact ⟨_, fun s => by rw [show exec (.vmul g w z u d a b) s = execVmul g w z u d a b s from rfl, execVmul]⟩
  | vmulh g w z u d a b => exact ⟨_, fun s => by rw [show exec (.vmulh g w z u d a b) s = execVmulh g w z u d a b s from rfl, execVmulh]⟩
  | vand g w z u d a b => exact ⟨_, fun s => by rw [show exec (.vand g w z u d a b) s = execVand g w z u d a b s from rfl, execVand]⟩
  | vor g w z u d a b => exact ⟨_, fun s => by rw [show exec (.vor g w z u d a b) s = execVor g w z u d a b s from rfl, execVor]⟩
  | vxor g w z u d a b => exact ⟨_, fun s => by rw [show exec (.vxor g w z u d a b) s = execVxor g w z u d a b s from rfl, execVxor]⟩
  | vshl g w z u d a b => exact ⟨_, fun s => by rw [show exec (.vshl g w z u d a b) s = execVshl g w z u d a b s from rfl, execVshl]⟩
  | vshr g w z u d a b => exact ⟨_, fun s => by rw [show exec (.vshr g w z u d a b) s = execVshr g w z u d a b s from rfl, execVshr]⟩
  | vsra g w z u d a b => exact ⟨_, fun s => by rw [show exec (.vsra g w z u d a b) s = execVsra g w z u d a b s from rfl, execVsra]⟩
  | vmin g w z u d a b => exact ⟨_, fun s => by rw [show exec (.vmin g w z u d a b) s = execVmin g w z u d a b s from rfl, execVmin]⟩
  | vmax g w z u d a b => exact ⟨_, fun s => by rw [show exec (.vmax g w z u d a b) s = execVmax g w z u d a b s from rfl, execVmax]⟩
  | vabs g w z u d a => exact ⟨_, fun s => by rw [show exec (.vabs g w z u d a) s = execVabs g w z u d a s from rfl, execVabs]⟩
  | vsel g w z u d a b => exact ⟨_, fun s => by rw [show exec (.vsel g w z u d a b) s = execVsel g w z u d a b s from rfl, execVsel]⟩
  | vcnt g w z u d a => exact ⟨_, fun s => by rw [show exec (.vcnt g w z u d a) s = execVcnt g w z u d a s from rfl, execVcnt]⟩
  | vredi g w z u d a sel => exact ⟨_, fun s => by rw [show exec (.vredi g w z u d a sel) s = execVredi g w z u d a sel s from rfl, execVredi]⟩
  | vcmp g cond w z u d a b => exact ⟨_, fun s => by rw [show exec (.vcmp g cond w z u d a b) s = execVcmp g cond w z u d a b s from rfl, execVcmp]⟩
  | fadd g w f sat d a b => exact ⟨_, fun s => by rw [show exec (.fadd g w f sat d a b) s = execFadd g w f sat d a b s from rfl, execFadd]⟩
  | fsub g w f sat d a b => exact ⟨_, fun s => by rw [show exec (.fsub g w f sat d a b) s = execFsub g w f sat d a b s from rfl, execFsub]⟩
  | fmul g w f sat d a b => exact ⟨_, fun s => by rw [show exec (.fmul g w f sat d a b) s = execFmul g w f sat d a b s from rfl, execFmul]⟩
  | fma g w f sat d a b => exact ⟨_, fun s => by rw [show exec (.fma g w f sat d a b) s = execFma g w f sat d a b s from rfl, execFma]⟩
  | fmin g w f sat d a b => exact ⟨_, fun s => by rw [show exec (.fmin g w f sat d a b) s = execFmin g w f sat d a b s from rfl, execFmin]⟩
  | fmax g w f sat d a b => exact ⟨_, fun s => by rw [show exec (.fmax g w f sat d a b) s = execFmax g w f sat d a b s from rfl, execFmax]⟩
  | fabs g w f sat d a => exact ⟨_, fun s => by rw [show exec (.fabs g w f sat d a) s = execFabs g w f sat d a s from rfl, execFabs]⟩
  | fneg g w f sat d a => exact ⟨_, fun s => by rw [show exec (.fneg g w f sat d a) s = execFneg g w f sat d a s from rfl, execFneg]⟩
  | fred g w f sat d a sel => exact ⟨_, fun s => by rw [show exec (.fred g w f sat d a sel) s = execFred g w f sat d a sel s from rfl, execFred]⟩
  | fsca g w f sat d a b => exact ⟨_, fun s => by rw [show exec (.fsca g w f sat d a b) s = execFsca g w f sat d a b s from rfl, execFsca]⟩
  | fcmp g cond w f sat d a b => exact ⟨_, fun s => by rw [show exec (.fcmp g cond w f sat d a b) s = execFcmp g cond w f sat d a b s from rfl, execFcmp]⟩
  | cvt g w src d a dst rnd => exact ⟨_, fun s => by rw [show exec (.cvt g w src d a dst rnd) s = execCvt g w src d a dst rnd s from rfl, execCvt]⟩
  | qnt g w mode d a rnd => exact ⟨_, fun s => by rw [show exec (.qnt g w mode d a rnd) s = execQnt g w mode d a rnd s from rfl, execQnt]⟩
  | dqnt g w mode d a => exact ⟨_, fun s => by rw [show exec (.dqnt g w mode d a) s = execDqnt g w mode d a s from rfl, execDqnt]⟩
  | vperm g w z d a b => exact ⟨_, fun s => by rw [show exec (.vperm g w z d a b) s = execVperm g w z d a b s from rfl, execVperm]⟩
  | vbcast g w z k d a => exact ⟨_, fun s => by rw [show exec (.vbcast g w z k d a) s = execVbcast g w z k d a s from rfl, execVbcast]⟩
  | vseq g w z d a b => exact ⟨_, fun s => by rw [show exec (.vseq g w z d a b) s = execVseq g w z d a b s from rfl, execVseq]⟩
  | visect g w z d a b => exact ⟨_, fun s => by rw [show exec (.visect g w z d a b) s = execVisect g w z d a b s from rfl, execVisect]⟩
  | vmovp g w toPred d a => exact ⟨_, fun s => by rw [show exec (.vmovp g w toPred d a) s = execVmovp g w toPred d a s from rfl, execVmovp]⟩
  | rngc g w z d a b => exact ⟨_, fun s => by rw [show exec (.rngc g w z d a b) s = execRngc g w z d a b s from rfl, execRngc]⟩
  | vext g w z d a b => exact ⟨_, fun s => by rw [show exec (.vext g w z d a b) s = execVext g w z d a b s from rfl, execVext]⟩
  | vins g w z d a b => exact ⟨_, fun s => by rw [show exec (.vins g w z d a b) s = execVins g w z d a b s from rfl, execVins]⟩
  | fexp2 g w f d a => exact ⟨_, fun s => by rw [show exec (.fexp2 g w f d a) s = execFexp2 g w f d a s from rfl, execFexp2]⟩
  | flog2 g w f d a => exact ⟨_, fun s => by rw [show exec (.flog2 g w f d a) s = execFlog2 g w f d a s from rfl, execFlog2]⟩
  | frcp g w f d a => exact ⟨_, fun s => by rw [show exec (.frcp g w f d a) s = execFrcp g w f d a s from rfl, execFrcp]⟩
  | frsq g w f d a => exact ⟨_, fun s => by rw [show exec (.frsq g w f d a) s = execFrsq g w f d a s from rfl, execFrsq]⟩
  | fsqrt g w f d a => exact ⟨_, fun s => by rw [show exec (.fsqrt g w f d a) s = execFsqrt g w f d a s from rfl, execFsqrt]⟩
  | fdiv g w f d a b => exact ⟨_, fun s => by rw [show exec (.fdiv g w f d a b) s = execFdiv g w f d a b s from rfl, execFdiv]⟩
  | ld g d base imm m => exact ⟨_, fun s => by rw [show exec (.ld g d base imm m) s = execLd g d base imm m s from rfl, execLd]⟩
  | lds g d base imm m => exact ⟨_, fun s => by rw [show exec (.lds g d base imm m) s = execLds g d base imm m s from rfl, execLds]⟩
  | ldr g d base imm m => exact ⟨_, fun s => by rw [show exec (.ldr g d base imm m) s = execLdr g d base imm m s from rfl, execLdr]⟩
  | ldp g d base win off plies round => exact ⟨_, fun s => by rw [show exec (.ldp g d base win off plies round) s = execLdp g d base win off plies round s from rfl, execLdp]⟩
  | pf g base imm cluster => exact ⟨_, fun s => by rw [show exec (.pf g base imm cluster) s = execPf g base imm cluster s from rfl, execPf]⟩
  | qpop g d m => exact ⟨_, fun s => by rw [show exec (.qpop g d m) s = execQpop g d m s from rfl, execQpop]⟩
  | st g d base imm m => exact ⟨_, fun s => by rw [show exec (.st g d base imm m) s = execSt g d base imm m s from rfl, execSt]⟩
  | sts g d base imm m => exact ⟨_, fun s => by rw [show exec (.sts g d base imm m) s = execSts g d base imm m s from rfl, execSts]⟩
  | stp g d base win off plies => exact ⟨_, fun s => by rw [show exec (.stp g d base win off plies) s = execStp g d base win off plies s from rfl, execStp]⟩
  | stq g d base tag m => exact ⟨_, fun s => by rw [show exec (.stq g d base tag m) s = execStq g d base tag m s from rfl, execStq]⟩
  | atom g d base old op => exact ⟨_, fun s => by rw [show exec (.atom g d base old op) s = execAtom g d base old op s from rfl, execAtom]⟩
  | acas g d base old dword => exact ⟨_, fun s => by rw [show exec (.acas g d base old dword) s = execAcas g d base old dword s from rfl, execAcas]⟩
  | pacc g d base win off sr => exact ⟨_, fun s => by rw [show exec (.pacc g d base win off sr) s = execPacc g d base win off sr s from rfl, execPacc]⟩
  | pdec g d base win off sr => exact ⟨_, fun s => by rw [show exec (.pdec g d base win off sr) s = execPdec g d base win off sr s from rfl, execPdec]⟩
  | qpush g d z => exact ⟨_, fun s => by rw [show exec (.qpush g d z) s = execQpush g d z s from rfl, execQpush]⟩
  | stk g d base imm => exact ⟨_, fun s => by rw [show exec (.stk g d base imm) s = execStk g d base imm s from rfl, execStk]⟩
  | xcfg g bank pa pb dexp => exact ⟨_, fun s => by rw [show exec (.xcfg g bank pa pb dexp) s = execXcfg g bank pa pb dexp s from rfl, execXcfg]⟩
  | xpush g => exact ⟨_, fun s => by rw [show exec (.xpush g) s = execXpush g s from rfl, execXpush]⟩
  | xacc g bank => exact ⟨_, fun s => by rw [show exec (.xacc g bank) s = execXacc g bank s from rfl, execXacc]⟩
  | xshift g bank => exact ⟨_, fun s => by rw [show exec (.xshift g bank) s = execXshift g bank s from rfl, execXshift]⟩
  | xdrain g bank => exact ⟨_, fun s => by rw [show exec (.xdrain g bank) s = execXdrain g bank s from rfl, execXdrain]⟩
  | ecopy g base cv ev hv nl z evc => exact ⟨_, fun s => by rw [show exec (.ecopy g base cv ev hv nl z evc) s = execEcopy g base cv ev hv nl z evc s from rfl, execEcopy]⟩
  | egather g base cv ev x z evc => exact ⟨_, fun s => by rw [show exec (.egather g base cv ev x z evc) s = execEgather g base cv ev x z evc s from rfl, execEgather]⟩
  | ereduce g base cv ev rop fmt evc => exact ⟨_, fun s => by rw [show exec (.ereduce g base cv ev rop fmt evc) s = execEreduce g base cv ev rop fmt evc s from rfl, execEreduce]⟩
  | epage g base cv ev dir k slot dict evc => exact ⟨_, fun s => by rw [show exec (.epage g base cv ev dir k slot dict evc) s = execEpage g base cv ev dir k slot dict evc s from rfl, execEpage]⟩
  | edict g base cv ev slot evc => exact ⟨_, fun s => by rw [show exec (.edict g base cv ev slot evc) s = execEdict g base cv ev slot evc s from rfl, execEdict]⟩
  | csrr g d csr => exact ⟨_, fun s => by rw [show exec (.csrr g d csr) s = execCsrr g d csr s from rfl, execCsrr]⟩
  | csrw g src csr => exact ⟨_, fun s => by rw [show exec (.csrw g src csr) s = execCsrw g src csr s from rfl, execCsrw]⟩
  | flags g d clear slot => exact ⟨_, fun s => by rw [show exec (.flags g d clear slot) s = execFlags g d clear slot s from rfl, execFlags]⟩
  | versw g => exact ⟨_, fun s => by rw [show exec (.versw g) s = execVersw g s from rfl, execVersw]⟩
  | verswNamed g src => exact ⟨_, fun s => by rw [show exec (.verswNamed g src) s = execVerswNamed g src s from rfl, execVerswNamed]⟩
  | verpub g d => exact ⟨_, fun s => by rw [show exec (.verpub g d) s = execVerpub g d s from rfl, execVerpub]⟩
  | qarm g port base => exact ⟨_, fun s => by rw [show exec (.qarm g port base) s = execQarm g port base s from rfl, execQarm]⟩
  | variableResultLand => exact absurd rfl h
  | lateFaultReport => exact absurd rfl h
  | verpubStep => exact absurd rfl h
  | verswStep => exact absurd rfl h
  | translationWalkComplete => exact absurd rfl h
  | walkerStart => exact absurd rfl h
  | flipRelease => exact absurd rfl h
  | flipExchange => exact absurd rfl h
  | taskStart => exact absurd rfl h
  | contextFree => exact absurd rfl h
  | handlerEntry => exact absurd rfl h
  | packetArrival => exact absurd rfl h
  | launch => exact absurd rfl h
  | kernelDispatch => exact absurd rfl h
  | contextStart => exact absurd rfl h
  | copy => exact absurd rfl h
  | copyComplete => exact absurd rfl h
  | depEvent => exact absurd rfl h
  | depPageSet => exact absurd rfl h
  | depComplete => exact absurd rfl h
  | signal => exact absurd rfl h
  | setdetQueue => exact absurd rfl h
  | setdetPartition => exact absurd rfl h
  | setdetComplete => exact absurd rfl h
  | publish => exact absurd rfl h
  | captureStart => exact absurd rfl h
  | captureStop => exact absurd rfl h
  | captureResume => exact absurd rfl h
  | capturePageWrite => exact absurd rfl h
  | markOn => exact absurd rfl h
  | markOff => exact absurd rfl h
  | markDecl => exact absurd rfl h
  | markSnap => exact absurd rfl h
  | markMode => exact absurd rfl h
  | resync => exact absurd rfl h
  | ownerClaim => exact absurd rfl h
  | ownerHandover => exact absurd rfl h
  | ownerRenew => exact absurd rfl h
  | ownerRelease => exact absurd rfl h
  | electionClose => exact absurd rfl h
  | leaseExpiry => exact absurd rfl h
  | engineChunkPerform => exact absurd rfl h
  | engineComplete => exact absurd rfl h
  | taggedWriteArrive => exact absurd rfl h
  | heldWriteTimeout => exact absurd rfl h
  | replacementWriteback => exact absurd rfl h
  | randomWordFill => exact absurd rfl h
  | portOperandFetch => exact absurd rfl h
  | watchdogPreempt => exact absurd rfl h
  | watchdogKill => exact absurd rfl h
  | watchdogFence => exact absurd rfl h
  | preemption => exact absurd rfl h
  | contextRestore => exact absurd rfl h
  | faultRecordWrite => exact absurd rfl h
  | ctxcmdResume => exact absurd rfl h
  | ctxcmdKill => exact absurd rfl h
  | ctxcmdPreempt => exact absurd rfl h
  | qctlResume => exact absurd rfl h
  | qctlDiscardHead => exact absurd rfl h
  | qctlDiscardAll => exact absurd rfl h
  | tlbinv => exact absurd rfl h
  | tlbinvComplete => exact absurd rfl h
  | vlendWrite => exact absurd rfl h
  | brkaWrite => exact absurd rfl h
  | monitorWrite => exact absurd rfl h
  | monitorFailure => exact absurd rfl h
  | dumpComplete => exact absurd rfl h
  | dumpEngineFault => exact absurd rfl h
  | rerunCompare => exact absurd rfl h
  | registerWrite => exact absurd rfl h
  | partitionFirmwareUpdate => exact absurd rfl h
  | vaultRetraining => exact absurd rfl h
  | fabricPortRetraining => exact absurd rfl h
  | partitionReconfiguration => exact absurd rfl h
  | clusterRetirement => exact absurd rfl h
  | securityAlarm => exact absurd rfl h
  | deviceReset => exact absurd rfl h
  | powerLimit => exact absurd rfl h
  | atomicPerform => exact absurd rfl h
  | fabricGlobalAccess => exact absurd rfl h
  | portOperandAvailable => exact absurd rfl h
  | powerBelowLimit => exact absurd rfl h
  | liveServiceOperationComplete => exact absurd rfl h
  | monitorRelationHolds => exact absurd rfl h
  | ringTailAdvance => exact absurd rfl h

/-- Every syllable answers a next state. -/
theorem exec_next (i : Instr) (h : classOf i ≠ 0) (s : State) : ∃ t, exec i s = .next t := by
  obtain ⟨body, hb⟩ := exec_perform i h
  rw [hb]
  exact perform_next i s body

/-! ### What R73 leaves -/

/-- What R73 leaves of a syllable in the handler. -/
theorem verdict_handler {i : Instr} {s : State} (h : verdict i s = none) (hn : ∀ g, i ≠ .nop g) (hh : s.cur.inHandler = true) :
    handlerRuns i = true ∧ handlerLegal i s.slot.lend = true := by
  unfold verdict at h
  split at h
  · rename_i g; exact absurd rfl (hn g)
  · simp only [hh, if_true] at h
    split at h
    · cases h
    · rename_i h1
      split at h
      · rename_i h2; exact ⟨by simpa using h1, h2⟩
      · cases h

/-- What R73 leaves of a syllable outside the handler. -/
theorem verdict_operands {i : Instr} {s : State} (h : verdict i s = none) (hn : ∀ g, i ≠ .nop g) (hh : s.cur.inHandler = false) :
    operandsLegal i s.slot.lend s.cur.alloc s.slot.ctx s.cur.level = true := by
  unfold verdict at h
  split at h
  · rename_i g; exact absurd rfl (hn g)
  · simp only [hh, Bool.false_eq_true, if_false] at h
    split at h
    · cases h
    · revert h
      by_cases q : operandsLegal i s.slot.lend s.cur.alloc s.slot.ctx s.cur.level = true
      · intro _; exact q
      · simp [q]

/-- Legal operands come from sources that the register kinds allow (R27, R73). -/
theorem operands_sources {i : Instr} {l : Lend} {al : Alloc} {c lv : Nat} (h : operandsLegal i l al c lv = true) :
    sourceLegal al l.ak (shape i).a = true ∧ sourceLegal al l.bk (shape i).b = true := by
  have left : ∀ {a b : Bool}, (a && b) = true → a = true := fun h => (Bool.and_eq_true_iff.mp h).1
  have right : ∀ {a b : Bool}, (a && b) = true → b = true := fun h => (Bool.and_eq_true_iff.mp h).2
  have h6 := left (left (left (left (left (left h)))))
  exact ⟨right (left h6), right h6⟩

/-- A syllable with scalar sources reads no port, in whichever mode it runs. -/
theorem ports_scalar {i : Instr} {s : State} (h : verdict i s = none) (hn : ∀ g, i ≠ .nop g) (hx : ∀ g, i ≠ .xpush g)
    (ha : ∀ n, (shape i).a ≠ some (.v, n)) (hb : ∀ n, (shape i).b ≠ some (.v, n)) : portsOf i s.slot.lend = [] := by
  have key : ∀ (al : Alloc) (k : Kind) (o : Option (RFile × Nat)), (∀ n, o ≠ some (.v, n)) → sourceLegal al k o = true →
      k ≠ .pop ∧ k ≠ .peek := by
    intro al k o ho hs
    cases k <;> simp_all [sourceLegal]
    all_goals
      cases o with
      | none => simp at hs
      | some p => obtain ⟨f, n⟩ := p; simp_all
  have hk : (s.slot.lend.ak ≠ .pop ∧ s.slot.lend.ak ≠ .peek) ∧ (s.slot.lend.bk ≠ .pop ∧ s.slot.lend.bk ≠ .peek) := by
    cases hh : s.cur.inHandler with
    | true =>
      have h1 := (verdict_handler h hn hh).2
      simp only [handlerLegal, Bool.and_eq_true, beq_iff_eq] at h1
      have e1 : s.slot.lend.ak = .reg := h1.1.1.1.1.1.1.1.1.2
      have e2 : s.slot.lend.bk = .reg := h1.1.1.1.1.1.1.1.2
      simp [e1, e2]
    | false =>
      obtain ⟨h1, h2⟩ := operands_sources (verdict_operands h hn hh)
      exact ⟨key _ _ _ ha h1, key _ _ _ hb h2⟩
  unfold portsOf
  split
  · rename_i g; exact absurd rfl (hx g)
  · obtain ⟨⟨h1, h2⟩, h3, h4⟩ := hk
    revert h1 h2 h3 h4
    generalize s.slot.lend.ak = k1
    generalize s.slot.lend.bk = k2
    cases k1 <;> cases k2 <;> simp

/-! ### Ports -/

theorem popPorts_nil {i : Instr} {s : State} (h : portsOf i s.slot.lend = []) : s.popPorts i = s := by
  simp [State.popPorts, h]

/-- Popping ports changes the walks of the context, and notes an error; nothing else. -/
@[simp] theorem popPorts_raised (i : Instr) (s : State) : (s.popPorts i).slot.raised = s.slot.raised := by
  unfold State.popPorts; split <;> rfl
@[simp] theorem popPorts_slotCtx (i : Instr) (s : State) : (s.popPorts i).slot.ctx = s.slot.ctx := by
  unfold State.popPorts; split <;> rfl
@[simp] theorem popPorts_lend (i : Instr) (s : State) : (s.popPorts i).slot.lend = s.slot.lend := by
  unfold State.popPorts; split <;> rfl
@[simp] theorem popPorts_dram (i : Instr) (s : State) : (s.popPorts i).dram = s.dram := by
  unfold State.popPorts; split <;> rfl
@[simp] theorem popPorts_cores (i : Instr) (s : State) : (s.popPorts i).cores = s.cores := by
  unfold State.popPorts; split <;> rfl

/-- A syllable that has raised nothing keeps what it has read. -/
theorem undoReads_same {s t : State} (h : t.slot.raised = s.slot.raised) : undoReads s t = t := by
  simp [undoReads, h]

/-! ### Results -/

@[simp] theorem withResults_slot (s : State) (rs : List Result) : (s.withResults rs).slot = s.slot := rfl

/-- With room, results enter flight; with none, the syllable traps (R231). -/
theorem post_one {s : State} (h : s.Room 1) (r : Result) :
    s.post [r] = s.withResults [{ r with
      id := s.cur.seq * 64 + s.slot.pos * 4, pos := s.slot.pos, seq := s.cur.seq, baddr := s.slot.baddr
      fslot := s.slot.fslot, syl := s.slot.word
      late := if s.slot.ecc then some { cause := .dataError, pos := s.slot.pos, faddr := r.ea } else r.late }] := by
  have : ¬ (s.cur.results + 1 > Config.resultsMax) := by
    simp only [State.Room] at h; simp [Config.resultsMax]; omega
  simp [State.post, State.enter, this, State.withResults]

theorem post_two {s : State} (h : s.Room 2) (r q : Result) :
    s.post [r, q] = s.withResults [
      { r with
        id := s.cur.seq * 64 + s.slot.pos * 4, pos := s.slot.pos, seq := s.cur.seq, baddr := s.slot.baddr
        fslot := s.slot.fslot, syl := s.slot.word
        late := if s.slot.ecc then some { cause := .dataError, pos := s.slot.pos, faddr := r.ea } else r.late },
      { q with
        id := s.cur.seq * 64 + s.slot.pos * 4 + 1, pos := s.slot.pos, seq := s.cur.seq, baddr := s.slot.baddr
        fslot := s.slot.fslot, syl := s.slot.word
        late := if s.slot.ecc then some { cause := .dataError, pos := s.slot.pos, faddr := q.ea } else q.late }] := by
  have : ¬ (s.cur.results + 2 > Config.resultsMax) := by
    simp only [State.Room] at h; simp [Config.resultsMax]; omega
  simp [State.post, State.enter, this, State.withResults]

theorem post_full {s : State} (h : ¬ s.Room 1) (r : Result) : s.post [r] = s.raise .illegalOperand := by
  have full : s.cur.results + 1 > Config.resultsMax := by
    simp only [State.Room] at h; simp [Config.resultsMax]; omega
  have none : Config.resultsMax - s.cur.results = 0 := by omega
  simp [State.post, full, none]

/-- Flags of which none is enabled go with the result. -/
theorem settle_quiet {s : State} {fl : Flags} (h : ¬ s.Enabled fl) (lat : Nat) (r : Result) (t : List Result) :
    s.settle fl lat (r :: t) = s.post ({ r with flags := fl } :: t) := by
  simp only [State.Enabled, ne_eq, Decidable.not_not] at h
  simp [State.settle, h]

/-- An enabled flag traps, and nothing lands (R112). -/
theorem settle_trap {s : State} {fl : Flags} {rs : List Result} (h : s.Enabled fl) (hr : s.Room rs.length) (lat : Nat) :
    s.settle fl lat rs = s.raiseEnabled fl s.cur.trapMask lat := by
  have : ¬ (s.cur.results + rs.length > Config.resultsMax) := by
    simp only [State.Room] at hr; simp [Config.resultsMax]; omega
  unfold State.settle
  simp only [State.Enabled] at h
  simp only [this, decide_false, Bool.or_false, decide_eq_true_eq, if_neg h]

/-- A 65th result is the lower cause, whatever the flags (R227, R231). -/
theorem settle_full {s : State} (hr : ¬ s.Room 1) (fl : Flags) (lat : Nat) (r : Result) :
    s.settle fl lat [r] = s.raise .illegalOperand := by
  have full : s.cur.results + 1 > Config.resultsMax := by
    simp only [State.Room] at hr; simp [Config.resultsMax]; omega
  simp [State.settle, full, post_full hr]

theorem not_enabled_zero (s : State) : ¬ s.Enabled 0 := by simp [State.Enabled]

/-- A 64-bit result. -/
theorem putScalar_quiet {s : State} (hr : s.Room 1) {fl : Flags} (h : ¬ s.Enabled fl) (file : RFile) (d val lat : Nat) :
    s.putScalar file d val lat fl = s.withResults [s.resultOf 0 (destFile s file d) d 0xFF
      (BitVec.ofNat 1024 (val % 2 ^ 64)) (BitVec.ofNat 1024 (val % 2 ^ 64)) lat fl] := by
  rw [State.putScalar, settle_quiet h, post_one hr]
  rfl

/-- A vector result. -/
theorem putVector_quiet {s : State} (hr : s.Room 1) {fl : Flags} (h : ¬ s.Enabled fl) (d wbits eb val lat : Nat) :
    s.putVector d wbits eb val lat fl = s.withResults [s.resultOf 0 (destFile s .v d) d (BitVec.ofNat 128 (s.ben wbits eb))
      (BitVec.ofNat 1024 (val % 2 ^ wbits)) (BitVec.ofNat 1024 (val % 2 ^ wbits)) lat fl] := by
  rw [State.putVector, settle_quiet h, post_one hr]
  rfl

/-- A whole predicate. -/
theorem putPred_quiet {s : State} (hr : s.Room 1) (d val lat : Nat) :
    s.putPred d val lat = s.withResults [s.resultOf 0 (destFile s .p d) d (BitVec.ofNat 128 (ones 16))
      (BitVec.ofNat 1024 (val % 2 ^ 128)) (BitVec.ofNat 1024 (val % 2 ^ 128)) lat 0] := by
  rw [State.putPred, settle_quiet (not_enabled_zero s), post_one hr]
  rfl

/-- The two predicates of a compare. -/
theorem putPair_quiet {s : State} (hr : s.Room 2) (hw : s.slot.lend.ws = false) {fl : Flags} (h : ¬ s.Enabled fl)
    (k yes no lval lat : Nat) :
    s.putPair k yes no lval lat fl = s.withResults [
      s.resultOf 0 (destFile s .p (2 * k)) (2 * k) (BitVec.ofNat 128 (ones 16)) (BitVec.ofNat 1024 yes)
        (BitVec.ofNat 1024 lval) lat fl,
      s.resultOf 1 (destFile s .p (2 * k)) (2 * k + 1) (BitVec.ofNat 128 (ones 16)) (BitVec.ofNat 1024 no)
        (BitVec.ofNat 1024 lval) lat 0] := by
  simp only [State.putPair, hw, Bool.false_eq_true, if_false]
  rw [settle_quiet h, post_two hr]
  rfl

/-- A suppressed compare reaches its latch only. -/
theorem putPair_suppressed {s : State} (hr : s.Room 1) (hw : s.slot.lend.ws = true) {fl : Flags} (h : ¬ s.Enabled fl)
    (k yes no lval lat : Nat) :
    s.putPair k yes no lval lat fl = s.withResults [
      s.resultOf 0 .latch (2 * k) (BitVec.ofNat 128 (ones 16)) (BitVec.ofNat 1024 yes) (BitVec.ofNat 1024 lval) lat fl] := by
  simp only [State.putPair, hw, if_true]
  rw [settle_quiet h, post_one hr]
  simp [State.resultOf, destFile, hw]

/-! ### Scalar operands and results -/

theorem srcS_lt (s : State) (k : Kind) (n : Nat) : s.srcS k n < 2 ^ 64 := by
  unfold State.srcS
  split
  · exact BitVec.isLt _
  · exact Nat.mod_lt _ (by decide)
  · decide

theorem imm6_lt (s : State) (b : BitVec 6) : s.imm6 b < 2 ^ 64 := by
  have lt : ∀ x : Int, ofSigned 64 x < 2 ^ 64 := by
    intro x
    have := Int.emod_lt_of_pos x (show (0 : Int) < (2 ^ 64 : Nat) by decide)
    have := Int.emod_nonneg x (show ((2 ^ 64 : Nat) : Int) ≠ 0 by decide)
    unfold ofSigned
    omega
  unfold State.imm6
  split <;> exact lt _

theorem aluB_lt (s : State) (b : BitVec 6) (i : Bool) : s.aluB b i < 2 ^ 64 := by
  unfold State.aluB
  split
  · exact imm6_lt s b
  · exact srcS_lt _ _ _

theorem hreg_lt (s : State) (n : Nat) : s.hreg n < 2 ^ 64 := BitVec.isLt _

/-- The file of a scalar result. -/
theorem destFile_scalar (s : State) (d : BitVec 6) : destFile s .s d.toNat = s.scalarFile d := by
  have : d.toNat = 0 ↔ d = 0 := ⟨fun h => BitVec.eq_of_toNat_eq (by simpa using h), fun h => by simp [h]⟩
  unfold destFile State.scalarFile
  by_cases h : s.slot.lend.ws = true <;> by_cases h2 : d = 0 <;> simp_all

theorem ofNat_wide (v : Nat) (x : Word64) (h : x.toNat = v % 2 ^ 64) : BitVec.ofNat 1024 (v % 2 ^ 64) = x.setWidth 1024 := by
  rw [← h]
  apply BitVec.eq_of_toNat_eq
  rw [BitVec.toNat_ofNat, BitVec.toNat_setWidth]

/-- A scalar result of a value that fits. -/
theorem putScalar_result {s : State} (hr : s.Room 1) {fl : Flags} (he : ¬ s.Enabled fl) (d : BitVec 6) (v lat : Nat) (x : Word64)
    (hv : x.toNat = v % 2 ^ 64) : s.putScalar .s d.toNat v lat fl = s.scalarResult d x fl lat := by
  rw [putScalar_quiet hr he, destFile_scalar, ofNat_wide v x hv]
  rfl

/-- A member of the two-operand mould outside the handler, with flags of which none is enabled (R272). -/
theorem perform_alu {s : State} {i : Instr} {f : Nat → Nat → Nat × Flags} {d a b : BitVec 6} {im : Bool}
    (hi : s.cur.inHandler = false) (hr : s.Room 1) (h : Normal i s) (e : exec i s = perform i s (aluBody f d a b im))
    (hp : portsOf i s.slot.lend = []) (x : Word64) (fl : Flags) (hv : x.toNat = (f (s.sa a.toNat) (s.aluB b im)).1 % 2 ^ 64)
    (hfl : (f (s.sa a.toNat) (s.aluB b im)).2 = fl) (he : ¬ s.Enabled fl) :
    exec i s = .next (s.scalarResult d x fl) := by
  rw [e, perform_normal h, popPorts_nil hp]
  have : aluBody f d a b im s = s.scalarResult d x fl := by
    simp only [aluBody, hi, Bool.false_eq_true, if_false, hfl]
    exact putScalar_result hr he d _ 1 x hv
  rw [this, undoReads_same (show (s.scalarResult d x fl).slot.raised = s.slot.raised from rfl)]

/-! ### Steps without a syllable -/

theorem event_on {ok : Bool} (h : ok = true) (s : State) : event ok s = .next s := by simp [event, h]

theorem event_off {ok : Bool} (h : ok = false) (s : State) : event ok s = .fault .notEnabled := by simp [event, h]

theorem event_next {ok : Bool} {s t : State} (h : event ok s = .next t) : ok = true ∧ t = s := by
  unfold event at h
  split at h
  · rename_i e; exact ⟨e, by cases h; rfl⟩
  · cases h

end Sys2Proof.Machine
end

