-- ==== Sys2Proof/Laws/Lanes.lean ====
section
/-! SUPPORT. Laws of values made of elements: taking a value apart, putting it together, and the byte enables of a lane
predicate. -/
namespace Sys2Proof

theorem ofSigned_lt (w : Nat) (x : Int) : ofSigned w x < 2 ^ w := by
  unfold ofSigned
  have h : (0 : Int) < (2 ^ w : Nat) := by exact_mod_cast Nat.two_pow_pos w
  have := Int.emod_lt_of_pos x h
  have := Int.emod_nonneg x (Int.ne_of_gt h)
  omega

/-- The signed value of a pattern is that of its bit vector. -/
theorem toSigned_toNat (w : Nat) (x : BitVec w) : toSigned w x.toNat = x.toInt := by
  unfold toSigned
  rw [Nat.mod_eq_of_lt x.isLt, BitVec.toInt_eq_toNat_cond]

theorem ofNat_ofSigned (w : Nat) (x : Int) : BitVec.ofNat w (ofSigned w x) = BitVec.ofInt w x := by
  apply BitVec.eq_of_toNat_eq
  rw [BitVec.toNat_ofNat, BitVec.toNat_ofInt, Nat.mod_eq_of_lt (ofSigned_lt w x)]
  rfl

theorem ofSigned_toInt (w : Nat) (x : BitVec w) : ofSigned w x.toInt = x.toNat := by
  have h := congrArg BitVec.toNat (ofNat_ofSigned w x.toInt)
  rw [BitVec.toNat_ofNat, Nat.mod_eq_of_lt (ofSigned_lt w _)] at h
  rw [h, BitVec.ofInt_toInt]

namespace Machine

theorem lane_eq_element (x k w : Nat) : lane x k w = (element w x k).toNat := by
  simp [lane, element]

theorem length_lanesFrom (x w n i : Nat) : (lanesFrom x w n i).length = n := by
  induction n generalizing i with
  | zero => rfl
  | succ n ih => simp [lanesFrom, ih]

@[simp] theorem length_lanes (x w n : Nat) : (lanes x w n).length = n := length_lanesFrom x w n 0

theorem getElem_lanesFrom (x w n i k : Nat) (h : k < (lanesFrom x w n i).length) :
    (lanesFrom x w n i)[k] = lane x (i + k) w := by
  induction n generalizing i k with
  | zero => simp [lanesFrom] at h
  | succ n ih =>
    cases k with
    | zero => simp [lanesFrom]
    | succ k =>
      simp only [lanesFrom, List.getElem_cons_succ]
      rw [ih]
      congr 1
      omega

/-- Element `k` of a list of elements. -/
@[simp] theorem getElem_lanes (x w n k : Nat) (h : k < (lanes x w n).length) : (lanes x w n)[k] = (element w x k).toNat := by
  rw [← lane_eq_element]
  exact (getElem_lanesFrom x w n 0 k h).trans (by rw [Nat.zero_add])

theorem ofLanes_lt (w : Nat) (l : List Nat) : ofLanes w l < 2 ^ (w * l.length) := by
  induction l with
  | nil => simp [ofLanes]
  | cons x xs ih =>
    simp only [ofLanes, List.length_cons, Nat.mul_add, Nat.mul_one, Nat.pow_add]
    have h1 := Nat.mod_lt x (Nat.two_pow_pos w)
    have h2 : 2 ^ w * (ofLanes w xs + 1) ≤ 2 ^ w * 2 ^ (w * xs.length) := Nat.mul_le_mul_left _ ih
    rw [Nat.mul_add, Nat.mul_one] at h2
    rw [Nat.mul_comm (2 ^ (w * xs.length))]
    omega

/-- Element `k` of a value put together from a list. -/
theorem element_ofLanes (w : Nat) (l : List Nat) (k : Nat) (h : k < l.length) :
    element w (ofLanes w l) k = BitVec.ofNat w l[k] := by
  apply BitVec.eq_of_toNat_eq
  simp only [element, BitVec.toNat_ofNat]
  induction l generalizing k with
  | nil => simp at h
  | cons x xs ih =>
    cases k with
    | zero => simp [ofLanes, Nat.add_mod, Nat.mul_mod_right]
    | succ k =>
      have hk : k < xs.length := by simpa using h
      have := ih k hk
      simp only [List.getElem_cons_succ, ← this]
      congr 1
      rw [Nat.mul_add, Nat.mul_one, Nat.add_comm, Nat.pow_add, ← Nat.div_div_eq_div_mul]
      congr 1
      simp only [ofLanes]
      rw [Nat.add_mul_div_left _ _ (Nat.two_pow_pos w), Nat.div_eq_of_lt (Nat.mod_lt _ (Nat.two_pow_pos w)), Nat.zero_add]

/-- A bit of a number that is bit `k` of an element. -/
theorem bitAt_eq_testBit (x k : Nat) : bitAt x k = x.testBit k := by
  rw [bitAt, Nat.testBit_eq_decide_div_mod_eq]
  rfl

theorem testBit_laneBytes (lp eb : Nat) (he : 8 ∣ eb) (hp : 0 < eb) (n k j : Nat) :
    (laneBytes lp eb n k).testBit j =
      (decide (eb / 8 * k ≤ j ∧ j < eb / 8 * (k + n)) && bitAt lp (eb / 8 * (j / (eb / 8)))) := by
  obtain ⟨m, rfl⟩ := he
  have hm : 0 < m := by omega
  have e8 : 8 * m / 8 = m := by omega
  rw [e8]
  induction n generalizing k with
  | zero =>
    have : ¬ (m * k ≤ j ∧ j < m * (k + 0)) := by rw [Nat.add_zero]; omega
    rw [decide_eq_false this]
    simp [laneBytes]
  | succ n ih =>
    simp only [laneBytes, Nat.testBit_or, ih]
    have e1 : 8 * m * k / 8 = m * k := by rw [Nat.mul_assoc]; omega
    have e2 : (8 * m * k + 8 * m + 7) / 8 = m * k + m := by rw [Nat.mul_assoc]; omega
    rw [e1, e2, Nat.add_sub_cancel_left, activeLane, e1]
    have e3 : m * (k + 1) = m * k + m := Nat.mul_succ m k
    have e4 : m * (k + 1 + n) = m * k + m + m * n := by rw [Nat.mul_add, e3]
    have e5 : m * (k + (n + 1)) = m * k + m + m * n := by rw [← e4]; congr 1; omega
    rw [e3, e4, e5]
    by_cases hj : m * k ≤ j ∧ j < m * k + m
    · have hd : j / m = k := by
        apply Nat.div_eq_of_lt_le
        · rw [Nat.mul_comm]; exact hj.1
        · rw [Nat.mul_comm, e3]; exact hj.2
      have h1 : ¬ (m * k + m ≤ j ∧ j < m * k + m + m * n) := by omega
      have h2 : m * k ≤ j ∧ j < m * k + m + m * n := by omega
      rw [decide_eq_false h1, decide_eq_true h2, hd]
      have h3 : (ones m * 2 ^ (m * k)).testBit j = true := by
        rw [Nat.testBit_mul_two_pow]
        simp [ones, Nat.testBit_two_pow_sub_one]
        omega
      split
      · rename_i hb; rw [h3, hb]; rfl
      · rename_i hb; simp [hb]
    · have h0 : (if bitAt lp (m * k) = true then ones m * 2 ^ (m * k) else 0).testBit j = false := by
        split
        · rw [Nat.testBit_mul_two_pow]
          simp [ones, Nat.testBit_two_pow_sub_one]
          omega
        · simp
      rw [h0, Bool.false_or]
      congr 1
      apply decide_eq_decide.mpr
      omega

/-- Elements fill a width. -/
theorem width_elements (w : Width) (z : ESize) :
    z.bits * (w.bits / z.bits) = w.bits ∧ 8 ∣ z.bits ∧ 0 < z.bits ∧ w.bits ≤ 1024 ∧ 0 < w.bits / z.bits := by
  cases w <;> cases z <;> decide

/-- The byte enables of a vector result: bytes below the width, in elements whose lane predicate bit is set (R25). -/
theorem ben_bits (t : State) (wb eb : Nat) (h8 : 8 ∣ eb) (hp : 0 < eb) (hd : eb * (wb / eb) = wb) (j : Nat) (hj : j < 128) :
    (BitVec.ofNat 128 (t.ben wb eb)).getLsbD j =
      (decide (j < wb / 8) && t.laneBit (max 1 (eb / 8) * (j / max 1 (eb / 8)))) := by
  have hm : max 1 (eb / 8) = eb / 8 := by obtain ⟨m, rfl⟩ := h8; omega
  rw [BitVec.getLsbD_ofNat, hm]
  simp only [hj, decide_true, Bool.true_and, State.laneBit]
  unfold State.ben
  split
  · rename_i h
    simp [h, ones, Nat.testBit_two_pow_sub_one]
  · rename_i h
    rw [testBit_laneBytes _ _ h8 hp]
    have e : eb / 8 * (0 + wb / eb) = wb / 8 := by
      obtain ⟨m, rfl⟩ := h8
      rw [Nat.zero_add, Nat.mul_div_cancel_left _ (by decide)]
      have : wb = 8 * (m * (wb / (8 * m))) := by rw [← Nat.mul_assoc, hd]
      omega
    rw [e]
    simp only [State.lanePred, h, if_false, bitAt_eq_testBit, Nat.mul_zero, Nat.zero_le, true_and]
    congr 1
    simp [BitVec.testBit_toNat, h]

/-- Elements below a width are those of the value cut to it. -/
theorem element_mod {n W v k : Nat} (h : n * k + n ≤ W) : element n (v % 2 ^ W) k = element n v k := by
  apply BitVec.eq_of_toNat_eq
  simp only [element, BitVec.toNat_ofNat]
  apply Nat.eq_of_testBit_eq
  intro j
  simp only [Nat.testBit_mod_two_pow, Nat.testBit_div_two_pow]
  by_cases hj : j < n
  · simp [hj, show j + n * k < W by omega]
  · simp [hj]

/-- A syllable whose effect is one vector result. -/
theorem perform_vector {s : State} {i : Instr} {body : State → State} {d : BitVec 5} {w : Width} {z : ESize} {v lat : Nat}
    (h : Normal i s) (hr : (s.popPorts i).Room 1) (e : exec i s = perform i s body)
    (hb : body (s.popPorts i) = (s.popPorts i).putVector d.toNat w.bits z.bits v lat) :
    ∃ r, exec i s = .next ((s.popPorts i).withResults [r]) ∧ VectorResult (s.popPorts i) r d w.bits z.bits lat 0 ∧
      r.val.toNat = v % 2 ^ w.bits := by
  obtain ⟨h1, h2, h3, h4, _⟩ := width_elements w z
  have ev : (BitVec.ofNat 1024 (v % 2 ^ w.bits)).toNat = v % 2 ^ w.bits := by
    rw [BitVec.toNat_ofNat]
    exact Nat.mod_eq_of_lt (Nat.lt_of_lt_of_le (Nat.mod_lt _ (Nat.two_pow_pos w.bits)) (Nat.pow_le_pow_right Nat.two_pos h4))
  refine ⟨(s.popPorts i).resultOf 0 (destFile (s.popPorts i) .v d.toNat) d.toNat
    (BitVec.ofNat 128 ((s.popPorts i).ben w.bits z.bits)) (BitVec.ofNat 1024 (v % 2 ^ w.bits))
    (BitVec.ofNat 1024 (v % 2 ^ w.bits)) lat 0, ?_, ⟨?_, ?_, ?_⟩, ev⟩
  · rw [e, perform_normal h, hb, putVector_quiet hr (not_enabled_zero _), undoReads_same (by simp)]
  · simp only [State.vectorFile, destFile]; rfl
  · show BitVec.toNat (BitVec.ofNat 1024 _) < _
    rw [ev]; exact Nat.mod_lt _ (Nat.two_pow_pos _)
  · intro j hj
    exact ben_bits _ _ _ h2 h3 h1 j hj

/-- Element `k` of a value made from two, element by element. -/
theorem element_mapLanes2 (f : Nat → Nat → Nat) (w sz a b k : Nat) (hk : k < w / sz) :
    element sz (mapLanes2 f w sz a b) k = BitVec.ofNat sz (f (element sz a k).toNat (element sz b k).toNat) := by
  unfold mapLanes2
  rw [element_ofLanes _ _ _ (by simp [hk])]
  simp

/-- A member of the vector integer mould (R329). -/
theorem perform_mould {s : State} {i : Instr} {d a b : BitVec 5} {w : Width} {z : ESize} {f : Nat → Nat → Nat → Nat}
    {F : BitVec z.bits → BitVec z.bits → BitVec z.bits} (e : exec i s = perform i s (vecBody f w z d a b))
    (hF : ∀ x y, BitVec.ofNat z.bits (f z.bits x.toNat y.toNat) = F x y) (h : Normal i s) (hr : (s.popPorts i).Room 1) :
    ∃ r, exec i s = .next ((s.popPorts i).withResults [r]) ∧ VectorResult (s.popPorts i) r d w.bits z.bits 2 0 ∧
      ∀ k < w.bits / z.bits, element z.bits r.val.toNat k =
        F (element z.bits ((s.popPorts i).va a.toNat) k) (element z.bits ((s.popPorts i).vb b.toNat) k) := by
  obtain ⟨r, h1, h2, h3⟩ := perform_vector h hr e rfl
  refine ⟨r, h1, h2, fun k hk => ?_⟩
  obtain ⟨g1, _⟩ := width_elements w z
  have : z.bits * k + z.bits ≤ w.bits := by
    rw [← g1, ← Nat.mul_succ]; exact Nat.mul_le_mul_left _ hk
  rw [h3, element_mod this, element_mapLanes2 _ _ _ _ _ _ hk, hF]

end Machine
end Sys2Proof
end

