-- ==== Sys2Proof/Laws/Ops.lean ====
section
/-! SUPPORT. Laws of the shared operations: what each can change, said once, and that it keeps the canonical form. -/
namespace Sys2Proof.Machine

/-! ### Flags and landings -/

/-- Flags reach status CSRs, with the cycle of FEVT, and nothing else. -/
theorem raiseFlags_eq (x : Ctx) (cycle fslot baddr pos : Nat) (f : Flags) :
    ∃ t n, x.raiseFlags cycle fslot baddr pos f = { x with csr := t, fevtAt := n } := by
  unfold Ctx.raiseFlags Ctx.statusOr Ctx.statusSet
  split
  · exact ⟨_, _, rfl⟩
  · dsimp only; split <;> split <;> exact ⟨_, _, rfl⟩

/-- So do the flags of a list. -/
theorem landFlags_eq (cycle : Nat) (l : List FlagDue) (x : Ctx) : ∃ t n, x.landFlags cycle l = { x with csr := t, fevtAt := n } := by
  induction l generalizing x with
  | nil => exact ⟨_, _, rfl⟩
  | cons r l ih =>
    obtain ⟨t, n, h⟩ := raiseFlags_eq x cycle r.fslot r.baddr r.pos r.flags
    obtain ⟨t', n', h'⟩ := ih (x.raiseFlags cycle r.fslot r.baddr r.pos r.flags)
    exact ⟨t', n', by rw [Ctx.landFlags, List.foldl_cons, ← Ctx.landFlags, h', h]⟩

/-- A latch's landing changes the latches and nothing else. -/
theorem landLatch_eq (x : Ctx) (r : Result) : ∃ l n, x.landLatch r = { x with latch := l, latchAt := n } := by
  unfold Ctx.landLatch; split
  · split <;> exact ⟨_, _, rfl⟩
  · exact ⟨_, _, rfl⟩

/-- A value's landing changes faces and the list of this phase's landings, and nothing else. -/
theorem landValue_eq (x : Ctx) (r : Result) : ∃ a b c d e m,
    x.landValue r = { x with s := a, v := b, p := c, e := d, csr := e, landed := m } := by
  have hd : ∀ y : Ctx, ∃ u, y.doubleWrite r = { y with csr := u } := by
    intro y; unfold Ctx.doubleWrite Ctx.statusOr Ctx.statusSet; dsimp only
    split <;> split <;> exact ⟨_, rfl⟩
  unfold Ctx.landValue
  cases hf : r.file <;> simp only [Ctx.landReg]
  case latch => exact ⟨_, _, _, _, _, _, rfl⟩
  case csr => split <;> exact ⟨_, _, _, _, _, _, rfl⟩
  all_goals
    split
    · exact ⟨_, _, _, _, _, _, rfl⟩
    · exact ⟨_, _, _, _, _, _, (hd _).choose_spec⟩

/-- Landing everything that is due changes faces, latches, this phase's landings and what is still in flight, and nothing
else. -/
theorem landUpTo_eq (x : Ctx) (n cycle : Nat) : ∃ a b c d e l la m i f k, x.landUpTo n cycle =
    { x with s := a, v := b, p := c, e := d, csr := e, latch := l, latchAt := la, landed := m, inflight := i, flagsDue := f, fevtAt := k } := by
  have h1 : ∀ (l : List Result) (y : Ctx), ∃ a b c d e m,
      l.foldl Ctx.landValue y = { y with s := a, v := b, p := c, e := d, csr := e, landed := m } := by
    intro l
    induction l with
    | nil => intro y; exact ⟨_, _, _, _, _, _, rfl⟩
    | cons r l ih =>
      intro y
      obtain ⟨a, b, c, d, e, m, h⟩ := landValue_eq y r
      obtain ⟨a', b', c', d', e', m', h'⟩ := ih (y.landValue r)
      exact ⟨a', b', c', d', e', m', by rw [List.foldl_cons, h', h]⟩
  have h2 : ∀ (l : List Result) (y : Ctx), ∃ t n, l.foldl Ctx.landLatch y = { y with latch := t, latchAt := n } := by
    intro l
    induction l with
    | nil => intro y; exact ⟨_, _, rfl⟩
    | cons r l ih =>
      intro y
      obtain ⟨t, n, h⟩ := landLatch_eq y r
      obtain ⟨t', n', h'⟩ := ih (y.landLatch r)
      exact ⟨t', n', by rw [List.foldl_cons, h', h]⟩
  unfold Ctx.landUpTo
  dsimp only
  generalize hd : (x.inflight.filter fun r => r.dueAt (x.level == 2) n cycle) = due
  generalize hk : (x.inflight.filter fun r => !r.dueAt (x.level == 2) n cycle) = kept
  generalize (x.flagsDue.filter fun f => !f.formed (x.level == 2) n cycle) = left
  obtain ⟨a, b, c, d, e, m, h⟩ := h1 (sortBy Result.before due) { x with inflight := kept, flagsDue := left }
  rw [h]
  obtain ⟨l, la, h⟩ := h2 (sortBy Result.latchBefore due) { x with
    inflight := kept, flagsDue := left, s := a, v := b, p := c, e := d, csr := e, landed := m }
  rw [h]
  obtain ⟨t, k, h⟩ := landFlags_eq cycle (due.map Result.flagDue ++
    x.flagsDue.filter fun f => f.formed (x.level == 2) n cycle) { x with
    inflight := kept, flagsDue := left, s := a, v := b, p := c, e := d, csr := e, landed := m, latch := l, latchAt := la }
  rw [h]
  exact ⟨_, _, _, _, _, _, _, _, _, _, _, rfl⟩

/-- What landing what is due can change. -/
theorem landDue_eq (x : Ctx) (cycle : Nat) : ∃ a b c d e l la m i f k, x.landDue cycle =
    { x with s := a, v := b, p := c, e := d, csr := e, latch := l, latchAt := la, landed := m, inflight := i, flagsDue := f, fevtAt := k } :=
  landUpTo_eq x x.count cycle

/-! ### The flip -/

/-- A register after a flip. -/
theorem get_flipAll {w : Nat} {t : Tab (Face w)} (h : Tab.wf {} t = true) (n : Nat) :
    Tab.get {} (flipAll t) n = (Tab.get {} t n).flip := by
  have h0 : (({} : Face w)).flip = {} := rfl
  induction t with
  | nil => exact h0.symm
  | cons q t ih =>
    obtain ⟨k, f⟩ := q
    obtain ⟨_, h2, h3⟩ := Tab.wf_cons.mp h
    by_cases hk : k = n
    · subst hk
      by_cases hf : f.flip = {}
      · simp only [flipAll, if_pos hf, Tab.get, if_true]
        rw [ih h3, Tab.get_above h2 (Nat.le_refl _), h0, hf]
      · simp only [flipAll, if_neg hf, Tab.get, if_true]
    · by_cases hf : f.flip = {}
      · simp only [flipAll, if_pos hf, Tab.get, if_neg hk, ih h3]
      · simp only [flipAll, if_neg hf, Tab.get, if_neg hk, ih h3]

/-- A flip keeps the numbers of a file above a bound. -/
theorem above_flipAll {w n : Nat} {t : Tab (Face w)} (h : Tab.above n t) : Tab.above n (flipAll t) := by
  induction t with
  | nil => exact h
  | cons q t ih =>
    obtain ⟨k, f⟩ := q
    have ht : Tab.above n t := fun r hr => h r (List.mem_cons_of_mem _ hr)
    simp only [flipAll]
    split
    · exact ih ht
    · intro r hr
      rcases List.mem_cons.mp hr with rfl | hr
      · exact h (k, f) (List.mem_cons_self ..)
      · exact ih ht r hr

/-- A flip keeps the canonical form of a file. -/
theorem wf_flipAll {w : Nat} {t : Tab (Face w)} (h : Tab.wf {} t = true) : Tab.wf {} (flipAll t) = true := by
  induction t with
  | nil => rfl
  | cons q t ih =>
    obtain ⟨k, f⟩ := q
    obtain ⟨_, h2, h3⟩ := Tab.wf_cons.mp h
    simp only [flipAll]
    split
    · exact ih h3
    · exact Tab.wf_cons.mpr ⟨‹_›, above_flipAll h2, ih h3⟩

/-! ### Traps -/

@[simp] theorem takeTrap_run (x : Ctx) (n : Nat) (r : Raised) (b p d : Nat) (f : Bool) : (x.takeTrap n r b p d f).run = .stopping := rfl
@[simp] theorem takeTrap_pc (x : Ctx) (n : Nat) (r : Raised) (b p d : Nat) (f : Bool) : (x.takeTrap n r b p d f).pc = x.pc := rfl
@[simp] theorem takeTrap_s (x : Ctx) (n : Nat) (r : Raised) (b p d : Nat) (f : Bool) : (x.takeTrap n r b p d f).s = x.s := rfl
@[simp] theorem takeTrap_v (x : Ctx) (n : Nat) (r : Raised) (b p d : Nat) (f : Bool) : (x.takeTrap n r b p d f).v = x.v := rfl
@[simp] theorem takeTrap_p (x : Ctx) (n : Nat) (r : Raised) (b p d : Nat) (f : Bool) : (x.takeTrap n r b p d f).p = x.p := rfl
@[simp] theorem takeTrap_e (x : Ctx) (n : Nat) (r : Raised) (b p d : Nat) (f : Bool) : (x.takeTrap n r b p d f).e = x.e := rfl
@[simp] theorem takeTrap_csr (x : Ctx) (n : Nat) (r : Raised) (b p d : Nat) (f : Bool) : (x.takeTrap n r b p d f).csr = x.csr := rfl
@[simp] theorem takeTrap_latch (x : Ctx) (n : Nat) (r : Raised) (b p d : Nat) (f : Bool) : (x.takeTrap n r b p d f).latch = x.latch := rfl
@[simp] theorem takeTrap_count (x : Ctx) (n : Nat) (r : Raised) (b p d : Nat) (f : Bool) : (x.takeTrap n r b p d f).count = x.count := rfl
@[simp] theorem takeTrap_inflight (x : Ctx) (n : Nat) (r : Raised) (b p d : Nat) (f : Bool) :
    (x.takeTrap n r b p d f).inflight = x.inflight := rfl
@[simp] theorem takeTrap_stop (x : Ctx) (n : Nat) (r : Raised) (b p d : Nat) (f : Bool) : (x.takeTrap n r b p d f).stop =
    some { raised := r, baddr := b, rpc := p, done := d, hnd := x.inHandler, fwait := f, at_ := n } := rfl

/-- A bundle in which some trap was raised has a first one. -/
theorem firstRaised_none {l : List Raised} : firstRaised l = none ↔ l = [] := by
  cases l with
  | nil => simp [firstRaised]
  | cons r t =>
    simp only [firstRaised, reduceCtorEq, iff_false]
    split
    · simp
    · split <;> simp

/-! ### Packets to outside -/

/-- What a packet sent to outside can change. -/
theorem sendTo_eq (s : State) (d : Nat) (w : Word64) (b : List Word64) : ∃ l, s.sendTo d w b = { s with sent := l } := by
  unfold State.sendTo; split <;> exact ⟨_, rfl⟩

/-- What an event for the owner can change. -/
theorem notify_eq (s : State) (a b c d : Nat) (l : List Word64) :
    ∃ x y n, s.notify a b c d l = { s with sent := x, kept := y, dropped := n } := by
  unfold State.notify
  split
  · obtain ⟨x, h⟩ := sendTo_eq s _ (eventD0 a b c d) l
    exact ⟨x, _, _, h⟩
  · split <;> exact ⟨_, _, _, rfl⟩

/-! ### Commits -/

/-- What a commit at the vaults can change. -/
theorem vaultCommit_eq (s : State) (i : Inst) (l : List (Nat × Byte)) : ∃ b p c y d, s.vaultCommit i l =
    { s with dram := Memory.writeAll s.dram (lastBytes l), badDram := b, poisoned := p, commits := c, sysCommits := y, devCommits := d } := by
  unfold State.vaultCommit
  dsimp only
  split <;> exact ⟨_, _, _, _, _, rfl⟩

/-- What a flush of some unflushed bytes can change beside memory. -/
theorem dropUnflushed_eq (s : State) (l : List Nat) : ∃ c, s.dropUnflushed l = { s with clusters := c } := by
  unfold State.dropUnflushed
  generalize s.clusters = k
  induction k generalizing s with
  | nil => exact ⟨_, rfl⟩
  | cons q k ih =>
    rw [List.foldl_cons]
    dsimp only
    split
    · obtain ⟨c, h⟩ := ih (s.updCluster q.1 fun y => { y with unflushed := y.unflushed.filter fun u => !l.contains u.loc })
      exact ⟨c, by rw [h]; rfl⟩
    · exact ih s

/-- What a line's poison that follows it to memory can change. -/
theorem carryPoison_eq (s : State) (k : Nat) (l : List Nat) : ∃ p c, s.carryPoison k l = { s with poisoned := p, clusters := c } := by
  unfold State.carryPoison
  dsimp only
  split <;> exact ⟨_, _, rfl⟩

theorem carryAll_eq (l : List (Nat × List Nat)) (s : State) : ∃ p c, s.carryAll l = { s with poisoned := p, clusters := c } := by
  induction l generalizing s with
  | nil => exact ⟨_, _, rfl⟩
  | cons q l ih =>
    obtain ⟨p, c, h⟩ := carryPoison_eq s q.1 q.2
    obtain ⟨p', c', h'⟩ := ih (s.carryPoison q.1 q.2)
    exact ⟨p', c', by rw [State.carryAll, List.foldl_cons, ← State.carryAll, h', h]⟩

/-- What a commit at the vaults can change, with what it overtakes. -/
theorem deviceCommit_eq (s : State) (i : Inst) (l : List (Nat × Byte)) : ∃ m b p c y d k t, s.deviceCommit i l =
    { s with dram := m, badDram := b, poisoned := p, commits := c, sysCommits := y, devCommits := d, clusters := k, tags := t } := by
  have hf : ∃ m b p c y d k, s.flushAt (l.map Prod.fst) =
      { s with dram := m, badDram := b, poisoned := p, commits := c, sysCommits := y, devCommits := d, clusters := k } := by
    unfold State.flushAt
    dsimp only
    generalize s.flushSet (l.map Prod.fst) = locs
    split
    · exact ⟨_, _, _, _, _, _, _, rfl⟩
    · obtain ⟨k, hk⟩ := dropUnflushed_eq s locs
      obtain ⟨b, p, c, y, d, hv⟩ := vaultCommit_eq (s.dropUnflushed locs) .device
        ((s.unflushedAt locs).map fun u => (u.loc, u.byte))
      obtain ⟨p', k', hc⟩ := carryAll_eq (s.poisonedAt locs) ((s.dropUnflushed locs).vaultCommit .device
        ((s.unflushedAt locs).map fun u => (u.loc, u.byte)))
      exact ⟨_, b, p', c, y, d, k', by rw [hc, hv, hk]⟩
  obtain ⟨m, b, p, c, y, d, k, hf⟩ := hf
  obtain ⟨b', p', c', y', d', hv⟩ := vaultCommit_eq (s.flushAt (l.map Prod.fst)) i l
  unfold State.deviceCommit State.resetTags
  rw [hv, hf]
  exact ⟨_, _, _, _, _, _, _, _, rfl⟩

/-- What a commit at a cluster's cache can change. -/
theorem clusterCommit_eq (s : State) (k : Nat) (l : List (Nat × Byte)) (access : Nat → Nat) :
    ∃ c m, s.clusterCommit k l access = { s with clusters := c, commits := m } := by
  unfold State.clusterCommit
  exact ⟨_, _, rfl⟩

/-! ### The canonical form -/

section Canon
variable {s : State}

theorem canonical_setCtx (h : s.Canonical) (c : Nat) (x : Ctx) : (s.setCtx c x).Canonical :=
  { h with ctxs := Tab.wf_set h.ctxs c x }
theorem canonical_updCtx (h : s.Canonical) (c : Nat) (f : Ctx → Ctx) : (s.updCtx c f).Canonical := canonical_setCtx h c _
theorem canonical_updCur (h : s.Canonical) (f : Ctx → Ctx) : (s.updCur f).Canonical := canonical_setCtx h _ _
theorem canonical_setCore (h : s.Canonical) (c : Nat) (x : CoreSt) : (s.setCore c x).Canonical :=
  { h with cores := Tab.wf_set h.cores c x }
theorem canonical_updCore (h : s.Canonical) (c : Nat) (f : CoreSt → CoreSt) : (s.updCore c f).Canonical := canonical_setCore h c _
theorem canonical_setCluster (h : s.Canonical) (c : Nat) (x : Cluster) : (s.setCluster c x).Canonical :=
  { h with clusters := Tab.wf_set h.clusters c x }
theorem canonical_updCluster (h : s.Canonical) (c : Nat) (f : Cluster → Cluster) : (s.updCluster c f).Canonical :=
  canonical_setCluster h c _
theorem canonical_setPart (h : s.Canonical) (c : Nat) (x : Part) : (s.setPart c x).Canonical :=
  { h with parts := Tab.wf_set h.parts c x }
theorem canonical_updPart (h : s.Canonical) (c : Nat) (f : Part → Part) : (s.updPart c f).Canonical := canonical_setPart h c _
theorem canonical_updQueue (h : s.Canonical) (p q : Nat) (f : Queue → Queue) : (s.updQueue p q f).Canonical :=
  canonical_updPart h p _

theorem canonical_raise (h : s.Canonical) (c : Cause) (n m k : Nat) : (s.raise c n m k).Canonical := { h with }

theorem canonical_sendTo (h : s.Canonical) (d : Nat) (w : Word64) (b : List Word64) : (s.sendTo d w b).Canonical := by
  obtain ⟨l, e⟩ := sendTo_eq s d w b
  rw [e]; exact { h with }

theorem canonical_notify (h : s.Canonical) (a b c d : Nat) (l : List Word64) : (s.notify a b c d l).Canonical := by
  obtain ⟨x, y, n, e⟩ := notify_eq s a b c d l
  rw [e]; exact { h with }

theorem canonical_vaultCommit (h : s.Canonical) (i : Inst) (l : List (Nat × Byte)) : (s.vaultCommit i l).Canonical := by
  obtain ⟨b, p, c, y, d, e⟩ := vaultCommit_eq s i l
  rw [e]; exact { h with dram := Memory.wf_writeAll h.dram _ }

theorem canonical_resetTags (h : s.Canonical) (l : List (Nat × Byte)) : (s.resetTags l).Canonical :=
  { h with tags := Tab.wf_foldl _ (fun _ _ ht => Tab.wf_set ht _ _) _ h.tags }

theorem canonical_dropUnflushed (h : s.Canonical) (l : List Nat) : (s.dropUnflushed l).Canonical := by
  unfold State.dropUnflushed
  generalize s.clusters = k
  induction k generalizing s with
  | nil => exact h
  | cons q k ih =>
    rw [List.foldl_cons]
    dsimp only
    split
    · exact ih (canonical_updCluster h _ _)
    · exact ih h

theorem canonical_carryPoison (h : s.Canonical) (k : Nat) (l : List Nat) : (s.carryPoison k l).Canonical := by
  unfold State.carryPoison
  dsimp only
  split
  · exact h
  · refine canonical_updCluster ?_ _ _
    exact { h with }

theorem canonical_carryAll (h : s.Canonical) (l : List (Nat × List Nat)) : (s.carryAll l).Canonical := by
  induction l generalizing s with
  | nil => exact h
  | cons q l ih => exact ih (canonical_carryPoison h q.1 q.2)

theorem canonical_flushAt (h : s.Canonical) (l : List Nat) : (s.flushAt l).Canonical := by
  unfold State.flushAt
  dsimp only
  split
  · exact h
  · exact canonical_carryAll (canonical_vaultCommit (canonical_dropUnflushed h _) _ _) _

theorem canonical_deviceCommit (h : s.Canonical) (i : Inst) (l : List (Nat × Byte)) : (s.deviceCommit i l).Canonical :=
  canonical_resetTags (canonical_vaultCommit (canonical_flushAt h _) i l) l

theorem canonical_clusterCommit (h : s.Canonical) (k : Nat) (l : List (Nat × Byte)) (access : Nat → Nat) :
    (s.clusterCommit k l access).Canonical := by
  obtain ⟨y, m, e⟩ : ∃ y m, s.clusterCommit k l access = { s.setCluster k y with commits := m } := ⟨_, _, rfl⟩
  rw [e]; exact { canonical_setCluster h k y with }

theorem canonical_sendRemote (h : s.Canonical) (l : List (Nat × Byte)) : (s.sendRemote l).Canonical := by
  unfold State.sendRemote
  split
  · exact h
  · exact { h with remote := Tab.wf_foldl _ (fun _ _ ht => Tab.wf_set ht _ _) _ h.remote }

theorem canonical_release (h : s.Canonical) (c : Nat) (p : PScope) : (s.release c p).Canonical := by
  unfold State.release
  cases p <;> dsimp only
  · exact h
  · exact canonical_updCtx (canonical_clusterCommit h _ _ _) _ _
  · exact canonical_updCtx (canonical_carryPoison (canonical_deviceCommit (canonical_updCluster h _ _) _ _) _ _) _ _
  · exact canonical_updCtx (canonical_sendRemote
      (canonical_carryPoison (canonical_deviceCommit (canonical_updCluster h _ _) _ _) _ _) _) _ _

theorem canonical_acquire (h : s.Canonical) (c : Nat) : (s.acquire c).Canonical := by
  unfold State.acquire State.acquireView
  exact canonical_updCore (canonical_updCtx h _ _) _ _

theorem canonical_dropReadOnly (h : s.Canonical) (c : Nat) : (s.dropReadOnly c).Canonical := by
  unfold State.dropReadOnly
  exact canonical_updCluster (canonical_updCtx h _ _) _ _

theorem canonical_addPending (h : s.Canonical) (l : List (Nat × Byte)) : (s.addPending l).Canonical := canonical_updCur h _

/-- Work done on a list of things keeps the canonical form when each piece of it does. -/
theorem canonical_foldl {β : Type} (f : State → β → State) (hf : ∀ t b, t.Canonical → (f t b).Canonical) (l : List β)
    (h : s.Canonical) : (l.foldl f s).Canonical := by
  induction l generalizing s with
  | nil => exact h
  | cons b l ih => exact ih (hf s b h)

end Canon

end Sys2Proof.Machine
end

