-- ==== Sys2Proof/Laws/PerInstr.lean ====
section
/-! SUPPORT. The word of every instruction, constructor by constructor: it is 32 bits, and its class and guard stand at bits
[31:28] and [27:25] (04 R75). -/
namespace Sys2Proof.Laws.EncodeWord
open Sys2Proof Sys2Proof.Machine Sys2Proof.Encode
set_option Elab.async false

/-- The word of an instruction is 32 bits with its class and its guard in their places; a step without a syllable has word 0. -/
def Statement (i : Instr) : Prop :=
  encode i < 2 ^ 32 ∧ bits (encode i) 31 28 = classOf i ∧ bits (encode i) 27 25 = (guardOf i).toNat

theorem width_lt (x : Width) : width x < 3 := by cases x <;> decide
theorem esize_lt (x : ESize) : esize x < 4 := by cases x <;> decide
theorem ffmt_lt (x : FFmt) : ffmt x < 4 := by cases x <;> decide
theorem cfmt_lt (x : CFmt) : cfmt x < 8 := by cases x <;> decide
theorem cond_lt (x : Cond) : cond x < 8 := by cases x <;> decide
theorem fcond_lt (x : FCond) : fcond x < 8 := by cases x <;> decide
theorem rnd_lt (x : Rnd) : rnd x < 4 := by cases x <;> decide
theorem asize_lt (x : ASize) : asize x < 7 := by cases x <;> decide
theorem atomOp_lt (x : AtomOp) : atomOp x < 8 := by cases x <;> decide
theorem bscope_lt (x : BScope) : bscope x < 3 := by cases x <;> decide
theorem pscope_lt (x : PScope) : pscope x < 4 := by cases x <;> decide
theorem qsize_lt (x : QSize) : qsize x < 3 := by cases x <;> decide
theorem flag_lt (b : Bool) : flag b < 2 := by cases b <;> decide

/-- A word between the first and the last of a class and a guard. -/
theorem of_range {i : Instr} (h : classOf i * 2 ^ 28 + (guardOf i).toNat * 2 ^ 25 ≤ encode i)
    (h' : encode i < classOf i * 2 ^ 28 + (guardOf i).toNat * 2 ^ 25 + 2 ^ 25) : Statement i := by
  have := (guardOf i).isLt
  have : classOf i < 16 := by unfold classOf; split <;> decide
  simp only [Statement, bits]
  omega

theorem of_step {i : Instr} (h : encode i = 0) (hc : classOf i = 0) (hg : guardOf i = 0) : Statement i := by
  rw [Statement, h, hc, hg]
  decide

theorem add (g : BitVec 3) (d : BitVec 6) (a : BitVec 6) (b : BitVec 6) (i : Bool) : Statement (.add g d a b i) := by
  have := g.isLt
  have := d.isLt
  have := a.isLt
  have := b.isLt
  have := flag_lt i
  refine of_range ?_ ?_ <;> simp only [encode, classOf, guardOf, op6, dabi] <;> omega
theorem sub (g : BitVec 3) (d : BitVec 6) (a : BitVec 6) (b : BitVec 6) (i : Bool) : Statement (.sub g d a b i) := by
  have := g.isLt
  have := d.isLt
  have := a.isLt
  have := b.isLt
  have := flag_lt i
  refine of_range ?_ ?_ <;> simp only [encode, classOf, guardOf, op6, dabi] <;> omega
theorem mul (g : BitVec 3) (d : BitVec 6) (a : BitVec 6) (b : BitVec 6) (i : Bool) : Statement (.mul g d a b i) := by
  have := g.isLt
  have := d.isLt
  have := a.isLt
  have := b.isLt
  have := flag_lt i
  refine of_range ?_ ?_ <;> simp only [encode, classOf, guardOf, op6, dabi] <;> omega
theorem mulh (g : BitVec 3) (d : BitVec 6) (a : BitVec 6) (b : BitVec 6) (i : Bool) : Statement (.mulh g d a b i) := by
  have := g.isLt
  have := d.isLt
  have := a.isLt
  have := b.isLt
  have := flag_lt i
  refine of_range ?_ ?_ <;> simp only [encode, classOf, guardOf, op6, dabi] <;> omega
theorem mulhu (g : BitVec 3) (d : BitVec 6) (a : BitVec 6) (b : BitVec 6) (i : Bool) : Statement (.mulhu g d a b i) := by
  have := g.isLt
  have := d.isLt
  have := a.isLt
  have := b.isLt
  have := flag_lt i
  refine of_range ?_ ?_ <;> simp only [encode, classOf, guardOf, op6, dabi] <;> omega
theorem div (g : BitVec 3) (d : BitVec 6) (a : BitVec 6) (b : BitVec 6) (i : Bool) : Statement (.div g d a b i) := by
  have := g.isLt
  have := d.isLt
  have := a.isLt
  have := b.isLt
  have := flag_lt i
  refine of_range ?_ ?_ <;> simp only [encode, classOf, guardOf, op6, dabi] <;> omega
theorem rem (g : BitVec 3) (d : BitVec 6) (a : BitVec 6) (b : BitVec 6) (i : Bool) : Statement (.rem g d a b i) := by
  have := g.isLt
  have := d.isLt
  have := a.isLt
  have := b.isLt
  have := flag_lt i
  refine of_range ?_ ?_ <;> simp only [encode, classOf, guardOf, op6, dabi] <;> omega
theorem and (g : BitVec 3) (d : BitVec 6) (a : BitVec 6) (b : BitVec 6) (i : Bool) : Statement (.and g d a b i) := by
  have := g.isLt
  have := d.isLt
  have := a.isLt
  have := b.isLt
  have := flag_lt i
  refine of_range ?_ ?_ <;> simp only [encode, classOf, guardOf, op6, dabi] <;> omega
theorem or (g : BitVec 3) (d : BitVec 6) (a : BitVec 6) (b : BitVec 6) (i : Bool) : Statement (.or g d a b i) := by
  have := g.isLt
  have := d.isLt
  have := a.isLt
  have := b.isLt
  have := flag_lt i
  refine of_range ?_ ?_ <;> simp only [encode, classOf, guardOf, op6, dabi] <;> omega
theorem xor (g : BitVec 3) (d : BitVec 6) (a : BitVec 6) (b : BitVec 6) (i : Bool) : Statement (.xor g d a b i) := by
  have := g.isLt
  have := d.isLt
  have := a.isLt
  have := b.isLt
  have := flag_lt i
  refine of_range ?_ ?_ <;> simp only [encode, classOf, guardOf, op6, dabi] <;> omega
theorem shl (g : BitVec 3) (d : BitVec 6) (a : BitVec 6) (b : BitVec 6) (i : Bool) : Statement (.shl g d a b i) := by
  have := g.isLt
  have := d.isLt
  have := a.isLt
  have := b.isLt
  have := flag_lt i
  refine of_range ?_ ?_ <;> simp only [encode, classOf, guardOf, op6, dabi] <;> omega
theorem shr (g : BitVec 3) (d : BitVec 6) (a : BitVec 6) (b : BitVec 6) (i : Bool) : Statement (.shr g d a b i) := by
  have := g.isLt
  have := d.isLt
  have := a.isLt
  have := b.isLt
  have := flag_lt i
  refine of_range ?_ ?_ <;> simp only [encode, classOf, guardOf, op6, dabi] <;> omega
theorem sra (g : BitVec 3) (d : BitVec 6) (a : BitVec 6) (b : BitVec 6) (i : Bool) : Statement (.sra g d a b i) := by
  have := g.isLt
  have := d.isLt
  have := a.isLt
  have := b.isLt
  have := flag_lt i
  refine of_range ?_ ?_ <;> simp only [encode, classOf, guardOf, op6, dabi] <;> omega
theorem min (g : BitVec 3) (d : BitVec 6) (a : BitVec 6) (b : BitVec 6) (i : Bool) : Statement (.min g d a b i) := by
  have := g.isLt
  have := d.isLt
  have := a.isLt
  have := b.isLt
  have := flag_lt i
  refine of_range ?_ ?_ <;> simp only [encode, classOf, guardOf, op6, dabi] <;> omega
theorem max (g : BitVec 3) (d : BitVec 6) (a : BitVec 6) (b : BitVec 6) (i : Bool) : Statement (.max g d a b i) := by
  have := g.isLt
  have := d.isLt
  have := a.isLt
  have := b.isLt
  have := flag_lt i
  refine of_range ?_ ?_ <;> simp only [encode, classOf, guardOf, op6, dabi] <;> omega
theorem mov (g : BitVec 3) (d : BitVec 6) (a : BitVec 6) (b : BitVec 6) (i : Bool) : Statement (.mov g d a b i) := by
  have := g.isLt
  have := d.isLt
  have := a.isLt
  have := b.isLt
  have := flag_lt i
  refine of_range ?_ ?_ <;> simp only [encode, classOf, guardOf, op6, dabi] <;> omega
theorem sel (g : BitVec 3) (d : BitVec 6) (a : BitVec 6) (b : BitVec 6) (i : Bool) : Statement (.sel g d a b i) := by
  have := g.isLt
  have := d.isLt
  have := a.isLt
  have := b.isLt
  have := flag_lt i
  refine of_range ?_ ?_ <;> simp only [encode, classOf, guardOf, op6, dabi] <;> omega
theorem li (g : BitVec 3) (d : BitVec 6) (imm : BitVec 13) : Statement (.li g d imm) := by
  have := g.isLt
  have := d.isLt
  have := imm.isLt
  refine of_range ?_ ?_ <;> simp only [encode, classOf, guardOf, op6] <;> omega
theorem mve (g : BitVec 3) (d : BitVec 6) (a : BitVec 6) (b : BitVec 6) (i : Bool) : Statement (.mve g d a b i) := by
  have := g.isLt
  have := d.isLt
  have := a.isLt
  have := b.isLt
  have := flag_lt i
  refine of_range ?_ ?_ <;> simp only [encode, classOf, guardOf, op6, dabi] <;> omega
theorem mfe (g : BitVec 3) (d : BitVec 6) (a : BitVec 6) (b : BitVec 6) (i : Bool) : Statement (.mfe g d a b i) := by
  have := g.isLt
  have := d.isLt
  have := a.isLt
  have := b.isLt
  have := flag_lt i
  refine of_range ?_ ?_ <;> simp only [encode, classOf, guardOf, op6, dabi] <;> omega
theorem cmp (g : BitVec 3) (cond : Cond) (d : BitVec 6) (a : BitVec 6) (b : BitVec 6) (i : Bool) : Statement (.cmp g cond d a b i) := by
  have := g.isLt
  have := cond_lt cond
  have := d.isLt
  have := a.isLt
  have := b.isLt
  have := flag_lt i
  refine of_range ?_ ?_ <;> simp only [encode, classOf, guardOf, op6, dabi] <;> omega
theorem nop (g : BitVec 3) : Statement (.nop g) := by
  have := g.isLt
  refine of_range ?_ ?_ <;> simp only [encode, classOf, guardOf, op5] <;> omega
theorem br (g : BitVec 3) (off : BitVec 20) : Statement (.br g off) := by
  have := g.isLt
  have := off.isLt
  refine of_range ?_ ?_ <;> simp only [encode, classOf, guardOf, op5] <;> omega
theorem jmp (g : BitVec 3) (a : BitVec 6) : Statement (.jmp g a) := by
  have := g.isLt
  have := a.isLt
  refine of_range ?_ ?_ <;> simp only [encode, classOf, guardOf, op5] <;> omega
theorem call (g : BitVec 3) (off : BitVec 19) : Statement (.call g off) := by
  have := g.isLt
  have := off.isLt
  refine of_range ?_ ?_ <;> simp only [encode, classOf, guardOf, op5] <;> omega
theorem callReg (g : BitVec 3) (a : BitVec 6) : Statement (.callReg g a) := by
  have := g.isLt
  have := a.isLt
  refine of_range ?_ ?_ <;> simp only [encode, classOf, guardOf, op5] <;> omega
theorem ret (g : BitVec 3) : Statement (.ret g) := by
  have := g.isLt
  refine of_range ?_ ?_ <;> simp only [encode, classOf, guardOf, op5] <;> omega
theorem loop (g : BitVec 3) (lvl : Fin 6) (len : BitVec 4) (cnt : BitVec 6) : Statement (.loop g lvl len cnt) := by
  have := g.isLt
  have := lvl.isLt
  have := len.isLt
  have := cnt.isLt
  refine of_range ?_ ?_ <;> simp only [encode, classOf, guardOf, op5] <;> omega
theorem flip (g : BitVec 3) (bar : BScope) (pub : PScope) : Statement (.flip g bar pub) := by
  have := g.isLt
  have := bscope_lt bar
  have := pscope_lt pub
  refine of_range ?_ ?_ <;> simp only [encode, classOf, guardOf, op5] <;> omega
theorem retire (g : BitVec 3) : Statement (.retire g) := by
  have := g.isLt
  refine of_range ?_ ?_ <;> simp only [encode, classOf, guardOf, op5] <;> omega
theorem trap (g : BitVec 3) (imm : BitVec 8) : Statement (.trap g imm) := by
  have := g.isLt
  have := imm.isLt
  refine of_range ?_ ?_ <;> simp only [encode, classOf, guardOf, op5] <;> omega
theorem bkpt (g : BitVec 3) (imm : BitVec 8) : Statement (.bkpt g imm) := by
  have := g.isLt
  have := imm.isLt
  refine of_range ?_ ?_ <;> simp only [encode, classOf, guardOf, op5] <;> omega
theorem reth (g : BitVec 3) : Statement (.reth g) := by
  have := g.isLt
  refine of_range ?_ ?_ <;> simp only [encode, classOf, guardOf, op5] <;> omega
theorem vadd (g : BitVec 3) (w : Width) (z : ESize) (u : Bool) (d : BitVec 5) (a : BitVec 5) (b : BitVec 5) : Statement (.vadd g w z u d a b) := by
  have := g.isLt
  have := width_lt w
  have := esize_lt z
  have := flag_lt u
  have := d.isLt
  have := a.isLt
  have := b.isLt
  refine of_range ?_ ?_ <;> simp only [encode, classOf, guardOf, op5, dab, wzu] <;> omega
theorem vsub (g : BitVec 3) (w : Width) (z : ESize) (u : Bool) (d : BitVec 5) (a : BitVec 5) (b : BitVec 5) : Statement (.vsub g w z u d a b) := by
  have := g.isLt
  have := width_lt w
  have := esize_lt z
  have := flag_lt u
  have := d.isLt
  have := a.isLt
  have := b.isLt
  refine of_range ?_ ?_ <;> simp only [encode, classOf, guardOf, op5, dab, wzu] <;> omega
theorem vmul (g : BitVec 3) (w : Width) (z : ESize) (u : Bool) (d : BitVec 5) (a : BitVec 5) (b : BitVec 5) : Statement (.vmul g w z u d a b) := by
  have := g.isLt
  have := width_lt w
  have := esize_lt z
  have := flag_lt u
  have := d.isLt
  have := a.isLt
  have := b.isLt
  refine of_range ?_ ?_ <;> simp only [encode, classOf, guardOf, op5, dab, wzu] <;> omega
theorem vmulh (g : BitVec 3) (w : Width) (z : ESize) (u : Bool) (d : BitVec 5) (a : BitVec 5) (b : BitVec 5) : Statement (.vmulh g w z u d a b) := by
  have := g.isLt
  have := width_lt w
  have := esize_lt z
  have := flag_lt u
  have := d.isLt
  have := a.isLt
  have := b.isLt
  refine of_range ?_ ?_ <;> simp only [encode, classOf, guardOf, op5, dab, wzu] <;> omega
theorem vand (g : BitVec 3) (w : Width) (z : ESize) (u : Bool) (d : BitVec 5) (a : BitVec 5) (b : BitVec 5) : Statement (.vand g w z u d a b) := by
  have := g.isLt
  have := width_lt w
  have := esize_lt z
  have := flag_lt u
  have := d.isLt
  have := a.isLt
  have := b.isLt
  refine of_range ?_ ?_ <;> simp only [encode, classOf, guardOf, op5, dab, wzu] <;> omega
theorem vor (g : BitVec 3) (w : Width) (z : ESize) (u : Bool) (d : BitVec 5) (a : BitVec 5) (b : BitVec 5) : Statement (.vor g w z u d a b) := by
  have := g.isLt
  have := width_lt w
  have := esize_lt z
  have := flag_lt u
  have := d.isLt
  have := a.isLt
  have := b.isLt
  refine of_range ?_ ?_ <;> simp only [encode, classOf, guardOf, op5, dab, wzu] <;> omega
theorem vxor (g : BitVec 3) (w : Width) (z : ESize) (u : Bool) (d : BitVec 5) (a : BitVec 5) (b : BitVec 5) : Statement (.vxor g w z u d a b) := by
  have := g.isLt
  have := width_lt w
  have := esize_lt z
  have := flag_lt u
  have := d.isLt
  have := a.isLt
  have := b.isLt
  refine of_range ?_ ?_ <;> simp only [encode, classOf, guardOf, op5, dab, wzu] <;> omega
theorem vshl (g : BitVec 3) (w : Width) (z : ESize) (u : Bool) (d : BitVec 5) (a : BitVec 5) (b : BitVec 5) : Statement (.vshl g w z u d a b) := by
  have := g.isLt
  have := width_lt w
  have := esize_lt z
  have := flag_lt u
  have := d.isLt
  have := a.isLt
  have := b.isLt
  refine of_range ?_ ?_ <;> simp only [encode, classOf, guardOf, op5, dab, wzu] <;> omega
theorem vshr (g : BitVec 3) (w : Width) (z : ESize) (u : Bool) (d : BitVec 5) (a : BitVec 5) (b : BitVec 5) : Statement (.vshr g w z u d a b) := by
  have := g.isLt
  have := width_lt w
  have := esize_lt z
  have := flag_lt u
  have := d.isLt
  have := a.isLt
  have := b.isLt
  refine of_range ?_ ?_ <;> simp only [encode, classOf, guardOf, op5, dab, wzu] <;> omega
theorem vsra (g : BitVec 3) (w : Width) (z : ESize) (u : Bool) (d : BitVec 5) (a : BitVec 5) (b : BitVec 5) : Statement (.vsra g w z u d a b) := by
  have := g.isLt
  have := width_lt w
  have := esize_lt z
  have := flag_lt u
  have := d.isLt
  have := a.isLt
  have := b.isLt
  refine of_range ?_ ?_ <;> simp only [encode, classOf, guardOf, op5, dab, wzu] <;> omega
theorem vmin (g : BitVec 3) (w : Width) (z : ESize) (u : Bool) (d : BitVec 5) (a : BitVec 5) (b : BitVec 5) : Statement (.vmin g w z u d a b) := by
  have := g.isLt
  have := width_lt w
  have := esize_lt z
  have := flag_lt u
  have := d.isLt
  have := a.isLt
  have := b.isLt
  refine of_range ?_ ?_ <;> simp only [encode, classOf, guardOf, op5, dab, wzu] <;> omega
theorem vmax (g : BitVec 3) (w : Width) (z : ESize) (u : Bool) (d : BitVec 5) (a : BitVec 5) (b : BitVec 5) : Statement (.vmax g w z u d a b) := by
  have := g.isLt
  have := width_lt w
  have := esize_lt z
  have := flag_lt u
  have := d.isLt
  have := a.isLt
  have := b.isLt
  refine of_range ?_ ?_ <;> simp only [encode, classOf, guardOf, op5, dab, wzu] <;> omega
theorem vabs (g : BitVec 3) (w : Width) (z : ESize) (u : Bool) (d : BitVec 5) (a : BitVec 5) : Statement (.vabs g w z u d a) := by
  have := g.isLt
  have := width_lt w
  have := esize_lt z
  have := flag_lt u
  have := d.isLt
  have := a.isLt
  refine of_range ?_ ?_ <;> simp only [encode, classOf, guardOf, op5, da, wzu] <;> omega
theorem vsel (g : BitVec 3) (w : Width) (z : ESize) (u : Bool) (d : BitVec 5) (a : BitVec 5) (b : BitVec 5) : Statement (.vsel g w z u d a b) := by
  have := g.isLt
  have := width_lt w
  have := esize_lt z
  have := flag_lt u
  have := d.isLt
  have := a.isLt
  have := b.isLt
  refine of_range ?_ ?_ <;> simp only [encode, classOf, guardOf, op5, dab, wzu] <;> omega
theorem vcnt (g : BitVec 3) (w : Width) (z : ESize) (u : Bool) (d : BitVec 5) (a : BitVec 5) : Statement (.vcnt g w z u d a) := by
  have := g.isLt
  have := width_lt w
  have := esize_lt z
  have := flag_lt u
  have := d.isLt
  have := a.isLt
  refine of_range ?_ ?_ <;> simp only [encode, classOf, guardOf, op5, da, wzu] <;> omega
theorem vredi (g : BitVec 3) (w : Width) (z : ESize) (u : Bool) (d : BitVec 5) (a : BitVec 5) (sel : BitVec 5) : Statement (.vredi g w z u d a sel) := by
  have := g.isLt
  have := width_lt w
  have := esize_lt z
  have := flag_lt u
  have := d.isLt
  have := a.isLt
  have := sel.isLt
  refine of_range ?_ ?_ <;> simp only [encode, classOf, guardOf, op5, dab, wzu] <;> omega
theorem vcmp (g : BitVec 3) (cond : Cond) (w : Width) (z : ESize) (u : Bool) (d : BitVec 3) (a : BitVec 5) (b : BitVec 5) : Statement (.vcmp g cond w z u d a b) := by
  have := g.isLt
  have := cond_lt cond
  have := width_lt w
  have := esize_lt z
  have := flag_lt u
  have := d.isLt
  have := a.isLt
  have := b.isLt
  refine of_range ?_ ?_ <;> simp only [encode, classOf, guardOf, op5, dab, wzu] <;> omega
theorem fadd (g : BitVec 3) (w : Width) (f : FFmt) (sat : Bool) (d : BitVec 5) (a : BitVec 5) (b : BitVec 5) : Statement (.fadd g w f sat d a b) := by
  have := g.isLt
  have := width_lt w
  have := ffmt_lt f
  have := flag_lt sat
  have := d.isLt
  have := a.isLt
  have := b.isLt
  refine of_range ?_ ?_ <;> simp only [encode, classOf, guardOf, op5, dab, wzu] <;> omega
theorem fsub (g : BitVec 3) (w : Width) (f : FFmt) (sat : Bool) (d : BitVec 5) (a : BitVec 5) (b : BitVec 5) : Statement (.fsub g w f sat d a b) := by
  have := g.isLt
  have := width_lt w
  have := ffmt_lt f
  have := flag_lt sat
  have := d.isLt
  have := a.isLt
  have := b.isLt
  refine of_range ?_ ?_ <;> simp only [encode, classOf, guardOf, op5, dab, wzu] <;> omega
theorem fmul (g : BitVec 3) (w : Width) (f : FFmt) (sat : Bool) (d : BitVec 5) (a : BitVec 5) (b : BitVec 5) : Statement (.fmul g w f sat d a b) := by
  have := g.isLt
  have := width_lt w
  have := ffmt_lt f
  have := flag_lt sat
  have := d.isLt
  have := a.isLt
  have := b.isLt
  refine of_range ?_ ?_ <;> simp only [encode, classOf, guardOf, op5, dab, wzu] <;> omega
theorem fma (g : BitVec 3) (w : Width) (f : FFmt) (sat : Bool) (d : BitVec 5) (a : BitVec 5) (b : BitVec 5) : Statement (.fma g w f sat d a b) := by
  have := g.isLt
  have := width_lt w
  have := ffmt_lt f
  have := flag_lt sat
  have := d.isLt
  have := a.isLt
  have := b.isLt
  refine of_range ?_ ?_ <;> simp only [encode, classOf, guardOf, op5, dab, wzu] <;> omega
theorem fmin (g : BitVec 3) (w : Width) (f : FFmt) (sat : Bool) (d : BitVec 5) (a : BitVec 5) (b : BitVec 5) : Statement (.fmin g w f sat d a b) := by
  have := g.isLt
  have := width_lt w
  have := ffmt_lt f
  have := flag_lt sat
  have := d.isLt
  have := a.isLt
  have := b.isLt
  refine of_range ?_ ?_ <;> simp only [encode, classOf, guardOf, op5, dab, wzu] <;> omega
theorem fmax (g : BitVec 3) (w : Width) (f : FFmt) (sat : Bool) (d : BitVec 5) (a : BitVec 5) (b : BitVec 5) : Statement (.fmax g w f sat d a b) := by
  have := g.isLt
  have := width_lt w
  have := ffmt_lt f
  have := flag_lt sat
  have := d.isLt
  have := a.isLt
  have := b.isLt
  refine of_range ?_ ?_ <;> simp only [encode, classOf, guardOf, op5, dab, wzu] <;> omega
theorem fabs (g : BitVec 3) (w : Width) (f : FFmt) (sat : Bool) (d : BitVec 5) (a : BitVec 5) : Statement (.fabs g w f sat d a) := by
  have := g.isLt
  have := width_lt w
  have := ffmt_lt f
  have := flag_lt sat
  have := d.isLt
  have := a.isLt
  refine of_range ?_ ?_ <;> simp only [encode, classOf, guardOf, op5, da, wzu] <;> omega
theorem fneg (g : BitVec 3) (w : Width) (f : FFmt) (sat : Bool) (d : BitVec 5) (a : BitVec 5) : Statement (.fneg g w f sat d a) := by
  have := g.isLt
  have := width_lt w
  have := ffmt_lt f
  have := flag_lt sat
  have := d.isLt
  have := a.isLt
  refine of_range ?_ ?_ <;> simp only [encode, classOf, guardOf, op5, da, wzu] <;> omega
theorem fred (g : BitVec 3) (w : Width) (f : FFmt) (sat : Bool) (d : BitVec 5) (a : BitVec 5) (sel : BitVec 5) : Statement (.fred g w f sat d a sel) := by
  have := g.isLt
  have := width_lt w
  have := ffmt_lt f
  have := flag_lt sat
  have := d.isLt
  have := a.isLt
  have := sel.isLt
  refine of_range ?_ ?_ <;> simp only [encode, classOf, guardOf, op5, dab, wzu] <;> omega
theorem fsca (g : BitVec 3) (w : Width) (f : FFmt) (sat : Bool) (d : BitVec 5) (a : BitVec 5) (b : BitVec 5) : Statement (.fsca g w f sat d a b) := by
  have := g.isLt
  have := width_lt w
  have := ffmt_lt f
  have := flag_lt sat
  have := d.isLt
  have := a.isLt
  have := b.isLt
  refine of_range ?_ ?_ <;> simp only [encode, classOf, guardOf, op5, dab, wzu] <;> omega
theorem fcmp (g : BitVec 3) (cond : FCond) (w : Width) (f : FFmt) (sat : Bool) (d : BitVec 3) (a : BitVec 5) (b : BitVec 5) : Statement (.fcmp g cond w f sat d a b) := by
  have := g.isLt
  have := fcond_lt cond
  have := width_lt w
  have := ffmt_lt f
  have := flag_lt sat
  have := d.isLt
  have := a.isLt
  have := b.isLt
  refine of_range ?_ ?_ <;> simp only [encode, classOf, guardOf, op5, dab, wzu] <;> omega
theorem cvt (g : BitVec 3) (w : Width) (src : CFmt) (d : BitVec 5) (a : BitVec 5) (dst : CFmt) (rnd : Rnd) : Statement (.cvt g w src d a dst rnd) := by
  have := g.isLt
  have := width_lt w
  have := cfmt_lt src
  have := d.isLt
  have := a.isLt
  have := cfmt_lt dst
  have := rnd_lt rnd
  refine of_range ?_ ?_ <;> simp only [encode, classOf, guardOf, op5, da] <;> omega
theorem qnt (g : BitVec 3) (w : Width) (mode : BitVec 2) (d : BitVec 5) (a : BitVec 5) (rnd : Rnd) : Statement (.qnt g w mode d a rnd) := by
  have := g.isLt
  have := width_lt w
  have := mode.isLt
  have := d.isLt
  have := a.isLt
  have := rnd_lt rnd
  have := flag_lt false
  refine of_range ?_ ?_ <;> simp only [encode, classOf, guardOf, op5, da, wzu] <;> omega
theorem dqnt (g : BitVec 3) (w : Width) (mode : BitVec 2) (d : BitVec 5) (a : BitVec 5) : Statement (.dqnt g w mode d a) := by
  have := g.isLt
  have := width_lt w
  have := mode.isLt
  have := d.isLt
  have := a.isLt
  have := flag_lt false
  refine of_range ?_ ?_ <;> simp only [encode, classOf, guardOf, op5, da, wzu] <;> omega
theorem vperm (g : BitVec 3) (w : Width) (z : ESize) (d : BitVec 5) (a : BitVec 5) (b : BitVec 5) : Statement (.vperm g w z d a b) := by
  have := g.isLt
  have := width_lt w
  have := esize_lt z
  have := d.isLt
  have := a.isLt
  have := b.isLt
  have := flag_lt false
  refine of_range ?_ ?_ <;> simp only [encode, classOf, guardOf, op5, dab, wzu] <;> omega
theorem vbcast (g : BitVec 3) (w : Width) (z : ESize) (k : Bool) (d : BitVec 5) (a : BitVec 5) : Statement (.vbcast g w z k d a) := by
  have := g.isLt
  have := width_lt w
  have := esize_lt z
  have := flag_lt k
  have := d.isLt
  have := a.isLt
  refine of_range ?_ ?_ <;> simp only [encode, classOf, guardOf, op5, da, wzu] <;> omega
theorem vseq (g : BitVec 3) (w : Width) (z : ESize) (d : BitVec 5) (a : BitVec 5) (b : BitVec 5) : Statement (.vseq g w z d a b) := by
  have := g.isLt
  have := width_lt w
  have := esize_lt z
  have := d.isLt
  have := a.isLt
  have := b.isLt
  have := flag_lt false
  refine of_range ?_ ?_ <;> simp only [encode, classOf, guardOf, op5, dab, wzu] <;> omega
theorem visect (g : BitVec 3) (w : Width) (z : ESize) (d : BitVec 5) (a : BitVec 5) (b : BitVec 5) : Statement (.visect g w z d a b) := by
  have := g.isLt
  have := width_lt w
  have := esize_lt z
  have := d.isLt
  have := a.isLt
  have := b.isLt
  have := flag_lt false
  refine of_range ?_ ?_ <;> simp only [encode, classOf, guardOf, op5, dab, wzu] <;> omega
theorem vmovp (g : BitVec 3) (w : Width) (toPred : Bool) (d : BitVec 5) (a : BitVec 5) : Statement (.vmovp g w toPred d a) := by
  have := g.isLt
  have := width_lt w
  have := flag_lt toPred
  have := d.isLt
  have := a.isLt
  refine of_range ?_ ?_ <;> simp only [encode, classOf, guardOf, op5, da, wzu] <;> omega
theorem rngc (g : BitVec 3) (w : Width) (z : ESize) (d : BitVec 5) (a : BitVec 5) (b : BitVec 5) : Statement (.rngc g w z d a b) := by
  have := g.isLt
  have := width_lt w
  have := esize_lt z
  have := d.isLt
  have := a.isLt
  have := b.isLt
  have := flag_lt false
  refine of_range ?_ ?_ <;> simp only [encode, classOf, guardOf, op5, dab, wzu] <;> omega
theorem vext (g : BitVec 3) (w : Width) (z : ESize) (d : BitVec 5) (a : BitVec 5) (b : BitVec 5) : Statement (.vext g w z d a b) := by
  have := g.isLt
  have := width_lt w
  have := esize_lt z
  have := d.isLt
  have := a.isLt
  have := b.isLt
  have := flag_lt false
  refine of_range ?_ ?_ <;> simp only [encode, classOf, guardOf, op5, dab, wzu] <;> omega
theorem vins (g : BitVec 3) (w : Width) (z : ESize) (d : BitVec 5) (a : BitVec 5) (b : BitVec 5) : Statement (.vins g w z d a b) := by
  have := g.isLt
  have := width_lt w
  have := esize_lt z
  have := d.isLt
  have := a.isLt
  have := b.isLt
  have := flag_lt false
  refine of_range ?_ ?_ <;> simp only [encode, classOf, guardOf, op5, dab, wzu] <;> omega
theorem fexp2 (g : BitVec 3) (w : Width) (f : FFmt) (d : BitVec 5) (a : BitVec 5) : Statement (.fexp2 g w f d a) := by
  have := g.isLt
  have := width_lt w
  have := ffmt_lt f
  have := d.isLt
  have := a.isLt
  have := flag_lt false
  refine of_range ?_ ?_ <;> simp only [encode, classOf, guardOf, op5, da, wzu] <;> omega
theorem flog2 (g : BitVec 3) (w : Width) (f : FFmt) (d : BitVec 5) (a : BitVec 5) : Statement (.flog2 g w f d a) := by
  have := g.isLt
  have := width_lt w
  have := ffmt_lt f
  have := d.isLt
  have := a.isLt
  have := flag_lt false
  refine of_range ?_ ?_ <;> simp only [encode, classOf, guardOf, op5, da, wzu] <;> omega
theorem frcp (g : BitVec 3) (w : Width) (f : FFmt) (d : BitVec 5) (a : BitVec 5) : Statement (.frcp g w f d a) := by
  have := g.isLt
  have := width_lt w
  have := ffmt_lt f
  have := d.isLt
  have := a.isLt
  have := flag_lt false
  refine of_range ?_ ?_ <;> simp only [encode, classOf, guardOf, op5, da, wzu] <;> omega
theorem frsq (g : BitVec 3) (w : Width) (f : FFmt) (d : BitVec 5) (a : BitVec 5) : Statement (.frsq g w f d a) := by
  have := g.isLt
  have := width_lt w
  have := ffmt_lt f
  have := d.isLt
  have := a.isLt
  have := flag_lt false
  refine of_range ?_ ?_ <;> simp only [encode, classOf, guardOf, op5, da, wzu] <;> omega
theorem fsqrt (g : BitVec 3) (w : Width) (f : FFmt) (d : BitVec 5) (a : BitVec 5) : Statement (.fsqrt g w f d a) := by
  have := g.isLt
  have := width_lt w
  have := ffmt_lt f
  have := d.isLt
  have := a.isLt
  have := flag_lt false
  refine of_range ?_ ?_ <;> simp only [encode, classOf, guardOf, op5, da, wzu] <;> omega
theorem fdiv (g : BitVec 3) (w : Width) (f : FFmt) (d : BitVec 5) (a : BitVec 5) (b : BitVec 5) : Statement (.fdiv g w f d a b) := by
  have := g.isLt
  have := width_lt w
  have := ffmt_lt f
  have := d.isLt
  have := a.isLt
  have := b.isLt
  have := flag_lt false
  refine of_range ?_ ?_ <;> simp only [encode, classOf, guardOf, op5, dab, wzu] <;> omega
theorem ld (g : BitVec 3) (d : BitVec 6) (base : BitVec 6) (imm : BitVec 6) (m : ASize) : Statement (.ld g d base imm m) := by
  have := g.isLt
  have := d.isLt
  have := base.isLt
  have := imm.isLt
  have := asize_lt m
  refine of_range ?_ ?_ <;> simp only [encode, classOf, guardOf, op4, mem] <;> omega
theorem lds (g : BitVec 3) (d : BitVec 6) (base : BitVec 6) (imm : BitVec 6) (m : ASize) : Statement (.lds g d base imm m) := by
  have := g.isLt
  have := d.isLt
  have := base.isLt
  have := imm.isLt
  have := asize_lt m
  refine of_range ?_ ?_ <;> simp only [encode, classOf, guardOf, op4, mem] <;> omega
theorem ldr (g : BitVec 3) (d : BitVec 6) (base : BitVec 6) (imm : BitVec 6) (m : ASize) : Statement (.ldr g d base imm m) := by
  have := g.isLt
  have := d.isLt
  have := base.isLt
  have := imm.isLt
  have := asize_lt m
  refine of_range ?_ ?_ <;> simp only [encode, classOf, guardOf, op4, mem] <;> omega
theorem ldp (g : BitVec 3) (d : BitVec 6) (base : BitVec 6) (win : BitVec 2) (off : BitVec 4) (plies : BitVec 2) (round : Bool) : Statement (.ldp g d base win off plies round) := by
  have := g.isLt
  have := d.isLt
  have := base.isLt
  have := win.isLt
  have := off.isLt
  have := plies.isLt
  have := flag_lt round
  refine of_range ?_ ?_ <;> simp only [encode, classOf, guardOf, op4, Encode.ply] <;> omega
theorem pf (g : BitVec 3) (base : BitVec 6) (imm : BitVec 6) (cluster : Bool) : Statement (.pf g base imm cluster) := by
  have := g.isLt
  have := base.isLt
  have := imm.isLt
  have := flag_lt cluster
  refine of_range ?_ ?_ <;> simp only [encode, classOf, guardOf, op4, mem] <;> omega
theorem qpop (g : BitVec 3) (d : BitVec 6) (m : ASize) : Statement (.qpop g d m) := by
  have := g.isLt
  have := d.isLt
  have := asize_lt m
  refine of_range ?_ ?_ <;> simp only [encode, classOf, guardOf, op4, mem] <;> omega
theorem st (g : BitVec 3) (d : BitVec 6) (base : BitVec 6) (imm : BitVec 6) (m : ASize) : Statement (.st g d base imm m) := by
  have := g.isLt
  have := d.isLt
  have := base.isLt
  have := imm.isLt
  have := asize_lt m
  refine of_range ?_ ?_ <;> simp only [encode, classOf, guardOf, op4, mem] <;> omega
theorem sts (g : BitVec 3) (d : BitVec 6) (base : BitVec 6) (imm : BitVec 6) (m : ASize) : Statement (.sts g d base imm m) := by
  have := g.isLt
  have := d.isLt
  have := base.isLt
  have := imm.isLt
  have := asize_lt m
  refine of_range ?_ ?_ <;> simp only [encode, classOf, guardOf, op4, mem] <;> omega
theorem stp (g : BitVec 3) (d : BitVec 6) (base : BitVec 6) (win : BitVec 2) (off : BitVec 4) (plies : BitVec 2) : Statement (.stp g d base win off plies) := by
  have := g.isLt
  have := d.isLt
  have := base.isLt
  have := win.isLt
  have := off.isLt
  have := plies.isLt
  refine of_range ?_ ?_ <;> simp only [encode, classOf, guardOf, op4, Encode.ply] <;> omega
theorem stq (g : BitVec 3) (d : BitVec 6) (base : BitVec 6) (tag : BitVec 6) (m : ASize) : Statement (.stq g d base tag m) := by
  have := g.isLt
  have := d.isLt
  have := base.isLt
  have := tag.isLt
  have := asize_lt m
  refine of_range ?_ ?_ <;> simp only [encode, classOf, guardOf, op4, mem] <;> omega
theorem atom (g : BitVec 3) (d : BitVec 6) (base : BitVec 6) (old : BitVec 6) (op : AtomOp) : Statement (.atom g d base old op) := by
  have := g.isLt
  have := d.isLt
  have := base.isLt
  have := old.isLt
  have := atomOp_lt op
  refine of_range ?_ ?_ <;> simp only [encode, classOf, guardOf, op4, mem] <;> omega
theorem acas (g : BitVec 3) (d : BitVec 6) (base : BitVec 6) (old : BitVec 6) (dword : Bool) : Statement (.acas g d base old dword) := by
  have := g.isLt
  have := d.isLt
  have := base.isLt
  have := old.isLt
  have := flag_lt dword
  refine of_range ?_ ?_ <;> simp only [encode, classOf, guardOf, op4, mem] <;> omega
theorem pacc (g : BitVec 3) (d : BitVec 6) (base : BitVec 6) (win : BitVec 2) (off : BitVec 4) (sr : Bool) : Statement (.pacc g d base win off sr) := by
  have := g.isLt
  have := d.isLt
  have := base.isLt
  have := win.isLt
  have := off.isLt
  have := flag_lt sr
  refine of_range ?_ ?_ <;> simp only [encode, classOf, guardOf, op4, Encode.ply] <;> omega
theorem pdec (g : BitVec 3) (d : BitVec 6) (base : BitVec 6) (win : BitVec 2) (off : BitVec 4) (sr : Bool) : Statement (.pdec g d base win off sr) := by
  have := g.isLt
  have := d.isLt
  have := base.isLt
  have := win.isLt
  have := off.isLt
  have := flag_lt sr
  refine of_range ?_ ?_ <;> simp only [encode, classOf, guardOf, op4, Encode.ply] <;> omega
theorem qpush (g : BitVec 3) (d : BitVec 6) (z : QSize) : Statement (.qpush g d z) := by
  have := g.isLt
  have := d.isLt
  have := qsize_lt z
  refine of_range ?_ ?_ <;> simp only [encode, classOf, guardOf, op4, mem] <;> omega
theorem stk (g : BitVec 3) (d : BitVec 6) (base : BitVec 6) (imm : BitVec 6) : Statement (.stk g d base imm) := by
  have := g.isLt
  have := d.isLt
  have := base.isLt
  have := imm.isLt
  refine of_range ?_ ?_ <;> simp only [encode, classOf, guardOf, op4, mem] <;> omega
theorem xcfg (g : BitVec 3) (bank : Bool) (pa : BitVec 2) (pb : BitVec 2) (dexp : BitVec 8) : Statement (.xcfg g bank pa pb dexp) := by
  have := g.isLt
  have := flag_lt bank
  have := pa.isLt
  have := pb.isLt
  have := dexp.isLt
  refine of_range ?_ ?_ <;> simp only [encode, classOf, guardOf, op3] <;> omega
theorem xpush (g : BitVec 3) : Statement (.xpush g) := by
  have := g.isLt
  refine of_range ?_ ?_ <;> simp only [encode, classOf, guardOf, op3] <;> omega
theorem xacc (g : BitVec 3) (bank : Bool) : Statement (.xacc g bank) := by
  have := g.isLt
  have := flag_lt bank
  refine of_range ?_ ?_ <;> simp only [encode, classOf, guardOf, op3] <;> omega
theorem xshift (g : BitVec 3) (bank : Bool) : Statement (.xshift g bank) := by
  have := g.isLt
  have := flag_lt bank
  refine of_range ?_ ?_ <;> simp only [encode, classOf, guardOf, op3] <;> omega
theorem xdrain (g : BitVec 3) (bank : Bool) : Statement (.xdrain g bank) := by
  have := g.isLt
  have := flag_lt bank
  refine of_range ?_ ?_ <;> simp only [encode, classOf, guardOf, op3] <;> omega
theorem ecopy (g : BitVec 3) (base : BitVec 5) (cv : Bool) (ev : Bool) (hv : Bool) (nl : BitVec 3) (z : ESize) (evc : BitVec 8) : Statement (.ecopy g base cv ev hv nl z evc) := by
  have := g.isLt
  have := base.isLt
  have := flag_lt cv
  have := flag_lt ev
  have := flag_lt hv
  have := nl.isLt
  have := esize_lt z
  have := evc.isLt
  refine of_range ?_ ?_ <;> simp only [encode, classOf, guardOf, op4, eng] <;> omega
theorem egather (g : BitVec 3) (base : BitVec 5) (cv : Bool) (ev : Bool) (x : Bool) (z : ESize) (evc : BitVec 8) : Statement (.egather g base cv ev x z evc) := by
  have := g.isLt
  have := base.isLt
  have := flag_lt cv
  have := flag_lt ev
  have := flag_lt x
  have := esize_lt z
  have := evc.isLt
  refine of_range ?_ ?_ <;> simp only [encode, classOf, guardOf, op4, eng] <;> omega
theorem ereduce (g : BitVec 3) (base : BitVec 5) (cv : Bool) (ev : Bool) (rop : BitVec 2) (fmt : BitVec 2) (evc : BitVec 8) : Statement (.ereduce g base cv ev rop fmt evc) := by
  have := g.isLt
  have := base.isLt
  have := flag_lt cv
  have := flag_lt ev
  have := rop.isLt
  have := fmt.isLt
  have := evc.isLt
  refine of_range ?_ ?_ <;> simp only [encode, classOf, guardOf, op4, eng] <;> omega
theorem epage (g : BitVec 3) (base : BitVec 5) (cv : Bool) (ev : Bool) (dir : Bool) (k : BitVec 2) (slot : BitVec 2) (dict : Bool) (evc : BitVec 8) : Statement (.epage g base cv ev dir k slot dict evc) := by
  have := g.isLt
  have := base.isLt
  have := flag_lt cv
  have := flag_lt ev
  have := flag_lt dir
  have := k.isLt
  have := slot.isLt
  have := flag_lt dict
  have := evc.isLt
  refine of_range ?_ ?_ <;> simp only [encode, classOf, guardOf, op4, eng] <;> omega
theorem edict (g : BitVec 3) (base : BitVec 5) (cv : Bool) (ev : Bool) (slot : BitVec 2) (evc : BitVec 8) : Statement (.edict g base cv ev slot evc) := by
  have := g.isLt
  have := base.isLt
  have := flag_lt cv
  have := flag_lt ev
  have := slot.isLt
  have := evc.isLt
  refine of_range ?_ ?_ <;> simp only [encode, classOf, guardOf, op4, eng] <;> omega
theorem csrr (g : BitVec 3) (d : BitVec 6) (csr : BitVec 13) : Statement (.csrr g d csr) := by
  have := g.isLt
  have := d.isLt
  have := csr.isLt
  refine of_range ?_ ?_ <;> simp only [encode, classOf, guardOf, op6] <;> omega
theorem csrw (g : BitVec 3) (src : BitVec 6) (csr : BitVec 13) : Statement (.csrw g src csr) := by
  have := g.isLt
  have := src.isLt
  have := csr.isLt
  refine of_range ?_ ?_ <;> simp only [encode, classOf, guardOf, op6] <;> omega
theorem flags (g : BitVec 3) (d : BitVec 6) (clear : Bool) (slot : BitVec 4) : Statement (.flags g d clear slot) := by
  have := g.isLt
  have := d.isLt
  have := flag_lt clear
  have := slot.isLt
  refine of_range ?_ ?_ <;> simp only [encode, classOf, guardOf, op6] <;> omega
theorem versw (g : BitVec 3) : Statement (.versw g) := by
  have := g.isLt
  refine of_range ?_ ?_ <;> simp only [encode, classOf, guardOf, op6] <;> omega
theorem verswNamed (g : BitVec 3) (src : BitVec 6) : Statement (.verswNamed g src) := by
  have := g.isLt
  have := src.isLt
  refine of_range ?_ ?_ <;> simp only [encode, classOf, guardOf, op6] <;> omega
theorem verpub (g : BitVec 3) (d : BitVec 6) : Statement (.verpub g d) := by
  have := g.isLt
  have := d.isLt
  refine of_range ?_ ?_ <;> simp only [encode, classOf, guardOf, op6] <;> omega
theorem qarm (g : BitVec 3) (port : BitVec 3) (base : BitVec 5) : Statement (.qarm g port base) := by
  have := g.isLt
  have := port.isLt
  have := base.isLt
  refine of_range ?_ ?_ <;> simp only [encode, classOf, guardOf, op6] <;> omega
theorem variableResultLand (c : Nat) (n : Nat) : Statement (.variableResultLand c n) := of_step rfl rfl rfl
theorem lateFaultReport (c : Nat) : Statement (.lateFaultReport c) := of_step rfl rfl rfl
theorem verpubStep (n : Nat) : Statement (.verpubStep n) := of_step rfl rfl rfl
theorem verswStep (n : Nat) : Statement (.verswStep n) := of_step rfl rfl rfl
theorem translationWalkComplete (n : Nat) : Statement (.translationWalkComplete n) := of_step rfl rfl rfl
theorem walkerStart (cluster : Nat) : Statement (.walkerStart cluster) := of_step rfl rfl rfl
theorem flipRelease (c : Nat) : Statement (.flipRelease c) := of_step rfl rfl rfl
theorem flipExchange (c : Nat) : Statement (.flipExchange c) := of_step rfl rfl rfl
theorem taskStart (c : Nat) : Statement (.taskStart c) := of_step rfl rfl rfl
theorem contextFree (c : Nat) : Statement (.contextFree c) := of_step rfl rfl rfl
theorem handlerEntry (c : Nat) : Statement (.handlerEntry c) := of_step rfl rfl rfl
theorem packetArrival (pk : Packet) : Statement (.packetArrival pk) := of_step rfl rfl rfl
theorem launch (p : Nat) (q : Nat) : Statement (.launch p q) := of_step rfl rfl rfl
theorem kernelDispatch (p : Nat) : Statement (.kernelDispatch p) := of_step rfl rfl rfl
theorem contextStart (c : Nat) : Statement (.contextStart c) := of_step rfl rfl rfl
theorem copy (p : Nat) (q : Nat) : Statement (.copy p q) := of_step rfl rfl rfl
theorem copyComplete (p : Nat) (q : Nat) : Statement (.copyComplete p q) := of_step rfl rfl rfl
theorem depEvent (p : Nat) (q : Nat) : Statement (.depEvent p q) := of_step rfl rfl rfl
theorem depPageSet (p : Nat) (q : Nat) : Statement (.depPageSet p q) := of_step rfl rfl rfl
theorem depComplete (p : Nat) (q : Nat) : Statement (.depComplete p q) := of_step rfl rfl rfl
theorem signal (p : Nat) (q : Nat) : Statement (.signal p q) := of_step rfl rfl rfl
theorem setdetQueue (p : Nat) (q : Nat) : Statement (.setdetQueue p q) := of_step rfl rfl rfl
theorem setdetPartition (p : Nat) (q : Nat) : Statement (.setdetPartition p q) := of_step rfl rfl rfl
theorem setdetComplete (p : Nat) (q : Nat) : Statement (.setdetComplete p q) := of_step rfl rfl rfl
theorem publish (p : Nat) (q : Nat) : Statement (.publish p q) := of_step rfl rfl rfl
theorem captureStart (p : Nat) (q : Nat) : Statement (.captureStart p q) := of_step rfl rfl rfl
theorem captureStop (p : Nat) (q : Nat) : Statement (.captureStop p q) := of_step rfl rfl rfl
theorem captureResume (p : Nat) (q : Nat) : Statement (.captureResume p q) := of_step rfl rfl rfl
theorem capturePageWrite (region : Nat) : Statement (.capturePageWrite region) := of_step rfl rfl rfl
theorem markOn (p : Nat) (q : Nat) : Statement (.markOn p q) := of_step rfl rfl rfl
theorem markOff (p : Nat) (q : Nat) : Statement (.markOff p q) := of_step rfl rfl rfl
theorem markDecl (p : Nat) (q : Nat) : Statement (.markDecl p q) := of_step rfl rfl rfl
theorem markSnap (p : Nat) (q : Nat) : Statement (.markSnap p q) := of_step rfl rfl rfl
theorem markMode (p : Nat) (q : Nat) : Statement (.markMode p q) := of_step rfl rfl rfl
theorem resync (pk : Packet) : Statement (.resync pk) := of_step rfl rfl rfl
theorem ownerClaim (pk : Packet) : Statement (.ownerClaim pk) := of_step rfl rfl rfl
theorem ownerHandover (pk : Packet) : Statement (.ownerHandover pk) := of_step rfl rfl rfl
theorem ownerRenew (pk : Packet) : Statement (.ownerRenew pk) := of_step rfl rfl rfl
theorem ownerRelease (pk : Packet) : Statement (.ownerRelease pk) := of_step rfl rfl rfl
theorem electionClose : Statement (.electionClose ) := of_step rfl rfl rfl
theorem leaseExpiry : Statement (.leaseExpiry ) := of_step rfl rfl rfl
theorem engineChunkPerform (n : Nat) : Statement (.engineChunkPerform n) := of_step rfl rfl rfl
theorem engineComplete (n : Nat) : Statement (.engineComplete n) := of_step rfl rfl rfl
theorem taggedWriteArrive (n : Nat) : Statement (.taggedWriteArrive n) := of_step rfl rfl rfl
theorem heldWriteTimeout (n : Nat) : Statement (.heldWriteTimeout n) := of_step rfl rfl rfl
theorem replacementWriteback (cluster : Nat) (line : Nat) : Statement (.replacementWriteback cluster line) := of_step rfl rfl rfl
theorem randomWordFill (c : Nat) : Statement (.randomWordFill c) := of_step rfl rfl rfl
theorem portOperandFetch (c : Nat) (port : Nat) : Statement (.portOperandFetch c port) := of_step rfl rfl rfl
theorem watchdogPreempt (p : Nat) (q : Nat) : Statement (.watchdogPreempt p q) := of_step rfl rfl rfl
theorem watchdogKill (p : Nat) (q : Nat) : Statement (.watchdogKill p q) := of_step rfl rfl rfl
theorem watchdogFence (p : Nat) (q : Nat) : Statement (.watchdogFence p q) := of_step rfl rfl rfl
theorem preemption (c : Nat) : Statement (.preemption c) := of_step rfl rfl rfl
theorem contextRestore (c : Nat) : Statement (.contextRestore c) := of_step rfl rfl rfl
theorem faultRecordWrite (c : Nat) : Statement (.faultRecordWrite c) := of_step rfl rfl rfl
theorem ctxcmdResume (b : Commander) (c : Nat) : Statement (.ctxcmdResume b c) := of_step rfl rfl rfl
theorem ctxcmdKill (b : Commander) (c : Nat) : Statement (.ctxcmdKill b c) := of_step rfl rfl rfl
theorem ctxcmdPreempt (b : Commander) (c : Nat) : Statement (.ctxcmdPreempt b c) := of_step rfl rfl rfl
theorem qctlResume (b : Commander) (q : Nat) : Statement (.qctlResume b q) := of_step rfl rfl rfl
theorem qctlDiscardHead (b : Commander) (q : Nat) : Statement (.qctlDiscardHead b q) := of_step rfl rfl rfl
theorem qctlDiscardAll (b : Commander) (q : Nat) : Statement (.qctlDiscardAll b q) := of_step rfl rfl rfl
theorem tlbinv (p : Nat) (v : Word64) : Statement (.tlbinv p v) := of_step rfl rfl rfl
theorem tlbinvComplete (p : Nat) : Statement (.tlbinvComplete p) := of_step rfl rfl rfl
theorem vlendWrite (pcore : Nat) (v : Word64) : Statement (.vlendWrite pcore v) := of_step rfl rfl rfl
theorem brkaWrite (c : Nat) (n : Nat) (v : Word64) : Statement (.brkaWrite c n v) := of_step rfl rfl rfl
theorem monitorWrite (p : Nat) (n : Nat) (d0 : Word64) (d1 : Word64) : Statement (.monitorWrite p n d0 d1) := of_step rfl rfl rfl
theorem monitorFailure (p : Nat) (n : Nat) : Statement (.monitorFailure p n) := of_step rfl rfl rfl
theorem dumpComplete (p : Nat) : Statement (.dumpComplete p) := of_step rfl rfl rfl
theorem dumpEngineFault (p : Nat) : Statement (.dumpEngineFault p) := of_step rfl rfl rfl
theorem rerunCompare (p : Nat) : Statement (.rerunCompare p) := of_step rfl rfl rfl
theorem registerWrite (block : Nat) (reg : Nat) (v : Word64) : Statement (.registerWrite block reg v) := of_step rfl rfl rfl
theorem partitionFirmwareUpdate (p : Nat) (image : List Byte) : Statement (.partitionFirmwareUpdate p image) := of_step rfl rfl rfl
theorem vaultRetraining (vault : Nat) : Statement (.vaultRetraining vault) := of_step rfl rfl rfl
theorem fabricPortRetraining (port : Nat) : Statement (.fabricPortRetraining port) := of_step rfl rfl rfl
theorem partitionReconfiguration (p : Nat) (x : Nat) (y : Nat) (w : Nat) (h : Nat) (pbase : Nat) : Statement (.partitionReconfiguration p x y w h pbase) := of_step rfl rfl rfl
theorem clusterRetirement (k : Nat) : Statement (.clusterRetirement k) := of_step rfl rfl rfl
theorem securityAlarm (cause : Nat) : Statement (.securityAlarm cause) := of_step rfl rfl rfl
theorem deviceReset : Statement (.deviceReset ) := of_step rfl rfl rfl
theorem powerLimit : Statement (.powerLimit ) := of_step rfl rfl rfl
theorem atomicPerform (n : Nat) : Statement (.atomicPerform n) := of_step rfl rfl rfl
theorem fabricGlobalAccess (r : FabricReq) : Statement (.fabricGlobalAccess r) := of_step rfl rfl rfl
theorem portOperandAvailable (c : Nat) (port : Nat) : Statement (.portOperandAvailable c port) := of_step rfl rfl rfl
theorem powerBelowLimit : Statement (.powerBelowLimit ) := of_step rfl rfl rfl
theorem liveServiceOperationComplete (n : Nat) : Statement (.liveServiceOperationComplete n) := of_step rfl rfl rfl
theorem monitorRelationHolds (p : Nat) (n : Nat) : Statement (.monitorRelationHolds p n) := of_step rfl rfl rfl
theorem ringTailAdvance (p : Nat) (log : Bool) (v : Word64) : Statement (.ringTailAdvance p log v) := of_step rfl rfl rfl

end Sys2Proof.Laws.EncodeWord
end

