-- ==== Sys2Proof/Laws/Slot.lean ====
section
/-! SUPPORT. The parts of a context image have the sizes that R234 gives them, so that each stands at its offset. -/
namespace Sys2Proof.Machine

@[simp] theorem length_bytesOf (n x : Nat) : (bytesOf n x).length = n := by
  induction n generalizing x with
  | zero => rfl
  | succ n ih => simp [bytesOf, ih]

@[simp] theorem State.length_freeBytes (s : State) (a n : Nat) : (s.freeBytes a n).length = n := by simp [State.freeBytes]

theorem length_flatMap_of {α β : Type} (l : List α) (f : α → List β) (n : Nat) (h : ∀ a, (f a).length = n) :
    (l.flatMap f).length = l.length * n := by
  induction l with
  | nil => simp
  | cons a t ih => simp [List.flatMap_cons, ih, h, Nat.add_mul, Nat.add_comm]

@[simp] theorem length_dwordBytes (l : List Nat) : (dwordBytes l).length = l.length * 8 := length_flatMap_of l _ 8 (length_bytesOf 8)

@[simp] theorem length_faceBytes {w : Nat} (t : Tab (Face w)) (l : List Nat) (n : Nat) : (faceBytes t l n).length = l.length * (2 * n) :=
  length_flatMap_of l _ _ fun k => by simp; omega

@[simp] theorem State.length_latchImage (s : State) (x : Ctx) : (s.latchImage x).length = 1024 := by
  simp [State.latchImage, length_flatMap_of _ _ 128]

@[simp] theorem Walker.length_image (w : Walker) : w.image.length = 80 := by simp [Walker.image]

@[simp] theorem State.length_walkerImage (s : State) (x : Ctx) : (s.walkerImage x).length = 512 := by
  simp [State.walkerImage, length_flatMap_of _ _ 80]

@[simp] theorem Loop.length_image (l : Loop) : l.image.length = 32 := by simp [Loop.image]

/-- Loops nest, one in each of six slots, so at most six are active. -/
@[simp] theorem State.length_dobbyImage (s : State) (x : Ctx) : (s.dobbyImage x).length = 256 := by
  simp [State.dobbyImage, length_flatMap_of _ _ 32]; omega

@[simp] theorem length_tileImage (tiles : List Tile) : (tileImage tiles).length = 8256 := by
  simp [tileImage, length_flatMap_of _ _ 4096, length_flatMap_of _ _ 128, length_flatMap_of _ _ 32, Tile.state]

@[simp] theorem State.length_randomImage (s : State) (x : Ctx) : (s.randomImage x).length = 576 := by simp [State.randomImage]

@[simp] theorem State.length_csrImage (s : State) (x : Ctx) : (s.csrImage x).length = 1024 := by simp [State.csrImage, facedCsrs, upFrom]

@[simp] theorem State.length_placeImage (s : State) (x : Ctx) : (s.placeImage x).length = 576 := by
  cases h : x.handler <;> simp [State.placeImage, h] <;> omega

/-- The in-flight list stands at offset 22,528 (R234). -/
theorem State.length_fixedImage (s : State) (tiles : List Tile) (x : Ctx) : (s.fixedImage tiles x).length = 22528 := by
  simp [State.fixedImage]

/-- The array state has 168,000 bytes (R234, 07 R130). -/
theorem State.length_arrayImage (s : State) (k : MatrixArray) : (s.arrayImage k).length = 168000 := by
  simp [State.arrayImage, length_flatMap_of _ _ 8, length_flatMap_of _ _ 3]

end Sys2Proof.Machine
end

