-- ==== Sys2Proof/WellFormed.lean ====
section
/-! DEFINITION. Well-formed instructions: a syllable without the field values that always raise the
illegal-operand trap (04 R73, R90), and a step whose numbers name things that the part has (01 R13, R17). -/
namespace Sys2Proof

/-- Whether an instruction is well formed. -/
def Instr.wellFormed (i : Instr) : Bool := fieldsLegal i && numbersLegal i

end Sys2Proof
end

