-- ==== Sys2Proof/Tests/Slice0.lean ====
section
/-! SUPPORT. Tests: words of the specification's encodings and what they decode to; ill-formed terms that the check refuses; one step of an
instruction on a small state, the expected values from the specification's rules; and, for every obligation, states and operands that
meet its hypotheses.
-/
namespace Sys2Proof.Tests
open Sys2Proof Sys2Proof.Machine
set_option Elab.async false

/-! ### Decoding -/

theorem test_decode_scalar_1 :
  decodeTableWord 32 0x10006183 = some (.add 0 3 3 1 true) ∧
  decodeTableWord 32 0x100061D1 = some (.add 0 3 3 0x28 true) ∧
  decodeTableWord 32 0x10084103 = some (.sub 0 2 2 1 true) ∧
  decodeTableWord 32 0x1010A30E = some (.mul 0 5 6 7 false) ∧
  decodeTableWord 32 0x1018A30E = some (.mulh 0 5 6 7 false) ∧
  decodeTableWord 32 0x1020A30E = some (.mulhu 0 5 6 7 false) ∧
  decodeTableWord 32 0x10290494 = some (.div 0 8 9 10 false) ∧
  decodeTableWord 32 0x10310494 = some (.rem 0 8 9 10 false) ∧
  decodeTableWord 32 0x1038A30E = some (.and 0 5 6 7 false) ∧
  decodeTableWord 32 0x103A283F = some (.and 0 17 16 31 true) ∧
  decodeTableWord 32 0x10424922 = some (.or 0 18 18 17 false) ∧
  decodeTableWord 32 0x1048A30E = some (.xor 0 5 6 7 false) ∧
  decodeTableWord 32 0x10500385 = some (.shl 0 0 7 2 true) ∧
  decodeTableWord 32 0x1058A30E = some (.shr 0 5 6 7 false) := by decide

theorem test_decode_scalar_2 :
  decodeTableWord 32 0x1060A307 = some (.sra 0 5 6 3 true) ∧
  decodeTableWord 32 0x1068627F = some (.min 0 3 4 0x3F true) ∧
  decodeTableWord 32 0x14718624 = some (.max 2 12 12 18 false) ∧
  decodeTableWord 32 0x10788280 = some (.mov 0 4 5 0 false) ∧
  decodeTableWord 32 0x1080A30E = some (.sel 0 5 6 7 false) ∧
  decodeTableWord 32 0x10894020 = some (.li 0 10 32) ∧
  decodeTableWord 32 0x108AFFFF = some (.li 0 23 0x1FFF) ∧
  decodeTableWord 32 0x10900400 = some (.mve 0 0 8 0 false) ∧
  decodeTableWord 32 0x10986200 = some (.mfe 0 3 4 0 false) ∧
  decodeTableWord 32 0x10C02181 = some (.cmp 0 .eq 1 3 0 true) ∧
  decodeTableWord 32 0x10E0428C = some (.cmp 0 .ltu 2 5 6 false) ∧
  decodeTableWord 32 0x10F82103 = some (.cmp 0 .gt 1 2 1 true) := by decide

theorem test_decode_control_1 :
  decodeTableWord 32 0x20000000 = some (.nop 0) ∧
  decodeTableWord 32 0x201FFFFC = some (.br 0 0xFFFFC) ∧
  decodeTableWord 32 0x241FFFFC = some (.br 2 0xFFFFC) ∧
  decodeTableWord 32 0x20250000 = some (.jmp 0 20) ∧
  decodeTableWord 32 0x203A8000 = some (.callReg 0 20) ∧
  decodeTableWord 32 0x20300005 = some (.call 0 5) ∧
  decodeTableWord 32 0x2037FFFF = some (.call 0 0x7FFFF) ∧
  decodeTableWord 32 0x20400000 = some (.ret 0) ∧
  decodeTableWord 32 0x26400000 = some (.ret 3) ∧
  decodeTableWord 32 0x20506280 = some (.loop 0 0 3 5) ∧
  decodeTableWord 32 0x20600000 = some (.flip 0 .nb .none) ∧
  decodeTableWord 32 0x20620000 = some (.flip 0 .nb .device) ∧
  decodeTableWord 32 0x20660000 = some (.flip 0 .cl .device) ∧
  decodeTableWord 32 0x206B0000 = some (.flip 0 .pt .system) := by decide

theorem test_decode_control_2 :
  decodeTableWord 32 0x20700000 = some (.retire 0) ∧
  decodeTableWord 32 0x20800003 = some (.trap 0 3) ∧
  decodeTableWord 32 0x20900005 = some (.bkpt 0 5) ∧
  decodeTableWord 32 0x20A00000 = some (.reth 0) := by decide

theorem test_decode_vectorInteger_1 :
  decodeTableWord 32 0x30061CA6 = some (.vadd 0 .w512 .b32 false 7 5 6) ∧
  decodeTableWord 32 0x301110A6 = some (.vsub 0 .w256 .b16 false 4 5 6) ∧
  decodeTableWord 32 0x302A0443 = some (.vmul 0 .w1024 .b32 false 1 2 3) ∧
  decodeTableWord 32 0x303A8443 = some (.vmulh 0 .w1024 .b32 true 1 2 3) ∧
  decodeTableWord 32 0x304A14C7 = some (.vand 0 .w1024 .b32 false 5 6 7) ∧
  decodeTableWord 32 0x305100C3 = some (.vor 0 .w256 .b16 false 0 6 3) ∧
  decodeTableWord 32 0x306A18C6 = some (.vxor 0 .w1024 .b32 false 6 6 6) ∧
  decodeTableWord 32 0x307A02C6 = some (.vshl 0 .w1024 .b32 false 0 22 6) ∧
  decodeTableWord 32 0x308A14C7 = some (.vshr 0 .w1024 .b32 false 5 6 7) ∧
  decodeTableWord 32 0x30950C85 = some (.vsra 0 .w512 .b16 false 3 4 5) ∧
  decodeTableWord 32 0x30A08864 = some (.vmin 0 .w256 .b8 true 2 3 4) ∧
  decodeTableWord 32 0x30BB0864 = some (.vmax 0 .w1024 .b64 false 2 3 4) ∧
  decodeTableWord 32 0x30C50440 = some (.vabs 0 .w512 .b16 false 1 2) ∧
  decodeTableWord 32 0x30DA494E = some (.vsel 0 .w1024 .b32 false 18 10 14) := by decide

theorem test_decode_vectorInteger_2 :
  decodeTableWord 32 0x30EA0860 = some (.vcnt 0 .w1024 .b32 false 2 3) ∧
  decodeTableWord 32 0x30F10041 = some (.vredi 0 .w256 .b16 false 0 2 1) ∧
  decodeTableWord 32 0x30FA8042 = some (.vredi 0 .w1024 .b32 true 0 2 2) ∧
  decodeTableWord 32 0x310A0422 = some (.vcmp 0 .eq .w1024 .b32 false 1 1 2) ∧
  decodeTableWord 32 0x31700864 = some (.vcmp 0 .gt .w256 .b8 false 2 3 4) ∧
  decodeTableWord 32 0x314A1462 = some (.vcmp 0 .ltu .w1024 .b32 false 5 3 2) := by decide

theorem test_decode_vectorFloat :
  decodeTableWord 32 0x40080C22 = some (.fadd 0 .w1024 .fp32 false 3 1 2) ∧
  decodeTableWord 32 0x401510A6 = some (.fsub 0 .w512 .bf16 false 4 5 6) ∧
  decodeTableWord 32 0x40229D09 = some (.fmul 0 .w256 .e4m3 true 7 8 9) ∧
  decodeTableWord 32 0x403810A6 = some (.fma 0 .w1024 .fp32 false 4 5 6) ∧
  decodeTableWord 32 0x40480443 = some (.fmin 0 .w1024 .fp32 false 1 2 3) ∧
  decodeTableWord 32 0x405014A6 = some (.fmax 0 .w256 .fp32 false 5 5 6) ∧
  decodeTableWord 32 0x40680860 = some (.fabs 0 .w1024 .fp32 false 2 3) ∧
  decodeTableWord 32 0x40711080 = some (.fneg 0 .w256 .bf16 false 4 4) ∧
  decodeTableWord 32 0x40881840 = some (.fred 0 .w1024 .fp32 false 6 2 0) ∧
  decodeTableWord 32 0x4098296C = some (.fsca 0 .w1024 .fp32 false 10 11 12) ∧
  decodeTableWord 32 0x41280822 = some (.fcmp 0 .lt .w1024 .fp32 false 2 1 2) := by decide

theorem test_decode_convertAndPermute_1 :
  decodeTableWord 32 0x50080824 = some (.cvt 0 .w1024 .fp32 2 1 .bf16 .frm) ∧
  decodeTableWord 32 0x50080C2A = some (.cvt 0 .w1024 .fp32 3 1 .e4m3 .srn) ∧
  decodeTableWord 32 0x500394C0 = some (.cvt 0 .w256 .ply4 5 6 .fp32 .frm) ∧
  decodeTableWord 32 0x501810C0 = some (.qnt 0 .w1024 0 4 6 .frm) ∧
  decodeTableWord 32 0x50191C63 = some (.qnt 0 .w1024 1 7 3 .srq) ∧
  decodeTableWord 32 0x50280040 = some (.dqnt 0 .w1024 0 0 2) ∧
  decodeTableWord 32 0x50290C80 = some (.dqnt 0 .w1024 1 3 4) ∧
  decodeTableWord 32 0x503A00C2 = some (.vperm 0 .w1024 .b32 0 6 2) ∧
  decodeTableWord 32 0x50450860 = some (.vbcast 0 .w512 .b16 false 2 3) ∧
  decodeTableWord 32 0x504AA5E0 = some (.vbcast 0 .w1024 .b32 true 9 15) ∧
  decodeTableWord 32 0x50510C0B = some (.vseq 0 .w256 .b16 3 0 11) ∧
  decodeTableWord 32 0x506A0C22 = some (.visect 0 .w1024 .b32 3 1 2) ∧
  decodeTableWord 32 0x5070A480 = some (.vmovp 0 .w256 true 9 4) ∧
  decodeTableWord 32 0x50701120 = some (.vmovp 0 .w256 false 4 9) := by decide

theorem test_decode_convertAndPermute_2 :
  decodeTableWord 32 0x508A0444 = some (.rngc 0 .w1024 .b32 1 2 4) ∧
  decodeTableWord 32 0x509A6825 = some (.vext 0 .w1024 .b32 26 1 5) ∧
  decodeTableWord 32 0x50AA0CA6 = some (.vins 0 .w1024 .b32 3 5 6) := by decide

theorem test_decode_special :
  decodeTableWord 32 0x60081CE0 = some (.fexp2 0 .w1024 .fp32 7 7) ∧
  decodeTableWord 32 0x60182D60 = some (.flog2 0 .w1024 .fp32 11 11) ∧
  decodeTableWord 32 0x60240860 = some (.frcp 0 .w512 .fp32 2 3) ∧
  decodeTableWord 32 0x603914C0 = some (.frsq 0 .w1024 .bf16 5 6) ∧
  decodeTableWord 32 0x604110A0 = some (.fsqrt 0 .w256 .bf16 4 5) ∧
  decodeTableWord 32 0x60580443 = some (.fdiv 0 .w1024 .fp32 1 2 3) := by decide

theorem test_decode_loads :
  decodeTableWord 32 0x70042813 = some (.ld 0 8 20 2 .dword) ∧
  decodeTableWord 32 0x7022A80E = some (.lds 0 5 20 1 .v1024) ∧
  decodeTableWord 32 0x7042940A = some (.ldr 0 5 10 1 .word) ∧
  decodeTableWord 32 0x70608001 = some (.ldp 0 1 0 0 0 0 true) ∧
  decodeTableWord 32 0x70620E93 = some (.ldp 0 4 7 1 2 1 true) ∧
  decodeTableWord 32 0x70608000 = some (.ldp 0 1 0 0 0 0 false) ∧
  decodeTableWord 32 0x70800801 = some (.pf 0 4 0 true) ∧
  decodeTableWord 32 0x70801408 = some (.pf 0 10 1 false) ∧
  decodeTableWord 32 0x70A00006 = some (.qpop 0 0 .v1024) ∧
  decodeTableWord 32 0x70A18004 = some (.qpop 0 3 .v256) := by decide

theorem test_decode_stores_1 :
  decodeTableWord 32 0x800A9003 = some (.st 0 21 8 0 .dword) ∧
  decodeTableWord 32 0x80011806 = some (.st 0 2 12 0 .v1024) ∧
  decodeTableWord 32 0x8022A80E = some (.sts 0 5 20 1 .v1024) ∧
  decodeTableWord 32 0x80408000 = some (.stp 0 1 0 0 0 0) ∧
  decodeTableWord 32 0x80410A86 = some (.stp 0 2 5 1 0 3) ∧
  decodeTableWord 32 0x80659C23 = some (.stq 0 11 14 4 .dword) ∧
  decodeTableWord 32 0x80611446 = some (.stq 0 2 10 8 .v1024) ∧
  decodeTableWord 32 0x808DBA00 = some (.atom 0 27 29 0 .add) ∧
  decodeTableWord 32 0x80801603 = some (.atom 0 0 11 0 .xchg) ∧
  decodeTableWord 32 0x80801A7F = some (.atom 0 0 13 15 .load) ∧
  decodeTableWord 32 0x808C0606 = some (.atom 0 24 3 0 .fadd32) ∧
  decodeTableWord 32 0x80A3142B = some (.acas 0 6 10 5 true) ∧
  decodeTableWord 32 0x80C08000 = some (.pacc 0 1 0 0 0 false) ∧
  decodeTableWord 32 0x80C10B1C = some (.pacc 0 2 5 2 3 true) := by decide

theorem test_decode_stores_2 :
  decodeTableWord 32 0x80E18408 = some (.pdec 0 3 2 0 1 false) ∧
  decodeTableWord 32 0x81010002 = some (.qpush 0 2 .q32) ∧
  decodeTableWord 32 0x81028000 = some (.qpush 0 5 .q8) ∧
  decodeTableWord 32 0x81201403 = some (.stk 0 0 10 0) ∧
  decodeTableWord 32 0x8124A80B = some (.stk 0 9 20 1) := by decide

theorem test_decode_matrixAndEngines :
  decodeTableWord 32 0x9032FD00 = some (.xcfg 0 true 2 1 0xFD) ∧
  decodeTableWord 32 0x90400000 = some (.xpush 0) ∧
  decodeTableWord 32 0x94400000 = some (.xpush 2) ∧
  decodeTableWord 32 0x90A00000 = some (.xacc 0 true) ∧
  decodeTableWord 32 0x90C00000 = some (.xshift 0 false) ∧
  decodeTableWord 32 0x91200000 = some (.xdrain 0 true) ∧
  decodeTableWord 32 0xA0084605 = some (.ecopy 0 8 false true false 1 .b32 5) ∧
  decodeTableWord 32 0xA0206207 = some (.egather 0 0 false true true .b32 7) ∧
  decodeTableWord 32 0xA0400000 = some (.ereduce 0 0 false false 0 0 0) ∧
  decodeTableWord 32 0xA0686B03 = some (.epage 0 8 false true true 1 1 true 3) ∧
  decodeTableWord 32 0xA0900400 = some (.edict 0 16 false false 2 0) := by decide

theorem test_decode_system :
  decodeTableWord 32 0xB000C100 = some (.csrr 0 6 0x100) ∧
  decodeTableWord 32 0xB0012030 = some (.csrr 0 9 0x030) ∧
  decodeTableWord 32 0xB008A000 = some (.csrw 0 5 0) ∧
  decodeTableWord 32 0xB0082040 = some (.csrw 0 1 0x040) ∧
  decodeTableWord 32 0xB010EF00 = some (.flags 0 7 false 15) ∧
  decodeTableWord 32 0xB010F200 = some (.flags 0 7 true 2) ∧
  decodeTableWord 32 0xB0180000 = some (.versw 0) ∧
  decodeTableWord 32 0xB018D000 = some (.verswNamed 0 6) ∧
  decodeTableWord 32 0xB020C000 = some (.verpub 0 6) ∧
  decodeTableWord 32 0xB0281200 = some (.qarm 0 4 16) ∧
  decodeTableWord 32 0xB0280900 = some (.qarm 0 2 8) := by decide

/-- The name a decoder refuses a word by. -/
def refusalOf (w : Nat) : Option Reject := match decode w with | .ok _ => none | .error r => some r
/-- Words that hold no syllable (R65, R67, R85, R90). -/
theorem test_decode_rejects : ∀ c ∈ ([(0x00400000, .header), (0xF0000000, .link), (0xC0000000, .reservedClass), (0xE0000000, .reservedClass), (0x10A00000, .unassignedOp),
    (0x20B00000, .unassignedOp), (0x31800000, .unassignedOp), (0x40A00000, .unassignedOp), (0x50B00000, .unassignedOp), (0x60600000, .unassignedOp),
    (0x70C00000, .unassignedOp), (0x81400000, .unassignedOp), (0x91400000, .unassignedOp), (0xA0A00000, .unassignedOp), (0xB0300000, .unassignedOp),
    (0x300C0000, .reservedValue), (0x206C0000, .reservedValue), (0x205C0000, .reservedValue), (0x70000007, .reservedValue), (0x90600000, .nonZeroField),
    (0x50710000, .nonZeroField), (0x501A0004, .nonZeroField), (0xB0100001, .nonZeroField),
    (0x310A2422, .nonZeroField), (0x41284822, .nonZeroField), (0x20400001, .nonZeroField), (0x20A00001, .nonZeroField)] : List (Nat × Reject)),
    refusalOf c.1 = some c.2 := by decide +kernel
/-! ### The bench -/

/-- A face whose visible value is `v`. -/
def face (n v : Nat) : Face n := { v := BitVec.ofNat n v }

/-- Context 0 of partition 0 at a slot, with s1 = 5, s2 = -3, s4 = 0x2000, s5 = 0x2004 and v1 to v3 in use; page 0 is readable,
writable and executable. -/
def bench : State :=
  ((State.reset.placeWord 0x20000000).updCtx 0 fun x => { x with
    s := [(1, face 64 5), (2, face 64 (2 ^ 64 - 3)), (4, face 64 0x2000), (5, face 64 0x2004), (6, face 64 (2 ^ 48))]
    v := [(1, face 1024 0x00000000_80000000_00000002_7F800000), (2, face 1024 0x00000001_FFFFFFFF_00000003_FF800000),
      (3, face 1024 0x3F800000_3F800000_3F800000_3F800000)]
    e := [(1, face 64 9)] })

/-- The same in the completion handler, with h1 = 5 and h2 = 0x40. -/
def handler : State :=
  { bench.updCtx 0 fun x => { x with handler := some {}, h := [(1, 5), (2, 0x40)] } with slot := { h := [(1, 5), (2, 0x40)] } }

/-- The same with p9, of which bytes 0 and 2 are set, lent to the syllable. -/
def laned : State :=
  { bench.updCtx 0 fun x => { x with p := [(9, face 128 5)] } with slot := { lend := { lp := 1 } } }

/-- The same with another FLGEN: every trap enabled. -/
def strict : State := bench.updCtx 0 fun x => { x with csr := [(csrFlgen, face 64 0xFFFF)] }

/-- What an answer puts in flight last: file, register, latency, and its value modulo 2^64. -/
def landing (o : Host.Outcome State Fault Refusal) : Option (RFile × Nat × Nat × Nat) :=
  match o with
  | .next t => t.cur.inflight.getLast?.map fun r => (r.file, r.reg, r.due - t.cur.count, r.val.toNat % 2 ^ 64)
  | _ => none

/-- What an answer has raised. -/
def raisedBy (o : Host.Outcome State Fault Refusal) : List (Cause × Nat) :=
  match o with
  | .next t => t.slot.raised.map fun r => (r.cause, r.cond)
  | _ => []

/-- Whether an answer is a next state of which something holds. -/
def nextHas (o : Host.Outcome State Fault Refusal) (f : State → Bool) : Bool :=
  match o with
  | .next t => f t
  | _ => false

/-- The two-source members of class 1. -/
def scalars (b : BitVec 6) (im : Bool) : List Instr :=
  [.add 0 3 1 b im, .sub 0 3 1 b im, .mul 0 3 1 b im, .mulh 0 3 1 b im, .mulhu 0 3 1 b im, .div 0 3 1 b im, .rem 0 3 1 b im,
   .and 0 3 1 b im, .or 0 3 1 b im, .xor 0 3 1 b im, .shl 0 3 1 b im, .shr 0 3 1 b im, .sra 0 3 1 b im, .min 0 3 1 b im,
   .max 0 3 1 b im]

/-! ### Class 1 -/

/-- `ScalarUnit`: every member at a register source and at the largest immediate, with both outcomes of the division flags. -/
theorem witness_ScalarUnit :
    (∀ i ∈ scalars 2 false ++ scalars 63 true ++ [Instr.mov 0 3 1 0 false, .mve 0 31 1 0 false, .mfe 0 3 31 0 false, .li 0 3 0x1FFF,
      .sel 0 3 1 2 false, .cmp 0 .eq 7 1 2 false, .cmp 0 .gt 1 1 63 true], Normal i bench) ∧
    bench.cur.inHandler = false ∧ bench.Room 2 ∧ ¬ bench.Enabled flDZ ∧
    (∀ i ∈ [Instr.div 0 3 1 0 true, .rem 0 3 1 0 true], Normal i strict) ∧ strict.Enabled flDZ ∧ strict.Room 1 ∧
    strict.cur.inHandler = false := by decide +kernel

theorem test_scalar_arithmetic :
  ∀ c ∈ ([
    (.add 0 3 1 2 false, .s, 3, 1, 2),
    (.sub 0 3 1 2 false, .s, 3, 1, 8),
    (.mul 0 3 1 2 false, .s, 3, 1, 2 ^ 64 - 15),
    (.mulh 0 3 1 2 false, .s, 3, 1, 2 ^ 64 - 1),
    (.mulhu 0 3 1 2 false, .s, 3, 1, 4),
    (.div 0 3 1 2 false, .s, 3, 1, 2 ^ 64 - 1),
    (.rem 0 3 2 1 false, .s, 3, 1, 2 ^ 64 - 3)] : List (Instr × RFile × Nat × Nat × Nat)),
    landing (exec c.1 bench) = some c.2 := by decide +kernel
theorem test_scalar_logic :
  ∀ c ∈ ([
    (.and 0 3 1 2 false, .s, 3, 1, 5),
    (.or 0 3 1 2 false, .s, 3, 1, 2 ^ 64 - 3),
    (.xor 0 3 1 2 false, .s, 3, 1, 2 ^ 64 - 8),
    (.shl 0 3 1 63 true, .s, 3, 1, 2 ^ 63),
    (.shr 0 3 2 60 true, .s, 3, 1, 15),
    (.sra 0 3 2 1 true, .s, 3, 1, 2 ^ 64 - 2),
    (.min 0 3 1 2 false, .s, 3, 1, 2 ^ 64 - 3),
    (.max 0 3 1 2 false, .s, 3, 1, 5)] : List (Instr × RFile × Nat × Nat × Nat)),
    landing (exec c.1 bench) = some c.2 := by decide +kernel
theorem test_scalar_division_by_zero :
  (∀ c ∈ ([
    (.div 0 3 1 0 true, .s, 3, 1, 2 ^ 64 - 1),
    (.rem 0 3 1 0 true, .s, 3, 1, 5)] : List (Instr × RFile × Nat × Nat × Nat)),
    landing (exec c.1 bench) = some c.2) ∧
  raisedBy (exec (.div 0 3 1 0 true) strict) = [(.arithFlag, 1)] := by decide +kernel
theorem test_scalar_moves :
  ∀ c ∈ ([
    (.mov 0 3 2 0 false, .s, 3, 1, 2 ^ 64 - 3),
    (.mve 0 31 1 0 false, .e, 31, 1, 5),
    (.mfe 0 3 1 0 false, .s, 3, 1, 9),
    (.li 0 3 0x1FFF, .s, 3, 1, 2 ^ 64 - 1),
    (.sel 0 3 1 2 false, .s, 3, 1, 5),
    (.sel 1 3 1 2 false, .s, 3, 1, 2 ^ 64 - 3)] : List (Instr × RFile × Nat × Nat × Nat)),
    landing (exec c.1 bench) = some c.2 := by decide +kernel
/-- The last of the pair is the complement of the condition. -/
theorem test_scalar_compare :
  ∀ c ∈ ([
    (.cmp 0 .lt 3 2 1 false, .p, 7, 1, 0),
    (.cmp 0 .ltu 3 2 1 false, .p, 7, 1, 2 ^ 64 - 1)] : List (Instr × RFile × Nat × Nat × Nat)),
    landing (exec c.1 bench) = some c.2 := by decide +kernel
/-- A result for s0 reaches its latch only (R23). -/
theorem test_scalar_s0 : (landing (exec (.add 0 0 1 2 false) bench)).map Prod.fst = some .latch := by decide +kernel

theorem witness_ScalarHandlerResults :
    (∀ i ∈ scalars 2 false ++ scalars 63 true ++ [Instr.mov 0 3 1 0 false, .li 0 7 0x1FFF], Normal i handler) ∧
    handler.cur.inHandler = true := by decide +kernel
theorem test_handler_add :
    nextHas (exec (.add 0 3 1 2 false) handler) (fun t => Tab.get 0 t.cur.h 3 == 0x45 && t.cur.inflight.isEmpty) = true := by decide +kernel

/-! ### Classes 3 to 6 -/

/-- The members of class 3 that take two sources, at a width and a size. -/
def vectors (w : Width) (z : ESize) : List Instr :=
  [.vadd 0 w z false 4 1 2, .vsub 0 w z false 4 1 2, .vmul 0 w z false 4 1 2, .vmulh 0 w z false 4 1 2, .vmulh 0 w z true 4 1 2,
   .vand 0 w z false 4 1 2, .vor 0 w z false 4 1 2, .vxor 0 w z false 4 1 2, .vshl 0 w z false 4 1 2, .vshr 0 w z false 4 1 2,
   .vsra 0 w z false 4 1 2, .vmin 0 w z false 4 1 2, .vmin 0 w z true 4 1 2, .vmax 0 w z false 4 1 2, .vmax 0 w z true 31 1 2,
   .vabs 0 w z false 4 1, .vcnt 0 w z false 4 1, .vredi 0 w z false 4 1 0, .vredi 0 w z false 4 1 1,
   .vredi 0 w z true 4 1 2, .vcmp 0 .lt w z false 7 1 2]

theorem witness_VectorIntegerUnit :
    (∀ i ∈ vectors .w256 .b8 ++ vectors .w1024 .b64, Normal i bench ∧ (bench.popPorts i).Room 2) ∧
    ∀ i ∈ [Instr.vsel 0 .w256 .b8 false 4 1 2, .vsel 0 .w1024 .b64 false 31 1 2], Normal i laned ∧ (laned.popPorts i).Room 1 := by decide +kernel

theorem test_vector_integer :
  ∀ c ∈ ([
    (.vadd 0 .w256 .b32 false 4 1 2, .v, 4, 2, 0x00000005_7F000000),
    (.vsub 0 .w256 .b32 false 4 1 2, .v, 4, 2, 0xFFFFFFFF_80000000),
    (.vmul 0 .w256 .b32 false 4 1 2, .v, 4, 2, 0x00000006_00000000),
    (.vmulh 0 .w256 .b32 false 4 1 2, .v, 4, 2, 0x00000000_FFC04000),
    (.vmax 0 .w256 .b32 true 4 1 2, .v, 4, 2, 0x00000003_FF800000),
    (.vmin 0 .w256 .b32 false 4 1 2, .v, 4, 2, 0x00000002_FF800000),
    (.vcnt 0 .w256 .b32 false 4 1, .v, 4, 2, 0x00000001_00000008),
    (.vabs 0 .w256 .b32 false 4 2, .v, 4, 2, 0x00000003_00800000),
    (.vredi 0 .w256 .b32 false 4 3 0, .v, 4, 2, 0xFE000000)] : List (Instr × RFile × Nat × Nat × Nat)),
    landing (exec c.1 bench) = some c.2 := by decide +kernel
theorem test_vector_shifts :
  ∀ c ∈ ([
    (.vshl 0 .w256 .b32 false 4 1 2, .v, 4, 2, 0x00000010_7F800000),
    (.vsra 0 .w256 .b32 false 4 2 1, .v, 4, 2, 0x00000000_FF800000),
    (.vshr 0 .w256 .b32 false 4 2 1, .v, 4, 2, 0x00000000_FF800000)] : List (Instr × RFile × Nat × Nat × Nat)),
    landing (exec c.1 bench) = some c.2 := by decide +kernel

/-- The members of classes 4 and 6 at a format. -/
def floats (w : Width) (f : FFmt) (s : Bool) : List Instr :=
  [.fadd 0 w f s 4 1 2, .fsub 0 w f s 4 1 2, .fmul 0 w f s 4 1 2, .fma 0 w f s 4 1 2, .fmin 0 w f s 4 1 2, .fmax 0 w f s 31 1 2,
   .fabs 0 w f s 4 1, .fneg 0 w f s 4 1, .fcmp 0 .un w f s 7 1 2]
def specials (w : Width) (f : FFmt) : List Instr :=
  [.fexp2 0 w f 4 1, .flog2 0 w f 4 1, .frcp 0 w f 4 1, .frsq 0 w f 4 1, .fsqrt 0 w f 4 1, .fdiv 0 w f 31 1 2]

theorem witness_VectorFloatUnit :
    (∀ i ∈ floats .w256 .fp32 false ++ floats .w1024 .e5m2 true ++ [Instr.fred 0 .w256 .fp32 false 4 1 0,
      .fred 0 .w1024 .bf16 false 4 1 2, .fsca 0 .w1024 .fp32 false 4 1 2], Normal i bench ∧ (bench.popPorts i).Room 2) ∧
    strict.Enabled flNV ∧ Normal (.fadd 0 .w256 .fp32 false 4 1 2) strict := by decide +kernel
theorem witness_SpecialFunctionLanes :
    ∀ i ∈ specials .w256 .bf16 ++ specials .w1024 .fp32, Normal i bench ∧ (bench.popPorts i).Room 1 := by decide +kernel
/-- A number, the largest finite number, an infinity, and a quiet NaN. -/
theorem witness_FloatSpecialValues :
    (∀ x ∈ [1, 0x7F7FFFFF, 0x7F800000, 0x7FC00000, 2 ^ 31 - 1], x < 2 ^ 31) ∧ 0 < 1 ∧ 1 < 0x7F800000 ∧ 0 < 0x7F800000 ∧
    0x7FC00000 ≤ 2 ^ 31 - 1 := by decide +kernel

/-- Infinity plus minus infinity, and 2 ulp plus 3 ulp; 1 + 1. -/
theorem test_float_add :
  (∀ c ∈ ([
    (.fadd 0 .w256 .fp32 false 4 1 2, .v, 4, 4, 0x00000005_7FC00000),
    (.fadd 0 .w256 .fp32 false 4 3 3, .v, 4, 4, 0x40000000_40000000)] : List (Instr × RFile × Nat × Nat × Nat)),
    landing (exec c.1 bench) = some c.2) ∧
  raisedBy (exec (.fadd 0 .w256 .fp32 false 4 1 2) strict) = [(.arithFlag, 0)] := by decide +kernel
theorem test_float_sign :
  ∀ c ∈ ([
    (.fneg 0 .w256 .fp32 false 4 3, .v, 4, 4, 0xBF800000_BF800000),
    (.fabs 0 .w256 .fp32 false 4 2, .v, 4, 4, 0x00000003_7F800000)] : List (Instr × RFile × Nat × Nat × Nat)),
    landing (exec c.1 bench) = some c.2 := by decide +kernel
theorem test_float_special :
  ∀ c ∈ ([
    (.fdiv 0 .w256 .fp32 4 3 3, .v, 4, 14, 0x3F800000_3F800000),
    (.fexp2 0 .w256 .fp32 4 3, .v, 4, 10, 0x40000000_40000000),
    (.flog2 0 .w256 .fp32 4 3, .v, 4, 10, 0)] : List (Instr × RFile × Nat × Nat × Nat)),
    landing (exec c.1 bench) = some c.2 := by decide +kernel

theorem witness_Conversions :
    ∀ i ∈ [Instr.cvt 0 .w256 .fp32 4 1 .bf16 .frm, .cvt 0 .w1024 .int8 31 1 .ply4 .srq, .dqnt 0 .w1024 0 4 1, .dqnt 0 .w1024 1 4 1,
      .qnt 0 .w1024 0 4 1 .rz, .qnt 0 .w1024 1 4 1 .srn], Normal i bench ∧ (bench.popPorts i).Room 1 := by decide +kernel
theorem test_convert :
  ∀ c ∈ ([
    (.cvt 0 .w256 .fp32 4 3 .bf16 .frm, .v, 4, 6, 0x3F803F80_3F803F80)] : List (Instr × RFile × Nat × Nat × Nat)),
    landing (exec c.1 bench) = some c.2 := by decide +kernel

theorem witness_PermutationLanes :
    ∀ i ∈ [Instr.vperm 0 .w256 .b8 4 1 2, .vbcast 0 .w512 .b64 false 4 1, .vbcast 0 .w1024 .b16 true 4 1, .vseq 0 .w1024 .b8 4 1 2,
      .rngc 0 .w1024 .b64 4 1 2, .vmovp 0 .w256 false 4 15, .vmovp 0 .w256 true 15 4, .vins 0 .w1024 .b32 4 1 2,
      .vext 0 .w256 .b8 31 1 2, .visect 0 .w1024 .b32 4 1 2], Normal i bench ∧ (bench.popPorts i).Room 1 := by decide +kernel
theorem test_permutation :
  ∀ c ∈ ([
    (.vbcast 0 .w256 .b16 true 4 1, .v, 4, 6, 0x0005_0005_0005_0005),
    (.vseq 0 .w256 .b16 4 1 1, .v, 4, 6, 0x0014_000F_000A_0005),
    (.vext 0 .w256 .b32 3 1 1, .s, 3, 6, 0),
    (.vins 0 .w256 .b32 3 2 0, .v, 3, 6, 0x3F800000_FFFFFFFD)] : List (Instr × RFile × Nat × Nat × Nat)),
    landing (exec c.1 bench) = some c.2 := by decide +kernel

/-! ### Class 2 -/

/-- The same inside a loop of level 0 whose body has two bundles more. -/
def looping : State := bench.updCur fun x => { x with loops := [{ lvl := 0, len := 3, count := 2, pos := 0 }] }

theorem witness_ControlSyllables :
    (∀ i ∈ [Instr.nop 0, .br 0 0xFFFFC, .jmp 0 4, .jmp 0 5, .ret 0, .call 0 0x7FFFF, .callReg 0 4, .callReg 0 5, .flip 0 .nb .none,
      .flip 0 .nb .system, .retire 0, .trap 0 255, .bkpt 0 0, .loop 0 0 15 1, .loop 0 5 0 2], Normal i bench) ∧
    portsOf (.nop 0) bench.slot.lend = [] ∧ bench.Room 1 ∧ bench.sa 4 % 16 = 0 ∧ bench.sa 5 % 16 ≠ 0 ∧
    (∀ i ∈ [Instr.loop 0 0 0 1, .loop 0 1 1 1, .loop 0 1 3 1], Normal i looping) ∧
    (∃ l ∈ looping.cur.loops, l.lvl = 0) ∧ (¬ ∃ l ∈ looping.cur.loops, l.lvl = 1 ∨ l.len < l.pos + 1 + 2) ∧
    (∃ l ∈ looping.cur.loops, l.len < l.pos + 1 + 4) ∧
    (∀ i ∈ [Instr.jmp 0 2, .jmp 0 1, .reth 0], Normal i handler) ∧ handler.hreg 2 % 16 = 0 ∧ handler.hreg 1 % 16 ≠ 0 ∧
    handler.cur.inHandler = true ∧ bench.cur.inHandler = false := by decide +kernel

/-- BR −4 quads, JMP to an address that is no quad's, and CALL. -/
theorem test_control_transfers :
    nextHas (exec (.br 0 0xFFFFC) { bench with slot := { baddr := 0x1000 } }) (fun t => t.cur.target == some 0xFC0) = true ∧
    nextHas (exec (.jmp 0 4) bench) (fun t => t.cur.target == some 0x2000) = true ∧
    raisedBy (exec (.jmp 0 5) bench) = [(.illegalOperand, 0)] ∧
    landing (exec (.call 0 2) { bench with slot := { baddr := 0x1000, next := 0x1020 } }) = some (.s, 63, 1, 0x1020) := by decide +kernel
theorem test_control_traps :
    raisedBy (exec (.trap 0 3) bench) = [(.debug, 1)] ∧ raisedBy (exec (.bkpt 0 5) bench) = [(.debug, 0)] ∧
    raisedBy (exec (.reth 0) bench) = [(.illegalSyllable, 0)] ∧ raisedBy (exec (.reth 3) handler) = [(.illegalSyllable, 0)] := by decide +kernel
theorem test_control_loop :
    nextHas (exec (.loop 0 2 3 1) { bench with slot := { next := 0x1010 } }) (fun t =>
      t.cur.newLoop == some { lvl := 2, len := 4, count := 5, start := 0x1010 }) = true ∧
    raisedBy (exec (.loop 0 0 0 1) looping) = [(.illegalOperand, 0)] := by decide +kernel
theorem test_control_flip :
    nextHas (exec (.flip 0 .nb .device) bench) (fun t => t.cur.flip == some { pub := .device }) = true ∧
    nextHas (exec (.retire 0) bench) (fun t => t.cur.flip == some { retire := true, pub := .device }) = true := by decide +kernel

/-! ### Classes 7 and 8 -/

/-- What a translation gives. -/
def reachOf (e : Except Raised Reach) : Option Reach := match e with | .ok k => some k | .error _ => none
def refusalIn (e : Except Raised Reach) : Option Raised := match e with | .ok _ => none | .error r => some r

/-- The same at the elastic level and at the locked level. -/
def elastic : State := bench.updCur fun x => { x with level := 0 }
def locked : State := bench.updCur fun x => { x with level := 2 }
/-- The same with no page in any TLB, and with no walker free. -/
def walkless : State := bench.updCurCore fun k => { k with tlb := [] }
def busy : State := { walkless with walks := List.replicate 16 { cluster := 0, core := 0, part := 0, va := 2 ^ 40 } }

/-- The same with a route to device 5, and its address in s7. -/
def routed : State := { bench.updCur fun x => { x with s := x.s ++ [(7, face 64 (2 ^ 63 + 5 * 2 ^ 48))] } with routes := [(5, 1)] }

/-- The walk that a prefetch of 0x2000 by context 0 asks for. -/
def prefetching : Walk := { who := .prefetch 0 true false, cluster := 0, core := 0, part := 0, va := 0x2000, region := none }

theorem witness_LoadsAndPrefetch :
    (∀ b ∈ [4, 5, 6], Normal (.ld 0 3 b 0 .dword) bench ∧ Normal (.ldr 0 3 b 0 .dword) bench) ∧ bench.Room 1 ∧
    bench.effective 4 (bench.offset24 0) 8 % 8 = 0 ∧ bench.effective 5 (bench.offset31 0) 8 % 8 ≠ 0 ∧
    (reachOf (bench.resolve 0 .read false 0x2000)).isSome = true ∧ homeDpa 0x2000 = some 0x2000 ∧
    (refusalIn (bench.resolve 0 .read false (2 ^ 48))).isSome = true ∧
    Normal (.ldr 0 3 7 0 .dword) routed ∧ (reachOf (routed.resolve 0 .read false (2 ^ 63 + 5 * 2 ^ 48))).map (fun k => homeDpa k.loc) =
      some none ∧
    Normal (.pf 0 4 0 true) locked ∧ locked.cur.level = 2 ∧ Normal (.pf 0 6 0 true) bench ∧ bench.cur.level ≠ 2 ∧
    bench.aim 0 0 .read (2 ^ 48) = .trap .translation 3 ∧ Normal (.pf 0 7 0 false) routed ∧
    routed.aim 0 0 .read (2 ^ 63 + 5 * 2 ^ 48) = .remote ∧ Normal (.pf 0 4 0 false) bench ∧
    bench.aim 0 0 .read 0x2000 = .page { part := 0, region := none, va := 0x2000 } false ∧
    (bench.tlbFind 0 0 none 0x2000).isSome = true ∧ Normal (.pf 0 4 0 false) walkless ∧ walkless.tlbFind 0 0 none 0x2000 = none ∧
    walkless.walkerFree prefetching = true ∧ Normal (.pf 0 4 0 false) busy ∧ busy.walkerFree prefetching = false ∧
    busy.walking prefetching = false := by decide +kernel
/-- The grants of a page that may be read and of one that may not. -/
theorem witness_Prefetch_grants :
    (reachOf (placedPage.grant { part := 0, region := none, va := 0x2000 } .read false false 0x2000)).isSome = true ∧
    (refusalIn (({ placedPage with word0 := 2 ^ 63 }).grant { part := 0, region := none, va := 0x2000 } .read false false 0x2000)).isSome =
      true := by decide +kernel

/-- The same with bytes in memory and scratchpad, as they stood before the bundle too. -/
def stocked : State :=
  { bench.updCurCore fun k => { k with spad := [(8, 0x11), (9, 0x22)] } with
    slot := { spad := [(8, 0x11), (9, 0x22)] }, dram := [(0x2000, 0x34), (0x2001, 0x12), (0x2007, 0x80)] }

theorem test_load :
    landing (exec (.ld 0 3 4 0 .dword) stocked) = some (.s, 3, 160, 0x8000000000001234) ∧
    landing (exec (.ld 0 3 4 1 .byte) stocked) = some (.s, 3, 160, 0x12) ∧
    raisedBy (exec (.ldr 0 3 5 1 .dword) stocked) = [(.translation, 2)] ∧
    raisedBy (exec (.ld 0 3 5 0 .dword) stocked) = [(.translation, 2)] ∧
    raisedBy (exec (.ld 0 3 6 0 .dword) stocked) = [(.translation, 3)] := by decide +kernel
theorem test_prefetch :
    nextHas (exec (.pf 0 6 0 true) bench) (fun t => t.cur.pfFault == 1) = true ∧
    nextHas (exec (.pf 0 4 0 true) busy) (fun t => t.cur.pfBusy == 1) = true := by decide +kernel

theorem witness_ScratchpadAndTranspose :
    (∀ i ∈ [Instr.lds 0 3 0 1 .dword, .lds 0 3 1 0 .dword, .lds 0 3 4 0 .v1024, .sts 0 3 0 1 .dword, .sts 0 3 1 0 .dword, .sts 0 3 6 0 .dword],
      Normal i bench) ∧ bench.Room 1 ∧ bench.effective 0 (bench.offset31 1) 8 = 8 ∧ 8 + 8 ≤ 256 * bench.cur.alloc.spad ∧
    bench.effective 1 (bench.offset31 0) 8 % 8 ≠ 0 ∧ 256 * bench.cur.alloc.spad < bench.effective 6 (bench.offset31 0) 8 + 8 ∧
    bench.effective 6 (bench.offset31 0) 8 % 8 = 0 ∧ Memory.wf bench.curCore.spad = true := by decide +kernel
/-- Queues with no tile, one being filled, one full, two full. -/
def tiled (l : List Tile) : State := bench.updCurCore fun k => { k with tiles := l }
def fullTile : Tile := { size := 32, rows := (List.range 32).map fun j => j * 2 ^ 32 + 7 }
theorem witness_TransposeQueue :
    (∀ l ∈ [[], [{ size := 32, rows := [0] }], [{ size := 8, rows := [0] }], [fullTile], [fullTile, fullTile], [{ fullTile with popped := 31 }]],
      Normal (.qpush 0 1 .q32) (tiled l) ∧ Normal (.qpop 0 3 .v1024) (tiled l) ∧ (tiled l).Room 1 ∧ (tiled l).curCore.tiles = l) ∧
    fullTile.rows.length = 32 ∧ 32 * fullTile.size = 8 * ASize.v1024.bytes ∧ 32 * fullTile.size ≠ 8 * ASize.v256.bytes := by decide +kernel

theorem test_scratchpad :
    landing (exec (.lds 0 3 0 1 .dword) stocked) = some (.s, 3, 6, 0x2211) ∧
    nextHas (exec (.sts 0 1 0 2 .word) stocked) (fun t => Memory.readN t.curCore.spad 8 4 == [5, 0, 0, 0]) = true ∧
    raisedBy (exec (.sts 0 3 6 0 .dword) bench) = [(.translation, 4)] := by decide +kernel
/-- Element 1 of the first row popped is element 0 of input row 1. -/
theorem test_transpose :
    landing (exec (.qpop 0 3 .v1024) (tiled [fullTile])) = some (.v, 3, 6, 0x00000007_00000007) ∧
    landing (exec (.qpop 0 3 .v1024) (tiled [{ fullTile with popped := 1 }])) = some (.v, 3, 6, 0x00000001_00000000) ∧
    nextHas (exec (.qpush 0 1 .q32) bench) (fun t => t.curCore.tiles.length == 1) = true ∧
    raisedBy (exec (.qpush 0 1 .q32) (tiled [fullTile, fullTile])) = [(.queueOverflow, 0)] := by decide +kernel

/-- A locked context whose pending bytes have used its budget up. -/
def spent : State := locked.updCur fun x => { x with pending := (List.range 1024).map fun n => (65536 + 256 * n, some { byte := 1 }) }

/-- Whether another device refuses an access is a free value, so that no state decides it (log entry 34). -/
theorem witness_StoresAndAtomics :
    (∀ b ∈ [4, 5, 6], ∀ i ∈ [Instr.st 0 1 b 0 .dword, .st 0 1 b 0 .v256, .stk 0 1 b 0, .stq 0 1 b 2 .dword, .atom 0 1 b 3 .add,
      .atom 0 1 b 3 .load, .atom 0 1 b 3 .fadd32, .acas 0 8 b 3 true, .acas 0 8 b 3 false], Normal i bench ∧ (bench.popPorts i).Room 1) ∧
    bench.effective 4 (bench.offset31 0) 8 % 8 = 0 ∧ bench.effective 5 (bench.offset31 0) 8 % 8 ≠ 0 ∧
    (reachOf (bench.resolve 0 .write false 0x2000)).isSome = true ∧ (reachOf (bench.resolve 0 .write true 0x2000)).isSome = true ∧
    (∀ i ∈ [Instr.st 0 1 7 0 .dword, .stk 0 1 7 0, .stq 0 1 7 2 .dword], Normal i routed) ∧
    (reachOf (routed.resolve 0 .write false (2 ^ 63 + 5 * 2 ^ 48))).map (fun k => homeDpa k.loc) = some none ∧
    (refusalIn (bench.resolve 0 .write false (2 ^ 48))).isSome = true ∧ bench.cur.withinBudget (cellsAt 0x2000 [1]) = true := by
  decide +kernel

/-- A store that issues again behind a later one of its context to the same byte, and one in order. -/
theorem witness_GlobalStores_order :
    (let s := bench.updCur fun x => { x with pending := [(0x2000, some { byte := 9, at_ := 40 })] }
     Normal (.st 0 2 4 0 .byte) s ∧ s.cur.pendingNow 0x2000 = some (0x2000, { byte := 9, at_ := 40 }) ∧ s.cur.seq * 16 + s.slot.pos < 40) ∧
    bench.cur.pendingNow 0x2000 = none ∧ Tab.wf none bench.cur.pending = true := by decide +kernel
/-- The byte of the later store stays, and a load between the two reads the earlier one's. -/
theorem test_store_order :
    nextHas (exec (.st 0 2 4 0 .byte) (bench.updCur fun x => { x with pending := [(0x2000, some { byte := 9, at_ := 40 })] })) (fun t =>
      t.viewByte 0 50 false 0x2000 == 9 && t.viewByte 0 20 false 0x2000 == 0xFD) = true := by decide +kernel
theorem test_store :
    nextHas (exec (.st 0 2 4 0 .half) bench) (fun t => t.dram == bench.dram && (Tab.get none t.cur.pending 0x2000).map Pend.byte == some 0xFD &&
      (Tab.get none t.cur.pending 0x2001).map Pend.byte == some 0xFF && Tab.get none t.cur.pending 0x2002 == none) = true ∧
    nextHas (exec (.stk 0 1 4 0) bench) (fun t => (Tab.get none t.cur.pending 0x2004).map Pend.byte == some 5) = true ∧
    nextHas (exec (.stq 0 1 4 2 .word) bench) (fun t => t.tagWrites.map TagWrite.tag == [0xFFFD] && t.cur.stqs == 1) = true := by
  decide +kernel
theorem test_atomic :
    landing (exec (.atom 0 1 4 3 .add) bench) = some (.s, 3, 220, 0) ∧
    nextHas (exec (.acas 0 1 4 3 true) bench) (fun t => t.atomics.map (fun a => (a.arg, a.swap, a.size)) == [(5, 2 ^ 64 - 3, 8)]) =
      true := by decide +kernel

theorem eraseDups_of_nodup (l : List Nat) (h : l.Nodup) : l.eraseDups = l := by
  induction l with
  | nil => rfl
  | cons a t ih =>
    rw [List.eraseDups_cons, List.filter_eq_self.2, ih (List.nodup_cons.1 h).2]
    intro b hb
    have := (List.nodup_cons.1 h).1
    simp; rintro rfl; exact this hb

/-- The pending lines of `spent` are 1,024, and a store to another line is beyond the budget. -/
theorem spent_lines (b : Pend) : pendingLines ((List.range 1024).map fun n => (65536 + 256 * n, some b)) =
    (List.range 1024).map (256 + ·) := by
  rw [pendingLines, List.map_map, List.map_congr_left (g := (256 + ·)) (by intro n _; simp; omega)]
  exact eraseDups_of_nodup _ (List.Pairwise.map _ (fun a b h => by simpa using h) List.nodup_range)

theorem witness_GlobalStores_budget :
    Normal (.st 0 1 4 0 .dword) spent ∧ (reachOf (spent.resolve 0 .write false 0x2000)).isSome = true ∧
    spent.cur.withinBudget (cellsAt 0x2000 [1]) = false := by
  refine ⟨by decide +kernel, by decide +kernel, ?_⟩
  have h : spent.cur.pending = (List.range 1024).map fun n => (65536 + 256 * n, some { byte := 1 }) := by decide +kernel
  have l : spent.cur.level = 2 := by decide +kernel
  simp only [Ctx.withinBudget, h, l, spent_lines]
  simp [cellsAt, Config.lockedLines]
  rw [List.filter_cons_of_pos (by simp; omega)]
  simp [List.eraseDups_cons]

/-! ### Plied accesses -/

/-- The same with window 0 at 0x100000 in a page of 4,096 elements of four plies, and with a page of two plies. -/
def plied (plys : Nat) : State :=
  (bench.updCur fun x => { x with csr := [(csrPw, face 64 0x100000)] }).updCurCore fun k =>
    { k with tlb := [{ placedPage with word0 := placedPage.word0 + 2 ^ 53, word1 := plys * 2 ^ 36 + 12 * 2 ^ 31 }] }

/-- What a plied check gives. -/
def spansOf (e : Except Raised (List (PlySpan × Nat × Nat))) : Option Nat := match e with | .ok l => some l.length | .error _ => none

theorem witness_PliedSyllables :
    (∀ b ∈ [0, 1], Normal (.ldp 0 4 b 0 15 3 true) (plied 3) ∧ Normal (.stp 0 1 b 0 0 0) (plied 3) ∧ Normal (.pacc 0 1 b 0 0 false) (plied 3) ∧
      Normal (.pdec 0 31 b 0 0 true) (plied 3)) ∧ (plied 3).Room 1 ∧
    spansOf ((plied 3).pliedCheck .read 0 0 64 4 false fun _ _ => false) = some 4 ∧
    spansOf ((plied 3).pliedCheck .read 0 5 64 4 false fun _ _ => false) = none ∧
    spansOf ((plied 3).pliedCheck .write 0 4032 64 1 false fun p n => n < p.ply) = some 1 ∧
    spansOf ((plied 3).pliedCheck .write 0 4040 64 1 false fun p n => n < p.ply) = none ∧
    spansOf ((plied 1).pliedCheck .write 0 0 64 3 false fun p n => n < p.ply) = none ∧
    spansOf ((plied 3).pliedCheck .write 0 0 32 4 true fun _ n => n ≠ 3) = some 5 ∧
    spansOf ((plied 1).pliedCheck .write 0 0 32 4 true fun _ n => n ≠ 3) = none ∧
    (plied 3).cur.withinBudget (cellsAt 0x100000 [1]) = true ∧
    (let s := { plied 3 with badDram := [0] }
     (match s.pliedCheck .write 0 0 32 4 true fun _ n => n ≠ 3 with | .ok l => s.pliedError l | .error _ => none).isSome = true) := by
  decide +kernel
/-- Ply 0 of element 1 is the upper nibble of the first byte. -/
theorem test_plied :
    landing (exec (.ldp 0 4 0 0 0 1 false) { plied 3 with dram := [(0x100000, 0x21), (0x100800, 0x43)] }) =
      some (.v, 4, 160, 0x24001300) ∧
    nextHas (exec (.stp 0 1 0 0 0 0) (plied 3)) (fun t => (Tab.get none t.cur.pending 0x100000).map Pend.byte == some 0x70) = true ∧
    raisedBy (exec (.stp 0 1 0 0 0 2) (plied 1)) = [(.translation, 1)] ∧
    raisedBy (exec (.pacc 0 1 1 0 0 false) (plied 3)) = [(.translation, 2)] := by decide +kernel

/-! ### Class 9 -/

/-- A scratchpad walk of four operands on port `n`. -/
def walk (n clog opw : Nat) : Nat × Walker := (n, { armed := true, clog, opw, counts := [3, 0, 0, 0, 0, 0], strides := [0, 0, 0, 0, 0, 0] })
def walks : Tab Walker := [walk 0 9 0, walk 1 8 1, walk 2 7 0, walk 3 6 1, walk 4 9 0]
/-- The same with its ports armed, and a bank whose first cell is 5 × 2^18 with a good residue. -/
def armed : State :=
  { (bench.updCur fun x => { x with ports := walks }).updCurCore fun k =>
      { k with arr := { bank0 := { cells := [(0, { acc := 0x140000, res := 5 })] } } } with slot := { ports := walks } }
/-- The same with a residue that disagrees, with a walk outside the allocation, and with an exponent that overflows. -/
def cracked : State := armed.updCurCore fun k => { k with arr := { bank0 := { cells := [(0, { acc := 0x140000, res := 4 })] } } }
def astray : State := armed.updCur fun x => { x with ports := [(4, { (walk 4 9 0).2 with start := 2 ^ 40 })] }
def hot : State :=
  (armed.updCurCore fun k => { k with arr := { bank0 := { cells := [(0, { acc := 2 ^ 46, res := 4 })], dexp := 127 } } }).updCur fun x =>
    { x with csr := [(csrFlgen, face 64 0xFFFF)] }

theorem witness_ArraySyllables :
    (∀ i ∈ [Instr.xcfg 0 true 3 3 0x80, .xpush 0, .xacc 0 true, .xshift 0 false, .xdrain 0 false], Normal i armed) ∧
    (armed.popPorts (.xpush 0)).slot.ecc = false ∧
    (let b := armed.curCore.arr.bank false
     ((List.range 128).all fun k => (Tab.get {} b.cells k).poison || (((Tab.get {} b.cells k).value % 15).toNat == (Tab.get {} b.cells k).res.toNat)) =
       true) ∧ Tab.wf {} armed.curCore.arr.bank0.cells = true ∧
    Normal (.xdrain 0 false) cracked ∧ ((Tab.get {} cracked.curCore.arr.bank0.cells 0).value % 15).toNat ≠ 4 ∧
    Normal (.xdrain 0 false) astray ∧ Normal (.xdrain 0 false) hot ∧ Normal (.xshift 0 false) hot ∧
    hot.Enabled (hot.curCore.arr.bank0.drainCell (Tab.get {} hot.curCore.arr.bank0.cells 0)).2 ∧
    hot.Enabled flAOV := by decide +kernel
/-- Two banks of which one cell saturates and another does not. -/
theorem witness_ArraySyllables_cells :
    let m : MatrixArray := { bank0 := { cells := [(0, { acc := 2 ^ 46 }), (5, { acc := 3, poison := true })] }, bank1 := { cells := [(0, { acc := 2 ^ 46 })] } }
    Tab.wf {} (m.bank false).cells = true ∧ Tab.wf {} (m.bank true).cells = true ∧ 0 < 8192 ∧ 8191 < 8192 ∧
    (({ acc := 2 ^ 46 } : Cell).put (2 ^ 47) 0) = ({ acc := 2 ^ 47 - 1, res := 7 }, true) := by decide +kernel
/-- A scratchpad word with an uncorrectable error under q0. -/
theorem witness_ArraySyllables_error :
    let s := armed.updCurCore fun k => { k with bad := [0] }
    Normal (.xpush 0) s ∧ (s.popPorts (.xpush 0)).slot.ecc = true := by decide +kernel
/-- Stores, tagged stores, updates and rows for the queue that read q0, whose first word has an uncorrectable error (R156). -/
theorem witness_ports_with_errors :
    let s := { armed.updCurCore fun k => { k with bad := [0] } with slot := { ports := walks, lend := { bk := .pop } } }
    ∀ i ∈ [Instr.st 0 0 4 0 .v256, .sts 0 0 0 1 .v1024, .stq 0 0 4 2 .v256, .qpush 0 0 .q32, .pacc 0 0 0 0 0 false],
      Normal i s ∧ (s.popPorts i).slot.ecc = true := by decide +kernel
/-- A beat over ordinary scales and over one that is no number. -/
theorem witness_BeatAddsProducts :
    Tab.wf {} armed.curCore.arr.bank0.cells = true ∧ 0 < 8192 ∧ 8191 < 8192 ∧
    (#[([1, 2, 3, 4, 5, 6, 7, 8], 127)] : Array (List Int × Nat)).getD 0 ([], 0) ≠ ([], 0xFF) := by decide +kernel

theorem test_array :
    nextHas (exec (.xcfg 0 true 2 1 0xFD) armed) (fun t => let b := t.curCore.arr.bank1
      t.curCore.arr.cur && (b.i, b.j, b.dexp) == (2, 1, -3)) = true ∧
    raisedBy (exec (.xdrain 0 false) cracked) = [(.dataError, 1)] ∧
    raisedBy (exec (.xdrain 0 false) astray) = [(.translation, 4)] := by decide +kernel

/-! ### Class 10 -/

def engines : List Instr :=
  [.ecopy 0 24 false false true 5 .b8 0, .ecopy 0 0 true true false 0 .b64 255, .egather 0 24 false true true .b32 7,
   .ereduce 0 0 false false 2 2 0, .epage 0 8 false true true 1 1 true 63, .epage 0 8 false true false 3 3 false 255,
   .edict 0 16 true false 2 0]
theorem witness_EngineCommandsEnterFlight : ∀ i ∈ engines, Normal i bench := by decide +kernel
/-- The word of EPAGE e8, dir=in, plies=2, dict=1, slot=1, ev=3 has 0x6B03 in its low half. -/
theorem test_engine_header :
    nextHas (exec (.epage 0 8 false true true 1 1 true 3) bench) (fun t => t.engines.map (fun e => (e.op, e.cmdh)) == [(3, 0x6B03)]) = true ∧
    nextHas (exec (.ecopy 0 8 false true false 1 .b32 5) bench) (fun t => t.engines.map (fun e => (e.op, e.cmdh)) == [(0, 0x4605)]) = true ∧
    nextHas (exec (.egather 0 0 false true true .b32 7) bench) (fun t => t.engines.map (fun e => (e.op, e.cmdh)) == [(1, 0x6207)]) = true ∧
    nextHas (exec (.ereduce 0 0 false false 0 0 0) bench) (fun t => t.engines.map (fun e => (e.op, e.stage.getD 1 0)) == [(2, 9)]) = true ∧
    nextHas (exec (.edict 0 16 false false 2 0) bench) (fun t => t.engines.map (fun e => (e.op, e.cmdh)) == [(4, 0x0400)]) = true := by
  decide +kernel

/-! ### Class 11 -/

/-- Staging registers that describe a walk of four operands for q0, and reserved bits beside them. -/
def staged (w0 : Nat) : State := bench.updCur fun x => { x with e := [(0, face 64 w0), (1, face 64 (3 * 2 ^ 32 + 512))] }
theorem witness_SystemSyllables :
    (∀ i ∈ [Instr.csrr 0 3 0x100, .csrr 0 3 0x030, .csrr 0 3 0x111, .csrw 0 5 0, .csrw 0 1 0x043, .flags 0 7 false 15, .flags 0 7 true 8,
      .versw 0, .verswNamed 0 1, .verpub 0 6, .qarm 0 0 24], Normal i bench) ∧ bench.Room 2 ∧
    csrClass 0x100 = some .live ∧ csrClass 0x030 = some .control ∧
    (∀ n ∈ [63, 64], let s := bench.updCur fun x => { x with inflight := List.replicate n {} }
     Normal (.flags 0 7 true 8) s ∧ Normal (.csrr 0 3 0x100) s ∧ Normal (.csrw 0 5 0) s ∧ ¬ s.Room 2 ∧ (s.Room 1 ↔ n = 63)) ∧
    (∀ n ∈ [9 * 2 ^ 56, 9 * 2 ^ 56 + 2 ^ 48], Normal (.qarm 0 0 0) (staged n)) ∧
    (walkerOf 0 ((List.range 8).map fun k => ((staged (9 * 2 ^ 56)).cur.readE k).toNat)).isSome = true ∧
    walkerOf 0 ((List.range 8).map fun k => ((staged (9 * 2 ^ 56 + 2 ^ 48)).cur.readE k).toNat) = none := by decide +kernel

theorem test_csr :
    landing (exec (.csrw 0 1 0) bench) = some (.csr, 0, 1, 1) ∧
    landing (exec (.csrr 0 3 0x002) strict) = some (.s, 3, 1, 0xFFFF) := by decide +kernel
theorem test_version_requests :
    nextHas (exec (.versw 0) bench) (fun t => t.verReqs.map (fun q => (q.pub, q.named)) == [(false, none)]) = true ∧
    nextHas (exec (.verswNamed 0 1) bench) (fun t => t.verReqs.map (fun q => (q.pub, q.named)) == [(false, some 5)]) = true ∧
    nextHas (exec (.verpub 0 6) bench) (fun t => t.verReqs.map (fun q => (q.pub, q.named)) == [(true, none)]) = true := by decide +kernel
theorem test_qarm :
    nextHas (exec (.qarm 0 0 0) (staged (9 * 2 ^ 56))) (fun t => (Tab.get {} t.cur.ports 0).left 0 == 4) = true ∧
    raisedBy (exec (.qarm 0 0 0) (staged (9 * 2 ^ 56 + 2 ^ 48))) = [(.illegalOperand, 0)] := by decide +kernel

/-! ### What happens without a syllable -/

theorem bench_canonical : bench.Canonical := by constructor <;> decide +kernel

/-- Context 0 with something else about it. -/
def with0 (f : Ctx → Ctx) : State := bench.updCtx 0 f
/-- A result of variable latency on its way to v4. -/
def inWay : Result := { id := 7, file := .v, reg := 4, ben := 0xFF, val := 6, isVar := true, unit := some 1 }

theorem witness_ContextSteps :
    (let s := with0 fun x => { x with level := 1, inflight := [inWay] }
     let x := s.ctx 0
     x.run = .running ∧ x.level ≠ 2 ∧ 0 ∉ s.served ∧ inWay.id = 7 ∧ inWay.isVar = true ∧ inWay.ready = true ∧ inWay.late = none ∧
       inWay.at_ ≤ s.cycle ∧ inWay ∈ x.inflight ∧
       (x.landUpTo x.count s.cycle).inflight.find? (fun a => a.id == 7 && a.isVar) = some inWay) ∧
    (∀ f ∈ [none, some { pub := .device }], ∀ d ∈ [none, some 0xFFE],
      let r := { inWay with late := some { cause := .dataError } }
      let s := with0 fun x => { x with inflight := [r], flip := f, redo := d }
      let x := s.ctx 0
      x.inflight.find? (fun a => a.faulted x.level x.count s.cycle) = some r ∧ x.run = .running) ∧
    (∀ r ∈ [Run.running, .finishing], let x := (with0 fun x => { x with irq := [5], run := r }).ctx 0
     x.level = 0 ∧ x.run = r ∧ x.handler = none ∧ x.redo = none ∧ x.irq = [5]) ∧
    (bench.ctx 0).run = .running ∧ (bench.ctx 0).rnd.length < 64 ∧ (bench.ctx 0).rndAt ≠ some bench.cycle ∧
    0 ∈ ({ bench with served := [0] } : State).served := by decide +kernel
theorem witness_TaskStartStep :
    let s := { with0 (fun x => { x with run := .between 0, share := { x.share with kernel := 3 } }) with kernels := [{ id := 3 }] }
    (s.ctx 0).run = .between 0 ∧ 0 ≤ s.cycle ∧ (s.kernel 3).isSome = true := by decide +kernel

theorem test_landing :
    nextHas (exec (.variableResultLand 0 7) (with0 fun x => { x with level := 1, inflight := [inWay] })) (fun t =>
      (Tab.get {} t.cur.v 4).h == 6 && (Tab.get {} t.cur.v 4).wr && t.cur.inflight.isEmpty) = true := by decide +kernel
theorem test_handler_entry :
    nextHas (exec (.handlerEntry 0) (with0 fun x => { x with irq := [5], csr := [(csrHvec, face 64 0x3000)] })) (fun t =>
      t.cur.pc == 0x3000 && t.cur.readH 0 == 5 && t.cur.irq.isEmpty && t.cur.handler == some { pc := 0x1000, noBrk := true }) = true := by decide +kernel
theorem test_late_fault :
    nextHas (exec (.lateFaultReport 0) (with0 fun x => { x with last := 0xFF0, inflight := [{ inWay with late := some { cause := .dataError } }] })) (fun t =>
      t.cur.run == .stopping && (t.cur.stop.map fun z => (z.rpc, z.done)) == some (0xFF0, 0xFFF)) = true := by decide +kernel

/-- A FLIP whose writes have landed. -/
def waiting (f : FlipWait → FlipWait) : State := with0 fun x => { x with level := 1, flip := some (f { pub := .device, landedAt := some 0 }) }
theorem witness_FlipReleaseStep :
    (let s := waiting fun w => { w with bar := .cl }
     let x := s.ctx 0
     x.alive = true ∧ x.preempt = false ∧ x.flip = some { pub := .device, landedAt := some 0, bar := .cl } ∧ x.level ≠ 2 ∧ x.stqs = 0 ∧
       s.roomToRelease 0 .device = true) ∧
    (let s := (waiting id).updCtx 0 fun x => { x with level := 2, count := 224 }
     let x := s.ctx 0
     x.alive = true ∧ x.level = 2 ∧ x.stqs = 0 ∧ max 0 x.stqBy + 224 ≤ x.count ∧ x.flip = some { pub := .device, landedAt := some 0 }) ∧
    (let s := waiting fun w => { w with pub := .cluster }
     s.overtaken (s.ctx 0).pendingLocs = false ∧ s.roomToRelease 0 .cluster = true) ∧
    (let s := waiting fun w => { w with pub := .system }
     s.roomToRelease 0 .system = true ∧ (s.ctx 0).inflight = []) := by decide +kernel
/-- Kernel 3 on contexts 0 and 2, which holds the lines of cluster 0 and of partition 0, on which `who` have arrived; context 0 waits. -/
def lined (who : List Nat) : State :=
  { (((waiting id).updCtx 0 fun x => { x with share := { x.share with kernel := 3 } }).updCtx 2 fun x =>
      { x with run := .running, share := { kernel := 3 }, flip := some { arrived := who.contains 2 } }).updCluster 0 (fun k =>
      { k with line := { holder := some 3, arrived := who } }) |>.updPart 0 (fun k => { k with line := { holder := some 3, arrived := who } }) with
    kernels := [{ id := 3, left := [0, 2], ctxs := [0, 2] }] }
theorem lined_canonical : (lined []).Canonical ∧ (lined [2]).Canonical := by constructor <;> constructor <;> decide +kernel
/-- The first of two arrivals, and the last. -/
theorem witness_FlipReleaseStep_lines :
    ∀ who ∈ [[], [2]], let s := lined who
      s.kernel 3 = some { id := 3, left := [0, 2], ctxs := [0, 2] } ∧ (s.ctx 0).part = 0 ∧
      (s.cluster 0).line = { holder := some 3, arrived := who } ∧ (s.part 0).line = { holder := some 3, arrived := who } ∧
      s.participants { id := 3, left := [0, 2], ctxs := [0, 2] } (some 0) = [0, 2] ∧ (s.ctx 2).share.kernel = 3 ∧ s.saved = [] ∧
      (((s.arriveAt 0 .cl).ctx 2).flip.bind FlipWait.fire) = (if who = [] then none else some (s.cycle + 2)) ∧
      (((s.arriveAt 0 .pt).ctx 0).flip.bind FlipWait.fire) = (if who = [] then none else some (s.cycle + 8)) := by decide +kernel
/-- A context with two pending bytes. -/
def stores : State := with0 fun x => { x with pending := [(0x2000, some { byte := 7 }), (0x2001, some { byte := 0, at_ := 1 })] }
theorem stores_canonical : stores.Canonical := by constructor <;> decide +kernel
theorem witness_DeviceReleaseCommits : stores.Canonical ∧ Tab.wf none (stores.ctx 0).pending = true := ⟨stores_canonical, by decide +kernel⟩
theorem test_release :
    let t := stores.release 0 .device
    Memory.read t.dram 0x2000 = 7 ∧ (t.ctx 0).pending = [] ∧ t.commits.length = 1 := by decide +kernel
theorem witness_FlipExchangeStep :
    (∀ f ∈ [fun w : FlipWait => { w with released := true }, fun w => { w with pub := .none }, fun w => { w with released := true, retire := true },
        fun w => { w with released := true, bar := .pt, fire := some 0 }],
      let s := { waiting f with served := [0] }
      let x := s.ctx 0
      x.alive = true ∧ 0 ∈ s.served ∧ ∃ w ∈ x.flip, w.landedAt.isSome = true ∧ (w.pub = .none ∨ w.released = true) ∧
        (w.bar = .nb ∨ ∃ c ∈ w.fire, c ≤ s.cycle) ∧ s.lockedChunk = false ∧ s.lockedTag = false ∧ x.preempt = false ∧
        s.boundary 0 = false) := by decide +kernel
/-- Registers of each file that have been written in this phase. -/
def written : Ctx := { s := [(1, { v := 1, h := 2, wr := true })], v := [(1, { v := 1, h := 2, wr := true })], p := [(2, { v := 1, wr := true })], e := [(0, { h := 3, wr := true })], csr := [(0, { h := 1, wr := true })] }
theorem witness_ExchangeSwapsFaces :
    Tab.wf {} written.s = true ∧ Tab.wf {} written.v = true ∧ Tab.wf {} written.p = true ∧ Tab.wf {} written.e = true ∧
    Tab.wf {} written.csr = true ∧ Tab.wf 0 written.srCount = true := by decide +kernel
theorem test_exchange :
    Tab.get {} written.exchange.s 1 = ({ v := 2, h := 1 } : Face 64) ∧ written.exchange.csrV 0 = 1 ∧
    Tab.get {} ({ s := [(1, { v := 1, h := 2 })] } : Ctx).exchange.s 1 = ({ v := 1, h := 2 } : Face 64) := by decide +kernel
/-- A context in which a write of the low half of v1 has landed at cycle 9, position 2, and DWR is clear. -/
def landedOnce : Ctx :=
  { written with csr := [(csrFlgen, face 64 0x100)], landed := [{ file := .v, reg := 1, ben := 0xFFFF, due := 9, pos := 2 }] }
theorem witness_LandingMergesBytes :
    Tab.wf {} landedOnce.s = true ∧ Tab.wf {} landedOnce.v = true ∧ Tab.wf {} landedOnce.p = true ∧ Tab.wf {} landedOnce.e = true ∧
    Tab.wf {} landedOnce.csr = true ∧ Tab.wf none landedOnce.latch = true ∧ Tab.wf 0 landedOnce.latchAt = true ∧
    (∀ f ∈ [RFile.s, .v, .p, .e, .csr, .latch], ({ inWay with file := f } : Result).flags = 0) := by decide +kernel
/-- A second write to v1 before and after the first in the order of R32; flags with EV set, FEVT empty or with an event of the cycle. -/
theorem witness_LandingMergesBytes_status :
    (∀ due ∈ [8, 9], let r : Result := { inWay with reg := 1, due, pos := 3 }
      r.file ≠ .csr ∧ r.flags = 0 ∧ r.reg < 64 ∧ r.pos < 12 ∧
      (landedOnce.clashes r).any (fun l => l.beats r) = decide (due = 8) ∧ (landedOnce.clashes r).length = 1 ∧
      bitAt (Tab.get {} landedOnce.csr 0x010).v.toNat 0 = false ∧ (Tab.get {} landedOnce.csr 0x010).wr = false) ∧
    (let r : Result := { inWay with flags := flNX ||| flOF, fslot := 5, pos := 4 }
     r.file ≠ .csr ∧ r.flags ≠ 0 ∧ r.fslot < 9 ∧ r.flags.getLsbD 2 = true ∧ r.flags.getLsbD 1 = false ∧
     bitAt (Tab.get {} landedOnce.csr 0x002).v.toNat 8 = true ∧ bitAt (Tab.get {} landedOnce.csr 0x012).v.toNat 63 = false ∧
     (let y := landedOnce.land 7 r
      y.fevtAt = some 7 ∧ bitAt (Tab.get {} y.csr 0x012).h.toNat 63 = true ∧ bits (Tab.get {} y.csr 0x012).h.toNat 50 48 = 2 ∧
      (y.land 7 { r with pos := 3 }).csrH 0x012 = 2 ^ 63 + 2 ^ 49 + 3 ∧ (y.land 8 { r with pos := 3 }).csrH 0x012 = y.csrH 0x012)) := by
  decide +kernel
theorem test_double_write :
    (Tab.get {} (landedOnce.land 0 { inWay with reg := 1, due := 8 }).v 1).h = 2 ∧
    (Tab.get {} (landedOnce.land 0 { inWay with reg := 1, due := 9, pos := 3 }).v 1).h = 6 ∧
    (landedOnce.land 0 { inWay with reg := 1, due := 8, baddr := 0x1230, pos := 3 }).csrH 0x011 = 2 ^ 62 + 2 ^ 56 + 0x1233 := by decide +kernel

/-! ### Versions -/

/-- Device memory with dwords in it. -/
def memoryOf (l : List (Nat × Nat)) : Tab Byte := l.foldl (fun m a => Memory.writeAll m (cellsAt a.1 (bytesOf 8 a.2))) []
/-- Region 0 at 0x4000, of partition 0, rolled out to partition 1, with slots of the states and versions given. -/
def regional (slots : List (Nat × Nat)) : State :=
  { bench with vrtbase := 0x4000, dram := memoryOf ([(0x4000, 2 ^ 63 + 2 ^ 48 + 4 * 2 ^ 30), (0x4008, 2 * 16)] ++
      slots.zipIdx.map fun k => (0x4010 + 16 * k.2, k.1.2 * 2 ^ 48 + k.1.1 * 2 ^ 45)) }
/-- A request of context 0, which runs for partition 0 or 1. -/
def asking (p : Nat) (q : VerReq) (slots : List (Nat × Nat)) : State :=
  { (regional slots).updCtx 0 (fun x => { x with share := { x.share with lpart := p } }) with verReqs := [q], cycle := 1 }
/-- The learner of region 0, a partition that rolls it out, and one that no region names. -/
theorem witness_PublishStep :
    ∀ p ∈ [0, 1, 2],
      let s := asking p { pub := true } [(1, 9)]
      s.verReqs[0]? = some { pub := true } ∧ 0 < s.cycle ∧ s.tagWrites = [] ∧ s.roomToRelease 0 .device = true ∧ (s.ctx 0).part = p ∧
      (s.regionBound p).map (fun b => (b.1, b.2.lpart)) = (if p = 2 then none else some (0, 0)) ∧
      (p = 0 → ((((s.atRegion 0).release 0 .device).atRegion 0).region 0).isSome = true) := by decide +kernel
theorem witness_SwitchStep :
    ∀ slots ∈ [[(2, 9)], [(1, 9)]], ∀ named ∈ [none, some 9, some 8], ∀ p ∈ [0, 1, 2],
      let s := asking p { named := named } slots
      s.verReqs[0]? = some { named := named } ∧ 0 < s.cycle ∧ (s.ctx 0).part = p ∧
      (s.regionBound p).map (fun b => (b.1, bitAt b.2.rmask p, b.2.slotIn stCurrent, (b.2.slotHolding 9).isSome)) =
        if p = 2 then none else some (0, p == 1, if slots = [(2, 9)] then some 0 else none, decide (slots = [(2, 9)])) := by
  decide +kernel
theorem test_switch :
    nextHas (exec (.verswStep 0) (asking 1 {} [(2, 9)])) (fun t => (t.ctx 0).pin == some 9 && t.verReqs.isEmpty &&
      (t.region 0).map (fun g => (g.slots.getD 0 {}).pins) == some 1) = true := by decide +kernel
theorem test_publish :
    nextHas (exec (.verpubStep 0) (asking 0 { pub := true } [(2, 8), (1, 9)])) (fun t =>
      (t.region 0).map (fun g => g.slots.map VSlot.state) == some [4, 2, 0, 0] && t.verReqs.isEmpty) = true := by decide +kernel
/-- A region with a pinned current version, an older one and a draft, none of them unflushed. -/
def pinned : State :=
  { bench with vrtbase := 0x4000, dram := memoryOf [(0x4000, 2 ^ 63 + 2 ^ 48 + 4 * 2 ^ 30), (0x4008, 2 * 16),
      (0x4010, 9 * 2 ^ 48 + 2 * 2 ^ 45 + 2 * 2 ^ 33), (0x4020, 8 * 2 ^ 48 + 3 * 2 ^ 45 + 2 ^ 33), (0x4030, 10 * 2 ^ 48 + 2 ^ 45)] }
theorem pinned_canonical : pinned.Canonical := by constructor <;> decide +kernel
/-- A context whose phase has pinned version 8 switches to 9, which retires the slot of 8; and the flip away from 8. -/
theorem witness_VersionSteps_pins :
    pinned.regionAt 0 + 128 ≤ 2 ^ Config.dpaBits ∧ pinned.unflushedAt ((List.range 128).map fun k => pinned.regionAt 0 + k) = [] ∧
    (pinned.region 0).map (fun g => (g.lpart, g.slots.map fun v => (v.ver, v.state, v.pins))) =
      some (0, [(9, 2, 2), (8, 3, 1), (10, 1, 0), (0, 0, 0)]) ∧ Tab.wf 0 (pinned.part 0).counters = true ∧
    pinned.rolloutRegion 1 = some 0 ∧
    ((pinned.switchPins 0 { pin := some 8 } 9).region 0).map (fun g => g.slots.map fun v => (v.state, v.pins)) =
      some [(2, 3), (4, 0), (1, 0), (0, 0)] ∧
    ((pinned.movePin 1 8 9).region 0).map (fun g => g.slots.map fun v => (v.state, v.pins)) = some [(2, 2), (4, 0), (1, 0), (0, 0)] ∧
    Tab.get 0 ((pinned.movePin 1 8 9).part 0).counters 0 = 1 := by decide +kernel
theorem witness_PublishOutcome_slots :
    ∀ cap ∈ [0, 1], let s := { pinned with dram := Memory.writeAll pinned.dram (cellsAt 0x4010 (bytesOf 8 (9 * 2 ^ 48 + 2 * 2 ^ 45 + cap * 2 ^ 44))) }
      s.unflushedAt ((List.range 128).map fun k => s.regionAt 0 + k) = [] ∧
      (s.region 0).map (fun g => (g.slotIn stDraft, g.slotIn stCurrent, g.slots.countP fun v => v.state == stOlder)) = some (some 2, some 0, 1) ∧
      ((s.region 0).map fun g => ((s.publishRegion 0 g).1, (s.publishRegion 0 g).2.region 0 |>.map fun h => h.slots.map VSlot.state)) =
        some (10, some [if cap = 1 then 3 else 4, 3, 2, 0]) := by decide +kernel
/-- The four outcomes: no draft, two older versions and a pinned current one, a version that is held, and success. -/
theorem witness_PublishOutcome :
    ({ slots := [{ state := stCurrent }] } : Region).slotIn stDraft = none ∧
    (let g : Region := { slots := [{ state := stDraft, ver := 4 }, { state := stCurrent, ver := 3, pins := 1 }, { state := stOlder, ver := 2 },
        { state := stOlder, ver := 1 }] }
     g.slotIn stDraft = some 0 ∧ g.slotIn stCurrent = some 1 ∧ 0 < (g.slots.getD 1 {}).pins ∧
       (g.slots.countP fun v => v.state == stOlder) = 2) ∧
    (let g : Region := { slots := [{ state := stDraft, ver := 3 }, { state := stCurrent, ver := 3 }] }
     g.slotIn stDraft = some 0 ∧ (g.slots.getD 1 {}).pins = 0 ∧ ∃ v ∈ g.slots, v.state = stCurrent ∧ v.ver = 3) ∧
    (let g : Region := { slots := [{ state := stDraft, ver := 4 }, { state := stCurrent, ver := 3 }] }
     g.slotIn stDraft = some 0 ∧ ¬ ∃ v ∈ g.slots, (v.state = stCurrent ∨ v.state = stOlder) ∧ v.ver = 4) := by decide +kernel

/-! ### Walks and the tables of the owner -/

/-- A page of 1 GB at address 0, in tables at 0x8000 and 0xA000 (R158, R159). -/
def paged : State :=
  { walkless.updPart 0 (fun x => { x with ptroot := 0x8000 }) with dram := memoryOf [(0x8000, 2 ^ 62 + 0xA000), (0xA000, placedPage.word0)] }
def request : Walk := { who := .bundle 0, va := 0x2000 }
theorem witness_WalkSteps :
    (let s := { paged with walksWaiting := [request] }
     s.nextWalk 0 = some 0 ∧ s.walksWaiting[0]? = some request) ∧
    (∀ till ∈ [0, 1], let s := { paged with walks := [{ request with till }, { request with joined := true }], cycle := 1 }
      s.walks[0]? = some { request with till } ∧ till ≤ s.cycle) ∧
    (match paged.walk 0 none 0x2000 with | .ok e => e == placedPage | .error _ => false) = true ∧
    (match paged.walk 0 none (2 ^ 40) with | .ok _ => none | .error n => some n) = some 0 := by decide +kernel
theorem test_walk :
    nextHas (exec (.translationWalkComplete 0) { paged with walks := [request] }) (fun t =>
      (t.core 0).tlb == [placedPage] && (t.cluster 0).tlb == [placedPage] && t.walks.isEmpty) = true ∧
    nextHas (exec (.translationWalkComplete 0) { paged with walks := [{ request with va := 2 ^ 40 }] }) (fun t =>
      (t.ctx 0).walked.length == 1 && (t.core 0).tlb.isEmpty) = true := by decide +kernel

/-- The same with an owner, host 1024. -/
def owned : State := { bench with owner := { id := some 1024, epoch := 3 } }
theorem owned_canonical : owned.Canonical := by constructor <;> decide +kernel
theorem witness_TablesOfTheOwner :
    owned.Canonical ∧ owned.owner.id.isSome = true ∧ owned.alarm = none ∧ (owned.part 0).on = true ∧
    ((owned.updPart 0 fun x => { x with busy := true, inval := [(0, 2)] }).part 0).busy = true ∧
    owned.lendRefused 16 (2 ^ 63 + 2 ^ 38) = false ∧ owned.lendRefused 0 (2 ^ 63 + 2 ^ 38) = true ∧ 16 < 512 := by
  refine ⟨owned_canonical, ?_⟩; decide +kernel
theorem test_tlbinv :
    nextHas (exec (.tlbinv 0 2) owned) (fun t => (t.core 0).tlb.isEmpty && (t.part 0).busy) = true ∧
    nextHas (exec (.vlendWrite 16 (2 ^ 63 + 2 ^ 38 + 1)) owned) (fun t => Tab.get 0 t.vlend 16 == 2 ^ 63 + 2 ^ 38) = true := by decide +kernel

/-! ### Atomics, tagged writes, caches and ports -/

def adding : Atomic := { res := 7, loc := 0x2000, size := 8, op := some .add, arg := 5 }
/-- An atomic and the result that waits for it. -/
def atomics (a : Atomic) : State :=
  { with0 (fun x => { x with inflight := [{ inWay with ready := false }] }) with atomics := [a], dram := memoryOf [(0x2000, 0xFF)] }
theorem witness_AtomicPerforms :
    (let s := atomics adding
     s.atomics[0]? = some adding ∧ adding.held = false ∧ s.atomicError adding = none) ∧
    (let s := { atomics adding with badDram := [0x100] }
     (s.atomicError adding).isSome = true) ∧
    (atomics { adding with inst := .cluster 0 }).overtaken ((List.range 8).map fun i => 0x2000 + i) = false ∧
    (atomics { adding with remote := true }).atomics.length = 1 ∧
    (let s := { atomics adding with atomics := [{ adding with held := true }, adding] }
     s.atomics[1]? = some adding ∧ (s.atomics.take 1).all Atomic.held = true ∧ nextHas (exec (.atomicPerform 1) s) (fun _ => true) = true) := by
  decide +kernel
theorem witness_AtomicChangesMemory :
    let s := atomics adding
    Memory.wf s.dram = true ∧ adding.loc < 2 ^ Config.dpaBits ∧ adding.inst = .device ∧ 0 < adding.size ∧
    s.unflushedAt ((List.range adding.size).map fun i => 0x2000 + i) = [] ∧ atomNew none 8 7 6 5 = none ∧
    atomNew (some .add) 8 7 6 5 = some 13 := by decide +kernel
theorem test_atomic_performs :
    nextHas (exec (.atomicPerform 0) (atomics adding)) (fun t => Memory.readN t.dram 0x2000 2 == [4, 1] &&
      t.cur.inflight.map (fun r => (r.val, r.ready)) == [(0xFF, true)]) = true := by decide +kernel

def tagged : TagWrite := { line := 0x20, act := .bytes [(0x2000, 9)] }
theorem witness_TaggedWriteSteps :
    (∀ tag ∈ [0, 1],
      let w := { tagged with tag }
      let s := { bench with tagWrites := [w] }
      s.tagWrites[0]? = some w ∧ w.held = none ∧ w.peer = none ∧ w.due ≤ s.cycle ∧ s.tagBlocked w = false ∧ s.tagMatches w = (tag == 0)) ∧
    (∀ cmd ∈ [none, some 3],
      let w := { tagged with tag := 1, held := some 0, cmd }
      let s := { bench with tagWrites := [w], cycle := 2 ^ 24 }
      s.tagWrites[0]? = some w ∧ 0 + Config.heldCycles ≤ s.cycle ∧ w.isReduce = false) ∧
    (let w := { tagged with tag := 1, held := some 0, act := .reduce 0 0 [], peer := some 5 }
     let s := { bench with tagWrites := [w], cycle := 2 ^ 24 }
     s.tagWrites[0]? = some w ∧ 0 + Config.heldCycles ≤ s.cycle ∧ w.cmd = none ∧ w.isReduce = true ∧ w.peer = some 5) := by
  decide +kernel
theorem test_tagged :
    nextHas (exec (.taggedWriteArrive 0) { bench with tagWrites := [tagged] }) (fun t => Tab.get 0 t.tags 0x20 == 1 &&
      Memory.read t.dram 0x2000 == 9) = true ∧
    nextHas (exec (.taggedWriteArrive 0) { bench with tagWrites := [{ tagged with tag := 1 }] }) (fun t =>
      t.tagWrites.map TagWrite.held == [some 0] && Memory.read t.dram 0x2000 == 0) = true := by decide +kernel

/-- A cluster cache with a line that has been committed and not flushed, and a clean one. -/
def cached : State := bench.updCluster 0 fun k => { k with lines := [0x20, 0x21], unflushed := [{ loc := 0x2000, byte := 9 }] }
theorem cached_canonical : cached.Canonical := by constructor <;> decide +kernel
/-- A context whose port 0 walks global memory, with nothing fetched and with one operand on its way. -/
def porting (l : List Fetched) : State := with0 fun x => { x with level := 2, ports := [(0, { (walk 0 9 0).2 with glob := true, ahead := l })] }
theorem witness_CacheAndPortSteps :
    cached.Canonical ∧ cached.pendsAt 0 0x20 = false ∧ cached.pendsAt 0 0x21 = false ∧ 0x21 ∈ (cached.cluster 0).lines ∧ (∃ u ∈ (cached.cluster 0).unflushed, u.loc / 256 = 0x20) ∧
    (let x := (porting []).ctx 0
     let w : Walker := Tab.get {} x.ports 0
     x.run = .running ∧ w.armed = true ∧ w.glob = true ∧ w.from_ ≤ bench.cycle ∧ w.ahead.length < 8 ∧ w.ahead.length < w.left 0 ∧ w.lastFetch = none) ∧
    (let s := { porting [{}] with cycle := 160 }
     let w : Walker := Tab.get {} (s.ctx 0).ports 0
     w.ahead.findIdx? (fun f => !f.here) = some 0 ∧ (w.ahead.getD 0 {}).began + 160 ≤ s.cycle) ∧
    (let s := (porting [{}]).updCtx 0 fun x => { x with level := 1 }
     let w : Walker := Tab.get {} (s.ctx 0).ports 0
     w.ahead.findIdx? (fun f => !f.here) = some 0 ∧ (s.ctx 0).level ≠ 2 ∧ s.walks = [] ∧ s.walksWaiting = [] ∧
       s.portMissing 0 0 0 w = none ∧ ((s.updCore 0 fun k => { k with tlb := [] }).portMissing 0 0 0 w).isSome = true) := by
  refine ⟨cached_canonical, ?_⟩; decide +kernel
theorem test_writeback :
    nextHas (exec (.replacementWriteback 0 0x20) cached) (fun t => (t.cluster 0).lines == [0x21] && Memory.read t.dram 0x2000 == 9 &&
      (t.cluster 0).unflushed.isEmpty) = true := by decide +kernel
theorem test_port_fetch :
    nextHas (exec (.portOperandFetch 0 0) (porting [])) (fun t => (Tab.get {} (t.ctx 0).ports 0).ahead.length == 1) = true := by
  decide +kernel

/-! ### Engines in flight -/

/-- A command of context 0 in flight: e3 elements of four bytes in one level, from memory at 0x2000 to memory at 0x2100. -/
def copying (words : List Nat) (op cmdh : Nat) : EngCmd := { id := 9, op, cmdh, stage := words.map (BitVec.ofNat 64), level := 1 }
def running (e : EngCmd) : State :=
  { bench.updCluster 0 (fun k => { k with tlb := [placedPage] }) with engines := [e], dram := memoryOf [(0x2000, 0x1122334455667788)] }
/-- The next chunk of each command, at level 1 and at level 2, and a chunk that a page had kept back. -/
theorem witness_EngineSteps :
    ∀ f ∈ [copying [0x2000, 0x2100, 4 + 4 * 2 ^ 48] 0 0x0200, copying [0x2000, 0x2100, 0x2200, 1, 4] 1 0x0200,
        copying [0x2000, 0x2100, 1, 0] 2 0, copying [0x2000, 0x2000, 1, 64, 0] 3 0, copying [0x2000, 4] 4 0],
      (∀ e ∈ [f, { f with level := 2 }, { f with chunk := 1, behind := [0] }],
        let s := running e
        s.engines[0]? = some e ∧ s.canChunk 0 = true ∧ s.nextChunk e = some 0 ∧ s.chunkMiss e 0 = none ∧
          s.overtakes e 0 = false ∧ (e.level ≠ 2 ∨ e.late ≠ some 0)) ∧
      (f.op < 3 → ∀ e ∈ [f, { f with level := 2 }],
        let s := ((running e).updCluster 0 fun k => { k with tlb := [] }).updCore 0 fun k => { k with tlb := [] }
        s.engines[0]? = some e ∧ s.canChunk 0 = true ∧ s.nextChunk e = some 0 ∧ (s.chunkMiss e 0).isSome = true) := by
  decide +kernel
/-- An EGATHER of two rows of 256 bytes to the same bytes, whose first chunk is kept back by a walk: the second waits for it. -/
theorem witness_EngineChunkOrder :
    let e := { copying [0x2000, 0x2100, 0x2200, 2, 256] 1 0x0200 with chunk := 1, behind := [0] }
    let s := { (running e).updCluster 0 (fun k => { k with tlb := [] }) with
      walks := [{ who := .engine 9, va := 0x2200 }, { who := .engine 9, va := 0x2000 }] }
    s.engines[0]? = some e ∧ s.overtakes e 1 = true ∧ s.nextChunk e = some 1 ∧ s.canChunk 0 = true := by decide +kernel
/-- Two chunks of an ECOPY to another device: the second waits for the first whatever they write. -/
theorem witness_EngineChunkOrder_remote :
    let e := { copying [0x2000, 2 ^ 63 + 7 * 2 ^ 48, 1 + 127 * 2 ^ 48] 0 0x0200 with chunk := 1, behind := [0] }
    e.away (running e).devId = true ∧ (running e).overtakes e 1 = true := by decide +kernel
/-- Two pages that one page of memory serves lead to one place. -/
theorem test_engine_frames :
    let s := { paged with dram := memoryOf [(0x8000, 2 ^ 62 + 0xA000), (0xA000, placedPage.word0), (0xA008, 0), (0xA010, placedPage.word0)] }
    s.engFrame (copying [] 0 0) 0 = s.engFrame (copying [] 0 0) (2 ^ 14) := by decide +kernel
/-- A dictionary in the format of RFC 8878: a Huffman table of two symbols, three FSE tables of one symbol each, the offsets 1, 4
and 8, and eight bytes of content. -/
def dictionary : List Byte :=
  [0x37, 0xA4, 0x30, 0xEC, 7, 0, 0, 0, 0x80, 0x10, 0xF0, 3, 0xF0, 3, 0xF0, 3, 1, 0, 0, 0, 4, 0, 0, 0, 8, 0, 0, 0, 1, 2, 3, 4, 5, 6, 7, 8]
/-- A dictionary that is read, and one that is too short. -/
theorem witness_EngineSteps_dictionary :
    ∀ n ∈ [36, 35, 4], let e := copying [0x2000, n] 4 0
      (match ({ running e with dram := Memory.writeAll [] (cellsAt 0x2000 dictionary) } : State).edictRun e with
        | .ok b => b == dictionary | .error _ => false) = decide (n = 36) := by decide +kernel
theorem witness_EngineCompletion :
    ∀ e ∈ [{ copying [] 0 0x4005 with chunk := 1 }, { copying [] 3 0x6003 with chunk := 1 }, { copying [] 0 0 with err := 5 },
        { copying [] 0 0x8000 with chunk := 1, level := 0 }, { copying [] 4 0x4400 with chunk := 1, level := 2 }],
      (running e).engines[0]? = some e ∧ e.copy = none ∧ (e.err ≠ 0 ∨ (e.chunks ≤ e.chunk ∧ e.behind = [] ∧ e.tagged = 0 ∧
        (e.level ≠ 2 ∨ e.chunks ≠ 0) ∧ e.orphan = false ∧ (bitAt e.cmdh 15 = decide (e.level = 0)))) := by decide +kernel
theorem test_engine_completes :
    nextHas (exec (.engineComplete 0) (running { copying [] 0 0x4005 with chunk := 1 })) (fun t =>
      Tab.get 0 (t.part 0).counters 5 == 1 && t.engines.isEmpty) = true ∧
    nextHas (exec (.engineComplete 0) (running { copying [] 0 0x8000 with chunk := 1, level := 0 })) (fun t =>
      (t.ctx 0).irq.length == 1) = true := by decide +kernel

/-! ### Kernels and queues -/

/-- A packet of a type from host 1024's number with its body. -/
def packet (ty : Nat) (body : List Nat) : Packet :=
  { hdr := BitVec.ofNat 64 (ty * 2 ^ 60 + body.length * 2 ^ 40 + 1023 * 2 ^ 30), body := body.map (BitVec.ofNat 64) }
/-- Queue 0 of partition 0 with packets and something else about it. -/
def queued (l : List Packet) (f : Queue → Queue := id) : State :=
  (bench.updCtx 0 fun _ => {}).updQueue 0 0 fun x => f { x with packets := l.zipIdx.map fun k => { pk := k.1, arrival := k.2 + 1 } }
/-- One tile on one cluster, which the last of its sixteen cores runs: DEPTH 1, entry 0x1000, SYM 0. -/
def launching (prio : Nat) : Packet := packet tyLaunch [prio * 2 ^ 56 + 2 ^ 53 + 0x1000, 0, 0, 0, 0]
def atHead (k : QPacket) (s : State) (ty : Nat) : Bool :=
  (s.part 0).on && !(s.part 0).dead && (s.queue 0 0).halt.isNone && (s.queue 0 0).packets.head? == some k && !k.owed && pkType k.pk == ty

theorem witness_OldestOfHighestPriorityFirst :
    firstReady [{ queue := 0, k := { pk := launching 1, arrival := 2 } }, { queue := 1, k := { pk := launching 3, arrival := 9 } },
      { queue := 2, k := { pk := launching 3, arrival := 4 } }] = some { queue := 2, k := { pk := launching 3, arrival := 4 } } := by decide +kernel
/-- Two levels of 3 and 2 positions, the second innermost; the coordinates of ordinal 3 are (1, 1). -/
def grid : Desc := { words := [2 * 2 ^ 53, 8, 2 + 2 ^ 16, 0, 0] }
theorem witness_TilesAndSlices :
    (∀ i < grid.depth, ∀ j < grid.depth, grid.perm i = grid.perm j → i = j) ∧ grid.tiles = 6 ∧ grid.depth = 2 ∧
    0 < grid.rangeW * grid.rangeH / grid.stages := by decide +kernel
/-- The example of R51: one cluster, E0 = 5, E1 = 8 and PERM = 0x001, with `n` contexts on a core. -/
def grid51 (n : Nat) : Kernel := { desc := [2 * 2 ^ 53, 1 + (n - 1) * 2 ^ 27, 4 + 7 * 2 ^ 16, 0, 0].map (BitVec.ofNat 64) }
theorem witness_TilesAndSlices_slices :
    0 < (grid51 2).d.rangeW * (grid51 2).d.rangeH / (grid51 2).d.stages ∧ (grid51 1).posts.length = 16 ∧ (grid51 2).d.perCore = 2 ∧
    (grid51 2).posts.length = 32 := by decide +kernel
/-- R51: core 1 receives ordinals 2, 3 and 4; kernel context 0 runs 2 and 4, context 1 runs 3, which is tile (3, 0). -/
theorem test_slice_of_a_core :
    ((grid51 2).posts.filter fun t => t.share.lcore == 1).map (fun t => (t.j, t.share.tile, t.share.tileStep, t.share.tileEnd)) =
      [(0, 2, 2, 5), (1, 3, 2, 5)] ∧ (List.range 2).map (Tab.get 0 ((grid51 2).d.tileCoord 3)) = [3, 0] := by decide +kernel
theorem test_tile_coordinates : (List.range 2).map (Tab.get 0 (grid.tileCoord 3)) = [1, 1] := by decide +kernel

def launchable : State := queued [launching 0] fun x => { x with head := .waiting }
theorem witness_KernelSteps :
    (launchable.dispatchable 0).isSome = true ∧
    launchable.lockedChunk = false ∧ launchable.lockedTag = false ∧ ((with0 fun x => { x with run := .clearing 0 0 }).ctx 0).run = .clearing 0 0 ∧
    0 ≤ bench.cycle ∧ bench.alarm = none ∧
    ((with0 fun x => { x with run := .dying }).ctx 0).run = .dying ∧ (bench.core 0).fenced = false ∧ bench.engines = [] ∧
    (let s := with0 fun x => { x with run := .finishing }
     (s.ctx 0).run = .finishing ∧ (s.ctx 0).handler = none ∧ (s.ctx 0).irq = [] ∧ s.engines = []) := by decide +kernel
theorem witness_KernelSteps_canonical :
    (with0 fun x => { x with run := .dying }).Canonical ∧ (with0 fun x => { x with run := .finishing }).Canonical := by
  constructor <;> constructor <;> decide +kernel
theorem test_dispatch :
    nextHas (exec (.kernelDispatch 0) launchable) (fun t => t.kernels.length == 1 && (t.ctx 30).share.entry == 0x1000) = true := by
  decide +kernel

/-- A kernel in flight that runs on context 0 from queue 0. -/
def flying (f : Queue → Queue) : State :=
  { ((queued [launching 0] fun x => f { x with head := .running 3 }).updCtx 0 fun x => { x with
    run := .dying, share := { kernel := 3 } }) with kernels := [{ id := 3, left := [0], ctxs := [0] }] }
theorem witness_WatchdogSteps :
    ((flying fun x => { x with acted := 1 }).queue 0 0).acted = 1 ∧ ((flying id).queue 0 0).acted = 0 ∧
    (∀ s ∈ [flying fun x => { x with watch := 2 ^ 40 }, flying fun x => { x with watch := 2 ^ 40, acted := 1 },
        flying fun x => { x with watch := 2 ^ 40, acted := 2, halt := some .killed }],
      (s.part 0).on = true ∧ (s.queue 0 0).packets ≠ [] ∧ (s.queue 0 0).lim1 ≤ (s.queue 0 0).watch ∧
      (s.queue 0 0).lim2 ≤ (s.queue 0 0).watch ∧ (s.queue 0 0).lim3 ≤ (s.queue 0 0).watch ∧ (s.headKernel 0 0).isSome = true ∧
      s.stuck 0 0 = [0]) ∧
    (flying id).headKernel 0 0 ≠ none ∧ (queued [launching 0]).headKernel 0 0 = none := by decide +kernel
theorem test_watchdog :
    nextHas (exec (.watchdogPreempt 0 0) (flying fun x => { x with watch := 2 ^ 40 })) (fun t => (t.ctx 0).preempt) = true ∧
    nextHas (exec (.watchdogFence 0 0) (flying fun x => { x with watch := 2 ^ 40, acted := 2, halt := some .killed })) (fun t =>
      (t.core 0).fenced) = true := by decide +kernel

theorem witness_PacketsBegin :
    (∀ p ∈ [launching 0, packet tyCopy [1, 2, 3], packet tyDep [5, 7], packet tyDep [2 ^ 63 + 5, 7], packet tyDep [2 ^ 63 + 200, 7],
        packet tySignal [5, 7], packet tySignal [256, 7], packet tySetdet [1], packet tySetdet [3], packet tySetdet [6]],
      atHead { pk := p, arrival := 1 } (queued [p]) (pkType p) = true ∧ ((queued [p]).queue 0 0).head = .idle) ∧
    bodyBad (packet tyDep [5, 7]) = false ∧ bodyBad (packet tyDep [2 ^ 63 + 200, 7]) = true ∧
    pkWord (packet tySignal [5, 7]) 0 < 256 ∧ 256 ≤ pkWord (packet tySignal [256, 7]) 0 := by decide +kernel
theorem test_packets_begin :
    nextHas (exec (.signal 0 0) (queued [packet tySignal [5, 7]])) (fun t => Tab.get 0 (t.part 0).counters 5 == 7 &&
      (t.queue 0 0).packets.isEmpty) = true ∧
    nextHas (exec (.launch 0 0) (queued [packet tyLaunch [0, 0, 0, 0, 0]])) (fun t => (t.queue 0 0).halt == some .launchError) = true ∧
    nextHas (exec (.launch 0 0) (queued [launching 0])) (fun t => (t.queue 0 0).head == .waiting) = true := by decide +kernel

/-- A COPY whose command is in flight. -/
def copies (e : EngCmd) : State := { queued [packet tyCopy [1, 2, 3]] fun x => { x with head := .running 9 } with engines := [e] }
theorem witness_PacketsComplete :
    (∀ p ∈ [packet tyDep [5, 0], packet tyDep [2 ^ 63 + 5, 0], packet tySetdet [1], packet tySetdet [6]],
      let s := queued [p] fun x => { x with head := .waiting }
      atHead { pk := p, arrival := 1 } s (pkType p) = true ∧ (s.queue 0 0).head = .waiting ∧ s.unretired 0 none = false ∧
        s.unretired 0 (some 0) = false ∧ pkWord p 1 = 0) ∧
    ((List.range 16).all fun r => match (queued [packet tySetdet [6]] fun x => { x with head := .waiting }).headSetdet 0 r with
      | some j => decide (1 ≤ j.arrival) | none => true) = true ∧
    (∀ err ∈ [0, 4],
      let e := { copying [0, 0, 0] 0 0 with copy := some (0, 0), err }
      let s := copies e
      atHead { pk := packet tyCopy [1, 2, 3], arrival := 1 } s tyCopy = true ∧
      (s.queue 0 0).head = .running e.id ∧ s.engines.find? (fun f => f.copy == some (0, 0) && f.id == e.id) = some e ∧ e.chunks ≤ e.chunk ∧ e.behind = []) := by decide +kernel
theorem test_packets_complete :
    nextHas (exec (.setdetComplete 0 0) (queued [packet tySetdet [6]] fun x => { x with head := .waiting })) (fun t =>
      (List.range 16).all fun q => (t.queue 0 q).level == 2) = true ∧
    nextHas (exec (.copyComplete 0 0) (copies { copying [0, 0, 0] 0 0 with copy := some (0, 0), err := 4 })) (fun t =>
      (t.queue 0 0).halt == some .copyError) = true := by decide +kernel
theorem test_ecopy_chunk :
    nextHas (exec (.engineChunkPerform 0) (running (copying [0x2000, 0x2100, 2 ^ 48 + 4 * 2 ^ 24 + 4] 0 0x0200))) (fun t =>
      Memory.readN t.dram 0x2100 8 == Memory.readN t.dram 0x2000 8 && t.engines.map EngCmd.chunk == [1]) = true := by decide +kernel

/-! ### Versions, captures and marks at the head of a queue -/

/-- A MARK at the head in a replay. -/
def replaying : State := (queued [packet tyMark [0, 0]]).updPart 0 fun x => { x with replay := some 0 }
theorem witness_MarkPackets :
    (∀ w ∈ [0, 1, 2, 3, 4, 12],
      let p := packet tyMark [w, 0]
      atHead { pk := p, arrival := 1 } (queued [p]) tyMark = true ∧ ((queued [p]).queue 0 0).head = .idle ∧ bodyBad p = false) ∧
    ((queued []).part 0).logOn = false ∧ ((queued []).part 0).replay = none ∧ (replaying.part 0).replay.isSome = true ∧
    atHead { pk := packet tyMark [0, 0], arrival := 1 } replaying tyMark = true ∧ (replaying.queue 0 0).head = .idle ∧
    (let x : Part := { logOn := true, logLen := 4096 }
     x.logFits 100 = true ∧ x.logFits 5000 = false) := by decide +kernel
theorem witness_VersionPackets :
    (∀ p ∈ [packet tyPublish [0], packet tyCapture [0, 0], packet tyCapture [1, 0], packet tyCapture [2, 0]],
      atHead { pk := p, arrival := 1 } (queued [p]) (pkType p) = true ∧ ((queued [p]).queue 0 0).head = .idle ∧ bodyBad p = false ∧
        ((queued [p]).part 0).replay = none ∧ (((queued [p]).updPart 0 fun x => { x with replay := some 0 }).part 0).replay.isSome = true) := by
  decide +kernel
theorem test_replay_skips :
    nextHas (exec (.markOn 0 0) replaying) (fun t => !(t.part 0).logOn && (t.queue 0 0).packets.isEmpty) = true := by decide +kernel
theorem test_mark :
    nextHas (exec (.markOn 0 0) (queued [packet tyMark [0, 0]])) (fun t => (t.part 0).logOn && (t.queue 0 0).packets.isEmpty) = true ∧
    nextHas (exec (.markMode 0 0) (queued [packet tyMark [12, 0]])) (fun t => (t.part 0).logMark) = true := by decide +kernel
theorem test_publish_packet :
    nextHas (exec (.publish 0 0) (queued [packet tyPublish [0]])) (fun t => (t.queue 0 0).packets.isEmpty) = true := by decide +kernel
/-- Region 0 with one page of 2 MB in a slot at root 0xC000, whose capture has not reached it. -/
def capturing : State :=
  { regional [(2, 9)] with
    captures := [{ region := 0, slot := 0, fbase := 2 ^ 63 + 2 ^ 48 }]
    dram := memoryOf [(0x4000, 2 ^ 63 + 2 ^ 48 + 4 * 2 ^ 30), (0x4008, 2 * 16 + 8), (0x4010, 9 * 2 ^ 48 + 2 ^ 46 + 2 ^ 44), (0x4018, 0xC000),
      (0xC000 + 16 * 4, 2 ^ 63 + 2 * 2 ^ 60 + 2 ^ 55)] }

/-! ### Faults, pre-emption, dumps and the supervisor -/

/-- A context of kernel 3 that has trapped, with a record area at 0x100000. -/
def trapped : State :=
  { (with0 fun x => { x with run := .stopping, share := { kernel := 3 }, stop := some { raised := { cause := .translation } } }).updPart 0
      (fun x => { x with frbase := 0x100000 }) with kernels := [{ id := 3, left := [0], ctxs := [0] }] }
theorem trapped_canonical : trapped.Canonical := by constructor <;> decide +kernel
theorem witness_FaultRecordStep :
    trapped.Canonical ∧ (trapped.ctx 0).run = .stopping ∧ (trapped.ctx 0).inflight = [] ∧
    (trapped.ctx 0).stop = some { raised := { cause := .translation } } ∧ (trapped.kernel 3).map Kernel.part = some 0 ∧
    Cause.translation ≠ .dataError ∧ bitAt (trapped.part 0).fatal.toNat Cause.translation.code = false ∧
    (let s := { trapped.updPart 0 fun x => { x with fatal := 1 } with cycle := 1 }
     s.stopsFatally 0 = true ∧ s.faultCycle 0 < s.cycle ∧ nextHas (exec (.faultRecordWrite 0) s) (fun _ => true) = true) ∧
    ({ raised := { cause := .translation } } : Stop).held = none := by
  refine ⟨trapped_canonical, ?_⟩; decide +kernel

theorem witness_FaultRecordStep_bytes :
    let t : Stop := { raised := { cause := .debug, cond := 1, imm := 255, pos := 11 }, fwait := true }
    t.raised.cond < 16 ∧ t.raised.pos < 12 ∧ t.raised.imm < 256 ∧ (trapped.ctx 0).level < 3 ∧ t.fwait = true := by decide +kernel

theorem witness_SupervisorCommands :
    (∀ r ∈ [Run.stopped, .stopping, .running],
      let s := trapped.updCtx 0 fun x => { x with run := r }
      (s.part 0).on = true ∧ s.alarm = none ∧ (s.ctx 0).run = r ∧ (s.ctx 0).stop.isSome = true ∧ (s.ctx 0).share.lpart = 0 ∧
      0 ∉ (s.part 0).dumps ∧ (s.part 0).dead = false ∧ ({ s with owner := { id := some 1024 } } : State).Reached) ∧
    ((bench.ctx 1).run = .free) ∧
    (let s := queued [launching 0] fun x => { x with halt := some .launchError }
     (s.queue 0 0).halt.isSome = true ∧ (s.part 0).dead = false ∧ s.headKernel 0 0 = none) ∧
    ((flying id).headKernel 0 0).isSome = true := by decide +kernel
theorem test_supervisor :
    nextHas (exec (.ctxcmdPreempt ⟨0, false⟩ 0) (trapped.updCtx 0 fun x => { x with run := .running })) (fun t => (t.ctx 0).preempt) = true ∧
    nextHas (exec (.ctxcmdResume ⟨0, false⟩ 0) (trapped.updCtx 0 fun x => { x with run := .stopped })) (fun t => (t.ctx 0).run == .running) = true ∧
    nextHas (exec (.qctlDiscardHead ⟨0, true⟩ 0) { (queued [launching 0] fun x => { x with halt := some .launchError }) with
      owner := { id := some 1024 } }) (fun t => (t.queue 0 0).packets.isEmpty && (t.queue 0 0).halt.isNone) = true := by decide +kernel

/-- A saved context of kernel 3 whose place is free, kept on the core or away. -/
def savedAs (v : Saved) : State :=
  { with0 (fun x => { x with run := .preempted, share := { kernel := 3 } }) with saved := [v], kernels := [{ id := 3, left := [0], ctxs := [0] }] }
theorem witness_PreemptionSteps :
    (let s := with0 fun x => { x with preempt := true }
     (s.ctx 0).preempt = true ∧ (s.ctx 0).run = .running ∧ s.collected 0 = true ∧ (s.core 0).drains = [] ∧ s.verReqs = [] ∧
       s.atomics = []) ∧
    (savedAs { kernel := 3 }).restorable 0 = some { kernel := 3 } := by decide +kernel
theorem witness_PreemptionSteps_away :
    let v : Saved := { kernel := 3, away := some { bench.ctx 0 with share := { kernel := 3 } } }
    let s := { savedAs v with ctxs := [] }
    s.restorable 0 = some v := by decide +kernel
theorem test_restore :
    nextHas (exec (.contextRestore 0) (savedAs { kernel := 3 })) (fun t => (t.ctx 0).run == .running && t.saved.isEmpty) = true := by
  decide +kernel

/-- A partition with a dump to be written, with rings of one slot of 1 MB at 0x100000 and of sixteen. -/
def dumping (base shift : Nat) : State :=
  { bench.updPart 0 fun x => { x with dumps := [0], dmpBase := BitVec.ofNat 64 base, dmpShift := shift } with cycle := 5 }
theorem dumping_canonical : (dumping 0x100004 20).Canonical := by constructor <;> decide +kernel
theorem witness_DumpAndRerunSteps :
    (dumping 0x100004 20).Canonical ∧ ((dumping 0x100004 20).part 0).dumps = [0] ∧ (dumping 0x100004 20).dumpBad 0 = false ∧
    ((dumping 0x100004 20).part 0).dumpFull = false ∧ (dumping 0x100004 9).dumpBad 0 = true ∧
    (∀ l ∈ [[], [RunEnd.trapped 0 0 0 0]],
      let r : Rerun := { kernel := { ctxs := [2] }, ends := l }
      (bench.updPart 0 fun x => { x with reruns := [r] }).nextRerun 0 = some r) ∧
    (let r : Rerun := { ends := [.retired [7] 3 true, .retired [7] 3 false] }
     (bench.updPart 0 fun x => { x with reruns := [r] }).nextRerun 0 = some r) := by
  refine ⟨dumping_canonical, ?_⟩; decide +kernel
theorem test_dump_engine_fault :
    nextHas (exec (.dumpEngineFault 0) (dumping 0x100004 9)) (fun t => (t.part 0).dead && (t.queue 0 3).halt == some .dumpEngine) = true := by
  decide +kernel
theorem witness_VersionPackets_capture :
    capturing.alarm = none ∧ (capturing.captures.find? fun c => c.region == 0).isSome = true ∧
    ((capturing.region 0).bind fun g => capturing.nextCapture g 0) = some (4 * 2 ^ 30, 0xC040, 2) := by decide +kernel

/-! ### Arrivals and ownership -/

theorem witness_PacketsArrive :
    (∀ k ∈ [packet tyDep [5, 7], packet tyResync [0]], malformed k = false) ∧ malformed (packet tyDep [5]) = true ∧
    pkType (packet tyDep [5, 7]) < 8 ∧ pkType (packet tyResync [0]) = tyResync ∧ bitAt (pkWord (packet tyResync [0]) 0) 0 = false ∧
    (let s := { bench with owner := { id := some 1023 } }
     s.owner.id = some (pkSrc (packet tyDep [5, 7])) ∧ s.alarm = none ∧ (s.part 0).on = true ∧ (s.part 0).logOn = false ∧ (s.part 0).replay = none ∧
       (s.part 0).queueBytes + 24 ≤ Config.queueMemory) ∧
    bench.owner.id ≠ some 1023 ∧ (State.reset.part 0).on = false := by decide +kernel
/-- No election is open. -/
theorem witness_ElectionSettled : Claims.ElectionSettled bench bench := by
  simp only [Claims.ElectionSettled, show bench.owner.closes = none by decide +kernel]
theorem test_arrival :
    nextHas (exec (.packetArrival (packet tyDep [5, 7])) { bench with owner := { id := some 1023 } }) (fun t =>
      (t.queue 0 0).packets.map QPacket.pk == [packet tyDep [5, 7]]) = true ∧
    nextHas (exec (.packetArrival (packet tyDep [5, 7])) bench) (fun t => (t.queue 0 0).packets.isEmpty &&
      t.sent.map Message.dest == [1024, 1023]) = true := by decide +kernel

/-- An ownership packet with an OP, a NEW and an EPOCH. -/
def owning (op new epoch : Nat) : Packet :=
  { hdr := BitVec.ofNat 64 (9 * 2 ^ 60 + 3725 * 2 ^ 40 + 1023 * 2 ^ 30)
    body := BitVec.ofNat 64 (op * 2 ^ 62 + new * 2 ^ 32 + epoch) :: List.replicate 3724 0 }
/-- The signature is a free value, so that no state decides that it is good; with the keys cleared it is bad. -/
theorem witness_Ownership :
    (∀ op ∈ [0, 1, 2, 3], malformed (owning op 5 4) = false ∧ pkType (owning op 5 4) = tyOwner ∧
      bits (pkWord (owning op 5 4) 0) 63 62 = op) ∧ bits (pkWord (owning 0 0 4) 0) 31 0 = 4 ∧
    bench.owner.id = none ∧ bench.owner.epoch < 4 ∧ owned.owner.id.isSome = true ∧ owned.owner.id ≠ some 1023 ∧
    ({ bench with keysGone := true } : State).signed (owning 0 0 4) = false ∧
    bench.owner.closes = none ∧ owned.owner.closes = none ∧
    (∀ l ∈ [[], [{ src := 9, epoch := 7 }]], let s := { bench with owner := { claims := l, closes := some 5 }, cycle := 6 }
     s.owner.closes = some 5 ∧ 5 ≤ s.cycle ∧ winner s.owner.claims = l.head? ∧
       nextHas (exec .electionClose s) (fun t => t.owner.heard == if l = [] then 0 else 5) = true) ∧
    (∀ n ∈ [4, 5], let s := { bench with owner := { claims := [{ src := 9, epoch := 7 }], closes := some 5 }, cycle := n }
     s.owner.closes = some 5 ∧ nextHas (exec .electionClose s) (fun _ => true) = decide (5 ≤ s.cycle)) ∧
    (let s := { bench with owner := { id := some 1023, epoch := 4 } }
     s.owner.id = some (pkSrc (owning 1 5 4)) ∧ bits (pkWord (owning 0 0 4) 0) 31 0 ≤ s.owner.epoch) ∧
    winner [{ src := 3, epoch := 4 }, { src := 9, epoch := 7 }, { src := 2, epoch := 7 }] = some { src := 2, epoch := 7 } ∧
    (let s := { owned with cycle := 2 ^ 60 }
     s.owner.id.isSome = true ∧ s.owner.heard + s.owner.lease ≤ s.cycle) := by decide +kernel
theorem test_election :
    nextHas (exec .electionClose { bench with owner := { claims := [{ src := 9, epoch := 7 }, { src := 2, epoch := 7 }], closes := some 0 } })
      (fun t => t.owner.id == some 2 && t.owner.epoch == 7) = true := by decide +kernel

/-! ### Debug, control blocks, service and the rest of the device -/

/-- Monitor 1 of partition 0, enabled, with action 1. -/
def monitored (f : Monitor → Monitor) : State :=
  bench.updPart 0 fun x => { x with mons := [(1, f { d0 := 2 ^ 63 + 2 ^ 57, turned := true })] }
/-- The same with action 5, debug. -/
def halting : State := monitored fun m => { m with d0 := 2 ^ 63 + 5 * 2 ^ 57 }
theorem halting_canonical : halting.Canonical := by constructor <;> decide +kernel
theorem witness_DebugAndControlBlocks :
    owned.Reached ∧ (owned.cluster (clusterOf (coreOf 0))).part.isSome = true ∧ (owned.part 0).on = true ∧ owned.coreIn 0 0 = true ∧
    (∀ failing ∈ [false, true],
      let s := monitored fun m => { m with failing }
      let m : Monitor := Tab.get {} (s.part 0).mons 1
      (s.part 0).on = true ∧ m.en = true ∧ m.turned = true ∧ m.failing = failing ∧ m.act = 1 ∧ (s.part 0).mons.length = 1) ∧
    (let s := halting
     let m : Monitor := Tab.get {} (s.part 0).mons 1
     m.en = true ∧ m.turned = true ∧ m.failing = false ∧ m.act = 5 ∧ (s.ctx 0).run = .running ∧ (s.ctx 0).share.lpart = 0) ∧
    (owned.part 0).logOn = false ∧ owned.alarm = none ∧ owned.owner.closes = none ∧
    0 < 4 ∧ 3 < 4 ∧ 0 < 8 ∧ 7 < 8 ∧ 15 < 16 := by decide +kernel
theorem test_monitor :
    nextHas (exec (.monitorFailure 0 1) (monitored id)) (fun t => let m : Monitor := Tab.get {} (t.part 0).mons 1
      m.fails == 1 && m.failing && (t.part 0).ringActs == [1]) = true ∧
    nextHas (exec (.monitorFailure 0 1) halting) (fun t => (t.ctx 0).halt) = true := by decide +kernel
/-- Participant 7, which is not the owner, reads LEASE. -/
theorem test_register_read :
    nextHas (step { owned with agenda := [.readRegister 7 8 0] }) (fun t =>
      t.replies == [{ dest := 7, bytes := bytesOf 8 owned.owner.lease }] && t.agenda.isEmpty) = true := by decide +kernel
theorem test_registers :
    nextHas (exec (.registerWrite 0 1 0x12345678) owned) (fun t => (t.part 0).frbase == 0x12340000) = true ∧
    nextHas (exec (.brkaWrite 0 2 (2 ^ 63 + 0x101F)) owned) (fun t => Tab.get 0 (t.ctx 0).brka 2 == 2 ^ 63 + 0x1010) = true := by
  decide +kernel

theorem witness_DeviceAndService :
    owned.Reached ∧ (owned.part 0).on = true ∧ owned.services = [] ∧ owned.queuedServices = [] ∧ owned.kernels = [] ∧
    (∀ o ∈ [Service.firmware 0 [1], .vault 3, .port 4], ({ owned with services := [o] } : State).services[0]? = some o ∧ o.kind = o.kind) ∧
    (Service.vault 3).kind ≠ (Service.port 4).kind ∧ (Service.vault 3).kind = (Service.vault 9).kind ∧
    ({ owned with ctxs := [] } : State).mayConfigure 1 1 0 3 8 = true ∧ bench.alarm = none ∧ bench.powerHigh = false ∧
    ({ bench with powerHigh := true } : State).powerHigh = true ∧ 31 < 32 ∧ 511 < 512 := by decide +kernel
theorem test_service :
    nextHas (exec (.vaultRetraining 7) owned) (fun t => t.services == [.vault 7]) = true ∧
    nextHas (exec (.vaultRetraining 7) { owned with services := [.vault 3] }) (fun t => t.queuedServices == [.vault 7]) = true ∧
    nextHas (exec (.liveServiceOperationComplete 0) { owned with services := [.vault 3], queuedServices := [.port 1, .vault 7, .vault 8] })
      (fun t => t.services == [.vault 7] && t.queuedServices == [.port 1, .vault 8]) = true ∧
    nextHas (exec (.partitionReconfiguration 1 1 0 1 2 0) { owned with ctxs := [] }) (fun t => (t.part 1).on &&
      (t.cluster 5).part == some 1 && (t.cluster 2).part == none) = true := by decide +kernel
theorem test_device :
    nextHas (exec (.securityAlarm 2) bench) (fun t => t.alarm == some 2 && (t.ctx 0).run == .stopped) = true ∧
    nextHas (exec .deviceReset bench) (fun t => t.ctxs.isEmpty && t.parts.isEmpty && t.sent.length == 2) = true := by decide +kernel

/-- A page that other devices may read and write, and an access of device 5 to it. -/
def shared : State := { paged with dram := memoryOf [(0x8000, 2 ^ 62 + 0xA000), (0xA000, placedPage.word0 + 2 ^ 56), (0x2000, 0x77)] }
def access (op : FabricOp) (va : Nat) (bytes : List Byte) : FabricReq := { src := 5, part := 0, ver := 0, va, len := 4, op, bytes }
theorem witness_FabricAccesses :
    shared.alarm = none ∧ (shared.part 0).on = true ∧
    (∀ r ∈ [access .load 0x2000 [], access .store 0x2000 [1, 2], access (.tagged 7) 0x2000 [1, 2], access (.cas false) 0x2000 [],
        access (.atomic .add true) 0x2000 [1, 0, 0, 0], access (.reduce 0 0 3) 0x2000 [0, 0, 128, 63]], reachOf (shared.fabricAim r) = some { loc := 2 ^ 64 + 0x2000, w1 := 0, w0 := placedPage.word0 + 2 ^ 56 } ∧
      r.va % 2 ^ 16 + max r.len r.bytes.length ≤ 2 ^ 16) ∧
    shared.fabricError (access .load 0x2000 []) (2 ^ 64 + 0x2000) = none ∧
    shared.fabricError (access (.atomic .add true) 0x2000 [1, 0, 0, 0]) (2 ^ 64 + 0x2000) = none ∧
    ({ shared with badDram := [0x100] } : State).fabricError (access .load 0x2000 []) (2 ^ 64 + 0x2000) = some 0 ∧
    homeDpa (2 ^ 64 + 0x2000) = some 0x2000 ∧
    shared.unflushedAt ((cellsAt 0x2000 [1, 2]).map Prod.fst) = [] ∧ (2 ^ 64 + 0x2000) % 2 ^ 64 < 2 ^ Config.dpaBits ∧
    (refusalIn (paged.fabricAim (access .load 0x2000 []))).isSome = true := by decide +kernel
theorem shared_canonical : shared.Canonical := by constructor <;> decide +kernel
theorem test_fabric :
    nextHas (exec (.fabricGlobalAccess (access .load 0x2000 [])) shared) (fun t => t.replies.map Reply.bytes == [[0x77, 0, 0, 0]]) = true ∧
    nextHas (exec (.fabricGlobalAccess (access .store 0x2000 [1, 2])) shared) (fun t => Memory.readN t.dram 0x2000 3 == [1, 2, 0]) = true ∧
    nextHas (exec (.fabricGlobalAccess (access (.tagged 7) 0x2000 [1, 2])) shared) (fun t =>
      t.tagWrites.map (fun w => (w.line, w.tag, w.peer)) == [(0x20, 7, some 5)] && t.replies.isEmpty) = true ∧
    nextHas (exec (.fabricGlobalAccess (access (.atomic .add true) 0x2000 [1, 0, 0, 0])) shared) (fun t =>
      Memory.read t.dram 0x2000 == 0x78 && t.replies.map Reply.bytes == [[0x77, 0, 0, 0]]) = true := by
  decide +kernel

/-! ### The issue of a bundle -/

/-- What R73 stops, what a false guard passes over, and what runs. -/
theorem witness_SyllableStopsBeforeEffect :
    verdict (.mov 0 3 1 0 true) bench = some .illegalOperand ∧ verdict (.reth 0) bench = some .illegalSyllable ∧
    verdict (.add 0 3 1 2 false) { bench with slot := { lend := { ak := .latch } } } = some .staleLatch ∧
    (verdict (.add 1 3 1 2 false) bench = none ∧ guardHolds (.add 1 3 1 2 false) bench = false) ∧ Normal (.add 0 3 1 2 false) bench ∧
    (let s := { armed with slot := { ports := [(0, { (walk 0 9 0).2 with start := 2 ^ 40 })], lend := { ak := .pop } } }
     verdict (.vadd 0 .w256 .b8 false 4 0 2) s = none ∧ guardHolds (.vadd 0 .w256 .b8 false 4 0 2) s = true ∧
       (s.portFault (.vadd 0 .w256 .b8 false 4 0 2)).isSome = true) := by decide +kernel
theorem witness_SyllableFrame :
    bench.Canonical ∧ classOf (.add 0 3 1 2 false) ≠ 0 ∧ nextHas (exec (.add 0 3 1 2 false) bench) (fun _ => true) = true := by
  refine ⟨bench_canonical, ?_⟩; decide +kernel

/-- A word placed where the next step issues it: a NOP, an ADD, and a MOV with an immediate, which R73 stops. -/
theorem witness_StepRunsDecodedInstruction :
    ∀ w ∈ [0x20000000, 0x10006183, 0x10788281],
      let s := State.reset.withFetchWord 32 w
      let landed := { s with agenda := [], served := 0 :: s.served }.updCtx 0 (Ctx.landDue s.cycle)
      let x := landed.ctx 0
      s.agenda = [.issue 0] ∧ { s with agenda := [] }.held 0 = false ∧ 0 ∉ s.served ∧ (s.ctx 0).alive = true ∧ (s.ctx 0).halt = false ∧
      (s.ctx 0).preempt = false ∧ (s.ctx 0).flip = none ∧ x.redo = none ∧
      x.holding landed.cycle = false ∧ x.brka = [] ∧
      (match landed.fetch 0 3 x.pc with | .ok l => l == [w, 0x20000000, 0x20000000, 0x20000000] | .error _ => false) = true ∧
      (match decode w with
        | .ok i =>
          let y : Syl := { word := w, instr := i, ucode := (unitsOf (classOf i)).headD 0 }
          let b : Bundle := { words := [w, 0x20000000, 0x20000000, 0x20000000], syls := if isNop w then [] else [y] }
          landed.misses 0 (landed.acting 0 b.syls) 1 == [] && landed.misses 0 [] 1 == [] &&
            landed.waits 0 { bundle := b, todo := b.syls, masked := [] } == [] && (landed.deniedBy 0 (b.occupied 0)).isNone
        | .error _ => false) = true := by decide +kernel
/-- The placed word runs in the very next step: the result of ADD is in flight, and the program counter goes on. -/
theorem test_step :
    nextHas (step (State.reset.withFetchWord 32 0x10006183)) (fun t => (t.ctx 0).pc == 0x1010 && (t.ctx 0).count == 1 &&
      (t.ctx 0).inflight.map (fun r => (r.file, r.reg, r.val)) == [(.s, 3, 1)]) = true ∧
    nextHas (step (State.reset.withFetchWord 32 0x10788281)) (fun t => (t.ctx 0).run == .stopping &&
      (t.ctx 0).stop.map (fun z => (z.raised.cause, z.rpc)) == some (.illegalOperand, 0x1000)) = true ∧
    nextHas (step (State.reset.withFetchWord 32 0x20250000)) (fun t => (t.ctx 0).pc == 0) = true := by decide +kernel

/-- Loops in the middle of a body, at the end of an iteration, and at the end of the last; and traps of one bundle. -/
theorem witness_BundleEnds :
    firstRaised [{ cause := .debug, pos := 1 }, { cause := .translation, pos := 1 }, { cause := .arithFlag, after := 1 }] =
      some { cause := .translation, pos := 1 } ∧
    (bench.ctx 0).flip = none ∧ bench.slot.leave = false ∧ (bench.ctx 0).leaving = false ∧ (bench.ctx 0).target = none ∧ (bench.ctx 0).loops = [] ∧
    (bench.ctx 0).newLoop = none ∧ ((with0 fun x => { x with target := some 0x40 }).ctx 0).target = some 0x40 ∧
    (∀ l ∈ ([{ len := 2, count := 2 }, { len := 2, count := 2, pos := 1 }, { len := 2, count := 2, pos := 1, iter := 1 }] : List Loop),
      l.first = 0 ∧ l.last = 0 ∧ l.pos < l.len ∧ l.iter < l.count) := by decide +kernel
theorem witness_BundleEnds_canonical : bench.Canonical ∧ (with0 fun x => { x with target := some 0x40 }).Canonical :=
  ⟨bench_canonical, by constructor <;> decide +kernel⟩

/-! ### Steps and encodings -/

theorem reset_canonical : State.reset.Canonical := by constructor <;> decide +kernel
theorem witness_StepKeepsCanonicalForm :
    (State.reset.withFetchWord 32 0x10006183).Canonical ∧ nextHas (step (State.reset.withFetchWord 32 0x10006183)) (fun _ => true) = true :=
  ⟨by constructor <;> decide +kernel, by decide +kernel⟩
theorem witness_StepNeverStops : State.reset.Canonical ∧ State.reset.agenda = [] := ⟨reset_canonical, rfl⟩
theorem witness_DecodeOfEncode : classOf (.add 7 63 63 63 true) ≠ 0 ∧ encode (.add 7 63 63 63 true) = 0x1E07FFFF := by decide +kernel
theorem witness_EncodeOfDecode : 0x1E07FFFF < 2 ^ 32 ∧ decodeTableWord 32 0x1E07FFFF = some (.add 7 63 63 63 true) := by decide +kernel

/-! ### Ill-formed instructions, which the check refuses -/

theorem test_ill_formed_fields :
    ∀ i ∈ [Instr.mov 0 3 1 2 false, .mov 0 3 1 0 true, .sel 0 3 1 2 true, .mve 0 32 1 0 false, .mfe 0 3 32 0 false, .cmp 0 .eq 8 1 2 false,
      .flip 1 .cl .none, .vadd 0 .w256 .b8 true 4 1 2, .vsel 0 .w256 .b8 true 4 1 2, .vabs 0 .w256 .b8 true 4 1, .vcnt 0 .w256 .b8 true 4 1,
      .vredi 0 .w256 .b8 false 4 1 3, .vredi 0 .w256 .b8 true 4 1 0, .fadd 0 .w256 .fp32 true 4 1 2,
      .fabs 0 .w256 .bf16 true 4 1, .fred 0 .w256 .e4m3 false 4 1 0, .fred 0 .w256 .fp32 false 4 1 3, .fsca 0 .w256 .e5m2 false 4 1 2,
      .cvt 0 .w256 .bf16 4 1 .bf16 .frm, .qnt 0 .w512 0 4 1 .frm, .qnt 0 .w1024 2 4 1 .frm,
      .dqnt 0 .w1024 3 4 1, .visect 0 .w512 .b32 4 1 2, .visect 0 .w1024 .b16 4 1 2, .vmovp 0 .w256 true 16 1, .vmovp 0 .w256 false 4 16,
      .fexp2 0 .w256 .e4m3 4 1, .fdiv 0 .w256 .e5m2 4 1 2, .ld 0 32 1 0 .v256, .st 0 32 1 0 .v1024, .stq 0 63 1 2 .v512, .ldp 0 32 0 0 0 0 false,
      .stp 0 32 0 0 0 0, .pacc 0 32 0 0 0 false, .pdec 0 32 0 0 0 true, .qpop 0 3 .dword, .qpop 0 32 .v256, .qpush 0 32 .q8,
      .acas 0 63 1 3 true, .ecopy 0 25 false false false 0 .b8 0, .ecopy 0 0 false false false 6 .b8 0, .egather 0 0 false false true .b8 1,
      .ereduce 0 0 false false 3 0 0, .ereduce 0 0 false false 0 3 0, .epage 0 0 false true true 0 0 false 64, .edict 0 25 false false 0 0,
      .csrr 0 3 0x003, .csrw 0 1 0x030, .csrw 0 1 0x100, .flags 0 3 false 9, .flags 0 3 true 15, .qarm 0 6 0, .qarm 0 0 25],
      i.wellFormed = false := by decide +kernel
theorem test_ill_formed_numbers :
    ∀ i ∈ [Instr.flipRelease 1024, .portOperandFetch 0 6, .brkaWrite 0 4 0, .ctxcmdKill ⟨8, true⟩ 0, .walkerStart 32, .launch 8 0, .launch 0 16,
      .kernelDispatch 8, .monitorWrite 0 16 0 0, .capturePageWrite 8, .vlendWrite 512 0, .vaultRetraining 512], i.wellFormed = false := by
  decide +kernel
theorem test_well_formed :
    ∀ i ∈ scalars 2 false ++ vectors .w1024 .b64 ++ engines ++ [Instr.flipRelease 1023, .launch 7 15, .walkerStart 31], i.wellFormed = true := by
  decide +kernel

end Sys2Proof.Tests
end

section
/-! PROOF. The turn of a context at a bundle of one quad that holds a syllable at position 0 and three NOPs: what such
a bundle decodes to (04 R62 to R73), what the context makes of it, and the step that issues it (02 R345, 03 R58). -/
namespace Sys2Proof.Machine

/-! ### Words that decode -/

/-- What decodes is neither a header nor a link (R65, R67). -/
theorem wordClass_of_decode {w : Nat} {i : Instr} (h : decode w = .ok i) : wordClass w ≠ 0 ∧ wordClass w ≠ 15 := by
  constructor <;> intro hc <;> unfold wordClass at hc <;> simp [decode, hc] at h

/-- Every word of a list is an operation syllable. -/
def AllDecode (ws : List Nat) : Prop := ∀ p < ws.length, ∃ i, decode (ws.getD p 0) = .ok i

theorem AllDecode.wordClass_ne {ws : List Nat} (h : AllDecode ws) {p : Nat} (hp : p < ws.length) :
    wordClass (ws.getD p 0) ≠ 0 ∧ wordClass (ws.getD p 0) ≠ 15 := by
  obtain ⟨i, hi⟩ := h p hp
  exact wordClass_of_decode hi

theorem AllDecode.structureFault_none {ws : List Nat} (h : AllDecode ws) : structureFault ws = none := by
  unfold structureFault lowest
  rw [List.find?_eq_none]
  intro p hp
  obtain ⟨h0, h15⟩ := h.wordClass_ne (List.mem_range.mp hp)
  simp only [h0, h15, decide_false, Bool.false_and, Bool.or_false, Bool.false_eq_true, not_false_eq_true]

theorem AllDecode.syllableFault_none {ws : List Nat} (h : AllDecode ws) : syllableFault ws = none := by
  unfold syllableFault lowest
  rw [List.find?_eq_none]
  intro p hp
  obtain ⟨i, hi⟩ := h p (List.mem_range.mp hp)
  obtain ⟨h0, h15⟩ := wordClass_of_decode hi
  dsimp only
  split
  · exact absurd ‹_› h0
  · exact absurd ‹_› h15
  · simp only [hi, Bool.false_eq_true, not_false_eq_true]

/-! ### A bundle of one syllable -/

/-- A class has a unit, and a bundle's first syllable takes its first (R71). -/
theorem find_unitsOf (k : Nat) : (unitsOf k).find? (fun u => !([] : List Nat).contains u) = some ((unitsOf k).headD 0) := by
  unfold unitsOf; split <;> rfl

theorem assign_single (y : Syl) : assign [] [y] = .ok [{ y with ucode := (unitsOf (classOf y.instr)).headD 0 }] := by
  simp only [assign, find_unitsOf]

/-- No vector syllable is wider than 1,024 bits (R81). -/
theorem widthOf_le (i : Instr) : widthOf i ≤ 1024 := by
  have hw : ∀ w : Width, w.bits ≤ 1024 := fun w => by cases w <;> decide
  unfold widthOf; split <;> simp [hw]

theorem widthFault_single (y : Syl) : widthFault 2048 [y] = none := by
  have h : ¬ 2048 < widthOf y.instr := by have := widthOf_le y.instr; omega
  simp [widthFault, h]

/-- With no lend, an XPUSH alone pops ports, each of q0 to q3 once (R27, R310). -/
theorem portsOf_unlent (i : Instr) : portsOf i {} = [] ∨ portsOf i {} = [(0, true), (1, true), (2, true), (3, true)] := by
  unfold portsOf
  split
  · exact .inr rfl
  · exact .inl rfl

theorem popFault_unlent {y : Syl} (h : y.lend = {}) : popFault [] [y] = none := by
  rcases portsOf_unlent y.instr with hp | hp
  · simp [popFault, Syl.pops, h, hp]
  · simp [popFault, Syl.pops, h, hp]; decide

/-! ### A quad of one syllable and three NOPs -/

/-- The words of the quad (R62). -/
def soloWords (w : Nat) : List Nat := [w, 0x20000000, 0x20000000, 0x20000000]

/-- The syllable at position 0: no lend, and the first unit of its class. -/
def soloSyl (w : Nat) (i : Instr) : Syl := { word := w, instr := i, ucode := (unitsOf (classOf i)).headD 0 }

/-- The bundle: a NOP is none of its syllables. -/
def soloBundle (w : Nat) (i : Instr) : Bundle := { words := soloWords w, syls := if isNop w then [] else [soloSyl w i] }

/-- The plan of the bundle where nothing is masked and nothing has been done. -/
def soloPlan (w : Nat) (i : Instr) : Plan := { bundle := soloBundle w i, todo := (soloBundle w i).syls, masked := [] }

theorem soloPlan_todo_nop {w : Nat} (i : Instr) (hw : isNop w = true) : (soloPlan w i).todo = [] := by
  simp [soloPlan, soloBundle, hw]

theorem soloPlan_todo {w : Nat} (i : Instr) (hw : isNop w = false) : (soloPlan w i).todo = [soloSyl w i] := by
  simp [soloPlan, soloBundle, hw]

section Solo
variable {w : Nat} {i : Instr} (h : decode w = .ok i)
include h

theorem allDecode_soloWords : AllDecode (soloWords w) := by
  intro p hp
  have hn : decode 0x20000000 = .ok (.nop 0) := by rfl
  match p, hp with
  | 0, _ => exact ⟨i, h⟩
  | 1, _ | 2, _ | 3, _ => exact ⟨_, hn⟩

theorem headerWord_soloWords : headerWord (soloWords w) = none := by
  simp [headerWord, soloWords, (wordClass_of_decode h).1]

theorem sylsOf_soloWords : sylsOf (soloWords w) = if isNop w then [] else [{ word := w, instr := i }] := by
  have hl : lendAt (soloWords w) 0 = none := by simp [lendAt, headerWord_soloWords h]
  have he : extAt (soloWords w) 0 = none := by simp [extAt, headerWord_soloWords h]
  have hn : isNop 0x20000000 = true := by decide
  have hr : List.range (soloWords w).length = [0, 1, 2, 3] := rfl
  have h0 : (soloWords w).getD 0 0 = w := rfl
  have hns : ∀ p ∈ [1, 2, 3], isNop ((soloWords w).getD p 0) = true := by simp [soloWords, hn]
  unfold sylsOf
  rw [hr]
  cases hw : isNop w <;>
    simp [-List.getD_eq_getElem?_getD, List.filterMap, h0, hns, hw, h, hl, he]

theorem decodeBundle_soloWords : decodeBundle (soloWords w) = .ok (soloBundle w i) := by
  have hd := allDecode_soloWords h
  simp only [decodeBundle, hd.structureFault_none, hd.syllableFault_none, sylsOf_soloWords h]
  cases hw : isNop w with
  | true => simp [soloBundle, hw, assign, widthFault, popFault, soloWords]
  | false =>
    simp only [Bool.false_eq_true, if_false, assign_single, widthFault_single, popFault_unlent]
    simp [soloBundle, soloSyl, hw, soloWords]

/-- All positions but that of the syllable hold a NOP or stand beyond the bundle (R74). -/
theorem fixedMask_soloWords (hw : isNop w = false) : fixedMask (soloWords w) = 0xFFE := by
  obtain ⟨h0, h15⟩ := wordClass_of_decode h
  have hn : isNop 0x20000000 = true := by decide
  have hr : List.range 12 = [0, 1, 2, 3, 4, 5, 6, 7, 8, 9, 10, 11] := rfl
  simp [fixedMask, soloWords, hr, h0, h15, hw, hn]

end Solo

/-! ### What the context makes of it -/

/-- R240: a context with no breakpoint enabled masks nothing. -/
theorem breakMask_of_disabled {x : Ctx} (h : ∀ q ∈ x.brka, bitAt q.2.toNat 63 = false) (b : Bundle) : x.breakMask b = [] := by
  unfold Ctx.breakMask
  split
  · rfl
  · have hm : x.brka.foldl (fun m (_, v) =>
        if bitAt v.toNat 63 && bits v.toNat 47 4 = x.pc / 16 % 2 ^ 44 then m ||| bits v.toNat 59 48 else m) 0 = 0 :=
      List.foldlRecOn (motive := (· = 0)) x.brka _ rfl fun m hm q hq => by simp [h q hq, hm]
    simp only [hm]
    simp [bitAt]

/-- The last two rows of R73. -/
theorem operand_or_latch {illegal stale : Bool} {k : Cause}
    (h : (if illegal then some Cause.illegalOperand else if stale then some Cause.staleLatch else none) = some k) :
    k = .illegalOperand ∨ k = .staleLatch := by
  cases illegal with
  | true => exact .inl (Option.some.inj h).symm
  | false => cases stale with
    | true => exact .inr (Option.some.inj h).symm
    | false => cases h

/-- R73: a syllable by itself is stopped for one of three causes. -/
theorem verdict_cause {i : Instr} {s : State} {k : Cause} (h : verdict i s = some k) :
    k = .illegalSyllable ∨ k = .illegalOperand ∨ k = .staleLatch := by
  unfold verdict at h
  split at h
  · cases h
  dsimp only at h
  split at h
  · -- in the completion handler: what does not run there, and what names no register of it
    split at h
    · exact .inl (Option.some.inj h).symm
    · split at h
      · cases h
      · exact .inr (.inl (Option.some.inj h).symm)
  · split at h
    · -- a RETH outside the handler
      exact .inl (Option.some.inj h).symm
    · -- an operand, and then a latch that holds nothing
      exact .inr (operand_or_latch h)

theorem verdictAt_nil (s : State) (k : Cause) : s.verdictAt [] k = none := rfl

theorem verdictAt_single (s : State) (y : Syl) (k : Cause) :
    s.verdictAt [y] k = if verdict y.instr (s.atSyl y) = some k then some y.pos else none := by
  simp only [State.verdictAt, List.find?_singleton, beq_iff_eq]
  split <;> rfl

section Look
variable {s : State} {c w : Nat} {i : Instr} (hf : s.fetch c 3 (s.ctx c).pc = .ok (soloWords w)) (hd : decode w = .ok i)
  (hr : (s.ctx c).redo = none)
include hf hd hr

/-- A context that comes to the quad plans all of it, unless R73 stops its syllable. -/
theorem look_solo (hb : ∀ q ∈ (s.ctx c).brka, bitAt q.2.toNat 63 = false)
    (hv : isNop w = true ∨ verdict i ((s.openSlot c (s.ctx c).pc 1).atSyl (soloSyl w i)) = none) :
    s.look c = .ok (soloPlan w i) := by
  have hq : (soloBundle w i).quads = 1 := rfl
  have hall : (soloBundle w i).syls.filter (fun y => !bitAt ((none : Option Nat).getD 0) y.pos) = (soloBundle w i).syls := by
    simp [bitAt]
  have hstop : ∀ k, (s.openSlot c (s.ctx c).pc 1).verdictAt (soloBundle w i).syls k = none := by
    intro k
    cases hw : isNop w with
    | true => simp [soloBundle, hw, verdictAt_nil]
    | false =>
      have hv : verdict i ((s.openSlot c (s.ctx c).pc 1).atSyl (soloSyl w i)) = none := by simpa [hw] using hv
      have hi : (soloSyl w i).instr = i := rfl
      simp [soloBundle, hw, verdictAt_single, hi, hv]
  simp only [State.look, hf, decodeBundle_soloWords hd, hr, hq, hall, hstop, breakMask_of_disabled hb]
  simp [soloPlan]

/-- R73, R230: a syllable that R73 stops has its bundle trap, with its own DONE bit clear alone. -/
theorem look_solo_stopped {k : Cause} (hw : isNop w = false)
    (hv : verdict i ((s.openSlot c (s.ctx c).pc 1).atSyl (soloSyl w i)) = some k) :
    s.look c = .error { raised := { cause := k }, done := 0xFFE } := by
  have hq : (soloBundle w i).quads = 1 := rfl
  have hall : (soloBundle w i).syls.filter (fun y => !bitAt ((none : Option Nat).getD 0) y.pos) = [soloSyl w i] := by
    simp [bitAt, soloBundle, hw]
  have hi : (soloSyl w i).instr = i := rfl
  have hp : (soloSyl w i).pos = 0 := rfl
  simp only [State.look, hf, decodeBundle_soloWords hd, hr, hq, hall, verdictAt_single, hi, hp, hv,
    fixedMask_soloWords hd hw]
  rcases verdict_cause hv with rfl | rfl | rfl <;> rfl

end Look

/-! ### The turn -/

@[simp] theorem State.setDenied_ctx (s : State) (c : Nat) (b : Bool) (j : Nat) : (s.setDenied c b).ctx j = s.ctx j := by
  unfold State.setDenied
  split
  · rfl
  · split
    · rfl
    · split <;> rfl

@[simp] theorem State.setDenied_cycle (s : State) (c : Nat) (b : Bool) : (s.setDenied c b).cycle = s.cycle := by
  unfold State.setDenied
  split
  · rfl
  · split
    · rfl
    · split <;> rfl

/-- The agenda gives the turn to a context that nothing holds up before its boundary: the step is that of its bundle. -/
theorem step_issue {s : State} {c : Nat} {rest : List Turn} (ha : s.agenda = .issue c :: rest)
    (hh : { s with agenda := rest }.held c = false) (hs : c ∉ s.served) (hal : (s.ctx c).alive = true)
    (hhalt : (s.ctx c).halt = false) (hpre : (s.ctx c).preempt = false) (hflip : (s.ctx c).flip = none) :
    step s = { s with agenda := rest, served := c :: s.served }.bundleTurn c := by
  have hx : ({ s with agenda := rest } : State).ctx c = s.ctx c := rfl
  simp [step, State.move, ha, State.runTurn, hh, State.turn, hx, hs, hal, hhalt, hpre, hflip]

section Turn
variable {s t : State} {c : Nat} (ht : s.updCtx c (Ctx.landDue s.cycle) = t) (hold : (t.ctx c).holding t.cycle = false)
include ht hold

/-- A bundle that waits for nothing and that no other denies issues. -/
theorem bundleTurn_issues {p : Plan} (hl : t.look c = .ok p) (hm : t.misses c (t.acting c p.todo) p.bundle.quads = [])
    (hw : t.waits c p = []) (hd : t.deniedBy c (p.bundle.occupied c) = none) :
    s.bundleTurn c = (t.setDenied c false).issuePlan c p := by
  simp [State.bundleTurn, ht, hl, hm, hw, hold, State.mergeTurn, hd]

/-- A bundle that cannot issue traps, once its own pages are at hand. -/
theorem bundleTurn_traps {e : Early} (hl : t.look c = .error e) (hm : t.misses c [] 1 = []) :
    s.bundleTurn c = .next ((t.setDenied c false).setCtx c
      ({ t.ctx c with walked := [] }.takeTrap t.cycle e.raised (t.ctx c).pc (t.ctx c).pc e.done false)) := by
  simp [State.bundleTurn, ht, hl, hm, hold]

end Turn

/-! ### Issue -/

/-- A context as a bundle of it begins to issue for the first time. -/
def Ctx.begins (x : Ctx) (cycle : Nat) (l : List Syl) : Ctx :=
  { x with
    birth := some (x.birth.getD cycle)
    lidx := if x.inHandler then x.lidx else noteLoops x.lidx x.loops
    usedX := x.usedX || l.any fun y => classOf y.instr == 9 }

/-- The device as the first syllable of a plan is about to run. -/
def State.begins (s : State) (c cycle : Nat) (p : Plan) : State :=
  let t := s.updCtx c fun x => x.begins cycle p.todo
  (t.openSlot c (t.ctx c).pc p.bundle.quads).draw c (t.acting c p.todo)

/-- Below the locked level, the bundle that has issued stands for the other context of its core to see (R58). -/
def State.noteIssued (s : State) (c : Nat) (o : Occ) : State :=
  if (s.ctx c).level = 2 then s else s.updCore (coreOf c) fun k => { k with issued := some o }

/-- No trap stands at a slot that has just been opened. -/
theorem State.begins_raised (s : State) (c cycle : Nat) (p : Plan) : (s.begins c cycle p).slot.raised = [] := by
  unfold State.begins State.draw; dsimp only; split <;> rfl

/-- With no bundle to resume, none of the results in flight is replaced (R232). -/
theorem updCtx_begins {s : State} {c : Nat} (hr : (s.ctx c).redo = none) (l : List Syl) :
    (s.updCtx c fun x => { x with
      birth := some (x.birth.getD s.cycle)
      inflight := if x.redo.isSome then x.replaced l else x.inflight
      lidx := if x.inHandler then x.lidx else noteLoops x.lidx x.loops
      usedX := x.usedX || l.any fun y => classOf y.instr == 9 }) = s.updCtx c fun x => x.begins s.cycle l := by
  simp [State.updCtx, Ctx.begins, hr]

section Issue
variable {s t u : State} {c : Nat} {p : Plan} (hr : (s.ctx c).redo = none) (ht : s.begins c s.cycle p = t)
  (hrun : runSyls (issueOrder p.todo) t = .next u)
include hr ht hrun

/-- A bundle whose syllables have all run, with no trap raised and none masked, ends. -/
theorem issuePlan_finishes (hm : p.masked = []) (hu : u.slot.raised = []) :
    s.issuePlan c p = .next ((u.noteIssued c (p.bundle.occupied c)).finishBundle c p) := by
  subst ht
  unfold State.begins at hrun
  simp only [State.issuePlan, updCtx_begins hr, hrun]
  simp [State.noteIssued, apply_ite State.slot, hu, hm, firstRaised]

/-- A bundle of which a syllable has raised a trap takes the first that was raised (R74). -/
theorem issuePlan_traps {r : Raised} (hu : firstRaised u.slot.raised = some r) :
    s.issuePlan c p = .next ((u.noteIssued c (p.bundle.occupied c)).trapBundle c p r) := by
  subst ht
  unfold State.begins at hrun
  simp only [State.issuePlan, updCtx_begins hr, hrun]
  simp [State.noteIssued, apply_ite State.slot, hu]

end Issue

theorem issueOrder_single (y : Syl) : issueOrder [y] = [y] := by
  obtain ⟨pos, word, instr, lend, ucode⟩ := y
  cases instr <;> rfl

theorem runSyls_single {y : Syl} {s t : State} (h : exec y.instr (s.atSyl y) = .next t) : runSyls [y] s = .next t := by
  simp [runSyls, runSyl, h]

end Sys2Proof.Machine

section
open Sys2Proof Sys2Proof.Machine

/-- Settles O50: the agenda leads to the turn at the bundle, the quad decodes to its syllable, and either R73 stops the syllable or
the bundle issues with the syllable run at its slot. -/
theorem stepRunsDecodedInstruction : Obligations.StepRunsDecodedInstruction := by
  intro c w i rest s z landed x words y b p before u hag hheld hserved halive hhalt hpre hflip hredo hhold hbrk hfetch hdec
    hmiss hmiss0 hwaits hden stopped issued
  have hstep := step_issue hag hheld hserved halive hhalt hpre hflip
  have hland : ({ s with agenda := rest, served := c :: s.served } : State).updCtx c (Ctx.landDue s.cycle) = landed := rfl
  have hissue (hv : isNop w = true ∨ stopped = none) : step s = (landed.setDenied c false).issuePlan c (soloPlan w i) :=
    hstep.trans (bundleTurn_issues hland hhold (look_solo hfetch hdec hredo hbrk hv) hmiss hwaits hden)
  have hredo' : ((landed.setDenied c false).ctx c).redo = none := by rw [State.setDenied_ctx]; exact hredo
  have hu : (landed.setDenied c false).begins c (landed.setDenied c false).cycle (soloPlan w i) = u := by
    rw [State.setDenied_cycle]; rfl
  refine ⟨fun hw => ?_, fun cause hw hv => ?_, fun t hw hv ht => ?_⟩
  · have hrun : runSyls (issueOrder (soloPlan w i).todo) u = .next u := by rw [soloPlan_todo_nop i hw]; rfl
    rw [hissue (.inl hw)]
    exact issuePlan_finishes hredo' hu hrun rfl (hu ▸ State.begins_raised ..)
  · exact hstep.trans (bundleTurn_traps hland hhold (look_solo_stopped hfetch hdec hredo hw hv) hmiss0)
  · have hrun : runSyls (issueOrder (soloPlan w i).todo) u = .next t := by
      rw [soloPlan_todo i hw, issueOrder_single]
      exact runSyls_single ht
    rw [hissue (.inr hv)]
    exact ⟨issuePlan_finishes hredo' hu hrun rfl, fun r => issuePlan_traps hredo' hu hrun⟩

end
end

section
/-! Proofs of the obligations about kernels and queue packets (03 R48 to R61; 19 R254 to R257, R346). First what stands at the head
of a queue, as the operations of packets read it; then the packets, O37 and O38. -/
namespace Sys2Proof.Machine

/-! ### The head of a queue -/

section Head
variable {s : State} {p q ty : Nat} {k : QPacket}

/-- What stands at the head of a queue that runs is its head packet. -/
theorem State.AtHead.head_eq (h : s.AtHead p q k ty) : s.head p q = some k := by
  obtain ⟨l, hl⟩ := h.first
  simp [State.head, h.on, h.live, h.runs, hl, h.known]

/-- It is fresh while it has not begun. -/
theorem State.AtHead.fresh?_eq (h : s.AtHead p q k ty) (hi : (s.queue p q).head = .idle) : s.fresh? p q ty = some k := by
  simp [State.fresh?, h.head_eq, h.isTy, hi]

/-- Events that concern it carry its TAG (R254). -/
theorem State.AtHead.headTag_eq (h : s.AtHead p q k ty) : s.headTag p q = pkTag k.pk := by
  obtain ⟨l, hl⟩ := h.first
  simp [State.headTag, hl]

/-- A replay skips none of LAUNCH, COPY, DEP, SIGNAL and SETDET (R251). -/
theorem State.AtHead.skips_eq (h : s.AtHead p q k ty) (hty : ty < tyPublish) : s.skips p k = false := by
  simp [State.skips, h.isTy, hty]

/-- So such a packet is performed, unless its body halts the queue (R346). -/
theorem State.AtHead.perform?_eq (h : s.AtHead p q k ty) (hty : ty < tyPublish) (f : State → State) :
    s.perform? p q k f = if bodyBad k.pk then s.haltQueue p q .packetError else f s := by
  simp [State.perform?, h.skips_eq hty]

theorem State.AtHead.freshDep_eq (h : s.AtHead p q k tyDep) (hi : (s.queue p q).head = .idle) {b : Bool}
    (hb : bitAt (pkWord k.pk 0) 63 = b) : s.freshDep p q b = some k := by
  simp [State.freshDep, h.fresh?_eq hi, hb]

theorem State.AtHead.freshSetdet_eq (h : s.AtHead p q k tySetdet) (hi : (s.queue p q).head = .idle) {b : Bool}
    (hb : bitAt (pkWord k.pk 0) 2 = b) : s.freshSetdet p q b = some k := by
  simp [State.freshSetdet, h.fresh?_eq hi, hb]

theorem State.AtHead.waitingSetdet_eq (h : s.AtHead p q k tySetdet) (hw : (s.queue p q).head = .waiting) (b : Bool) :
    s.waitingSetdet p q b = if bitAt (pkWord k.pk 0) 2 = b then some k else none := by
  simp [State.waitingSetdet, h.head_eq, h.isTy, hw]

end Head

/-! ### What the body of a packet may hold (R346) -/

/-- R255 reserves no bit of a COPY's body. -/
theorem bodyBad_copy {k : Packet} (h : pkType k = tyCopy) : bodyBad k = false := by
  simp [bodyBad, h, tyCopy]

/-- A SIGNAL names its counter in eight bits; the others are reserved. -/
theorem bodyBad_signal {k : Packet} (h : pkType k = tySignal) : bodyBad k = decide (256 ≤ pkWord k 0) := by
  simp [bodyBad, h, tySignal]

/-! ### Packets that begin -/

section Begin
variable {s : State} {p q : Nat} {k : QPacket} (hi : (s.queue p q).head = .idle)
include hi

theorem exec_launch_atHead (h : s.AtHead p q k tyLaunch) : exec (.launch p q) s =
    .next (if (packetDesc k.pk).ok (s.part p) (s.queue p q).level then s.wait? p q else s.haltQueue p q .launchError) := by
  change execLaunch p q s = _
  simp [execLaunch, h.fresh?_eq hi, event]

/-- A COPY's command enters flight at the partition's first cluster, under the next number of the device. -/
theorem exec_copy_atHead (h : s.AtHead p q k tyCopy) : exec (.copy p q) s =
    .next ({ s with serial := s.serial + 1, engines := s.engines ++ [
        ({ id := s.serial + 1, stage := k.pk.body, core := 16 * (s.part p).clusters.headD 0
           cluster := (s.part p).clusters.headD 0, part := p, issued := s.cycle, copy := some (p, q) } : EngCmd)] }.updQueue p q
      fun x => { x with head := .running (s.serial + 1) }) := by
  change execCopy p q s = _
  simp [execCopy, h.fresh?_eq hi, h.perform?_eq (by decide), bodyBad_copy h.isTy, event]

/-- A DEP of either kind waits, unless its body halts the queue. -/
theorem event_doDep_atHead (h : s.AtHead p q k tyDep) {b : Bool} (hb : bitAt (pkWord k.pk 0) 63 = b) :
    event (s.freshDep p q b).isSome (s.doDep p q b) =
      .next (if bodyBad k.pk then s.haltQueue p q .packetError else s.wait? p q) := by
  simp [State.doDep, h.freshDep_eq hi hb, h.perform?_eq (by decide), event]

theorem exec_signal_atHead (h : s.AtHead p q k tySignal) : exec (.signal p q) s =
    .next (if 256 ≤ pkWord k.pk 0 then s.haltQueue p q .packetError
      else (s.countUp p (pkWord k.pk 0 % 256) (pkWord k.pk 1)).finish p q) := by
  change execSignal p q s = _
  simp [execSignal, h.fresh?_eq hi, h.perform?_eq (by decide), bodyBad_signal h.isTy, event]

/-- A SETDET of either scope waits, unless the level it names is the reserved one. -/
theorem event_doSetdet_atHead (h : s.AtHead p q k tySetdet) {b : Bool} (hb : bitAt (pkWord k.pk 0) 2 = b) :
    event (s.freshSetdet p q b).isSome (s.doSetdet p q b) =
      .next (if pkWord k.pk 0 % 4 = 3 then s.haltQueue p q .launchError else s.wait? p q) := by
  simp [State.doSetdet, h.freshSetdet_eq hi hb, event]

end Begin

/-! ### Packets that complete -/

section Complete
variable {s : State} {p q : Nat} {k : QPacket}

/-- The condition of a DEP that waits, by its kind. -/
theorem State.AtHead.depMet_eq (h : s.AtHead p q k tyDep) (hw : (s.queue p q).head = .waiting) :
    s.depMet p q = if bitAt (pkWord k.pk 0) 63 then
        (s.part p).replay.isSome || decide (pkWord k.pk 1 ≤ Tab.get 0 (s.part p).arrivals (pkWord k.pk 0 % 256))
      else decide (pkWord k.pk 1 ≤ (Tab.get 0 (s.part p).counters (pkWord k.pk 0 % 256)).toNat) := by
  simp [State.depMet, h.head_eq, h.isTy, hw]

/-- A DEP on an event counter takes nothing from it. -/
theorem exec_depComplete_counter (h : s.AtHead p q k tyDep) (hw : (s.queue p q).head = .waiting)
    (hb : bitAt (pkWord k.pk 0) 63 = false)
    (hv : pkWord k.pk 1 ≤ (Tab.get 0 (s.part p).counters (pkWord k.pk 0 % 256)).toNat) :
    exec (.depComplete p q) s = .next (s.finish p q) := by
  have hmet : s.depMet p q = true := by
    simp only [h.depMet_eq hw, hb, Bool.false_eq_true, if_false]
    exact decide_eq_true hv
  calc exec (.depComplete p q) s = .next (s.endDep p q) := event_on hmet _
    _ = .next (s.finish p q) := by simp [State.endDep, h.head_eq, hb]

/-- A DEP on a page-arrival set takes its value from the set. -/
theorem exec_depComplete_set (h : s.AtHead p q k tyDep) (hw : (s.queue p q).head = .waiting)
    (hb : bitAt (pkWord k.pk 0) 63 = true) (hv : pkWord k.pk 1 ≤ Tab.get 0 (s.part p).arrivals (pkWord k.pk 0 % 256)) :
    exec (.depComplete p q) s = .next (State.finish (s.updPart p fun x =>
      { x with arrivals := Tab.upd 0 x.arrivals (pkWord k.pk 0 % 256) fun v => v - pkWord k.pk 1 }) p q) := by
  have hmet : s.depMet p q = true := by simp [h.depMet_eq hw, hb, hv]
  calc exec (.depComplete p q) s = .next (s.endDep p q) := event_on hmet _
    _ = _ := by simp [State.endDep, h.head_eq, hb]

theorem exec_setdetComplete_queue (h : s.AtHead p q k tySetdet) (hw : (s.queue p q).head = .waiting)
    (hb : bitAt (pkWord k.pk 0) 2 = false) (hu : s.unretired p (some q) = false) :
    exec (.setdetComplete p q) s =
      .next (State.finish (s.updQueue p q fun x => { x with level := pkWord k.pk 0 % 4 }) p q) := by
  have hmet : s.setdetMet p q = true := by simp [State.setdetMet, h.waitingSetdet_eq hw, hb, hu]
  calc exec (.setdetComplete p q) s = .next (s.endSetdet p q) := event_on hmet _
    _ = _ := by simp [State.endSetdet, h.head_eq, hb]

/-- The oldest partition-scope SETDET at a head sets the level of all sixteen queues. -/
theorem exec_setdetComplete_partition (h : s.AtHead p q k tySetdet) (hw : (s.queue p q).head = .waiting)
    (hb : bitAt (pkWord k.pk 0) 2 = true) (hu : s.unretired p none = false)
    (hold : ∀ r < 16, ∀ j, s.headSetdet p r = some j → k.arrival ≤ j.arrival) :
    exec (.setdetComplete p q) s = .next (State.finish ((List.range 16).foldl (fun t r =>
      (t.updQueue p r fun x => { x with level := pkWord k.pk 0 % 4 }).recheck? p r) s) p q) := by
  have hfirst : ((List.range 16).all fun r => match s.headSetdet p r with
      | some j => decide (k.arrival ≤ j.arrival) | none => true) = true := by
    rw [List.all_eq_true]
    intro r hr
    cases hj : s.headSetdet p r with
    | none => rfl
    | some j => exact decide_eq_true (hold r (List.mem_range.mp hr) j hj)
  have hmet : s.setdetMet p q = true := by
    unfold State.setdetMet
    simp only [h.waitingSetdet_eq hw, hb, hu]
    exact hfirst
  calc exec (.setdetComplete p q) s = .next (s.endSetdet p q) := event_on hmet _
    _ = _ := by simp [State.endSetdet, h.head_eq, hb]

section Copy
variable {e : EngCmd} (h : s.AtHead p q k tyCopy) (hr : (s.queue p q).head = .running e.id)
  (hf : s.engines.find? (fun f => f.copy == some (p, q) && f.id == e.id) = some e)
include h hr hf

/-- The command of a COPY that runs is the one in flight for its queue under the number that the queue keeps. -/
theorem copyCmd_running : s.copyCmd p q = some e := by
  have hnum : (fun f : EngCmd => f.copy == some (p, q) && Head.running e.id == .running f.id) =
      fun f => f.copy == some (p, q) && f.id == e.id := by
    funext f
    simp [Bool.beq_eq_decide_eq, eq_comm]
  simp [State.copyCmd, h.head_eq, hr, hnum, hf]

theorem exec_copyComplete_done (he : e.err = 0) (hc : e.chunks ≤ e.chunk) (hb : e.behind = []) :
    exec (.copyComplete p q) s = .next (State.finish { s with
      engines := s.engines.filter fun f => f.id != e.id
      walksWaiting := s.walksWaiting.filter fun w => w.who != .engine e.id } p q) := by
  have hmet : s.copyEnded p q = true := by simp [State.copyEnded, copyCmd_running h hr hf, EngCmd.performed, hc, hb]
  calc exec (.copyComplete p q) s = .next (s.endCopy p q) := event_on hmet _
    _ = _ := by simp [State.endCopy, copyCmd_running h hr hf, he]

theorem exec_copyComplete_error (he : e.err ≠ 0) :
    exec (.copyComplete p q) s = .next (({ s with
      engines := s.engines.filter fun f => f.id != e.id
      walksWaiting := s.walksWaiting.filter fun w => w.who != Asker.engine e.id }.updQueue p q fun x =>
        x.stop .copyError).notify evEngine p 0 (pkTag k.pk) [e.word]) := by
  have hmet : s.copyEnded p q = true := by simp [State.copyEnded, copyCmd_running h hr hf, he]
  calc exec (.copyComplete p q) s = .next (s.endCopy p q) := event_on hmet _
    _ = _ := by simp [State.endCopy, copyCmd_running h hr hf, he, h.headTag_eq]

end Copy

end Complete

end Sys2Proof.Machine

open Sys2Proof Sys2Proof.Machine

/-- Settles O37: the packet at the head is fresh and no replay skips it, so each type has its own effect or halts the queue. -/
theorem packetsBegin : Obligations.PacketsBegin := fun _ _ _ _ hi =>
  ⟨exec_launch_atHead hi, exec_copy_atHead hi, fun h hb => event_doDep_atHead hi h hb, fun h hb => event_doDep_atHead hi h hb,
    exec_signal_atHead hi, fun h hb => event_doSetdet_atHead hi h hb, fun h hb => event_doSetdet_atHead hi h hb⟩

/-- Settles O38: each condition of the statement is the one that lets the packet at the head complete. -/
theorem packetsComplete : Obligations.PacketsComplete := fun _ _ _ _ _ =>
  ⟨exec_depComplete_counter, exec_depComplete_set, exec_setdetComplete_queue, exec_setdetComplete_partition,
    fun h hr hf => ⟨exec_copyComplete_done h hr hf, exec_copyComplete_error h hr hf⟩⟩

end

section
/-! The choice of a LAUNCH (R57), O33, and the watchdog (R61), O36. -/
namespace Sys2Proof.Machine

/-! ### The choice of a LAUNCH (R57) -/

theorem firstReady_eq_none {l : List Ready} : firstReady l = none ↔ l = [] := by
  cases l with
  | nil => simp [firstReady]
  | cons r l =>
    unfold firstReady
    cases firstReady l with
    | none => simp only [reduceCtorEq]
    | some u => dsimp only; split <;> simp only [reduceCtorEq]

/-- The one selected of a list is its first, where nothing follows or it is before the one selected of the rest, else that one. -/
theorem firstReady_cons {a r : Ready} {l : List Ready} (h : firstReady (a :: l) = some r) : l = [] ∧ r = a ∨
    ∃ b, firstReady l = some b ∧ (r = a ∧ ahead a.desc.prio a.k.arrival b.desc.prio b.k.arrival = true ∨
      r = b ∧ ahead a.desc.prio a.k.arrival b.desc.prio b.k.arrival = false) := by
  unfold firstReady at h
  cases hl : firstReady l with
  | none =>
    rw [hl] at h
    cases h
    exact .inl ⟨firstReady_eq_none.mp hl, rfl⟩
  | some b =>
    rw [hl] at h
    dsimp only at h
    split at h <;> cases h
    · exact .inr ⟨b, rfl, .inl ⟨rfl, ‹_›⟩⟩
    · exact .inr ⟨_, rfl, .inr ⟨rfl, Bool.eq_false_iff.mpr ‹_›⟩⟩

theorem firstReady_mem {l : List Ready} {r : Ready} (h : firstReady l = some r) : r ∈ l := by
  induction l with
  | nil => cases h
  | cons a l ih =>
    obtain ⟨_, rfl⟩ | ⟨b, hb, ⟨rfl, _⟩ | ⟨rfl, _⟩⟩ := firstReady_cons h
    · exact List.mem_cons_self
    · exact List.mem_cons_self
    · exact List.mem_cons_of_mem a (ih hb)

theorem ahead_eq_true {p a p' a' : Nat} : ahead p a p' a' = true ↔ p' < p ∨ p = p' ∧ a < a' := by
  simp [ahead]

/-- What is not before another has lower priority, or the same and is no older. -/
theorem ahead_eq_false {p a p' a' : Nat} : ahead p a p' a' = false ↔ p < p' ∨ p = p' ∧ a' ≤ a := by
  rw [← Bool.not_eq_true, ahead_eq_true]
  omega

/-- Nothing in a list is before the one selected. -/
theorem firstReady_first {l : List Ready} {r : Ready} (h : firstReady l = some r) :
    ∀ u ∈ l, ahead u.desc.prio u.k.arrival r.desc.prio r.k.arrival = false := by
  induction l generalizing r with
  | nil => cases h
  | cons a l ih =>
    have hself : ahead a.desc.prio a.k.arrival a.desc.prio a.k.arrival = false := ahead_eq_false.mpr (.inr ⟨rfl, Nat.le_refl _⟩)
    obtain ⟨rfl, rfl⟩ | ⟨b, hb, ⟨rfl, hab⟩ | ⟨rfl, hab⟩⟩ := firstReady_cons h
    · exact List.forall_mem_singleton.mpr hself
    · refine List.forall_mem_cons.mpr ⟨hself, fun u hu => ?_⟩
      have hub := ih hb u hu
      rw [ahead_eq_false] at hub ⊢
      rw [ahead_eq_true] at hab
      omega
    · exact List.forall_mem_cons.mpr ⟨hab, ih hb⟩

/-! ### The watchdog (R61) -/

section Watchdog
variable {s : State} {p q : Nat}

/-- Step `n` is due when the step before it has acted and the counter has reached its limit. -/
theorem watchDue_of {n : Nat} (hon : (s.part p).on = true) (hp : (s.queue p q).packets ≠ []) (ha : (s.queue p q).acted + 1 = n)
    (hl : (if n = 1 then (s.queue p q).lim1 else if n = 2 then (s.queue p q).lim2 else (s.queue p q).lim3) ≤ (s.queue p q).watch) :
    s.watchDue p q n = true := by
  simp [State.watchDue, hon, hp, ha, hl]

/-- The first step asks every context of the head kernel that is in its place for a pre-emption. -/
theorem watchPreempt_eq : s.watchPreempt p q = match s.headKernel p q with
    | none => s.watchActed p q 1
    | some k => k.left.foldl (fun t c => if (t.ctx c).share.kernel = k.id then
        t.updCtx c fun y => { y with preempt := true } else t) (s.watchActed p q 1) := by
  unfold State.watchPreempt
  cases s.headKernel p q with
  | none => rfl
  | some k => simp

variable (hon : (s.part p).on = true) (hp : (s.queue p q).packets ≠ [])
include hon hp

theorem exec_watchdogPreempt_due (hh : (s.queue p q).halt = none) (ha : (s.queue p q).acted = 0)
    (hl : (s.queue p q).lim1 ≤ (s.queue p q).watch) : exec (.watchdogPreempt p q) s = .next (s.watchPreempt p q) := by
  refine event_on ?_ _
  simp [watchDue_of hon hp (n := 1) (by rw [ha]) (by simpa using hl), hh]

theorem exec_watchdogKill_due (hh : (s.queue p q).halt = none) (ha : (s.queue p q).acted = 1)
    (hl : (s.queue p q).lim2 ≤ (s.queue p q).watch) : exec (.watchdogKill p q) s = .next (s.watchKill p q) := by
  refine event_on ?_ _
  simp [watchDue_of hon hp (n := 2) (by rw [ha]) (by simpa using hl), hh]

theorem exec_watchdogFence_due (ha : (s.queue p q).acted = 2) (hl : (s.queue p q).lim3 ≤ (s.queue p q).watch)
    (hs : s.stuck p q ≠ []) : exec (.watchdogFence p q) s = .next (s.watchFence p q) := by
  refine event_on ?_ _
  simp [watchDue_of hon hp (n := 3) (by rw [ha]) (by simpa using hl), hs]

end Watchdog

end Sys2Proof.Machine

open Sys2Proof Sys2Proof.Machine

/-- Settles O33, by induction on the list, in which nothing is selected before the one selected. -/
theorem oldestOfHighestPriorityFirst : Obligations.OldestOfHighestPriorityFirst := fun _ =>
  ⟨firstReady_eq_none, fun _ h => ⟨firstReady_mem h, fun u hu => ahead_eq_false.mp (firstReady_first h u hu)⟩⟩

/-- Settles O36: each step is due under the statement's conditions. -/
theorem watchdogSteps : Obligations.WatchdogSteps := by
  intro p q s hon hp x acted
  refine ⟨fun hh ha hl => ?_, exec_watchdogKill_due hon hp, exec_watchdogFence_due hon hp⟩
  rw [exec_watchdogPreempt_due hon hp hh ha hl, watchPreempt_eq]
  rfl

end

section
/-! The tiles of a kernel and the slices of its cores (R49, R51), O34. -/
namespace Sys2Proof.Machine

/-! ### Tile ordinals and coordinates (R49) -/

/-- The product of the extents of the levels at positions above `j` and below `n`. -/
def Desc.extentsBetween (d : Desc) (n j : Nat) : Nat := (((List.range n).filter fun i => j < i).map fun i => d.extent (d.perm i)).prod

theorem Desc.extentsBetween_self (d : Desc) (n : Nat) : d.extentsBetween (n + 1) n = 1 := by
  have h : (List.range (n + 1)).filter (fun i => n < i) = [] := by
    simp only [List.filter_eq_nil_iff, List.mem_range, decide_eq_true_eq]
    omega
  simp only [Desc.extentsBetween, h, List.map_nil, List.prod_nil]

theorem Desc.extentsBetween_succ (d : Desc) {n j : Nat} (h : j < n) :
    d.extentsBetween (n + 1) j = d.extent (d.perm n) * d.extentsBetween n j := by
  simp [Desc.extentsBetween, List.range_succ, h, Nat.mul_comm]

theorem Desc.tiles_eq_prod (d : Desc) : d.tiles = ((List.range d.depth).map d.extent).prod := by
  rw [Desc.tiles, List.prod_eq_foldl, List.foldl_map]

/-- The walk over `n` positions writes the levels that stand at them alone. -/
theorem Desc.get_coords_of_ne (d : Desc) {n l : Nat} (h : ∀ i < n, l ≠ d.perm i) (m : Nat) (t : Tab Nat) :
    Tab.get 0 (d.coords n m t) l = Tab.get 0 t l := by
  induction n generalizing m t with
  | zero => rfl
  | succ n ih => rw [Desc.coords, ih (fun i hi => h i (by omega)), Tab.get_set_of_ne _ _ (h n (by omega))]

/-- Each of them takes the digit of its position, the last position varying fastest. -/
theorem Desc.get_coords (d : Desc) {n : Nat} (hinj : ∀ i < n, ∀ j < n, d.perm i = d.perm j → i = j) {j : Nat} (hj : j < n)
    (m : Nat) {t : Tab Nat} (ht : Tab.wf 0 t = true) :
    Tab.get 0 (d.coords n m t) (d.perm j) = m / d.extentsBetween n j % d.extent (d.perm j) := by
  induction n generalizing m t with
  | zero => omega
  | succ n ih =>
    rw [Desc.coords]
    obtain rfl | hlt : j = n ∨ j < n := by omega
    · have hne : ∀ i < j, d.perm j ≠ d.perm i := fun i hi he => by
        have := hinj j (by omega) i (by omega) he
        omega
      rw [d.get_coords_of_ne hne, Tab.get_set_self ht, d.extentsBetween_self, Nat.div_one]
    · rw [ih (fun i hi k hk => hinj i (by omega) k (by omega)) hlt _ (Tab.wf_set ht _ _), d.extentsBetween_succ hlt,
        Nat.div_div_eq_div_mul]

/-! ### Slices (R51) -/

/-- A slice begins where the one before it ends. -/
theorem sliceOf_end (d : Desc) (k : Nat) : (sliceOf d k).2 = (sliceOf d (k + 1)).1 := rfl

theorem sliceOf_first (d : Desc) : (sliceOf d 0).1 = 0 := by simp [sliceOf]

theorem sliceOf_last (d : Desc) (h : 0 < d.rangeW * d.rangeH / d.stages) :
    (sliceOf d (16 * (d.rangeW * d.rangeH / d.stages) - 1)).2 = d.tiles := by
  simp only [sliceOf]
  rw [Nat.sub_add_cancel (by omega), Nat.mul_div_cancel_left _ (by omega)]

/-! ### Posts (R51) -/

/-- The index in its stage of the core numbered `i` of logical cluster `n`. -/
def Desc.coreIndex (d : Desc) (n i : Nat) : Nat :=
  let per := d.rangeW * d.rangeH / d.stages
  (n - n / per * per) * 16 + i

/-- What kernel context `j` of the core numbered `i` of logical cluster `n` is to run. -/
def Kernel.postAt (k : Kernel) (n i j : Nat) : Post :=
  let slice := sliceOf k.d (k.d.coreIndex n i)
  { pcore := k.pcore n (i % 4) (i / 4), j
    share := {
      kernel := k.id, queue := k.queue, entry := k.d.entry, args := k.d.args.map (BitVec.ofNat 64), tile := slice.1 + j
      tileEnd := slice.2, tileStep := k.d.perCore, lcorex := 4 * (n % k.d.rangeW) + i % 4
      lcorey := 4 * (n / k.d.rangeW) + i / 4, lcore := k.d.coreIndex n i, lclu := n, lpart := k.part
      stage := n / (k.d.rangeW * k.d.rangeH / k.d.stages), nstage := k.d.stages } }

/-- A kernel's posts are those of its contexts whose first ordinal is in the slice of their core. -/
theorem Kernel.mem_posts {k : Kernel} {t : Post} : t ∈ k.posts ↔ ∃ n < k.d.rangeW * k.d.rangeH, ∃ i < 16, ∃ j < k.d.perCore,
    (sliceOf k.d (k.d.coreIndex n i)).1 + j < (sliceOf k.d (k.d.coreIndex n i)).2 ∧ t = k.postAt n i j := by
  simp only [Kernel.posts, List.mem_flatMap, List.mem_filterMap, List.mem_range, Option.ite_none_right_eq_some,
    Option.some.injEq, eq_comm (a := t)]
  rfl

end Sys2Proof.Machine

open Sys2Proof Sys2Proof.Machine

/-- The part of O34 about ordinals, coordinates and slices. -/
theorem claims_tilesAndSlices : Claims.TilesAndSlices := fun d =>
  ⟨d.tiles_eq_prod, fun hinj n _ _ hj => d.get_coords hinj hj n (t := []) rfl,
    fun h => ⟨sliceOf_first d, sliceOf_end d, sliceOf_last d h⟩⟩

/-- The part of O34 about cores and contexts: a core numbered `i` stands at (i mod 4, ⌊i/4⌋) of its cluster. -/
theorem claims_slicesToContexts : Claims.SlicesToContexts := by
  intro k d per index first _
  have hindex (n lx ly : Nat) : d.coreIndex n (4 * ly + lx) = index n lx ly := (Nat.add_assoc ..).symm
  refine ⟨fun t ht => ?_, fun n hn lx hx ly hy j hj hslice => ?_, fun s again t h => if_pos h, fun x => rfl⟩
  · obtain ⟨n, hn, i, hi, j, hj, hslice, rfl⟩ := Kernel.mem_posts.mp ht
    have hcore : d.coreIndex n i = index n (i % 4) (i / 4) := by rw [← hindex, Nat.div_add_mod]
    exact ⟨n, i % 4, i / 4, hn, by omega, by omega, hj, rfl, rfl, rfl, hcore, by rw [← hcore]; rfl, by rw [← hcore]; rfl,
      hslice, rfl⟩
  · have hx4 : (4 * ly + lx) % 4 = lx := by omega
    have hy4 : (4 * ly + lx) / 4 = ly := by omega
    refine ⟨k.postAt n (4 * ly + lx) j, Kernel.mem_posts.mpr ⟨n, hn, 4 * ly + lx, by omega, j, hj, ?_, rfl⟩, rfl, ?_, rfl,
      hindex n lx ly⟩
    · rw [hindex]; exact hslice
    · change k.pcore n ((4 * ly + lx) % 4) ((4 * ly + lx) / 4) = _
      rw [hx4, hy4]

/-- Settles O34: the walk writes one digit for each position, and the posts are those of the contexts whose ordinal is in the slice. -/
theorem tilesAndSlices : Obligations.TilesAndSlices := ⟨claims_tilesAndSlices, claims_slicesToContexts⟩

end

section
/-! The start, the end and the freeing of contexts, and the retirement of kernels (R52, R53, R57), O35. -/
namespace Sys2Proof.Machine

/-! ### Operations that concern no context and no kernel -/

/-- `t` has the contexts and the kernels of `s`. -/
structure State.SameWork (s t : State) : Prop where
  ctxs    : t.ctxs = s.ctxs
  kernels : t.kernels = s.kernels

namespace State.SameWork
variable {s t u : State}

theorem refl (s : State) : s.SameWork s := ⟨rfl, rfl⟩

theorem trans (h : s.SameWork t) (g : t.SameWork u) : s.SameWork u := ⟨g.ctxs.trans h.ctxs, g.kernels.trans h.kernels⟩

theorem ctx (h : s.SameWork t) (c : Nat) : t.ctx c = s.ctx c := by rw [State.ctx, h.ctxs, State.ctx]

theorem kernel (h : s.SameWork t) (n : Nat) : t.kernel n = s.kernel n := by rw [State.kernel, h.kernels, State.kernel]

theorem foldl {β : Type} {f : State → β → State} (hf : ∀ (t : State) b, t.SameWork (f t b)) (l : List β) (s : State) :
    s.SameWork (l.foldl f s) := by
  induction l generalizing s with
  | nil => exact refl s
  | cons b l ih => exact (hf s b).trans (ih _)

end State.SameWork

theorem updCore_sameWork (s : State) (c : Nat) (f : CoreSt → CoreSt) : s.SameWork (s.updCore c f) := ⟨rfl, rfl⟩
theorem updCluster_sameWork (s : State) (c : Nat) (f : Cluster → Cluster) : s.SameWork (s.updCluster c f) := ⟨rfl, rfl⟩
theorem updPart_sameWork (s : State) (p : Nat) (f : Part → Part) : s.SameWork (s.updPart p f) := ⟨rfl, rfl⟩

theorem notify_sameWork (s : State) (a b c d : Nat) (l : List Word64) : s.SameWork (s.notify a b c d l) := by
  obtain ⟨_, _, _, h⟩ := notify_eq s a b c d l
  rw [h]; exact ⟨rfl, rfl⟩

theorem deviceCommit_sameWork (s : State) (i : Inst) (l : List (Nat × Byte)) : s.SameWork (s.deviceCommit i l) := by
  obtain ⟨_, _, _, _, _, _, _, _, h⟩ := deviceCommit_eq s i l
  rw [h]; exact ⟨rfl, rfl⟩

theorem flushAt_sameWork (s : State) (l : List Nat) : s.SameWork (s.flushAt l) := by
  unfold State.flushAt
  dsimp only
  split
  · exact .refl s
  · obtain ⟨_, hd⟩ := dropUnflushed_eq s (s.flushSet l)
    obtain ⟨_, _, _, _, _, hv⟩ := vaultCommit_eq (s.dropUnflushed (s.flushSet l)) .device
      ((s.unflushedAt (s.flushSet l)).map fun u => (u.loc, u.byte))
    obtain ⟨_, _, hc⟩ := carryAll_eq (s.poisonedAt (s.flushSet l)) ((s.dropUnflushed (s.flushSet l)).vaultCommit .device
      ((s.unflushedAt (s.flushSet l)).map fun u => (u.loc, u.byte)))
    rw [hc, hv, hd]; exact ⟨rfl, rfl⟩

/-! ### Deviation records -/

theorem ringWrite_sameWork (s : State) (core : Nat) (b : List Byte) : s.SameWork (s.ringWrite core b) := by
  unfold State.ringWrite
  exact (deviceCommit_sameWork s _ _).trans (updCore_sameWork _ _ _)

theorem lostRecord_sameWork (s : State) (core : Nat) : s.SameWork (s.lostRecord core) := by
  have hfresh : s.SameWork { s with fresh := s.fresh + 5 } := ⟨rfl, rfl⟩
  unfold State.lostRecord
  exact hfresh.trans ((ringWrite_sameWork _ _ _).trans (updCore_sameWork _ _ _))

theorem putRecord_sameWork (s : State) (core ctx : Nat) (d : Dev) : s.SameWork (s.putRecord core ctx d) := by
  unfold State.putRecord
  dsimp only
  split
  · exact .refl s
  · split
    · exact updCore_sameWork s _ _
    · split
      · exact ringWrite_sameWork s _ _
      · split
        · exact (lostRecord_sameWork s core).trans (updCore_sameWork _ _ _)
        · exact (lostRecord_sameWork s core).trans (ringWrite_sameWork _ _ _)

theorem flushRecords_sameWork (s : State) (c : Nat) :
    (s.updCtx c fun x => { x with devs := [] }).SameWork (s.flushRecords c) :=
  .foldl (fun t d => putRecord_sameWork t _ _ d) _ _

/-! ### Pins of a version (R214) -/

theorem updSlot_sameWork (s : State) (r n : Nat) (f : VSlot → VSlot) : s.SameWork (s.updSlot r n f) := by
  unfold State.updSlot
  split
  · exact .refl s
  · exact deviceCommit_sameWork s _ _

theorem countVersion_sameWork (s : State) (r : Nat) : s.SameWork (s.countVersion r) := by
  unfold State.countVersion
  split
  · exact updPart_sameWork s _ _
  · exact .refl s

theorem settleSlot_sameWork (s : State) (r n : Nat) : s.SameWork (s.settleSlot r n) := by
  unfold State.settleSlot
  split
  · exact .refl s
  · dsimp only
    split
    · exact (updSlot_sameWork s r n _).trans (countVersion_sameWork _ r)
    · exact .refl s

theorem unpin_sameWork (s : State) (r v : Nat) : s.SameWork (s.unpin r v) := by
  unfold State.unpin
  split
  · exact (updSlot_sameWork s r _ _).trans (settleSlot_sameWork _ r _)
  · exact .refl s

theorem releasePins_sameWork (s : State) (x : Ctx) : s.SameWork (s.releasePins x) := by
  unfold State.releasePins
  split
  · exact .refl s
  · next r _ =>
    have h : s.SameWork ((s.atRegion r).unpin r x.vpin) := (flushAt_sameWork s _).trans (unpin_sameWork _ r _)
    dsimp only
    split
    · split
      · exact h
      · exact h.trans (unpin_sameWork _ r _)
    · exact h

/-! ### The retirement of a kernel (R53) -/

theorem unclaim_sameWork (s : State) (k : Kernel) : s.SameWork (s.unclaim k) := by
  have hlines : s.SameWork (k.clusters.foldl (fun t j =>
      if (t.cluster j).line.holder == some k.id then t.updCluster j fun y => { y with line := {} } else t) s) := by
    refine .foldl (fun t j => ?_) _ _
    split
    · exact updCluster_sameWork t _ _
    · exact .refl t
  refine hlines.trans ?_
  unfold State.unclaim
  dsimp only
  split <;> split
  · exact (updPart_sameWork _ _ _).trans (.foldl (fun t c => updCore_sameWork t c _) _ _)
  · exact .foldl (fun t c => updCore_sameWork t c _) _ _
  · exact updPart_sameWork _ _ _
  · exact .refl _

theorem logWrite_sameWork (s : State) (p ty q seq : Nat) (b : List Byte) : s.SameWork (s.logWrite p ty q seq b) := by
  unfold State.logWrite
  exact (deviceCommit_sameWork s _ _).trans (updPart_sameWork _ _ _)

theorem logGap_sameWork (s : State) (p q seq : Nat) : s.SameWork (s.logGap p q seq) := by
  unfold State.logGap
  dsimp only
  split
  · exact (deviceCommit_sameWork s _ _).trans (updPart_sameWork _ _ _)
  · split
    · exact .refl s
    · exact (logWrite_sameWork s _ _ _ _ _).trans (updPart_sameWork _ _ _)

theorem finish_sameWork (s : State) (p q : Nat) : s.SameWork (s.finish p q) := ⟨rfl, rfl⟩

theorem settleDigest_sameWork (s : State) (p q : Nat) : s.SameWork (s.settleDigest p q) := by
  unfold State.settleDigest
  split
  · exact .refl s
  · split
    · exact (logWrite_sameWork s _ _ _ _ _).trans (finish_sameWork _ p q)
    · split
      · exact finish_sameWork s p q
      · split
        · exact (logGap_sameWork s _ _ _).trans (finish_sameWork _ p q)
        · exact .refl s

theorem replayCheck_sameWork (s : State) (p q : Nat) (k : Kernel) : s.SameWork (s.replayCheck p q k) := by
  have hend : s.SameWork (s.endReplay p) := updPart_sameWork s _ _
  unfold State.replayCheck
  split
  · split
    · exact hend
    · split
      · exact .refl s
      · dsimp only
        split
        · exact hend
        · split
          · exact .refl s
          · exact notify_sameWork s _ _ _ _ _
  · exact .refl s

theorem endLaunch_sameWork (s : State) (k : Kernel) : s.SameWork (s.endLaunch k) := by
  refine (replayCheck_sameWork s k.part k.queue k).trans ?_
  unfold State.endLaunch
  dsimp only
  split
  · exact (updPart_sameWork _ _ _).trans (settleDigest_sameWork _ _ _)
  · exact finish_sameWork _ _ _

/-- What follows when a kernel has left the list of those in flight concerns no other. -/
theorem retireKernel_sameWork (s : State) (k : Kernel) : (s.dropKernel k).SameWork (s.retireKernel k) := by
  unfold State.retireKernel
  dsimp only
  split
  · exact updPart_sameWork _ _ _
  · exact endLaunch_sameWork _ k

theorem retireKernel_ctx (s : State) (k : Kernel) (c : Nat) : (s.retireKernel k).ctx c = s.ctx c :=
  ((retireKernel_sameWork s k).ctx c).trans ((unclaim_sameWork s k).ctx c)

/-- A kernel that retires is in flight no more. -/
theorem retireKernel_kernel (s : State) (k : Kernel) : (s.retireKernel k).kernel k.id = none := by
  rw [(retireKernel_sameWork s k).kernel, State.kernel, List.find?_eq_none]
  intro o ho
  simpa using (List.mem_filter.mp ho).2

/-- A kernel that has changed without its number, read again. -/
theorem updKernel_kernel (s : State) {n : Nat} {f : Kernel → Kernel} (hf : ∀ k, (f k).id = k.id) :
    (s.updKernel n f).kernel n = (s.kernel n).map f := by
  simp only [State.kernel, State.updKernel, List.find?_map]
  have hid (k : Kernel) : ((fun k : Kernel => k.id == n) ∘ fun k => if k.id == n then f k else k) k = (k.id == n) := by
    simp only [Function.comp_apply]
    split <;> simp [hf]
  rw [funext hid]
  cases hk : s.kernels.find? fun k => k.id == n with
  | none => rfl
  | some k =>
    have hn : k.id = n := by simpa using List.find?_some hk
    simp [hn]

/-! ### A context that leaves (R53, R199) -/

/-- A context as it leaves: its deviations are written, its read-only lines dropped, and its walks end for nobody. -/
def State.leaving (s : State) (c : Nat) : State := ((s.flushRecords c).dropReadOnly c).orphanWalks (· == c)

section Leave
variable {s : State} {c : Nat}

theorem leaving_kernels (s : State) (c : Nat) : (s.leaving c).kernels = s.kernels := (flushRecords_sameWork s c).kernels

theorem flushRecords_wf (h : s.Canonical) : Tab.wf {} (s.flushRecords c).ctxs = true := by
  rw [(flushRecords_sameWork s c).ctxs]
  exact Tab.wf_set h.ctxs c _

theorem leaving_wf (h : s.Canonical) : Tab.wf {} (s.leaving c).ctxs = true := Tab.wf_set (flushRecords_wf h) c _

/-- What leaving changes in the context itself. -/
theorem leaving_ctx (h : s.Canonical) : ∃ n, (s.leaving c).ctx c = { s.ctx c with devs := [], roFloor := n } := by
  have hflush : (s.flushRecords c).ctx c = { s.ctx c with devs := [] } := by
    rw [(flushRecords_sameWork s c).ctx, State.ctx_updCtx h.ctxs, if_pos rfl]
  refine ⟨newestTag (s.flushRecords c).commits, ?_⟩
  change ((s.flushRecords c).updCtx c fun x => { x with roFloor := newestTag (s.flushRecords c).commits }).ctx c = _
  rw [State.ctx_updCtx (flushRecords_wf h), if_pos rfl, hflush]

theorem doFree_dying (h : s.Canonical) (hr : (s.ctx c).run = .dying) : s.doFree c = (s.leaving c).updCtx c Ctx.emptied := by
  obtain ⟨n, hn⟩ := leaving_ctx (c := c) h
  have hrun : ((s.leaving c).ctx c).run = .dying := by rw [hn]; exact hr
  exact if_pos hrun

theorem leaving_kernelId (h : s.Canonical) : ((s.leaving c).ctx c).share.kernel = (s.ctx c).share.kernel := by
  obtain ⟨n, hn⟩ := leaving_ctx (c := c) h
  rw [hn]

/-- A kernel that a context has left. -/
def Kernel.without (c : Nat) (k : Kernel) : Kernel := { k with left := k.left.filter fun a => a != c }

theorem without_id (c : Nat) (k : Kernel) : (k.without c).id = k.id := rfl

/-- The state in which a context that has ended is free, before its kernel retires. -/
def State.freed (s : State) (c : Nat) : State :=
  (((s.leaving c).releasePins ((s.leaving c).ctx c)).updCtx c Ctx.emptied).updKernel ((s.leaving c).ctx c).share.kernel
    (Kernel.without c)

theorem freed_run (h : s.Canonical) : ((s.freed c).ctx c).run = .free := by
  have hwf : Tab.wf {} ((s.leaving c).releasePins ((s.leaving c).ctx c)).ctxs = true := by
    rw [(releasePins_sameWork _ _).ctxs]
    exact leaving_wf h
  change ((((s.leaving c).releasePins ((s.leaving c).ctx c)).updCtx c Ctx.emptied).ctx c).run = _
  rw [State.ctx_updCtx hwf, if_pos rfl]
  rfl

theorem freed_kernel (h : s.Canonical) : (s.freed c).kernel (s.ctx c).share.kernel =
    (s.kernel (s.ctx c).share.kernel).map (Kernel.without c) := by
  have hk : (((s.leaving c).releasePins ((s.leaving c).ctx c)).updCtx c Ctx.emptied).kernels = s.kernels :=
    (releasePins_sameWork _ _).kernels.trans (leaving_kernels s c)
  rw [← leaving_kernelId h, State.freed, updKernel_kernel _ (without_id c), State.kernel, hk, State.kernel]

/-- A context that has ended is freed, and its kernel retires if it was the last. -/
theorem doFree_finishing (h : s.Canonical) (hr : (s.ctx c).run = .finishing) :
    s.doFree c = match (s.freed c).kernel (s.ctx c).share.kernel with
      | some k => if k.left.isEmpty then (s.freed c).retireKernel k else s.freed c
      | none => s.freed c := by
  have hrun : ((s.leaving c).ctx c).run ≠ .dying := by
    obtain ⟨n, hn⟩ := leaving_ctx (c := c) h
    rw [hn]; simp [hr]
  rw [← leaving_kernelId h]
  exact if_neg hrun

theorem doFree_finishing_run (h : s.Canonical) (hr : (s.ctx c).run = .finishing) : ((s.doFree c).ctx c).run = .free := by
  rw [doFree_finishing h hr]
  split
  · split
    · rw [retireKernel_ctx]; exact freed_run h
    · exact freed_run h
  · exact freed_run h

/-- R53: its kernel retires with its last context. -/
theorem doFree_finishing_kernel (h : s.Canonical) (hr : (s.ctx c).run = .finishing) {k : Kernel}
    (hk : s.kernel (s.ctx c).share.kernel = some k) : (s.doFree c).kernel (s.ctx c).share.kernel =
      if (k.without c).left = [] then none else some (k.without c) := by
  have hid : k.id = (s.ctx c).share.kernel := by simpa using List.find?_some hk
  have hfreed : (s.freed c).kernel (s.ctx c).share.kernel = some (k.without c) := by
    rw [freed_kernel h, hk]; rfl
  rw [doFree_finishing h hr, hfreed]
  simp only [List.isEmpty_iff]
  split
  · have hretire := retireKernel_kernel (s.freed c) (k.without c)
    rw [without_id, hid] at hretire
    exact hretire
  · exact hfreed

theorem canFree_dying (hr : (s.ctx c).run = .dying) (hf : (s.core (coreOf c)).fenced = false)
    (he : ∀ e ∈ s.engines, ¬ (e.kernel = (s.ctx c).share.kernel ∧ e.copy = none)) : s.canFree c = true := by
  simp only [not_and] at he
  simpa [State.canFree, hr, hf] using he

theorem canFree_finishing (hr : (s.ctx c).run = .finishing) (hh : (s.ctx c).handler = none) (hi : (s.ctx c).irq = [])
    (he : ∀ e ∈ s.engines, ¬ (e.ctx = c ∧ e.kernel = (s.ctx c).share.kernel ∧ e.copy = none)) : s.canFree c = true := by
  simp only [not_and] at he
  simpa [State.canFree, hr, hh, hi] using he

end Leave

/-! ### Dispatch and start (R52, R57) -/

theorem exec_kernelDispatch_open {s : State} {p : Nat} {r : Ready} {l : List Spot} (h : s.dispatchable p = some (r, l))
    (hc : s.lockedChunk = false) (ht : s.lockedTag = false) :
    exec (.kernelDispatch p) s = .next (s.place (s.makeKernel p r.queue r.k (pickOne s.fresh l)) []) := by
  change execKernelDispatch p s = _
  simp [execKernelDispatch, State.doDispatch, event, h, hc, ht]

theorem exec_contextStart_cleared {s : State} {c m n : Nat} (h : (s.ctx c).run = .clearing m n) (hn : n ≤ s.cycle)
    (ha : s.alarm = none) : exec (.contextStart c) s = .next (s.doStart c) :=
  event_on (by simp [State.canStart, h, hn, ha]) _

end Sys2Proof.Machine

open Sys2Proof Sys2Proof.Machine

/-- Settles O35: each step is enabled under the statement's conditions; a context that is freed leaves the kernels to
`State.retireKernel`, which takes the kernel of the last context from flight. -/
theorem kernelSteps : Obligations.KernelSteps := by
  intro p c m n s r l x
  refine ⟨exec_kernelDispatch_open, exec_contextStart_cleared, fun hr hf hs he => ?_, fun hr hh hi hs he => ?_⟩
  · calc exec (.contextFree c) s = .next (s.doFree c) := event_on (canFree_dying hr hf he) _
      _ = .next ((s.leaving c).updCtx c Ctx.emptied) := by rw [doFree_dying hs hr]
  · exact ⟨s.doFree c, event_on (canFree_finishing hr hh hi he) _, doFree_finishing_run hs hr,
      fun k hk => doFree_finishing_kernel hs hr hk⟩

end

section
/-! Decoding and encoding (04 R62, R75 to R90), O56, O57 and O58. For each format of a word, one lemma says that a number is the
sum of its fields if and only if it reads back as those fields: one direction makes the decoder of a class invert the encoder,
the other the encoder the decoder. -/
namespace Sys2Proof.Coding
open Sys2Proof.Machine Sys2Proof.Laws.EncodeWord
open Sys2Proof.Encode (op6 op5 op4 op3 dabi dab da wzu mem eng)
open Sys2Proof.Decode (fld zero some?)

/-! ### Fields -/

theorem fld_eq_iff {w lo n : Nat} {x : BitVec n} : fld w lo n = x ↔ w / 2 ^ lo % 2 ^ n = x.toNat := by
  rw [← BitVec.toNat_inj, fld, BitVec.toNat_ofNat]

theorem flag_eq_iff {w k : Nat} {b : Bool} : Decode.flag w k = b ↔ w / 2 ^ k % 2 = Encode.flag b := by
  have := Nat.mod_two_eq_zero_or_one (w / 2 ^ k)
  cases b <;> simp [Decode.flag, bitAt, Encode.flag]

theorem encodeFlag_false : Encode.flag false = 0 := rfl
theorem encodeFlag_true : Encode.flag true = 1 := rfl

theorem zero_eq_ok {w hi lo : Nat} {i j : Instr} : zero w hi lo i = .ok j ↔ bits w hi lo = 0 ∧ i = j := by
  unfold zero; split <;> simp [*]

theorem some?_eq_ok {α : Type} {o : Option α} {k : α → Except Reject Instr} {i : Instr} :
    some? o k = .ok i ↔ ∃ x, o = some x ∧ k x = .ok i := by
  cases o <;> simp [some?]

/-- What all formats share (R75): 32 bits, with class and guard in their places. -/
structure Headed (w c : Nat) (g : BitVec 3) : Prop where
  lt    : w < 2 ^ 32
  cls   : bits w 31 28 = c
  guard : fld w 25 3 = g

theorem headed_iff {w c : Nat} {g : BitVec 3} (hc : c < 16) : Headed w c g ↔ w / 2 ^ 28 = c ∧ w / 2 ^ 25 % 8 = g.toNat := by
  constructor
  · rintro ⟨hw, hb, hg⟩
    rw [fld_eq_iff] at hg
    rw [bits] at hb
    omega
  · rintro ⟨hb, hg⟩
    exact ⟨by omega, by rw [bits]; omega, fld_eq_iff.mpr hg⟩

/-! ### Formats -/

/-- R77: dst, A, B and I. -/
theorem eq_dabi_iff {w c op : Nat} (hc : c < 16) (ho : op < 64) {g : BitVec 3} {d a b : BitVec 6} {i : Bool} :
    w = op6 c op g + dabi d a b i ↔ Headed w c g ∧ bits w 24 19 = op ∧ fld w 13 6 = d ∧ fld w 7 6 = a ∧ fld w 1 6 = b ∧
      Decode.flag w 0 = i := by
  have := g.isLt; have := d.isLt; have := a.isLt; have := b.isLt; have := flag_lt i
  simp only [headed_iff hc, fld_eq_iff, flag_eq_iff, bits, op6, dabi]
  omega

/-- R77, R88: a register and 13 bits. -/
theorem eq_wide_iff {w c op : Nat} (hc : c < 16) (ho : op < 64) {g : BitVec 3} {d : BitVec 6} {n : BitVec 13} :
    w = op6 c op g + d.toNat * 2 ^ 13 + n.toNat ↔ Headed w c g ∧ bits w 24 19 = op ∧ fld w 13 6 = d ∧ fld w 0 13 = n := by
  have := g.isLt; have := d.isLt; have := n.isLt
  simp only [headed_iff hc, fld_eq_iff, bits, op6]
  omega

/-- R79: no field at all. -/
theorem eq_bare_iff {w c op : Nat} (hc : c < 16) (ho : op < 32) {g : BitVec 3} :
    w = op5 c op g ↔ Headed w c g ∧ bits w 24 20 = op ∧ bits w 19 0 = 0 := by
  have := g.isLt
  simp only [headed_iff hc, bits, op5]
  omega

theorem eq_br_iff {w : Nat} {g : BitVec 3} {off : BitVec 20} :
    w = op5 2 1 g + off.toNat ↔ Headed w 2 g ∧ bits w 24 20 = 1 ∧ fld w 0 20 = off := by
  have := g.isLt; have := off.isLt
  simp only [headed_iff (by decide : 2 < 16), fld_eq_iff, bits, op5]
  omega

theorem eq_jmp_iff {w : Nat} {g : BitVec 3} {a : BitVec 6} :
    w = op5 2 2 g + a.toNat * 2 ^ 14 ↔ Headed w 2 g ∧ bits w 24 20 = 2 ∧ fld w 14 6 = a ∧ bits w 13 0 = 0 := by
  have := g.isLt; have := a.isLt
  simp only [headed_iff (by decide : 2 < 16), fld_eq_iff, bits, op5]
  omega

theorem eq_call_iff {w : Nat} {g : BitVec 3} {off : BitVec 19} :
    w = op5 2 3 g + off.toNat ↔ Headed w 2 g ∧ bits w 24 20 = 3 ∧ Decode.flag w 19 = false ∧ fld w 0 19 = off := by
  have := g.isLt; have := off.isLt
  simp only [headed_iff (by decide : 2 < 16), fld_eq_iff, flag_eq_iff, bits, op5, encodeFlag_false]
  omega

theorem eq_callReg_iff {w : Nat} {g : BitVec 3} {a : BitVec 6} :
    w = op5 2 3 g + 2 ^ 19 + a.toNat * 2 ^ 13 ↔ Headed w 2 g ∧ bits w 24 20 = 3 ∧ Decode.flag w 19 = true ∧ fld w 13 6 = a ∧
      bits w 12 0 = 0 := by
  have := g.isLt; have := a.isLt
  simp only [headed_iff (by decide : 2 < 16), fld_eq_iff, flag_eq_iff, bits, op5, encodeFlag_true]
  omega

theorem eq_loop_iff {w l : Nat} (hl : l < 8) {g : BitVec 3} {n : BitVec 4} {k : BitVec 6} :
    w = op5 2 5 g + l * 2 ^ 17 + n.toNat * 2 ^ 13 + k.toNat * 2 ^ 7 ↔ Headed w 2 g ∧ bits w 24 20 = 5 ∧ bits w 19 17 = l ∧
      fld w 13 4 = n ∧ fld w 7 6 = k ∧ bits w 6 0 = 0 := by
  have := g.isLt; have := n.isLt; have := k.isLt
  simp only [headed_iff (by decide : 2 < 16), fld_eq_iff, bits, op5]
  omega

theorem eq_flip_iff {w b p : Nat} (hb : b < 4) (hp : p < 4) {g : BitVec 3} :
    w = op5 2 6 g + b * 2 ^ 18 + p * 2 ^ 16 ↔ Headed w 2 g ∧ bits w 24 20 = 6 ∧ bits w 19 18 = b ∧ bits w 17 16 = p ∧
      bits w 15 0 = 0 := by
  have := g.isLt
  simp only [headed_iff (by decide : 2 < 16), bits, op5]
  omega

/-- R275, R326: TRAP and BKPT. -/
theorem eq_imm8_iff {w op : Nat} (ho : op < 32) {g : BitVec 3} {imm : BitVec 8} :
    w = op5 2 op g + imm.toNat ↔ Headed w 2 g ∧ bits w 24 20 = op ∧ fld w 0 8 = imm ∧ bits w 19 8 = 0 := by
  have := g.isLt; have := imm.isLt
  simp only [headed_iff (by decide : 2 < 16), fld_eq_iff, bits, op5]
  omega

/-- R81: W, SZ or FMT, bit 15, dst, A and B. -/
theorem eq_vec_iff {w c op x z : Nat} (hc : c < 16) (ho : op < 32) (hx : x < 4) (hz : z < 4) {g : BitVec 3}
    {d a b : BitVec 5} {u : Bool} :
    w = op5 c op g + wzu x z u + dab d a b ↔ Headed w c g ∧ bits w 24 20 = op ∧ bits w 19 18 = x ∧ bits w 17 16 = z ∧
      Decode.flag w 15 = u ∧ fld w 10 5 = d ∧ fld w 5 5 = a ∧ fld w 0 5 = b := by
  have := g.isLt; have := d.isLt; have := a.isLt; have := b.isLt; have := flag_lt u
  simp only [headed_iff hc, fld_eq_iff, flag_eq_iff, bits, op5, wzu, dab]
  omega

/-- R82: the same with B = 0. -/
theorem eq_vec1_iff {w c op x z : Nat} (hc : c < 16) (ho : op < 32) (hx : x < 4) (hz : z < 4) {g : BitVec 3}
    {d a : BitVec 5} {u : Bool} :
    w = op5 c op g + wzu x z u + da d a ↔ Headed w c g ∧ bits w 24 20 = op ∧ bits w 19 18 = x ∧ bits w 17 16 = z ∧
      Decode.flag w 15 = u ∧ fld w 10 5 = d ∧ fld w 5 5 = a ∧ bits w 4 0 = 0 := by
  have hB : fld w 0 5 = 0 ↔ bits w 4 0 = 0 := fld_eq_iff
  have hda : dab d a 0 = da d a := Nat.add_zero _
  have h := eq_vec_iff (w := w) (g := g) (u := u) (d := d) (a := a) (b := 0) hc ho hx hz
  rwa [hB, hda] at h

/-- R82: the same with a predicate register for dst. -/
theorem eq_vecPred_iff {w c op x z : Nat} (hc : c < 16) (ho : op < 32) (hx : x < 4) (hz : z < 4) {g d : BitVec 3}
    {a b : BitVec 5} {u : Bool} :
    w = op5 c op g + wzu x z u + dab (d.setWidth 5) a b ↔ Headed w c g ∧ bits w 24 20 = op ∧ bits w 19 18 = x ∧
      bits w 17 16 = z ∧ Decode.flag w 15 = u ∧ (bits w 14 13 = 0 ∧ fld w 10 3 = d) ∧ fld w 5 5 = a ∧ fld w 0 5 = b := by
  have hd : fld w 10 5 = d.setWidth 5 ↔ bits w 14 13 = 0 ∧ fld w 10 3 = d := by
    have := d.isLt
    rw [fld_eq_iff, fld_eq_iff, BitVec.toNat_setWidth_of_le (by decide), bits]
    omega
  have h := eq_vec_iff (w := w) (g := g) (u := u) (d := d.setWidth 5) (a := a) (b := b) hc ho hx hz
  rwa [hd] at h

theorem eq_qnt_iff {w x r : Nat} (hx : x < 4) (hr : r < 4) {g : BitVec 3} {m : BitVec 2} {d a : BitVec 5} :
    w = op5 5 1 g + wzu x m.toNat false + da d a + r ↔ Headed w 5 g ∧ bits w 24 20 = 1 ∧ bits w 19 18 = x ∧ fld w 16 2 = m ∧
      Decode.flag w 15 = false ∧ fld w 10 5 = d ∧ fld w 5 5 = a ∧ bits w 4 2 = 0 ∧ bits w 1 0 = r := by
  have := g.isLt; have := m.isLt; have := d.isLt; have := a.isLt
  simp only [headed_iff (by decide : 5 < 16), fld_eq_iff, flag_eq_iff, bits, op5, wzu, da, encodeFlag_false]
  omega

theorem eq_cvt_iff {w x s t r : Nat} (hx : x < 4) (hs : s < 8) (ht : t < 8) (hr : r < 4) {g : BitVec 3} {d a : BitVec 5} :
    w = op5 5 0 g + x * 2 ^ 18 + s * 2 ^ 15 + da d a + t * 2 ^ 2 + r ↔ Headed w 5 g ∧ bits w 24 20 = 0 ∧ bits w 19 18 = x ∧
      bits w 17 15 = s ∧ fld w 10 5 = d ∧ fld w 5 5 = a ∧ bits w 4 2 = t ∧ bits w 1 0 = r := by
  have := g.isLt; have := d.isLt; have := a.isLt
  simp only [headed_iff (by decide : 5 < 16), fld_eq_iff, bits, op5, da]
  omega

/-- R84: data, base, imm6 and mod. -/
theorem eq_mem_iff {w c op m : Nat} (hc : c < 16) (ho : op < 16) (hm : m < 8) {g : BitVec 3} {d b i : BitVec 6} :
    w = op4 c op g + mem d b i m ↔ Headed w c g ∧ bits w 24 21 = op ∧ fld w 15 6 = d ∧ fld w 9 6 = b ∧ fld w 3 6 = i ∧
      bits w 2 0 = m := by
  have := g.isLt; have := d.isLt; have := b.isLt; have := i.isLt
  simp only [headed_iff hc, fld_eq_iff, bits, op4, mem]
  omega

/-- R85: data, base, window, block offset and mod. -/
theorem eq_ply_iff {w c op m : Nat} (hc : c < 16) (ho : op < 16) (hm : m < 8) {g : BitVec 3} {d b : BitVec 6} {v : BitVec 2}
    {o : BitVec 4} :
    w = op4 c op g + Encode.ply d b v o m ↔ Headed w c g ∧ bits w 24 21 = op ∧ fld w 15 6 = d ∧ fld w 9 6 = b ∧
      fld w 7 2 = v ∧ fld w 3 4 = o ∧ bits w 2 0 = m := by
  have := g.isLt; have := d.isLt; have := b.isLt; have := v.isLt; have := o.isLt
  simp only [headed_iff hc, fld_eq_iff, bits, op4, Encode.ply]
  omega

theorem eq_xcfg_iff {w : Nat} {g : BitVec 3} {i j : BitVec 2} {e : BitVec 8} {k : Bool} :
    w = op3 0 g + Encode.flag k * 2 ^ 21 + i.toNat * 2 ^ 19 + j.toNat * 2 ^ 17 + e.toNat * 2 ^ 8 ↔ Headed w 9 g ∧
      bits w 24 22 = 0 ∧ Decode.flag w 21 = k ∧ fld w 19 2 = i ∧ fld w 17 2 = j ∧ bits w 16 16 = 0 ∧ fld w 8 8 = e ∧
      bits w 7 0 = 0 := by
  have := g.isLt; have := i.isLt; have := j.isLt; have := e.isLt; have := flag_lt k
  simp only [headed_iff (by decide : 9 < 16), fld_eq_iff, flag_eq_iff, bits, op3]
  omega

theorem eq_xpush_iff {w : Nat} {g : BitVec 3} :
    w = op3 1 g ↔ Headed w 9 g ∧ bits w 24 22 = 1 ∧ bits w 21 0 = 0 := by
  have := g.isLt
  simp only [headed_iff (by decide : 9 < 16), bits, op3]
  omega

/-- R86: a bank alone. -/
theorem eq_bank_iff {w op : Nat} (ho : op < 8) {g : BitVec 3} {k : Bool} :
    w = op3 op g + Encode.flag k * 2 ^ 21 ↔ Headed w 9 g ∧ bits w 24 22 = op ∧ Decode.flag w 21 = k ∧ bits w 20 0 = 0 := by
  have := g.isLt; have := flag_lt k
  simp only [headed_iff (by decide : 9 < 16), flag_eq_iff, bits, op3]
  omega

theorem eq_ecopy_iff {w z : Nat} (hz : z < 4) {g : BitVec 3} {b : BitVec 5} {n : BitVec 3} {v : BitVec 8} {c e h : Bool} :
    w = op4 10 0 g + eng b c e v + Encode.flag h * 2 ^ 13 + n.toNat * 2 ^ 10 + z * 2 ^ 8 ↔ Headed w 10 g ∧ bits w 24 21 = 0 ∧
      fld w 16 5 = b ∧ Decode.flag w 15 = c ∧ Decode.flag w 14 = e ∧ fld w 0 8 = v ∧ Decode.flag w 13 = h ∧ fld w 10 3 = n ∧
      bits w 9 8 = z := by
  have := g.isLt; have := b.isLt; have := n.isLt; have := v.isLt; have := flag_lt c; have := flag_lt e; have := flag_lt h
  simp only [headed_iff (by decide : 10 < 16), fld_eq_iff, flag_eq_iff, bits, op4, eng]
  omega

theorem eq_egather_iff {w z : Nat} (hz : z < 4) {g : BitVec 3} {b : BitVec 5} {v : BitVec 8} {c e x : Bool} :
    w = op4 10 1 g + eng b c e v + Encode.flag x * 2 ^ 13 + z * 2 ^ 8 ↔ Headed w 10 g ∧ bits w 24 21 = 1 ∧ fld w 16 5 = b ∧
      Decode.flag w 15 = c ∧ Decode.flag w 14 = e ∧ fld w 0 8 = v ∧ Decode.flag w 13 = x ∧ bits w 12 10 = 0 ∧ bits w 9 8 = z := by
  have := g.isLt; have := b.isLt; have := v.isLt; have := flag_lt c; have := flag_lt e; have := flag_lt x
  simp only [headed_iff (by decide : 10 < 16), fld_eq_iff, flag_eq_iff, bits, op4, eng]
  omega

theorem eq_ereduce_iff {w : Nat} {g : BitVec 3} {b : BitVec 5} {o f : BitVec 2} {v : BitVec 8} {c e : Bool} :
    w = op4 10 2 g + eng b c e v + o.toNat * 2 ^ 12 + f.toNat * 2 ^ 10 ↔ Headed w 10 g ∧ bits w 24 21 = 2 ∧ fld w 16 5 = b ∧
      Decode.flag w 15 = c ∧ Decode.flag w 14 = e ∧ fld w 0 8 = v ∧ fld w 12 2 = o ∧ fld w 10 2 = f ∧ bits w 9 8 = 0 := by
  have := g.isLt; have := b.isLt; have := o.isLt; have := f.isLt; have := v.isLt; have := flag_lt c; have := flag_lt e
  simp only [headed_iff (by decide : 10 < 16), fld_eq_iff, flag_eq_iff, bits, op4, eng]
  omega

theorem eq_epage_iff {w : Nat} {g : BitVec 3} {b : BitVec 5} {k s : BitVec 2} {v : BitVec 8} {c e r y : Bool} :
    w = op4 10 3 g + eng b c e v + Encode.flag r * 2 ^ 13 + k.toNat * 2 ^ 11 + s.toNat * 2 ^ 9 + Encode.flag y * 2 ^ 8 ↔
      Headed w 10 g ∧ bits w 24 21 = 3 ∧ fld w 16 5 = b ∧ Decode.flag w 15 = c ∧ Decode.flag w 14 = e ∧ fld w 0 8 = v ∧
      Decode.flag w 13 = r ∧ fld w 11 2 = k ∧ fld w 9 2 = s ∧ Decode.flag w 8 = y := by
  have := g.isLt; have := b.isLt; have := k.isLt; have := s.isLt; have := v.isLt; have := flag_lt c; have := flag_lt e
  have := flag_lt r; have := flag_lt y
  simp only [headed_iff (by decide : 10 < 16), fld_eq_iff, flag_eq_iff, bits, op4, eng]
  omega

theorem eq_edict_iff {w : Nat} {g : BitVec 3} {b : BitVec 5} {s : BitVec 2} {v : BitVec 8} {c e : Bool} :
    w = op4 10 4 g + eng b c e v + s.toNat * 2 ^ 9 ↔ Headed w 10 g ∧ bits w 24 21 = 4 ∧ fld w 16 5 = b ∧
      Decode.flag w 15 = c ∧ Decode.flag w 14 = e ∧ fld w 0 8 = v ∧ bits w 13 11 = 0 ∧ fld w 9 2 = s ∧ bits w 8 8 = 0 := by
  have := g.isLt; have := b.isLt; have := s.isLt; have := v.isLt; have := flag_lt c; have := flag_lt e
  simp only [headed_iff (by decide : 10 < 16), fld_eq_iff, flag_eq_iff, bits, op4, eng]
  omega

theorem eq_flags_iff {w : Nat} {g : BitVec 3} {d : BitVec 6} {l : BitVec 4} {k : Bool} :
    w = op6 11 2 g + d.toNat * 2 ^ 13 + Encode.flag k * 2 ^ 12 + l.toNat * 2 ^ 8 ↔ Headed w 11 g ∧ bits w 24 19 = 2 ∧
      fld w 13 6 = d ∧ Decode.flag w 12 = k ∧ fld w 8 4 = l ∧ bits w 7 0 = 0 := by
  have := g.isLt; have := d.isLt; have := l.isLt; have := flag_lt k
  simp only [headed_iff (by decide : 11 < 16), fld_eq_iff, flag_eq_iff, bits, op6]
  omega

theorem eq_versw_iff {w : Nat} {g : BitVec 3} :
    w = op6 11 3 g ↔ Headed w 11 g ∧ bits w 24 19 = 3 ∧ bits w 18 13 = 0 ∧ Decode.flag w 12 = false ∧ bits w 11 0 = 0 := by
  have := g.isLt
  simp only [headed_iff (by decide : 11 < 16), flag_eq_iff, bits, op6, encodeFlag_false]
  omega

theorem eq_verswNamed_iff {w : Nat} {g : BitVec 3} {d : BitVec 6} :
    w = op6 11 3 g + d.toNat * 2 ^ 13 + 2 ^ 12 ↔ Headed w 11 g ∧ bits w 24 19 = 3 ∧ fld w 13 6 = d ∧
      Decode.flag w 12 = true ∧ bits w 11 0 = 0 := by
  have := g.isLt; have := d.isLt
  simp only [headed_iff (by decide : 11 < 16), fld_eq_iff, flag_eq_iff, bits, op6, encodeFlag_true]
  omega

theorem eq_verpub_iff {w : Nat} {g : BitVec 3} {d : BitVec 6} :
    w = op6 11 4 g + d.toNat * 2 ^ 13 ↔ Headed w 11 g ∧ bits w 24 19 = 4 ∧ fld w 13 6 = d ∧ bits w 12 0 = 0 := by
  have := g.isLt; have := d.isLt
  simp only [headed_iff (by decide : 11 < 16), fld_eq_iff, bits, op6]
  omega

theorem eq_qarm_iff {w : Nat} {g p : BitVec 3} {e : BitVec 5} :
    w = op6 11 5 g + p.toNat * 2 ^ 10 + e.toNat * 2 ^ 5 ↔ Headed w 11 g ∧ bits w 24 19 = 5 ∧ bits w 18 13 = 0 ∧
      fld w 10 3 = p ∧ fld w 5 5 = e ∧ bits w 4 0 = 0 := by
  have := g.isLt; have := p.isLt; have := e.isLt
  simp only [headed_iff (by decide : 11 < 16), fld_eq_iff, bits, op6]
  omega

/-! ### The mod field of the plied accesses, PF and ACAS (R84, R85) -/

theorem mod_ldp_iff {w : Nat} {n : BitVec 2} {t : Bool} :
    bits w 2 0 = n.toNat * 2 + Encode.flag t ↔ fld w 1 2 = n ∧ Decode.flag w 0 = t := by
  have := n.isLt
  have := flag_lt t
  simp only [fld_eq_iff, flag_eq_iff, bits]
  omega

theorem mod_stp_iff {w : Nat} {n : BitVec 2} : bits w 2 0 = n.toNat * 2 ↔ fld w 1 2 = n ∧ bits w 0 0 = 0 := by
  have := n.isLt
  simp only [fld_eq_iff, bits]
  omega

theorem mod_pf_iff {w : Nat} {c : Bool} : bits w 2 0 = Encode.flag c ↔ bits w 2 1 = 0 ∧ Decode.flag w 0 = c := by
  have := flag_lt c
  simp only [flag_eq_iff, bits]
  omega

theorem mod_acas_iff {w : Nat} {z : Bool} : bits w 2 0 = 2 + Encode.flag z ↔ bits w 2 1 = 1 ∧ Decode.flag w 0 = z := by
  have := flag_lt z
  simp only [flag_eq_iff, bits]
  omega

theorem mod_pacc_iff {w : Nat} {r : Bool} : bits w 2 0 = Encode.flag r * 4 ↔ Decode.flag w 2 = r ∧ bits w 1 0 = 0 := by
  have := flag_lt r
  simp only [flag_eq_iff, bits]
  omega

/-- The words that name a register and a size alone: bits [14:3] are the two fields of a memory word that they leave out. -/
theorem memData_iff {w : Nat} : fld w 9 6 = 0 ∧ fld w 3 6 = 0 ↔ bits w 14 3 = 0 := by
  have h0 : (0 : BitVec 6).toNat = 0 := rfl
  simp only [fld_eq_iff, bits, h0]
  omega

/-! ### Codes (R78 to R86) -/

theorem bits_lt (w hi lo : Nat) : bits w hi lo < 2 ^ (hi + 1 - lo) := Nat.mod_lt _ (Nat.two_pow_pos _)

/-- A field of one bit read as a number and as a flag. -/
theorem bits_self_eq_zero {w k : Nat} : bits w k k = 0 ↔ Decode.flag w k = false := by
  rw [flag_eq_iff, encodeFlag_false, bits, Nat.add_sub_cancel_left, Nat.pow_one]

@[simp] theorem decode_width (x : Width) : Decode.width (Encode.width x) = some x := by cases x <;> rfl
@[simp] theorem decode_esize (x : ESize) : Decode.esize (Encode.esize x) = x := by cases x <;> rfl
@[simp] theorem decode_ffmt (x : FFmt) : Decode.ffmt (Encode.ffmt x) = x := by cases x <;> rfl
@[simp] theorem decode_cfmt (x : CFmt) : Decode.cfmt (Encode.cfmt x) = x := by cases x <;> rfl
@[simp] theorem decode_rnd (x : Rnd) : Decode.rnd (Encode.rnd x) = x := by cases x <;> rfl
@[simp] theorem decode_asize (x : ASize) : Decode.asize (Encode.asize x) = some x := by cases x <;> rfl
@[simp] theorem decode_atomOp (x : AtomOp) : Decode.atomOp (Encode.atomOp x) = x := by cases x <;> rfl
@[simp] theorem decode_bscope (x : BScope) : Decode.bscope (Encode.bscope x) = some x := by cases x <;> rfl
@[simp] theorem decode_pscope (x : PScope) : Decode.pscope (Encode.pscope x) = x := by cases x <;> rfl
@[simp] theorem decode_level (l : Fin 6) : Decode.level l.val = some l := dif_pos l.isLt

/-- W is a field of two bits, and the size one of three, of which one code each is reserved (R81, R84). -/
theorem width_lt_four (x : Width) : Encode.width x < 4 := Nat.lt_trans (width_lt x) (by decide)
theorem asize_lt_eight (x : ASize) : Encode.asize x < 8 := Nat.lt_trans (asize_lt x) (by decide)

theorem encode_width {n : Nat} {x : Width} (h : Decode.width n = some x) : Encode.width x = n := by
  unfold Decode.width at h; split at h <;> cases h <;> rfl
theorem encode_asize {n : Nat} {x : ASize} (h : Decode.asize n = some x) : Encode.asize x = n := by
  unfold Decode.asize at h; split at h <;> cases h <;> rfl
theorem encode_bscope {n : Nat} {x : BScope} (h : Decode.bscope n = some x) : Encode.bscope x = n := by
  unfold Decode.bscope at h; split at h <;> cases h <;> rfl
theorem encode_level {n : Nat} {x : Fin 6} (h : Decode.level n = some x) : x.val = n := by
  unfold Decode.level at h; split at h <;> cases h; rfl
theorem encode_esize : ∀ n < 4, Encode.esize (Decode.esize n) = n := by decide
theorem encode_ffmt : ∀ n < 4, Encode.ffmt (Decode.ffmt n) = n := by decide
theorem encode_cfmt : ∀ n < 8, Encode.cfmt (Decode.cfmt n) = n := by decide
theorem encode_rnd : ∀ n < 4, Encode.rnd (Decode.rnd n) = n := by decide
theorem encode_atomOp : ∀ n < 8, Encode.atomOp (Decode.atomOp n) = n := by decide
theorem encode_pscope : ∀ n < 4, Encode.pscope (Decode.pscope n) = n := by decide

/-! ### A word that decodes is the word of its syllable, class by class -/

section Vector
variable {w c op x z : Nat} {u : Bool} (hh : Headed w c (fld w 25 3)) (ho : bits w 24 20 = op) (hx : x = bits w 19 18)
  (hz : z = bits w 17 16) (hu : Decode.flag w 15 = u)
include hh ho hx hz hu

theorem vec_of_fields : op5 c op (fld w 25 3) + wzu x z u + dab (fld w 10 5) (fld w 5 5) (fld w 0 5) = w :=
  ((eq_vec_iff (hh.cls ▸ bits_lt ..) (ho ▸ bits_lt ..) (hx ▸ bits_lt ..) (hz ▸ bits_lt ..)).mpr
    ⟨hh, ho, hx.symm, hz.symm, hu, rfl, rfl, rfl⟩).symm

theorem vec1_of_fields (h0 : bits w 4 0 = 0) : op5 c op (fld w 25 3) + wzu x z u + da (fld w 10 5) (fld w 5 5) = w :=
  ((eq_vec1_iff (hh.cls ▸ bits_lt ..) (ho ▸ bits_lt ..) (hx ▸ bits_lt ..) (hz ▸ bits_lt ..)).mpr
    ⟨hh, ho, hx.symm, hz.symm, hu, rfl, rfl, h0⟩).symm

theorem vecPred_of_fields (h0 : bits w 14 13 = 0) :
    op5 c op (fld w 25 3) + wzu x z u + dab ((fld w 10 3).setWidth 5) (fld w 5 5) (fld w 0 5) = w :=
  ((eq_vecPred_iff (hh.cls ▸ bits_lt ..) (ho ▸ bits_lt ..) (hx ▸ bits_lt ..) (hz ▸ bits_lt ..)).mpr
    ⟨hh, ho, hx.symm, hz.symm, hu, ⟨h0, rfl⟩, rfl, rfl⟩).symm

end Vector

section Memory
variable {w c op m : Nat} (hh : Headed w c (fld w 25 3)) (ho : bits w 24 21 = op) (hm : bits w 2 0 = m)
include hh ho hm

theorem mem_of_fields : op4 c op (fld w 25 3) + mem (fld w 15 6) (fld w 9 6) (fld w 3 6) m = w :=
  ((eq_mem_iff (hh.cls ▸ bits_lt ..) (ho ▸ bits_lt ..) (hm ▸ bits_lt ..)).mpr ⟨hh, ho, rfl, rfl, rfl, hm⟩).symm

theorem ply_of_fields : op4 c op (fld w 25 3) + Encode.ply (fld w 15 6) (fld w 9 6) (fld w 7 2) (fld w 3 4) m = w :=
  ((eq_ply_iff (hh.cls ▸ bits_lt ..) (ho ▸ bits_lt ..) (hm ▸ bits_lt ..)).mpr ⟨hh, ho, rfl, rfl, rfl, rfl, hm⟩).symm

/-- The words that name a register and a size alone (R85). -/
theorem memData_of_fields (h0 : bits w 14 3 = 0) : op4 c op (fld w 25 3) + mem (fld w 15 6) 0 0 m = w := by
  obtain ⟨hb, hi⟩ := memData_iff.mpr h0
  have h := mem_of_fields hh ho hm
  rwa [hb, hi] at h

end Memory

section Inverse
variable {w : Nat} {i : Instr}

theorem encode_of_scalar (hh : Headed w 1 (fld w 25 3)) (h : Decode.scalar w = .ok i) : encode i = w ∧ classOf i = 1 := by
  have dabi {op : Nat} (ho : bits w 24 19 = op) (hop : op < 64) :=
    (eq_dabi_iff (by decide) hop).mpr ⟨hh, ho, rfl, rfl, rfl, rfl⟩
  unfold Decode.scalar at h
  dsimp only at h
  split at h
  case h_18 ho => -- LI
    cases h
    exact ⟨((eq_wide_iff (by decide) (by decide)).mpr ⟨hh, ho, rfl, rfl⟩).symm, rfl⟩
  case h_29 => cases h
  all_goals next ho => cases h; exact ⟨(dabi ho (by decide)).symm, rfl⟩

theorem encode_of_control (hh : Headed w 2 (fld w 25 3)) (h : Decode.control w = .ok i) : encode i = w ∧ classOf i = 2 := by
  unfold Decode.control at h
  dsimp only at h
  split at h
  case h_1 ho | h_5 ho | h_8 ho | h_11 ho => -- NOP, RET, RETIRE, RETH
    obtain ⟨h0, rfl⟩ := zero_eq_ok.mp h
    exact ⟨((eq_bare_iff (by decide) (by decide)).mpr ⟨hh, ho, h0⟩).symm, rfl⟩
  case h_9 ho | h_10 ho => -- TRAP, BKPT
    obtain ⟨h0, rfl⟩ := zero_eq_ok.mp h
    exact ⟨((eq_imm8_iff (by decide)).mpr ⟨hh, ho, rfl, h0⟩).symm, rfl⟩
  case h_2 ho => -- BR
    cases h
    exact ⟨(eq_br_iff.mpr ⟨hh, ho, rfl⟩).symm, rfl⟩
  case h_3 ho => -- JMP
    obtain ⟨h0, rfl⟩ := zero_eq_ok.mp h
    exact ⟨(eq_jmp_iff.mpr ⟨hh, ho, rfl, h0⟩).symm, rfl⟩
  case h_4 ho => -- CALL
    split at h
    · obtain ⟨h0, rfl⟩ := zero_eq_ok.mp h
      exact ⟨(eq_callReg_iff.mpr ⟨hh, ho, ‹_›, rfl, h0⟩).symm, rfl⟩
    · cases h
      exact ⟨(eq_call_iff.mpr ⟨hh, ho, Bool.eq_false_iff.mpr ‹_›, rfl⟩).symm, rfl⟩
  case h_6 ho => -- LOOP
    obtain ⟨l, hl, h⟩ := some?_eq_ok.mp h
    obtain ⟨h0, rfl⟩ := zero_eq_ok.mp h
    have hloop := (eq_loop_iff (by omega)).mpr ⟨hh, ho, (encode_level hl).symm, rfl, rfl, h0⟩
    exact ⟨hloop.symm, rfl⟩
  case h_7 ho => -- FLIP
    obtain ⟨b, hb, h⟩ := some?_eq_ok.mp h
    obtain ⟨h0, rfl⟩ := zero_eq_ok.mp h
    have hb := encode_bscope hb
    have hp := encode_pscope _ (bits_lt w 17 16)
    exact ⟨((eq_flip_iff (hb ▸ bits_lt ..) (pscope_lt _)).mpr ⟨hh, ho, hb.symm, hp.symm, h0⟩).symm, rfl⟩
  case h_12 => cases h

theorem encode_of_vectorInt (hh : Headed w 3 (fld w 25 3)) (h : Decode.vectorInt w = .ok i) : encode i = w ∧ classOf i = 3 := by
  obtain ⟨v, hv, h⟩ := some?_eq_ok.mp h
  have hx := encode_width hv
  have hz := encode_esize _ (bits_lt w 17 16)
  split at h
  case h_13 ho | h_15 ho => -- VABS, VCNT
    obtain ⟨h0, rfl⟩ := zero_eq_ok.mp h
    exact ⟨vec1_of_fields hh ho hx hz rfl h0, rfl⟩
  case h_17 ho | h_18 ho | h_19 ho | h_20 ho | h_21 ho | h_22 ho | h_23 ho | h_24 ho => -- VCMP
    obtain ⟨h0, rfl⟩ := zero_eq_ok.mp h
    exact ⟨vecPred_of_fields hh ho hx hz rfl h0, rfl⟩
  case h_25 => cases h
  all_goals next ho => cases h; exact ⟨vec_of_fields hh ho hx hz rfl, rfl⟩

theorem encode_of_vectorFloat (hh : Headed w 4 (fld w 25 3)) (h : Decode.vectorFloat w = .ok i) :
    encode i = w ∧ classOf i = 4 := by
  obtain ⟨v, hv, h⟩ := some?_eq_ok.mp h
  have hx := encode_width hv
  have hz := encode_ffmt _ (bits_lt w 17 16)
  split at h
  case h_7 ho | h_8 ho => -- FABS, FNEG
    obtain ⟨h0, rfl⟩ := zero_eq_ok.mp h
    exact ⟨vec1_of_fields hh ho hx hz rfl h0, rfl⟩
  case h_11 ho | h_12 ho | h_13 ho | h_14 ho | h_15 ho | h_16 ho | h_17 ho | h_18 ho => -- FCMP
    obtain ⟨h0, rfl⟩ := zero_eq_ok.mp h
    exact ⟨vecPred_of_fields hh ho hx hz rfl h0, rfl⟩
  case h_19 => cases h
  all_goals next ho => cases h; exact ⟨vec_of_fields hh ho hx hz rfl, rfl⟩

theorem encode_of_convert (hh : Headed w 5 (fld w 25 3)) (h : Decode.convert w = .ok i) : encode i = w ∧ classOf i = 5 := by
  obtain ⟨v, hv, h⟩ := some?_eq_ok.mp h
  have hx := encode_width hv
  have hz := encode_esize _ (bits_lt w 17 16)
  split at h
  case h_1 ho => -- CVT
    cases h
    have hs := encode_cfmt _ (bits_lt w 17 15)
    have ht := encode_cfmt _ (bits_lt w 4 2)
    have hr := encode_rnd _ (bits_lt w 1 0)
    exact ⟨((eq_cvt_iff (hx ▸ bits_lt ..) (cfmt_lt _) (cfmt_lt _) (rnd_lt _)).mpr
      ⟨hh, ho, hx.symm, hs.symm, rfl, rfl, ht.symm, hr.symm⟩).symm, rfl⟩
  case h_2 ho => -- QNT
    split at h
    · cases h
    · obtain ⟨h0, rfl⟩ := zero_eq_ok.mp h
      have hr := encode_rnd _ (bits_lt w 1 0)
      exact ⟨((eq_qnt_iff (hx ▸ bits_lt ..) (rnd_lt _)).mpr
        ⟨hh, ho, hx.symm, rfl, Bool.eq_false_iff.mpr ‹_›, rfl, rfl, h0, hr.symm⟩).symm, rfl⟩
  case h_3 ho => -- DQNT
    split at h
    · cases h
    · obtain ⟨h0, rfl⟩ := zero_eq_ok.mp h
      exact ⟨vec1_of_fields hh ho hx (fld_eq_iff.mp rfl).symm (Bool.eq_false_iff.mpr ‹_›) h0, rfl⟩
  case h_5 ho => -- VBCAST
    obtain ⟨h0, rfl⟩ := zero_eq_ok.mp h
    exact ⟨vec1_of_fields hh ho hx hz rfl h0, rfl⟩
  case h_8 ho => -- VMOVP
    split at h
    · next hz0 =>
      obtain ⟨h0, rfl⟩ := zero_eq_ok.mp h
      exact ⟨vec1_of_fields hh ho hx hz0.symm rfl h0, rfl⟩
    · cases h
  case h_12 => cases h
  all_goals next ho =>
    obtain ⟨h15, rfl⟩ := zero_eq_ok.mp h
    exact ⟨vec_of_fields hh ho hx hz (bits_self_eq_zero.mp h15), rfl⟩

theorem encode_of_special (hh : Headed w 6 (fld w 25 3)) (h : Decode.special w = .ok i) : encode i = w ∧ classOf i = 6 := by
  obtain ⟨v, hv, h⟩ := some?_eq_ok.mp h
  have hx := encode_width hv
  have hz := encode_ffmt _ (bits_lt w 17 16)
  split at h
  · cases h
  have hu := Bool.eq_false_iff.mpr ‹_›
  split at h
  case h_6 ho => cases h; exact ⟨vec_of_fields hh ho hx hz hu, rfl⟩
  case h_7 => cases h
  all_goals next ho =>
    obtain ⟨h0, rfl⟩ := zero_eq_ok.mp h
    exact ⟨vec1_of_fields hh ho hx hz hu h0, rfl⟩

theorem encode_of_loads (hh : Headed w 7 (fld w 25 3)) (h : Decode.loads w = .ok i) : encode i = w ∧ classOf i = 7 := by
  unfold Decode.loads at h
  dsimp only at h
  split at h
  case h_4 ho => -- LDP
    cases h
    exact ⟨ply_of_fields hh ho (mod_ldp_iff.mpr ⟨rfl, rfl⟩), rfl⟩
  case h_5 ho => -- PF
    split at h
    · obtain ⟨h0, rfl⟩ := zero_eq_ok.mp h
      have hpf := mem_of_fields hh ho (mod_pf_iff.mpr ⟨‹_›, rfl⟩)
      rw [show fld w 15 6 = 0 from fld_eq_iff.mpr h0] at hpf
      exact ⟨hpf, rfl⟩
    · cases h
  case h_6 ho => -- QPOP
    obtain ⟨m, hm, h⟩ := some?_eq_ok.mp h
    obtain ⟨h0, rfl⟩ := zero_eq_ok.mp h
    exact ⟨memData_of_fields hh ho (encode_asize hm).symm h0, rfl⟩
  case h_7 => cases h
  all_goals next ho =>
    obtain ⟨m, hm, h⟩ := some?_eq_ok.mp h
    cases h
    exact ⟨mem_of_fields hh ho (encode_asize hm).symm, rfl⟩

theorem encode_of_stores (hh : Headed w 8 (fld w 25 3)) (h : Decode.stores w = .ok i) : encode i = w ∧ classOf i = 8 := by
  unfold Decode.stores at h
  dsimp only at h
  split at h
  case h_3 ho => -- STP
    obtain ⟨h0, rfl⟩ := zero_eq_ok.mp h
    exact ⟨ply_of_fields hh ho (mod_stp_iff.mpr ⟨rfl, h0⟩), rfl⟩
  case h_5 ho => -- ATOM
    cases h
    exact ⟨mem_of_fields hh ho (encode_atomOp _ (bits_lt w 2 0)).symm, rfl⟩
  case h_6 ho => -- ACAS
    split at h <;> cases h
    exact ⟨mem_of_fields hh ho (mod_acas_iff.mpr ⟨‹_›, rfl⟩), rfl⟩
  case h_7 ho | h_8 ho => -- PACC, PDEC
    split at h <;> cases h
    exact ⟨ply_of_fields hh ho (mod_pacc_iff.mpr ⟨rfl, ‹_›⟩), rfl⟩
  case h_9 ho => -- QPUSH
    split at h
    case h_4 => cases h
    all_goals next hm =>
      obtain ⟨h0, rfl⟩ := zero_eq_ok.mp h
      exact ⟨memData_of_fields hh ho hm h0, rfl⟩
  case h_10 ho => -- STK
    split at h <;> cases h
    exact ⟨mem_of_fields hh ho ‹_›, rfl⟩
  case h_11 => cases h
  all_goals next ho =>
    obtain ⟨m, hm, h⟩ := some?_eq_ok.mp h
    cases h
    exact ⟨mem_of_fields hh ho (encode_asize hm).symm, rfl⟩

theorem encode_of_matrix (hh : Headed w 9 (fld w 25 3)) (h : Decode.matrix w = .ok i) : encode i = w ∧ classOf i = 9 := by
  unfold Decode.matrix at h
  dsimp only at h
  split at h
  case h_1 ho => -- XCFG
    split at h
    · obtain ⟨h0, rfl⟩ := zero_eq_ok.mp h
      exact ⟨(eq_xcfg_iff.mpr ⟨hh, ho, rfl, rfl, rfl, ‹_›, rfl, h0⟩).symm, rfl⟩
    · cases h
  case h_2 ho => -- XPUSH
    obtain ⟨h0, rfl⟩ := zero_eq_ok.mp h
    exact ⟨(eq_xpush_iff.mpr ⟨hh, ho, h0⟩).symm, rfl⟩
  case h_6 => cases h
  all_goals next ho =>
    obtain ⟨h0, rfl⟩ := zero_eq_ok.mp h
    exact ⟨((eq_bank_iff (by decide)).mpr ⟨hh, ho, rfl, h0⟩).symm, rfl⟩

theorem encode_of_engine (hh : Headed w 10 (fld w 25 3)) (h : Decode.engine w = .ok i) : encode i = w ∧ classOf i = 10 := by
  have hz := encode_esize _ (bits_lt w 9 8)
  unfold Decode.engine at h
  dsimp only at h
  split at h
  case h_1 ho => -- ECOPY
    cases h
    exact ⟨((eq_ecopy_iff (esize_lt _)).mpr ⟨hh, ho, rfl, rfl, rfl, rfl, rfl, rfl, hz.symm⟩).symm, rfl⟩
  case h_2 ho => -- EGATHER
    obtain ⟨h0, rfl⟩ := zero_eq_ok.mp h
    exact ⟨((eq_egather_iff (esize_lt _)).mpr ⟨hh, ho, rfl, rfl, rfl, rfl, rfl, h0, hz.symm⟩).symm, rfl⟩
  case h_3 ho => -- EREDUCE
    obtain ⟨h0, rfl⟩ := zero_eq_ok.mp h
    exact ⟨(eq_ereduce_iff.mpr ⟨hh, ho, rfl, rfl, rfl, rfl, rfl, rfl, h0⟩).symm, rfl⟩
  case h_4 ho => -- EPAGE
    cases h
    exact ⟨(eq_epage_iff.mpr ⟨hh, ho, rfl, rfl, rfl, rfl, rfl, rfl, rfl, rfl⟩).symm, rfl⟩
  case h_5 ho => -- EDICT
    split at h
    · obtain ⟨h8, rfl⟩ := zero_eq_ok.mp h
      exact ⟨(eq_edict_iff.mpr ⟨hh, ho, rfl, rfl, rfl, rfl, ‹_›, rfl, h8⟩).symm, rfl⟩
    · cases h
  case h_6 => cases h

theorem encode_of_system (hh : Headed w 11 (fld w 25 3)) (h : Decode.system w = .ok i) : encode i = w ∧ classOf i = 11 := by
  unfold Decode.system at h
  dsimp only at h
  split at h
  case h_1 ho | h_2 ho => -- CSRR, CSRW
    cases h
    exact ⟨((eq_wide_iff (by decide) (by decide)).mpr ⟨hh, ho, rfl, rfl⟩).symm, rfl⟩
  case h_3 ho => -- FLAGS
    obtain ⟨h0, rfl⟩ := zero_eq_ok.mp h
    exact ⟨(eq_flags_iff.mpr ⟨hh, ho, rfl, rfl, rfl, h0⟩).symm, rfl⟩
  case h_4 ho => -- VERSW
    split at h
    · obtain ⟨h0, rfl⟩ := zero_eq_ok.mp h
      exact ⟨(eq_verswNamed_iff.mpr ⟨hh, ho, rfl, ‹_›, h0⟩).symm, rfl⟩
    · split at h
      · obtain ⟨h0, rfl⟩ := zero_eq_ok.mp h
        exact ⟨(eq_versw_iff.mpr ⟨hh, ho, ‹_›, Bool.eq_false_iff.mpr ‹_›, h0⟩).symm, rfl⟩
      · cases h
  case h_5 ho => -- VERPUB
    obtain ⟨h0, rfl⟩ := zero_eq_ok.mp h
    exact ⟨(eq_verpub_iff.mpr ⟨hh, ho, rfl, h0⟩).symm, rfl⟩
  case h_6 ho => -- QARM
    split at h
    · obtain ⟨h0, rfl⟩ := zero_eq_ok.mp h
      exact ⟨(eq_qarm_iff.mpr ⟨hh, ho, ‹_›, rfl, rfl, h0⟩).symm, rfl⟩
    · cases h
  case h_7 => cases h

/-- R75: the class of a word chooses its decoder. -/
theorem encode_of_decode (hw : w < 2 ^ 32) (h : decode w = .ok i) :
    ∃ c, c ≠ 0 ∧ bits w 31 28 = c ∧ encode i = w ∧ classOf i = c := by
  have headed {c : Nat} (hc : bits w 31 28 = c) : Headed w c (fld w 25 3) := ⟨hw, hc, rfl⟩
  unfold decode at h
  split at h
  case h_1 | h_13 | h_14 => cases h
  case h_2 hc => exact ⟨_, by decide, hc, encode_of_scalar (headed hc) h⟩
  case h_3 hc => exact ⟨_, by decide, hc, encode_of_control (headed hc) h⟩
  case h_4 hc => exact ⟨_, by decide, hc, encode_of_vectorInt (headed hc) h⟩
  case h_5 hc => exact ⟨_, by decide, hc, encode_of_vectorFloat (headed hc) h⟩
  case h_6 hc => exact ⟨_, by decide, hc, encode_of_convert (headed hc) h⟩
  case h_7 hc => exact ⟨_, by decide, hc, encode_of_special (headed hc) h⟩
  case h_8 hc => exact ⟨_, by decide, hc, encode_of_loads (headed hc) h⟩
  case h_9 hc => exact ⟨_, by decide, hc, encode_of_stores (headed hc) h⟩
  case h_10 hc => exact ⟨_, by decide, hc, encode_of_matrix (headed hc) h⟩
  case h_11 hc => exact ⟨_, by decide, hc, encode_of_engine (headed hc) h⟩
  case h_12 hc => exact ⟨_, by decide, hc, encode_of_system (headed hc) h⟩

end Inverse

/-! ### The word of a syllable decodes to it, class by class -/

section Word
variable {i : Instr}

theorem decode_scalar_encode (h : classOf i = 1) : encode i < 2 ^ 32 ∧ decode (encode i) = .ok i := by
  generalize hw : encode i = w
  cases i with
  | add g d a b i | sub g d a b i | mul g d a b i | mulh g d a b i | mulhu g d a b i | div g d a b i | rem g d a b i
  | and g d a b i | or g d a b i | xor g d a b i | shl g d a b i | shr g d a b i | sra g d a b i | min g d a b i
  | max g d a b i | mov g d a b i | sel g d a b i | mve g d a b i | mfe g d a b i =>
    obtain ⟨hh, ho, rfl, rfl, rfl, rfl⟩ := (eq_dabi_iff (by decide) (by decide)).mp hw.symm
    exact ⟨hh.lt, by simp [decode, Decode.scalar, hh.cls, hh.guard, ho]⟩
  | cmp g k d a b i =>
    have := cond_lt k
    obtain ⟨hh, ho, rfl, rfl, rfl, rfl⟩ := (eq_dabi_iff (by decide) (by omega)).mp hw.symm
    exact ⟨hh.lt, by cases k <;> simp [decode, Decode.scalar, hh.cls, hh.guard, ho, Encode.cond]⟩
  | li g d n =>
    obtain ⟨hh, ho, rfl, rfl⟩ := (eq_wide_iff (by decide) (by decide)).mp hw.symm
    exact ⟨hh.lt, by simp [decode, Decode.scalar, hh.cls, hh.guard, ho]⟩
  | _ => cases h

theorem decode_control_encode (h : classOf i = 2) : encode i < 2 ^ 32 ∧ decode (encode i) = .ok i := by
  generalize hw : encode i = w
  cases i with
  | nop g | ret g | retire g | reth g =>
    obtain ⟨hh, ho, h0⟩ := (eq_bare_iff (by decide) (by decide)).mp hw.symm
    exact ⟨hh.lt, by simp [decode, Decode.control, hh.cls, hh.guard, ho, zero, h0]⟩
  | trap g imm | bkpt g imm =>
    obtain ⟨hh, ho, rfl, h0⟩ := (eq_imm8_iff (by decide)).mp hw.symm
    exact ⟨hh.lt, by simp [decode, Decode.control, hh.cls, hh.guard, ho, zero, h0]⟩
  | br g off =>
    obtain ⟨hh, ho, rfl⟩ := eq_br_iff.mp hw.symm
    exact ⟨hh.lt, by simp [decode, Decode.control, hh.cls, hh.guard, ho]⟩
  | jmp g a =>
    obtain ⟨hh, ho, rfl, h0⟩ := eq_jmp_iff.mp hw.symm
    exact ⟨hh.lt, by simp [decode, Decode.control, hh.cls, hh.guard, ho, zero, h0]⟩
  | call g off =>
    obtain ⟨hh, ho, hr, rfl⟩ := eq_call_iff.mp hw.symm
    exact ⟨hh.lt, by simp [decode, Decode.control, hh.cls, hh.guard, ho, hr]⟩
  | callReg g a =>
    obtain ⟨hh, ho, hr, rfl, h0⟩ := eq_callReg_iff.mp hw.symm
    exact ⟨hh.lt, by simp [decode, Decode.control, hh.cls, hh.guard, ho, hr, zero, h0]⟩
  | loop g l n k =>
    obtain ⟨hh, ho, hl, rfl, rfl, h0⟩ := (eq_loop_iff (by omega)).mp hw.symm
    exact ⟨hh.lt, by simp [decode, Decode.control, hh.cls, hh.guard, ho, hl, some?, zero, h0]⟩
  | flip g b p =>
    have := bscope_lt b
    obtain ⟨hh, ho, hb, hp, h0⟩ := (eq_flip_iff (by omega) (pscope_lt p)).mp hw.symm
    exact ⟨hh.lt, by simp [decode, Decode.control, hh.cls, hh.guard, ho, hb, hp, some?, zero, h0]⟩
  | _ => cases h

theorem decode_vectorInt_encode (h : classOf i = 3) : encode i < 2 ^ 32 ∧ decode (encode i) = .ok i := by
  generalize hw : encode i = w
  cases i with
  | vadd g v z u d a b | vsub g v z u d a b | vmul g v z u d a b | vmulh g v z u d a b | vand g v z u d a b | vor g v z u d a b
  | vxor g v z u d a b | vshl g v z u d a b | vshr g v z u d a b | vsra g v z u d a b | vmin g v z u d a b | vmax g v z u d a b
  | vsel g v z u d a b | vredi g v z u d a b =>
    obtain ⟨hh, ho, hx, hz, rfl, rfl, rfl, rfl⟩ :=
      (eq_vec_iff (by decide) (by decide) (width_lt_four v) (esize_lt z)).mp hw.symm
    exact ⟨hh.lt, by simp [decode, Decode.vectorInt, hh.cls, hh.guard, ho, hx, hz, some?]⟩
  | vabs g v z u d a | vcnt g v z u d a =>
    obtain ⟨hh, ho, hx, hz, rfl, rfl, rfl, h0⟩ :=
      (eq_vec1_iff (by decide) (by decide) (width_lt_four v) (esize_lt z)).mp hw.symm
    exact ⟨hh.lt, by simp [decode, Decode.vectorInt, hh.cls, hh.guard, ho, hx, hz, some?, zero, h0]⟩
  | vcmp g k v z u d a b =>
    have := cond_lt k
    obtain ⟨hh, ho, hx, hz, rfl, ⟨h0, rfl⟩, rfl, rfl⟩ :=
      (eq_vecPred_iff (by decide) (by omega) (width_lt_four v) (esize_lt z)).mp hw.symm
    exact ⟨hh.lt, by cases k <;> simp [decode, Decode.vectorInt, hh.cls, hh.guard, ho, hx, hz, some?, zero, h0, Encode.cond]⟩
  | _ => cases h

theorem decode_vectorFloat_encode (h : classOf i = 4) : encode i < 2 ^ 32 ∧ decode (encode i) = .ok i := by
  generalize hw : encode i = w
  cases i with
  | fadd g v f s d a b | fsub g v f s d a b | fmul g v f s d a b | fma g v f s d a b | fmin g v f s d a b | fmax g v f s d a b
  | fred g v f s d a b | fsca g v f s d a b =>
    obtain ⟨hh, ho, hx, hz, rfl, rfl, rfl, rfl⟩ :=
      (eq_vec_iff (by decide) (by decide) (width_lt_four v) (ffmt_lt f)).mp hw.symm
    exact ⟨hh.lt, by simp [decode, Decode.vectorFloat, hh.cls, hh.guard, ho, hx, hz, some?]⟩
  | fabs g v f s d a | fneg g v f s d a =>
    obtain ⟨hh, ho, hx, hz, rfl, rfl, rfl, h0⟩ :=
      (eq_vec1_iff (by decide) (by decide) (width_lt_four v) (ffmt_lt f)).mp hw.symm
    exact ⟨hh.lt, by simp [decode, Decode.vectorFloat, hh.cls, hh.guard, ho, hx, hz, some?, zero, h0]⟩
  | fcmp g k v f s d a b =>
    have := fcond_lt k
    obtain ⟨hh, ho, hx, hz, rfl, ⟨h0, rfl⟩, rfl, rfl⟩ :=
      (eq_vecPred_iff (by decide) (by omega) (width_lt_four v) (ffmt_lt f)).mp hw.symm
    exact ⟨hh.lt, by cases k <;> simp [decode, Decode.vectorFloat, hh.cls, hh.guard, ho, hx, hz, some?, zero, h0, Encode.fcond]⟩
  | _ => cases h

theorem decode_convert_encode (h : classOf i = 5) : encode i < 2 ^ 32 ∧ decode (encode i) = .ok i := by
  generalize hw : encode i = w
  cases i with
  | vperm g v z d a b | vseq g v z d a b | visect g v z d a b | rngc g v z d a b | vext g v z d a b | vins g v z d a b =>
    obtain ⟨hh, ho, hx, hz, hu, rfl, rfl, rfl⟩ :=
      (eq_vec_iff (by decide) (by decide) (width_lt_four v) (esize_lt z)).mp hw.symm
    exact ⟨hh.lt, by simp [decode, Decode.convert, hh.cls, hh.guard, ho, hx, hz, some?, zero, bits_self_eq_zero, hu]⟩
  | cvt g v s d a t r =>
    obtain ⟨hh, ho, hx, hs, rfl, rfl, ht, hr⟩ :=
      (eq_cvt_iff (width_lt_four v) (cfmt_lt s) (cfmt_lt t) (rnd_lt r)).mp hw.symm
    exact ⟨hh.lt, by simp [decode, Decode.convert, hh.cls, hh.guard, ho, hx, hs, ht, hr, some?]⟩
  | qnt g v m d a r =>
    obtain ⟨hh, ho, hx, rfl, hu, rfl, rfl, h0, hr⟩ := (eq_qnt_iff (width_lt_four v) (rnd_lt r)).mp hw.symm
    exact ⟨hh.lt, by simp [decode, Decode.convert, hh.cls, hh.guard, ho, hx, hu, hr, some?, zero, h0]⟩
  | dqnt g v m d a =>
    obtain ⟨hh, ho, hx, hm, hu, rfl, rfl, h0⟩ := (eq_vec1_iff (by decide) (by decide) (width_lt_four v) m.isLt).mp hw.symm
    have hm : fld w 16 2 = m := fld_eq_iff.mpr hm
    exact ⟨hh.lt, by simp [decode, Decode.convert, hh.cls, hh.guard, ho, hx, hm, hu, some?, zero, h0]⟩
  | vbcast g v z u d a =>
    obtain ⟨hh, ho, hx, hz, rfl, rfl, rfl, h0⟩ :=
      (eq_vec1_iff (by decide) (by decide) (width_lt_four v) (esize_lt z)).mp hw.symm
    exact ⟨hh.lt, by simp [decode, Decode.convert, hh.cls, hh.guard, ho, hx, hz, some?, zero, h0]⟩
  | vmovp g v u d a =>
    obtain ⟨hh, ho, hx, hz, rfl, rfl, rfl, h0⟩ :=
      (eq_vec1_iff (by decide) (by decide) (width_lt_four v) (by decide)).mp hw.symm
    exact ⟨hh.lt, by simp [decode, Decode.convert, hh.cls, hh.guard, ho, hx, hz, some?, zero, h0]⟩
  | _ => cases h

theorem decode_special_encode (h : classOf i = 6) : encode i < 2 ^ 32 ∧ decode (encode i) = .ok i := by
  generalize hw : encode i = w
  cases i with
  | fexp2 g v f d a | flog2 g v f d a | frcp g v f d a | frsq g v f d a | fsqrt g v f d a =>
    obtain ⟨hh, ho, hx, hz, hu, rfl, rfl, h0⟩ :=
      (eq_vec1_iff (by decide) (by decide) (width_lt_four v) (ffmt_lt f)).mp hw.symm
    exact ⟨hh.lt, by simp [decode, Decode.special, hh.cls, hh.guard, ho, hx, hz, hu, some?, zero, h0]⟩
  | fdiv g v f d a b =>
    obtain ⟨hh, ho, hx, hz, hu, rfl, rfl, rfl⟩ :=
      (eq_vec_iff (by decide) (by decide) (width_lt_four v) (ffmt_lt f)).mp hw.symm
    exact ⟨hh.lt, by simp [decode, Decode.special, hh.cls, hh.guard, ho, hx, hz, hu, some?]⟩
  | _ => cases h

theorem decode_loads_encode (h : classOf i = 7) : encode i < 2 ^ 32 ∧ decode (encode i) = .ok i := by
  generalize hw : encode i = w
  cases i with
  | ld g d b i m | lds g d b i m | ldr g d b i m =>
    obtain ⟨hh, ho, rfl, rfl, rfl, hm⟩ := (eq_mem_iff (by decide) (by decide) (asize_lt_eight m)).mp hw.symm
    exact ⟨hh.lt, by simp [decode, Decode.loads, hh.cls, hh.guard, ho, hm, some?]⟩
  | ldp g d b v o n t =>
    have := n.isLt
    have := flag_lt t
    obtain ⟨hh, ho, rfl, rfl, rfl, rfl, hm⟩ := (eq_ply_iff (by decide) (by decide) (by omega)).mp hw.symm
    obtain ⟨rfl, rfl⟩ := mod_ldp_iff.mp hm
    exact ⟨hh.lt, by simp [decode, Decode.loads, hh.cls, hh.guard, ho]⟩
  | pf g b i c =>
    obtain ⟨hh, ho, hd, rfl, rfl, hm⟩ := (eq_mem_iff (by decide) (by decide) (Nat.lt_trans (flag_lt c) (by decide))).mp hw.symm
    obtain ⟨h1, rfl⟩ := mod_pf_iff.mp hm
    have hd : bits w 20 15 = 0 := fld_eq_iff.mp hd
    exact ⟨hh.lt, by simp [decode, Decode.loads, hh.cls, hh.guard, ho, zero, hd, h1]⟩
  | qpop g d m =>
    obtain ⟨hh, ho, rfl, hb, hi, hm⟩ := (eq_mem_iff (by decide) (by decide) (asize_lt_eight m)).mp hw.symm
    exact ⟨hh.lt, by simp [decode, Decode.loads, hh.cls, hh.guard, ho, hm, some?, zero, memData_iff.mp ⟨hb, hi⟩]⟩
  | _ => cases h

theorem decode_stores_encode (h : classOf i = 8) : encode i < 2 ^ 32 ∧ decode (encode i) = .ok i := by
  generalize hw : encode i = w
  cases i with
  | st g d b i m | sts g d b i m | stq g d b i m =>
    obtain ⟨hh, ho, rfl, rfl, rfl, hm⟩ := (eq_mem_iff (by decide) (by decide) (asize_lt_eight m)).mp hw.symm
    exact ⟨hh.lt, by simp [decode, Decode.stores, hh.cls, hh.guard, ho, hm, some?]⟩
  | stp g d b v o n =>
    have := n.isLt
    obtain ⟨hh, ho, rfl, rfl, rfl, rfl, hm⟩ := (eq_ply_iff (by decide) (by decide) (by omega)).mp hw.symm
    obtain ⟨rfl, h0⟩ := mod_stp_iff.mp hm
    exact ⟨hh.lt, by simp [decode, Decode.stores, hh.cls, hh.guard, ho, zero, h0]⟩
  | atom g d b o m =>
    obtain ⟨hh, ho, rfl, rfl, rfl, hm⟩ := (eq_mem_iff (by decide) (by decide) (atomOp_lt m)).mp hw.symm
    exact ⟨hh.lt, by simp [decode, Decode.stores, hh.cls, hh.guard, ho, hm]⟩
  | acas g d b o z =>
    have := flag_lt z
    obtain ⟨hh, ho, rfl, rfl, rfl, hm⟩ := (eq_mem_iff (by decide) (by decide) (by omega)).mp hw.symm
    obtain ⟨h1, rfl⟩ := mod_acas_iff.mp hm
    exact ⟨hh.lt, by simp [decode, Decode.stores, hh.cls, hh.guard, ho, h1]⟩
  | pacc g d b v o r | pdec g d b v o r =>
    have := flag_lt r
    obtain ⟨hh, ho, rfl, rfl, rfl, rfl, hm⟩ := (eq_ply_iff (by decide) (by decide) (by omega)).mp hw.symm
    obtain ⟨rfl, h0⟩ := mod_pacc_iff.mp hm
    exact ⟨hh.lt, by simp [decode, Decode.stores, hh.cls, hh.guard, ho, h0]⟩
  | qpush g d z =>
    obtain ⟨hh, ho, rfl, hb, hi, hm⟩ := (eq_mem_iff (by decide) (by decide) (Nat.lt_trans (qsize_lt z) (by decide))).mp hw.symm
    have h0 := memData_iff.mp ⟨hb, hi⟩
    exact ⟨hh.lt, by cases z <;> simp [decode, Decode.stores, hh.cls, hh.guard, ho, hm, Encode.qsize, zero, h0]⟩
  | stk g d b i =>
    obtain ⟨hh, ho, rfl, rfl, rfl, hm⟩ := (eq_mem_iff (by decide) (by decide) (by decide)).mp hw.symm
    exact ⟨hh.lt, by simp [decode, Decode.stores, hh.cls, hh.guard, ho, hm]⟩
  | _ => cases h

theorem decode_matrix_encode (h : classOf i = 9) : encode i < 2 ^ 32 ∧ decode (encode i) = .ok i := by
  generalize hw : encode i = w
  cases i with
  | xcfg g k i j e =>
    obtain ⟨hh, ho, rfl, rfl, rfl, h16, rfl, h0⟩ := eq_xcfg_iff.mp hw.symm
    exact ⟨hh.lt, by simp [decode, Decode.matrix, hh.cls, hh.guard, ho, h16, zero, h0]⟩
  | xpush g =>
    obtain ⟨hh, ho, h0⟩ := eq_xpush_iff.mp hw.symm
    exact ⟨hh.lt, by simp [decode, Decode.matrix, hh.cls, hh.guard, ho, zero, h0]⟩
  | xacc g k | xshift g k | xdrain g k =>
    obtain ⟨hh, ho, rfl, h0⟩ := (eq_bank_iff (by decide)).mp hw.symm
    exact ⟨hh.lt, by simp [decode, Decode.matrix, hh.cls, hh.guard, ho, zero, h0]⟩
  | _ => cases h

theorem decode_engine_encode (h : classOf i = 10) : encode i < 2 ^ 32 ∧ decode (encode i) = .ok i := by
  generalize hw : encode i = w
  cases i with
  | ecopy g b c e x n z v =>
    obtain ⟨hh, ho, rfl, rfl, rfl, rfl, rfl, rfl, hz⟩ := (eq_ecopy_iff (esize_lt z)).mp hw.symm
    exact ⟨hh.lt, by simp [decode, Decode.engine, hh.cls, hh.guard, ho, hz]⟩
  | egather g b c e x z v =>
    obtain ⟨hh, ho, rfl, rfl, rfl, rfl, rfl, h0, hz⟩ := (eq_egather_iff (esize_lt z)).mp hw.symm
    exact ⟨hh.lt, by simp [decode, Decode.engine, hh.cls, hh.guard, ho, hz, zero, h0]⟩
  | ereduce g b c e o f v =>
    obtain ⟨hh, ho, rfl, rfl, rfl, rfl, rfl, rfl, h0⟩ := eq_ereduce_iff.mp hw.symm
    exact ⟨hh.lt, by simp [decode, Decode.engine, hh.cls, hh.guard, ho, zero, h0]⟩
  | epage g b c e r k s y v =>
    obtain ⟨hh, ho, rfl, rfl, rfl, rfl, rfl, rfl, rfl, rfl⟩ := eq_epage_iff.mp hw.symm
    exact ⟨hh.lt, by simp [decode, Decode.engine, hh.cls, hh.guard, ho]⟩
  | edict g b c e s v =>
    obtain ⟨hh, ho, rfl, rfl, rfl, rfl, h11, rfl, h8⟩ := eq_edict_iff.mp hw.symm
    exact ⟨hh.lt, by simp [decode, Decode.engine, hh.cls, hh.guard, ho, zero, h11, h8]⟩
  | _ => cases h

theorem decode_system_encode (h : classOf i = 11) : encode i < 2 ^ 32 ∧ decode (encode i) = .ok i := by
  generalize hw : encode i = w
  cases i with
  | csrr g d n | csrw g d n =>
    obtain ⟨hh, ho, rfl, rfl⟩ := (eq_wide_iff (by decide) (by decide)).mp hw.symm
    exact ⟨hh.lt, by simp [decode, Decode.system, hh.cls, hh.guard, ho]⟩
  | flags g d k l =>
    obtain ⟨hh, ho, rfl, rfl, rfl, h0⟩ := eq_flags_iff.mp hw.symm
    exact ⟨hh.lt, by simp [decode, Decode.system, hh.cls, hh.guard, ho, zero, h0]⟩
  | versw g =>
    obtain ⟨hh, ho, hd, hn, h0⟩ := eq_versw_iff.mp hw.symm
    exact ⟨hh.lt, by simp [decode, Decode.system, hh.cls, hh.guard, ho, hd, hn, zero, h0]⟩
  | verswNamed g d =>
    obtain ⟨hh, ho, rfl, hn, h0⟩ := eq_verswNamed_iff.mp hw.symm
    exact ⟨hh.lt, by simp [decode, Decode.system, hh.cls, hh.guard, ho, hn, zero, h0]⟩
  | verpub g d =>
    obtain ⟨hh, ho, rfl, h0⟩ := eq_verpub_iff.mp hw.symm
    exact ⟨hh.lt, by simp [decode, Decode.system, hh.cls, hh.guard, ho, zero, h0]⟩
  | qarm g p e =>
    obtain ⟨hh, ho, hd, rfl, rfl, h0⟩ := eq_qarm_iff.mp hw.symm
    exact ⟨hh.lt, by simp [decode, Decode.system, hh.cls, hh.guard, ho, hd, zero, h0]⟩
  | _ => cases h

/-- R75: there are eleven classes of syllables. -/
theorem classOf_le (i : Instr) : classOf i ≤ 11 := by unfold classOf; split <;> decide

end Word

end Sys2Proof.Coding

open Sys2Proof Sys2Proof.Machine

/-- Settles O57: the decoder of the word's class read the fields that the word is made of. -/
theorem encodeOfDecode : Obligations.EncodeOfDecode := by
  intro w i hw h
  obtain ⟨c, hc, hcls, he, hk⟩ := Coding.encode_of_decode hw h
  have hdiv : w / 2 ^ 28 = c := by rw [← hcls, bits]; omega
  exact ⟨he, hk.trans hdiv.symm, hk ▸ hc⟩

/-- Settles O56, class by class: the word reads back as the fields that it was made of. -/
theorem decodeOfEncode : Obligations.DecodeOfEncode := by
  intro i hi
  have hle := Coding.classOf_le i
  match hc : classOf i, hi, hle with
  | 1, _, _ => exact Coding.decode_scalar_encode hc
  | 2, _, _ => exact Coding.decode_control_encode hc
  | 3, _, _ => exact Coding.decode_vectorInt_encode hc
  | 4, _, _ => exact Coding.decode_vectorFloat_encode hc
  | 5, _, _ => exact Coding.decode_convert_encode hc
  | 6, _, _ => exact Coding.decode_special_encode hc
  | 7, _, _ => exact Coding.decode_loads_encode hc
  | 8, _, _ => exact Coding.decode_stores_encode hc
  | 9, _, _ => exact Coding.decode_matrix_encode hc
  | 10, _, _ => exact Coding.decode_engine_encode hc
  | 11, _, _ => exact Coding.decode_system_encode hc

/-- Settles O58: a listed syllable's word decodes to it by O56, and the words that hold none are evaluated. -/
theorem listedWordsDecode : Obligations.ListedWordsDecode := by
  have ofSyllable (i : Instr) (hi : classOf i ≠ 0) : decode (encode i) = .ok i := (decodeOfEncode i hi).2
  refine ⟨ofSyllable (.add 0 3 1 2 false) (by decide), ofSyllable (.li 0 5 0x1FFF) (by decide),
    ofSyllable (.max 2 12 12 18 false) (by decide), ofSyllable (.loop 0 0 3 5) (by decide), ofSyllable (.nop 0) (by decide),
    ofSyllable (.flip 0 .pt .device) (by decide), ofSyllable (.vadd 0 .w1024 .b32 false 1 2 3) (by decide),
    ofSyllable (.fmul 0 .w1024 .fp32 false 1 2 3) (by decide), ofSyllable (.cvt 0 .w1024 .fp32 1 2 .bf16 .frm) (by decide),
    ofSyllable (.fdiv 0 .w1024 .fp32 1 2 3) (by decide), ofSyllable (.ld 0 3 2 0 .dword) (by decide),
    ofSyllable (.st 0 3 2 0 .dword) (by decide), ofSyllable (.xpush 0) (by decide),
    ofSyllable (.ecopy 0 8 false false false 0 .b8 0) (by decide), ofSyllable (.csrr 0 3 0x080) (by decide),
    rfl, rfl, rfl, rfl, rfl, rfl⟩

end

section
/-! How a syllable issues, is stopped or is passed over (04 R73, R74; 02 R25), O48, and the control syllables of class 2 (04 R79),
O9. -/
namespace Sys2Proof.Machine

/-! ### A syllable that R73, its guard or a port stops -/

section Stops
variable {i : Instr} {s : State} (hi : classOf i ≠ 0)
include hi

theorem exec_illegal {cause : Cause} (h : verdict i s = some cause) : exec i s = .next (s.raise cause) := by
  obtain ⟨body, hb⟩ := exec_perform i hi
  rw [hb, perform_illegal h]

theorem exec_guardedOff (h : verdict i s = none) (hg : guardHolds i s = false) : exec i s = .next s := by
  obtain ⟨body, hb⟩ := exec_perform i hi
  rw [hb, perform_off h hg]

/-- A port's trap stands beside the causes that the effect would have met, and only the random counts of the effect stay. -/
theorem exec_portFault {r : Raised} (h : verdict i s = none) (hg : guardHolds i s = true) (hp : s.portFault i = some r) :
    ∃ t, exec i s = .next (s.raisePort r t) := by
  obtain ⟨body, hb⟩ := exec_perform i hi
  exact ⟨body (s.popPorts i), by rw [hb, perform_port h hg hp]⟩

end Stops

theorem causesSince_ne_arithFlag {t s : State} {q : Raised} (h : q ∈ t.causesSince s) : q.cause ≠ .arithFlag := by
  simpa using (List.mem_filter.mp h).2

/-! ### A syllable that reads no port -/

section NoPorts
variable {i : Instr} {s : State} (h : Normal i s) (hp : portsOf i s.slot.lend = [])
include h hp

/-- Where it raises nothing, its effect is all that happens. -/
theorem perform_quiet {body : State → State} (hr : (body s).slot.raised = s.slot.raised) :
    perform i s body = .next (body s) := by
  rw [perform_normal h, popPorts_nil hp, undoReads_same hr]

/-- Where it only raises a trap, that is the trap of its slot. -/
theorem perform_trapped {body : State → State} {cause : Cause} {cond faddr imm : Nat}
    (hb : body s = s.raise cause cond faddr imm) : perform i s body = .next (s.trapped s { cause, cond, faddr, imm }) := by
  have hlen : (s.raise cause cond faddr imm).slot.raised.length ≠ s.slot.raised.length := Nat.succ_ne_self _
  rw [perform_normal h, popPorts_nil hp, hb, undoReads, if_neg hlen]
  rfl

end NoPorts

/-! ### Transfers -/

/-- R79: an offset in quads from the bundle's first quad, as 64-bit arithmetic. -/
theorem quadsAway_eq {n : Nat} (s : State) (off : BitVec n) :
    s.quadsAway off.toInt = (BitVec.ofNat 64 s.slot.baddr + 16 * off.signExtend 64).toNat := by
  have h : BitVec.ofNat 64 (s.quadsAway off.toInt) = BitVec.ofNat 64 s.slot.baddr + 16 * off.signExtend 64 := by
    rw [State.quadsAway, ofNat_ofSigned, BitVec.ofInt_add, BitVec.ofInt_mul]
    rfl
  rw [← h, BitVec.toNat_ofNat]
  exact (Nat.mod_eq_of_lt (ofSigned_lt 64 _)).symm

/-- Naming the next bundle leaves the results in flight as they are. -/
theorem room_goTo {s : State} {n : Nat} (h : s.Room n) (a : Nat) : (s.goTo a).Room n := by
  have hne : ({ s.cur with target := some a } : Ctx) ≠ {} := fun he => by cases congrArg Ctx.target he
  have hcur : (s.goTo a).cur = { s.cur with target := some a } := by
    change Tab.get {} (Tab.set {} s.ctxs s.slot.ctx { s.cur with target := some a }) s.slot.ctx = _
    rw [Tab.set, if_neg hne, Tab.get_insert, if_pos rfl]
  rw [State.Room, hcur]
  exact h

theorem goTo_raised (s : State) (a : Nat) : (s.goTo a).slot.raised = s.slot.raised := rfl

/-- R277: the address of the quad after the bundle goes in flight for s63. -/
theorem link_eq {s : State} (h : s.Room 1) : s.link = s.scalarResult 63 (BitVec.ofNat 64 s.slot.next) :=
  putScalar_result h (not_enabled_zero s) 63 _ 1 _ (BitVec.toNat_ofNat ..)

/-- R79: a transfer to an address in a register, with what a legal one does besides. -/
theorem perform_goToReg {i : Instr} {s : State} (h : Normal i s) (hp : portsOf i s.slot.lend = []) {addr : State → Nat}
    {k : State → State} (hk : (k (s.goTo (addr s))).slot.raised = s.slot.raised) :
    perform i s (fun t => t.goToReg (addr t) k) = .next (if addr s % 16 = 0 then k (s.goTo (addr s))
      else s.trapped s { cause := .illegalOperand }) := by
  by_cases ha : addr s % 16 = 0
  · have hb : s.goToReg (addr s) k = k (s.goTo (addr s)) := if_pos ha
    rw [if_pos ha, ← hb]
    exact perform_quiet h hp (by rw [hb, hk])
  · rw [if_neg ha]
    exact perform_trapped h hp (if_neg ha)

theorem link_goTo_raised {s : State} (h : s.Room 1) (a : Nat) : (s.goTo a).link.slot.raised = s.slot.raised := by
  rw [link_eq (room_goTo h a)]
  exact goTo_raised s a

/-! ### LOOP, TRAP, BKPT and RETH -/

/-- R305: a level in use, or a body that would outlast that of an active loop. -/
theorem loopBody_illegal {lvl : Fin 6} {len : BitVec 4} {s : State}
    (h : ∃ l ∈ s.cur.loops, l.lvl = lvl.val ∨ l.len < l.pos + 1 + (len.toNat + 1)) (cnt : BitVec 6) :
    loopBody lvl len cnt s = s.raise .illegalOperand := by
  refine if_pos ?_
  obtain ⟨l, hl, hbad⟩ := h
  rw [Bool.or_eq_true, List.any_eq_true, List.any_eq_true]
  exact hbad.imp (fun hv => ⟨l, hl, beq_iff_eq.mpr hv⟩) (fun hn => ⟨l, hl, decide_eq_true hn⟩)

theorem loopBody_begins {lvl : Fin 6} {len : BitVec 4} {s : State}
    (h : ¬ ∃ l ∈ s.cur.loops, l.lvl = lvl.val ∨ l.len < l.pos + 1 + (len.toNat + 1)) (cnt : BitVec 6) :
    loopBody lvl len cnt s = s.updCur fun x => { x with newLoop := some {
      lvl := lvl.val, len := len.toNat + 1, count := (s.cur.readS cnt.toNat).toNat, first := (loopMasks s.slot.lend.ext).1
      last := (loopMasks s.slot.lend.ext).2, start := s.slot.next } } := by
  refine if_neg fun hc => h ?_
  rw [Bool.or_eq_true, List.any_eq_true, List.any_eq_true] at hc
  obtain ⟨l, hl, hv⟩ | ⟨l, hl, hn⟩ := hc
  · exact ⟨l, hl, .inl (beq_iff_eq.mp hv)⟩
  · exact ⟨l, hl, .inr (of_decide_eq_true hn)⟩

/-- R275, R326: the debug trap of a slot, which a bundle that issues again passes over. -/
theorem perform_debug {i : Instr} {s : State} (h : Normal i s) (hp : portsOf i s.slot.lend = []) (cond : Nat) (imm : BitVec 8) :
    perform i s (debugBody cond imm) =
      .next (if s.slot.resumed then s else s.trapped s { cause := .debug, cond, imm := imm.toNat }) := by
  cases hres : s.slot.resumed with
  | true =>
    have hb : debugBody cond imm s = s := if_pos hres
    rw [perform_quiet h hp (by rw [hb]), hb]
    rfl
  | false => exact perform_trapped h hp (if_neg (Bool.eq_false_iff.mp hres))

/-- R316: RETH runs in the handler with guard p0 alone. -/
theorem verdict_reth {g : BitVec 3} {s : State} (h : s.cur.inHandler = false ∨ g ≠ 0) :
    verdict (.reth g) s = some .illegalSyllable := by
  cases hh : s.cur.inHandler with
  | true =>
    have hg : g ≠ 0 := h.resolve_left (by simp [hh])
    simpa [verdict, hh, handlerRuns] using hg
  | false => simp [verdict, hh]

/-! ### The meanings of class 2 -/

section Meanings
variable (g : BitVec 3) (a : BitVec 6) (imm : BitVec 8) (s : State)

theorem exec_nop : exec (.nop g) s = perform (.nop g) s fun t => t := rfl

theorem exec_br (off : BitVec 20) :
    exec (.br g off) s = perform (.br g off) s fun t => t.goTo (t.quadsAway off.toInt) := rfl

theorem exec_jmp : exec (.jmp g a) s = perform (.jmp g a) s fun t =>
    t.goToReg (if t.cur.inHandler then t.hreg a.toNat else t.sa a.toNat) fun u => u := rfl

theorem exec_call (off : BitVec 19) :
    exec (.call g off) s = perform (.call g off) s fun t => (t.goTo (t.quadsAway off.toInt)).link := rfl

theorem exec_callReg : exec (.callReg g a) s = perform (.callReg g a) s fun t => t.goToReg (t.sa a.toNat) State.link := rfl

theorem exec_ret : exec (.ret g) s = perform (.ret g) s fun t => t.goToReg (t.cur.readS 63).toNat fun u => u := rfl

theorem exec_loop (lvl : Fin 6) (len : BitVec 4) (cnt : BitVec 6) :
    exec (.loop g lvl len cnt) s = perform (.loop g lvl len cnt) s (loopBody lvl len cnt) := rfl

theorem exec_flip (bar : BScope) (pub : PScope) :
    exec (.flip g bar pub) s = perform (.flip g bar pub) s (flipBody bar pub) := rfl

theorem exec_retire : exec (.retire g) s = perform (.retire g) s retireBody := rfl

theorem exec_trap : exec (.trap g imm) s = perform (.trap g imm) s (debugBody 1 imm) := rfl

theorem exec_bkpt : exec (.bkpt g imm) s = perform (.bkpt g imm) s (debugBody 0 imm) := rfl

theorem exec_reth : exec (.reth g) s = perform (.reth g) s rethBody := rfl

end Meanings

/-! ### The claims of class 2 -/

theorem claims_controlTransfers : Claims.ControlTransfers := by
  intro g off off19 a s away A stop goTo
  refine ⟨fun h hp => ?_, fun h => ?_, fun h => ?_, fun h => ?_, fun h hr => ?_, fun h hr => ?_⟩
  · rw [exec_nop, perform_quiet h hp rfl]
  · have hp := ports_scalar h.1 nofun nofun nofun nofun
    rw [exec_br, perform_quiet h hp (goTo_raised ..), quadsAway_eq]
    rfl
  · have hp := ports_scalar h.1 nofun nofun nofun nofun
    rw [exec_jmp, perform_goToReg h hp rfl]
    rfl
  · have hp := ports_scalar h.1 nofun nofun nofun nofun
    rw [exec_ret, perform_goToReg h hp rfl]
    rfl
  · have hp := ports_scalar h.1 nofun nofun nofun nofun
    rw [exec_call, perform_quiet h hp (link_goTo_raised hr _), link_eq (room_goTo hr _), quadsAway_eq]
    rfl
  · have hp := ports_scalar h.1 nofun nofun nofun nofun
    rw [exec_callReg, perform_goToReg h hp (link_goTo_raised hr _), link_eq (room_goTo hr _)]
    rfl

theorem claims_loopBegins : Claims.LoopBegins := by
  intro g lvl len cnt s h n bad
  have hp := ports_scalar h.1 nofun nofun nofun nofun
  rw [exec_loop]
  refine ⟨fun hbad => perform_trapped h hp (loopBody_illegal hbad cnt), fun hbad => ?_⟩
  have hbegins := loopBody_begins hbad cnt
  rw [perform_quiet h hp (by rw [hbegins]; rfl), hbegins]
  cases s.slot.lend.ext <;> rfl

theorem claims_flipAndRetireBegin : Claims.FlipAndRetireBegin := by
  intro g bar pub s
  refine ⟨fun h => ?_, fun h => ?_⟩
  · rw [exec_flip, perform_quiet h (ports_scalar h.1 nofun nofun nofun nofun) rfl]
    rfl
  · rw [exec_retire, perform_quiet h (ports_scalar h.1 nofun nofun nofun nofun) rfl]
    rfl

theorem claims_debugTraps : Claims.DebugTraps := by
  intro g imm s trap
  refine ⟨fun h => ?_, fun h => ?_⟩
  · exact (exec_trap g imm s).trans (perform_debug h (ports_scalar h.1 nofun nofun nofun nofun) 1 imm)
  · exact (exec_bkpt g imm s).trans (perform_debug h (ports_scalar h.1 nofun nofun nofun nofun) 0 imm)

theorem claims_handlerEnds : Claims.HandlerEnds := by
  intro g s
  refine ⟨fun h => ?_, fun h => ?_⟩
  · rw [exec_reth, perform_quiet h (ports_scalar h.1 nofun nofun nofun nofun) rfl]
    rfl
  · rw [exec_reth, perform_illegal (verdict_reth h)]

end Sys2Proof.Machine

open Sys2Proof Sys2Proof.Machine

/-- Settles O9: no control syllable reads a port, so each has its effect alone or raises the one trap of its slot. -/
theorem controlSyllables : Obligations.ControlSyllables :=
  ⟨claims_controlTransfers, claims_loopBegins, claims_flipAndRetireBegin, claims_debugTraps, claims_handlerEnds⟩

/-- Settles O48: every syllable is a `perform` of its effect, which R73, the guard and the ports come before. -/
theorem syllableStopsBeforeEffect : Obligations.SyllableStopsBeforeEffect := by
  intro i s hi
  refine ⟨fun _ h => exec_illegal hi h, exec_guardedOff hi, fun r h hg hp => ?_, fun _ => exec_next i hi s⟩
  obtain ⟨t, ht⟩ := exec_portFault hi h hg hp
  exact ⟨t.causesSince s, t.cur.srCount, ht, fun q hq => causesSince_ne_arithFlag hq⟩

end

section
/-! The special values of FP32 (06 R104, R105, R115), O6: what each operation makes, in any format, of an infinity, a zero, a negative
number or a NaN, and what the codes of FP32 stand for. -/
namespace Sys2Proof.Machine

/-! ### Operands that are NaNs (R104) -/

@[simp] theorem FV.isNan_inf (n : Bool) : (FV.inf n).isNan = false := rfl
@[simp] theorem FV.isNan_num (n : Bool) (m : Nat) (e : Int) : (FV.num n m e).isNan = false := rfl

section Operations
variable {f : Fmt}

theorem Fmt.firstNan_eq_none {ops : List (FV × Nat)} (h : ∀ o ∈ ops, o.1.isNan = false) : f.firstNan ops = none := by
  induction ops with
  | nil => rfl
  | cons o ops ih =>
    obtain ⟨ho, hops⟩ := List.forall_mem_cons.mp h
    obtain ⟨v, w⟩ := o
    cases v with
    | nan => cases ho
    | inf => exact ih hops
    | num => exact ih hops

theorem Fmt.withNans_of_none {ops : List (FV × Nat)} {k : Nat × Flags} (h : ∀ o ∈ ops, o.1.isNan = false) :
    f.withNans ops k = k := by
  rw [Fmt.withNans, Fmt.firstNan_eq_none h]

/-- A NaN beside a value that is none is the result, quieted; it sets NV where it signals. -/
theorem Fmt.withNans_nan_left {neg sig : Bool} {fr w w' : Nat} {v : FV} {k : Nat × Flags} (hv : v.isNan = false) :
    f.withNans [(.nan neg fr sig, w), (v, w')] k = (f.quiet w neg fr, nvIf sig) := by
  cases v with
  | nan => cases hv
  | inf => simp [Fmt.withNans, Fmt.firstNan, FV.signals]
  | num => simp [Fmt.withNans, Fmt.firstNan, FV.signals]

theorem Fmt.withNans_nan_right {neg sig : Bool} {fr w w' : Nat} {v : FV} {k : Nat × Flags} (hv : v.isNan = false) :
    f.withNans [(v, w'), (.nan neg fr sig, w)] k = (f.quiet w neg fr, nvIf sig) := by
  cases v with
  | nan => cases hv
  | inf => simp [Fmt.withNans, Fmt.firstNan, FV.signals]
  | num => simp [Fmt.withNans, Fmt.firstNan, FV.signals]

/-! ### The operations on special values (R103, R113, R115) -/

variable {sat : Bool} {mode : RMode} {a b m : Nat} {n n' : Bool} {e e' : Int}

theorem Fmt.add_infOpposite (ha : f.value a = .inf n) (hb : f.value b = .inf (!n)) : f.add sat mode a b = f.invalid := by
  simp only [Fmt.add, ha, hb]
  rw [Fmt.withNans_of_none (by simp)]
  simp [Fmt.sum]

theorem Fmt.mul_zero_inf (ha : f.value a = .num n 0 e) (hb : f.value b = .inf n') : f.mul sat mode a b = f.invalid := by
  simp only [Fmt.mul, ha, hb]
  rw [Fmt.withNans_of_none (by simp)]
  simp [exactProd]

theorem Fmt.div_zero_zero (ha : f.value a = .num n 0 e) (hb : f.value b = .num n' 0 e') : f.div mode a b = f.invalid := by
  simp only [Fmt.div, ha, hb]
  rw [Fmt.withNans_of_none (by simp)]
  simp

theorem Fmt.div_by_zero (ha : f.value a = .num n m e) (hm : m ≠ 0) (hb : f.value b = .num n' 0 e') :
    f.div mode a b = (f.infCode (n != n'), flDZ) := by
  simp only [Fmt.div, ha, hb]
  rw [Fmt.withNans_of_none (by simp)]
  simp [hm]

theorem Fmt.sqrt_negative (ha : f.value a = .num true m e) (hm : m ≠ 0) : f.sqrt mode a = f.invalid := by
  simp only [Fmt.sqrt, ha]
  rw [Fmt.withNans_of_none (by simp)]
  simp [hm]

theorem exactSum_opposite (n : Bool) (m : Nat) (e : Int) : exactSum n m e (!n) m e = (0, e) := by
  cases n with
  | false => exact Prod.ext (Int.add_right_neg _) (Int.min_self e)
  | true => exact Prod.ext (Int.add_left_neg _) (Int.min_self e)

/-- R103: the sum of a number and its opposite is an exact zero, whose sign the mode gives. -/
theorem Fmt.add_opposite (ha : f.value a = .num n m e) (hb : f.value b = .num (!n) m e) :
    f.add sat mode a b = (f.zero (mode = .rd), 0) := by
  simp only [Fmt.add, ha, hb]
  rw [Fmt.withNans_of_none (by simp)]
  simp [Fmt.sum, exactSum_opposite, Fmt.roundNum, zeroSign]

theorem Fmt.add_nan_left {fr : Nat} (ha : f.value a = .nan n fr n') (hb : (f.value b).isNan = false) :
    f.add sat mode a b = (f.quiet f.mb n fr, nvIf n') := by
  simp only [Fmt.add, ha]
  exact Fmt.withNans_nan_left hb

theorem Fmt.mul_nan_right {fr : Nat} (ha : (f.value a).isNan = false) (hb : f.value b = .nan n fr n') :
    f.mul sat mode a b = (f.quiet f.mb n fr, nvIf n') := by
  simp only [Fmt.mul, hb]
  exact Fmt.withNans_nan_right ha

end Operations

/-! ### The codes of FP32 (R106) -/

theorem fp32_value_inf (neg : Bool) : fp32.value (fp32.infCode neg) = .inf neg := by cases neg <;> rfl

theorem fp32_value_zero : fp32.value 0 = .num false 0 (-149) := rfl

theorem fp32_sign_false_add (x : Nat) : fp32.sign false + x = x := Nat.zero_add x
theorem fp32_sign_true_add (x : Nat) : fp32.sign true + x = x + 2 ^ 31 := Nat.add_comm _ x

theorem fp32_value_fields (w : Nat) :
    fp32.value w =
      if w % 2 ^ 31 / 2 ^ 23 = 255 then
        if w % 2 ^ 31 % 2 ^ 23 = 0 then .inf (bitAt w 31)
        else .nan (bitAt w 31) (w % 2 ^ 31 % 2 ^ 23) (!bitAt (w % 2 ^ 31 % 2 ^ 23) 22)
      else if w % 2 ^ 31 / 2 ^ 23 = 0 then .num (bitAt w 31) (w % 2 ^ 31 % 2 ^ 23) (-149)
      else .num (bitAt w 31) (2 ^ 23 + w % 2 ^ 31 % 2 ^ 23) (-149 + (w % 2 ^ 31 / 2 ^ 23 - 1 : Nat)) := rfl

/-- The value of a code by its sign and the fields of the code without it. -/
theorem fp32_value_magnitude {x : Nat} (neg : Bool) (hx : x < 2 ^ 31) :
    fp32.value (fp32.sign neg + x) =
      if x / 2 ^ 23 = 255 then if x % 2 ^ 23 = 0 then .inf neg else .nan neg (x % 2 ^ 23) (!bitAt (x % 2 ^ 23) 22)
      else if x / 2 ^ 23 = 0 then .num neg (x % 2 ^ 23) (-149)
      else .num neg (2 ^ 23 + x % 2 ^ 23) (-149 + (x / 2 ^ 23 - 1 : Nat)) := by
  have hneg : bitAt (fp32.sign neg + x) 31 = neg := by cases neg <;> simp [fp32, Fmt.sign, bitAt] <;> omega
  have hmag : (fp32.sign neg + x) % 2 ^ 31 = x := by cases neg <;> simp [fp32, Fmt.sign] <;> omega
  rw [fp32_value_fields, hneg, hmag]

/-- A code below the infinity is a finite number, zero for code 0 alone; the sign bit makes it its opposite. -/
theorem fp32_value_finite {x : Nat} (h : x < 0x7F800000) :
    ∃ m e, (m = 0 ↔ x = 0) ∧ fp32.value x = .num false m e ∧ fp32.value (x + 2 ^ 31) = .num true m e := by
  have hx : x < 2 ^ 31 := by omega
  have hfin : x / 2 ^ 23 ≠ 255 := by omega
  have hpos := fp32_value_magnitude false hx
  have hneg := fp32_value_magnitude true hx
  rw [fp32_sign_false_add, if_neg hfin] at hpos
  rw [fp32_sign_true_add, if_neg hfin] at hneg
  by_cases hsub : x / 2 ^ 23 = 0
  · exact ⟨x % 2 ^ 23, -149, by omega, by rw [hpos, if_pos hsub], by rw [hneg, if_pos hsub]⟩
  · exact ⟨2 ^ 23 + x % 2 ^ 23, -149 + (x / 2 ^ 23 - 1 : Nat), by omega, by rw [hpos, if_neg hsub],
      by rw [hneg, if_neg hsub]⟩

theorem fp32_value_quietNan {x : Nat} (hq : 0x7FC00000 ≤ x) (hx : x < 2 ^ 31) :
    fp32.value x = .nan false (x % 2 ^ 23) false := by
  have hbit : bitAt (x % 2 ^ 23) 22 = true := by simp [bitAt]; omega
  rw [← fp32_sign_false_add x, fp32_value_magnitude false hx, if_pos (by omega), if_neg (by omega), hbit,
    fp32_sign_false_add, Bool.not_true]

/-- A NaN whose quiet bit is set keeps its code when it is quieted. -/
theorem fp32_quiet_quietNan {x : Nat} (hq : 0x7FC00000 ≤ x) (hx : x < 2 ^ 31) :
    fp32.quiet fp32.mb false (x % 2 ^ 23) = x := by
  have hbit : x % 2 ^ 23 ||| 2 ^ 22 = x % 2 ^ 23 := by
    have hsplit : x % 2 ^ 23 = 2 ^ 22 ||| x % 2 ^ 22 := by
      have hor := Nat.two_pow_add_eq_or_of_lt (Nat.mod_lt x (Nat.two_pow_pos 22)) 1
      rw [Nat.mul_one] at hor
      omega
    rw [hsplit, Nat.or_comm, ← Nat.or_assoc, Nat.or_self]
  have hquiet : fp32.quiet fp32.mb false (x % 2 ^ 23) = 0x7F800000 + (x % 2 ^ 23 * 2 ^ 0 ||| 2 ^ 22) := rfl
  rw [hquiet, Nat.pow_zero, Nat.mul_one, hbit]
  omega

/-- An FP32 number over a zero, with the sign of the number (R115). -/
theorem fp32_div_zero_code {mode : RMode} {x m : Nat} {neg : Bool} {e : Int} (h : fp32.value x = .num neg m e) (hm : m ≠ 0) :
    fp32.div mode x 0 = (fp32.infCode neg, flDZ) := by
  rw [Fmt.div_by_zero h hm fp32_value_zero, Bool.bne_false]

end Sys2Proof.Machine

open Sys2Proof Sys2Proof.Machine

/-- Settles O6: the codes of the statement are the values that the operations' special cases are about. -/
theorem floatSpecialValues : Obligations.FloatSpecialValues := by
  intro mode sat x hx
  refine ⟨Fmt.add_infOpposite (fp32_value_inf false) (fp32_value_inf true),
    Fmt.mul_zero_inf fp32_value_zero (fp32_value_inf false), Fmt.div_zero_zero fp32_value_zero fp32_value_zero,
    fun h0 hfin => ?_, fun y hy hq => ?_⟩
  · obtain ⟨m, e, hzero, hpos, hneg⟩ := fp32_value_finite hfin
    have hm : m ≠ 0 := fun h => Nat.ne_of_gt h0 (hzero.mp h)
    refine ⟨Fmt.sqrt_negative hneg hm, fp32_div_zero_code hpos hm, fp32_div_zero_code hneg hm, ?_⟩
    rw [Fmt.add_opposite hpos hneg]
    by_cases hrd : mode = .rd <;> simp [hrd, Fmt.zero, Fmt.sign, fp32]
  · obtain ⟨m, e, -, hnum, -⟩ := fp32_value_finite hy
    have hnan := fp32_value_quietNan hq hx
    have hquiet := fp32_quiet_quietNan hq hx
    constructor
    · rw [Fmt.add_nan_left hnan (by simp [hnum]), hquiet]
      rfl
    · rw [Fmt.mul_nan_right (by simp [hnum]) hnan, hquiet]
      rfl

end

section
/-! The cells of the matrix array (07 R132, R133, R136), O15: what a function of every cell does to each of them, what an
accumulator takes, and what a beat, XACC and XSHIFT make of a cell. -/
namespace Sys2Proof.Machine

/-! ### A function of every cell -/

theorem drop_of_above {α : Type} {t : Tab α} {k : Nat} (h : Tab.above k t) : Tab.drop t k = t := by
  induction t with
  | nil => rfl
  | cons p t ih =>
    have hp : p.1 ≠ k := Nat.ne_of_gt (h p (List.mem_cons_self ..))
    rw [Tab.drop, if_neg hp, ih fun q hq => h q (List.mem_cons_of_mem _ hq)]

section Cells
variable {f : Nat → Cell → Cell × Bool} {n k : Nat} {t : Tab Cell}

/-- The first of the cells is taken from the table, and the others are those of what is left. -/
theorem mapCells_succ (hw : Tab.wf {} t = true) (hk : ∀ p ∈ t, k ≤ p.1) :
    mapCells f (n + 1) k t =
      let d := f k (Tab.get {} t k)
      let r := mapCells f n (k + 1) (Tab.drop t k)
      (if d.1 = {} then r.1 else (k, d.1) :: r.1, d.2 || r.2) := by
  cases t with
  | nil => rfl
  | cons p t =>
    obtain ⟨j, c⟩ := p
    by_cases hj : j = k
    · simp only [mapCells, Tab.get, Tab.drop, if_pos hj]
    · have hjk : k ≤ j := hk (j, c) (List.mem_cons_self ..)
      have habove : Tab.above k t := fun q hq => Nat.lt_of_le_of_lt hjk ((Tab.wf_cons.mp hw).2.1 q hq)
      simp only [mapCells, Tab.get, Tab.drop, if_neg hj, Tab.get_above habove (Nat.le_refl k), drop_of_above habove]

theorem le_of_mem_drop (hw : Tab.wf {} t = true) (hk : ∀ p ∈ t, k ≤ p.1) : ∀ p ∈ Tab.drop t k, k + 1 ≤ p.1 := by
  cases t with
  | nil => exact nofun
  | cons q t =>
    obtain ⟨j, c⟩ := q
    have hjk : k ≤ j := hk (j, c) (List.mem_cons_self ..)
    have habove : ∀ p ∈ t, k < p.1 := fun p hp => Nat.lt_of_le_of_lt hjk ((Tab.wf_cons.mp hw).2.1 p hp)
    intro p hp
    by_cases hj : j = k
    · rw [Tab.drop, if_pos hj] at hp
      exact habove p hp
    · rw [Tab.drop, if_neg hj, drop_of_above habove] at hp
      obtain rfl | hp := List.mem_cons.mp hp
      · exact Nat.lt_of_le_of_ne hjk (Ne.symm hj)
      · exact habove p hp

/-- The cells made are numbered from the first on. -/
theorem le_of_mem_mapCells {p : Nat × Cell} (hp : p ∈ (mapCells f n k t).1) : k ≤ p.1 := by
  induction n generalizing k t with
  | zero => cases hp
  | succ n ih =>
    unfold mapCells at hp
    split at hp
    dsimp only at hp
    split at hp
    · exact Nat.le_of_succ_le (ih hp)
    · obtain rfl | hp := List.mem_cons.mp hp
      · exact Nat.le_refl _
      · exact Nat.le_of_succ_le (ih hp)

/-- Each of the cells is the function of what stood there. -/
theorem get_mapCells (hw : Tab.wf {} t = true) (hk : ∀ p ∈ t, k ≤ p.1) {j : Nat} (hkj : k ≤ j) (hjn : j < k + n) :
    Tab.get {} (mapCells f n k t).1 j = (f j (Tab.get {} t j)).1 := by
  induction n generalizing k t with
  | zero => omega
  | succ n ih =>
    rw [mapCells_succ hw hk]
    obtain rfl | hne := Decidable.em (k = j)
    · have hrest : Tab.above k (mapCells f n (k + 1) (Tab.drop t k)).1 := fun _ hp => le_of_mem_mapCells hp
      dsimp only
      split
      · rw [Tab.get_above hrest (Nat.le_refl k)]; exact Eq.symm ‹_›
      · rw [Tab.get, if_pos rfl]
    · have hih := ih (Tab.wf_drop hw k) (le_of_mem_drop hw hk) (show k + 1 ≤ j by omega) (by omega)
      rw [Tab.get_drop_of_ne t (Ne.symm hne)] at hih
      dsimp only
      split
      · exact hih
      · rw [Tab.get, if_neg hne, hih]

/-- The flag stands where the function sets it for some cell. -/
theorem mapCells_flag (hw : Tab.wf {} t = true) (hk : ∀ p ∈ t, k ≤ p.1) :
    (mapCells f n k t).2 = true ↔ ∃ j, k ≤ j ∧ j < k + n ∧ (f j (Tab.get {} t j)).2 = true := by
  induction n generalizing k t with
  | zero => exact ⟨nofun, fun ⟨j, h1, h2, _⟩ => by omega⟩
  | succ n ih =>
    rw [mapCells_succ hw hk, Bool.or_eq_true, ih (Tab.wf_drop hw k) (le_of_mem_drop hw hk)]
    constructor
    · rintro (h | ⟨j, h1, h2, h⟩)
      · exact ⟨k, Nat.le_refl k, by omega, h⟩
      · rw [Tab.get_drop_of_ne t (show j ≠ k by omega)] at h
        exact ⟨j, by omega, by omega, h⟩
    · rintro ⟨j, h1, h2, h⟩
      obtain rfl | hne := Decidable.em (j = k)
      · exact .inl h
      · rw [← Tab.get_drop_of_ne t hne] at h
        exact .inr ⟨j, by omega, by omega, h⟩

end Cells

section Map
variable {b : Bank} {f : Nat → Cell → Cell × Bool}

/-- A bank's cells are 8,192 in number, which stands as a variable here so that nothing counts them. -/
theorem Bank.map_eq (b : Bank) (f : Nat → Cell → Cell × Bool) : ∃ n, n = 8192 ∧
    b.map f = ({ b with cells := (mapCells f n 0 b.cells).1 }, (mapCells f n 0 b.cells).2) := ⟨8192, rfl, rfl⟩

variable (hw : Tab.wf {} b.cells = true)
include hw

theorem Bank.get_map {n : Nat} (hn : n < 8192) : Tab.get {} (b.map f).1.cells n = (f n (Tab.get {} b.cells n)).1 := by
  obtain ⟨size, hsize, hmap⟩ := b.map_eq f
  rw [hmap]
  exact get_mapCells hw (fun _ _ => Nat.zero_le _) (Nat.zero_le n) (by omega)

theorem Bank.map_flag : (b.map f).2 = true ↔ ∃ n < 8192, (f n (Tab.get {} b.cells n)).2 = true := by
  obtain ⟨size, hsize, hmap⟩ := b.map_eq f
  rw [hmap, mapCells_flag hw fun _ _ => Nat.zero_le _]
  simp only [Nat.zero_le, true_and, Nat.zero_add, hsize]

end Map

/-! ### Accumulators (R133) -/

/-- The value nearest to an integer that an accumulator takes. -/
def accSat (v : Int) : Int := max (-(2 ^ 47 - 1)) (min (2 ^ 47 - 1) v)

/-- Every value of the range has a pattern of 48 bits. -/
theorem toInt_acc {v : Int} (hlo : -(2 ^ 47 - 1) ≤ v) (hhi : v ≤ 2 ^ 47 - 1) : (BitVec.ofInt 48 v).toInt = v := by
  rw [BitVec.toInt_ofInt]
  exact Int.bmod_eq_of_le (by omega) (by omega)

section Put
variable (c : Cell) (v : Int) (res : Nat)

/-- An accumulator takes the nearest value, and the flag says whether that is another. -/
theorem Cell.put_eq : ∃ r, c.put v res = ({ c with acc := BitVec.ofInt 48 (accSat v), res := r }, decide (accSat v ≠ v)) := by
  unfold Cell.put
  generalize htop : ((2 ^ 47 - 1 : Nat) : Int) = top
  have hsat : accSat v = max (-top) (min top v) := by rw [← htop]; rfl
  have hpos : 0 < top := by omega
  extract_lets
  split
  · rw [show accSat v = top by omega, decide_eq_true (by omega)]
    exact ⟨_, rfl⟩
  · split
    · rw [show accSat v = -top by omega, decide_eq_true (by omega)]
      exact ⟨_, rfl⟩
    · rw [show accSat v = v by omega, decide_eq_false (by simp)]
      exact ⟨_, rfl⟩

theorem Cell.put_poison : (c.put v res).1.poison = c.poison := by
  obtain ⟨r, h⟩ := c.put_eq v res
  rw [h]

theorem Cell.put_acc : (c.put v res).1.acc.toInt = accSat v := by
  obtain ⟨r, h⟩ := c.put_eq v res
  rw [h]
  exact toInt_acc (by unfold accSat; omega) (by unfold accSat; omega)

theorem Cell.put_flag : (c.put v res).2 = true ↔ accSat v ≠ v := by
  obtain ⟨r, h⟩ := c.put_eq v res
  rw [h, decide_eq_true_iff]

end Put

/-! ### Beats (R132) -/

theorem dotTerms_eq_sum (a b : List Int) : dotTerms a b = (List.zipWith (· * ·) a b).sum := List.sum_eq_foldl.symm

section Beat
variable {b : Bank} {as bs : Array (List Int × Nat)} {k : Nat} (hw : Tab.wf {} b.cells = true) (hk : k < 8192)
include hw hk

theorem Bank.get_push_poisons (h : (as.getD (k / 64) ([], 0)).2 = 0xFF ∨ (bs.getD (k % 64) ([], 0)).2 = 0xFF) :
    Tab.get {} (b.push as bs).1.cells k = { Tab.get {} b.cells k with poison := true } := by
  rw [Bank.push, Bank.get_map hw hk]
  generalize as.getD (k / 64) ([], 0) = x at h ⊢
  generalize bs.getD (k % 64) ([], 0) = y at h ⊢
  exact congrArg Prod.fst (if_pos (by simpa using h))

theorem Bank.get_push_adds (hx : (as.getD (k / 64) ([], 0)).2 ≠ 0xFF) (hy : (bs.getD (k % 64) ([], 0)).2 ≠ 0xFF) :
    ∃ res, Tab.get {} (b.push as bs).1.cells k = ((Tab.get {} b.cells k).put ((Tab.get {} b.cells k).value +
      (scaleTerm (as.getD (k / 64) ([], 0)).2 * scaleTerm (bs.getD (k % 64) ([], 0)).2 : Nat) *
        dotTerms (as.getD (k / 64) ([], 0)).1 (bs.getD (k % 64) ([], 0)).1) res).1 := by
  rw [Bank.push, Bank.get_map hw hk]
  generalize as.getD (k / 64) ([], 0) = x at hx ⊢
  generalize bs.getD (k % 64) ([], 0) = y at hy ⊢
  exact ⟨_, congrArg Prod.fst (if_neg (by simp [hx, hy]))⟩

end Beat

/-! ### The banks of the array -/

section Banks
variable (m : MatrixArray) (b : Bool) (x : Bank)

@[simp] theorem MatrixArray.bank_setBank : (m.setBank b x).bank b = x := by cases b <;> rfl

@[simp] theorem MatrixArray.bank_setBank_not : (m.setBank b x).bank (!b) = m.bank (!b) := by cases b <;> rfl

@[simp] theorem MatrixArray.bank_setBank_of_not : (m.setBank (!b) x).bank b = m.bank b := by cases b <;> rfl

end Banks

/-! ### XACC and XSHIFT (R136) -/

/-- A cell that takes another's accumulator and poison. -/
def Cell.join (c d : Cell) : Cell × Bool :=
  let r := c.put (c.value + d.value) (c.res.toNat + d.res.toNat)
  ({ r.1 with poison := c.poison || d.poison }, r.2)

/-- A cell sixteenfold. -/
def Cell.shifted (c : Cell) : Cell × Bool := c.put (16 * c.value) c.res.toNat

theorem Cell.join_acc (c d : Cell) : (c.join d).1.acc.toInt = accSat (c.value + d.value) := Cell.put_acc ..
theorem Cell.join_flag (c d : Cell) : (c.join d).2 = true ↔ accSat (c.value + d.value) ≠ c.value + d.value := Cell.put_flag ..
theorem Cell.shifted_acc (c : Cell) : c.shifted.1.acc.toInt = accSat (16 * c.value) := Cell.put_acc ..
theorem Cell.shifted_flag (c : Cell) : c.shifted.2 = true ↔ accSat (16 * c.value) ≠ 16 * c.value := Cell.put_flag ..

section Members
variable (m : MatrixArray) (b : Bool)

/-- Each cell of a bank joined with the cell of the other. -/
def MatrixArray.joined : Bank × Bool := (m.bank b).map fun n c => c.join (Tab.get {} (m.bank !b).cells n)

/-- Each cell of a bank sixteenfold. -/
def MatrixArray.shifted : Bank × Bool := (m.bank b).map fun _ => Cell.shifted

theorem MatrixArray.accumulate_eq : ∃ k sat, m.joined b = (k, sat) ∧
    m.accumulate b = ((m.setBank b k).setBank (!b) { m.bank !b with cells := [] }, sat) := by
  unfold MatrixArray.accumulate
  extract_lets
  split
  next k sat h => exact ⟨k, sat, h, rfl⟩

theorem MatrixArray.shift_eq : ∃ k sat, m.shifted b = (k, sat) ∧ m.shift b = (m.setBank b k, sat) := by
  unfold MatrixArray.shift
  split
  next k sat h => exact ⟨k, sat, h, rfl⟩

theorem MatrixArray.accumulate_bank : (m.accumulate b).1.bank b = (m.joined b).1 := by
  obtain ⟨k, sat, hjoined, h⟩ := m.accumulate_eq b
  rw [h, hjoined, bank_setBank_of_not, bank_setBank]

theorem MatrixArray.accumulate_bank_not : (m.accumulate b).1.bank (!b) = { m.bank !b with cells := [] } := by
  obtain ⟨k, sat, -, h⟩ := m.accumulate_eq b
  rw [h, bank_setBank]

theorem MatrixArray.accumulate_snd : (m.accumulate b).2 = (m.joined b).2 := by
  obtain ⟨k, sat, hjoined, h⟩ := m.accumulate_eq b
  rw [h, hjoined]

theorem MatrixArray.shift_bank : (m.shift b).1.bank b = (m.shifted b).1 := by
  obtain ⟨k, sat, hshifted, h⟩ := m.shift_eq b
  rw [h, hshifted, bank_setBank]

theorem MatrixArray.shift_bank_not : (m.shift b).1.bank (!b) = m.bank !b := by
  obtain ⟨k, sat, -, h⟩ := m.shift_eq b
  rw [h, bank_setBank_not]

theorem MatrixArray.shift_snd : (m.shift b).2 = (m.shifted b).2 := by
  obtain ⟨k, sat, hshifted, h⟩ := m.shift_eq b
  rw [h, hshifted]

/-- The two members change cells alone, not what configures a bank. -/
theorem MatrixArray.accumulate_config (k : Bool) : ∃ t, (m.accumulate b).1.bank k = { m.bank k with cells := t } := by
  obtain rfl | hk := Decidable.em (k = b)
  · obtain ⟨size, -, hmap⟩ := (m.bank k).map_eq fun n c => c.join (Tab.get {} (m.bank !k).cells n)
    rw [accumulate_bank, joined, hmap]
    exact ⟨_, rfl⟩
  · obtain rfl := Bool.eq_not.mpr hk
    exact ⟨_, m.accumulate_bank_not b⟩

theorem MatrixArray.shift_config (k : Bool) : ∃ t, (m.shift b).1.bank k = { m.bank k with cells := t } := by
  obtain rfl | hk := Decidable.em (k = b)
  · obtain ⟨size, -, hmap⟩ := (m.bank k).map_eq fun _ => Cell.shifted
    rw [shift_bank, shifted, hmap]
    exact ⟨_, rfl⟩
  · obtain rfl := Bool.eq_not.mpr hk
    exact ⟨_, m.shift_bank_not b⟩

variable {m b} (hw : Tab.wf {} (m.bank b).cells = true)
include hw

theorem MatrixArray.get_accumulate {n : Nat} (hn : n < 8192) : Tab.get {} ((m.accumulate b).1.bank b).cells n =
    ((Tab.get {} (m.bank b).cells n).join (Tab.get {} (m.bank !b).cells n)).1 := by
  rw [accumulate_bank, joined, Bank.get_map hw hn]

theorem MatrixArray.get_shift {n : Nat} (hn : n < 8192) :
    Tab.get {} ((m.shift b).1.bank b).cells n = (Tab.get {} (m.bank b).cells n).shifted.1 := by
  rw [shift_bank, shifted, Bank.get_map hw hn]

theorem MatrixArray.accumulate_flag : (m.accumulate b).2 = true ↔
    ∃ n < 8192, ((Tab.get {} (m.bank b).cells n).join (Tab.get {} (m.bank !b).cells n)).2 = true := by
  rw [accumulate_snd, joined, Bank.map_flag hw]

theorem MatrixArray.shift_flag :
    (m.shift b).2 = true ↔ ∃ n < 8192, (Tab.get {} (m.bank b).cells n).shifted.2 = true := by
  rw [shift_snd, shifted, Bank.map_flag hw]

end Members

theorem claims_arrayCells : Claims.ArrayCells := by
  intro m bank n hmine _ hn top sat mine other sum shifted a b ca cb
  have hca : ca = ((mine n).join (other n)).1 := MatrixArray.get_accumulate hmine hn
  have hcb : cb = (mine n).shifted.1 := MatrixArray.get_shift hmine hn
  refine ⟨?_, ?_, ?_, ?_, ?_, ?_, fun k => ?_, ?_, ?_⟩
  · rw [hca]
    exact Cell.join_acc ..
  · rw [hca]
    rfl
  · exact congrArg (fun x => Tab.get {} (Bank.cells x) n) (m.accumulate_bank_not bank)
  · rw [hcb]
    exact Cell.shifted_acc _
  · rw [hcb]
    exact Cell.put_poison ..
  · exact congrArg (fun x => Tab.get {} (Bank.cells x) n) (m.shift_bank_not bank)
  · obtain ⟨t, ht⟩ := m.accumulate_config bank k
    obtain ⟨u, hu⟩ := m.shift_config bank k
    rw [show a.1.bank k = _ from ht, show b.1.bank k = _ from hu]
    exact ⟨rfl, rfl, rfl, rfl, rfl, rfl, rfl, rfl⟩
  · exact (MatrixArray.accumulate_flag hmine).trans (exists_congr fun _ => and_congr_right fun _ => Cell.join_flag ..)
  · exact (MatrixArray.shift_flag hmine).trans (exists_congr fun _ => and_congr_right fun _ => Cell.shifted_flag _)

end Sys2Proof.Machine

open Sys2Proof Sys2Proof.Machine

/-- Settles O15: a beat is a function of every cell, which poisons it or puts the sum into its accumulator. -/
theorem beatAddsProducts : Obligations.BeatAddsProducts := by
  intro b as bs k hw hk c c' x y scale sum top
  refine ⟨Bank.get_push_poisons hw hk, fun hx hy => ?_⟩
  obtain ⟨res, hc'⟩ := Bank.get_push_adds hw hk hx hy
  rw [dotTerms_eq_sum] at hc'
  rw [show c' = _ from hc']
  exact ⟨Cell.put_poison .., Cell.put_acc ..⟩

end

section
/-! The syllables of class 9 (07 R136, R138, R139, R343), O14: how a syllable with flags of the array answers, and what XDRAIN meets
and writes. -/
namespace Sys2Proof.Machine

/-! ### Traps at a syllable that has read its ports -/

section Answers
variable {s : State}

/-- The ports go back to where they were when the syllable has raised a trap. -/
theorem undoReads_raised {t : State} {r : Raised} (h : t.slot.raised = r :: s.slot.raised) :
    undoReads s t = t.updCur fun x => { x with ports := s.cur.ports } := by
  have hlen : t.slot.raised.length ≠ s.slot.raised.length := by rw [h]; exact Nat.succ_ne_self _
  rw [undoReads, if_neg hlen]

/-- A syllable whose flags trap raises the lowest of them alone. -/
theorem undoReads_flags {t : State} (h : t.slot.raised = s.slot.raised) (fl : Flags) (lat : Nat) :
    undoReads s (t.raiseEnabled fl t.cur.trapMask lat) = s.flagTrap t fl lat := by
  rw [undoReads_raised (congrArg (List.cons _) h)]
  rfl

/-- What stays in the context of an effect on the array: that class 9 has been used, and the flags that are due. -/
def State.noteArray (t : State) (fl : Flags) (lat : Nat) (x : Ctx) : Ctx :=
  { x with
    usedX := true
    flagsDue := if fl = 0 then x.flagsDue else
      { due := x.count + lat, seq := x.seq, fslot := t.slot.fslot, baddr := t.slot.baddr, pos := t.slot.pos, flags := fl } :: x.flagsDue }

/-- An effect on the array takes place unless one of its flags traps (R138, R343). -/
theorem undoReads_arrayEffect {t : State} {f : State → State} (h : t.slot.raised = s.slot.raised) (hf : (f t).slot = t.slot)
    (fl : Flags) (lat : Nat) : undoReads s (t.arrayEffect fl lat f) =
      if t.Enabled fl then s.flagTrap t fl lat else (f t).updCur (t.noteArray fl lat) := by
  by_cases he : t.Enabled fl
  · have heffect : t.arrayEffect fl lat f = t.raiseEnabled fl t.cur.trapMask lat := if_neg he
    rw [heffect, if_pos he, undoReads_flags h]
  · have heffect : t.arrayEffect fl lat f = (f t).updCur (t.noteArray fl lat) := if_pos (Decidable.not_not.mp he)
    rw [heffect, if_neg he, undoReads_same]
    rw [← h, ← hf]
    rfl

end Answers

/-- A member that can saturate, with the array that it makes and whether it has saturated. -/
def State.answerArray (s t : State) (r : MatrixArray × Bool) : State :=
  let fl := if r.2 then flAOV else 0
  if t.Enabled fl then s.flagTrap t fl 1 else (t.setArray r.1).updCur (t.noteArray fl 1)

theorem undoReads_saturating {s t : State} (h : t.slot.raised = s.slot.raised) (r : MatrixArray × Bool) :
    undoReads s (t.saturating r) = s.answerArray t r :=
  undoReads_arrayEffect h rfl _ 1

theorem perform_saturating {i : Instr} {s : State} (h : Normal i s) (hp : portsOf i s.slot.lend = [])
    (r : State → MatrixArray × Bool) : perform i s (fun t => t.saturating (r t)) = .next (s.answerArray s (r s)) := by
  rw [perform_normal h, popPorts_nil hp, undoReads_saturating rfl]

/-! ### XDRAIN -/

/-- The cells with those of `n` numbers from `a` on cleared. -/
def clearCells (cells : Tab Cell) (a n : Nat) : Tab Cell := (List.range n).foldl (fun u k => Tab.set {} u (a + k) {}) cells

theorem wf_clearCells {cells : Tab Cell} (h : Tab.wf {} cells = true) (a n : Nat) : Tab.wf {} (clearCells cells a n) = true :=
  Tab.wf_foldl _ (fun _ _ hu => Tab.wf_set hu _ _) _ h

theorem get_clearCells {cells : Tab Cell} (h : Tab.wf {} cells = true) (a n k : Nat) :
    Tab.get {} (clearCells cells a n) k = if a ≤ k ∧ k < a + n then {} else Tab.get {} cells k := by
  induction n with
  | zero => rw [if_neg (by omega)]; rfl
  | succ n ih =>
    have hsucc : clearCells cells a (n + 1) = Tab.set {} (clearCells cells a n) (a + n) {} := by
      simp only [clearCells, List.range_succ, List.foldl_append, List.foldl_cons, List.foldl_nil]
    rw [hsucc, Tab.get_set (wf_clearCells h a n), ih]
    obtain rfl | hk := Decidable.em (k = a + n)
    · rw [if_pos rfl, if_pos (by omega)]
    · rw [if_neg hk]
      exact ite_congr (propext (by omega)) (fun _ => rfl) fun _ => rfl

section Drain
variable (b : Bank)

/-- The cells of the two rows that XDRAIN takes. -/
def Bank.drainRows : List Cell := (List.range 128).map fun k => Tab.get {} b.cells (64 * b.drain + k)

/-- The flags of their conversions. -/
def Bank.drainFlags : Flags := orFlags ((b.drainRows.map b.drainCell).map Prod.snd)

/-- Whether some cell that is not poisoned disagrees with its residue (R139). -/
def Bank.drainWrong : Bool := b.drainRows.any fun c => !c.poison && (c.value % 15).toNat ≠ c.res.toNat

theorem Bank.drainWrong_iff :
    b.drainWrong = true ↔ ∃ c ∈ b.drainRows, c.poison = false ∧ (c.value % 15).toNat ≠ c.res.toNat := by
  simp only [drainWrong, List.any_eq_true, Bool.and_eq_true, Bool.not_eq_true', decide_eq_true_eq]

end Drain

/-- The offsets that the next operand of w0 writes. -/
def State.drainOffsets (s : State) : Except Raised (List Nat) :=
  let w := Tab.get {} s.cur.ports 4
  drainChunks w s.cur.alloc (w.popped * (512 / 2 ^ w.clog)) (512 / 2 ^ w.clog)

/-- The bytes of the two rows at the offsets of w0's chunks. -/
def State.drainData (s : State) (b : Bank) (offs : List Nat) : List (Nat × Byte) :=
  let z := 2 ^ (Tab.get {} s.cur.ports 4).clog
  offs.zipIdx.flatMap fun o => cellsAt (s.cur.alloc.spbase + o.1)
    (((bytesOf 512 (ofLanes 32 ((b.drainRows.map b.drainCell).map Prod.fst))).drop (z * o.2)).take z)

/-- The rows cleared, w0 advanced, and the write that reaches scratchpad twelve cycles after issue (R138). -/
def State.drainBank (s : State) (bank : Bool) (data : List (Nat × Byte)) (t : State) : State :=
  let m := s.curCore.arr
  let b := m.bank bank
  let t := t.setArray (m.setBank bank { b with cells := clearCells b.cells (64 * b.drain) 128, drain := (b.drain + 2) % 128 })
  let t := t.updCur fun x => { x with ports := Tab.upd {} x.ports 4 Walker.pop }
  t.updCurCore fun k => { k with drains := k.drains ++ [{ ctx := s.slot.ctx, at_ := s.cur.count + 12, data }] }

section DrainBody
variable {bank : Bool} {s : State}

/-- A chunk that traps comes before all else. -/
theorem xdrainBody_refused {r : Raised} (h : s.drainOffsets = .error r) :
    xdrainBody bank s = s.raise r.cause r.cond r.faddr := by
  unfold xdrainBody
  extract_lets
  rw [show drainChunks _ _ _ _ = .error r from h]

/-- With chunks in order, a wrong residue is raised where no flag traps; else the rows are drained, unless a flag traps. -/
theorem xdrainBody_eq {offs : List Nat} (h : s.drainOffsets = .ok offs) :
    let b := s.curCore.arr.bank bank
    xdrainBody bank s =
      if b.drainWrong = true ∧ ¬ s.Enabled b.drainFlags then s.raise .dataError (cond := 1)
      else s.arrayEffect b.drainFlags 11 (s.drainBank bank (s.drainData b offs)) := by
  intro b
  unfold xdrainBody
  extract_lets
  rw [show drainChunks _ _ _ _ = .ok offs from h]
  refine ite_congr (propext ?_) (fun _ => rfl) fun _ => rfl
  rw [Bool.and_eq_true, decide_eq_true_eq, Decidable.not_not]
  rfl

end DrainBody

section Meanings
variable (g : BitVec 3) (bank : Bool) (s : State)

theorem exec_xcfg (pa pb : BitVec 2) (dexp : BitVec 8) :
    exec (.xcfg g bank pa pb dexp) s = perform (.xcfg g bank pa pb dexp) s (xcfgBody bank pa pb dexp) := rfl

theorem exec_xpush : exec (.xpush g) s = perform (.xpush g) s xpushBody := rfl

theorem exec_xacc :
    exec (.xacc g bank) s = perform (.xacc g bank) s fun t => t.saturating (t.curCore.arr.accumulate bank) := rfl

theorem exec_xshift :
    exec (.xshift g bank) s = perform (.xshift g bank) s fun t => t.saturating (t.curCore.arr.shift bank) := rfl

theorem exec_xdrain : exec (.xdrain g bank) s = perform (.xdrain g bank) s (xdrainBody bank) := rfl

end Meanings

/-- With chunks in order and no wrong residue to raise, XDRAIN drains its rows unless a flag traps. -/
theorem exec_xdrain_effect {g : BitVec 3} {bank : Bool} {s : State} {offs : List Nat} (h : Normal (.xdrain g bank) s)
    (ho : s.drainOffsets = .ok offs) :
    let b := s.curCore.arr.bank bank
    ¬ (b.drainWrong = true ∧ ¬ s.Enabled b.drainFlags) →
      exec (.xdrain g bank) s = .next (if s.Enabled b.drainFlags then s.flagTrap s b.drainFlags 11
        else (s.drainBank bank (s.drainData b offs) s).updCur (s.noteArray b.drainFlags 11)) := by
  intro b hn
  rw [exec_xdrain, perform_normal h, popPorts_nil (ports_scalar h.1 nofun nofun nofun nofun), xdrainBody_eq ho, if_neg hn,
    undoReads_arrayEffect rfl rfl]

theorem claims_arraySyllables : Claims.ArraySyllables := by
  intro g bank pa pb dexp s due aov m
  refine ⟨fun h => ?_, fun h => ?_, fun h => ?_, fun h => ?_, fun h => ?_⟩
  · rw [exec_xcfg, perform_normal h, popPorts_nil (ports_scalar h.1 nofun nofun nofun nofun), xcfgBody,
      undoReads_arrayEffect rfl rfl, if_neg (not_enabled_zero s)]
    rfl
  · have hraised := popPorts_raised (.xpush g) s
    rw [exec_xpush, perform_normal h]
    intro t op
    refine ⟨fun hecc => ?_, fun hecc => ?_⟩
    · rw [show xpushBody t = t.saturating _ from if_neg (by rw [hecc]; nofun), undoReads_saturating hraised]
      rfl
    · rw [show xpushBody t = _ from if_pos hecc, undoReads_raised (congrArg (List.cons _) hraised)]
      rfl
  · exact (exec_xacc g bank s).trans (perform_saturating h (ports_scalar h.1 nofun nofun nofun nofun) _)
  · exact (exec_xshift g bank s).trans (perform_saturating h (ports_scalar h.1 nofun nofun nofun nofun) _)
  · intro b w z cells wrong chunks y fl
    have hp := ports_scalar h.1 nofun nofun nofun nofun
    refine ⟨fun r hr => ?_, fun offs ho he => ?_, fun offs ho he hw => ?_, fun offs hw ho he => ⟨?_, ?_⟩⟩
    · exact (exec_xdrain g bank s).trans (perform_trapped h hp (xdrainBody_refused hr))
    · exact (exec_xdrain_effect h ho fun hn => hn.2 he).trans (congrArg Host.Outcome.next (if_pos he))
    · have hwrong := (xdrainBody_eq ho).trans (if_pos ⟨b.drainWrong_iff.mpr hw, he⟩)
      exact (exec_xdrain g bank s).trans (perform_trapped h hp hwrong)
    · have hsound : b.drainWrong ≠ true := fun hn => hw (b.drainWrong_iff.mp hn)
      exact (exec_xdrain_effect h ho fun hn => hsound hn.1).trans (congrArg Host.Outcome.next (if_neg he))
    · exact fun hwf k => get_clearCells hwf _ _ k

end Sys2Proof.Machine

open Sys2Proof Sys2Proof.Machine

/-- Settles O14: each syllable of class 9 is an effect on the array that its flags may stop, and its cells are those of a map. -/
theorem arraySyllables : Obligations.ArraySyllables := ⟨claims_arraySyllables, claims_arrayCells⟩

end

section
/-! Bytes written at the vaults (10 R168, R169): what a commit at the vault controllers makes of memory where no cluster's cache holds
a byte of it unflushed. -/
namespace Sys2Proof.Machine

/-! ### Successive bytes -/

@[simp] theorem map_fst_cellsAt (a : Nat) (b : List Byte) : (cellsAt a b).map Prod.fst = (List.range b.length).map fun i => a + i := by
  induction b generalizing a with
  | nil => rfl
  | cons x b ih =>
    rw [cellsAt, List.map_cons, ih, List.length_cons, List.range_succ_eq_map, List.map_cons, List.map_map]
    refine congrArg (a :: ·) (List.map_congr_left fun i _ => ?_)
    exact Nat.succ_add_eq_add_succ a i

theorem mem_cellsAt {a : Nat} {b : List Byte} {p : Nat × Byte} (h : p ∈ cellsAt a b) : a ≤ p.1 ∧ p.1 < a + b.length := by
  have hp := List.mem_map_of_mem (f := Prod.fst) h
  rw [map_fst_cellsAt, List.mem_map] at hp
  obtain ⟨i, hi, hp⟩ := hp
  rw [List.mem_range] at hi
  omega

theorem cellsAt_pairwise (a : Nat) (b : List Byte) : (cellsAt a b).Pairwise fun p q => p.1 < q.1 := by
  induction b generalizing a with
  | nil => exact .nil
  | cons x b ih => exact .cons (fun p hp => (mem_cellsAt hp).1) (ih (a + 1))

/-- A number above all those listed comes last. -/
theorem insert_eq_append {α : Type} {t : Tab α} {k : Nat} (h : ∀ p ∈ t, p.1 < k) (x : α) : Tab.insert t k x = t ++ [(k, x)] := by
  induction t with
  | nil => rfl
  | cons p t ih =>
    obtain ⟨hp, ht⟩ := List.forall_mem_cons.mp h
    rw [Tab.insert, if_pos hp, ih ht, List.cons_append]

/-- Bytes in rising order of their locations are as a commit writes them. -/
theorem lastBytes_of_pairwise {l : List (Nat × Byte)} (h : l.Pairwise fun p q => p.1 < q.1) : lastBytes l = l := by
  suffices hfold : ∀ t : Tab Byte, (t ++ l).Pairwise (fun p q => p.1 < q.1) →
      l.foldl (fun t (a, b) => Tab.insert t a b) t = t ++ l from hfold [] h
  clear h
  induction l with
  | nil => exact fun t _ => (List.append_nil t).symm
  | cons p l ih =>
    intro t ht
    have hp : ∀ q ∈ t, q.1 < p.1 := fun q hq => (List.pairwise_append.mp ht).2.2 q hq p List.mem_cons_self
    rw [List.append_cons] at ht ⊢
    obtain ⟨k, x⟩ := p
    exact (congrArg (l.foldl _) (insert_eq_append hp x)).trans (ih _ ht)

theorem readN_succ (m : Tab Byte) (a n : Nat) : Memory.readN m a (n + 1) = Memory.read m a :: Memory.readN m (a + 1) n := by
  rw [Memory.readN, List.range_succ_eq_map, List.map_cons, List.map_map]
  exact congrArg _ (List.map_congr_left fun i _ => congrArg (Memory.read m) (Nat.succ_add_eq_add_succ a i).symm)

/-- What is written over a range is then read there. -/
theorem readN_writeAll_cellsAt {m : Tab Byte} (hm : Memory.wf m = true) (a : Nat) (b : List Byte) :
    Memory.readN (Memory.writeAll m (cellsAt a b)) a b.length = b := by
  induction b generalizing a m with
  | nil => rfl
  | cons x b ih =>
    have hlater : ∀ p ∈ cellsAt (a + 1) b, p.1 ≠ a := fun p hp => by have := (mem_cellsAt hp).1; omega
    have hfirst : Memory.read (Memory.writeAll m (cellsAt a (x :: b))) a = x := by
      rw [cellsAt, Memory.writeAll, Memory.read_writeAll_of_notMem _ _ hlater, Memory.read_write hm, if_pos rfl]
    have hrest : Memory.readN (Memory.writeAll m (cellsAt a (x :: b))) (a + 1) b.length = b := ih (Memory.wf_write hm a x) (a + 1)
    rw [List.length_cons, readN_succ, hfirst, hrest]

theorem read_writeAll_cellsAt_of_outside (m : Tab Byte) {a x : Nat} {b : List Byte} (h : x < a ∨ a + b.length ≤ x) :
    Memory.read (Memory.writeAll m (cellsAt a b)) x = Memory.read m x :=
  Memory.read_writeAll_of_notMem m _ fun p hp => by have := mem_cellsAt hp; omega

/-! ### Commits that overtake nothing -/

section Overtakes
variable {s : State} {locs : List Nat}

theorem length_insertUnflushed (u : Unflushed) (l : List Unflushed) : (insertUnflushed u l).length = l.length + 1 := by
  induction l with
  | nil => rfl
  | cons a l ih =>
    rw [insertUnflushed]
    split
    · rfl
    · rw [List.length_cons, ih, List.length_cons]

theorem length_foldl_insertUnflushed (l t : List Unflushed) :
    (l.foldl (fun t u => insertUnflushed u t) t).length = t.length + l.length := by
  induction l generalizing t with
  | nil => rfl
  | cons u l ih => rw [List.foldl_cons, ih, length_insertUnflushed, List.length_cons]; omega

/-- Nothing is unflushed at some locations where no cluster's cache holds a byte of them. -/
theorem unflushedAt_eq_nil : s.unflushedAt locs = [] ↔ ∀ k ∈ s.clusters, ∀ u ∈ k.2.unflushed, u.loc ∉ locs := by
  rw [State.unflushedAt, ← List.length_eq_zero_iff, length_foldl_insertUnflushed, List.length_nil, Nat.zero_add,
    List.length_eq_zero_iff, List.flatMap_eq_nil_iff]
  simp only [List.filter_eq_nil_iff, List.contains_iff_mem]

theorem withAccess_of_notMem {plied : List Unflushed} (h : ∀ u ∈ plied, u.loc ∉ locs) (n : Nat) : withAccess plied n locs = locs := by
  cases n with
  | zero => rfl
  | succ n =>
    have hhit : plied.filter (fun u => locs.contains u.loc) = [] := by
      simpa only [List.filter_eq_nil_iff, List.contains_iff_mem] using h
    have hmore : plied.filter (fun _ => false) = [] := List.filter_eq_nil_iff.mpr fun _ _ => Bool.false_ne_true
    simp only [withAccess, hhit, List.any_nil, Bool.and_false, hmore, List.map_nil, List.isEmpty_nil, if_true]

variable (h : s.unflushedAt locs = [])
include h

theorem flushSet_of_unflushedAt_nil : s.flushSet locs = locs := by
  refine withAccess_of_notMem (fun u hu => ?_) _
  obtain ⟨k, hk, hu⟩ := List.mem_flatMap.mp hu
  exact unflushedAt_eq_nil.mp h k hk u (List.mem_filter.mp hu).1

theorem flushAt_of_unflushedAt_nil : s.flushAt locs = s := by
  simp only [State.flushAt, flushSet_of_unflushedAt_nil h, h]

end Overtakes

theorem vaultCommit_dram (s : State) (i : Inst) (l : List (Nat × Byte)) :
    (s.vaultCommit i l).dram = Memory.writeAll s.dram (lastBytes l) := by
  obtain ⟨_, _, _, _, _, h⟩ := vaultCommit_eq s i l
  rw [h]

/-- A commit of successive bytes of which none stands unflushed writes them to memory. -/
theorem deviceCommit_cellsAt_dram {s : State} {a : Nat} {b : List Byte}
    (h : s.unflushedAt ((List.range b.length).map fun i => a + i) = []) (i : Inst) :
    (s.deviceCommit i (cellsAt a b)).dram = Memory.writeAll s.dram (cellsAt a b) := by
  rw [State.deviceCommit, map_fst_cellsAt, flushAt_of_unflushedAt_nil h]
  exact (vaultCommit_dram ..).trans (congrArg _ (lastBytes_of_pairwise (cellsAt_pairwise a b)))

theorem deviceCommit_nil_dram (s : State) (i : Inst) : (s.deviceCommit i []).dram = s.dram :=
  deviceCommit_cellsAt_dram (a := 0) (b := []) (unflushedAt_eq_nil.mpr fun _ _ _ _ => List.not_mem_nil) i

@[simp] theorem deviceCommit_replies (s : State) (i : Inst) (l : List (Nat × Byte)) : (s.deviceCommit i l).replies = s.replies := by
  obtain ⟨_, _, _, _, _, _, _, _, h⟩ := deviceCommit_eq s i l
  rw [h]

end Sys2Proof.Machine
end

section
/-! The accesses of other devices (09 R146, R165; 10 R169, R172), O47: who is heard first, what each access does, and what an atomic at
the vault controllers makes of memory. -/
namespace Sys2Proof.Machine

/-! ### Atomics at the vault controllers (R172, R173) -/

/-- What an atomic writes from `d` on, where `old` stands: the bytes of the new value, or none. -/
def Atomic.writes (a : Atomic) (d old : Nat) : List (Nat × Byte) :=
  match atomNew a.op a.size old a.arg a.swap with
  | none => []
  | some v => cellsAt d (bytesOf a.size v)

theorem Atomic.writes_of_none {a : Atomic} {old : Nat} (h : atomNew a.op a.size old a.arg a.swap = none) (d : Nat) :
    a.writes d old = [] := by
  rw [writes, h]

theorem Atomic.writes_of_some {a : Atomic} {old v : Nat} (h : atomNew a.op a.size old a.arg a.swap = some v) (d : Nat) :
    a.writes d old = cellsAt d (bytesOf a.size v) := by
  rw [writes, h]

section Atomics
variable {s : State} {a : Atomic} {d : Nat} (hd : homeDpa a.loc = some d) (hi : ∀ k, a.inst ≠ .cluster k)
  (hu : s.unflushedAt ((List.range a.size).map fun i => d + i) = [])
include hd hi hu

/-- With none of its bytes unflushed it reads memory and commits what it writes. -/
theorem atomicRun_vault : s.atomicRun a = (ofBytes (Memory.readN s.dram d a.size),
    s.deviceCommit a.inst (a.writes d (ofBytes (Memory.readN s.dram d a.size)))) := by
  unfold State.atomicRun
  rw [hd]
  cases hinst : a.inst with
  | cluster k => exact absurd hinst (hi k)
  | device => dsimp only; rw [flushAt_of_unflushedAt_nil hu]; rfl
  | system => dsimp only; rw [flushAt_of_unflushedAt_nil hu]; rfl

theorem atomicRun_fst : (s.atomicRun a).1 = ofBytes (Memory.readN s.dram d a.size) := by
  rw [atomicRun_vault hd hi hu]

theorem atomicRun_replies : (s.atomicRun a).2.replies = s.replies := by
  rw [atomicRun_vault hd hi hu]
  exact deviceCommit_replies ..

theorem atomicRun_dram_of_none (hn : atomNew a.op a.size (ofBytes (Memory.readN s.dram d a.size)) a.arg a.swap = none) :
    (s.atomicRun a).2.dram = s.dram := by
  rw [atomicRun_vault hd hi hu, Atomic.writes_of_none hn]
  exact deviceCommit_nil_dram s a.inst

theorem atomicRun_dram_of_some {v : Nat}
    (hn : atomNew a.op a.size (ofBytes (Memory.readN s.dram d a.size)) a.arg a.swap = some v) :
    (s.atomicRun a).2.dram = Memory.writeAll s.dram (cellsAt d (bytesOf a.size v)) := by
  rw [atomicRun_vault hd hi hu, Atomic.writes_of_some hn]
  exact deviceCommit_cellsAt_dram (by rwa [length_bytesOf]) a.inst

theorem atomicRun_read_of_outside {x : Nat} (hx : x < d ∨ d + a.size ≤ x) :
    Memory.read (s.atomicRun a).2.dram x = Memory.read s.dram x := by
  cases hn : atomNew a.op a.size (ofBytes (Memory.readN s.dram d a.size)) a.arg a.swap with
  | none => rw [atomicRun_dram_of_none hd hi hu hn]
  | some v =>
    rw [atomicRun_dram_of_some hd hi hu hn]
    exact read_writeAll_cellsAt_of_outside _ (by rwa [length_bytesOf])

theorem atomicRun_readN (hm : Memory.wf s.dram = true) {v : Nat}
    (hn : atomNew a.op a.size (ofBytes (Memory.readN s.dram d a.size)) a.arg a.swap = some v) :
    Memory.readN (s.atomicRun a).2.dram d a.size = bytesOf a.size v := by
  have hread := readN_writeAll_cellsAt hm d (bytesOf a.size v)
  rw [length_bytesOf] at hread
  rw [atomicRun_dram_of_some hd hi hu hn, hread]

end Atomics

/-! ### Who is heard (R260) -/

theorem State.leaseOver_iff {s : State} : s.leaseOver = true ↔ s.owner.id.isSome ∧ s.owner.heard + s.owner.lease ≤ s.cycle := by
  rw [State.leaseOver, Bool.and_eq_true, decide_eq_true_iff]

/-- The state that `Claims.ElectionSettled` names is the one in which an election that is over has closed. -/
theorem closeElection_of_settled {s e : State} (h : Claims.ElectionSettled s e) :
    (if s.electionOver then s.closeElection else s) = e := by
  unfold Claims.ElectionSettled at h
  cases hc : s.owner.closes with
  | none =>
    simp only [hc] at h
    simp [State.electionOver, hc, h]
  | some m =>
    simp only [hc] at h
    by_cases hm : m ≤ s.cycle
    · rw [if_pos hm] at h
      simp [State.electionOver, hc, hm, (event_next h).2]
    · rw [if_neg hm] at h
      simp [State.electionOver, hc, hm, h]

/-- What a participant sends comes after an election that is over; a lease that is over has lapsed, and the owner's goes on. -/
theorem hearSrc_of_settled {s e : State} (h : Claims.ElectionSettled s e) (src : Nat) : s.hearSrc src =
    if e.owner.id.isSome ∧ e.owner.heard + e.owner.lease ≤ e.cycle then e.lapse
    else if e.owner.id = some src then e.hear else e := by
  simp only [State.hearSrc, closeElection_of_settled h, State.leaseOver_iff]

/-! ### Each access (R165, R175) -/

/-- The answer to an access of another device. -/
def State.answerPeer (s : State) (r : FabricReq) (refused : Option (Cause × Nat)) (bytes : List Byte) : State :=
  { s with replies := s.replies ++ [{ dest := r.src, refused, bytes }] }

/-- The atomic that an access of another device asks for, or the compare-and-swap where it names no operation. -/
def fabricAtomic (r : FabricReq) (loc n : Nat) (op : Option AtomOp) : Atomic :=
  { inst := .system, loc, size := n, op, arg := ofBytes (r.bytes.take n), swap := ofBytes ((r.bytes.drop n).take n) }

section Accesses
variable {s : State} {r : FabricReq}

theorem fabricAccess_refused {q : Raised} (h : s.fabricAim r = .error q) :
    s.fabricAccess r = s.answerPeer r (some (q.cause, q.cond)) [] := by
  simp only [State.fabricAccess, h]
  rfl

variable {k : Reach} (h : s.fabricAim r = .ok k)
include h

theorem fabricAccess_dataError {d : Nat} (he : s.fabricError r k.loc = some d) :
    s.fabricAccess r = s.answerPeer r (some (.dataError, d)) [] := by
  simp only [State.fabricAccess, h, he]
  rfl

theorem fabricAccess_load (ho : r.op = .load) (he : s.fabricError r k.loc = none) : s.fabricAccess r =
    s.answerPeer r none ((List.range r.len).map fun i => s.homeByte (k.loc % 2 ^ 64 + i)) := by
  simp only [State.fabricAccess, h, he, ho, State.fabricServe, fabricSize]
  rfl

theorem fabricAccess_store (ho : r.op = .store) :
    s.fabricAccess r = (s.deviceCommit .system (cellsAt (k.loc % 2 ^ 64) r.bytes)).answerPeer r none [] := by
  have he : s.fabricError r k.loc = none := by simp only [State.fabricError, ho]
  simp only [State.fabricAccess, h, he, ho, State.fabricServe]
  rfl

/-- An atomic is on four bytes or on eight. -/
theorem fabricAccess_atomic {op : Option AtomOp} {w32 : Bool}
    (ho : r.op = match op with | some o => .atomic o w32 | none => .cas w32) (he : s.fabricError r k.loc = none) :
    let n := if w32 then 4 else 8
    let t := s.atomicRun (fabricAtomic r k.loc n op)
    s.fabricAccess r = t.2.answerPeer r none (bytesOf n t.1) := by
  have hsize : fabricSize r = if w32 then 4 else 8 := by
    cases op <;> cases w32 <;> simp only [fabricSize, ho] <;> rfl
  cases op with
  | none => simp only [State.fabricAccess, h, he, ho, State.fabricServe, hsize]; rfl
  | some o => simp only [State.fabricAccess, h, he, ho, State.fabricServe, hsize]; rfl

theorem fabricAccess_tagged {tag : Nat} (ho : r.op = .tagged tag) :
    s.fabricAccess r = s.fabricTag r k.loc tag (.bytes (cellsAt (k.loc % 2 ^ 64) r.bytes)) := by
  have he : s.fabricError r k.loc = none := by simp only [State.fabricError, ho]
  simp only [State.fabricAccess, h, he, ho]

theorem fabricAccess_reduce {rop fmt tag : Nat} (ho : r.op = .reduce rop fmt tag) :
    s.fabricAccess r = s.fabricTag r k.loc tag (.reduce rop fmt (reduceElems fmt (k.loc % 2 ^ 64) r.bytes)) := by
  have he : s.fabricError r k.loc = none := by simp only [State.fabricError, ho]
  simp only [State.fabricAccess, h, he, ho]

end Accesses

/-- An access to a configured partition, within one page, while the ports work. -/
theorem exec_fabricGlobalAccess {r : FabricReq} {s : State} (ha : s.alarm = none) (hon : (s.part r.part).on = true)
    (hpage : r.va % 2 ^ 16 + max r.len r.bytes.length ≤ 2 ^ 16) :
    exec (.fabricGlobalAccess r) s = .next ((s.hearSrc r.src).fabricAccess r) :=
  event_on (by simp only [State.canFabric, ha, hon, hpage, Option.isNone_none, decide_true, Bool.and_self]) _

end Sys2Proof.Machine

open Sys2Proof Sys2Proof.Machine

/-- Settles O47: each access is one of the cases of `State.fabricAccess`, in the state that the sender is heard in; what is written is
a commit of successive bytes that overtakes nothing. -/
theorem fabricAccesses : Obligations.FabricAccesses := by
  intro r k q s₀ e ha hsettled hon hpage s answer a
  have hexec : exec (.fabricGlobalAccess r) s₀ = .next (s.fabricAccess r) := by
    rw [exec_fabricGlobalAccess ha hon hpage, hearSrc_of_settled hsettled]
    rfl
  rw [hexec]
  refine ⟨fun h => ?_, fun h ho he => ?_, fun d h he => ?_, fun op w32 d h ho he hs hd => ?_, fun h ho hs _ hu => ?_,
    fun tag h ho => ?_, fun rop fmt tag h ho => ?_⟩
  · rw [fabricAccess_refused h]; rfl
  · rw [fabricAccess_load h ho he]; rfl
  · rw [fabricAccess_dataError h he]; rfl
  · intro n hu old new
    have hi (j : Nat) : (fabricAtomic r k.loc n op).inst ≠ .cluster j := nofun
    rw [fabricAccess_atomic h ho he]
    refine ⟨(s.atomicRun (fabricAtomic r k.loc n op)).2, ?_, atomicRun_replies hd hi hu, fun _ => atomicRun_read_of_outside hd hi hu,
      atomicRun_dram_of_none hd hi hu, fun _ => atomicRun_readN hd hi hu hs.dram⟩
    rw [show (s.atomicRun (fabricAtomic r k.loc n op)).1 = old from atomicRun_fst hd hi hu]
    rfl
  · rw [map_fst_cellsAt] at hu
    have hdram := deviceCommit_cellsAt_dram hu .system
    rw [fabricAccess_store h ho]
    refine ⟨_, rfl, ?_, fun x hx => ?_, congrArg (· ++ _) (deviceCommit_replies ..)⟩
    · exact (congrArg (Memory.readN · a _) hdram).trans (readN_writeAll_cellsAt hs.dram a r.bytes)
    · exact (congrArg (Memory.read · x) hdram).trans (read_writeAll_cellsAt_of_outside _ hx)
  · rw [fabricAccess_tagged h ho]; rfl
  · rw [fabricAccess_reduce h ho]; rfl

end

section
/-! Page walks (09 R158 to R164), O26: what a walk reads, how it starts and ends, and what its answer leaves in the TLBs and the
caches. -/
namespace Sys2Proof.Machine

/-! ### What a walk reads -/

/-- `t` has the translation tables of `s`: memory with its errors, the ranges that it is made of, and the regions. -/
structure State.SameTables (s t : State) : Prop where
  dram     : t.dram = s.dram
  badDram  : t.badDram = s.badDram
  poisoned : t.poisoned = s.poisoned
  parts    : t.parts = s.parts
  vlend    : t.vlend = s.vlend
  vrtbase  : t.vrtbase = s.vrtbase
  lines    : ∀ k, (t.cluster k).poisoned = (s.cluster k).poisoned

namespace State.SameTables
variable {s t : State}

theorem refl (s : State) : s.SameTables s := ⟨rfl, rfl, rfl, rfl, rfl, rfl, fun _ => rfl⟩

theorem trans {u : State} (h : s.SameTables t) (g : t.SameTables u) : s.SameTables u :=
  ⟨g.dram.trans h.dram, g.badDram.trans h.badDram, g.poisoned.trans h.poisoned, g.parts.trans h.parts, g.vlend.trans h.vlend,
    g.vrtbase.trans h.vrtbase, fun k => (g.lines k).trans (h.lines k)⟩

variable (h : s.SameTables t)
include h

theorem dword : t.dword = s.dword := by
  funext a
  rw [State.dword, h.dram, State.dword]

theorem dpaMapped : t.dpaMapped = s.dpaMapped := by
  funext a
  rw [State.dpaMapped, h.parts, h.vlend, State.dpaMapped]

theorem memoryError (k loc : Nat) : t.memoryError k loc = s.memoryError k loc := by
  rw [State.memoryError, h.poisoned, h.badDram, h.lines, State.memoryError]

theorem region (r : Nat) : t.region r = s.region r := by
  unfold State.region State.regionAt
  rw [h.vrtbase, h.dword]

theorem walkFrom (ver : Option Nat) (va fuel level table : Nat) :
    t.walkFrom ver va fuel level table = s.walkFrom ver va fuel level table := by
  induction fuel generalizing level table with
  | zero => rfl
  | succ fuel ih => simp only [State.walkFrom, h.memoryError, h.dpaMapped, h.dword, ih]

theorem walkRoot (part : Nat) (region : Option (Nat × Nat)) : t.walkRoot part region = s.walkRoot part region := by
  simp only [State.walkRoot, State.part, h.parts, h.region]

/-- A walk gives the same answer. -/
theorem walk (part : Nat) (region : Option (Nat × Nat)) (va : Nat) : t.walk part region va = s.walk part region va := by
  simp only [State.walk, h.walkRoot, h.walkFrom]

theorem samePage (a b : PageKey) : t.samePage a b = s.samePage a b := by
  simp only [State.samePage, State.wholePage, h.walk]

theorem walking (hw : t.walks = s.walks) (w : Walk) : t.walking w = s.walking w := by
  simp only [State.walking, State.sameWalk, hw, h.samePage]

end State.SameTables

/-! ### Walks that start and end -/

theorem exec_walkerStart_next {s : State} {k n : Nat} {w : Walk} (hn : s.nextWalk k = some n) (hw : s.walksWaiting[n]? = some w) :
    exec (.walkerStart k) s = .next { s with
      walksWaiting := s.walksWaiting.eraseIdx n
      walks := s.walks ++ [{ w with joined := s.walking w }] } := by
  have htables : s.SameTables { s with walksWaiting := s.walksWaiting.eraseIdx n } := ⟨rfl, rfl, rfl, rfl, rfl, rfl, fun _ => rfl⟩
  calc exec (.walkerStart k) s = .next (s.startWalk k) := event_on (by rw [hn]; rfl) _
    _ = _ := by simp only [State.startWalk, hn, hw, State.beginWalk, htables.walking rfl]

/-- A walk that has joined none ends, at the locked level at its cycle. -/
theorem exec_translationWalkComplete_due {s : State} {n : Nat} {w : Walk} (hw : s.walks[n]? = some w) (hj : w.joined = false)
    (ht : w.till ≤ s.cycle) :
    let t := { s with walks := s.walks.eraseIdx n }
    exec (.translationWalkComplete n) s = .next (if w.isLocked then t.answer w
      else (w :: t.walks.filter (t.joinedTo w.cluster)).foldl State.answer
        { t with walks := t.walks.filter fun v => !t.joinedTo w.cluster v }) := by
  have hcan : s.canWalk n = true := by simp [State.canWalk, hw, hj, ht]
  calc exec (.translationWalkComplete n) s = .next (s.doWalk n) := event_on hcan _
    _ = _ := by simp only [State.doWalk, hw]

theorem Walk.isLocked_iff {w : Walk} : w.isLocked = true ↔ w.till ≠ 0 := by simp [Walk.isLocked]

/-! ### Caches and TLBs that keep what they hold -/

/-- A part whose new value is not the one of an unlisted number, read again: no canonical form is asked for. -/
theorem get_set_of_ne_default {α : Type} [DecidableEq α] {d x : α} (hx : x ≠ d) (t : Tab α) (k j : Nat) :
    Tab.get d (Tab.set d t k x) j = if j = k then x else Tab.get d t j := by
  rw [Tab.set, if_neg hx, Tab.get_insert]

/-- A cluster with a line at hand. -/
theorem cluster_touchCluster (s : State) (k line j : Nat) : (s.touchCluster k line).cluster j =
    if j = k then { s.cluster k with lines := line :: (s.cluster k).lines.filter fun a => a != line } else s.cluster j :=
  get_set_of_ne_default (fun h => by cases congrArg Cluster.lines h) ..

theorem touchCluster_sameTables (s : State) (k line : Nat) : s.SameTables (s.touchCluster k line) := by
  refine ⟨rfl, rfl, rfl, rfl, rfl, rfl, fun j => ?_⟩
  rw [cluster_touchCluster]
  split
  · next h => rw [h]
  · rfl

theorem readThrough_sameTables (s : State) (w : Walk) : s.SameTables (s.readThrough w) := by
  unfold State.readThrough
  exact List.foldlRecOn (motive := s.SameTables) _ _ (.refl s) fun t ht line _ => ht.trans (touchCluster_sameTables t w.cluster line)

/-- The descriptors pass through the cluster's cache alone. -/
theorem readThrough_cores (s : State) (w : Walk) : (s.readThrough w).cores = s.cores := by
  unfold State.readThrough
  exact List.foldlRecOn (motive := fun t : State => t.cores = s.cores) _ _ rfl fun _ ht _ _ => ht

theorem mem_tlbPut (n : Nat) (e : TlbEntry) (l : List TlbEntry) (k : Nat) : e ∈ tlbPut n e l k := by
  unfold tlbPut
  dsimp only
  split <;> exact List.mem_cons_self

theorem mem_tlbPutSet (e : TlbEntry) (l : List TlbEntry) (k : Nat) : e ∈ tlbPutSet e l k := by
  unfold tlbPutSet
  exact List.mem_append_left _ (mem_tlbPut ..)

/-- `t` has the memory and the TLBs of `s`. -/
structure State.SameTlbs (s t : State) : Prop where
  dram    : t.dram = s.dram
  core    : ∀ k, (t.core k).tlb = (s.core k).tlb
  cluster : ∀ k, (t.cluster k).tlb = (s.cluster k).tlb

theorem State.SameTlbs.trans {s t u : State} (h : s.SameTlbs t) (g : t.SameTlbs u) : s.SameTlbs u :=
  ⟨g.dram.trans h.dram, fun k => (g.core k).trans (h.core k), fun k => (g.cluster k).trans (h.cluster k)⟩

theorem touchCluster_sameTlbs (s : State) (k line : Nat) : s.SameTlbs (s.touchCluster k line) := by
  refine ⟨rfl, fun _ => rfl, fun j => ?_⟩
  rw [cluster_touchCluster]
  split
  · next h => rw [h]
  · rfl

/-! ### A prefetched line (R309) -/

/-- A line with both its sectors, as it enters an L1. -/
def wholeLine (line : Nat) (l : List L1Line) : L1Line :=
  match l.find? fun a => a.line == line with
  | some a => { a with sectors := 3 }
  | none => { line, sectors := 3 }

theorem wholeLine_line (line : Nat) (l : List L1Line) : (wholeLine line l).line = line := by
  unfold wholeLine
  split
  · next h => simpa using List.find?_some h
  · rfl

theorem wholeLine_sectors (line : Nat) (l : List L1Line) : (wholeLine line l).sectors = 3 := by
  unfold wholeLine
  split <;> rfl

/-- A core whose L1 has fetched both sectors of a line. -/
def State.fetchL1 (s : State) (core line : Nat) : State :=
  s.updCore core fun k => { k with l1 := l1Put k.fused (wholeLine line k.l1) k.l1 }

theorem core_fetchL1 (s : State) (core line j : Nat) : (s.fetchL1 core line).core j = if j = core then
    { s.core core with l1 := l1Put (s.core core).fused (wholeLine line (s.core core).l1) (s.core core).l1 } else s.core j :=
  get_set_of_ne_default (fun h => by cases congrArg CoreSt.l1 h) ..

theorem fetchL1_sameTlbs (s : State) (core line : Nat) : s.SameTlbs (s.fetchL1 core line) := by
  refine ⟨rfl, fun j => ?_, fun _ => rfl⟩
  rw [core_fetchL1]
  split
  · next h => rw [h]
  · rfl

/-- A line whose home is this device enters the cluster cache, and the L1 unless it is for the cluster alone. -/
theorem prefetchLine_of_home (s : State) (c : Nat) {loc a : Nat} (h : homeDpa loc = some a) (toCluster : Bool) :
    s.prefetchLine c loc toCluster =
      State.touchCluster (if toCluster then s else s.fetchL1 (s.l1Slice (coreOf c) (a / 256)) (a / 256))
        (clusterOf (coreOf c)) (a / 256) := by
  simp only [State.prefetchLine, h]
  rfl

theorem prefetchLine_sameTlbs (s : State) (c loc : Nat) (toCluster : Bool) : s.SameTlbs (s.prefetchLine c loc toCluster) := by
  cases h : homeDpa loc with
  | none =>
    have hs : s.prefetchLine c loc toCluster = s := by simp only [State.prefetchLine, h]
    rw [hs]
    exact ⟨rfl, fun _ => rfl, fun _ => rfl⟩
  | some a =>
    rw [prefetchLine_of_home s c h]
    cases toCluster with
    | true => exact touchCluster_sameTlbs ..
    | false => exact (fetchL1_sameTlbs ..).trans (touchCluster_sameTlbs ..)

section Prefetched
variable (s : State) (c : Nat) {loc a : Nat} (h : homeDpa loc = some a)
include h

theorem mem_lines_prefetchLine (toCluster : Bool) :
    a / 256 ∈ ((s.prefetchLine c loc toCluster).cluster (clusterOf (coreOf c))).lines := by
  rw [prefetchLine_of_home s c h, cluster_touchCluster, if_pos rfl]
  exact List.mem_cons_self

theorem mem_l1_prefetchLine : ∃ l ∈ ((s.prefetchLine c loc false).core (s.l1Slice (coreOf c) (a / 256))).l1,
    l.line = a / 256 ∧ l.sectors = 3 := by
  rw [prefetchLine_of_home s c h]
  refine ⟨_, ?_, wholeLine_line _ (s.core (s.l1Slice (coreOf c) (a / 256))).l1, wholeLine_sectors ..⟩
  change _ ∈ ((s.fetchL1 _ _).core _).l1
  rw [core_fetchL1, if_pos rfl]
  exact List.mem_cons_self

end Prefetched

/-! ### The answer of a walk (R160 to R162) -/

/-- The TLBs of the cluster and, unless an engine or nobody waits for the walk, of the core with one entry more. -/
def State.fillTlbs (s : State) (w : Walk) (e : TlbEntry) : State :=
  let t := { s with fresh := s.fresh + 2 }.updCluster w.cluster fun k => { k with tlb := tlbPutSet e k.tlb s.fresh }
  match w.who with
  | .engine _ | .none => t
  | _ => t.updCore w.core fun k => { k with tlb := tlbPut 256 e k.tlb (s.fresh + 1) }

section Fill
variable (s : State) (w : Walk) (e : TlbEntry)

theorem fillTlbs_dram : (s.fillTlbs w e).dram = s.dram := by
  unfold State.fillTlbs
  dsimp only
  split <;> rfl

theorem mem_cluster_fillTlbs : e ∈ ((s.fillTlbs w e).cluster w.cluster).tlb := by
  have hmem := mem_tlbPutSet e (s.cluster w.cluster).tlb s.fresh
  have hset : (s.fillTlbs w e).cluster w.cluster =
      { s.cluster w.cluster with tlb := tlbPutSet e (s.cluster w.cluster).tlb s.fresh } := by
    have hne : { s.cluster w.cluster with tlb := tlbPutSet e (s.cluster w.cluster).tlb s.fresh } ≠ ({} : Cluster) := fun h =>
      List.ne_nil_of_mem hmem (congrArg Cluster.tlb h)
    have hcluster := (get_set_of_ne_default hne s.clusters w.cluster w.cluster).trans (if_pos rfl)
    unfold State.fillTlbs
    dsimp only
    split <;> exact hcluster
  rw [hset]
  exact hmem

/-- What the core's TLB is filled with. -/
theorem core_fillTlbs (j : Nat) : ∃ l, (s.fillTlbs w e).core j = { s.core j with tlb := l } ∧
    ((∀ m, w.who ≠ .engine m) → w.who ≠ .none → j = w.core → e ∈ l) := by
  have hmem := mem_tlbPut 256 e (s.core w.core).tlb (s.fresh + 1)
  have hne : { s.core w.core with tlb := tlbPut 256 e (s.core w.core).tlb (s.fresh + 1) } ≠ ({} : CoreSt) := fun h =>
    List.ne_nil_of_mem hmem (congrArg CoreSt.tlb h)
  have hcore := get_set_of_ne_default hne s.cores w.core j
  unfold State.fillTlbs
  dsimp only
  split
  · next m hm => exact ⟨_, rfl, fun h => absurd hm (h m)⟩
  · next hn => exact ⟨_, rfl, fun _ h => absurd hn h⟩
  · by_cases hj : j = w.core
    · subst hj
      exact ⟨_, hcore.trans (if_pos rfl), fun _ _ _ => hmem⟩
    · exact ⟨_, hcore.trans (if_neg hj), fun _ _ h => absurd h hj⟩

theorem l1Slice_fillTlbs (core line : Nat) : (s.fillTlbs w e).l1Slice core line = s.l1Slice core line := by
  obtain ⟨l, hl, -⟩ := core_fillTlbs s w e core
  rw [State.l1Slice, hl, State.l1Slice]

theorem walkFound_sameTlbs : s.SameTlbs (s.walkFound w e) := by
  unfold State.walkFound
  split
  · split
    · exact prefetchLine_sameTlbs ..
    · exact ⟨rfl, fun _ => rfl, fun _ => rfl⟩
  · exact ⟨rfl, fun _ => rfl, fun _ => rfl⟩

theorem walkFailed_dram (cond : Nat) : (s.walkFailed w cond).dram = s.dram := by
  unfold State.walkFailed
  split <;> rfl

end Fill

/-- Half of PFDROP goes up to its greatest value. -/
theorem saturate32_eq (n : Nat) : saturate32 n = min (n + 1) (2 ^ 32 - 1) := by
  unfold saturate32
  split <;> omega

theorem pfFaulted_eq (s : State) (c : Nat) :
    s.pfFaulted c = s.updCtx c fun x => { x with pfFault := min (x.pfFault + 1) (2 ^ 32 - 1) } := by
  simp only [State.pfFaulted, saturate32_eq]

section Answer
variable {s : State} {w : Walk}

theorem answer_found {e : TlbEntry} (h : s.walk w.part w.region w.va = .ok e) :
    s.answer w = ((s.readThrough w).fillTlbs w e).walkFound w e := by
  have hwalk := ((readThrough_sameTables s w).walk w.part w.region w.va).trans h
  simp only [State.answer, hwalk]
  rfl

theorem answer_failed {cond : Nat} (h : s.walk w.part w.region w.va = .error cond) :
    s.answer w = (s.readThrough w).walkFailed w cond := by
  have hwalk := ((readThrough_sameTables s w).walk w.part w.region w.va).trans h
  simp only [State.answer, hwalk]

theorem answer_dram (s : State) (w : Walk) : (s.answer w).dram = s.dram := by
  have hread := (readThrough_sameTables s w).dram
  cases h : s.walk w.part w.region w.va with
  | error cond => rw [answer_failed h, walkFailed_dram, hread]
  | ok e => rw [answer_found h, (walkFound_sameTlbs ..).dram, fillTlbs_dram, hread]

variable {e : TlbEntry} (h : s.walk w.part w.region w.va = .ok e)
include h

theorem mem_cluster_answer : e ∈ ((s.answer w).cluster w.cluster).tlb := by
  rw [answer_found h, (walkFound_sameTlbs ..).cluster]
  exact mem_cluster_fillTlbs ..

theorem mem_core_answer (hm : ∀ m, w.who ≠ .engine m) (hn : w.who ≠ .none) : e ∈ ((s.answer w).core w.core).tlb := by
  obtain ⟨l, hl, hmem⟩ := core_fillTlbs (s.readThrough w) w e w.core
  rw [answer_found h, (walkFound_sameTlbs ..).core, hl]
  exact hmem hm hn rfl

/-- A prefetch that may read the page has its line fetched. -/
theorem answer_prefetch {c a : Nat} {toL1 global : Bool} {r : Reach} (hw : w.who = .prefetch c toL1 global)
    (hg : e.grant w.key .read false global w.va = .ok r) (ha : homeDpa r.loc = some a) :
    a / 256 ∈ ((s.answer w).cluster (clusterOf (coreOf c))).lines ∧
      (toL1 = true → ∃ l ∈ ((s.answer w).core (s.l1Slice (coreOf c) (a / 256))).l1, l.line = a / 256 ∧ l.sectors = 3) := by
  have hfound : s.answer w = ((s.readThrough w).fillTlbs w e).prefetchLine c r.loc (!toL1) := by
    rw [answer_found h]
    simp only [State.walkFound, hw, hg]
  have hslice : s.l1Slice (coreOf c) (a / 256) = ((s.readThrough w).fillTlbs w e).l1Slice (coreOf c) (a / 256) := by
    rw [l1Slice_fillTlbs, State.l1Slice, State.core, ← readThrough_cores s w]
    rfl
  rw [hfound, hslice]
  refine ⟨mem_lines_prefetchLine _ c ha _, fun hl => ?_⟩
  subst hl
  exact mem_l1_prefetchLine _ c ha

end Answer

end Sys2Proof.Machine

open Sys2Proof Sys2Proof.Machine

/-- Settles O26: the descriptors pass through the cache without a change to what the walk answers, and what the answer fills stays
filled. -/
theorem walkSteps : Obligations.WalkSteps := by
  intro n k s w
  refine ⟨exec_walkerStart_next, fun hw hj ht => ?_, answer_dram s w, fun e h => ⟨mem_cluster_answer h, mem_core_answer h,
    fun c toL1 global r a hw hg ha => answer_prefetch h hw hg ha⟩, fun cond h => ?_⟩
  · rw [exec_translationWalkComplete_due hw hj ht]
    simp only [Walk.isLocked_iff]
    rfl
  · intro u known
    have hfailed : s.answer w = u.walkFailed w cond := answer_failed h
    rw [hfailed]
    refine ⟨fun c hw => ?_, fun c m hw => ?_, fun m hw => ?_, fun c toL1 global hw => ?_, fun hw => ?_⟩
    · simp only [State.walkFailed, hw]; rfl
    · simp only [State.walkFailed, hw]; rfl
    · simp only [State.walkFailed, hw]
    · simp only [State.walkFailed, hw, pfFaulted_eq]
    · simp only [State.walkFailed, hw]

end

section
/-! The tables of the owner (09 R154, R163), O27: what an invalidation takes out of the TLBs, and the vault lending table. -/
namespace Sys2Proof.Machine

/-! ### A change of some entries of a table -/

/-- The entries of a table that a test picks, changed one after the other; the test picks no default. -/
theorem get_foldl_change {α : Type} [DecidableEq α] {d : α} {picks : α → Bool} (hd : picks d = false) (f : α → α) (k : Nat)
    {l u : Tab α} (hl : Tab.wf d l = true) (hu : Tab.wf d u = true) :
    Tab.get d (l.foldl (fun t p => if picks p.2 then Tab.set d t p.1 (f p.2) else t) u) k =
      if picks (Tab.get d l k) then f (Tab.get d l k) else Tab.get d u k := by
  induction l generalizing u with
  | nil => rw [Tab.get, hd]; rfl
  | cons p l ih =>
    obtain ⟨j, x⟩ := p
    obtain ⟨-, habove, hl⟩ := Tab.wf_cons.mp hl
    have hfirst : Tab.get d (if picks x then Tab.set d u j (f x) else u) k =
        if picks x ∧ k = j then f x else Tab.get d u k := by
      by_cases hx : picks x <;> simp [hx, Tab.get_set hu]
    have hwf : Tab.wf d (if picks x then Tab.set d u j (f x) else u) = true := by
      split
      · exact Tab.wf_set hu j _
      · exact hu
    rw [List.foldl_cons, ih hl hwf, hfirst]
    by_cases hk : j = k
    · subst hk
      simp [Tab.get, Tab.get_above habove (Nat.le_refl j), hd]
    · simp [Tab.get, hk, Ne.symm hk]

theorem wf_foldl_change {α : Type} [DecidableEq α] {d : α} (picks : α → Bool) (f : α → α) {t : Tab α} (h : Tab.wf d t = true) :
    Tab.wf d (t.foldl (fun u p => if picks p.2 then Tab.set d u p.1 (f p.2) else u) t) = true := by
  refine Tab.wf_foldl _ (fun u p hu => ?_) t h
  split
  · exact Tab.wf_set hu _ _
  · exact hu

/-! ### Invalidations (R163) -/

/-- A TLB without the page that an invalidation names. -/
def withoutPage (p va size : Nat) (l : List TlbEntry) : List TlbEntry := l.filter fun e => !e.named p va size

theorem withoutPage_of_any_false {p va size : Nat} {l : List TlbEntry} (h : (l.any fun e => e.named p va size) ≠ true) :
    withoutPage p va size l = l := by
  simpa [withoutPage, List.filter_eq_self] using h

/-- The TLBs of a table's parts, each without the page where it has held it. -/
theorem tlb_foldl_withoutPage {α : Type} [DecidableEq α] {d : α} {tlb : α → List TlbEntry} {put : α → List TlbEntry → α}
    (hput : ∀ c l, tlb (put c l) = l) (hd : tlb d = []) (p va size k : Nat) {t : Tab α} (h : Tab.wf d t = true) :
    tlb (Tab.get d (t.foldl (fun u c => if (tlb c.2).any fun e => e.named p va size
      then Tab.set d u c.1 (put c.2 (withoutPage p va size (tlb c.2))) else u) t) k) = withoutPage p va size (tlb (Tab.get d t k)) := by
  rw [get_foldl_change (picks := fun c => (tlb c).any fun e => e.named p va size) (by simp [hd])
    (fun c => put c (withoutPage p va size (tlb c))) k h h]
  split
  · exact hput ..
  · next hn => rw [withoutPage_of_any_false hn]

section Invalidate
variable {s : State} (p va size : Nat)

theorem core_invalidate (k : Nat) (h : s.Canonical) :
    ((s.invalidate p va size).core k).tlb = withoutPage p va size (s.core k).tlb :=
  tlb_foldl_withoutPage (tlb := CoreSt.tlb) (put := fun c l => { c with tlb := l }) (fun _ _ => rfl) rfl p va size k h.cores

theorem cluster_invalidate (k : Nat) (h : s.Canonical) :
    ((s.invalidate p va size).cluster k).tlb = withoutPage p va size (s.cluster k).tlb :=
  tlb_foldl_withoutPage (tlb := Cluster.tlb) (put := fun c l => { c with tlb := l }) (fun _ _ => rfl) rfl p va size k h.clusters

theorem canonical_invalidate (h : s.Canonical) : (s.invalidate p va size).Canonical :=
  { h with
    cores := wf_foldl_change (fun c : CoreSt => c.tlb.any fun e => e.named p va size)
      (fun c => { c with tlb := withoutPage p va size c.tlb }) h.cores
    clusters := wf_foldl_change (fun c : Cluster => c.tlb.any fun e => e.named p va size)
      (fun c => { c with tlb := withoutPage p va size c.tlb }) h.clusters }

end Invalidate

/-- The pages of a list of invalidations, with their sizes, leave every TLB. -/
def State.invalidateAll (s : State) (p : Nat) (l : List (Nat × Nat)) : State := l.foldl (fun t q => t.invalidate p q.1 q.2) s

section InvalidateAll
variable (p : Nat) (l : List (Nat × Nat))

theorem invalidateAll_dram (s : State) : (s.invalidateAll p l).dram = s.dram :=
  List.foldlRecOn (motive := fun t : State => t.dram = s.dram) l _ rfl fun _ ht _ _ => ht

theorem invalidateAll_parts (s : State) : (s.invalidateAll p l).parts = s.parts :=
  List.foldlRecOn (motive := fun t : State => t.parts = s.parts) l _ rfl fun _ ht _ _ => ht

/-- What a TLB holds afterwards, if an invalidation takes its page out of it. -/
theorem mem_invalidateAll {tlb : State → List TlbEntry}
    (htlb : ∀ {t : State} (va size : Nat), t.Canonical → tlb (t.invalidate p va size) = withoutPage p va size (tlb t))
    {s : State} (h : s.Canonical) {e : TlbEntry} :
    e ∈ tlb (s.invalidateAll p l) ↔ e ∈ tlb s ∧ ∀ q ∈ l, e.named p q.1 q.2 = false := by
  induction l generalizing s with
  | nil => simp [State.invalidateAll]
  | cons q l ih =>
    rw [State.invalidateAll, List.foldl_cons, ← State.invalidateAll, ih (canonical_invalidate p q.1 q.2 h), htlb q.1 q.2 h,
      withoutPage, List.mem_filter, Bool.not_eq_true', List.forall_mem_cons, and_assoc]

end InvalidateAll

/-! ### What the owner asks for -/

theorem State.Reached.ownerReaches_eq {s : State} (h : s.Reached) : s.ownerReaches = true := by
  obtain ⟨hid, hlease, halarm⟩ := h
  have hnot : ¬ s.owner.heard + s.owner.lease ≤ s.cycle := Nat.not_le.mpr hlease
  simp [State.ownerReaches, State.leaseOver, hid, hnot, halarm]

theorem exec_tlbinv_reached {p : Nat} {v : Word64} {s : State} (h : s.Reached) (hon : (s.part p).on = true) :
    exec (.tlbinv p v) s = .next (s.hear.doTlbinv p v) :=
  event_on (by rw [h.ownerReaches_eq, hon]; rfl) _

theorem exec_vlendWrite_reached {m : Nat} {v : Word64} {s : State} (h : s.Reached) (hm : m < 512) :
    exec (.vlendWrite m v) s = .next (s.hear.doVlend m v) :=
  event_on (by rw [h.ownerReaches_eq, Bool.true_and]; exact decide_eq_true hm) _

theorem claims_invalidationSteps : Claims.InvalidationSteps := by
  intro p v s hs va size
  have hhear : s.hear.Canonical := { hs with }
  refine ⟨fun hr hon => ?_, fun hb => ?_⟩
  · have hpart : (s.hear.doTlbinv p v).part p =
        { s.part p with busy := true, inval := (s.part p).inval ++ [(va, size)] } :=
      (State.part_updPart (s := { s.hear.invalidate p va size with kernels := _ }) hs.parts p _ p).trans (if_pos rfl)
    refine ⟨s.hear.doTlbinv p v, exec_tlbinv_reached hr hon, rfl, ?_, ?_, fun k => core_invalidate p va size k hhear,
      fun k => cluster_invalidate p va size k hhear, ?_⟩
    · rw [hpart]
    · rw [hpart]
    · refine List.map_congr_left fun k _ => ?_
      simp only [Bool.and_eq_true, beq_iff_eq]
  · have hparts := invalidateAll_parts p (s.part p).inval s
    have hpart : (s.endTlbinv p).part p = { s.part p with busy := false, inval := [] } := by
      refine (State.part_updPart (s := s.invalidateAll p (s.part p).inval) (hparts ▸ hs.parts) p _ p).trans ?_
      rw [if_pos rfl, State.part, hparts, ← State.part]
    refine ⟨s.endTlbinv p, event_on hb _, invalidateAll_dram .., ?_, ?_, fun q hq => ⟨fun k e he => ?_, fun k e he => ?_⟩⟩
    · rw [hpart]
    · rw [hpart]
    · exact ((mem_invalidateAll p _ (tlb := fun t => (t.core k).tlb) (fun va size => core_invalidate p va size k) hs).mp he).2 q hq
    · exact ((mem_invalidateAll p _ (tlb := fun t => (t.cluster k).tlb) (fun va size => cluster_invalidate p va size k) hs).mp he).2 q hq

theorem claims_vaultLending : Claims.VaultLending := by
  intro m v s hr hm w t
  have hrefused : s.hear.lendRefused m (lendMask v) = s.lendRefused m w := rfl
  rw [exec_vlendWrite_reached hr hm, State.doVlend, hrefused]
  refine ⟨fun h => ?_, fun h => ?_⟩
  · rw [if_pos h]; rfl
  · rw [if_neg (by rw [h]; nofun)]; rfl

end Sys2Proof.Machine

open Sys2Proof Sys2Proof.Machine

/-- Settles O27: an invalidation filters every TLB, and a write of the lending table takes effect unless `State.lendRefused`. -/
theorem tablesOfTheOwner : Obligations.TablesOfTheOwner := ⟨claims_invalidationSteps, claims_vaultLending⟩

end

section
/-! Atomics in flight (10 R172 to R174), O28 and O29: when one may perform, and what it then does at its point of coherence. -/
namespace Sys2Proof.Machine

theorem homeDpa_of_lt {d : Nat} (h : d < 2 ^ Config.dpaBits) : homeDpa d = some d := if_pos h

/-- The state in which an atomic performs: an access to another device is one more of them (R165). -/
def State.atomicFrom (s : State) (a : Atomic) : State := if a.remote then { s with fresh := s.fresh + 1 } else s

/-- What an atomic meets: an error of this device's memory, or the refusal of another device. -/
def State.atomicBad (s : State) (a : Atomic) : Option Raised := if a.remote then refusalOf s.fresh a.loc else s.atomicError a

section InFlight
variable {s : State} {n : Nat} {a : Atomic} (ha : s.atomics[n]? = some a)
include ha

/-- An atomic may perform when no fault holds it, its port works, none is before it and its cycle has not overtaken it. -/
theorem canAtomic_of (hheld : a.held = false) (hfirst : ∀ b ∈ s.atomics.take n, ¬ (b.ctx = a.ctx ∧ b.inst = a.inst ∧ b.held = false))
    (hport : a.remote = true → s.alarm = none) (hvault : (∃ k, a.inst = .cluster k) → s.overtaken a.locs = false) :
    s.canAtomic n = true := by
  have hbefore : s.atomicsBefore a n = [] := List.filter_eq_nil_iff.mpr fun b hb h => hfirst b hb (by simpa [and_assoc] using h)
  have halarm : (a.remote && s.alarm.isSome) = false := by
    cases hr : a.remote with
    | false => rfl
    | true => rw [hport hr]; rfl
  have hcluster : (a.atCluster && s.overtaken a.locs) = false := by
    cases hi : a.inst with
    | cluster k => rw [hvault ⟨k, hi⟩, Bool.and_false]
    | device => simp [Atomic.atCluster, hi]
    | system => simp [Atomic.atCluster, hi]
  simp [State.canAtomic, ha, hheld, hbefore, halarm, hcluster]

/-- An atomic that meets a fault is held, and its result carries the fault. -/
theorem doAtomic_of_bad {q : Raised} (hq : s.atomicBad a = some q) : s.doAtomic n =
    ({ s.atomicFrom a with atomics := (s.atomicFrom a).atomics.modify n fun b => { b with held := true } }).updCtx a.ctx fun x =>
      x.fillResult a.res 0 (some (x.issuedAt a.res q)) := by
  unfold State.atomicBad at hq
  simp only [State.doAtomic, ha, hq]
  rfl

/-- An atomic that meets none leaves flight, and its result takes the old value, which arrives in this cycle at the earliest. -/
theorem doAtomic_of_good (hq : s.atomicBad a = none) : s.doAtomic n =
    ({ ((s.atomicFrom a).atomicRun a).2 with atomics := ((s.atomicFrom a).atomicRun a).2.atomics.eraseIdx n }).updCtx a.ctx fun x =>
      { x.fillResult a.res ((s.atomicFrom a).atomicRun a).1 none with
        inflight := (x.fillResult a.res ((s.atomicFrom a).atomicRun a).1 none).inflight.map fun (r : Result) =>
          if r.id == a.res && r.isVar then { r with at_ := max r.at_ (s.atomicFrom a).cycle } else r } := by
  unfold State.atomicBad at hq
  simp only [State.doAtomic, ha, hq]
  rfl

end InFlight

theorem atomicFrom_cycle (s : State) (a : Atomic) : (s.atomicFrom a).cycle = s.cycle := by
  unfold State.atomicFrom
  split <;> rfl

/-- A fault names the address that its result was issued with, where that result is still in flight (R230). -/
theorem issuedAt_eq (x : Ctx) (id : Nat) (q : Raised) : x.issuedAt id q = { q with
    faddr := (match x.inflight.find? (fun r : Result => r.id == id && r.isVar) with | some r => some r.ea | none => none).getD q.faddr } := by
  unfold Ctx.issuedAt
  cases x.inflight.find? fun r => r.id == id && r.isVar with
  | none => rfl
  | some r => rfl

end Sys2Proof.Machine

open Sys2Proof Sys2Proof.Machine

/-- Settles O28: `State.canAtomic` holds, and `State.doAtomic` has two outcomes, by what the atomic meets. -/
theorem atomicPerforms : Obligations.AtomicPerforms := by
  intro n s a ha hheld hfirst hport hvault issued u bad
  have hexec : exec (.atomicPerform n) s = .next (s.doAtomic n) := event_on (canAtomic_of ha hheld hfirst hport hvault) _
  rw [hexec]
  refine ⟨fun q hq => ?_, fun hq => ?_⟩
  · rw [doAtomic_of_bad ha hq]
    exact congrArg Host.Outcome.next (congrArg (State.updCtx _ a.ctx) (funext fun x =>
      congrArg (fun r => x.fillResult a.res 0 (some r)) (issuedAt_eq x a.res q)))
  · rw [doAtomic_of_good ha hq, atomicFrom_cycle]
    rfl

/-- Settles O29: an atomic of device scope with nothing unflushed at its bytes reads memory and commits what it writes
(`atomicRun_vault`). -/
theorem atomicChangesMemory : Obligations.AtomicChangesMemory := by
  intro s a d hm hloc hd hdev _ hu old t
  have hhome : homeDpa a.loc = some d := by rw [hloc]; exact homeDpa_of_lt hd
  have hvault (k : Nat) : a.inst ≠ .cluster k := by rw [hdev]; nofun
  exact ⟨atomicRun_fst hhome hvault hu, fun _ => atomicRun_read_of_outside hhome hvault hu, atomicRun_dram_of_none hhome hvault hu,
    fun _ => atomicRun_readN hhome hvault hu hm⟩

end

section
/-! Tagged writes that arrive (10 R175; 22 R325), O30: what an arrival does to the context of an STQ beside counting it off. -/
namespace Sys2Proof.Machine

/-- An STQ that waits for its vault no longer: its arrival counts it off, and what waits for the context's STQs counts from now. -/
theorem tagAccepted_of_stq {w : TagWrite} (hcmd : w.cmd = none) (hpeer : w.peer = none) (s : State) :
    s.tagAccepted w = s.updFor w.kernel w.ctx fun x =>
      { x with stqs := x.stqs - 1, stqBy := max x.stqBy (s.countNow w.ctx) } := by
  simp only [State.tagAccepted, hcmd, hpeer, Option.isSome_none, Bool.false_eq_true, if_false]

/-- A tagged write that may arrive, with another tag than its line's, is held from then on. -/
theorem exec_taggedWriteArrive_of_not_matches {s : State} {n : Nat} {w : TagWrite} (hw : s.tagWrites[n]? = some w)
    (hcan : s.canTag n = true) (htag : s.tagMatches w = false) :
    let t := ({ s with tagWrites := s.tagWrites.eraseIdx n }).tagAccepted w
    exec (.taggedWriteArrive n) s = .next { t with
      tagWrites := t.tagWrites ++ [{ w with held := some s.cycle, start := (s.ctxFor w.kernel w.ctx).count }] } := by
  refine (event_on hcan _).trans (congrArg Host.Outcome.next ?_)
  simp only [State.doTag, hw, htag, Bool.false_eq_true, if_false]

/-- An STQ of context 0 that expects tag 1. -/
def earlyStq : TagWrite := { tag := 1 }

/-- Context 0, at schedule count 1, has one STQ on its way, to a line whose tag is 0. -/
def withEarlyStq : State := { State.reset with ctxs := [(0, { count := 1, stqs := 1 })], tagWrites := [earlyStq] }

theorem canTag_withEarlyStq : withEarlyStq.canTag 0 = true := by decide

theorem tagMatches_withEarlyStq : withEarlyStq.tagMatches earlyStq = false := by decide

end Sys2Proof.Machine

open Sys2Proof Sys2Proof.Machine

/-- Refutes O30: the arrival of an STQ also sets the schedule count from which a release at the locked level waits for the context's STQs
(`Ctx.stqBy`, to which `State.tagAccepted` gives `State.countNow` where that is later, and from which `Claims.FlipReleaseStep` counts), and
the statement names a next state in which that count stays. In `withEarlyStq` it goes from 0 to 1. -/
theorem not_taggedWriteSteps : ¬ Obligations.TaggedWriteSteps := by
  intro h
  have hstated := ((h 0 withEarlyStq earlyStq rfl).1 rfl rfl (by decide) nofun (by decide) nofun nofun).2 tagMatches_withEarlyStq
  have hmodel := exec_taggedWriteArrive_of_not_matches rfl canTag_withEarlyStq tagMatches_withEarlyStq
  rw [tagAccepted_of_stq rfl rfl, hstated] at hmodel
  have hstqBy := congrArg (fun t : State => (t.ctx 0).stqBy) (Host.Outcome.next.inj hmodel)
  exact absurd hstqBy (by decide)

end

section
/-! The release of device scope (10 R168, R171, R185), O20: which bytes its commit writes, which may reach memory before them, and what
it leaves pending and unflushed. -/
namespace Sys2Proof.Machine

/-! ### Tables as lists of entries -/

section Entries
variable {α : Type} {d x : α} {k : Nat}

theorem get_of_mem [DecidableEq α] {t : Tab α} (h : Tab.wf d t = true) (hm : (k, x) ∈ t) : Tab.get d t k = x := by
  induction t with
  | nil => exact absurd hm List.not_mem_nil
  | cons p t ih =>
    obtain ⟨j, y⟩ := p
    obtain ⟨-, habove, ht⟩ := Tab.wf_cons.mp h
    cases List.mem_cons.mp hm with
    | inl e => obtain ⟨rfl, rfl⟩ := Prod.mk.inj e; exact if_pos rfl
    | inr hm =>
      have hj : j < k := habove _ hm
      exact (if_neg (Nat.ne_of_lt hj)).trans (ih ht hm)

theorem mem_of_get {t : Tab α} (h : Tab.get d t k = x) (hx : x ≠ d) : (k, x) ∈ t := by
  induction t with
  | nil => exact absurd h.symm hx
  | cons p t ih =>
    obtain ⟨j, y⟩ := p
    rw [Tab.get] at h
    split at h
    · next e => rw [e, h]; exact List.mem_cons_self
    · exact List.mem_cons_of_mem _ (ih h)

/-- A table of some of the numbers alone. -/
theorem get_filter (keep : Nat → Bool) (t : Tab α) :
    Tab.get d (t.filter fun p => keep p.1) k = if keep k then Tab.get d t k else d := by
  induction t with
  | nil => exact (ite_self d).symm
  | cons p t ih =>
    obtain ⟨j, y⟩ := p
    rw [List.filter_cons, Tab.get]
    by_cases e : j = k
    · subst e
      by_cases hj : keep j
      · rw [if_pos hj, if_pos hj, Tab.get, if_pos rfl, if_pos rfl]
      · rw [if_neg hj, ih, if_neg hj, if_neg hj]
    · rw [if_neg e, ← ih]
      split
      · exact if_neg e
      · rfl

/-- Numbers that a list of insertions does not name read as before. -/
theorem get_foldl_insert_of_notMem {l : List (Nat × α)} (h : ∀ p ∈ l, p.1 ≠ k) (t : Tab α) :
    Tab.get d (l.foldl (fun t p => Tab.insert t p.1 p.2) t) k = Tab.get d t k :=
  List.foldlRecOn (motive := fun u : Tab α => Tab.get d u k = Tab.get d t k) l _ rfl fun u hu p hp =>
    (Tab.get_insert u p.1 p.2 k).trans ((if_neg (h p hp).symm).trans hu)

/-- A number for which a list of insertions has one value takes it. -/
theorem get_foldl_insert_of_mem {l : List (Nat × α)} (hm : (k, x) ∈ l) (h : ∀ p ∈ l, p.1 = k → p.2 = x) (t : Tab α) :
    Tab.get d (l.foldl (fun t p => Tab.insert t p.1 p.2) t) k = x := by
  induction l generalizing t with
  | nil => exact absurd hm List.not_mem_nil
  | cons p l ih =>
    obtain ⟨hp, hl⟩ := List.forall_mem_cons.mp h
    rw [List.foldl_cons]
    by_cases hlater : ∃ y, (k, y) ∈ l
    · obtain ⟨y, hy⟩ := hlater
      obtain rfl : y = x := hl _ hy rfl
      exact ih hy hl _
    · have hrest : ∀ q ∈ l, q.1 ≠ k := fun q hq e => hlater ⟨q.2, e ▸ hq⟩
      obtain rfl : (k, x) = p := (List.mem_cons.mp hm).resolve_right fun hl => hlater ⟨x, hl⟩
      rw [get_foldl_insert_of_notMem hrest, Tab.get_insert, if_pos rfl]

theorem pairwise_insert {t : Tab α} (h : t.Pairwise fun p q => p.1 < q.1) :
    (Tab.insert t k x).Pairwise fun p q => p.1 < q.1 := by
  induction t with
  | nil => exact List.pairwise_singleton _ _
  | cons p t ih =>
    obtain ⟨j, y⟩ := p
    obtain ⟨habove, ht⟩ := List.pairwise_cons.mp h
    rw [Tab.insert]
    split
    · next hj => exact List.pairwise_cons.mpr ⟨Tab.above_insert habove hj x, ih ht⟩
    · split
      · next e => subst e; exact List.pairwise_cons.mpr ⟨habove, ht⟩
      · next hj e =>
        have hk : k < j := Nat.lt_of_le_of_ne (Nat.not_lt.mp hj) (Ne.symm e)
        refine List.pairwise_cons.mpr ⟨fun q hq => ?_, h⟩
        cases List.mem_cons.mp hq with
        | inl e => rw [e]; exact hk
        | inr hq => exact Nat.lt_trans hk (habove q hq)

end Entries

/-! ### What a commit at the vaults writes -/

theorem lastBytes_pairwise (l : List (Nat × Byte)) : (lastBytes l).Pairwise fun p q => p.1 < q.1 :=
  List.foldlRecOn (motive := fun t : Tab Byte => t.Pairwise fun p q => p.1 < q.1) l _ .nil fun _ ht _ _ => pairwise_insert ht

/-- Bytes in rising order of their locations are read where they have been written. -/
theorem read_writeAll_of_pairwise {m : Tab Byte} (hm : Memory.wf m = true) {t : Tab Byte} (ht : t.Pairwise fun p q => p.1 < q.1)
    (a : Nat) : Memory.read (Memory.writeAll m t) a = Tab.get (Memory.read m a) t a := by
  induction t generalizing m with
  | nil => rfl
  | cons p t ih =>
    obtain ⟨j, y⟩ := p
    obtain ⟨habove, ht⟩ := List.pairwise_cons.mp ht
    by_cases e : j = a
    · subst e
      have hrest : ∀ q ∈ t, q.1 ≠ j := fun q hq => (Nat.ne_of_lt (habove q hq)).symm
      rw [Memory.writeAll, Memory.read_writeAll_of_notMem _ _ hrest, Memory.read_write hm, Tab.get, if_pos rfl, if_pos rfl]
    · rw [Memory.writeAll, ih (Memory.wf_write hm j y) ht, Memory.read_write_of_ne m y (Ne.symm e), Tab.get, if_neg e]

section Commit
variable {s : State} (h : s.Canonical) {i : Inst} {a : Nat}
include h

theorem read_vaultCommit (l : List (Nat × Byte)) :
    Memory.read (s.vaultCommit i l).dram a = Tab.get (Memory.read s.dram a) (lastBytes l) a := by
  rw [vaultCommit_dram, read_writeAll_of_pairwise h.dram (lastBytes_pairwise l)]

theorem read_vaultCommit_of_notMem {l : List (Nat × Byte)} (hl : ∀ p ∈ l, p.1 ≠ a) :
    Memory.read (s.vaultCommit i l).dram a = Memory.read s.dram a := by
  rw [read_vaultCommit h]
  exact get_foldl_insert_of_notMem hl []

/-- The later bytes of a commit prevail. -/
theorem read_vaultCommit_append {l own : List (Nat × Byte)} {b : Byte} (hm : (a, b) ∈ own) (hown : ∀ p ∈ own, p.1 = a → p.2 = b) :
    Memory.read (s.vaultCommit i (l ++ own)).dram a = b := by
  rw [read_vaultCommit h, lastBytes, List.foldl_append]
  exact get_foldl_insert_of_mem hm hown _

end Commit

/-! ### What a commit overtakes -/

theorem mem_insertUnflushed {u v : Unflushed} {l : List Unflushed} : u ∈ insertUnflushed v l ↔ u = v ∨ u ∈ l := by
  induction l with
  | nil => exact List.mem_cons
  | cons w l ih =>
    rw [insertUnflushed]
    split
    · exact List.mem_cons
    · rw [List.mem_cons, ih, List.mem_cons, or_left_comm]

theorem mem_foldl_insertUnflushed {u : Unflushed} {l t : List Unflushed} :
    u ∈ l.foldl (fun t v => insertUnflushed v t) t ↔ u ∈ t ∨ u ∈ l := by
  induction l generalizing t with
  | nil => simp
  | cons v l ih => rw [List.foldl_cons, ih, mem_insertUnflushed, List.mem_cons, or_assoc, or_left_comm]

theorem loc_mem_of_mem_unflushedAt {s : State} {locs : List Nat} {u : Unflushed} (h : u ∈ s.unflushedAt locs) : u.loc ∈ locs := by
  obtain h | h := mem_foldl_insertUnflushed.mp h
  · exact absurd h List.not_mem_nil
  · obtain ⟨k, -, hu⟩ := List.mem_flatMap.mp h
    exact List.contains_iff_mem.mp (List.mem_filter.mp hu).2

theorem mem_withAccess {plied : List Unflushed} {n a : Nat} {locs : List Nat} (h : a ∈ withAccess plied n locs) :
    a ∈ locs ∨ ∃ u ∈ plied, u.loc = a := by
  induction n generalizing locs with
  | zero => exact .inl h
  | succ n ih =>
    rw [withAccess] at h
    split at h
    · exact .inl h
    · obtain h | h := ih h
      · refine (List.mem_append.mp h).imp_right fun h => ?_
        obtain ⟨u, hu, hloc⟩ := List.mem_map.mp (List.mem_eraseDups.mp h)
        exact ⟨u, (List.mem_filter.mp hu).1, hloc⟩
      · exact .inr h

/-- What is flushed with some locations is a byte of a plied access (R185). -/
theorem mem_flushSet {s : State} {a : Nat} {locs : List Nat} (h : a ∈ s.flushSet locs) :
    a ∈ locs ∨ ∃ k ∈ s.clusters, ∃ u ∈ k.2.unflushed, u.loc = a ∧ u.access ≠ 0 := by
  refine (mem_withAccess h).imp_right fun ⟨u, hu, hloc⟩ => ?_
  obtain ⟨k, hk, hu⟩ := List.mem_flatMap.mp hu
  obtain ⟨hu, haccess⟩ := List.mem_filter.mp hu
  exact ⟨k, hk, u, hu, hloc, bne_iff_ne.mp haccess⟩

theorem read_flushAt_of_notMem {s : State} (h : s.Canonical) {a : Nat} {locs : List Nat} (ha : a ∉ s.flushSet locs) :
    Memory.read (s.flushAt locs).dram a = Memory.read s.dram a := by
  rw [State.flushAt]
  split
  · rfl
  · obtain ⟨_, hdrop⟩ := dropUnflushed_eq s (s.flushSet locs)
    obtain ⟨_, _, hcarry⟩ := carryAll_eq (s.poisonedAt (s.flushSet locs)) ((s.dropUnflushed (s.flushSet locs)).vaultCommit .device
      ((s.unflushedAt (s.flushSet locs)).map fun u => (u.loc, u.byte)))
    rw [hcarry]
    dsimp only
    refine (read_vaultCommit_of_notMem (canonical_dropUnflushed h _) fun p hp e => ?_).trans (by rw [hdrop])
    obtain ⟨u, hu, rfl⟩ := List.mem_map.mp hp
    exact ha (e ▸ loc_mem_of_mem_unflushedAt hu)

/-! ### Caches that hold nothing unflushed -/

section Empty
variable {s : State} {j : Nat}

theorem unflushed_updCluster_nil (h : s.Canonical) (hs : (s.cluster j).unflushed = []) (k : Nat) {f : Cluster → Cluster}
    (hf : ∀ y, y.unflushed = [] → (f y).unflushed = []) : ((s.updCluster k f).cluster j).unflushed = [] := by
  rw [State.cluster_updCluster h.clusters]
  split
  · next e => exact hf _ (e ▸ hs)
  · exact hs

theorem unflushed_dropUnflushed_nil (h : s.Canonical) (hs : (s.cluster j).unflushed = []) (locs : List Nat) :
    ((s.dropUnflushed locs).cluster j).unflushed = [] := by
  refine (List.foldlRecOn (motive := fun t : State => t.Canonical ∧ (t.cluster j).unflushed = []) s.clusters _ ⟨h, hs⟩
    fun t ⟨ht, hj⟩ k _ => ?_).2
  dsimp only
  split
  · refine ⟨canonical_updCluster ht _ _, unflushed_updCluster_nil ht hj k.1 fun y hy => ?_⟩
    rw [hy]
    rfl
  · exact ⟨ht, hj⟩

theorem unflushed_carryPoison_nil (h : s.Canonical) (hs : (s.cluster j).unflushed = []) (k : Nat) (lines : List Nat) :
    ((s.carryPoison k lines).cluster j).unflushed = [] := by
  rw [State.carryPoison]
  dsimp only
  split
  · exact hs
  · refine unflushed_updCluster_nil ?_ ?_ k ?_
    · exact { h with }
    · exact hs
    · exact fun _ hy => hy

theorem unflushed_carryAll_nil (h : s.Canonical) (hs : (s.cluster j).unflushed = []) (l : List (Nat × List Nat)) :
    ((s.carryAll l).cluster j).unflushed = [] :=
  (List.foldlRecOn (motive := fun t : State => t.Canonical ∧ (t.cluster j).unflushed = []) l _ ⟨h, hs⟩
    fun _ ⟨ht, hj⟩ k _ => ⟨canonical_carryPoison ht _ _, unflushed_carryPoison_nil ht hj k.1 k.2⟩).2

theorem vaultCommit_cluster (s : State) (i : Inst) (l : List (Nat × Byte)) (j : Nat) : (s.vaultCommit i l).cluster j = s.cluster j := by
  obtain ⟨_, _, _, _, _, h⟩ := vaultCommit_eq s i l
  rw [h]
  rfl

theorem unflushed_flushAt_nil (h : s.Canonical) (hs : (s.cluster j).unflushed = []) (locs : List Nat) :
    ((s.flushAt locs).cluster j).unflushed = [] := by
  rw [State.flushAt]
  split
  · exact hs
  · refine unflushed_carryAll_nil (canonical_vaultCommit (canonical_dropUnflushed h _) _ _) ?_ _
    rw [vaultCommit_cluster]
    exact unflushed_dropUnflushed_nil h hs _

theorem unflushed_deviceCommit_nil (h : s.Canonical) (hs : (s.cluster j).unflushed = []) (i : Inst) (l : List (Nat × Byte)) :
    ((s.deviceCommit i l).cluster j).unflushed = [] :=
  (congrArg Cluster.unflushed (vaultCommit_cluster _ i l j)).trans (unflushed_flushAt_nil h hs _)

end Empty

/-! ### The release -/

theorem carryPoison_ctx (s : State) (k : Nat) (lines : List Nat) (c : Nat) : (s.carryPoison k lines).ctx c = s.ctx c := by
  obtain ⟨_, _, h⟩ := carryPoison_eq s k lines
  rw [h]
  rfl

theorem deviceCommit_ctx (s : State) (i : Inst) (l : List (Nat × Byte)) (c : Nat) : (s.deviceCommit i l).ctx c = s.ctx c := by
  obtain ⟨_, _, _, _, _, _, _, _, h⟩ := deviceCommit_eq s i l
  rw [h]
  rfl

theorem isGlobal_of_lt {a : Nat} (h : a < 2 ^ 63) : isGlobal a = false := decide_eq_false (Nat.not_le.mpr h)

theorem isGlobal_of_not_lt {a : Nat} (h : ¬ a < 2 ^ 63) : isGlobal a = true := decide_eq_true (Nat.not_lt.mp h)

/-- A byte of this device that a context has pending is one of those that a release below system scope commits. -/
theorem mem_pendingOf_false {x : Ctx} (h : Tab.wf none x.pending = true) {a : Nat} {b : Byte} :
    (a, b) ∈ x.pendingOf false ↔ ∃ p, Tab.get none x.pending a = some p ∧ a < 2 ^ 63 ∧ p.byte = b := by
  simp only [Ctx.pendingOf, List.mem_map, mem_foldl_insertUnflushed, List.mem_filterMap, List.not_mem_nil, false_or]
  constructor
  · rintro ⟨u, ⟨⟨k, q⟩, hq, hu⟩, hab⟩
    cases q with
    | none => cases hu
    | some p =>
      by_cases hk : k < 2 ^ 63
      · simp only [isGlobal_of_lt hk, beq_self_eq_true, if_true, Option.some.injEq] at hu
        subst hu
        obtain ⟨rfl, rfl⟩ := Prod.mk.inj hab
        exact ⟨p, get_of_mem h hq, hk, rfl⟩
      · simp [isGlobal_of_not_lt hk] at hu
  · rintro ⟨p, hp, ha, rfl⟩
    refine ⟨{ loc := a, byte := p.byte, at_ := p.at_ }, ⟨(a, some p), mem_of_get hp nofun, ?_⟩, rfl⟩
    simp [isGlobal_of_lt ha]

/-- A cluster's cache that holds nothing unflushed any more. -/
def State.emptied (s : State) (k : Nat) : State := s.updCluster k fun y => { y with unflushed := [] }

/-- What a release of device scope commits: what the context's cluster holds unflushed, then what the context has pending. -/
def State.releasedBytes (s : State) (c : Nat) : List (Nat × Byte) :=
  ((s.cluster (clusterOf (coreOf c))).unflushed.map fun u => (u.loc, u.byte)) ++ (s.ctx c).pendingOf false

/-- A context after a release of device scope: what stands at fabric-global addresses stays pending. -/
def Ctx.released (x : Ctx) : Ctx :=
  { x with
    pending := x.pending.filter fun a => isGlobal a.1
    past := x.past.filter fun a => isGlobal a.loc
    spilled := x.spilled.filter fun n => isGlobal (256 * n) }

theorem release_device (s : State) (c : Nat) : ∃ lines, s.release c .device =
    (((s.emptied (clusterOf (coreOf c))).deviceCommit .device (s.releasedBytes c)).carryPoison (clusterOf (coreOf c)) lines).updCtx c
      Ctx.released := ⟨_, rfl⟩

theorem read_release_device (s : State) (c a : Nat) : Memory.read (s.release c .device).dram a =
    Memory.read (((s.emptied (clusterOf (coreOf c))).flushAt ((s.releasedBytes c).map Prod.fst)).vaultCommit .device
      (s.releasedBytes c)).dram a := by
  obtain ⟨lines, hrelease⟩ := release_device s c
  obtain ⟨_, _, hcarry⟩ := carryPoison_eq ((s.emptied (clusterOf (coreOf c))).deviceCommit .device (s.releasedBytes c))
    (clusterOf (coreOf c)) lines
  rw [hrelease, hcarry]
  rfl

section Release
variable {s : State} (h : s.Canonical) {c : Nat}
include h

theorem canonical_emptied (k : Nat) : (s.emptied k).Canonical := canonical_updCluster h k _

/-- What the caches hold once one of them has been emptied. -/
theorem mem_clusters_emptied {k : Nat} {q : Nat × Cluster} (hq : q ∈ (s.emptied k).clusters) {u : Unflushed}
    (hu : u ∈ q.2.unflushed) : u ∈ (s.cluster q.1).unflushed := by
  have hcluster : (s.emptied k).cluster q.1 = q.2 := get_of_mem (canonical_emptied h k).clusters hq
  rw [← hcluster, State.emptied, State.cluster_updCluster h.clusters] at hu
  split at hu
  · exact absurd hu List.not_mem_nil
  · exact hu

/-- A pending byte of this device stands in memory after the release. -/
theorem read_release_of_pending (hp : Tab.wf none (s.ctx c).pending = true) {a : Nat} {p : Pend}
    (ha : Tab.get none (s.ctx c).pending a = some p) (hhome : a < 2 ^ 63) :
    Memory.read (s.release c .device).dram a = p.byte := by
  rw [read_release_device, State.releasedBytes]
  refine read_vaultCommit_append (canonical_flushAt (canonical_emptied h _) _) ((mem_pendingOf_false hp).mpr ⟨p, ha, hhome, rfl⟩) ?_
  rintro ⟨a', b⟩ hb rfl
  obtain ⟨q, hq, -, rfl⟩ := (mem_pendingOf_false hp).mp hb
  exact congrArg Pend.byte (Option.some.inj (hq.symm.trans ha))

/-- A byte that is not committed, and that no plied access takes to memory with those that are, stays. -/
theorem read_release_of_notMem (hp : Tab.wf none (s.ctx c).pending = true) {a : Nat}
    (ha : Tab.get none (s.ctx c).pending a = none) (hown : ∀ u ∈ (s.cluster (clusterOf (coreOf c))).unflushed, u.loc ≠ a)
    (hplied : ∀ k, ∀ u ∈ (s.cluster k).unflushed, u.loc = a → u.access = 0) :
    Memory.read (s.release c .device).dram a = Memory.read s.dram a := by
  have hbytes : ∀ p ∈ s.releasedBytes c, p.1 ≠ a := by
    intro p hm
    obtain hm | hm := List.mem_append.mp hm
    · obtain ⟨u, hu, rfl⟩ := List.mem_map.mp hm
      exact hown u hu
    · rintro rfl
      obtain ⟨q, hq, -⟩ := (mem_pendingOf_false hp).mp hm
      exact nomatch ha.symm.trans hq
  have hflush : a ∉ (s.emptied (clusterOf (coreOf c))).flushSet ((s.releasedBytes c).map Prod.fst) := by
    intro hm
    obtain hm | ⟨k, hk, u, hu, hloc, haccess⟩ := mem_flushSet hm
    · obtain ⟨p, hm, e⟩ := List.mem_map.mp hm
      exact hbytes p hm e
    · exact haccess (hplied k.1 u (mem_clusters_emptied h hk hu) hloc)
  have hempty := canonical_emptied h (clusterOf (coreOf c))
  rw [read_release_device, read_vaultCommit_of_notMem (canonical_flushAt hempty _) hbytes, read_flushAt_of_notMem hempty hflush]
  rfl

theorem ctx_release_device : (s.release c .device).ctx c = (s.ctx c).released := by
  obtain ⟨lines, hrelease⟩ := release_device s c
  have hcanonical := canonical_carryPoison (canonical_deviceCommit (canonical_emptied h (clusterOf (coreOf c))) .device
    (s.releasedBytes c)) (clusterOf (coreOf c)) lines
  rw [hrelease, State.ctx_updCtx hcanonical.ctxs, if_pos rfl, carryPoison_ctx, deviceCommit_ctx]
  rfl

theorem unflushed_release_device : ((s.release c .device).cluster (clusterOf (coreOf c))).unflushed = [] := by
  obtain ⟨lines, hrelease⟩ := release_device s c
  have hempty := canonical_emptied h (clusterOf (coreOf c))
  have hnil : ((s.emptied (clusterOf (coreOf c))).cluster (clusterOf (coreOf c))).unflushed = [] := by
    rw [State.emptied, State.cluster_updCluster h.clusters, if_pos rfl]
  rw [hrelease, State.updCtx_cluster]
  exact unflushed_carryPoison_nil (canonical_deviceCommit hempty _ _) (unflushed_deviceCommit_nil hempty hnil _ _) _ _

end Release

theorem get_released_pending (x : Ctx) (a : Nat) :
    Tab.get none x.released.pending a = if a < 2 ^ 63 then none else Tab.get none x.pending a := by
  rw [Ctx.released, get_filter isGlobal]
  by_cases ha : a < 2 ^ 63
  · rw [isGlobal_of_lt ha, if_pos ha]; rfl
  · rw [isGlobal_of_not_lt ha, if_neg ha]; rfl

end Sys2Proof.Machine

open Sys2Proof Sys2Proof.Machine

/-- Settles O20: the release commits `State.releasedBytes` at the vaults, the context's own last, once `State.flushAt` has written what
the commit overtakes. -/
theorem deviceReleaseCommits : Obligations.DeviceReleaseCommits := by
  intro c s h hp t
  refine ⟨fun a p => read_release_of_pending h hp, fun a => read_release_of_notMem h hp, fun a => ?_, unflushed_release_device h⟩
  rw [ctx_release_device h, get_released_pending]

end

section
/-! Engine commands that enter flight (12 R190, R191, R202), O16. -/
namespace Sys2Proof.Machine

/-! ### The header (R190) -/

/-- A word is its upper part shifted and its lower part. -/
theorem toNat_append_eq_add {m n : Nat} (x : BitVec m) (y : BitVec n) : (x ++ y).toNat = x.toNat * 2 ^ n + y.toNat := by
  rw [BitVec.toNat_append, ← Nat.shiftLeft_add_eq_or_of_lt y.isLt, Nat.shiftLeft_eq]

theorem ite_eq_toNat_mul (t : Bool) (n : Nat) : (if t then n else 0) = t.toNat * n := by
  cases t <;> simp

section Header
variable (cv ev : Bool) (evc : BitVec 8)

theorem headerOf_ecopy (hv : Bool) (nl : BitVec 3) (z : BitVec 2) :
    headerOf cv ev ((if hv then 2 ^ 13 else 0) + nl.toNat * 2 ^ 10 + z.toNat * 2 ^ 8) evc.toNat =
      (BitVec.ofBool cv ++ BitVec.ofBool ev ++ BitVec.ofBool hv ++ nl ++ z ++ evc).toNat := by
  simp only [headerOf, ite_eq_toNat_mul, toNat_append_eq_add, BitVec.toNat_ofBool]
  omega

/-- An EGATHER's header is an ECOPY's with no level, X standing for H. -/
theorem headerOf_egather (x : Bool) (z : BitVec 2) :
    headerOf cv ev ((if x then 2 ^ 13 else 0) + z.toNat * 2 ^ 8) evc.toNat =
      (BitVec.ofBool cv ++ BitVec.ofBool ev ++ BitVec.ofBool x ++ (0 : BitVec 3) ++ z ++ evc).toNat := by
  have h := headerOf_ecopy cv ev evc x 0 z
  rwa [BitVec.ofNat_eq_ofNat, BitVec.toNat_ofNat, Nat.zero_mod, Nat.zero_mul, Nat.add_zero] at h

theorem headerOf_ereduce (rop fmt : BitVec 2) :
    headerOf cv ev (rop.toNat * 2 ^ 12 + fmt.toNat * 2 ^ 10) evc.toNat =
      (BitVec.ofBool cv ++ BitVec.ofBool ev ++ rop ++ fmt ++ (0 : BitVec 2) ++ evc).toNat := by
  simp only [headerOf, ite_eq_toNat_mul, toNat_append_eq_add, BitVec.toNat_ofBool, BitVec.ofNat_eq_ofNat, BitVec.toNat_ofNat]
  omega

theorem headerOf_epage (dir : Bool) (k slot : BitVec 2) (dict : Bool) :
    headerOf cv ev ((if dir then 2 ^ 13 else 0) + k.toNat * 2 ^ 11 + slot.toNat * 2 ^ 9 + if dict then 2 ^ 8 else 0) evc.toNat =
      (BitVec.ofBool cv ++ BitVec.ofBool ev ++ BitVec.ofBool dir ++ k ++ slot ++ BitVec.ofBool dict ++ evc).toNat := by
  simp only [headerOf, ite_eq_toNat_mul, toNat_append_eq_add, BitVec.toNat_ofBool]
  omega

theorem headerOf_edict (slot : BitVec 2) : headerOf cv ev (slot.toNat * 2 ^ 9) evc.toNat =
    (BitVec.ofBool cv ++ BitVec.ofBool ev ++ (0 : BitVec 3) ++ slot ++ (0 : BitVec 1) ++ evc).toNat := by
  simp only [headerOf, ite_eq_toNat_mul, toNat_append_eq_add, BitVec.toNat_ofBool, BitVec.ofNat_eq_ofNat, BitVec.toNat_ofNat]
  omega

/-- ESZ of R190. -/
theorem eszCode_eq (z : ESize) :
    eszCode z = (match z with | .b8 => 0 | .b16 => 1 | .b32 => 2 | .b64 => 3 : BitVec 2).toNat := by
  cases z <;> rfl

end Header

/-! ### What enters flight (R191, R202) -/

/-- A command enters flight; at the locked level it takes its engine until its last chunk. -/
def State.withCommand (s : State) (engine : Nat) (e : EngCmd) : State :=
  { (if s.cur.level = 2 then s.updCurCore fun c => { c with
      engNext := Tab.set 0 c.engNext engine (e.nextAt + (s.engTiming e).2 * e.chunks) } else s) with
    serial := s.serial + 1, fresh := s.fresh + 1, engines := s.engines ++ [e] }

theorem withCommand_locked {s : State} (h : s.cur.level = 2) (engine : Nat) (e : EngCmd) : s.withCommand engine e =
    { s.updCurCore (fun c => { c with
        engNext := Tab.set 0 c.engNext engine (e.nextAt + (s.engTiming e).2 * e.chunks) }) with
      serial := s.serial + 1, fresh := s.fresh + 1, engines := s.engines ++ [e] } := by
  unfold State.withCommand
  rw [if_pos h]

theorem withCommand_unlocked {s : State} (h : s.cur.level ≠ 2) (engine : Nat) (e : EngCmd) :
    s.withCommand engine e = { s with serial := s.serial + 1, fresh := s.fresh + 1, engines := s.engines ++ [e] } := by
  unfold State.withCommand
  rw [if_neg h]

theorem withCommand_raised (s : State) (engine : Nat) (e : EngCmd) : (s.withCommand engine e).slot.raised = s.slot.raised := by
  by_cases h : s.cur.level = 2
  · rw [withCommand_locked h]; rfl
  · rw [withCommand_unlocked h]

/-- What a command holds as it enters flight from the slot: what it has from the syllable, from the context and its kernel, none of its
chunks yet performed, and the cycle of the first. -/
def State.Commands (s : State) (op engine : Nat) (b : BitVec 5) (cmdh : Nat) (e : EngCmd) : Prop :=
  e.id = s.serial + 1 ∧ e.op = op ∧ e.cmdh = cmdh ∧
  e.stage = (List.range 8).map (fun n => s.cur.readE (b.toNat + n)) ∧ e.vpin = s.cur.vpin ∧ e.ctx = s.slot.ctx ∧
  e.part = s.cur.part ∧ e.kernel = s.cur.share.kernel ∧ e.level = s.cur.level ∧ e.issued = s.cycle ∧ e.chunk = 0 ∧
  e.err = 0 ∧ e.copy = none ∧ e.orphan = false ∧ e.behind = [] ∧ e.late = none ∧ e.tag = s.kernelTag s.cur.share.kernel ∧
  e.nextAt = max (s.cycle + (s.engTiming e).1) (Tab.get 0 s.curCore.engNext engine)

/-- The effect of class 10. The command is the model's own; L, P and its number of chunks, which the model takes before it sets the cycle
of the first, do not depend on that cycle. -/
theorem engineBody_eq (op : Nat) (b : BitVec 5) (cmdh : Nat) (s : State) :
    ∃ e, engineBody op b cmdh s = s.withCommand (engineOf op) e ∧ s.Commands op (engineOf op) b cmdh e := by
  generalize h : engineBody op b cmdh s = t
  unfold engineBody at h
  extract_lets _ x _ _ e first at h
  refine ⟨{ e with nextAt := max (s.cycle + (s.engTiming e).1) first }, ?_,
    rfl, rfl, rfl, rfl, rfl, rfl, rfl, rfl, rfl, rfl, rfl, rfl, rfl, rfl, rfl, rfl, rfl, rfl⟩
  rw [← h]
  by_cases hl : x.level = 2
  · rw [withCommand_locked hl]
    simp only [hl, ne_eq, not_true, if_false]
    rfl
  · rw [withCommand_unlocked hl]
    simp only [hl, ne_eq, not_false_eq_true, if_true]

/-- A syllable of class 10 that reads no port and issues normally has that effect alone. -/
theorem exec_command {i : Instr} {s : State} {op n : Nat} {b : BitVec 5} {cmdh : BitVec 16} (h : Normal i s)
    (hp : portsOf i s.slot.lend = []) (hi : exec i s = perform i s (engineBody op b n)) (hn : n = cmdh.toNat) :
    ∃ e, exec i s = .next (s.withCommand (engineOf op) e) ∧ s.Commands op (engineOf op) b cmdh.toNat e := by
  obtain ⟨e, hbody, he⟩ := engineBody_eq op b n s
  have hraised : (engineBody op b n s).slot.raised = s.slot.raised := by rw [hbody, withCommand_raised]
  exact ⟨e, by rw [hi, perform_quiet h hp hraised, hbody], hn ▸ he⟩

end Sys2Proof.Machine

open Sys2Proof Sys2Proof.Machine

/-- Settles O16: no syllable of class 10 reads a port, so it does what `engineBody` does (`engineBody_eq`), with the header that its
fields make (R190). -/
theorem engineCommandsEnterFlight : Obligations.EngineCommandsEnterFlight := by
  intro g b cv ev x hv dir dict nl z rop fmt k slot evc s
  refine ⟨fun h => exec_command h (ports_scalar h.1 nofun nofun nofun nofun) rfl ?_,
    fun h => exec_command h (ports_scalar h.1 nofun nofun nofun nofun) rfl ?_,
    fun h => exec_command h (ports_scalar h.1 nofun nofun nofun nofun) rfl (headerOf_ereduce cv ev evc rop fmt),
    fun h => exec_command h (ports_scalar h.1 nofun nofun nofun nofun) rfl (headerOf_epage cv ev evc dir k slot dict),
    fun h => exec_command h (ports_scalar h.1 nofun nofun nofun nofun) rfl (headerOf_edict cv ev evc slot)⟩
  · rw [eszCode_eq]; exact headerOf_ecopy cv ev evc hv nl _
  · rw [eszCode_eq]; exact headerOf_egather cv ev evc x _
end

section
/-! The chunks of engine commands in flight (12 R193 to R203; 09 R161, R164), O32. -/
namespace Sys2Proof.Machine

/-! ### Which chunk is dealt with, and how -/

theorem EngCmd.keepBack_eq (e : EngCmd) (k : Nat) :
    e.keepBack k = if k ∈ e.behind then e else { e with behind := e.behind ++ [k], chunk := e.chunk + 1 } := by
  simp only [EngCmd.keepBack, List.contains_iff_mem]

/-- R193, R194, R203: what a chunk must not overtake. -/
theorem overtakes_iff {s : State} {e : EngCmd} {k : Nat} : s.overtakes e k = true ↔
    ∃ j ∈ e.behind, j < k ∧ (e.away s.devId = true ∨ ∃ a ∈ s.targetBytes e j, a ∈ s.targetBytes e k) := by
  simp only [State.overtakes, Bool.and_eq_true, Bool.or_eq_true, List.any_eq_true, List.contains_iff_mem, decide_eq_true_eq]
  constructor
  · rintro ⟨⟨j, hj, hlt⟩, haway | ⟨i, hi, hilt, hshared⟩⟩
    · exact ⟨j, hj, hlt, .inl haway⟩
    · exact ⟨i, hi, hilt, .inr hshared⟩
  · rintro ⟨j, hj, hlt, haway | hshared⟩
    · exact ⟨⟨j, hj, hlt⟩, .inl haway⟩
    · exact ⟨⟨j, hj, hlt⟩, .inr ⟨j, hj, hlt, hshared⟩⟩

section Chunk
variable {s : State} {n k : Nat} {e : EngCmd} (he : s.engines[n]? = some e) (hc : s.canChunk n = true) (hk : s.nextChunk e = some k)
include he hc hk

/-- Behind a chunk that it must not overtake, a chunk is kept back. -/
theorem exec_engineChunkPerform_overtakes (ho : s.overtakes e k = true) :
    exec (.engineChunkPerform n) s = .next (s.updEngine e.id fun f => f.keepBack k) := by
  refine (event_on hc _).trans (congrArg Host.Outcome.next ?_)
  simp only [State.doChunk, he, hk, ho, if_true]

/-- A chunk whose page no TLB holds: it is delayed at the locked level, and kept back below it. -/
theorem exec_engineChunkPerform_misses (ho : s.overtakes e k = false) {key : PageKey} (hm : s.chunkMiss e k = some key) :
    exec (.engineChunkPerform n) s = .next (if e.level = 2 then s.engDelay e else s.engMiss e k key) := by
  refine (event_on hc _).trans (congrArg Host.Outcome.next ?_)
  simp only [State.doChunk, he, hk, ho, hm, Bool.false_eq_true, if_false]

/-- A chunk whose pages are at hand and that has not been delayed for them performs. -/
theorem exec_engineChunkPerform_performs (ho : s.overtakes e k = false) (hm : s.chunkMiss e k = none)
    (hl : e.level ≠ 2 ∨ e.late ≠ some k) :
    exec (.engineChunkPerform n) s = .next (s.performChunk { e with chunk := k }) := by
  have hfill : (decide (e.level = 2) && e.late == some k) = false := by
    rcases hl with h | h <;> simp [h]
  refine (event_on hc _).trans (congrArg Host.Outcome.next ?_)
  simp only [State.doChunk, he, hk, ho, hm, hfill, Bool.false_eq_true, if_false]

end Chunk

/-! ### A chunk that performs -/

/-- The command counts its chunk. -/
def State.chunkCounted (s : State) (e : EngCmd) (t : State) : State :=
  t.updEngine e.id fun f => f.stepped e.chunk (s.engTiming e).2

/-- What a chunk of the shuttle or the reed does: it writes, its tagged lines leave, an error ends the command, and it counts. -/
def State.chunkMoved (s : State) (e : EngCmd) (r : ChunkOut) : State :=
  let t := ({ s with fresh := s.fresh + 1 }.engCommit e.kernel r.out).updEngine e.id fun f =>
    { f with tagged := f.tagged + r.tags.length, rows := s.keptRows e }
  s.chunkCounted e (({ t with tagWrites := t.tagWrites ++ r.tags }).engStopped e r.stop)

section Perform
variable {s : State} {e : EngCmd}

theorem performChunk_ecopy (h : e.op = 0) : s.performChunk e = s.chunkMoved e (s.ecopyChunk e) := by
  simp only [State.performChunk, State.runChunk, h]; rfl

theorem performChunk_egather (h : e.op = 1) : s.performChunk e = s.chunkMoved e (s.egatherChunk e) := by
  simp only [State.performChunk, State.runChunk, h]; rfl

theorem performChunk_ereduce (h : e.op = 2) : s.performChunk e = s.chunkMoved e (s.ereduceChunk e) := by
  simp only [State.performChunk, State.runChunk, h]; rfl

theorem performChunk_epage (h : e.op = 3) : s.performChunk e =
    s.chunkCounted e ((({ s.engCommit e.kernel (s.epageRun e).out with fresh := s.fresh + e.st 3 % 2 ^ 32 + 1 }).engStopped e
      (s.epageRun e).stop).pageRecord e (s.epageRun e)) := by
  simp only [State.performChunk, h, State.chunkCounted]

theorem performChunk_edict (h : e.op = 4) {b : List Byte} (hb : s.edictRun e = .ok b) :
    s.performChunk e = s.chunkCounted e (s.pendDict e (some b)) := by
  simp only [State.performChunk, h, hb]; rfl

theorem performChunk_edict_error (h : e.op = 4) {x : EngStop} (hx : s.edictRun e = .error x) :
    s.performChunk e = s.chunkCounted e ((s.pendDict e none).engStopped e (some x)) := by
  simp only [State.performChunk, h, hx]; rfl

end Perform

/-- R193 to R196, R198, R202: the effect of a chunk by its command's operation. -/
theorem claims_engineChunkPerforms : Claims.EngineChunkPerforms := by
  intro n k s e he hc hk ho hm hl f
  have hexec {t : State} (ht : s.performChunk f = t) : exec (.engineChunkPerform n) s = .next t :=
    ht ▸ exec_engineChunkPerform_performs he hc hk ho hm hl
  exact ⟨fun h => hexec (performChunk_ecopy h), fun h => hexec (performChunk_egather h), fun h => hexec (performChunk_ereduce h),
    fun h => hexec (performChunk_epage h),
    fun h => ⟨fun b hb => hexec (performChunk_edict (e := f) h hb), fun x hx => hexec (performChunk_edict_error (e := f) h hx)⟩⟩

/-! ### A chunk whose page no TLB holds -/

section Miss
variable {s : State} {e : EngCmd} {k : Nat} {key : PageKey}

/-- The command whose chunk is kept back keeps it once, and goes on to the next. -/
theorem updEngine_keepBack_engines : (s.updEngine e.id fun f => f.keepBack k).engines =
    s.engines.map fun f => if f.id = e.id ∧ k ∉ f.behind then { f with behind := f.behind ++ [k], chunk := f.chunk + 1 } else f := by
  refine List.map_congr_left fun f _ => ?_
  by_cases hid : f.id = e.id <;> by_cases hb : k ∈ f.behind <;> simp [EngCmd.keepBack_eq, hid, hb]

/-- R161: the chunk is kept back, and the walk of its page is asked for where the command does not wait for it yet. -/
theorem engMiss_eq : s.engMiss e k key = { s.updEngine e.id (fun f => f.keepBack k) with
    walksWaiting := if s.engWalking e key then s.walksWaiting else s.walksWaiting ++ [{
      who := .engine e.id, cluster := e.cluster, core := e.core, part := key.part, va := key.va, region := key.region
      since := s.cycle, start := (s.ctxFor e.kernel e.ctx).count }] } := by
  unfold State.engMiss
  cases s.engWalking e key <;> rfl

end Miss

/-- A deviation record is written, or dropped, by changes of its core, device commits and free bytes alone. -/
theorem putRecord_keeps {α : Type} {f : State → α} (hcore : ∀ s c g, f (s.updCore c g) = f s)
    (hcommit : ∀ s i l, f (s.deviceCommit i l) = f s) (hfresh : ∀ (s : State) m, f { s with fresh := m } = f s)
    (s : State) (core ctx : Nat) (d : Dev) : f (s.putRecord core ctx d) = f s := by
  have hring : ∀ (t : State) b, f (t.ringWrite core b) = f t := fun t b => by
    rw [State.ringWrite, hcore, hcommit]
  have hdrop : ∀ t : State, f (t.dropRecord core) = f t := fun t => hcore t _ _
  have hlost : ∀ t : State, f (t.lostRecord core) = f t := fun t => by
    rw [State.lostRecord, hcore, hring, hfresh]
  unfold State.putRecord
  dsimp only
  split
  · rfl
  · split
    · exact hdrop s
    · split
      · exact hring s _
      · split
        · rw [hdrop, hlost]
        · rw [hring, hlost]

theorem deviceCommit_engines (s : State) (i : Inst) (l : List (Nat × Byte)) : (s.deviceCommit i l).engines = s.engines := by
  obtain ⟨_, _, _, _, _, _, _, _, h⟩ := deviceCommit_eq s i l
  rw [h]

theorem deviceCommit_tagWrites (s : State) (i : Inst) (l : List (Nat × Byte)) : (s.deviceCommit i l).tagWrites = s.tagWrites := by
  obtain ⟨_, _, _, _, _, _, _, _, h⟩ := deviceCommit_eq s i l
  rw [h]

theorem putRecord_engines (s : State) (core ctx : Nat) (d : Dev) : (s.putRecord core ctx d).engines = s.engines :=
  putRecord_keeps (f := State.engines) (fun _ _ _ => rfl) deviceCommit_engines (fun _ _ => rfl) s core ctx d

theorem putRecord_tagWrites (s : State) (core ctx : Nat) (d : Dev) : (s.putRecord core ctx d).tagWrites = s.tagWrites :=
  putRecord_keeps (f := State.tagWrites) (fun _ _ _ => rfl) deviceCommit_tagWrites (fun _ _ => rfl) s core ctx d

/-- R202: a command that is not later than `e` keeps its place. -/
theorem mem_restream {s : State} {e f : EngCmd} {l : List EngCmd} (hm : f ∈ l) (hf : ¬ e.id < f.id) (u : Nat) :
    f ∈ (s.restream e u l).1 := by
  induction l generalizing u with
  | nil => exact hm
  | cons g l ih =>
    rcases List.mem_cons.mp hm with rfl | hm
    · simp [State.restream, hf]
    · unfold State.restream
      split
      · exact List.mem_cons_of_mem _ (ih hm _)
      · exact List.mem_cons_of_mem _ (ih hm _)

theorem mem_updEngine {s : State} {e : EngCmd} (h : e ∈ s.engines) (f : EngCmd → EngCmd) : f e ∈ (s.updEngine e.id f).engines :=
  List.mem_map.mpr ⟨e, h, if_pos (beq_self_eq_true _)⟩

theorem engDelay_tagWrites (s : State) (e : EngCmd) : (s.engDelay e).tagWrites = s.tagWrites :=
  putRecord_tagWrites s _ _ _

/-- R164: the command that a page delays stays in flight, 640 cycles later. -/
theorem mem_engDelay {s : State} {e : EngCmd} (h : e ∈ s.engines) :
    { e with nextAt := e.nextAt + 640, late := some e.chunk } ∈ (s.engDelay e).engines := by
  have hrecord := fun d => (putRecord_engines s e.core (e.ctx % 2) d).symm ▸ h
  exact mem_restream (mem_updEngine (hrecord _) fun f => { f with nextAt := f.nextAt + 640, late := some f.chunk })
    (Nat.lt_irrefl e.id) _

/-- R161, R164: the two ways in which a page that is not at hand holds a chunk up. -/
theorem claims_engineChunkMisses : Claims.EngineChunkMisses := by
  intro n k s e key he hc hk hm
  refine ⟨fun ho hl => ?_, fun ho hl => ?_⟩
  · have hexec := exec_engineChunkPerform_misses he hc hk ho hm
    rw [if_neg hl, engMiss_eq] at hexec
    exact ⟨_, hexec, updEngine_keepBack_engines, rfl, rfl, rfl⟩
  · have hexec := exec_engineChunkPerform_misses he hc hk ho hm
    rw [if_pos hl] at hexec
    exact ⟨_, hexec, engDelay_tagWrites s e, mem_engDelay (List.mem_of_getElem? he)⟩

/-- R193, R194, R203: a chunk waits for those before it that are kept back, as `overtakes_iff` says. -/
theorem claims_engineChunkOrder : Claims.EngineChunkOrder := by
  intro n k s e he hc hk
  refine ⟨overtakes_iff, fun ho => ?_⟩
  simpa only [EngCmd.keepBack_eq] using exec_engineChunkPerform_overtakes he hc hk ho

end Sys2Proof.Machine

open Sys2Proof Sys2Proof.Machine

/-- Settles O32: a chunk that comes to its turn is kept back behind another, misses a page or performs (`State.doChunk`), and each of
these is one of the claims. -/
theorem engineSteps : Obligations.EngineSteps :=
  ⟨claims_engineChunkPerforms, claims_engineChunkMisses, claims_engineChunkOrder⟩

end

section
/-! The end of an engine command (12 R199, R200; 03 R43, R56; 18 R242), O60. -/
namespace Sys2Proof.Machine

/-! ### When a command completes -/

/-- Nothing of a command is left to do: its chunks and tagged lines have performed, and without a chunk it has waited for its cycle at the
locked level. -/
def State.Ended (s : State) (e : EngCmd) : Prop :=
  e.chunks ≤ e.chunk ∧ e.behind = [] ∧ e.tagged = 0 ∧ (e.level ≠ 2 ∨ e.chunks ≠ 0 ∨ e.nextAt ≤ s.cycle)

theorem canComplete_iff {s : State} {n : Nat} {e : EngCmd} (he : s.engines[n]? = some e) (hcopy : e.copy = none) :
    s.canComplete n = true ↔ e.err ≠ 0 ∨ s.Ended e := by
  simp [State.canComplete, he, hcopy, EngCmd.performed, State.Ended, and_assoc, or_assoc]

/-! ### What completion does -/

/-- The command leaves flight, with the record of its wait for walks and what was kept for it; an EDICT's dictionary counts as loaded. -/
def State.withoutCommand (s : State) (e : EngCmd) : State :=
  let rest := s.engines.filter fun f => f.id != e.id
  let t := { s.endWait e with
    engines := rest, walksWaiting := s.walksWaiting.filter fun w => w.who != .engine e.id
    saved := s.saved.filter fun v => (s.kernel v.kernel).isSome || rest.any fun f => f.kernel == v.kernel && f.copy.isNone }
  if e.op = 4 then t.updCluster e.cluster fun k =>
    { k with dict := Tab.upd {} k.dict (bits e.cmdh 10 9) fun d => { d with loaded := some s.cycle } } else t

/-- R200: below the locked level and with EV, the event counter or the page-arrival set of a command counts it. -/
def State.countCommand (s : State) (e : EngCmd) : State :=
  if e.level ≠ 2 ∧ bitAt e.cmdh 14 then
    if e.op = 3 ∧ bitAt e.cmdh 13 then s.arrive e.part (e.cmdh % 64) else s.countUp e.part (e.cmdh % 256) 1
  else s

section Leave
variable {s : State} {n : Nat} {e : EngCmd} (he : s.engines[n]? = some e)
include he

/-- With an error, the completion word goes to the owner, and to the trailer of a dump that waits. -/
theorem doComplete_error (herr : e.err ≠ 0) :
    s.doComplete n = ((s.withoutCommand e).engineTrailer e).notify evEngine e.part e.core e.tag [e.word] := by
  simp only [State.doComplete, he, herr, ne_eq, not_false_eq_true, if_true]; rfl

/-- Without an error, what it counts and, at the elastic level with CI and its kernel alive, the interrupt of its context. -/
theorem doComplete_ended (herr : e.err = 0) : s.doComplete n =
    if e.level = 0 ∧ bitAt e.cmdh 15 = true ∧ e.orphan = false then
      ((s.withoutCommand e).countCommand e).updFor e.kernel e.ctx fun x => { x with irq := x.irq ++ [e.word] }
    else (s.withoutCommand e).countCommand e := by
  simp only [State.doComplete, he, herr, ne_eq, not_true, if_false, Bool.and_eq_true, bne_iff_ne, decide_eq_true_eq,
    Bool.not_eq_true', and_assoc]
  rfl

end Leave

/-- A command that may complete does. -/
theorem exec_engineComplete {s t : State} {n : Nat} {e : EngCmd} (he : s.engines[n]? = some e) (hcopy : e.copy = none)
    (h : e.err ≠ 0 ∨ s.Ended e) (ht : s.doComplete n = t) : exec (.engineComplete n) s = .next t :=
  ht ▸ event_on ((canComplete_iff he hcopy).mpr h) _

end Sys2Proof.Machine

open Sys2Proof Sys2Proof.Machine

/-- Settles O60: a command completes with its error, or once it has ended; what it counts and the interrupt of its context are what
`doComplete_ended` says. -/
theorem engineCompletion : Obligations.EngineCompletion := by
  intro n s e he hcopy rest t₀ t₁ t ends count
  refine ⟨fun herr => ?_, fun herr hends hno => ?_, fun herr hends hl hci hlive => ?_⟩
  · exact exec_engineComplete he hcopy (.inl herr) (doComplete_error he herr)
  · have hquiet : ¬ (e.level = 0 ∧ bitAt e.cmdh 15 = true ∧ e.orphan = false) := by
      rintro ⟨hl, hci, hlive⟩
      simp [hl, hci, hlive] at hno
    exact exec_engineComplete he hcopy (.inr hends) ((doComplete_ended he herr).trans (if_neg hquiet))
  · exact exec_engineComplete he hcopy (.inr hends) ((doComplete_ended he herr).trans (if_pos ⟨hl, hci, hlive⟩))

end

section
/-! The versions and ports of class 11 (14 R213 to R215; 21 R310; 22 R332, R333), O59. -/
namespace Sys2Proof.Machine

/-! ### Requests of VERSW and VERPUB -/

theorem exec_versw (g : BitVec 3) (s : State) : exec (.versw g) s = perform (.versw g) s (verswBody none) := rfl

theorem exec_verswNamed (g : BitVec 3) (src : BitVec 6) (s : State) : exec (.verswNamed g src) s =
    perform (.verswNamed g src) s fun t => verswBody (some ((t.cur.readS src.toNat).toNat % 2 ^ 16)) t := rfl

theorem exec_verpub (g : BitVec 3) (d : BitVec 6) (s : State) :
    exec (.verpub g d) s = perform (.verpub g d) s (verpubBody d) := rfl

/-- With room for its result, a request leaves beside it. -/
theorem versionRequest_of_post {s : State} {pub : Bool} {named : Option Nat} {r q : Result}
    (h : s.post [{ r with isVar := true, ready := false }] = s.withResults [q]) : versionRequest pub named r s =
      { s.withResults [q] with
        verReqs := s.verReqs ++ [{ ctx := s.slot.ctx, pub, named, res := s.cur.seq * 64 + s.slot.pos * 4, issued := s.cycle }] } := by
  rw [versionRequest, h, withResults_slot]
  exact if_pos rfl

/-- A syllable that reads no port and sends a request does nothing else. -/
theorem perform_request {i : Instr} {s : State} (h : Normal i s) (hp : portsOf i s.slot.lend = []) {body : State → State} {pub : Bool}
    {named : Option Nat} {r q : Result} (hb : body s = versionRequest pub named r s)
    (hpost : s.post [{ r with isVar := true, ready := false }] = s.withResults [q]) : perform i s body = .next { s.withResults [q] with
      verReqs := s.verReqs ++ [{ ctx := s.slot.ctx, pub, named, res := s.cur.seq * 64 + s.slot.pos * 4, issued := s.cycle }] } := by
  rw [versionRequest_of_post hpost] at hb
  rw [perform_quiet h hp (by rw [hb]; rfl), hb]

theorem claims_versionRequests : Claims.VersionRequests := by
  intro g d s run pin
  have hpin (hr : s.Room 1) : s.post [{ csrResult s csrVpin 0 latAtomDevice with isVar := true, ready := false }] =
      s.withResults [{ pin with isVar := true, ready := false }] := post_one hr _
  refine ⟨fun h hr => ?_, fun h hr => ?_, fun h hr => ?_⟩
  · exact (exec_versw g s).trans (perform_request h (ports_scalar h.1 nofun nofun nofun nofun) rfl (hpin hr))
  · exact (exec_verswNamed g d s).trans (perform_request h (ports_scalar h.1 nofun nofun nofun nofun) rfl (hpin hr))
  · refine (exec_verpub g d s).trans (perform_request h (ports_scalar h.1 nofun nofun nofun nofun) rfl ?_)
    rw [destFile_scalar]
    exact post_one hr _

/-! ### The walks that QARM arms (R310) -/

/-- The walk that eight staging registers describe. -/
def walkDescribed (e : Nat → Nat) : Walker :=
  { armed := true, glob := bitAt (e 0) 63, nl := bits (e 0) 62 60, clog := bits (e 0) 59 56, opw := bits (e 0) 55 54
    start := e 0 % 2 ^ 48, counts := (List.range 6).map fun l => bits (e (l + 1)) 47 32
    strides := (List.range 6).map fun l => walkStride (e (l + 1)) }

/-- What R310 does not let a port's eight staging registers describe. -/
def walkIllegal (port : Nat) (e : Nat → Nat) : Prop :=
  bits (e 0) 53 48 ≠ 0 ∨ (∃ l < 6, bits (e (l + 1)) 63 48 ≠ 0) ∨ e 7 ≠ 0 ∨ 2 ≤ bits (e 0) 55 54 ∨ 6 ≤ bits (e 0) 62 60 ∨
    portBytes port / 2 ^ bits (e 0) 55 54 < 2 ^ bits (e 0) 59 56 ∨ (bitAt (e 0) 63 = true ∧ 4 ≤ port) ∨
    (walkDescribed e).chunks % (portBytes port / 2 ^ bits (e 0) 55 54 / 2 ^ bits (e 0) 59 56) ≠ 0

section Walks
variable {port : Nat} {e : Nat → Nat}

theorem walkerOf_eq : walkerOf port ((List.range 8).map e) =
    if bits (e 0) 53 48 ≠ 0 || ((List.range 6).map fun l => e (l + 1)).any (fun l => bits l 63 48 ≠ 0) || e 7 ≠ 0 ||
      2 ≤ bits (e 0) 55 54 || 6 ≤ bits (e 0) 62 60 || portBytes port / 2 ^ bits (e 0) 55 54 < 2 ^ bits (e 0) 59 56 ||
      (bitAt (e 0) 63 && 4 ≤ port) ||
      (walkDescribed e).chunks % (portBytes port / 2 ^ bits (e 0) 55 54 / 2 ^ bits (e 0) 59 56) ≠ 0
    then none else some (walkDescribed e) := rfl

theorem walkerOf_of_illegal (h : walkIllegal port e) : walkerOf port ((List.range 8).map e) = none := by
  refine walkerOf_eq.trans (if_pos ?_)
  simpa [walkIllegal, or_assoc] using h

theorem walkerOf_of_legal (h : ¬ walkIllegal port e) : walkerOf port ((List.range 8).map e) = some (walkDescribed e) := by
  refine walkerOf_eq.trans (if_neg ?_)
  simpa [walkIllegal, or_assoc] using h

theorem portBytes_eq (port : Nat) : portBytes port = if port = 0 ∨ port = 1 ∨ port = 4 then 512 else 128 := by
  simp [portBytes, or_assoc]

/-- Levels above the last do not count (R310, log entry 38). -/
theorem chunks_walkDescribed (h : bits (e 0) 62 60 < 6) : (walkDescribed e).chunks =
    (List.range (bits (e 0) 62 60 + 1)).foldl (fun n l => n * (bits (e (l + 1)) 47 32 + 1)) 1 := by
  rw [Walker.chunks, walkDescribed, ← List.map_take, List.take_range, Nat.min_eq_left h, List.foldl_map]

end Walks

theorem exec_qarm (g port : BitVec 3) (b : BitVec 5) (s : State) :
    exec (.qarm g port b) s = perform (.qarm g port b) s (qarmBody port b) := rfl

theorem staging_toNat (x : Ctx) (b : Nat) :
    (x.staging b).map BitVec.toNat = (List.range 8).map fun k => (x.readE (b + k)).toNat := List.map_map ..

theorem getD_map_range {α : Type} (f : Nat → α) {j n : Nat} (h : j < n) (d : α) : ((List.range n).map f).getD j d = f j := by
  simp [h]

theorem claims_portArms : Claims.PortArms := by
  intro g port b s h e nl chunk opw operand chunks bad
  have hports := ports_scalar h.1 nofun nofun nofun nofun
  have hbad : bad ↔ walkIllegal port.toNat e := by
    by_cases hnl : 6 ≤ nl
    · simp only [bad, walkIllegal, nl, hnl, true_or, or_true]
    · rw [walkIllegal, chunks_walkDescribed (Nat.not_le.mp hnl), portBytes_eq]
  rw [exec_qarm, hbad]
  refine ⟨fun hill => perform_trapped h hports ?_, fun hleg => ⟨walkDescribed e, ?_, rfl, rfl, rfl, rfl, rfl, rfl, rfl, rfl, rfl,
    fun j hj => ⟨getD_map_range (fun l => bits (e (l + 1)) 47 32) hj 0, getD_map_range (fun l => walkStride (e (l + 1))) hj 0⟩⟩⟩
  · rw [qarmBody, staging_toNat, walkerOf_of_illegal hill]
  · have hbody : qarmBody port b s = s.updCur fun x =>
        { x with ports := Tab.set {} x.ports port.toNat { walkDescribed e with from_ := s.cycle + 1 } } := by
      rw [qarmBody, staging_toNat, walkerOf_of_legal hleg]
    rw [perform_quiet h hports (by rw [hbody]; rfl), hbody]

end Sys2Proof.Machine

open Sys2Proof Sys2Proof.Machine

/-- Settles O59: a request leaves beside its one result, and QARM arms the walk that `walkDescribed` reads from the staging registers,
unless it is illegal. -/
theorem versionAndPortSyllables : Obligations.VersionAndPortSyllables := ⟨claims_versionRequests, claims_portArms⟩

end

section
/-! PUBLISH, CAPTURE and MARK at the head of a queue (14 R213, R220; 18 R247, R250, R251), O39. -/
namespace Sys2Proof.Machine

/-! ### Packets that a replay skips (R251) -/

theorem State.AtHead.perform?_skipped {s : State} {p q ty : Nat} {k : QPacket} (h : s.AtHead p q k ty) (hty : tyPublish ≤ ty)
    (hr : (s.part p).replay.isSome) (f : State → State) : s.perform? p q k f = s.finish p q := by
  simp [State.perform?, State.skips, h.isTy, hty, hr]

/-- With no replay, a packet whose body is good is performed. -/
theorem perform?_good {s : State} {p : Nat} {k : QPacket} (hb : bodyBad k.pk = false) (hr : (s.part p).replay = none) (q : Nat)
    (f : State → State) : s.perform? p q k f = f s := by
  simp [State.perform?, State.skips, hb, hr]

/-! ### PUBLISH (R213, R255) -/

/-- What a PUBLISH does: the region as it stands at the device point of coherence publishes, if the partition is its learner. -/
def State.publishFor (s : State) (p q : Nat) (k : QPacket) : State :=
  let r := pkWord k.pk 0 % 8
  let t := s.atRegion r
  let out := match t.region r with
    | some g => if g.lpart = p then t.publishRegion r g else (pubFail 0 0, t)
    | none => (pubFail 0 0, t)
  (out.2.sendTo (pkSrc k.pk) (eventD0 evPublish p 0 (pkTag k.pk)) [BitVec.ofNat 64 out.1]).finish p q

theorem exec_publish_atHead {s : State} {p q : Nat} {k : QPacket} (h : s.AtHead p q k tyPublish) (hi : (s.queue p q).head = .idle) :
    exec (.publish p q) s = .next (s.perform? p q k fun t => t.publishFor p q k) := by
  change execPublish p q s = _
  rw [execPublish, h.fresh?_eq hi]
  rfl

/-! ### CAPTURE (R220) -/

/-- The capture of version `v` of region `r` stops, if it is in progress. -/
def State.stopCapture (s : State) (r v : Nat) : State :=
  let u := s.atRegion r
  match u.captures.find? (fun c => c.region == r), u.region r with
  | some c, some g => if (g.slots.getD c.slot {}).ver = v then u.dropCapture r c.slot else u
  | _, _ => u

/-- What a CAPTURE does, by its op. -/
def State.captureFor (s : State) (p q w fbase : Nat) : State :=
  State.finish (if w % 4 = 1 then s.stopCapture (bits w 4 2) (bits w 31 16)
    else s.startCapture (bits w 4 2) (bits w 31 16) (flashBase fbase) (w % 4 = 2)) p q

theorem captureFor_start (s : State) (p q fbase : Nat) {w : Nat} (hw : w % 4 = 0) : s.captureFor p q w fbase =
    (s.startCapture (bits w 4 2) (bits w 31 16) (flashBase fbase) false).finish p q := by
  simp [State.captureFor, hw]

theorem captureFor_stop (s : State) (p q fbase : Nat) {w : Nat} (hw : w % 4 = 1) : s.captureFor p q w fbase =
    (s.stopCapture (bits w 4 2) (bits w 31 16)).finish p q := by
  rw [State.captureFor, if_pos hw]

theorem captureFor_resume (s : State) (p q fbase : Nat) {w : Nat} (hw : w % 4 = 2) : s.captureFor p q w fbase =
    (s.startCapture (bits w 4 2) (bits w 31 16) (flashBase fbase) true).finish p q := by
  simp [State.captureFor, hw]

section Capture
variable {s : State} {p q : Nat} {k : QPacket} (h : s.AtHead p q k tyCapture) (hi : (s.queue p q).head = .idle)
include h hi

theorem event_doCapture_atHead {ops : List Nat} (hop : ops.contains (pkWord k.pk 0 % 4) = true) :
    event (s.freshCapture p q ops).isSome (s.doCapture p q ops) =
      .next (s.perform? p q k fun t => t.captureFor p q (pkWord k.pk 0) (pkWord k.pk 1)) := by
  have hfresh : s.freshCapture p q ops = some k := by rw [State.freshCapture, h.fresh?_eq hi]; exact if_pos hop
  rw [State.doCapture, hfresh]
  rfl

theorem exec_captureStart_atHead (hw : pkWord k.pk 0 % 4 = 0) :
    exec (.captureStart p q) s = .next (s.perform? p q k fun t => t.captureFor p q (pkWord k.pk 0) (pkWord k.pk 1)) :=
  event_doCapture_atHead h hi (by rw [hw]; rfl)

theorem exec_captureStop_atHead (hw : pkWord k.pk 0 % 4 = 1) :
    exec (.captureStop p q) s = .next (s.perform? p q k fun t => t.captureFor p q (pkWord k.pk 0) (pkWord k.pk 1)) :=
  event_doCapture_atHead h hi (by rw [hw]; rfl)

theorem exec_captureResume_atHead (hw : pkWord k.pk 0 % 4 = 2) :
    exec (.captureResume p q) s = .next (s.perform? p q k fun t => t.captureFor p q (pkWord k.pk 0) (pkWord k.pk 1)) :=
  event_doCapture_atHead h hi (by rw [hw]; rfl)

end Capture

/-- The first page of a capture whose G differs from CG goes to flash, and its G changes. -/
theorem exec_capturePageWrite_next {s : State} {r va d size : Nat} {c : Capture} {g : Region} (ha : s.alarm = none)
    (hc : s.captures.find? (fun c => c.region == r) = some c) (hg : s.region r = some g)
    (hn : s.nextCapture g c.slot = some (va, d, size)) : exec (.capturePageWrite r) s =
      .next (((s.sendRemote (cellsAt (c.fbase + (va - g.vbase * 2 ^ 30))
          ((List.range (2 ^ pageBits size)).map fun i => s.homeByte (descAddr (s.dword d) + i)))).putDword d
        (if g.cg then s.dword d + 2 ^ 54 else s.dword d - 2 ^ 54)).settleCapture r) := by
  have hcan : s.canCapture r = true := by simp [State.canCapture, ha, hc, hg]
  calc exec (.capturePageWrite r) s = .next (s.capturePage r) := event_on hcan _
    _ = _ := by rw [State.capturePage, hc, hg]; simp only [hn]

theorem claims_versionPackets : Claims.VersionPackets := by
  intro p q r d va size s k c g w finish good skipped
  refine ⟨fun h hs => ?_, fun h hs => ⟨fun hw => ?_, fun hw => ?_, fun hw => ?_⟩, fun h hg => ?_,
    fun h hg hw => ?_, fun h hg hw => ?_, fun h hg hw => ?_, exec_capturePageWrite_next⟩
  · rw [exec_publish_atHead h hs.1, h.perform?_skipped (Nat.le_refl _) hs.2]; rfl
  · rw [exec_captureStart_atHead h hs.1 hw, h.perform?_skipped (by decide) hs.2]; rfl
  · rw [exec_captureStop_atHead h hs.1 hw, h.perform?_skipped (by decide) hs.2]; rfl
  · rw [exec_captureResume_atHead h hs.1 hw, h.perform?_skipped (by decide) hs.2]; rfl
  · obtain ⟨hi, hb, hr⟩ := hg
    rw [exec_publish_atHead h hi, perform?_good hb hr q]; rfl
  · obtain ⟨hi, hb, hr⟩ := hg
    rw [exec_captureStart_atHead h hi hw, perform?_good hb hr q, captureFor_start _ _ _ _ hw]; rfl
  · obtain ⟨hi, hb, hr⟩ := hg
    rw [exec_captureResume_atHead h hi hw, perform?_good hb hr q, captureFor_resume _ _ _ _ hw]; rfl
  · obtain ⟨hi, hb, hr⟩ := hg
    rw [exec_captureStop_atHead h hi hw, perform?_good hb hr q, captureFor_stop _ _ _ _ hw]; rfl

/-! ### MARK (18 R247, R250) -/

/-- What a MARK does, by its op. -/
def State.markFor (s : State) (p q w va : Nat) : State :=
  match w % 8 with
  | 0 => (s.updPart p fun x => { x with logOn := true, logSeq := 0, gap := none }).finish p q
  | 1 => ((s.updPart p fun x => { x with logOn := false }).finish p q).settleLog p
  | 2 => (s.updQueue p q fun x => { x with declared := declared (s.bytesAt p va 512) }).finish p q
  | 3 => s.takeSnap p q
  | _ => ((s.updPart p fun x => { x with logMark := bitAt w 3 }).finish p q).settleLog p

section Head
variable {s : State} {p q : Nat} {k : QPacket} (h : s.AtHead p q k tyMark) (hi : (s.queue p q).head = .idle)
include h hi

theorem event_doMark_atHead {ops : List Nat} (hop : ops.contains (pkWord k.pk 0 % 8) = true) :
    event (s.freshMark p q ops).isSome (s.doMark p q ops) =
      .next (s.perform? p q k fun t => t.markFor p q (pkWord k.pk 0) (pkWord k.pk 1)) := by
  have hfresh : s.freshMark p q ops = some k := by rw [State.freshMark, h.fresh?_eq hi]; exact if_pos hop
  rw [State.doMark, hfresh]
  rfl

theorem exec_markOn_atHead (hw : pkWord k.pk 0 % 8 = 0) :
    exec (.markOn p q) s = .next (s.perform? p q k fun t => t.markFor p q (pkWord k.pk 0) (pkWord k.pk 1)) :=
  event_doMark_atHead h hi (by rw [hw]; rfl)

theorem exec_markOff_atHead (hw : pkWord k.pk 0 % 8 = 1) :
    exec (.markOff p q) s = .next (s.perform? p q k fun t => t.markFor p q (pkWord k.pk 0) (pkWord k.pk 1)) :=
  event_doMark_atHead h hi (by rw [hw]; rfl)

theorem exec_markDecl_atHead (hw : pkWord k.pk 0 % 8 = 2) :
    exec (.markDecl p q) s = .next (s.perform? p q k fun t => t.markFor p q (pkWord k.pk 0) (pkWord k.pk 1)) :=
  event_doMark_atHead h hi (by rw [hw]; rfl)

theorem exec_markSnap_atHead (hw : pkWord k.pk 0 % 8 = 3) :
    exec (.markSnap p q) s = .next (s.perform? p q k fun t => t.markFor p q (pkWord k.pk 0) (pkWord k.pk 1)) :=
  event_doMark_atHead h hi (by rw [hw]; rfl)

theorem exec_markMode_atHead (hw : pkWord k.pk 0 % 8 = 4) :
    exec (.markMode p q) s = .next (s.perform? p q k fun t => t.markFor p q (pkWord k.pk 0) (pkWord k.pk 1)) :=
  event_doMark_atHead h hi (by rw [hw]; rfl)

end Head

/-! The rows of SNAP (R250). -/

section Snap
variable {s : State} {p q : Nat}

theorem takeSnap_off (hl : (s.part p).logOn = false) : s.takeSnap p q = s.finish p q := by
  simp [State.takeSnap, hl]

variable (hl : (s.part p).logOn = true)
include hl

theorem takeSnap_fits (hf : (s.part p).logFits (snapBody (s.snapshot p q)).length = true) : s.takeSnap p q =
    ((s.logWrite p 1 q (s.part p).logSeq (snapBody (s.snapshot p q))).updQueue p q fun y =>
      { y with snap := some (s.snapshot p q) }).finish p q := by
  simp [State.takeSnap, hl, hf]

variable (hf : (s.part p).logFits (snapBody (s.snapshot p q)).length = false)
include hf

theorem takeSnap_gap {k : QPacket} (h : s.AtHead p q k tyMark) (hm : (s.part p).logMark = true) :
    s.takeSnap p q = (s.logGap p q k.seq).finish p q := by
  simp [State.takeSnap, hl, hf, hm, h.head_eq]

theorem takeSnap_waits (hm : (s.part p).logMark = false) : s.takeSnap p q = s.wait? p q := by
  simp [State.takeSnap, hl, hf, hm]

end Snap

theorem exec_ringTailAdvance_reached {s : State} {p : Nat} (hr : s.Reached) (hon : (s.part p).on = true) (log : Bool) (v : Word64) :
    exec (.ringTailAdvance p log v) s = .next (s.hear.advanceTail p log v) :=
  event_on (by rw [hr.ownerReaches_eq, hon]; rfl) _

theorem claims_markPackets : Claims.MarkPackets := by
  intro p q v s k w finish first good x body tail t
  have hperform (hg : good) (f : State → State) : s.perform? p q k f = f s := perform?_good hg.2.1 hg.2.2 q f
  refine ⟨fun hg hw => ?_, fun hg hw => ?_, fun hg hw => ?_, fun hg hw => ?_, fun hg hw => ?_, fun hf hr => ?_,
    fun hr hon => ⟨exec_ringTailAdvance_reached hr hon false v, exec_ringTailAdvance_reached hr hon true v⟩⟩
  · rw [exec_markOn_atHead hg.1.1 hg.1.2 hw, hperform hg, State.markFor, hw]; rfl
  · rw [exec_markOff_atHead hg.1.1 hg.1.2 hw, hperform hg, State.markFor, hw]; rfl
  · rw [exec_markDecl_atHead hg.1.1 hg.1.2 hw, hperform hg, State.markFor, hw]; rfl
  · rw [exec_markMode_atHead hg.1.1 hg.1.2 hw, hperform hg, State.markFor, hw]; rfl
  · have hsnap : exec (.markSnap p q) s = .next (s.takeSnap p q) := by
      rw [exec_markSnap_atHead hg.1.1 hg.1.2 hw, hperform hg, State.markFor, hw]; rfl
    rw [hsnap]
    exact ⟨fun hl => congrArg _ (takeSnap_off hl), fun hl hf => congrArg _ (takeSnap_fits hl hf),
      fun hl hf hm => congrArg _ (takeSnap_gap hl hf hg.1.1 hm), fun hl hf hm => congrArg _ (takeSnap_waits hl hf hm)⟩
  · have hskip (f : State → State) : s.perform? p q k f = finish s := hf.1.perform?_skipped (by decide) hr f
    refine ⟨fun hw => ?_, fun hw => ?_, fun hw => ?_, fun hw => ?_, fun hw => ?_⟩
    · rw [exec_markOn_atHead hf.1 hf.2 hw, hskip]
    · rw [exec_markOff_atHead hf.1 hf.2 hw, hskip]
    · rw [exec_markDecl_atHead hf.1 hf.2 hw, hskip]
    · rw [exec_markSnap_atHead hf.1 hf.2 hw, hskip]
    · rw [exec_markMode_atHead hf.1 hf.2 hw, hskip]

end Sys2Proof.Machine

open Sys2Proof Sys2Proof.Machine

/-- Settles O39: a packet that no replay skips and whose body is good does what `State.publishFor`, `State.captureFor` or `State.markFor`
says. -/
theorem captureAndMarkPackets : Obligations.CaptureAndMarkPackets := ⟨claims_versionPackets, claims_markPackets⟩

end

section
/-! The descriptors of versioned regions in memory (14 R210, R214): what a change of one slot makes of a
region, and the pins that move. -/
namespace Sys2Proof.Machine

/-! ### Dwords of memory -/

theorem ofBytes_bytesOf (n x : Nat) : ofBytes (bytesOf n x) = x % 256 ^ n := by
  induction n generalizing x with
  | zero => simp [bytesOf, ofBytes, Nat.mod_one]
  | succ n ih => rw [bytesOf, ofBytes, ih, Nat.pow_succ', Nat.mod_mul, BitVec.toNat_ofNat]

theorem ofBytes_lt (l : List Byte) : ofBytes l < 256 ^ l.length := by
  induction l with
  | nil => exact Nat.one_pos
  | cons b l ih =>
    rw [ofBytes, List.length_cons, Nat.pow_succ']
    have := b.isLt
    omega

theorem dword_lt (s : State) (a : Nat) : s.dword a < 2 ^ 64 := by
  have h := ofBytes_lt (Memory.readN s.dram a 8)
  rw [Memory.readN, List.length_map, List.length_range] at h
  exact h

/-- A dword that has been written reads back. -/
theorem dword_of_written {s t : State} (hm : Memory.wf s.dram = true) {a v : Nat} (hv : v < 2 ^ 64)
    (ht : t.dram = Memory.writeAll s.dram (cellsAt a (bytesOf 8 v))) : t.dword a = v := by
  have hread := readN_writeAll_cellsAt hm a (bytesOf 8 v)
  rw [length_bytesOf, ← ht] at hread
  rw [State.dword, hread, ofBytes_bytesOf]
  exact Nat.mod_eq_of_lt hv

/-- One beside it stays. -/
theorem dword_of_not_written {s t : State} {a v d : Nat} (h : d + 8 ≤ a ∨ a + 8 ≤ d)
    (ht : t.dram = Memory.writeAll s.dram (cellsAt a (bytesOf 8 v))) : t.dword d = s.dword d := by
  have hread : Memory.readN t.dram d 8 = Memory.readN s.dram d 8 := by
    refine List.map_congr_left fun i hi => ?_
    rw [List.mem_range] at hi
    rw [ht]
    exact read_writeAll_cellsAt_of_outside _ (by rw [length_bytesOf]; omega)
  rw [State.dword, hread, ← State.dword]

theorem deviceCommit_parts (s : State) (i : Inst) (l : List (Nat × Byte)) : (s.deviceCommit i l).parts = s.parts := by
  obtain ⟨_, _, _, _, _, _, _, _, h⟩ := deviceCommit_eq s i l
  rw [h]

theorem deviceCommit_vrtbase (s : State) (i : Inst) (l : List (Nat × Byte)) : (s.deviceCommit i l).vrtbase = s.vrtbase := by
  obtain ⟨_, _, _, _, _, _, _, _, h⟩ := deviceCommit_eq s i l
  rw [h]

/-- A commit that overtakes nothing leaves the caches alone. -/
theorem deviceCommit_cellsAt_clusters {s : State} {a : Nat} {b : List Byte}
    (h : s.unflushedAt ((List.range b.length).map fun i => a + i) = []) (i : Inst) :
    (s.deviceCommit i (cellsAt a b)).clusters = s.clusters := by
  obtain ⟨_, _, _, _, _, hv⟩ := vaultCommit_eq s i (cellsAt a b)
  rw [State.deviceCommit, map_fst_cellsAt, flushAt_of_unflushedAt_nil h, hv]
  rfl

/-! ### Slots (R210) -/

theorem slotDword_lt {d : Nat} (hd : d < 2 ^ 64) (v : VSlot) : slotDword d v < 2 ^ 64 := by
  unfold slotDword
  split <;> omega

/-- A slot whose state, capture and pins are replaced reads back from its two dwords. -/
theorem slotOf_slotDword {d e : Nat} {v : VSlot} (hver : v.ver = (slotOf d e).ver) (hroot : v.root = (slotOf d e).root)
    (hstate : v.state < 8) (hpins : v.pins < 2048) : slotOf (slotDword d v) e = v := by
  obtain ⟨ver, state, cap, pins, root⟩ := v
  simp only [slotOf, bits] at hver hroot hstate hpins
  subst hver hroot
  cases cap <;> simp only [slotOf, slotDword, bits, bitAt, VSlot.mk.injEq, and_true, if_true, Bool.false_eq_true, if_false, beq_iff_eq,
    beq_eq_false_iff_ne] <;> omega

/-- The `n`-th slot of a region. -/
def Region.slot (g : Region) (n : Nat) : VSlot := g.slots.getD n {}

/-- The region with four other slots. -/
def Region.withSlots (g : Region) (f : Nat → VSlot) : Region := { g with slots := (List.range 4).map f }

/-- The region with one slot replaced. -/
def Region.setSlot (g : Region) (n : Nat) (v : VSlot) : Region := g.withSlots fun k => if k = n then v else g.slot k

theorem Region.withSlots_congr {g : Region} {f f' : Nat → VSlot} (h : ∀ k < 4, f k = f' k) : g.withSlots f = g.withSlots f' :=
  congrArg (fun l => { g with slots := l }) (List.map_congr_left fun k hk => h k (List.mem_range.mp hk))

theorem Region.slot_withSlots (g : Region) (f : Nat → VSlot) {k : Nat} (h : k < 4) : (g.withSlots f).slot k = f k := by
  simp [Region.slot, Region.withSlots, h]

/-! ### A region as it stands in memory -/

/-- What the sixteen dwords of a descriptor describe. -/
def State.described (s : State) (r : Nat) : Region :=
  let d0 := s.dword (s.regionAt r)
  let d1 := s.dword (s.regionAt r + 8)
  { ngb := bits d0 55 48, vbase := bits d0 47 30, evc := bits d1 19 12, rmask := bits d1 11 4, cg := bitAt d1 3, lpart := bits d1 2 0
    slots := (List.range 4).map fun k => slotOf (s.dword (s.regionAt r + 16 + 16 * k)) (s.dword (s.regionAt r + 24 + 16 * k)) }

theorem region_eq_some {s : State} {r : Nat} {g : Region} :
    s.region r = some g ↔ bitAt (s.dword (s.regionAt r)) 63 = true ∧ s.described r = g := by
  have hregion : s.region r = if !bitAt (s.dword (s.regionAt r)) 63 then none else some (s.described r) := rfl
  rw [hregion]
  cases bitAt (s.dword (s.regionAt r)) 63 <;> simp

theorem slot_described (s : State) (r : Nat) {k : Nat} (h : k < 4) : (s.described r).slot k =
    slotOf (s.dword (s.regionAt r + 16 + 16 * k)) (s.dword (s.regionAt r + 24 + 16 * k)) := by
  simp [State.described, Region.slot, h]

/-- A region in memory has four slots. -/
theorem withSlots_slot_described (s : State) (r : Nat) : (s.described r).withSlots (s.described r).slot = s.described r :=
  (Region.withSlots_congr fun _ hk => slot_described s r hk).trans rfl

/-- The changes of a slot that leave its version and its table, with a state and pins that the descriptor has room for. -/
structure VSlot.Fits (v w : VSlot) : Prop where
  ver : w.ver = v.ver
  root : w.root = v.root
  state : w.state < 8
  pins : w.pins < 2048

/-- A write of the first dword of a slot changes that slot and nothing else of the region. -/
theorem region_of_written {s t : State} (hm : Memory.wf s.dram = true) {r n : Nat} {g : Region} (hr : s.region r = some g) (hn : n < 4)
    {v : VSlot} (hv : (g.slot n).Fits v) (hbase : t.vrtbase = s.vrtbase)
    (ht : t.dram = Memory.writeAll s.dram (cellsAt (s.regionAt r + 16 + 16 * n)
      (bytesOf 8 (slotDword (s.dword (s.regionAt r + 16 + 16 * n)) v)))) : t.region r = some (g.setSlot n v) := by
  obtain ⟨hvalid, rfl⟩ := region_eq_some.mp hr
  have hat : t.regionAt r = s.regionAt r := by rw [State.regionAt, hbase, State.regionAt]
  have hother {d : Nat} (hd : d + 8 ≤ s.regionAt r + 16 + 16 * n ∨ s.regionAt r + 16 + 16 * n + 8 ≤ d) : t.dword d = s.dword d :=
    dword_of_not_written hd ht
  rw [slot_described s r hn] at hv
  have hslot : ∀ k < 4, slotOf (t.dword (s.regionAt r + 16 + 16 * k)) (t.dword (s.regionAt r + 24 + 16 * k)) =
      if k = n then v else (s.described r).slot k := by
    intro k hk
    split
    · next hkn =>
      subst hkn
      rw [dword_of_written hm (slotDword_lt (dword_lt s _) v) ht, hother (by omega)]
      exact slotOf_slotDword hv.ver hv.root hv.state hv.pins
    · next hkn => rw [hother (by omega), hother (by omega), slot_described s r hk]
  rw [region_eq_some, hat, hother (by omega)]
  refine ⟨hvalid, ?_⟩
  unfold State.described
  rw [hat, hother (by omega), hother (by omega), List.map_congr_left fun k hk => hslot k (List.mem_range.mp hk)]
  rfl

section Congruence
variable {s t : State}

theorem regionAt_congr (hbase : t.vrtbase = s.vrtbase) (r : Nat) : t.regionAt r = s.regionAt r := by
  rw [State.regionAt, hbase, State.regionAt]

theorem region_congr (hdram : t.dram = s.dram) (hbase : t.vrtbase = s.vrtbase) (r : Nat) : t.region r = s.region r := by
  have hdword (a : Nat) : t.dword a = s.dword a := by rw [State.dword, hdram, State.dword]
  simp only [State.region, regionAt_congr hbase, hdword]

theorem unflushedAt_congr (hclusters : t.clusters = s.clusters) (locs : List Nat) : t.unflushedAt locs = s.unflushedAt locs := by
  rw [State.unflushedAt, hclusters, State.unflushedAt]

theorem part_congr (hparts : t.parts = s.parts) (p : Nat) : t.part p = s.part p := by
  rw [State.part, hparts, State.part]

end Congruence

/-- Region `r` is `g`, its descriptor lies in memory with nothing unflushed, and EVC of its learner has counted to `c`. -/
structure State.Shows (s : State) (r : Nat) (g : Region) (c : Word64) : Prop where
  canonical : s.Canonical
  region : s.region r = some g
  flushed : s.unflushedAt ((List.range 128).map fun k => s.regionAt r + k) = []
  counters : Tab.wf 0 (s.part g.lpart).counters = true
  count : Tab.get 0 (s.part g.lpart).counters g.evc = c

section Shows
variable {s : State} {r : Nat} {g : Region} {c : Word64} (h : s.Shows r g c)
include h

theorem State.Shows.atRegion_eq : s.atRegion r = s := flushAt_of_unflushedAt_nil h.flushed

theorem State.Shows.withSlots_slot : g.withSlots g.slot = g := by
  obtain ⟨-, rfl⟩ := region_eq_some.mp h.region
  exact withSlots_slot_described s r

/-- A slot of a region in memory fits into its own place. -/
theorem State.Shows.slot_fits {n : Nat} (hn : n < 4) : (g.slot n).Fits (g.slot n) := by
  obtain ⟨-, rfl⟩ := region_eq_some.mp h.region
  rw [slot_described s r hn]
  exact ⟨rfl, rfl, Nat.mod_lt _ (by decide), Nat.mod_lt _ (by decide)⟩

theorem State.Shows.updSlot_parts (n : Nat) (f : VSlot → VSlot) : (s.updSlot r n f).parts = s.parts := by
  rw [State.updSlot, h.region]
  exact deviceCommit_parts ..

theorem State.Shows.updSlot_vrtbase (n : Nat) (f : VSlot → VSlot) : (s.updSlot r n f).vrtbase = s.vrtbase := by
  rw [State.updSlot, h.region]
  exact deviceCommit_vrtbase ..

section Update
variable {n : Nat} (hn : n < 4)
include hn

theorem State.Shows.unflushed_slot {b : List Byte} (hb : b.length = 8) :
    s.unflushedAt ((List.range b.length).map fun i => s.regionAt r + 16 + 16 * n + i) = [] := by
  refine unflushedAt_eq_nil.mpr fun k hk u hu hm => unflushedAt_eq_nil.mp h.flushed k hk u hu ?_
  obtain ⟨i, hi, hloc⟩ := List.mem_map.mp hm
  rw [List.mem_range, hb] at hi
  exact List.mem_map.mpr ⟨16 + 16 * n + i, List.mem_range.mpr (by omega), by omega⟩

theorem State.Shows.updSlot_dram (f : VSlot → VSlot) : (s.updSlot r n f).dram =
    Memory.writeAll s.dram (cellsAt (s.regionAt r + 16 + 16 * n)
      (bytesOf 8 (slotDword (s.dword (s.regionAt r + 16 + 16 * n)) (f (g.slot n))))) := by
  rw [State.updSlot, h.region]
  exact deviceCommit_cellsAt_dram (h.unflushed_slot hn (length_bytesOf ..)) .device

theorem State.Shows.updSlot_clusters (f : VSlot → VSlot) : (s.updSlot r n f).clusters = s.clusters := by
  rw [State.updSlot, h.region]
  exact deviceCommit_cellsAt_clusters (h.unflushed_slot hn (length_bytesOf ..)) .device

theorem State.Shows.updSlot {f : VSlot → VSlot} (hf : (g.slot n).Fits (f (g.slot n))) :
    (s.updSlot r n f).Shows r (g.setSlot n (f (g.slot n))) c where
  canonical := by
    rw [State.updSlot, h.region]
    exact canonical_deviceCommit h.canonical _ _
  region := region_of_written h.canonical.dram h.region hn hf (h.updSlot_vrtbase n f) (h.updSlot_dram hn f)
  flushed := by
    rw [unflushedAt_congr (h.updSlot_clusters hn f), regionAt_congr (h.updSlot_vrtbase n f)]
    exact h.flushed
  counters := by
    rw [part_congr (h.updSlot_parts n f)]
    exact h.counters
  count := by
    rw [part_congr (h.updSlot_parts n f)]
    exact h.count

theorem State.Shows.read_updSlot_of_outside (f : VSlot → VSlot) {x : Nat} (hx : x < s.regionAt r + 16 ∨ s.regionAt r + 80 ≤ x) :
    Memory.read (s.updSlot r n f).dram x = Memory.read s.dram x := by
  rw [h.updSlot_dram hn]
  exact read_writeAll_cellsAt_of_outside _ (by rw [length_bytesOf]; omega)

end Update

theorem State.Shows.counted_none : s.Shows r g (c + 0) := (BitVec.add_zero c).symm ▸ h

theorem State.Shows.countVersion_eq : s.countVersion r = s.countUp g.lpart g.evc 1 := by rw [State.countVersion, h.region]

theorem State.Shows.countVersion : (s.countVersion r).Shows r g (c + 1) := by
  have hpart : (s.countUp g.lpart g.evc 1).part g.lpart =
      { s.part g.lpart with counters := Tab.upd 0 (s.part g.lpart).counters g.evc fun v => v + 1 } :=
    (State.part_updPart h.canonical.parts ..).trans (if_pos rfl)
  rw [h.countVersion_eq]
  exact {
    canonical := canonical_updPart h.canonical _ _
    region := (region_congr rfl rfl r).trans h.region
    flushed := (unflushedAt_congr rfl _).trans h.flushed
    counters := by rw [hpart]; exact Tab.wf_upd h.counters g.evc (· + 1)
    count := by rw [hpart, Tab.get_upd h.counters, if_pos rfl, h.count] }

end Shows

/-! ### One slot replaced, and pins (R214) -/

/-- The slots of a region with one of them replaced. -/
def Region.put (g : Region) (n : Nat) (v : VSlot) (k : Nat) : VSlot := if k = n then v else g.slot k

theorem Region.setSlot_eq (g : Region) (n : Nat) (v : VSlot) : g.setSlot n v = g.withSlots (g.put n v) := rfl

theorem Region.setSlot_withSlots (g : Region) (f : Nat → VSlot) (n : Nat) (v : VSlot) :
    (g.withSlots f).setSlot n v = g.withSlots fun k => if k = n then v else f k :=
  Region.withSlots_congr (g := g) fun k hk => by rw [Region.slot_withSlots g f hk]

/-- What EVC counts beside a publish: 1 if some slot has changed its state. -/
def Region.changed (g : Region) (f : Nat → VSlot) : Word64 :=
  if (List.range 4).any fun k => (f k).state != (g.slot k).state then 1 else 0

theorem Region.changed_of_same {g : Region} {f : Nat → VSlot} (h : ∀ k < 4, (f k).state = (g.slot k).state) : g.changed f = 0 := by
  refine if_neg ?_
  simpa using h

theorem Region.changed_put {g : Region} {n : Nat} (hn : n < 4) (v : VSlot) :
    g.changed (g.put n v) = if v.state = (g.slot n).state then 0 else 1 := by
  have hany : (∃ k < 4, (g.put n v k).state ≠ (g.slot k).state) ↔ v.state ≠ (g.slot n).state := by
    constructor
    · rintro ⟨k, -, hk⟩
      by_cases hkn : k = n
      · subst hkn
        rwa [Region.put, if_pos rfl] at hk
      · rw [Region.put, if_neg hkn] at hk
        exact absurd rfl hk
    · intro hv
      exact ⟨n, hn, by rwa [Region.put, if_pos rfl]⟩
  simp only [Region.changed, List.any_eq_true, List.mem_range, bne_iff_ne, hany, ne_eq, ite_not]

/-- R214: an older slot that nothing pins becomes retired. -/
def VSlot.settled (v : VSlot) : VSlot := if v.state = stOlder ∧ v.pins = 0 ∧ v.cap = false then { v with state := stRetired } else v
/-- A slot with one pin more, and one with a pin less. -/
def VSlot.pinned (v : VSlot) : VSlot := { v with pins := v.pins + 1 }
def VSlot.unpinned (v : VSlot) : VSlot := VSlot.settled { v with pins := v.pins - 1 }

theorem VSlot.settled_ver (v : VSlot) : v.settled.ver = v.ver := by unfold VSlot.settled; split <;> rfl
theorem VSlot.settled_pins (v : VSlot) : v.settled.pins = v.pins := by unfold VSlot.settled; split <;> rfl

/-- Whether a slot is in state current or older with a version. -/
def VSlot.holds (v : VSlot) (ver : Nat) : Bool := (v.state == stCurrent || v.state == stOlder) && v.ver == ver

theorem VSlot.ver_of_holds {v : VSlot} {ver : Nat} (h : v.holds ver = true) : v.ver = ver := by
  unfold VSlot.holds at h
  exact beq_iff_eq.mp (Bool.and_eq_true_iff.mp h).2

theorem VSlot.holds_of_ver_ne {v : VSlot} {ver : Nat} (h : v.ver ≠ ver) : v.holds ver = false :=
  Bool.eq_false_iff.mpr fun hv => h (VSlot.ver_of_holds hv)

section Holding
variable {g : Region} {f : Nat → VSlot}

theorem Region.slotHolding_withSlots (g : Region) (f : Nat → VSlot) (ver : Nat) :
    (g.withSlots f).slotHolding ver = ((List.range 4).map fun k => (f k).holds ver).findIdx? id := by
  rw [List.findIdx?_map]
  exact List.findIdx?_map

theorem Region.slotHolding_congr {f' : Nat → VSlot} {ver : Nat} (h : ∀ k < 4, (f k).holds ver = (f' k).holds ver) :
    (g.withSlots f).slotHolding ver = (g.withSlots f').slotHolding ver := by
  rw [slotHolding_withSlots, slotHolding_withSlots, List.map_congr_left fun k hk => h k (List.mem_range.mp hk)]

theorem Region.holds_of_slotHolding {n ver : Nat} (h : (g.withSlots f).slotHolding ver = some n) : n < 4 ∧ (f n).holds ver = true := by
  rw [slotHolding_withSlots] at h
  obtain ⟨hn, hp, -⟩ := List.findIdx?_eq_some_iff_getElem.mp h
  rw [List.length_map, List.length_range] at hn
  exact ⟨hn, by simpa using hp⟩

end Holding

/-- The slots once one of them has been given a pin and another has lost one. -/
def Region.moved (g : Region) (up down : Option Nat) (k : Nat) : VSlot :=
  if up = some k then (g.slot k).pinned else if down = some k then (g.slot k).unpinned else g.slot k

theorem Region.moved_none_none (g : Region) : g.moved none none = g.slot := rfl

theorem Region.moved_none_some (g : Region) (n : Nat) : g.moved none (some n) = g.put n (g.slot n).unpinned := by
  funext k
  by_cases hk : k = n
  · subst hk; simp [Region.moved, Region.put]
  · simp [Region.moved, Region.put, hk, Ne.symm hk]

theorem Region.moved_some_none (g : Region) (n : Nat) : g.moved (some n) none = g.put n (g.slot n).pinned := by
  funext k
  by_cases hk : k = n
  · subst hk; simp [Region.moved, Region.put]
  · simp [Region.moved, Region.put, hk, Ne.symm hk]

section Both
variable {g : Region} {up down : Option Nat} (hne : ∀ k, up = some k → down ≠ some k)
include hne

/-- The pins move one after the other. -/
theorem Region.moved_moved : (g.withSlots (g.moved none down)).withSlots ((g.withSlots (g.moved none down)).moved up none) =
    g.withSlots (g.moved up down) := by
  refine Region.withSlots_congr (g := g) fun k hk => ?_
  rw [Region.moved, Region.slot_withSlots g _ hk]
  by_cases hu : up = some k
  · simp [Region.moved, hu, hne k hu]
  · simp [Region.moved, hu]

/-- A pin more changes no state. -/
theorem Region.changed_moved : g.changed (g.moved up down) = g.changed (g.moved none down) := by
  have hstate (k : Nat) : (g.moved up down k).state = (g.moved none down k).state := by
    by_cases hu : up = some k
    · simp [Region.moved, hu, hne k hu, VSlot.pinned]
    · simp [Region.moved, hu]
  simp only [Region.changed, hstate]

end Both

/-- A pin back never brings a slot to more pins. -/
theorem Region.moved_none_pins (g : Region) (down : Option Nat) (k : Nat) : (g.moved none down k).pins ≤ (g.slot k).pins := by
  by_cases hk : down = some k
  · simp only [Region.moved, hk, if_true, reduceCtorEq, if_false, VSlot.unpinned, VSlot.settled_pins]
    exact Nat.sub_le ..
  · simp [Region.moved, hk]

/-- The first half of `State.switchPins`: the pin of the earlier switch is given back. -/
def State.unpinEarlier (s : State) (r : Nat) (x : Ctx) (n : Nat) : State :=
  match x.pin with
  | some m => if m = n || m = x.vpin then s else s.unpin r m
  | none => s

theorem switchPins_eq (s : State) (r : Nat) (x : Ctx) (n : Nat) : s.switchPins r x n =
    if n = x.vpin ∨ x.pin = some n then s.unpinEarlier r x n else (s.unpinEarlier r x n).pin r n := by
  unfold State.switchPins State.unpinEarlier
  cases x.pin with
  | none => simp
  | some m => simp [eq_comm (a := m) (b := n)]

section Pins
variable {s : State} {r : Nat} {g : Region} {c : Word64} (h : s.Shows r g c)
include h

theorem State.Shows.slotHolding_eq (ver : Nat) : g.slotHolding ver = (g.withSlots g.slot).slotHolding ver := by
  rw [h.withSlots_slot]

theorem State.Shows.settleSlot {n : Nat} (hn : n < 4) : (s.settleSlot r n).Shows r (g.setSlot n (g.slot n).settled)
    (c + if (g.slot n).settled.state = (g.slot n).state then 0 else 1) := by
  by_cases hold : (g.slot n).state = stOlder ∧ (g.slot n).pins = 0 ∧ (g.slot n).cap = false
  · have hfits := h.slot_fits hn
    have hshows := (h.updSlot hn (f := fun k => { k with state := stRetired })
      ⟨hfits.ver, hfits.root, (show stRetired < 8 by decide), hfits.pins⟩).countVersion
    have hs : s.settleSlot r n = (s.updSlot r n fun k => { k with state := stRetired }).countVersion r := by
      rw [State.settleSlot, h.region]
      exact if_pos (by simpa [Region.slot, and_assoc] using hold)
    have hstate : ¬ stRetired = (g.slot n).state := by rw [hold.1]; decide
    rw [hs, VSlot.settled, if_pos hold, if_neg hstate]
    exact hshows
  · have hs : s.settleSlot r n = s := by
      rw [State.settleSlot, h.region]
      exact if_neg (by simpa [Region.slot, and_assoc] using hold)
    have hg : g.setSlot n (g.slot n) = g := by
      refine (Region.withSlots_congr fun k _ => ?_).trans h.withSlots_slot
      split
      · next e => rw [e]
      · rfl
    rw [hs, VSlot.settled, if_neg hold, if_pos rfl, hg]
    exact h.counted_none

theorem State.Shows.unpin (v : Nat) : (s.unpin r v).Shows r (g.withSlots (g.moved none (g.slotHolding v)))
    (c + g.changed (g.moved none (g.slotHolding v))) := by
  cases hv : g.slotHolding v with
  | none =>
    have hs : s.unpin r v = s := by simp [State.unpin, h.region, hv]
    rw [hs, Region.moved_none_none, h.withSlots_slot, Region.changed_of_same fun _ _ => rfl]
    exact h.counted_none
  | some n =>
    obtain ⟨hn, -⟩ := Region.holds_of_slotHolding ((h.slotHolding_eq v).symm.trans hv)
    have hfits := h.slot_fits hn
    have hs : s.unpin r v = (s.updSlot r n fun k => { k with pins := k.pins - 1 }).settleSlot r n := by
      simp [State.unpin, h.region, hv]
    have hless := h.updSlot hn (f := fun k => { k with pins := k.pins - 1 })
      ⟨hfits.ver, hfits.root, hfits.state, Nat.lt_of_le_of_lt (Nat.sub_le ..) hfits.pins⟩
    have hshows := hless.settleSlot hn
    have hslot : (g.setSlot n { g.slot n with pins := (g.slot n).pins - 1 }).slot n = { g.slot n with pins := (g.slot n).pins - 1 } :=
      (Region.slot_withSlots g _ hn).trans (if_pos rfl)
    have hregion : (g.setSlot n { g.slot n with pins := (g.slot n).pins - 1 }).setSlot n (g.slot n).unpinned =
        g.setSlot n (g.slot n).unpinned := by
      refine (Region.setSlot_withSlots ..).trans (Region.withSlots_congr fun k _ => ?_)
      split <;> rfl
    rw [hslot] at hshows
    rw [hs, Region.moved_none_some, Region.changed_put hn, ← Region.setSlot_eq, ← hregion]
    exact hshows

theorem State.Shows.pin {v : Nat} (hpins : ∀ k < 4, (g.slot k).pins < 2047) :
    (s.pin r v).Shows r (g.withSlots (g.moved (g.slotHolding v) none)) c := by
  cases hv : g.slotHolding v with
  | none =>
    have hs : s.pin r v = s := by simp [State.pin, h.region, hv]
    rw [hs, Region.moved_none_none, h.withSlots_slot]
    exact h
  | some n =>
    obtain ⟨hn, -⟩ := Region.holds_of_slotHolding ((h.slotHolding_eq v).symm.trans hv)
    have hfits := h.slot_fits hn
    have hs : s.pin r v = s.updSlot r n fun k => { k with pins := k.pins + 1 } := by simp [State.pin, h.region, hv]
    rw [hs, Region.moved_some_none]
    exact h.updSlot hn ⟨hfits.ver, hfits.root, hfits.state, Nat.succ_lt_succ (hpins n hn)⟩

/-- A slot of another version that loses a pin is not the one that holds the version, before or after. -/
theorem State.Shows.slotHolding_moved {down : Option Nat} {ver : Nat} (hdown : ∀ k, down = some k → (g.slot k).ver ≠ ver) :
    (g.withSlots (g.moved none down)).slotHolding ver = g.slotHolding ver := by
  rw [h.slotHolding_eq ver]
  refine Region.slotHolding_congr fun k _ => ?_
  by_cases hk : down = some k
  · have hver : (g.slot k).unpinned.ver ≠ ver := by
      rw [VSlot.unpinned, VSlot.settled_ver]
      exact hdown k hk
    simp only [Region.moved, hk, if_true, reduceCtorEq, if_false, VSlot.holds_of_ver_ne hver, VSlot.holds_of_ver_ne (hdown k hk)]
  · simp [Region.moved, hk]

theorem State.Shows.ver_of_slotHolding {ver n : Nat} (hv : g.slotHolding ver = some n) : (g.slot n).ver = ver :=
  VSlot.ver_of_holds (Region.holds_of_slotHolding ((h.slotHolding_eq ver).symm.trans hv)).2

/-- R214: at the step of a VERSW for version `n`, the slot that gets a pin and the one that loses one. -/
def Ctx.slotToPin (x : Ctx) (g : Region) (n : Nat) : Option Nat := if n = x.vpin ∨ x.pin = some n then none else g.slotHolding n
def Ctx.slotToUnpin (x : Ctx) (g : Region) (n : Nat) : Option Nat :=
  x.pin.bind fun m => if m = n ∨ m = x.vpin then none else g.slotHolding m

theorem State.Shows.ver_slotToPin {x : Ctx} {n k : Nat} (hk : x.slotToPin g n = some k) : (g.slot k).ver = n := by
  unfold Ctx.slotToPin at hk
  split at hk
  · cases hk
  · exact h.ver_of_slotHolding hk

theorem State.Shows.ver_slotToUnpin {x : Ctx} {n k : Nat} (hk : x.slotToUnpin g n = some k) : (g.slot k).ver ≠ n := by
  obtain ⟨m, -, hm⟩ := Option.bind_eq_some_iff.mp hk
  split at hm
  · cases hm
  · next hmn =>
    rw [h.ver_of_slotHolding hm]
    exact fun e => hmn (.inl e)

theorem State.Shows.unpinEarlier (x : Ctx) (n : Nat) : (s.unpinEarlier r x n).Shows r (g.withSlots (g.moved none (x.slotToUnpin g n)))
    (c + g.changed (g.moved none (x.slotToUnpin g n))) := by
  have hsame : s.Shows r (g.withSlots (g.moved none none)) (c + g.changed (g.moved none none)) := by
    rw [Region.moved_none_none, h.withSlots_slot, Region.changed_of_same fun _ _ => rfl]
    exact h.counted_none
  unfold State.unpinEarlier Ctx.slotToUnpin
  cases x.pin with
  | none => exact hsame
  | some m =>
    by_cases hm : m = n ∨ m = x.vpin
    · simpa [hm] using hsame
    · simpa [hm] using h.unpin m

theorem State.Shows.switchPins (x : Ctx) (n : Nat) (hpins : ∀ k < 4, (g.slot k).pins < 2047) :
    (s.switchPins r x n).Shows r (g.withSlots (g.moved (x.slotToPin g n) (x.slotToUnpin g n)))
      (c + g.changed (g.moved (x.slotToPin g n) (x.slotToUnpin g n))) := by
  have hfirst := h.unpinEarlier x n
  have hne : ∀ k, x.slotToPin g n = some k → x.slotToUnpin g n ≠ some k :=
    fun k hpin hunpin => h.ver_slotToUnpin hunpin (h.ver_slotToPin hpin)
  rw [Region.changed_moved hne, switchPins_eq]
  by_cases hn : n = x.vpin ∨ x.pin = some n
  · rw [if_pos hn, Ctx.slotToPin, if_pos hn]
    exact hfirst
  · have hholding : x.slotToPin g n = (g.withSlots (g.moved none (x.slotToUnpin g n))).slotHolding n := by
      rw [h.slotHolding_moved fun k => h.ver_slotToUnpin, Ctx.slotToPin, if_neg hn]
    rw [if_neg hn, ← Region.moved_moved hne, hholding]
    refine hfirst.pin fun k hk => ?_
    rw [Region.slot_withSlots g _ hk]
    exact Nat.lt_of_le_of_lt (Region.moved_none_pins g _ k) (hpins k hk)

theorem State.Shows.movePin {p old new : Nat} (hp : s.rolloutRegion p = some r) (hne : old ≠ new) :
    (s.movePin p old new).Shows r (g.withSlots (g.moved none (g.slotHolding old))) (c + g.changed (g.moved none (g.slotHolding old))) := by
  have hs : s.movePin p old new = (s.atRegion r).unpin r old := by
    rw [State.movePin, if_neg hne, hp]
  rw [hs, h.atRegion_eq]
  exact h.unpin old

end Pins

end Sys2Proof.Machine
end

section
/-! The steps of VERPUB and VERSW and the pins that they move (14 R213 to R217), O24. -/
namespace Sys2Proof.Machine

/-! ### Pins -/

theorem claims_pinsMove : Claims.PinsMove := by
  intro s r n p x g hs hr _ hflushed hpins hcounters moves
  have h : s.Shows r g (Tab.get 0 (s.part g.lpart).counters g.evc) := ⟨hs, hr, hflushed, hcounters, rfl⟩
  have hroom : ∀ k < 4, (g.slot k).pins < 2047 := by
    intro k hk
    refine hpins _ ?_
    rw [← h.withSlots_slot]
    exact List.mem_map.mpr ⟨k, List.mem_range.mpr hk, by rw [h.withSlots_slot]⟩
  have hmoves {t : State} {up down : Option Nat} {more less : Nat → Bool} (hmore : ∀ k, more k = true ↔ up = some k)
      (hless : ∀ k, less k = true ↔ down = some k)
      (ht : t.Shows r (g.withSlots (g.moved up down))
        (Tab.get 0 (s.part g.lpart).counters g.evc + g.changed (g.moved up down))) : moves t more less := by
    have hslots : (fun k => if more k then (g.slot k).pinned else if less k then (g.slot k).unpinned else g.slot k) =
        g.moved up down := by
      funext k
      simp only [Region.moved, hmore, hless]
    rw [← hslots] at ht
    exact ⟨ht.region, ht.count⟩
  refine ⟨hmoves (fun k => ?_) (fun k => ?_) (h.switchPins x n hroom),
    fun old new hp hne => hmoves (fun k => ?_) (fun k => beq_iff_eq) (h.movePin hp hne)⟩
  · by_cases hn : n = x.vpin ∨ x.pin = some n
    · rw [Ctx.slotToPin, if_pos hn]
      simpa using fun h1 h2 => absurd hn (not_or.mpr ⟨h1, h2⟩)
    · rw [Ctx.slotToPin, if_neg hn]
      simp [not_or.mp hn]
  · unfold Ctx.slotToUnpin
    cases x.pin with
    | none => simp
    | some m =>
      by_cases hm : m = n ∨ m = x.vpin
      · simpa [hm] using fun h1 h2 => absurd hm (not_or.mpr ⟨h1, h2⟩)
      · simp [not_or.mp hm]
  · simp

/-! ### The steps of requests -/

/-- R175, R213: the request of a publish that waits for no other, for no STQ and for no room may take its step. -/
theorem canVer_publish {s : State} {n : Nat} {q : VerReq} (hq : s.verReqs[n]? = some q) (hpub : q.pub = true) (hheld : q.held = false)
    (hissued : q.issued < s.cycle) (hfirst : ∀ v ∈ s.verReqs.take n, ¬ (v.ctx = q.ctx ∧ v.pub = true ∧ v.held = false))
    (hstq : ∀ w ∈ s.tagWrites, w.cmd = none → w.peer = none → w.held = none → w.ctx = q.ctx →
      w.kernel = (s.ctx q.ctx).share.kernel → q.res ≤ w.num)
    (hroom : (s.ctx q.ctx).level = 2 ∨ s.roomToRelease q.ctx .device = true) : s.canVer true n = true := by
  have hbefore : ((s.verReqs.take n).any fun v => v.ctx == q.ctx && v.pub == true && !v.held) = false :=
    List.any_eq_false.mpr fun v hv => by simpa [and_assoc] using hfirst v hv
  have haccepted : (s.tagWrites.any fun w => w.ofCtx q.ctx (s.ctx q.ctx).share.kernel && w.num < q.res) = false :=
    List.any_eq_false.mpr fun w hw => by simpa [TagWrite.ofCtx, and_assoc] using hstq w hw
  simp only [State.canVer, hq, hpub, hheld, hbefore, haccepted]
  simpa using ⟨hissued, hroom⟩

theorem canVer_switch {s : State} {n : Nat} {q : VerReq} (hq : s.verReqs[n]? = some q) (hpub : q.pub = false) (hheld : q.held = false)
    (hissued : q.issued < s.cycle) (hfirst : ∀ v ∈ s.verReqs.take n, ¬ (v.ctx = q.ctx ∧ v.pub = false ∧ v.held = false)) :
    s.canVer false n = true := by
  have hbefore : ((s.verReqs.take n).any fun v => v.ctx == q.ctx && v.pub == false && !v.held) = false :=
    List.any_eq_false.mpr fun v hv => by simpa [and_assoc] using hfirst v hv
  simp only [State.canVer, hq, hpub, hheld, hbefore]
  simpa using hissued

section Requests
variable {s : State} {n : Nat} {q : VerReq} (hq : s.verReqs[n]? = some q)
include hq

theorem doVerpub_unbound (hb : s.regionBound (s.ctx q.ctx).part = none) : s.doVerpub n = s.failVer n q 2 := by
  simp only [State.doVerpub, hq, hb]

theorem doVersw_unbound (hb : s.regionBound (s.ctx q.ctx).part = none) : s.doVersw n = s.failVer n q 2 := by
  simp only [State.doVersw, hq, hb]

section Bound
variable {r : Nat} {g : Region} (hb : s.regionBound (s.ctx q.ctx).part = some (r, g))
include hb

theorem doVerpub_other (hl : g.lpart ≠ (s.ctx q.ctx).part) : s.doVerpub n = s.failVer n q 2 := by
  simp only [State.doVerpub, hq, hb, if_pos hl]

/-- R213: the learner's region publishes as it stands once the release has committed. -/
theorem doVerpub_learner (hl : g.lpart = (s.ctx q.ctx).part) {h : Region}
    (hr : (((s.atRegion r).release q.ctx .device).atRegion r).region r = some h) : s.doVerpub n =
      (((((s.atRegion r).release q.ctx .device).atRegion r).publishRegion r h).2.dropVer n).updCtx q.ctx fun x =>
        x.fillResult q.res ((((s.atRegion r).release q.ctx .device).atRegion r).publishRegion r h).1 none := by
  simp only [State.doVerpub, hq, hb, if_neg (not_not_intro hl), hr]

theorem doVersw_fault {cond : Nat} (hto : g.switchTo (s.ctx q.ctx).part q.named = .error cond) :
    s.doVersw n = s.failVer n q cond := by
  simp only [State.doVersw, hq, hb, hto]

theorem doVersw_takes {v : Nat} (hto : g.switchTo (s.ctx q.ctx).part q.named = .ok v) : s.doVersw n =
    (((s.atRegion r).switchPins r (s.ctx q.ctx) v).dropVer n).updCtx q.ctx fun y => { y.fillResult q.res v none with pin := some v } := by
  simp only [State.doVersw, hq, hb, hto]

end Bound

end Requests

theorem claims_publishStep : Claims.PublishStep := by
  intro n s q hq hpub hheld hissued hfirst hstq hroom bound fault
  have hexec : exec (.verpubStep n) s = .next (s.doVerpub n) :=
    event_on (canVer_publish hq hpub hheld hissued hfirst hstq hroom) _
  exact ⟨fun hb => hexec.trans (congrArg _ (doVerpub_unbound hq hb)),
    fun r g hb hl => hexec.trans (congrArg _ (doVerpub_other hq hb hl)),
    fun r g h hb hl hr => hexec.trans (congrArg _ (doVerpub_learner hq hb hl hr))⟩

/-! R215: what a VERSW finds. -/

section Found
variable {g : Region} {p v k : Nat}

theorem switchTo_stranger (hm : bitAt g.rmask p = false) (named : Option Nat) : g.switchTo p named = .error 2 := by
  unfold Region.switchTo
  rw [hm]
  rfl

variable (hm : bitAt g.rmask p = true)
include hm

theorem switchTo_noCurrent (hc : g.slotIn stCurrent = none) : g.switchTo p none = .error 1 := by
  simp [Region.switchTo, hm, hc]

theorem switchTo_current (hc : g.slotIn stCurrent = some k) : g.switchTo p none = .ok (g.slots.getD k {}).ver := by
  simp [Region.switchTo, hm, hc]

theorem switchTo_unheld (hv : g.slotHolding v = none) : g.switchTo p (some v) = .error 1 := by
  simp [Region.switchTo, hm, hv]

theorem switchTo_held (hv : g.slotHolding v = some k) : g.switchTo p (some v) = .ok v := by
  simp [Region.switchTo, hm, hv]

end Found

theorem claims_switchStep : Claims.SwitchStep := by
  intro n s q hq hpub hheld hissued hfirst x fault
  have hexec : exec (.verswStep n) s = .next (s.doVersw n) := event_on (canVer_switch hq hpub hheld hissued hfirst) _
  refine ⟨fun hb => hexec.trans (congrArg _ (doVersw_unbound hq hb)), fun r g hb => ?_⟩
  have hfails {cond : Nat} (hto : g.switchTo x.part q.named = .error cond) : fault cond :=
    hexec.trans (congrArg _ (doVersw_fault hq hb hto))
  have htakes {v : Nat} (hto : g.switchTo x.part q.named = .ok v) :
      exec (.verswStep n) s = .next ((((s.atRegion r).switchPins r x v).dropVer n).updCtx q.ctx fun y =>
        { y.fillResult q.res v none with pin := some v }) :=
    hexec.trans (congrArg _ (doVersw_takes hq hb hto))
  refine ⟨fun hm => hfails (switchTo_stranger hm _), fun hm => ?_⟩
  cases hnamed : q.named with
  | none =>
    rw [hnamed] at hfails htakes
    cases hc : g.slotIn stCurrent with
    | none => exact hfails (switchTo_noCurrent hm hc)
    | some k => exact htakes (switchTo_current hm hc)
  | some v =>
    rw [hnamed] at hfails htakes
    dsimp only
    cases hv : g.slotHolding v with
    | none =>
      rw [if_neg (by nofun)]
      exact hfails (switchTo_unheld hm hv)
    | some k =>
      rw [if_pos Option.isSome_some]
      exact htakes (switchTo_held hm hv)

end Sys2Proof.Machine

open Sys2Proof Sys2Proof.Machine

/-- Settles O24: a request whose turn it is publishes or switches unless its region refuses it, and each change of a slot leaves the
region as `State.Shows` says. -/
theorem versionSteps : Obligations.VersionSteps := ⟨claims_publishStep, claims_switchStep, claims_pinsMove⟩

end

section
/-! The outcome of a publish (14 R213), O25. -/
namespace Sys2Proof.Machine

/-! ### The outcomes of a publish -/

/-- The number of the slot that is current, or 4 where none of the four is (log entry 91); and that slot. -/
def Region.current (g : Region) : Nat := (g.slotIn stCurrent).getD 4
def Region.currentSlot (g : Region) : VSlot := g.slot g.current

/-- Whether it is pinned or captured. -/
abbrev Region.CurrentHeld (g : Region) : Prop := 0 < g.currentSlot.pins ∨ g.currentSlot.cap = true

/-- The slots of a region once its draft, slot `k`, is current. -/
def Region.published (g : Region) (k n : Nat) : VSlot :=
  if n = k then { g.slot n with state := stCurrent }
  else if g.slotIn stCurrent = some n then { g.slot n with state := if g.CurrentHeld then stOlder else stRetired }
  else g.slot n

/-- The states of the draft and of the current slot change. -/
def State.publishSlots (s : State) (r : Nat) (g : Region) (k : Nat) : State :=
  let t := s.updSlot r k fun v => { v with state := stCurrent }
  if g.current < 4 then t.updSlot r g.current fun v => { v with state := if g.CurrentHeld then stOlder else stRetired } else t

/-- EVC counts the publish, and the retirement if there is one. -/
def State.countPublish (s : State) (r : Nat) (g : Region) : State :=
  if g.current < 4 ∧ ¬ g.CurrentHeld then (s.countVersion r).countVersion r else s.countVersion r

section Outcomes
variable {s : State} {r k : Nat} {g : Region}

theorem publishRegion_noDraft (hd : g.slotIn stDraft = none) : s.publishRegion r g = (pubFail 1 g.currentSlot.ver, s) := by
  simp only [State.publishRegion, hd]
  rfl

variable (hd : g.slotIn stDraft = some k)
include hd

theorem publishRegion_draft : s.publishRegion r g =
    if g.CurrentHeld ∧ (g.slots.countP fun v => v.state == stOlder) = 2 then (pubFail 2 g.currentSlot.ver, s)
    else if ∃ v ∈ g.slots, (v.state = stCurrent ∨ v.state = stOlder) ∧ v.ver = (g.slot k).ver then (pubFail 3 g.currentSlot.ver, s)
    else ((g.slot k).ver, (s.publishSlots r g k).countPublish r g) := by
  have hheld : (decide ((g.slots.getD ((g.slotIn stCurrent).getD 4) {}).pins > 0) ||
      (g.slots.getD ((g.slotIn stCurrent).getD 4) {}).cap) = decide g.CurrentHeld := by
    rw [Bool.eq_iff_iff, Bool.or_eq_true, decide_eq_true_eq, decide_eq_true_eq]
    rfl
  have htaken : (g.slots.any fun v => (v.state == stCurrent || v.state == stOlder) && v.ver == (g.slots.getD k {}).ver) =
      decide (∃ v ∈ g.slots, (v.state = stCurrent ∨ v.state = stOlder) ∧ v.ver = (g.slot k).ver) := by
    rw [Bool.eq_iff_iff, List.any_eq_true, decide_eq_true_eq]
    simp only [Bool.and_eq_true, Bool.or_eq_true, beq_iff_eq]
    rfl
  simp only [State.publishRegion, hd, hheld, htaken, Bool.and_eq_true, decide_eq_true_eq, Bool.not_eq_true', decide_eq_false_iff_not]
  rfl

end Outcomes

section InState
variable {s : State} {r : Nat} {g : Region} {c : Word64} (h : s.Shows r g c)
include h

theorem State.Shows.slotIn_eq_some {st n : Nat} (hn : g.slotIn st = some n) : n < 4 ∧ (g.slot n).state = st := by
  rw [← h.withSlots_slot] at hn
  obtain ⟨hlt, hp, -⟩ := List.findIdx?_eq_some_iff_getElem.mp hn
  have hlt : n < 4 := by simpa [Region.withSlots] using hlt
  exact ⟨hlt, by simpa [Region.withSlots, hlt] using hp⟩

theorem State.Shows.setState {n st : Nat} (hn : n < 4) (hst : st < 8) :
    (s.updSlot r n fun v => { v with state := st }).Shows r (g.setSlot n { g.slot n with state := st }) c :=
  have hfits := h.slot_fits hn
  h.updSlot hn ⟨hfits.ver, hfits.root, hst, hfits.pins⟩

theorem State.Shows.publishSlots {k : Nat} (hd : g.slotIn stDraft = some k) :
    (s.publishSlots r g k).Shows r (g.withSlots (g.published k)) c ∧
      ∀ x, x < s.regionAt r + 16 ∨ s.regionAt r + 80 ≤ x → Memory.read (s.publishSlots r g k).dram x = Memory.read s.dram x := by
  obtain ⟨hk, hdraft⟩ := h.slotIn_eq_some hd
  have hfirst := h.setState hk (st := stCurrent) (by decide)
  have hread (x : Nat) (hx : x < s.regionAt r + 16 ∨ s.regionAt r + 80 ≤ x) :=
    h.read_updSlot_of_outside hk (fun v => { v with state := stCurrent }) hx
  unfold State.publishSlots Region.current
  cases hc : g.slotIn stCurrent with
  | none =>
    have hregion : g.withSlots (g.published k) = g.setSlot k { g.slot k with state := stCurrent } := by
      refine Region.withSlots_congr (g := g) fun n _ => ?_
      by_cases hn : n = k
      · subst hn; simp [Region.published]
      · simp [Region.published, hn, hc]
    rw [hregion]
    exact ⟨hfirst, hread⟩
  | some n =>
    obtain ⟨hn, hcur⟩ := h.slotIn_eq_some hc
    have hnk : n ≠ k := by
      rintro rfl
      exact absurd (hcur.symm.trans hdraft) (by decide)
    have hslot : (g.setSlot k { g.slot k with state := stCurrent }).slot n = g.slot n :=
      (Region.slot_withSlots g _ hn).trans (if_neg hnk)
    have hst : (if g.CurrentHeld then stOlder else stRetired) < 8 := by split <;> decide
    have hsecond := hfirst.setState hn hst
    have hregion : g.withSlots (g.published k) = (g.setSlot k { g.slot k with state := stCurrent }).setSlot n
        { g.slot n with state := if g.CurrentHeld then stOlder else stRetired } := by
      refine (Region.withSlots_congr (g := g) fun j _ => ?_).trans (Region.setSlot_withSlots ..).symm
      by_cases hjk : j = k
      · subst hjk; simp [Region.published, hnk.symm]
      · by_cases hjn : j = n
        · subst hjn; simp [Region.published, hjk, hc]
        · simp [Region.published, hjk, hjn, hc, Ne.symm hjn]
    rw [hslot] at hsecond
    rw [hregion, Option.getD_some, if_pos hn]
    refine ⟨hsecond, fun x hx => ?_⟩
    rw [hfirst.read_updSlot_of_outside hn _ (by rwa [regionAt_congr (h.updSlot_vrtbase k _)]), hread x hx]

theorem State.Shows.current_lt : g.current < 4 ↔ (g.slotIn stCurrent).isSome := by
  unfold Region.current
  cases hc : g.slotIn stCurrent with
  | none => simp
  | some n => simpa using (h.slotIn_eq_some hc).1

theorem State.Shows.countPublish (g' : Region) : (s.countPublish r g').Shows r g
    (c + if g'.current < 4 ∧ ¬ g'.CurrentHeld then 2 else 1) := by
  unfold State.countPublish
  split
  · have htwo := h.countVersion.countVersion
    rw [BitVec.add_assoc] at htwo
    exact htwo
  · exact h.countVersion

theorem State.Shows.countVersion_dram : (s.countVersion r).dram = s.dram := by
  rw [h.countVersion_eq]
  rfl

theorem State.Shows.countPublish_dram (g' : Region) : (s.countPublish r g').dram = s.dram := by
  unfold State.countPublish
  split
  · rw [h.countVersion.countVersion_dram, h.countVersion_dram]
  · exact h.countVersion_dram

end InState

end Sys2Proof.Machine

open Sys2Proof Sys2Proof.Machine

/-- Settles O25: `publishRegion_draft` has the rows of R213, and `State.publishSlots` and `State.countPublish` are what a publish
changes. -/
theorem publishOutcome : Obligations.PublishOutcome := by
  intro s r g cur held fail
  refine ⟨publishRegion_noDraft, fun k hd => ?_⟩
  intro draft olders taken
  refine ⟨fun hh ho => ?_, fun hn ht => ?_, fun hn ht => ?_⟩
  · exact (publishRegion_draft hd).trans (if_pos ⟨hh, ho⟩)
  · exact (publishRegion_draft hd).trans ((if_neg hn).trans (if_pos ht))
  · have hpublish : s.publishRegion r g = (draft.ver, (s.publishSlots r g k).countPublish r g) :=
      (publishRegion_draft hd).trans ((if_neg hn).trans (if_neg ht))
    rw [hpublish]
    refine ⟨rfl, fun hs hr _ hflushed hcounters => ?_⟩
    have h : s.Shows r g (Tab.get 0 (s.part g.lpart).counters g.evc) := ⟨hs, hr, hflushed, hcounters, rfl⟩
    obtain ⟨hslots, hread⟩ := h.publishSlots hd
    have hcount := hslots.countPublish g
    simp only [h.current_lt] at hcount
    refine ⟨hcount.region, hcount.count, fun x hx => ?_⟩
    rw [hslots.countPublish_dram]
    exact hread x hx

end

section
/-! The supervisor's commands (16 R232; 19 R261), O41: which of them reach the device and a context, and what each then does. -/
namespace Sys2Proof.Machine

/-! ### Who commands -/

section Commands
variable {s : State} {p c q : Nat}

/-- The owner while its lease runs, and the partition firmware, command a partition that is configured, unless the alarm stands. -/
theorem supervised_of_reached {owner : Bool} (hon : (s.part p).on = true) (halarm : s.alarm = none)
    (howner : owner = true → s.Reached) : s.supervised ⟨p, owner⟩ = true := by
  cases owner with
  | false => simp [State.supervised, hon, halarm]
  | true => simp [State.supervised, hon, (howner rfl).ownerReaches_eq]

/-- A command that is heard changes what the lease counts from, and nothing else. -/
theorem hearFrom_eq (s : State) (b : Commander) : ∃ o, s.hearFrom b = { s with owner := o } := by
  unfold State.hearFrom
  split
  · exact ⟨_, rfl⟩
  · exact ⟨s.owner, rfl⟩

@[simp] theorem hearFrom_ctx (s : State) (b : Commander) (c : Nat) : (s.hearFrom b).ctx c = s.ctx c := by
  obtain ⟨o, h⟩ := hearFrom_eq s b
  rw [h]
  rfl

@[simp] theorem hearFrom_part (s : State) (b : Commander) (p : Nat) : (s.hearFrom b).part p = s.part p := by
  obtain ⟨o, h⟩ := hearFrom_eq s b
  rw [h]
  rfl

@[simp] theorem hearFrom_queue (s : State) (b : Commander) (p q : Nat) : (s.hearFrom b).queue p q = s.queue p q := by
  obtain ⟨o, h⟩ := hearFrom_eq s b
  rw [h]
  rfl

@[simp] theorem hearFrom_headKernel (s : State) (b : Commander) (p q : Nat) :
    (s.hearFrom b).headKernel p q = s.headKernel p q := by
  obtain ⟨o, h⟩ := hearFrom_eq s b
  rw [h]
  rfl

/-- CTXCMD reaches a resident context of its partition that is not held for its dump (R232, R253). -/
theorem commands_iff : s.commands p c = true ↔
    (s.ctx c).run ≠ .free ∧ (s.ctx c).share.lpart = p ∧ c ∉ (s.part p).dumps ∧ (s.part p).dead = false := by
  simp [State.commands, State.frozen, Ctx.part, and_assoc]

/-! ### CTXCMD (R232) -/

/-- A kill that waits for the record stands in the place of a resume that waits. -/
theorem holdAct_kill (x : Ctx) : x.holdAct 2 = { x with stop := x.stop.map fun t => { t with held := some 2 } } := by
  have hheld (t : Stop) : (if t.held = some 2 then t.held else some 2) = some 2 := by
    split
    · assumption
    · rfl
  simp only [Ctx.holdAct, hheld]

section Reached
variable (hc : s.commands p c = true)
include hc

theorem ctxResume_stopped (hrun : (s.ctx c).run = .stopped) (hstop : (s.ctx c).stop.isSome = true) :
    s.ctxResume p c = s.resumeCtx c := by
  simp [State.ctxResume, hc, hrun, hstop]

theorem ctxResume_stopping (hrun : (s.ctx c).run = .stopping) : s.ctxResume p c = s.updCtx c fun x => x.holdAct 1 := by
  simp [State.ctxResume, hc, hrun]

theorem ctxKill_stopped (hrun : (s.ctx c).run = .stopped) : s.ctxKill p c = s.killCtx c := by
  simp [State.ctxKill, hc, hrun]

theorem ctxKill_stopping (hrun : (s.ctx c).run = .stopping) : s.ctxKill p c = s.updCtx c fun x => x.holdAct 2 := by
  simp [State.ctxKill, hc, hrun]

/-- A context that takes turns, or waits between two tasks, is asked for its pre-emption. -/
theorem ctxPreempt_resident (hrun : (s.ctx c).run = .running ∨ ((s.ctx c).run = .finishing ∧ (s.ctx c).handler.isSome = true) ∨
    ∃ n, (s.ctx c).run = .between n) : s.ctxPreempt p c = s.updCtx c fun x => { x with preempt := true } := by
  obtain hrun | ⟨hrun, hhandler⟩ | ⟨n, hrun⟩ := hrun
  · simp [State.ctxPreempt, hc, Ctx.alive, hrun]
  · simp [State.ctxPreempt, hc, Ctx.alive, hrun, hhandler]
  · simp [State.ctxPreempt, hc, Ctx.alive, hrun]

end Reached

theorem ctxcmd_unreached (hc : ¬ s.commands p c = true) :
    s.ctxResume p c = s ∧ s.ctxKill p c = s ∧ s.ctxPreempt p c = s := by
  simp [State.ctxResume, State.ctxKill, State.ctxPreempt, hc]

/-! ### QCTL (R261) -/

theorem queueResume_halted (hhalt : (s.queue p q).halt.isSome = true) (hdead : (s.part p).dead = false) :
    s.queueResume p q = s.updQueue p q fun x => { x with halt := none, head := .idle, watch := 0, acted := 0 } := by
  simp [State.queueResume, hdead, Option.isSome_iff_ne_none.mp hhalt]

theorem queueDiscard_halted (hhalt : (s.queue p q).halt.isSome = true) (hdead : (s.part p).dead = false) :
    s.queueDiscard p q = ((s.dropRerun p q).updQueue p q fun x => { x with halt := none }).finish p q := by
  simp [State.queueDiscard, hdead, Option.isSome_iff_ne_none.mp hhalt]

/-- No packet is discarded while a kernel runs at the head. -/
theorem queueClear_running (hhead : (s.headKernel p q).isSome = true) : s.queueClear p q = s := if_pos hhead

theorem queueClear_idle (hhead : s.headKernel p q = none) : s.queueClear p q =
    (({ s with engines := s.engines.filter fun e => e.copy != some (p, q) } : State).dropRerun p q).updQueue p q fun x =>
      { x with packets := [], head := .idle, watch := 0, acted := 0, digest := none } :=
  if_neg (by simp [hhead])

end Commands

end Sys2Proof.Machine

open Sys2Proof Sys2Proof.Machine

/-- Settles O41: each command is heard, reaches its context or queue or not, and does what its state allows. -/
theorem supervisorCommands : Obligations.SupervisorCommands := by
  intro p c q owner s hon halarm howner x t reached queue dropped
  have hsup := supervised_of_reached hon halarm howner
  have ht : s.hearFrom ⟨p, owner⟩ = t := rfl
  have hctx : t.ctx c = x := hearFrom_ctx s ⟨p, owner⟩ c
  have hpart : t.part p = s.part p := hearFrom_part s ⟨p, owner⟩ p
  have hqueue : t.queue p q = queue := hearFrom_queue s ⟨p, owner⟩ p q
  have hhead : t.headKernel p q = s.headKernel p q := hearFrom_headKernel s ⟨p, owner⟩ p q
  have hc : t.commands p c = true ↔ reached := by rw [commands_iff, hctx, hpart]
  have hexec {u v : State} (h : u = v) : event (s.supervised ⟨p, owner⟩) u = .next v := (event_on hsup u).trans (congrArg _ h)
  rw [← hctx]
  refine ⟨fun hrun hstop hr => hexec (ctxResume_stopped (hc.mpr hr) hrun hstop),
    fun hrun hr => hexec (ctxResume_stopping (hc.mpr hr) hrun),
    fun hrun hr => hexec (ctxKill_stopped (hc.mpr hr) hrun),
    fun hrun hr => hexec ((ctxKill_stopping (hc.mpr hr) hrun).trans (congrArg (t.updCtx c) (funext holdAct_kill))),
    fun hrun hr => hexec (ctxPreempt_resident (hc.mpr hr) hrun), fun hr => ?_,
    fun hhalt hdead => hexec (queueResume_halted (hqueue ▸ hhalt) (hpart ▸ hdead)),
    fun hhalt hdead => hexec (queueDiscard_halted (hqueue ▸ hhalt) (hpart ▸ hdead)),
    fun hnone => hexec (queueClear_idle (hhead.trans hnone)), fun hsome => hexec (queueClear_running (hhead ▸ hsome))⟩
  obtain ⟨hresume, hkill, hpreempt⟩ := ctxcmd_unreached (mt hc.mp hr)
  exact ⟨hexec hresume, hexec hkill, hexec hpreempt⟩

end

section
/-! The fault record (16 R228, R230; 10 R185), O40: what its commit takes to memory with it. -/
namespace Sys2Proof.Machine

@[simp] theorem notify_dram (s : State) (kind part pcore tag : Nat) (body : List Word64) :
    (s.notify kind part pcore tag body).dram = s.dram := by
  obtain ⟨_, _, _, h⟩ := notify_eq s kind part pcore tag body
  rw [h]

/-- Two bytes of one plied access of cluster 0, not yet flushed: one in the place of context 0's record, one at address 0. -/
def pliedOverRecord : Cluster := { unflushed := [{ loc := 0x100000, access := 1 }, { loc := 0, byte := 7, access := 1 }] }

/-- Context 0 has trapped at a translation, with all that it waits for come back. -/
def trappedBesidePly : State := { State.reset with
  ctxs := [(0, { run := .stopping, stop := some { raised := { cause := .translation } } })]
  clusters := [(0, pliedOverRecord)]
  parts := [(0, { frbase := 0x100000 })]
  kernels := [{}] }

theorem trappedBesidePly_canonical : trappedBesidePly.Canonical := by constructor <;> decide

theorem canRecord_trappedBesidePly : trappedBesidePly.canRecord 0 = true := by decide

/-- The record's commit flushes the byte under it, and the other byte of the plied access with that one. -/
theorem read_doRecord_trappedBesidePly : Memory.read (trappedBesidePly.doRecord 0).dram 0 = 7 := by decide

end Sys2Proof.Machine

open Sys2Proof Sys2Proof.Machine

/-- Refutes O40: bytes that stand unflushed under the record go to memory before it, and with them all that their plied accesses have
written, wherever that is (R185, `withAccess`, log entry 92); the statement has every byte outside the record's place stay. In
`trappedBesidePly` the byte at address 0 goes from 0 to 7. -/
theorem not_faultRecordStep : ¬ Obligations.FaultRecordStep := by
  rintro ⟨hstep, -⟩
  obtain ⟨-, hrecord⟩ := hstep 0 trappedBesidePly { raised := { cause := .translation } } {} rfl (fun _ hr => absurd hr List.not_mem_nil)
    fun ⟨_, z, hz, _, hfatal⟩ => absurd hfatal (by obtain rfl := Option.some.inj hz; decide)
  obtain ⟨u, hexec, -, -, -, -, -, -, -, hframe⟩ := hrecord trappedBesidePly_canonical rfl rfl nofun (by decide) rfl
  have hmodel : exec (.faultRecordWrite 0) trappedBesidePly = .next (trappedBesidePly.doRecord 0) :=
    event_on canRecord_trappedBesidePly _
  have hread := read_doRecord_trappedBesidePly
  rw [Host.Outcome.next.inj (hmodel.symm.trans hexec), notify_dram, hframe 0 (.inl (by decide))] at hread
  exact absurd hread (by decide)

end

section
/-! How a bundle ends (02 R34, R43; 04 R74; 16 R228, R230; 21 R305), O51: which of its traps is taken and what the context is then, where
control goes else, and the rounds of a loop without masks. -/
namespace Sys2Proof.Machine

/-! ### The first trap of a bundle (R74) -/

section FirstTrap
variable {a b d r : Raised} {l : List Raised}

theorem Raised.first_iff : a.first b = true ↔
    a.after < b.after ∨ (a.after = b.after ∧ (a.pos < b.pos ∨ (a.pos = b.pos ∧ a.cause.code ≤ b.cause.code))) := by
  simp [Raised.first]

theorem Raised.first_refl (a : Raised) : a.first a = true := by simp [Raised.first_iff]

theorem Raised.first_trans (hab : a.first b = true) (hbd : b.first d = true) : a.first d = true := by
  rw [Raised.first_iff] at *
  omega

theorem Raised.first_of_not_first (h : ¬ a.first b = true) : b.first a = true := by
  rw [Raised.first_iff] at *
  omega

theorem firstRaised_mem_and_first (h : firstRaised l = some r) : r ∈ l ∧ ∀ q ∈ l, r.first q = true := by
  induction l generalizing r with
  | nil => cases h
  | cons a l ih =>
    rw [firstRaised] at h
    cases hl : firstRaised l with
    | none =>
      obtain rfl := firstRaised_none.mp hl
      obtain rfl := Option.some.inj h
      simp [Raised.first_refl]
    | some q =>
      obtain ⟨hq, hfirst⟩ := ih hl
      rw [hl] at h
      dsimp only at h
      split at h
      · next haq =>
        obtain rfl := Option.some.inj h
        exact ⟨List.mem_cons_self, List.forall_mem_cons.mpr
          ⟨a.first_refl, fun x hx => Raised.first_trans haq (hfirst x hx)⟩⟩
      · next haq =>
        obtain rfl := Option.some.inj h
        exact ⟨List.mem_cons_of_mem _ hq, List.forall_mem_cons.mpr ⟨Raised.first_of_not_first haq, hfirst⟩⟩

end FirstTrap

/-! ### DONE (R74, R230) -/

theorem testBit_maskOf (l : List Nat) (n : Nat) : (maskOf l).testBit n = decide (n ∈ l) := by
  suffices h : ∀ m : Nat, (l.foldl (fun m p => m ||| 2 ^ p) m).testBit n = (m.testBit n || decide (n ∈ l)) by
    simpa [maskOf] using h 0
  induction l with
  | nil => simp
  | cons p l ih =>
    intro m
    rw [List.foldl_cons, ih, Nat.testBit_or, Nat.testBit_two_pow, Bool.or_assoc]
    simp [eq_comm]

/-- DONE is clear for the listed positions and for that of a FLIP that does not take place. -/
theorem bitAt_doneMask_eq_false {n : Nat} (hn : n < 12) (clear : List Nat) (flip : Option FlipWait) :
    bitAt (doneMask clear flip) n = false ↔ n ∈ clear ∨ flip.map FlipWait.pos = some n := by
  rw [bitAt_eq_testBit]
  unfold doneMask
  rw [testBit_maskOf]
  cases flip with
  | none => simp [hn]
  | some w => simp [hn, or_iff_not_imp_left, eq_comm (a := w.pos)]

/-- A FLIP keeps its bit clear where another slot's trap keeps it from taking place. -/
theorem bitAt_doneMask_of_trap {n : Nat} (hn : n < 12) (raised : List Raised) (masked : List Nat) (flip : Option FlipWait) :
    bitAt (doneMask (raised.map Raised.pos ++ masked) (if raised = [] then none else flip)) n = false ↔
      n ∈ raised.map Raised.pos ∨ n ∈ masked ∨ (raised ≠ [] ∧ flip.map FlipWait.pos = some n) := by
  rw [bitAt_doneMask_eq_false hn, List.mem_append, or_assoc]
  split
  · next h => simp [h]
  · next h => simp only [ne_eq, h, not_false_eq_true, true_and]

/-! ### A bundle that traps (R228) -/

/-- The flags of the traps reach status CSRs and nothing else. -/
theorem trapFlags_eq (x : Ctx) (cycle baddr : Nat) (l : List Raised) :
    ∃ t n, x.trapFlags cycle baddr l = { x with csr := t, fevtAt := n } := by
  refine List.foldlRecOn (motive := fun y : Ctx => ∃ t n, y = { x with csr := t, fevtAt := n }) _ _ ⟨x.csr, x.fevtAt, rfl⟩ ?_
  rintro y ⟨t, n, rfl⟩ r -
  obtain ⟨t', n', h⟩ := raiseFlags_eq { x with csr := t, fevtAt := n } (cycle + r.after) r.fslot baddr r.pos r.flags
  exact ⟨t', n', h⟩

section Trap
variable {s : State} {c : Nat} (hs : s.Canonical)
include hs

/-- An update of a context is a write of what it has become. -/
theorem updCtx_eq_setCtx (f : Ctx → Ctx) : s.updCtx c f = s.setCtx c ((s.updCtx c f).ctx c) := by
  rw [State.ctx_updCtx hs.ctxs, if_pos rfl]
  rfl

theorem trapBundle_eq_setCtx (p : Plan) (r : Raised) : s.trapBundle c p r = s.setCtx c ((s.trapBundle c p r).ctx c) := by
  unfold State.trapBundle
  exact updCtx_eq_setCtx hs _

theorem ctx_trapBundle (p : Plan) (r : Raised) : ∃ n leaving, (s.trapBundle c p r).ctx c =
    { s.ctx c with
      csr := ((s.ctx c).trapFlags s.cycle (s.ctx c).pc s.slot.raised).csr, fevtAt := n
      flip := if s.slot.raised = [] then (s.ctx c).flip else none, walked := [], leaving }.takeTrap s.cycle r (s.ctx c).pc (s.ctx c).pc
        (doneMask (s.slot.raised.map Raised.pos ++ p.masked) (if s.slot.raised = [] then none else (s.ctx c).flip)) false := by
  rw [State.trapBundle, State.ctx_updCtx hs.ctxs, if_pos rfl]
  obtain ⟨t, n, h⟩ := trapFlags_eq (s.ctx c) s.cycle (s.ctx c).pc s.slot.raised
  refine ⟨n, (s.ctx c).leaving || s.slot.leave, ?_⟩
  simp only [h, List.isEmpty_iff, List.map_eq_nil_iff]

end Trap

theorem claims_trapStopsContext : Claims.TrapStopsContext := by
  constructor
  · intro l r h
    obtain ⟨hmem, hfirst⟩ := firstRaised_mem_and_first h
    exact ⟨hmem, fun q hq => Raised.first_iff.mp (hfirst q hq)⟩
  · intro c p r s hs x y
    obtain ⟨n, leaving, hy⟩ := ctx_trapBundle (c := c) hs p r
    have hset : s.trapBundle c p r = s.setCtx c y := trapBundle_eq_setCtx hs p r
    have hy : y = _ := hy
    refine ⟨?_, ?_, ?_, ?_, ?_, ?_, ?_, ?_, ?_, ?_, ?_, ?_, hset, _, (congrArg Ctx.stop hy).trans (takeTrap_stop ..), rfl, rfl, rfl, rfl, rfl,
      fun k hk => bitAt_doneMask_of_trap hk ..⟩
    all_goals rw [hy]; rfl

/-! ### A bundle that leaves to the next (R34, R43, R277) -/

section Advance
variable (x : Ctx) (size : Nat → Nat) (next : Nat)

/-- Where control goes changes the program counter and the loops, and nothing else. -/
theorem advance_eq : ∃ pc loops target newLoop, x.advance size next = { x with pc, loops, target, newLoop } := by
  unfold Ctx.advance
  split
  · exact ⟨_, _, _, _, rfl⟩
  · dsimp only
    split <;> exact ⟨_, _, _, _, rfl⟩

@[simp] theorem advance_flip : (x.advance size next).flip = x.flip := by
  obtain ⟨_, _, _, _, h⟩ := advance_eq x size next
  rw [h]

variable {x}

theorem advance_pc_of_target {a : Nat} (h : x.target = some a) : (x.advance size next).pc = a := by
  simp [Ctx.advance, h]

theorem advance_loops_of_target {a : Nat} (h : x.target = some a) (hh : x.inHandler = false) : (x.advance size next).loops = [] := by
  simp [Ctx.advance, h, hh]

end Advance

/-! ### Loops without masks (R305) -/

/-- Where no loop's mask skips the bundle at a place, control stays there. -/
theorem settleLoops_of_loopsAllow (size : Nat → Nat) (n : Nat) {p : Place} (h : loopsAllow p.loops = true) : settleLoops size n p = p := by
  cases n with
  | zero => rfl
  | succ n => exact if_pos h

theorem advance_pc_of_noLoop {x : Ctx} (size : Nat → Nat) (next : Nat) (ht : x.target = none) (hl : x.loops = [])
    (hn : x.newLoop = none) : (x.advance size next).pc = next := by
  have hplace : nextPlace size next [] none = { addr := next, loops := [] } := settleLoops_of_loopsAllow size 1024 rfl
  simp only [Ctx.advance, ht, hl, hn, hplace]
  split <;> rfl

section NoMasks
variable {l : Loop} (hf : l.first = 0) (hl : l.last = 0)
include hf hl

theorem allows_of_noMasks (i b : Nat) : l.allows i b = true := by simp [Loop.allows, hf, hl, bitAt]

theorem loopsAllow_of_noMasks (i b : Nat) : loopsAllow [{ l with iter := i, pos := b }] = true := by
  rw [loopsAllow, List.all_cons, List.all_nil, Bool.and_true]
  exact allows_of_noMasks (l := { l with iter := i, pos := b }) hf hl i b

/-- No iteration is passed over. -/
theorem bodySkipped_of_noMasks (hlen : 0 < l.len) (i : Nat) : bodySkipped l [] i = false := by
  refine List.all_eq_false.mpr ⟨0, List.mem_range.mpr hlen, ?_⟩
  rw [allows_of_noMasks hf hl]
  exact Bool.false_ne_true

end NoMasks

section Rounds
variable {l : Loop} {next : Nat}

/-- In the middle of its body a loop goes on to the next bundle. -/
theorem stepLoops_inside (h : l.pos + 1 < l.len) : stepLoops next [l] = { addr := next, loops := [{ l with pos := l.pos + 1 }] } :=
  if_pos h

/-- At the end of an iteration that is not the last, its body begins again. -/
theorem stepLoops_again (hf : l.first = 0) (hl : l.last = 0) (hpos : l.pos + 1 = l.len) (hiter : l.iter + 1 < l.count) :
    stepLoops next [l] = { addr := l.start, loops := [{ l with iter := l.iter + 1, pos := 0 }] } := by
  simp [stepLoops, hpos, bodySkipped_of_noMasks hf hl (by omega : 0 < l.len), hiter, shiftLoops]

/-- At the end of the last iteration the loop ends. -/
theorem stepLoops_last (hpos : l.pos + 1 = l.len) (hiter : l.iter + 1 = l.count) :
    stepLoops next [l] = { addr := next, loops := [] } := by
  simp [stepLoops, hpos, hiter]

end Rounds

theorem claims_loopRuns : Claims.LoopRuns := by
  intro size next l hf hl hpos hiter at_
  have hat {p : Place} {a : Nat} {ls : List Loop} (ha : loopsAllow ls = true) (hp : p = { addr := a, loops := ls }) :
      at_ (settleLoops size 1024 p) a ls := by
    rw [hp, settleLoops_of_loopsAllow size 1024 ha]
    exact ⟨rfl, rfl⟩
  refine ⟨fun h => hat (loopsAllow_of_noMasks hf hl l.iter (l.pos + 1)) (stepLoops_inside h),
    fun h hi => hat (loopsAllow_of_noMasks hf hl (l.iter + 1) 0) (stepLoops_again hf hl h hi),
    fun h hi => hat rfl (stepLoops_last h hi),
    hat (loopsAllow_of_noMasks hf hl l.iter l.pos) (if_neg (Nat.ne_of_gt (Nat.zero_lt_of_lt hiter))),
    hat rfl (if_pos rfl)⟩

/-! ### A bundle that has issued (R34, R44) -/

theorem settleFlip_of_noFlip {s : State} {c : Nat} (h : (s.ctx c).flip = none) : s.settleFlip c = s := by
  simp only [State.settleFlip, h]

/-- Drains reach scratchpad and nothing else. -/
theorem landDrains_eq (s : State) (c n : Nat) : ∃ k, s.landDrains c n = { s with cores := k } := by
  unfold State.landDrains
  dsimp only
  split
  · exact ⟨_, rfl⟩
  · exact ⟨s.cores, rfl⟩

/-- At a context without a FLIP the end of a bundle is the landing of drains. -/
theorem settleFlip_landDrains_setCtx {s : State} (hs : s.Canonical) (c n : Nat) {y : Ctx} (hy : y.flip = none) :
    ∃ cores, ((s.setCtx c y).landDrains c n).settleFlip c = { s.setCtx c y with cores } := by
  obtain ⟨cores, h⟩ := landDrains_eq (s.setCtx c y) c n
  have hctx : ((s.setCtx c y).landDrains c n).ctx c = y := by
    rw [h]
    exact (State.ctx_setCtx hs.ctxs c y c).trans (if_pos rfl)
  exact ⟨cores, (settleFlip_of_noFlip (by rw [hctx, hy])).trans h⟩

/-- What the end of a bundle without FLIP and RETH can change: its context goes on to the next bundle, and drains land. -/
theorem finishBundle_eq {s : State} {c : Nat} (p : Plan) (hs : s.Canonical) (hflip : (s.ctx c).flip = none)
    (hleave : s.slot.leave = false) (hleaving : (s.ctx c).leaving = false) : ∃ cores hold holdFor, s.finishBundle c p =
      { s.setCtx c { (s.ctx c).advance (s.sizeAt c) s.slot.next with
          count := if (s.ctx c).inHandler then (s.ctx c).count else (s.ctx c).count + 1
          last := (s.ctx c).pc, seq := (s.ctx c).seq + 1, redo := none, noBrk := false, walked := [], leaving := false
          hold, holdFor } with cores } := by
  unfold State.finishBundle
  simp only [hflip, hleave, hleaving, Option.isNone_none, Bool.and_true, Bool.or_false, Bool.false_eq_true, if_false]
  cases hh : (s.ctx c).inHandler with
  | true => exact ⟨s.cores, _, _, rfl⟩
  | false =>
    simp only [Bool.not_false, Bool.false_eq_true, if_false, if_true]
    refine (settleFlip_landDrains_setCtx hs c _ ?_).imp fun cores h => ⟨_, _, h⟩
    exact (advance_flip ..).trans hflip

theorem claims_bundleLeaves : Claims.BundleLeaves := by
  intro c p s hs hflip hleave hleaving x y
  obtain ⟨cores, hold, holdFor, hfin⟩ := finishBundle_eq p hs hflip hleave hleaving
  obtain ⟨pc, loops, target, newLoop, hadv⟩ := advance_eq (s.ctx c) (s.sizeAt c) s.slot.next
  have hy : y = _ := (congrArg (State.ctx · c) hfin).trans ((State.ctx_setCtx hs.ctxs c _ c).trans (if_pos rfl))
  have hpc : y.pc = (x.advance (s.sizeAt c) s.slot.next).pc := by rw [hy]
  have hloops : y.loops = (x.advance (s.sizeAt c) s.slot.next).loops := by rw [hy]
  refine ⟨by rw [hy], by rw [hy], ?_, ?_, ?_, ?_, ?_, ?_, ?_, ?_,
    fun a ha => ⟨hpc.trans (advance_pc_of_target _ _ ha), fun hh => hloops.trans (advance_loops_of_target _ _ ha hh)⟩,
    fun ht hl hn => hpc.trans (advance_pc_of_noLoop _ _ ht hl hn), by rw [hfin]; rfl,
    fun j hj => by rw [hfin]; exact State.ctx_setCtx_of_ne s _ hj⟩
  all_goals rw [hy, hadv]

end Sys2Proof.Machine

open Sys2Proof Sys2Proof.Machine

/-- Settles O51: the first trap of a bundle is taken, or control goes on by `Ctx.advance`, which for a loop without masks is one round of
`stepLoops`. -/
theorem bundleEnds : Obligations.BundleEnds := ⟨claims_trapStopsContext, claims_bundleLeaves, claims_loopRuns⟩

end

section
/-! The canonical form of the ten tables, O54: each function of the model that answers a state keeps it. Only a few of them write one of
the ten at all; the others are what those few are made into. Part one: the state of one context, its syllables and the caches. -/
namespace Sys2Proof.Machine

section CanonicalOps
variable {s : State}

theorem canonical_ite {p : Prop} [Decidable p] {t u : State} (ht : t.Canonical) (hu : u.Canonical) :
    (if p then t else u).Canonical := by
  split
  · exact ht
  · exact hu

/-! Of what the ten tables are not: a state's other parts may change. -/

theorem canonical_slot (h : s.Canonical) (x : Slot) : State.Canonical { s with slot := x } := { h with }

theorem canonical_fresh (h : s.Canonical) (n : Nat) : State.Canonical { s with fresh := n } := { h with }

variable (h : s.Canonical)
include h

theorem canonical_updCurCore (f : CoreSt → CoreSt) : (s.updCurCore f).Canonical := canonical_updCore h _ _

theorem canonical_updKernel (id : Nat) (f : Kernel → Kernel) : (s.updKernel id f).Canonical := { h with }

theorem canonical_updFor (kernel c : Nat) (f : Ctx → Ctx) : (s.updFor kernel c f).Canonical :=
  canonical_ite { h with } (canonical_ite (canonical_updCtx h ..) h)

theorem canonical_raiseEnabled (fl on : Flags) (lat : Nat) : (s.raiseEnabled fl on lat).Canonical := { h with }

theorem canonical_hearFrom (b : Commander) : (s.hearFrom b).Canonical := canonical_ite { h with } h

/-! ### A syllable's operands and results -/

theorem canonical_popPorts (i : Instr) : (s.popPorts i).Canonical := by
  unfold State.popPorts
  split
  · exact h
  · exact canonical_slot (canonical_updCur h _) _

theorem canonical_enter (rs : List Result) : (s.enter rs).Canonical := canonical_setCtx h ..

theorem canonical_post (rs : List Result) : (s.post rs).Canonical := by
  unfold State.post
  dsimp only
  split
  · split
    · exact canonical_raise h ..
    · exact canonical_raise (canonical_enter h _) ..
  · exact canonical_enter h _

theorem canonical_settle (fl : Flags) (lat : Nat) (rs : List Result) : (s.settle fl lat rs).Canonical :=
  canonical_ite (canonical_post h _) (canonical_raiseEnabled h ..)

theorem canonical_putScalar (file : RFile) (d val lat : Nat) (fl : Flags) : (s.putScalar file d val lat fl).Canonical :=
  canonical_settle h ..

theorem canonical_putVector (d wbits eb val lat : Nat) (fl : Flags) : (s.putVector d wbits eb val lat fl).Canonical :=
  canonical_settle h ..

theorem canonical_putPred (d val lat : Nat) : (s.putPred d val lat).Canonical := canonical_settle h ..

theorem canonical_putPair (d val neg lval lat : Nat) (fl : Flags) : (s.putPair d val neg lval lat fl).Canonical := canonical_settle h ..

omit h in
theorem canonical_undoReads {t : State} (ht : t.Canonical) : (undoReads s t).Canonical :=
  canonical_ite ht (canonical_updCur ht _)

theorem canonical_raisePort (r : Raised) (t : State) : (s.raisePort r t).Canonical :=
  canonical_slot (canonical_updCur h _) _

/-- A syllable keeps the canonical form when its body does. -/
theorem canonical_perform {i : Instr} {body : State → State} {t : State} (hb : ∀ {u : State}, u.Canonical → (body u).Canonical)
    (hx : perform i s body = .next t) : t.Canonical := by
  unfold perform at hx
  split at hx
  · cases hx; exact canonical_raise h ..
  · split at hx
    · split at hx
      · cases hx; exact canonical_raisePort h ..
      · cases hx; exact canonical_undoReads (hb (canonical_popPorts h _))
    · cases hx; exact h

omit h in
theorem canonical_event {ok : Bool} {u t : State} (hu : u.Canonical) (hx : event ok u = .next t) : t.Canonical := by
  obtain ⟨-, rfl⟩ := event_next hx
  exact hu

/-! ### Classes 1 to 6 -/

theorem canonical_putH (d val : Nat) : (s.putH d val).Canonical := canonical_ite h (canonical_updCur h _)

theorem canonical_aluBody (f : Nat → Nat → Nat × Flags) (d a b : BitVec 6) (i : Bool) : (aluBody f d a b i s).Canonical :=
  canonical_ite (canonical_putH h ..) (canonical_putScalar h ..)

theorem canonical_moveBody (file : RFile) (d : BitVec 6) (src val : State → Nat) : (moveBody file d src val s).Canonical :=
  canonical_ite (canonical_putH h ..) (canonical_putScalar h ..)

theorem canonical_selBody (g : BitVec 3) (d a b : BitVec 6) : (selBody g d a b s).Canonical := canonical_putScalar h ..

theorem canonical_cmpBody (c : Cond) (d a b : BitVec 6) (i : Bool) : (cmpBody c d a b i s).Canonical := by
  unfold cmpBody
  exact canonical_putPair h ..

theorem canonical_goTo (a : Nat) : (s.goTo a).Canonical := canonical_updCur h _

theorem canonical_link : s.link.Canonical := canonical_putScalar h ..

omit h in
theorem canonical_goToReg {a : Nat} {k : State → State} (hk : ∀ {u : State}, u.Canonical → (k u).Canonical) (h : s.Canonical) :
    (s.goToReg a k).Canonical :=
  canonical_ite (hk (canonical_goTo h _)) (canonical_raise h ..)

theorem canonical_loopBody (lvl : Fin 6) (len : BitVec 4) (cnt : BitVec 6) : (loopBody lvl len cnt s).Canonical :=
  canonical_ite (canonical_raise h ..) (canonical_updCur h _)

theorem canonical_flipBody (bar : BScope) (pub : PScope) : (flipBody bar pub s).Canonical := canonical_updCur h _

theorem canonical_retireBody  : (retireBody  s).Canonical := canonical_updCur h _

theorem canonical_rethBody : (rethBody s).Canonical := canonical_slot h _

theorem canonical_debugBody (cond : Nat) (imm : BitVec 8) : (debugBody cond imm s).Canonical := canonical_ite h (canonical_raise h ..)

theorem canonical_vecBody (f : Nat → Nat → Nat → Nat) (w : Width) (z : ESize) (d a b : BitVec 5) :
    (vecBody f w z d a b s).Canonical := canonical_putVector h ..

theorem canonical_vec1Body (f : Nat → Nat → Nat) (w : Width) (z : ESize) (d a : BitVec 5) : (vec1Body f w z d a s).Canonical :=
  canonical_putVector h ..

theorem canonical_vselBody (w : Width) (d a b : BitVec 5) : (vselBody w d a b s).Canonical := by
  unfold vselBody
  exact canonical_settle h ..

theorem canonical_vrediBody (w : Width) (z : ESize) (u : Bool) (d a sel : BitVec 5) : (vrediBody w z u d a sel s).Canonical :=
  canonical_putVector h ..

theorem canonical_vcmpBody (c : Cond) (w : Width) (z : ESize) (d : BitVec 3) (a b : BitVec 5) :
    (vcmpBody c w z d a b s).Canonical := by
  unfold vcmpBody
  exact canonical_putPair h ..

theorem canonical_vpermBody (w : Width) (z : ESize) (d a b : BitVec 5) : (vpermBody w z d a b s).Canonical :=
  canonical_putVector h ..

theorem canonical_vbcastBody (w : Width) (z : ESize) (k : Bool) (d a : BitVec 5) : (vbcastBody w z k d a s).Canonical := by
  unfold vbcastBody
  exact canonical_putVector h ..

theorem canonical_vseqBody (w : Width) (z : ESize) (d a b : BitVec 5) : (vseqBody w z d a b s).Canonical := by
  unfold vseqBody
  exact canonical_putVector h ..

theorem canonical_visectBody (d a b : BitVec 5) : (visectBody d a b s).Canonical := by
  unfold visectBody
  exact canonical_putVector h ..

theorem canonical_rngcBody (w : Width) (z : ESize) (d a b : BitVec 5) : (rngcBody w z d a b s).Canonical := by
  unfold rngcBody
  exact canonical_putVector h ..

theorem canonical_vextBody (w : Width) (z : ESize) (d a b : BitVec 5) : (vextBody w z d a b s).Canonical :=
  canonical_putScalar h ..

theorem canonical_vinsBody (w : Width) (z : ESize) (d a b : BitVec 5) : (vinsBody w z d a b s).Canonical := by
  unfold vinsBody
  exact canonical_putVector h ..

theorem canonical_vmovpBody (w : Width) (toPred : Bool) (d a : BitVec 5) : (vmovpBody w toPred d a s).Canonical :=
  canonical_ite (canonical_putPred h ..) (canonical_putVector h ..)

theorem canonical_putFloats (d wbits eb lat : Nat) (y : List (Nat × Flags)) : (s.putFloats d wbits eb lat y).Canonical :=
  canonical_putVector h ..

theorem canonical_floatBody (op : Fmt → Bool → RMode → Nat → Nat → Nat × Flags) (w : Width) (f : FFmt) (sat : Bool) (d a b : BitVec 5) :
    (floatBody op w f sat d a b s).Canonical := by
  unfold floatBody
  exact canonical_putFloats h ..

theorem canonical_signBody (op : Nat → Nat → Nat) (w : Width) (f : FFmt) (d a : BitVec 5) : (signBody op w f d a s).Canonical :=
  canonical_putVector h ..

theorem canonical_fmaBody (w : Width) (f : FFmt) (g : Fmt) (gb : Nat) (sat : Bool) (d a b : BitVec 5) :
    (fmaBody w f g gb sat d a b s).Canonical := by
  unfold fmaBody
  exact canonical_putFloats h ..

theorem canonical_fredBody (w : Width) (f : FFmt) (d a sel : BitVec 5) : (fredBody w f d a sel s).Canonical := by
  unfold fredBody
  exact canonical_putVector h ..

theorem canonical_fcmpBody (c : FCond) (w : Width) (f : FFmt) (d : BitVec 3) (a b : BitVec 5) :
    (fcmpBody c w f d a b s).Canonical := by
  unfold fcmpBody
  exact canonical_putPair h ..

theorem canonical_specialBody (op : Fmt → RMode → Nat → Nat × Flags) (lat : Nat) (w : Width) (f : FFmt) (d a : BitVec 5) :
    (specialBody op lat w f d a s).Canonical := by
  unfold specialBody
  exact canonical_putFloats h ..

theorem canonical_fdivBody (w : Width) (f : FFmt) (d a b : BitVec 5) : (fdivBody w f d a b s).Canonical := by
  unfold fdivBody
  exact canonical_putFloats h ..

theorem canonical_rndUse (r : Rnd) : (s.rndUse r).Canonical := by
  unfold State.rndUse
  split
  · exact canonical_updCur h _
  · exact h

theorem canonical_cvtBody (w : Width) (sf df : CFmt) (d a : BitVec 5) (r : Rnd) : (cvtBody w sf df d a r s).Canonical := by
  unfold cvtBody
  exact canonical_putFloats (canonical_rndUse h r) ..

theorem canonical_qntBody (mode : BitVec 2) (d a : BitVec 5) (r : Rnd) : (qntBody mode d a r s).Canonical := by
  unfold qntBody
  exact canonical_settle (canonical_rndUse h r) ..

theorem canonical_dqntBody (mode : BitVec 2) (d a : BitVec 5) : (dqntBody mode d a s).Canonical := by
  unfold dqntBody
  exact canonical_putFloats h ..

/-! ### Caches, atomics and walks that begin -/

theorem canonical_acquireView (c : Nat) : (s.acquireView c).Canonical := canonical_updCtx h ..

theorem canonical_acquireVersion (c : Nat) : (s.acquireVersion c).Canonical := canonical_updCtx h ..

theorem canonical_readOnlyBytes (c dpa n : Nat) : (s.readOnlyBytes c dpa n).2.Canonical := by
  unfold State.readOnlyBytes
  dsimp only
  exact canonical_fresh (canonical_updCluster h _ _) _

theorem canonical_replaceLine (k line : Nat) : (s.replaceLine k line).Canonical := by
  unfold State.replaceLine
  dsimp only
  exact canonical_updCluster (canonical_ite h (canonical_carryPoison (canonical_deviceCommit h ..) ..)) ..

theorem canonical_touchCluster (k line : Nat) : (s.touchCluster k line).Canonical := canonical_updCluster h ..

theorem canonical_cacheRead (c loc : Nat) (hint : Option Nat) : (s.cacheRead c loc hint).1.Canonical := by
  unfold State.cacheRead
  split
  · exact h
  · dsimp only
    split <;> dsimp only
    · exact canonical_updCore h ..
    · exact canonical_touchCluster (canonical_updCore h ..) ..

theorem canonical_cacheWrite (c loc : Nat) : (s.cacheWrite c loc).Canonical := by
  unfold State.cacheWrite
  split
  · exact canonical_ite h (canonical_touchCluster h ..)
  · exact canonical_ite (canonical_updCore h ..) (canonical_touchCluster (canonical_updCore h ..) ..)

theorem canonical_atomicRun (a : Atomic) : (s.atomicRun a).2.Canonical := by
  unfold State.atomicRun
  dsimp only
  split
  · dsimp only
    split
    · exact h
    · exact canonical_sendRemote h _
  · dsimp only
    exact canonical_clusterCommit (canonical_touchCluster h ..) ..
  · dsimp only
    exact canonical_deviceCommit (canonical_flushAt h _) ..

theorem canonical_startWalk (k : Nat) : (s.startWalk k).Canonical := by
  unfold State.startWalk
  split
  · exact h
  · split
    · exact h
    · exact { h with }

omit h in
theorem canonical_startAll (k n : Nat) (h : s.Canonical) : (s.startAll k n).Canonical := by
  induction n generalizing s with
  | zero => exact h
  | succ n ih => exact canonical_ite (ih (canonical_startWalk h k)) h

/-! ### Loads and prefetches (class 7) -/

theorem canonical_lateFor (lat a : Nat) (isVar : Bool) (data tag : Nat) (q : Raised) :
    (s.lateFor lat a isVar data tag q).Canonical := canonical_enter h _

omit h in
theorem canonical_unlessBad {body : State → State} (hb : ∀ {u : State}, u.Canonical → (body u).Canonical) (h : s.Canonical) :
    (s.unlessBad body).Canonical := by
  unfold State.unlessBad
  split
  · split
    · exact canonical_lateFor h ..
    · exact { h with }
  · exact hb h

theorem canonical_ldAt (d : BitVec 6) (m : ASize) (a : Nat) : (ldAt d m a s).Canonical := by
  unfold ldAt
  split
  · exact canonical_raise h ..
  · split
    · exact canonical_raise h ..
    · exact canonical_post (canonical_cacheRead (canonical_fresh h _) ..) _

theorem canonical_ldrAt (d : BitVec 6) (m : ASize) (a : Nat) : (ldrAt d m a s).Canonical := by
  unfold ldrAt
  split
  · exact canonical_raise h ..
  · split
    · exact canonical_raise h ..
    · dsimp only
      split
      · exact canonical_post (canonical_fresh h _) _
      · exact canonical_post (canonical_readOnlyBytes h ..) _

theorem canonical_ldsAt (d : BitVec 6) (m : ASize) (a : Nat) : (ldsAt d m a s).Canonical :=
  canonical_ite (canonical_raise h ..) (canonical_ite (canonical_raise h ..) (canonical_post (canonical_slot h _) _))

theorem canonical_pfFaulted (c : Nat) : (s.pfFaulted c).Canonical := canonical_updCtx h ..

theorem canonical_prefetchLine (c loc : Nat) (toCluster : Bool) : (s.prefetchLine c loc toCluster).Canonical := by
  unfold State.prefetchLine
  split
  · exact h
  · exact canonical_touchCluster (canonical_ite h (canonical_updCore h ..)) ..

theorem canonical_pfAt (toCluster : Bool) (a : Nat) : (pfAt toCluster a s).Canonical := by
  unfold pfAt
  dsimp only
  split
  · exact h
  · split
    · exact canonical_pfFaulted h _
    · exact canonical_ite (canonical_pfFaulted (canonical_fresh h _) _) (canonical_fresh h _)
    · split
      · split
        · exact canonical_pfFaulted h _
        · exact canonical_prefetchLine h ..
      · exact canonical_ite { h with } (canonical_updCtx h ..)

/-! ### The matrix unit, deviation records, system syllables -/

omit h in
theorem canonical_arrayEffect {f : State → State} (fl : Flags) (lat : Nat) (hf : ∀ {u : State}, u.Canonical → (f u).Canonical)
    (h : s.Canonical) : (s.arrayEffect fl lat f).Canonical :=
  canonical_ite (canonical_updCur (hf h) _) (canonical_raiseEnabled h ..)

theorem canonical_setArray (m : MatrixArray) : (s.setArray m).Canonical := canonical_updCurCore h _

theorem canonical_saturating (r : MatrixArray × Bool) : (s.saturating r).Canonical :=
  canonical_arrayEffect _ _ (canonical_setArray · _) h

theorem canonical_xcfgBody (bank : Bool) (pa pb : BitVec 2) (dexp : BitVec 8) : (xcfgBody bank pa pb dexp s).Canonical :=
  canonical_arrayEffect _ _ (canonical_setArray · _) h

theorem canonical_xpushBody : (xpushBody s).Canonical := canonical_ite { h with } (canonical_saturating h _)

theorem canonical_xdrainBody (bank : Bool) : (xdrainBody bank s).Canonical := by
  unfold xdrainBody
  dsimp only
  split
  · exact canonical_raise h ..
  · exact canonical_ite (canonical_raise h ..)
      (canonical_arrayEffect _ _ (fun hu => canonical_updCurCore (canonical_updCur (canonical_setArray hu _) _) _) h)

theorem canonical_landDrains (c n : Nat) : (s.landDrains c n).Canonical := canonical_ite (canonical_updCore h ..) h

theorem canonical_timeDrains (c f : Nat) : (s.timeDrains c f).Canonical := canonical_ite (canonical_updCore h ..) h

theorem canonical_qpushBody (d : BitVec 6) (z : QSize) : (qpushBody d z s).Canonical := by
  unfold qpushBody
  dsimp only
  split
  · split
    · exact canonical_ite (canonical_raise h ..) (canonical_updCurCore h _)
    · exact canonical_ite (canonical_raise h ..) (canonical_updCurCore h _)
  · exact canonical_updCurCore h _

theorem canonical_qpopBody (d : BitVec 6) (m : ASize) : (qpopBody d m s).Canonical := by
  unfold qpopBody
  split
  · exact canonical_raise h ..
  · exact canonical_ite (canonical_raise h ..)
      (canonical_ite (canonical_updCurCore (canonical_post h _) _) (canonical_post h _))

theorem canonical_ringWrite (core : Nat) (b : List Byte) : (s.ringWrite core b).Canonical := by
  unfold State.ringWrite
  dsimp only
  exact canonical_updCore (canonical_deviceCommit h ..) ..

theorem canonical_lostRecord (core : Nat) : (s.lostRecord core).Canonical := by
  unfold State.lostRecord
  dsimp only
  exact canonical_updCore (canonical_ringWrite (canonical_fresh h _) ..) ..

theorem canonical_dropRecord (core : Nat) : (s.dropRecord core).Canonical := canonical_updCore h ..

theorem canonical_putRecord (core ctx : Nat) (d : Dev) : (s.putRecord core ctx d).Canonical :=
  have lost := canonical_lostRecord h core
  canonical_ite h (canonical_ite (canonical_dropRecord h _) (canonical_ite (canonical_ringWrite h ..)
    (canonical_ite (canonical_dropRecord lost _) (canonical_ringWrite lost ..))))

theorem canonical_lose (c cause baddr pos : Nat) : (s.lose c cause baddr pos).Canonical := canonical_updCtx h ..

theorem canonical_endRecords (c : Nat) : (s.endRecords c).Canonical :=
  canonical_ite h (canonical_foldl _ (fun _ _ ht => canonical_putRecord ht ..) _ (canonical_setCtx h ..))

theorem canonical_csrrBody (d : BitVec 6) (n : Nat) : (csrrBody d n s).Canonical := canonical_putScalar h ..

theorem canonical_csrwBody (a : BitVec 6) (n : Nat) : (csrwBody a n s).Canonical := canonical_post h _

theorem canonical_flagsBody (d : BitVec 6) (clear : Bool) (k : Nat) : (flagsBody d clear k s).Canonical := by
  unfold flagsBody
  exact canonical_post h _

theorem canonical_versionRequest (pub : Bool) (named : Option Nat) (r : Result) : (versionRequest pub named r s).Canonical :=
  have posted := canonical_post h _
  canonical_ite { posted with } posted

theorem canonical_verswBody (named : Option Nat) : (verswBody named s).Canonical := canonical_versionRequest h ..

theorem canonical_verpubBody (d : BitVec 6) : (verpubBody d s).Canonical := canonical_versionRequest h ..

theorem canonical_qarmBody (port : BitVec 3) (b : BitVec 5) : (qarmBody port b s).Canonical := by
  unfold qarmBody
  split
  · exact canonical_raise h ..
  · exact canonical_updCur h _

/-! ### Ports that read ahead -/

theorem canonical_portSees (c : Nat) (w : Walker) : (s.portSees c w).Canonical := canonical_updCtx h ..

theorem canonical_fillChunks (c : Nat) (w : Walker) (first n : Nat) : (s.fillChunks c w first n).Canonical := by
  refine canonical_foldl _ (fun t i ht => ?_) _ h
  split
  · exact canonical_foldl _ (fun _ _ hu => canonical_cacheRead hu ..) _ ht
  · exact ht

theorem canonical_fillPage (core : Nat) (key : PageKey) : (s.fillPage core key).Canonical := by
  unfold State.fillPage
  split
  · exact canonical_updCore (canonical_fresh h _) ..
  · exact h

theorem canonical_fillPort (c n k : Nat) (w : Walker) : (s.fillPort c n k w).Canonical := by
  refine canonical_foldl _ (fun t i ht => ?_) _ h
  split
  · exact canonical_fillPage ht ..
  · exact ht

theorem canonical_arriveAt_ (c n k : Nat) : (s.arriveAt_ c n k).Canonical := by
  unfold State.arriveAt_
  dsimp only
  exact canonical_updCtx (canonical_fillChunks h ..) ..

theorem canonical_doArrive (c n : Nat) : (s.doArrive c n).Canonical := by
  unfold State.doArrive
  split
  · exact h
  · dsimp only
    split
    · exact canonical_arriveAt_ (canonical_fillPort h ..) ..
    · split
      · exact { h with }
      · exact canonical_arriveAt_ h ..

/-! ### Engines: what a chunk writes, and a command that begins -/

theorem canonical_engCommit (kernel : Nat) (o : EngOut) : (s.engCommit kernel o).Canonical := by
  have spad := canonical_foldl (fun (t : State) (p : Nat × Nat × Byte) => t.updCore p.1 fun k => k.engWrite p.2.1 p.2.2)
    (fun _ _ ht => canonical_updCore ht ..) o.spad h
  have kept := canonical_foldl (fun (t : State) (p : Nat × Nat × Byte) => t.putKept kernel p.1 p.2.1 p.2.2)
    (fun _ _ ht => { ht with }) o.kept spad
  have dev := fun l => canonical_deviceCommit kept .device l
  have self := fun (t : State) (ht : t.Canonical) l => canonical_deviceCommit ht .system l
  exact canonical_ite (canonical_ite (canonical_ite kept (dev _)) (self _ (canonical_ite kept (dev _)) _))
    (canonical_sendRemote (canonical_ite (canonical_ite kept (dev _)) (self _ (canonical_ite kept (dev _)) _)) _)

theorem canonical_engines (n m : Nat) (l : List EngCmd) :
    State.Canonical { s with serial := n, fresh := m, engines := l } := { h with }

theorem canonical_engineBody (op : Nat) (b : BitVec 5) (cmdh : Nat) : (engineBody op b cmdh s).Canonical := by
  unfold engineBody
  dsimp only
  exact canonical_engines (canonical_ite h (canonical_updCurCore h _)) ..

end CanonicalOps
end Sys2Proof.Machine
end

section
/-! The canonical form of the ten tables, O54, part two: engines, versions, exchanges, walks, tags and the log. -/
namespace Sys2Proof.Machine

section CanonicalWork
variable {s : State} (h : s.Canonical)
include h

theorem canonical_walksWaiting (l : List Walk) : State.Canonical { s with walksWaiting := l } := { h with }
theorem canonical_walks (l : List Walk) : State.Canonical { s with walks := l } := { h with }
theorem canonical_tagWrites (l : List TagWrite) : State.Canonical { s with tagWrites := l } := { h with }
theorem canonical_atomics (l : List Atomic) : State.Canonical { s with atomics := l } := { h with }

/-! ### Engines at work -/

theorem canonical_updEngine (id : Nat) (f : EngCmd → EngCmd) : (s.updEngine id f).Canonical := { h with }

theorem canonical_followStream (e : EngCmd) (u : Nat) : (s.followStream e u).Canonical := by
  unfold State.followStream
  refine canonical_updCore ?_ _ _
  exact { h with }

theorem canonical_engDelay (e : EngCmd) : (s.engDelay e).Canonical := by
  unfold State.engDelay
  dsimp only
  exact canonical_followStream (canonical_updEngine (canonical_putRecord h ..) ..) ..

omit h in
theorem canonical_engFill (e : EngCmd) (n : Nat) (h : s.Canonical) : (State.engFill e n s).Canonical := by
  induction n generalizing s with
  | zero => exact h
  | succ n ih =>
    unfold State.engFill
    split
    · exact h
    · split
      · exact ih (canonical_fillPage h ..)
      · exact h

theorem canonical_endWait (e : EngCmd) : (s.endWait e).Canonical := by
  unfold State.endWait
  split
  · exact canonical_putRecord h ..
  · exact h

theorem canonical_countWait (e : EngCmd) : (s.countWait e).Canonical := by
  unfold State.countWait
  split
  · exact canonical_updEngine h ..
  · exact canonical_updEngine h ..
  · exact canonical_updEngine (canonical_endWait h _) ..
  · exact h

theorem canonical_engMiss (e : EngCmd) (k : Nat) (key : PageKey) : (s.engMiss e k key).Canonical :=
  have kept := canonical_updEngine h e.id fun f => f.keepBack k
  canonical_ite kept (canonical_walksWaiting kept _)

theorem canonical_pageRecord (e : EngCmd) (r : PageOut) : (s.pageRecord e r).Canonical := by
  unfold State.pageRecord
  split
  · exact h
  · dsimp only
    split
    · exact canonical_engCommit (canonical_fresh h _) ..
    · exact canonical_updEngine h ..
    · exact h

theorem canonical_engStopped (e : EngCmd) (x : Option EngStop) : (s.engStopped e x).Canonical := by
  unfold State.engStopped
  split
  · exact canonical_ite (canonical_followStream (canonical_updEngine h ..) ..) (canonical_updEngine h ..)
  · exact h

theorem canonical_pendDict (e : EngCmd) (v : Option (List Byte)) : (s.pendDict e v).Canonical := canonical_updCluster h ..

theorem canonical_performChunk (e : EngCmd) : (s.performChunk e).Canonical := by
  unfold State.performChunk
  split
  · exact canonical_updEngine (canonical_pageRecord (canonical_engStopped (canonical_fresh (canonical_engCommit h ..) _) ..) ..) ..
  · split
    · exact canonical_updEngine (canonical_pendDict h ..) ..
    · exact canonical_updEngine (canonical_engStopped (canonical_pendDict h ..) ..) ..
  · exact canonical_updEngine (canonical_engStopped
      (canonical_tagWrites (canonical_updEngine (canonical_engCommit (canonical_fresh h _) ..) ..) _) ..) ..

theorem canonical_doChunk (n : Nat) : (s.doChunk n).Canonical := by
  unfold State.doChunk
  split
  · exact h
  · split
    · exact h
    · split
      · exact canonical_updEngine h ..
      · split
        · exact canonical_ite (canonical_engDelay h _) (canonical_engMiss h ..)
        · exact canonical_performChunk (canonical_ite (canonical_engFill _ _ h) h) _

theorem canonical_countUp (p c n : Nat) : (s.countUp p c n).Canonical := canonical_updPart h ..

theorem canonical_arrive (p c : Nat) : (s.arrive p c).Canonical := canonical_updPart h ..

theorem canonical_engineTrailer (e : EngCmd) : (s.engineTrailer e).Canonical := canonical_ite (canonical_updCtx h ..) h

theorem canonical_commandGone (l : List EngCmd) (w : List Walk) (v : List Saved) :
    State.Canonical { s with engines := l, walksWaiting := w, saved := v } := { h with }

theorem canonical_doComplete (n : Nat) : (s.doComplete n).Canonical := by
  unfold State.doComplete
  split
  · exact h
  · extract_lets rest waited gone slot loaded counted
    have hgone : gone.Canonical := canonical_commandGone (canonical_endWait h _) ..
    have hloaded : loaded.Canonical := canonical_ite (canonical_updCluster hgone ..) hgone
    have hcounted : counted.Canonical :=
      canonical_ite (canonical_ite (canonical_arrive hloaded ..) (canonical_countUp hloaded ..)) hloaded
    exact canonical_ite (canonical_notify (canonical_engineTrailer hloaded _) ..)
      (canonical_ite (canonical_updFor hcounted ..) hcounted)

/-! ### Versions -/

theorem canonical_atRegion (r : Nat) : (s.atRegion r).Canonical := canonical_flushAt h _

theorem canonical_updSlot (r n : Nat) (f : VSlot → VSlot) : (s.updSlot r n f).Canonical := by
  unfold State.updSlot
  split
  · exact h
  · exact canonical_deviceCommit h ..

theorem canonical_countVersion (r : Nat) : (s.countVersion r).Canonical := by
  unfold State.countVersion
  split
  · exact canonical_countUp h ..
  · exact h

theorem canonical_settleSlot (r n : Nat) : (s.settleSlot r n).Canonical := by
  unfold State.settleSlot
  split
  · exact h
  · exact canonical_ite (canonical_countVersion (canonical_updSlot h ..) _) h

theorem canonical_pin (r v : Nat) : (s.pin r v).Canonical := by
  unfold State.pin
  split
  · exact canonical_updSlot h ..
  · exact h

theorem canonical_unpin (r v : Nat) : (s.unpin r v).Canonical := by
  unfold State.unpin
  split
  · exact canonical_settleSlot (canonical_updSlot h ..) ..
  · exact h

theorem canonical_releasePins (x : Ctx) : (s.releasePins x).Canonical := by
  unfold State.releasePins
  split
  · exact h
  · rename_i r _
    have unpinned := canonical_unpin (canonical_atRegion h r) r x.vpin
    dsimp only
    split
    · exact canonical_ite unpinned (canonical_unpin unpinned ..)
    · exact unpinned

theorem canonical_movePin (p old new : Nat) : (s.movePin p old new).Canonical := by
  unfold State.movePin
  split
  · exact h
  · split
    · exact h
    · exact canonical_unpin (canonical_atRegion h _) ..

theorem canonical_publishRegion (r : Nat) (g : Region) : (s.publishRegion r g).2.Canonical := by
  unfold State.publishRegion
  extract_lets cur c held
  split
  · exact h
  · extract_lets d current left counted
    have hcurrent : current.Canonical := canonical_updSlot h ..
    have hleft : left.Canonical := canonical_ite (canonical_updSlot hcurrent ..) hcurrent
    have hcounted : counted.Canonical := canonical_countVersion hleft _
    split
    · exact h
    · split
      · exact h
      · exact canonical_ite (canonical_countVersion hcounted _) hcounted

theorem canonical_holdVer (n : Nat) : (s.holdVer n).Canonical := { h with }

theorem canonical_dropVer (n : Nat) : (s.dropVer n).Canonical := { h with }

theorem canonical_failVer (n : Nat) (q : VerReq) (cond : Nat) : (s.failVer n q cond).Canonical :=
  canonical_updCtx (canonical_holdVer h n) ..

theorem canonical_doVerpub (n : Nat) : (s.doVerpub n).Canonical := by
  unfold State.doVerpub
  split
  · exact h
  · split
    · exact canonical_failVer h ..
    · split
      · exact canonical_failVer h ..
      · extract_lets released
        have hreleased : released.Canonical := canonical_atRegion (canonical_release (canonical_atRegion h _) ..) _
        clear_value released
        refine canonical_updCtx (canonical_dropVer ?_ n) ..
        split
        · exact canonical_publishRegion hreleased ..
        · exact hreleased

theorem canonical_switchPins (r : Nat) (x : Ctx) (n : Nat) : (s.switchPins r x n).Canonical := by
  unfold State.switchPins
  split
  · rename_i m _
    have left := canonical_ite (p := (m = n || m = x.vpin) = true) h (canonical_unpin h r m)
    exact canonical_ite left (canonical_pin left ..)
  · exact canonical_ite h (canonical_pin h ..)

theorem canonical_doVersw (n : Nat) : (s.doVersw n).Canonical := by
  unfold State.doVersw
  split
  · exact h
  · dsimp only
    split
    · exact canonical_failVer h ..
    · split
      · exact canonical_failVer h ..
      · exact canonical_updCtx (canonical_dropVer (canonical_switchPins (canonical_atRegion h _) ..) _) ..

/-! ### Late faults and atomics -/

theorem canonical_stopLate (c : Nat) (r : Result) (q : Raised) : (s.stopLate c r q).Canonical := canonical_setCtx h ..

theorem canonical_doAtomic (n : Nat) : (s.doAtomic n).Canonical := by
  unfold State.doAtomic
  split
  · exact h
  · rename_i a _
    have counted := canonical_ite (p := a.remote = true) (canonical_fresh h (s.fresh + 1)) h
    dsimp only
    split
    · exact canonical_updCtx (canonical_atomics counted _) ..
    · exact canonical_updCtx (canonical_atomics (canonical_atomicRun counted a) _) ..

/-! ### Synchronization lines, FLIP and tasks -/

theorem canonical_settleCluster (j : Nat) : (s.settleCluster j).Canonical := by
  unfold State.settleCluster
  dsimp only
  split
  · exact h
  · exact canonical_ite (canonical_foldl _ (fun _ _ ht => canonical_updFor ht ..) _ (canonical_updCluster h ..)) h

theorem canonical_settlePart (p : Nat) : (s.settlePart p).Canonical := by
  unfold State.settlePart
  dsimp only
  split
  · exact h
  · exact canonical_ite (canonical_foldl _ (fun _ _ ht => canonical_updFor ht ..) _ (canonical_updPart h ..)) h

theorem canonical_arriveAt (c : Nat) (b : BScope) : (s.arriveAt c b).Canonical := by
  unfold State.arriveAt
  cases b with
  | nb => exact h
  | cl => exact canonical_settleCluster (canonical_updCluster (canonical_updCtx h ..) ..) _
  | pt => exact canonical_settlePart (canonical_updPart (canonical_updCtx h ..) ..) _

theorem canonical_settleFlip (c : Nat) : (s.settleFlip c).Canonical := by
  unfold State.settleFlip
  dsimp only
  split
  · exact h
  · exact canonical_ite h (canonical_ite (canonical_arriveAt (canonical_setCtx h ..) ..) (canonical_setCtx h ..))

theorem canonical_doRelease (c : Nat) : (s.doRelease c).Canonical := by
  unfold State.doRelease
  split
  · exact h
  · rename_i w _
    have released := canonical_updCtx (canonical_release h c w.pub) c fun x =>
      { x with flip := x.flip.map fun w => { w with released := true } }
    exact canonical_ite released (canonical_arriveAt released ..)

theorem canonical_exchangeDicts (j : Nat) : (s.exchangeDicts j).Canonical := canonical_updCluster h ..

theorem canonical_leaveLines (c : Nat) : (s.leaveLines c).Canonical := canonical_settlePart (canonical_settleCluster h _) _

theorem canonical_endTask (c f : Nat) : (s.endTask c f).Canonical :=
  canonical_ite (canonical_updCtx (canonical_timeDrains h ..) ..)
    (canonical_leaveLines (canonical_updKernel (canonical_updCtx h ..) ..) _)

theorem canonical_doExchange (c : Nat) : (s.doExchange c).Canonical := by
  unfold State.doExchange
  extract_lets x f old isSwitch moved y
  split
  · exact h
  · extract_lets acquires z landed switched acquired exchanged
    have hlanded : landed.Canonical := canonical_setCtx h ..
    have hswitched : switched.Canonical := canonical_ite
      (canonical_acquireVersion (canonical_dropReadOnly (canonical_movePin hlanded ..) _) _) hlanded
    have hacquired : acquired.Canonical := canonical_ite (canonical_acquire hswitched _) hswitched
    have hexchanged : exchanged.Canonical := canonical_ite (canonical_exchangeDicts hacquired _) hacquired
    exact canonical_ite (canonical_endTask hexchanged ..) hexchanged

theorem canonical_doTask (c : Nat) : (s.doTask c).Canonical := canonical_setCtx h ..

/-! ### Walks that end -/

theorem canonical_walkFound (w : Walk) (e : TlbEntry) : (s.walkFound w e).Canonical := by
  unfold State.walkFound
  split
  · split
    · exact canonical_prefetchLine h ..
    · exact canonical_pfFaulted h _
  · exact h

theorem canonical_walkFailed (w : Walk) (cond : Nat) : (s.walkFailed w cond).Canonical := by
  unfold State.walkFailed
  split
  · exact canonical_updCtx h ..
  · exact canonical_updCtx h ..
  · exact canonical_updEngine h ..
  · exact canonical_pfFaulted h _
  · exact h

theorem canonical_readThrough (w : Walk) : (s.readThrough w).Canonical :=
  canonical_foldl _ (fun _ _ ht => canonical_touchCluster ht ..) _ h

theorem canonical_answer (w : Walk) : (s.answer w).Canonical := by
  unfold State.answer
  have read := canonical_readThrough h w
  dsimp only
  split
  · exact canonical_walkFailed read ..
  · have entered := canonical_updCluster (canonical_fresh read ((s.readThrough w).fresh + 2)) w.cluster
    split
    · exact canonical_walkFound (entered _) ..
    · exact canonical_walkFound (entered _) ..
    · exact canonical_walkFound (canonical_updCore (entered _) ..) ..

theorem canonical_doWalk (n : Nat) : (s.doWalk n).Canonical := by
  unfold State.doWalk
  split
  · exact h
  · exact canonical_ite (canonical_answer (canonical_walks h _) _)
      (canonical_foldl _ (fun _ _ ht => canonical_answer ht _) _ (canonical_walks h _))

theorem canonical_orphanWalks (gone : Nat → Bool) : (s.orphanWalks gone).Canonical := { h with }

theorem canonical_doTlbinv (p : Nat) (v : Word64) : (s.doTlbinv p v).Canonical := by
  unfold State.doTlbinv
  refine canonical_updPart ?_ _ _
  exact { canonical_invalidate _ _ _ h with }

theorem canonical_endTlbinv (p : Nat) : (s.endTlbinv p).Canonical :=
  canonical_updPart (canonical_foldl _ (fun _ _ ht => canonical_invalidate _ _ _ ht) _ h) ..

theorem canonical_healthEvent (p core tag : Nat) : (s.healthEvent p core tag).Canonical := canonical_notify h ..

theorem canonical_doVlend (pcore : Nat) (v : Word64) : (s.doVlend pcore v).Canonical :=
  canonical_ite (canonical_healthEvent h ..) { h with vlend := Tab.wf_set h.vlend _ _ }

/-! ### Tag writes -/

theorem canonical_tagReply (w : TagWrite) (refused : Option (Cause × Nat)) : (s.tagReply w refused).Canonical := by
  unfold State.tagReply
  split
  · exact canonical_ite h { h with }
  · exact h

theorem canonical_tagDone (w : TagWrite) : (s.tagDone w).Canonical := by
  unfold State.tagDone
  split
  · exact canonical_updEngine h ..
  · exact canonical_ite (canonical_tagReply h ..) h

theorem canonical_setTag (n v : Nat) : State.Canonical { s with tags := Tab.set 0 s.tags n v } :=
  { h with tags := Tab.wf_set h.tags n v }

theorem canonical_tagPerform (w : TagWrite) : (s.tagPerform w).Canonical := by
  unfold State.tagPerform
  split
  · exact canonical_tagDone (canonical_sendRemote h _) _
  · dsimp only
    refine canonical_tagDone (canonical_setTag ?_ ..) _
    split
    · split
      · exact canonical_updEngine h ..
      · exact h
    · exact canonical_vaultCommit (canonical_flushAt h _) ..

theorem canonical_tagRecord (w : TagWrite) : (s.tagRecord w).Canonical := by
  unfold State.tagRecord
  split
  · exact canonical_putRecord h ..
  · exact h

omit h in
theorem canonical_recheck (line n : Nat) (h : s.Canonical) : (State.recheck line n s).Canonical := by
  induction n generalizing s with
  | zero => exact h
  | succ n ih =>
    unfold State.recheck
    split
    · exact h
    · split
      · exact h
      · exact ih (canonical_tagRecord (canonical_tagPerform (canonical_tagWrites h _) _) _)

theorem canonical_tagAccepted (w : TagWrite) : (s.tagAccepted w).Canonical :=
  canonical_ite h (canonical_ite (canonical_ite h (canonical_tagReply h ..)) (canonical_updFor h ..))

theorem canonical_doTag (n : Nat) : (s.doTag n).Canonical := by
  unfold State.doTag
  split
  · exact h
  · have accepted := fun l w => canonical_tagAccepted (canonical_tagWrites h l) w
    exact canonical_ite (canonical_recheck _ _ (canonical_tagPerform (accepted ..) _)) (canonical_tagWrites (accepted ..) _)

theorem canonical_doExpire (n : Nat) : (s.doExpire n).Canonical := by
  unfold State.doExpire
  split
  · exact h
  · dsimp only
    split
    · exact canonical_updEngine (canonical_tagDone (canonical_tagWrites h _) _) ..
    · exact canonical_ite (canonical_tagReply (canonical_tagWrites h _) ..) (canonical_healthEvent (canonical_tagWrites h _) ..)

/-! ### The log -/

theorem canonical_logWrite (p ty q seq : Nat) (body : List Byte) : (s.logWrite p ty q seq body).Canonical := by
  unfold State.logWrite
  exact canonical_updPart (canonical_deviceCommit h ..) ..

theorem canonical_logGap (p q seq : Nat) : (s.logGap p q seq).Canonical := by
  unfold State.logGap
  dsimp only
  split
  · exact canonical_updPart (canonical_deviceCommit h ..) ..
  · exact canonical_ite h (canonical_updPart (canonical_logWrite h ..) ..)

theorem canonical_logPacket (p q : Nat) (k : QPacket) : (s.logPacket p q k).2.Canonical := by
  unfold State.logPacket
  dsimp only
  split
  · exact h
  · split
    · exact canonical_logWrite h ..
    · split
      · exact canonical_logGap h ..
      · exact h

theorem canonical_settleOwed (p : Nat) : (s.settleOwed p).Canonical :=
  canonical_foldl _ (fun _ _ ht => canonical_foldl _
    (fun _ _ hu => canonical_ite hu (canonical_updQueue (canonical_logPacket hu ..) ..)) _ ht) _ h

theorem canonical_endReplay (p : Nat) : (s.endReplay p).Canonical := canonical_updPart h ..

theorem canonical_nameLogged (p q : Nat) (launch : Bool) : (s.nameLogged p q launch).2.Canonical := by
  unfold State.nameLogged
  split
  · exact h
  · split
    · exact h
    · split
      · exact h
      · split
        · exact canonical_endReplay h _
        · dsimp only
          exact canonical_updPart h ..

end CanonicalWork
end Sys2Proof.Machine
end

section
/-! The canonical form of the ten tables, O54, part three: packets, queues and captures, launches and kernels, stores and plied
accesses. -/
namespace Sys2Proof.Machine

section CanonicalKernels
variable {s : State} (h : s.Canonical)
include h

/-! ### Packets and ownership -/

theorem canonical_owner (o : Owner) : State.Canonical { s with owner := o } := { h with }
theorem canonical_serial (n : Nat) : State.Canonical { s with serial := n } := { h with }

theorem canonical_refuse (k : Packet) (reason : Nat) : (s.refuse k reason).Canonical := canonical_sendTo h ..

theorem canonical_accept (k : Packet) : (s.accept k).Canonical := by
  unfold State.accept
  exact canonical_updQueue (canonical_logPacket (canonical_nameLogged (canonical_updPart (canonical_serial h _) ..) ..) ..) ..

theorem canonical_tellOwner (dest tag : Nat) : (s.tellOwner dest tag).Canonical := canonical_sendTo h ..

theorem canonical_becomeOwner (o : Nat) : (s.becomeOwner o).Canonical := { h with }

theorem canonical_closeElection : s.closeElection.Canonical := by
  unfold State.closeElection
  dsimp only
  split
  · exact canonical_owner h _
  · exact canonical_foldl _ (fun _ _ ht => canonical_tellOwner ht ..) _
      (canonical_owner (canonical_becomeOwner (canonical_owner h _) _) _)

theorem canonical_hearSrc (src : Nat) : (s.hearSrc src).Canonical := by
  unfold State.hearSrc
  extract_lets closed
  have hclosed : closed.Canonical := canonical_ite (canonical_closeElection h) h
  exact canonical_ite (canonical_owner hclosed _) (canonical_ite (canonical_owner hclosed _) hclosed)

theorem canonical_queuePacket (k : Packet) : (s.queuePacket k).Canonical :=
  canonical_ite (canonical_refuse h ..) (canonical_ite (canonical_refuse h ..)
    (canonical_ite (canonical_refuse h ..) (canonical_accept h _)))

/-! ### What the head of a queue does -/

theorem canonical_finish (p q : Nat) : (s.finish p q).Canonical := canonical_updQueue h ..

theorem canonical_haltQueue (p q : Nat) (x : Halt) : (s.haltQueue p q x).Canonical :=
  canonical_healthEvent (canonical_updQueue h ..) ..

theorem canonical_dropRerun (p q : Nat) : (s.dropRerun p q).Canonical := canonical_updPart h ..

omit h in
theorem canonical_perform? {f : State → State} (p q : Nat) (k : QPacket) (hf : (f s).Canonical) (h : s.Canonical) :
    (s.perform? p q k f).Canonical :=
  canonical_ite (canonical_finish h ..) (canonical_ite (canonical_haltQueue h ..) hf)

theorem canonical_wait? (p q : Nat) : (s.wait? p q).Canonical := canonical_updQueue h ..

theorem canonical_copyGone (l : List EngCmd) (w : List Walk) : State.Canonical { s with engines := l, walksWaiting := w } := { h with }

theorem canonical_endCopy (p q : Nat) : (s.endCopy p q).Canonical := by
  unfold State.endCopy
  split
  · exact h
  · exact canonical_ite (canonical_finish (canonical_copyGone h ..) ..)
      (canonical_notify (canonical_updQueue (canonical_copyGone h ..) ..) ..)

theorem canonical_doDep (p q : Nat) (set : Bool) : (s.doDep p q set).Canonical := by
  unfold State.doDep
  split
  · exact h
  · exact canonical_perform? _ _ _ (canonical_wait? h ..) h

theorem canonical_endDep (p q : Nat) : (s.endDep p q).Canonical := by
  unfold State.endDep
  split
  · exact h
  · exact canonical_finish (canonical_ite (canonical_updPart h ..) h) ..

theorem canonical_doSetdet (p q : Nat) (whole : Bool) : (s.doSetdet p q whole).Canonical := by
  unfold State.doSetdet
  split
  · exact h
  · exact canonical_ite (canonical_haltQueue h ..) (canonical_wait? h ..)

theorem canonical_recheck? (p q : Nat) : (s.recheck? p q).Canonical := by
  unfold State.recheck?
  split
  · exact canonical_ite (canonical_updQueue h ..) h
  · exact h

theorem canonical_endSetdet (p q : Nat) : (s.endSetdet p q).Canonical := by
  unfold State.endSetdet
  split
  · exact h
  · exact canonical_finish (canonical_ite (canonical_foldl _ (fun _ _ ht => canonical_recheck? (canonical_updQueue ht ..) ..) _ h)
      (canonical_updQueue h ..)) ..

/-! ### Captures, snapshots and the log's queue packets -/

theorem canonical_captures (l : List Capture) : State.Canonical { s with captures := l } := { h with }

theorem canonical_putDword (a v : Nat) : (s.putDword a v).Canonical := canonical_deviceCommit h ..

theorem canonical_dropCapture (r n : Nat) : (s.dropCapture r n).Canonical :=
  canonical_settleSlot (canonical_updSlot (canonical_captures h _) ..) ..

theorem canonical_settleCapture (r : Nat) : (s.settleCapture r).Canonical := by
  unfold State.settleCapture
  split
  · exact canonical_ite h (canonical_dropCapture (canonical_countVersion h _) ..)
  · exact h

theorem canonical_endOther (r n : Nat) : (s.endOther r n).Canonical := by
  unfold State.endOther
  split
  · exact canonical_dropCapture h ..
  · exact h

theorem canonical_startCapture (r v fbase : Nat) (resume : Bool) : (s.startCapture r v fbase resume).Canonical := by
  unfold State.startCapture
  extract_lets out
  have hout : out.Canonical := canonical_atRegion h r
  split
  · exact hout
  · split
    · exact hout
    · extract_lets alone a d kept counted
      have halone : alone.Canonical := canonical_endOther hout ..
      have hcounted : counted.Canonical := canonical_ite halone (canonical_putDword halone ..)
      exact canonical_settleCapture (canonical_captures (canonical_updSlot hcounted ..) _) _

theorem canonical_doCapture (p q : Nat) (ops : List Nat) : (s.doCapture p q ops).Canonical := by
  unfold State.doCapture
  split
  · exact h
  · refine canonical_perform? _ _ _ (canonical_finish ?_ ..) h
    split
    · extract_lets out
      have hout : out.Canonical := canonical_atRegion h _
      split
      · exact canonical_ite (canonical_dropCapture hout ..) hout
      · exact hout
    · exact canonical_startCapture h ..

theorem canonical_capturePage (r : Nat) : (s.capturePage r).Canonical := by
  unfold State.capturePage
  split
  · split
    · exact canonical_settleCapture h _
    · exact canonical_settleCapture (canonical_putDword (canonical_sendRemote h _) ..) _
  · exact h

theorem canonical_takeSnap (p q : Nat) : (s.takeSnap p q).Canonical := by
  unfold State.takeSnap
  extract_lets x l b
  exact canonical_ite (canonical_finish h ..) (canonical_ite (canonical_finish (canonical_updQueue (canonical_logWrite h ..) ..) ..)
    (canonical_ite (canonical_finish (canonical_logGap h ..) ..) (canonical_wait? h ..)))

theorem canonical_settleDigest (p q : Nat) : (s.settleDigest p q).Canonical := by
  unfold State.settleDigest
  split
  · exact h
  · exact canonical_ite (canonical_finish (canonical_logWrite h ..) ..) (canonical_ite (canonical_finish h ..)
      (canonical_ite (canonical_finish (canonical_logGap h ..) ..) h))

theorem canonical_settleSnap (p q : Nat) : (s.settleSnap p q).Canonical := by
  unfold State.settleSnap
  split
  · exact canonical_ite (canonical_takeSnap h ..) h
  · exact h

theorem canonical_settleLog (p : Nat) : (s.settleLog p).Canonical :=
  canonical_foldl _ (fun _ _ ht => canonical_settleSnap (canonical_settleDigest ht ..) ..) _ (canonical_settleOwed h p)

theorem canonical_doMark (p q : Nat) (ops : List Nat) : (s.doMark p q ops).Canonical := by
  unfold State.doMark
  split
  · exact h
  · refine canonical_perform? _ _ _ ?_ h
    extract_lets w
    split
    · exact canonical_finish (canonical_updPart h ..) ..
    · exact canonical_settleLog (canonical_finish (canonical_updPart h ..) ..) _
    · exact canonical_finish (canonical_updQueue h ..) ..
    · exact canonical_takeSnap h ..
    · exact canonical_settleLog (canonical_finish (canonical_updPart h ..) ..) _

/-! ### Kernels -/

theorem canonical_kernels (l : List Kernel) : State.Canonical { s with kernels := l } := { h with }

theorem canonical_displace (c : Nat) : (s.displace c).Canonical := canonical_ite { h with } h

theorem canonical_bindPost (k : Kernel) (again : List Nat) (t : Post) : (s.bindPost k again t).Canonical := by
  unfold State.bindPost
  extract_lets c displaced start region d old x viewed pinned emptied
  have hviewed : viewed.Canonical :=
    canonical_dropReadOnly (canonical_acquireView (canonical_setCtx (canonical_displace h c) ..) _) _
  clear_value region
  have hpinned : pinned.Canonical := by
    simp only [pinned]
    split
    · exact canonical_updSlot hviewed ..
    · exact hviewed
  exact canonical_updKernel (canonical_ite (canonical_updCore hpinned ..) hpinned) ..

theorem canonical_claim (k : Kernel) : (s.claim k).Canonical := by
  unfold State.claim
  extract_lets clusters lines
  have hclusters : clusters.Canonical := canonical_ite h (canonical_foldl _ (fun _ _ ht => canonical_updCluster ht ..) _ h)
  have hlines : lines.Canonical := canonical_ite hclusters (canonical_updPart hclusters ..)
  exact canonical_ite (canonical_foldl _ (fun _ _ ht => canonical_updCore ht ..) _ hlines) hlines

theorem canonical_made (n m : Nat) (l : List Kernel) : State.Canonical { s with serial := n, fresh := m, kernels := l } := { h with }

theorem canonical_place (k : Kernel) (again : List Nat) : (s.place k again).Canonical :=
  canonical_foldl _ (fun _ _ ht => canonical_bindPost ht ..) _ (canonical_updQueue (canonical_claim (canonical_made h ..) _) ..)

theorem canonical_doDispatch (p : Nat) : (s.doDispatch p).Canonical := by
  unfold State.doDispatch
  split
  · exact h
  · exact canonical_place h ..

theorem canonical_doStart (c : Nat) : (s.doStart c).Canonical :=
  canonical_ite (canonical_updCore (canonical_setCtx h ..) ..) (canonical_setCtx h ..)

theorem canonical_unclaim (k : Kernel) : (s.unclaim k).Canonical := by
  unfold State.unclaim
  extract_lets clusters lines
  have hclusters : clusters.Canonical :=
    canonical_foldl _ (fun _ _ ht => canonical_ite (canonical_updCluster ht ..) ht) _ h
  have hlines : lines.Canonical := canonical_ite (canonical_updPart hclusters ..) hclusters
  exact canonical_ite (canonical_foldl _ (fun _ _ ht => canonical_updCore ht ..) _ hlines) hlines

theorem canonical_dropKernel (k : Kernel) : (s.dropKernel k).Canonical := canonical_kernels (canonical_unclaim h k) _

theorem canonical_replayCheck (p q : Nat) (k : Kernel) : (s.replayCheck p q k).Canonical := by
  unfold State.replayCheck
  split
  · split
    · exact canonical_endReplay h _
    · split
      · exact h
      · exact canonical_ite (canonical_endReplay h _) (canonical_ite h (canonical_notify h ..))
  · exact h

theorem canonical_endLaunch (k : Kernel) : (s.endLaunch k).Canonical :=
  have checked := canonical_replayCheck h k.part k.queue k
  canonical_ite (canonical_settleDigest (canonical_updQueue checked ..) ..) (canonical_finish checked ..)

theorem canonical_endRun (k : Kernel) (e : RunEnd) : (s.endRun k e).Canonical := canonical_updPart h ..

theorem canonical_retireKernel (k : Kernel) : (s.retireKernel k).Canonical :=
  canonical_ite (canonical_endRun (canonical_dropKernel h k) ..) (canonical_endLaunch (canonical_dropKernel h k) _)

theorem canonical_flushRecords (c : Nat) : (s.flushRecords c).Canonical :=
  canonical_foldl _ (fun _ _ ht => canonical_putRecord ht ..) _ (canonical_updCtx h ..)

theorem canonical_doFree (c : Nat) : (s.doFree c).Canonical := by
  unfold State.doFree
  extract_lets left x released updated
  have hleft : left.Canonical := canonical_orphanWalks (canonical_dropReadOnly (canonical_flushRecords h c) c) _
  have hupdated : updated.Canonical := canonical_updKernel (canonical_updCtx (canonical_releasePins hleft x) ..) ..
  split
  · exact canonical_updCtx hleft ..
  · split
    · exact canonical_ite (canonical_retireKernel hupdated _) hupdated
    · exact hupdated

theorem canonical_killed (v : List Saved) (a : List Atomic) (r : List VerReq) (e : List EngCmd) :
    State.Canonical { s with saved := v, atomics := a, verReqs := r, engines := e } := { h with }

theorem canonical_killKernel (k : Kernel) : (s.killKernel k).Canonical := by
  unfold State.killKernel
  refine canonical_killed (canonical_dropKernel (canonical_orphanWalks (canonical_updPart ?_ ..) _) k) ..
  exact canonical_foldl _ (fun _ _ ht => canonical_updCtx ht ..) _
    (canonical_foldl _ (fun _ _ ht => canonical_releasePins ht _) _ h)

theorem canonical_giveUpRerun (r : Rerun) : (s.giveUpRerun r).Canonical :=
  canonical_healthEvent (canonical_updQueue (canonical_updCore (canonical_dropRerun h ..) ..) ..) ..

theorem canonical_killInQueue (k : Kernel) (x : Halt) : (s.killInQueue k x).Canonical := by
  unfold State.killInQueue
  have killed := canonical_haltQueue (canonical_killKernel h k) k.part k.queue x
  dsimp only
  split
  · exact canonical_healthEvent (canonical_updCore (canonical_dropRerun killed ..) ..) ..
  · exact killed

theorem canonical_watchActed (p q n : Nat) : (s.watchActed p q n).Canonical := canonical_updQueue h ..

theorem canonical_watchPreempt (p q : Nat) : (s.watchPreempt p q).Canonical := by
  unfold State.watchPreempt
  extract_lets acted
  have hacted : acted.Canonical := canonical_watchActed h ..
  split
  · exact canonical_foldl _ (fun _ _ ht => canonical_ite (canonical_updCtx ht ..) ht) _ hacted
  · exact hacted

theorem canonical_engineList (l : List EngCmd) : State.Canonical { s with engines := l } := { h with }

theorem canonical_watchKill (p q : Nat) : (s.watchKill p q).Canonical := by
  refine canonical_watchActed ?_ ..
  split
  · exact canonical_updQueue (canonical_killInQueue h ..) ..
  · exact canonical_haltQueue (canonical_dropRerun (canonical_engineList h _) ..) ..

theorem canonical_watchFence (p q : Nat) : (s.watchFence p q).Canonical :=
  canonical_healthEvent (canonical_watchActed (canonical_foldl _ (fun _ _ ht => canonical_updCore ht ..) _ h) ..) ..

/-! ### Stores and atomics (class 8) -/

theorem canonical_storeRefused (a tag : Nat) (bs : List Byte) (q : Raised) : (s.storeRefused a tag bs q).Canonical :=
  canonical_lateFor (canonical_fresh h _) ..

theorem canonical_storeAt (a : Nat) (bs : List Byte) : (storeAt a bs s).Canonical := by
  unfold storeAt
  split
  · exact canonical_raise h ..
  · split
    · exact canonical_raise h ..
    · dsimp only
      split
      · exact canonical_raise h ..
      · split
        · exact canonical_storeRefused h ..
        · exact canonical_cacheWrite (canonical_addPending h _) ..

theorem canonical_storeSpadAt (a : Nat) (bs : List Byte) : (storeSpadAt a bs s).Canonical :=
  canonical_ite (canonical_raise h ..) (canonical_ite (canonical_raise h ..) (canonical_updCurCore h _))

theorem canonical_tagStoreAt (a tag : Nat) (bs : List Byte) : (tagStoreAt a tag bs s).Canonical := by
  unfold tagStoreAt
  split
  · exact canonical_raise h ..
  · split
    · exact canonical_raise h ..
    · dsimp only
      split
      · exact canonical_storeRefused h ..
      · exact canonical_tagWrites (canonical_updCur h _) _

theorem canonical_atomicAt (op : Option AtomOp) (size a arg swap : Nat) (old : BitVec 6) :
    (atomicAt op size a arg swap old s).Canonical := by
  unfold atomicAt
  split
  · exact canonical_raise h ..
  · dsimp only
    split
    · exact canonical_raise h ..
    · exact canonical_ite (canonical_atomics (canonical_post h _) _) (canonical_post h _)

/-! ### Plied accesses -/

theorem canonical_ldpAt (d : BitVec 6) (wb n0 : Nat) (plies : BitVec 2) (round : Bool) : (ldpAt d wb n0 plies round s).Canonical := by
  unfold ldpAt
  dsimp only
  split
  · exact canonical_raise h ..
  · exact canonical_settle h ..

theorem canonical_ldpBody (d base : BitVec 6) (win : BitVec 2) (off : BitVec 4) (plies : BitVec 2) (round : Bool) :
    (ldpBody d base win off plies round s).Canonical := canonical_ldpAt h ..

theorem canonical_addPlied (l : List (Nat × Byte)) (plied : Bool) : (s.addPending l plied).Canonical := canonical_updCur h _

theorem canonical_pliedStore (l : List (PlySpan × Nat × Nat)) (xs : List Nat) : (s.pliedStore l xs).Canonical :=
  canonical_ite (canonical_foldl _ (fun _ _ ht => canonical_foldl _ (fun _ _ hu => canonical_cacheWrite hu ..) _ ht) _
    (canonical_addPlied h ..)) (canonical_raise h ..)

theorem canonical_stpBody (d base : BitVec 6) (win : BitVec 2) (off : BitVec 4) (plies : BitVec 2) :
    (stpBody d base win off plies s).Canonical := by
  unfold stpBody
  dsimp only
  split
  · exact canonical_raise h ..
  · exact canonical_pliedStore h ..

theorem canonical_flagsOnReturn (fl : Flags) : (s.flagsOnReturn fl).Canonical := canonical_updCur h _

theorem canonical_updateBody (base : BitVec 6) (win : BitVec 2) (off : BitVec 4) (f : Nat → Nat → Nat → Nat × Flags) :
    (updateBody base win off f s).Canonical := by
  unfold updateBody
  split
  · exact canonical_raise h ..
  · extract_lets b y fl
    split
    · exact canonical_raise h ..
    · split
      · exact canonical_raise h ..
      · exact canonical_ite (canonical_pliedStore (canonical_flagsOnReturn h _) ..) (canonical_raiseEnabled h ..)

end CanonicalKernels
end Sys2Proof.Machine
end

section
/-! The canonical form of the ten tables, O54, part four: faults, pre-emption, dumps and reruns, ownership, monitors, service and the
fabric. -/
namespace Sys2Proof.Machine

section CanonicalDevice
variable {s : State} (h : s.Canonical)
include h

/-! ### Faults, dumps and reruns -/

theorem canonical_restoreSnap (p : Nat) (l : List (Nat × List Byte)) : (s.restoreSnap p l).Canonical :=
  canonical_foldl _ (fun _ _ ht => canonical_deviceCommit ht ..) _ h

theorem canonical_badMemoryEvent (p faddr loc tag : Nat) : (s.badMemoryEvent p faddr loc tag).Canonical := canonical_notify h ..

theorem canonical_haltData (k : Kernel) (cond faddr loc : Nat) : (s.haltData k cond faddr loc).Canonical :=
  canonical_ite (canonical_badMemoryEvent (canonical_updQueue h ..) ..) (canonical_haltQueue h ..)

theorem canonical_dataError (k : Kernel) (c : Nat) (t : Stop) : (s.dataError k c t).Canonical :=
  have killed := canonical_killKernel h k
  canonical_ite (canonical_endRun killed ..) (canonical_ite (canonical_haltData killed ..) (canonical_updPart killed ..))

theorem canonical_killCtx (c : Nat) : (s.killCtx c).Canonical := by
  unfold State.killCtx
  split
  · exact canonical_killInQueue h ..
  · exact h

omit h in
/-- An access that is performed again keeps the canonical form, as it did when it was issued. -/
theorem canonical_access {r : Result} {i : Instr} {f : State → State} (hf : r.access i = some f) (h : s.Canonical) :
    (f s).Canonical := by
  unfold Result.access at hf
  split at hf
  · cases hf; exact canonical_ldAt h ..
  · cases hf; exact canonical_ldrAt h ..
  · cases hf; exact canonical_ldsAt h ..
  · cases hf; exact canonical_ldpAt h ..
  · split at hf
    · cases hf
    · cases hf; exact canonical_storeAt h ..
  · cases hf; exact canonical_storeAt h ..
  · split at hf
    · cases hf
    · cases hf; exact canonical_tagStoreAt h ..
  · cases hf

omit h in
theorem canonical_performAgain {f : State → State} (c : Nat) (r : Result) (hf : ∀ {u : State}, u.Canonical → (f u).Canonical)
    (h : s.Canonical) : (s.performAgain c r f).Canonical := by
  unfold State.performAgain
  extract_lets rest slot seq taken done
  have hdone : done.Canonical := hf (canonical_slot (canonical_updCtx h ..) _)
  exact canonical_updCtx hdone ..

theorem canonical_reissueOne (c : Nat) (r : Result) : (s.reissueOne c r).Canonical := by
  unfold State.reissueOne
  split
  · exact canonical_updCtx h ..
  · split
    · split
      · rename_i hf
        exact canonical_performAgain _ _ (canonical_access hf) h
      · exact h
    · exact h

theorem canonical_waiting (n : Nat) (a : List Atomic) (v : List VerReq) :
    State.Canonical { s with fresh := n, atomics := a, verReqs := v } := { h with }

theorem canonical_reissue (c : Nat) : (s.reissue c).Canonical :=
  canonical_waiting (canonical_updCtx (canonical_foldl _ (fun _ _ ht => canonical_reissueOne ht ..) _ h) ..) ..

theorem canonical_resumeCtx (c : Nat) : (s.resumeCtx c).Canonical := canonical_updCtx (canonical_reissue h c) ..

theorem canonical_fatalTrap (k : Kernel) (c : Nat) : (s.fatalTrap k c).Canonical :=
  canonical_ite (canonical_notify (canonical_ite (canonical_updCtx h ..) (canonical_killInQueue h ..)) ..) (canonical_updPart h ..)

theorem canonical_doRecord (c : Nat) : (s.doRecord c).Canonical := by
  unfold State.doRecord
  extract_lets x
  split
  · extract_lets t y written told
    have htold : told.Canonical := canonical_notify (canonical_deviceCommit (canonical_setCtx h ..) ..) ..
    split
    · exact canonical_dataError htold ..
    · split
      · exact canonical_fatalTrap htold ..
      · split
        · exact canonical_resumeCtx htold _
        · exact canonical_killCtx htold _
        · exact htold
  · exact canonical_updCtx h ..

theorem canonical_ctxResume (p c : Nat) : (s.ctxResume p c).Canonical := by
  unfold State.ctxResume
  split
  · exact h
  · split
    · exact canonical_ite (canonical_resumeCtx h _) h
    · exact canonical_updCtx h ..
    · exact h

theorem canonical_ctxKill (p c : Nat) : (s.ctxKill p c).Canonical := by
  unfold State.ctxKill
  split
  · exact h
  · split
    · exact canonical_killCtx h _
    · exact canonical_updCtx h ..
    · exact h

theorem canonical_ctxPreempt (p c : Nat) : (s.ctxPreempt p c).Canonical := canonical_ite (canonical_updCtx h ..) h

theorem canonical_saved (l : List Saved) (n : Nat) : State.Canonical { s with saved := l, fresh := n } := { h with }

theorem canonical_doPreempt (c : Nat) : (s.doPreempt c).Canonical := by
  unfold State.doPreempt
  extract_lets x k mine v written orphaned kept drained dropped stopped
  have hkept : kept.Canonical := canonical_saved (canonical_orphanWalks (canonical_deviceCommit h ..) _) ..
  have hstopped : stopped.Canonical := canonical_setCtx (canonical_updCore hkept ..) ..
  exact canonical_ite (canonical_updKernel hstopped ..) hstopped

theorem canonical_doRestore (c : Nat) : (s.doRestore c).Canonical := by
  unfold State.doRestore
  split
  · exact h
  · exact canonical_updCore (canonical_setCtx (canonical_saved h ..) ..) ..

theorem canonical_doDump (p : Nat) : (s.doDump p).Canonical := by
  unfold State.doDump
  split
  · exact h
  · extract_lets x written counted told
    have htold : told.Canonical :=
      canonical_notify (canonical_updPart (canonical_fresh (canonical_deviceCommit h ..) _) ..) ..
    split
    · exact canonical_ite htold (canonical_killInQueue htold ..)
    · exact htold

theorem canonical_doDumpFault (p : Nat) : (s.doDumpFault p).Canonical :=
  canonical_healthEvent (canonical_updPart (canonical_foldl _ (fun _ _ ht => canonical_updQueue ht ..) _
    (canonical_foldl _ (fun _ _ ht => canonical_ite (canonical_updCtx ht ..) ht) _ h)) ..) ..

theorem canonical_startRun (r : Rerun) : (s.startRun r).Canonical := by
  refine canonical_place ?_ ..
  split
  · exact canonical_restoreSnap h ..
  · exact h

theorem canonical_compareRuns (r : Rerun) : (s.compareRuns r).Canonical := by
  have dropped := canonical_dropRerun h r.kernel.part r.kernel.queue
  exact canonical_ite (canonical_endLaunch (canonical_notify dropped ..) _)
    (canonical_ite (canonical_haltData dropped ..) (canonical_giveUpRerun h _))

theorem canonical_doCompare (p : Nat) : (s.doCompare p).Canonical := by
  unfold State.doCompare
  split
  · exact h
  · exact canonical_ite (canonical_startRun h _) (canonical_compareRuns h _)

theorem canonical_queueResume (p q : Nat) : (s.queueResume p q).Canonical := canonical_ite h (canonical_updQueue h ..)

theorem canonical_queueDiscard (p q : Nat) : (s.queueDiscard p q).Canonical :=
  canonical_ite h (canonical_finish (canonical_updQueue (canonical_dropRerun h ..) ..) ..)

theorem canonical_queueClear (p q : Nat) : (s.queueClear p q).Canonical :=
  canonical_ite h (canonical_updQueue (canonical_dropRerun (canonical_engineList h _) ..) ..)

/-! ### Packets about ownership -/

theorem canonical_heard (k : Packet) : (s.heard k).Canonical := canonical_hearSrc h _

theorem canonical_doResync (k : Packet) : (s.doResync k).Canonical :=
  canonical_ite (canonical_sendTo (canonical_heard h k) ..) (canonical_sendTo (canonical_heard h k) ..)

theorem canonical_doClaim (k : Packet) : (s.doClaim k).Canonical :=
  have heard := canonical_heard h k
  canonical_ite (canonical_refuse heard ..) (canonical_ite (canonical_refuse heard ..)
    (canonical_ite (canonical_owner heard _) (canonical_refuse heard ..)))

omit h in
theorem canonical_ownerOnly {f : State → State} (k : Packet) (hf : ∀ {u : State}, u.Canonical → (f u).Canonical)
    (h : s.Canonical) : (s.ownerOnly k f).Canonical :=
  have heard := canonical_heard h k
  canonical_ite (canonical_refuse heard ..) (canonical_ite (canonical_tellOwner (hf heard) ..) (canonical_refuse heard ..))

theorem canonical_receive (k : Packet) : (s.receive k).Canonical := by
  unfold State.receive
  have heard := canonical_heard h k
  split
  · exact canonical_refuse heard ..
  · split
    · exact canonical_doResync h _
    · split
      · split
        · exact canonical_doClaim h _
        · exact canonical_ownerOnly _ (fun hu => canonical_tellOwner (canonical_becomeOwner hu _) ..) h
        · exact canonical_ownerOnly _ (canonical_owner · _) h
        · exact canonical_ownerOnly _ (canonical_owner · _) h
      · exact canonical_queuePacket heard _

/-! ### Monitors and the registers of the control blocks -/

theorem canonical_sample (p : Nat) : (s.sample p).Canonical := canonical_ite h (canonical_updPart h ..)

theorem canonical_failMonitor (p n : Nat) : (s.failMonitor p n).Canonical :=
  canonical_ite (canonical_notify (canonical_foldl _ (fun _ _ ht => canonical_updCtx ht ..) _ (canonical_updPart h ..)) ..)
    (canonical_updPart h ..)

theorem canonical_applyActs (p : Nat) : (s.applyActs p).Canonical := by
  unfold State.applyActs
  extract_lets x acted
  have hacted : acted.Canonical := canonical_ite h (canonical_foldl _ (fun _ _ ht => canonical_updCore ht ..) _ h)
  exact canonical_ite hacted (canonical_updPart hacted ..)

theorem canonical_advanceTail (p : Nat) (log : Bool) (v : Word64) : (s.advanceTail p log v).Canonical :=
  canonical_ite (canonical_settleLog (canonical_updPart h ..) _) (canonical_updPart h ..)

theorem canonical_writeDevice (reg : Nat) (v : Word64) : (s.writeDevice reg v).Canonical := by
  unfold State.writeDevice
  split
  · exact { h with }
  · exact { h with }
  · exact { h with }
  · split
    · exact { h with routes := Tab.wf_set h.routes _ _ }
    · exact { h with }

theorem canonical_doRegister (block reg : Nat) (v : Word64) : (s.doRegister block reg v).Canonical :=
  canonical_ite (canonical_writeDevice h ..) (canonical_ite (canonical_updPart h ..) (canonical_updCore h ..))

theorem canonical_replies (l : List Reply) : State.Canonical { s with replies := l } := { h with }

theorem canonical_sendRegister {t : State} (src block reg : Nat) (hx : s.sendRegister src block reg = .next t) : t.Canonical := by
  unfold State.sendRegister at hx
  dsimp only at hx
  split at hx
  · cases hx
  · cases hx; exact canonical_replies (canonical_hearSrc h _) _

/-! ### Live service, the alarm and a device reset -/

theorem canonical_services (l : List Service) : State.Canonical { s with services := l } := { h with }
theorem canonical_queuedServices (l : List Service) : State.Canonical { s with queuedServices := l } := { h with }

theorem canonical_startService (o : Service) : (s.startService o).Canonical := by
  unfold State.startService
  extract_lets started
  have hstarted : started.Canonical := canonical_services h _
  split
  · exact canonical_updPart hstarted ..
  · exact hstarted

theorem canonical_askService (o : Service) : (s.askService o).Canonical :=
  canonical_ite (canonical_queuedServices h _) (canonical_startService h _)

theorem canonical_endService (o : Service) : (s.endService o).Canonical := by
  unfold State.endService
  split
  · exact canonical_ite (canonical_updPart (canonical_updPart h ..) ..) (canonical_healthEvent (canonical_updPart h ..) ..)
  · exact h

theorem canonical_nextService (kind : Nat) : (s.nextService kind).Canonical := by
  unfold State.nextService
  split
  · exact h
  · split
    · exact h
    · exact canonical_startService (canonical_queuedServices h _) _

theorem canonical_completeService (n : Nat) : (s.completeService n).Canonical := by
  unfold State.completeService
  split
  · exact h
  · exact canonical_nextService (canonical_endService (canonical_services h _) _) _

theorem canonical_vlendFilter (f : Nat × Word64 → Bool) : State.Canonical { s with vlend := s.vlend.filter f } :=
  { h with vlend := Tab.wf_filter h.vlend f }

theorem canonical_configure (p x y w height pbase : Nat) : (s.configure p x y w height pbase).Canonical := by
  unfold State.configure
  extract_lets new killed copies gone freed joined cleared lent
  have hgone : gone.Canonical := canonical_copyGone (canonical_foldl _ (fun _ _ ht => canonical_killKernel ht _) _ h) ..
  have hfreed : freed.Canonical := canonical_foldl _ (fun _ _ ht => canonical_updCluster ht ..) _ hgone
  have hjoined : joined.Canonical := canonical_foldl _ (fun _ _ ht => canonical_updCluster ht ..) _ hfreed
  have hcleared : cleared.Canonical := canonical_foldl _ (fun _ _ ht => canonical_updCore ht ..) _ hjoined
  exact canonical_setPart (canonical_vlendFilter hcleared _) ..

theorem canonical_raiseAlarm (cause : Nat) : (s.raiseAlarm cause).Canonical := by
  have told := canonical_sendTo h 1024 (eventD0 evAlarm 0 0 0) [BitVec.ofNat 64 cause]
  refine { told with ctxs := ?_ }
  refine Tab.wf_map h.ctxs (fun (_ : Nat) (x : Ctx) => match x.run with
    | .free => x | _ => { x with run := .stopped, preempt := false }) fun _ x hx => ?_
  split
  · exact hx
  · intro e
    cases congrArg Ctx.run e

omit h in
theorem wf_failedCores : Tab.wf {} failedCores = true := by
  refine Tab.wf_foldl _ (fun t k ht => ?_) _ rfl
  split
  · exact ht
  · exact Tab.wf_set ht ..

theorem canonical_restart : s.restart.Canonical := by
  unfold State.restart
  have hcores := wf_failedCores
  generalize failedCores = cores at *
  exact ⟨rfl, hcores, rfl, rfl, rfl, h.remote, rfl, rfl, rfl, rfl⟩

/-! ### Accesses from other devices -/

theorem canonical_fabricServe (r : FabricReq) (loc : Nat) : (s.fabricServe r loc).2.Canonical := by
  unfold State.fabricServe
  dsimp only
  split
  · exact h
  · exact canonical_deviceCommit h ..
  · exact canonical_deviceCommit h ..
  · exact canonical_deviceCommit h ..
  · exact canonical_atomicRun h _
  · exact canonical_atomicRun h _

theorem canonical_fabricTag (r : FabricReq) (loc tag : Nat) (act : TagAct) : (s.fabricTag r loc tag act).Canonical :=
  canonical_tagWrites h _

theorem canonical_fabricAccess (r : FabricReq) : (s.fabricAccess r).Canonical := by
  unfold State.fabricAccess
  dsimp only
  split
  · exact canonical_replies h _
  · split
    · exact canonical_replies h _
    · split
      · exact canonical_fabricTag h ..
      · exact canonical_fabricTag h ..
      · exact canonical_replies (canonical_fabricServe h ..) _

end CanonicalDevice
end Sys2Proof.Machine
end

section
/-! The canonical form of the ten tables, O54, part five: every instruction, every bundle, every turn and so every step keep it. -/
namespace Sys2Proof.Machine

section CanonicalStep
variable {s : State} (h : s.Canonical)
include h

theorem canonical_power (b : Bool) : State.Canonical { s with powerHigh := b } := { h with }

theorem canonical_publishOrFail (p r : Nat) :
    (match s.region r with
      | some g => if g.lpart = p then s.publishRegion r g else (pubFail 0 0, s)
      | none => (pubFail 0 0, s)).2.Canonical := by
  split
  · split
    · exact canonical_publishRegion h ..
    · exact h
  · exact h

theorem canonical_execCopy {t : State} (p q : Nat) (hx : execCopy p q s = .next t) : t.Canonical := by
  refine canonical_event ?_ hx
  split
  · exact h
  · refine canonical_perform? _ _ _ (canonical_updQueue ?_ ..) h
    exact { h with }

theorem canonical_execPublish {t : State} (p q : Nat) (hx : execPublish p q s = .next t) : t.Canonical := by
  refine canonical_event ?_ hx
  split
  · exact h
  · exact canonical_perform? _ _ _
      (canonical_finish (canonical_sendTo (canonical_publishOrFail (canonical_atRegion h _) ..) ..) ..) h

/-- The scalar unit and control. -/
theorem canonical_exec_unit {i : Instr} {t : State} (hc : [1, 2].contains (classOf i) = true) (hx : exec i s = .next t) :
    t.Canonical := by
  cases i with
  | add | sub | mul | mulh | mulhu | div | rem | and | or | xor | shl | shr | sra | min | max =>
    exact canonical_perform h (canonical_aluBody · ..) hx
  | mov | mve | mfe | li => exact canonical_perform h (canonical_moveBody · ..) hx
  | sel => exact canonical_perform h (canonical_selBody · ..) hx
  | cmp => exact canonical_perform h (canonical_cmpBody · ..) hx
  | nop => exact canonical_perform (i := .nop _) (body := fun u => u) h (fun hu => hu) hx
  | br => exact canonical_perform h (canonical_goTo · _) hx
  | jmp | ret => exact canonical_perform h (canonical_goToReg (k := fun u => u) fun hu => hu) hx
  | call => exact canonical_perform h (fun hu => canonical_link (canonical_goTo hu _)) hx
  | callReg => exact canonical_perform h (canonical_goToReg (canonical_link ·)) hx
  | loop => exact canonical_perform h (canonical_loopBody · ..) hx
  | flip => exact canonical_perform h (canonical_flipBody · ..) hx
  | retire => exact canonical_perform h (canonical_retireBody ·) hx
  | trap | bkpt => exact canonical_perform h (canonical_debugBody · ..) hx
  | reth => exact canonical_perform h (canonical_rethBody ·) hx
  | _ => cases hc

/-- The lanes. -/
theorem canonical_exec_lanes {i : Instr} {t : State} (hc : [3, 4, 5, 6].contains (classOf i) = true) (hx : exec i s = .next t) :
    t.Canonical := by
  cases i with
  | vadd | vsub | vmul | vmulh | vand | vor | vxor | vshl | vshr | vsra | vmin | vmax => exact canonical_perform h (canonical_vecBody · ..) hx
  | vabs | vcnt => exact canonical_perform h (canonical_vec1Body · ..) hx
  | vsel => exact canonical_perform h (canonical_vselBody · ..) hx
  | vredi => exact canonical_perform h (canonical_vrediBody · ..) hx
  | vcmp => exact canonical_perform h (canonical_vcmpBody · ..) hx
  | fadd | fsub | fmul | fmin | fmax => exact canonical_perform h (canonical_floatBody · ..) hx
  | fma | fsca => exact canonical_perform h (canonical_fmaBody · ..) hx
  | fabs | fneg => exact canonical_perform h (canonical_signBody · ..) hx
  | fred => exact canonical_perform h (canonical_fredBody · ..) hx
  | fcmp => exact canonical_perform h (canonical_fcmpBody · ..) hx
  | cvt => exact canonical_perform h (canonical_cvtBody · ..) hx
  | qnt => exact canonical_perform h (canonical_qntBody · ..) hx
  | dqnt => exact canonical_perform h (canonical_dqntBody · ..) hx
  | vperm => exact canonical_perform h (canonical_vpermBody · ..) hx
  | vbcast => exact canonical_perform h (canonical_vbcastBody · ..) hx
  | vseq => exact canonical_perform h (canonical_vseqBody · ..) hx
  | visect => exact canonical_perform h (canonical_visectBody · ..) hx
  | vmovp => exact canonical_perform h (canonical_vmovpBody · ..) hx
  | rngc => exact canonical_perform h (canonical_rngcBody · ..) hx
  | vext => exact canonical_perform h (canonical_vextBody · ..) hx
  | vins => exact canonical_perform h (canonical_vinsBody · ..) hx
  | fexp2 | flog2 | frcp | frsq | fsqrt => exact canonical_perform h (canonical_specialBody · ..) hx
  | fdiv => exact canonical_perform h (canonical_fdivBody · ..) hx
  | _ => cases hc

/-- Memory, the matrix unit, engines and system syllables. -/
theorem canonical_exec_traffic {i : Instr} {t : State} (hc : [7, 8, 9, 10, 11].contains (classOf i) = true)
    (hx : exec i s = .next t) : t.Canonical := by
  cases i with
  | ld => exact canonical_perform h (canonical_ldAt · ..) hx
  | lds g d base imm m =>
    exact canonical_perform h (canonical_ldsAt · ..) (show execLds g d base imm m s = .next t from hx)
  | ldr => exact canonical_perform h (canonical_ldrAt · ..) hx
  | ldp => exact canonical_perform h (canonical_ldpBody · ..) hx
  | pf => exact canonical_perform h (canonical_pfAt · ..) hx
  | qpop => exact canonical_perform h (canonical_qpopBody · ..) hx
  | st g d base imm m =>
    exact canonical_perform h (canonical_unlessBad (canonical_storeAt · ..)) (show execSt g d base imm m s = .next t from hx)
  | sts g d base imm m =>
    exact canonical_perform h (canonical_unlessBad (canonical_storeSpadAt · ..)) (show execSts g d base imm m s = .next t from hx)
  | stq g d base tag m =>
    exact canonical_perform h (canonical_unlessBad (canonical_tagStoreAt · ..)) (show execStq g d base tag m s = .next t from hx)
  | pacc g d base win off sr =>
    exact canonical_perform h (canonical_unlessBad (canonical_updateBody · ..)) (show execPacc g d base win off sr s = .next t from hx)
  | qpush g d z =>
    exact canonical_perform h (canonical_unlessBad (canonical_qpushBody · ..)) (show execQpush g d z s = .next t from hx)
  | stp => exact canonical_perform h (canonical_stpBody · ..) hx
  | stk g d base imm =>
    exact canonical_perform h (canonical_storeAt · ..) (show execStk g d base imm s = .next t from hx)
  | atom | acas => exact canonical_perform h (canonical_atomicAt · ..) hx
  | pdec g d base win off sr =>
    exact canonical_perform h (canonical_updateBody · ..) (show execPdec g d base win off sr s = .next t from hx)
  | xcfg => exact canonical_perform h (canonical_xcfgBody · ..) hx
  | xpush => exact canonical_perform h (canonical_xpushBody ·) hx
  | xacc g bank =>
    exact canonical_perform h (canonical_saturating · _) (show execXacc g bank s = .next t from hx)
  | xshift g bank =>
    exact canonical_perform h (canonical_saturating · _) (show execXshift g bank s = .next t from hx)
  | xdrain => exact canonical_perform h (canonical_xdrainBody · _) hx
  | ecopy | egather | ereduce | epage | edict => exact canonical_perform h (canonical_engineBody · ..) hx
  | csrr g d csr =>
    exact canonical_perform h (canonical_csrrBody · ..) (show execCsrr g d csr s = .next t from hx)
  | csrw g src csr =>
    exact canonical_perform h (canonical_csrwBody · ..) (show execCsrw g src csr s = .next t from hx)
  | flags => exact canonical_perform h (canonical_flagsBody · ..) hx
  | versw | verswNamed => exact canonical_perform h (canonical_verswBody · _) hx
  | verpub => exact canonical_perform h (canonical_verpubBody · _) hx
  | qarm => exact canonical_perform h (canonical_qarmBody · ..) hx
  | _ => cases hc

/-- What happens without a syllable. -/
theorem canonical_exec_event {i : Instr} {t : State} (hc : classOf i = 0) (hx : exec i s = .next t) : t.Canonical := by
  have hear : s.hear.Canonical := canonical_owner h _
  cases i with
  | variableResultLand => exact canonical_event (canonical_updCtx h ..) hx
  | lateFaultReport =>
    refine canonical_event ?_ hx
    split
    · exact canonical_stopLate h ..
    · exact h
  | verpubStep => exact canonical_event (canonical_doVerpub h _) hx
  | verswStep => exact canonical_event (canonical_doVersw h _) hx
  | translationWalkComplete => exact canonical_event (canonical_doWalk h _) hx
  | walkerStart => exact canonical_event (canonical_startWalk h _) hx
  | flipRelease => exact canonical_event (canonical_doRelease h _) hx
  | flipExchange => exact canonical_event (canonical_doExchange h _) hx
  | taskStart => exact canonical_event (canonical_doTask h _) hx
  | contextFree => exact canonical_event (canonical_doFree h _) hx
  | handlerEntry => exact canonical_event (canonical_updCtx h ..) hx
  | packetArrival => exact canonical_event (canonical_receive h _) hx
  | launch =>
    refine canonical_event ?_ hx
    split
    · exact h
    · exact canonical_ite (canonical_wait? h ..) (canonical_haltQueue h ..)
  | kernelDispatch => exact canonical_event (canonical_doDispatch h _) hx
  | contextStart => exact canonical_event (canonical_doStart h _) hx
  | copy => exact canonical_execCopy h _ _ hx
  | copyComplete => exact canonical_event (canonical_endCopy h ..) hx
  | depEvent | depPageSet => exact canonical_event (canonical_doDep h ..) hx
  | depComplete => exact canonical_event (canonical_endDep h ..) hx
  | signal =>
    refine canonical_event ?_ hx
    split
    · exact h
    · exact canonical_perform? _ _ _ (canonical_finish (canonical_countUp h ..) ..) h
  | setdetQueue | setdetPartition => exact canonical_event (canonical_doSetdet h ..) hx
  | setdetComplete => exact canonical_event (canonical_endSetdet h ..) hx
  | publish => exact canonical_execPublish h _ _ hx
  | captureStart | captureStop | captureResume => exact canonical_event (canonical_doCapture h ..) hx
  | capturePageWrite => exact canonical_event (canonical_capturePage h _) hx
  | markOn | markOff | markDecl | markSnap | markMode => exact canonical_event (canonical_doMark h ..) hx
  | resync => exact canonical_event (canonical_doResync h _) hx
  | ownerClaim => exact canonical_event (canonical_doClaim h _) hx
  | ownerHandover =>
    exact canonical_event (canonical_ownerOnly _ (fun hu => canonical_tellOwner (canonical_becomeOwner hu _) ..) h) hx
  | ownerRenew | ownerRelease => exact canonical_event (canonical_ownerOnly _ (canonical_owner · _) h) hx
  | electionClose => exact canonical_event (canonical_closeElection h) hx
  | leaseExpiry => exact canonical_event (canonical_owner h _) hx
  | engineChunkPerform => exact canonical_event (canonical_doChunk h _) hx
  | engineComplete => exact canonical_event (canonical_doComplete h _) hx
  | taggedWriteArrive => exact canonical_event (canonical_doTag h _) hx
  | heldWriteTimeout => exact canonical_event (canonical_doExpire h _) hx
  | replacementWriteback => exact canonical_event (canonical_replaceLine h ..) hx
  | randomWordFill => exact canonical_event (canonical_updCtx h ..) hx
  | portOperandFetch => exact canonical_event (canonical_updCtx h ..) hx
  | portOperandAvailable => exact canonical_event (canonical_doArrive h ..) hx
  | watchdogPreempt => exact canonical_event (canonical_watchPreempt h ..) hx
  | watchdogKill => exact canonical_event (canonical_watchKill h ..) hx
  | watchdogFence => exact canonical_event (canonical_watchFence h ..) hx
  | preemption => exact canonical_event (canonical_doPreempt h _) hx
  | contextRestore => exact canonical_event (canonical_doRestore h _) hx
  | faultRecordWrite => exact canonical_event (canonical_doRecord h _) hx
  | ctxcmdResume => exact canonical_event (canonical_ctxResume (canonical_hearFrom h _) ..) hx
  | ctxcmdKill => exact canonical_event (canonical_ctxKill (canonical_hearFrom h _) ..) hx
  | ctxcmdPreempt => exact canonical_event (canonical_ctxPreempt (canonical_hearFrom h _) ..) hx
  | qctlResume => exact canonical_event (canonical_queueResume (canonical_hearFrom h _) ..) hx
  | qctlDiscardHead => exact canonical_event (canonical_queueDiscard (canonical_hearFrom h _) ..) hx
  | qctlDiscardAll => exact canonical_event (canonical_queueClear (canonical_hearFrom h _) ..) hx
  | tlbinv => exact canonical_event (canonical_doTlbinv hear ..) hx
  | tlbinvComplete => exact canonical_event (canonical_endTlbinv h _) hx
  | vlendWrite => exact canonical_event (canonical_doVlend hear ..) hx
  | brkaWrite => exact canonical_event (canonical_updCtx hear ..) hx
  | monitorWrite => exact canonical_event (canonical_updPart hear ..) hx
  | monitorFailure => exact canonical_event (canonical_failMonitor h ..) hx
  | monitorRelationHolds => exact canonical_event (canonical_updPart h ..) hx
  | dumpComplete => exact canonical_event (canonical_doDump h _) hx
  | dumpEngineFault => exact canonical_event (canonical_doDumpFault h _) hx
  | rerunCompare => exact canonical_event (canonical_doCompare h _) hx
  | registerWrite => exact canonical_event (canonical_doRegister hear ..) hx
  | ringTailAdvance => exact canonical_event (canonical_advanceTail hear ..) hx
  | partitionFirmwareUpdate | vaultRetraining | fabricPortRetraining =>
    exact canonical_event (canonical_askService hear _) hx
  | liveServiceOperationComplete => exact canonical_event (canonical_completeService h _) hx
  | partitionReconfiguration => exact canonical_event (canonical_ite (canonical_configure hear ..) hear) hx
  | clusterRetirement => exact canonical_event (canonical_ite hear (canonical_updCluster hear ..)) hx
  | securityAlarm => exact canonical_event (canonical_raiseAlarm h _) hx
  | deviceReset => exact canonical_event (ok := true) (u := s.restart) (canonical_restart h) hx
  | powerLimit => exact canonical_event (canonical_power h true) hx
  | powerBelowLimit => exact canonical_event (canonical_power h false) hx
  | atomicPerform => exact canonical_event (canonical_doAtomic h _) hx
  | fabricGlobalAccess => exact canonical_event (canonical_fabricAccess (canonical_hearSrc h _) _) hx
  | _ => cases hc

theorem canonical_exec {i : Instr} {t : State} (hx : exec i s = .next t) : t.Canonical := by
  have hc : classOf i ≤ 11 := Coding.classOf_le i
  by_cases h0 : classOf i = 0
  · exact canonical_exec_event h h0 hx
  · by_cases h2 : classOf i ≤ 2
    · exact canonical_exec_unit h (by interval_cases classOf i <;> simp_all) hx
    · by_cases h6 : classOf i ≤ 6
      · exact canonical_exec_lanes h (by interval_cases classOf i <;> simp_all) hx
      · exact canonical_exec_traffic h (by interval_cases classOf i <;> simp_all) hx

/-! ### Bundles -/

omit h in
theorem canonical_runSyls {l : List Syl} {t : State} (h : s.Canonical) (hx : runSyls l s = .next t) : t.Canonical := by
  induction l generalizing s with
  | nil => cases hx; exact h
  | cons y l ih =>
    unfold runSyls at hx
    split at hx
    · next hy => exact ih (canonical_exec (canonical_slot h _) hy) hx
    · cases hx
    · cases hx

theorem canonical_draw (c : Nat) (l : List Syl) : (s.draw c l).Canonical :=
  canonical_ite (canonical_slot (canonical_updCtx h ..) _) h

theorem canonical_trapBundle (c : Nat) (p : Plan) (r : Raised) : (s.trapBundle c p r).Canonical := by
  unfold State.trapBundle
  exact canonical_updCtx h ..

theorem canonical_finishBundle (c : Nat) (p : Plan) : (s.finishBundle c p).Canonical :=
  canonical_ite (canonical_setCtx h ..) (canonical_settleFlip (canonical_landDrains (canonical_setCtx h ..) ..) _)

theorem canonical_issuePlan {t : State} (c : Nat) (p : Plan) (hx : s.issuePlan c p = .next t) : t.Canonical := by
  unfold State.issuePlan at hx
  extract_lets begun opened drawn at hx
  have hdrawn : drawn.Canonical := canonical_draw (canonical_slot (canonical_updCtx h ..) _) ..
  split at hx
  · cases hx
  · cases hx
  · next ran =>
    have hran := canonical_runSyls hdrawn ran
    extract_lets issued at hx
    have hissued : issued.Canonical := canonical_ite hran (canonical_updCore hran ..)
    split at hx
    · cases hx; exact canonical_trapBundle hissued ..
    · split at hx
      · cases hx; exact canonical_trapBundle hissued ..
      · cases hx; exact canonical_finishBundle hissued ..

/-! ### Turns -/

theorem canonical_setDenied (c : Nat) (denied : Bool) : (s.setDenied c denied).Canonical :=
  canonical_ite h (canonical_ite (canonical_updCore h ..) (canonical_ite h (canonical_updCore h ..)))

theorem canonical_loseAll (c : Nat) (l : List (Nat × Nat)) : (s.loseAll c l).Canonical :=
  canonical_foldl _ (fun _ _ ht => canonical_lose ht ..) _ h

theorem canonical_endPair (c : Nat) : (s.endPair c).Canonical :=
  canonical_foldl _ (fun _ _ ht => canonical_putRecord ht ..) _ (canonical_setCtx h ..)

theorem canonical_translate (c : Nat) (l : List Miss) : (s.translate c l).Canonical := by
  unfold State.translate
  split
  · extract_lets going paired walking
    clear_value going
    split
    · exact canonical_loseAll h ..
    · exact canonical_loseAll (canonical_walks (canonical_endPair h _) _) ..
  · exact canonical_loseAll (canonical_walksWaiting h _) ..

theorem canonical_served (l : List Nat) : State.Canonical { s with served := l } := { h with }

theorem canonical_waitTurn (c : Nat) (w : FlipWait) : (s.waitTurn c w).Canonical := by
  unfold State.waitTurn
  exact canonical_settleFlip (canonical_landDrains (canonical_updCtx (canonical_ite h (canonical_lose h ..)) ..) ..) _

theorem canonical_prevail {t : State} (c : Nat) (hx : s.prevail c = .next t) : t.Canonical := by
  unfold State.prevail at hx
  extract_lets landed at hx
  have hlanded : landed.Canonical := canonical_updCtx (canonical_served h _) ..
  split at hx
  · exact Host.Outcome.next.inj hx ▸ hlanded
  · exact canonical_issuePlan (canonical_setDenied hlanded ..) _ _ hx

theorem canonical_mergeTurn {t : State} (c : Nat) (p : Plan) (hx : s.mergeTurn c p = .next t) : t.Canonical := by
  unfold State.mergeTurn at hx
  split at hx
  · split at hx
    · cases hx; exact h
    · extract_lets lost at hx
      have hlost : lost.Canonical := canonical_loseAll (canonical_setDenied h ..) ..
      split at hx
      · exact Host.Outcome.next.inj hx ▸ hlost
      · exact canonical_prevail hlost _ hx
  · exact canonical_issuePlan (canonical_setDenied h ..) _ _ hx

theorem canonical_bundleTurn {t : State} (c : Nat) (hx : s.bundleTurn c = .next t) : t.Canonical := by
  unfold State.bundleTurn at hx
  extract_lets landed x at hx
  have hlanded : landed.Canonical := canonical_updCtx h ..
  have granted : (landed.setDenied c false).Canonical := canonical_setDenied hlanded ..
  split at hx
  · split at hx
    · cases hx; exact canonical_translate granted ..
    · split at hx
      · cases hx; exact granted
      · cases hx; exact canonical_setCtx granted ..
  · extract_lets m w walked at hx
    have hwalked : walked.Canonical := canonical_ite granted (canonical_translate granted ..)
    split at hx
    · exact canonical_mergeTurn hlanded _ _ hx
    · cases hx; exact canonical_loseAll hwalked ..

theorem canonical_turn {t : State} (c : Nat) (hx : s.turn c = .next t) : t.Canonical := by
  unfold State.turn at hx
  extract_lets x taken at hx
  have htaken : taken.Canonical := canonical_served h _
  split at hx
  · cases hx
  · split at hx
    · cases hx; exact canonical_setCtx htaken ..
    · split at hx
      · exact Host.Outcome.next.inj hx ▸ htaken
      · split at hx
        · cases hx; exact canonical_waitTurn htaken ..
        · exact canonical_bundleTurn htaken _ hx

/-! ### The end of a cycle, and what the agenda names -/

theorem canonical_countWatch (p : Nat) : (s.countWatch p).Canonical :=
  canonical_foldl _ (fun _ _ ht => canonical_ite (canonical_updQueue ht ..) ht) _ h

theorem canonical_cycle (n : Nat) (l : List Nat) : State.Canonical { s with cycle := n, served := l } := { h with }

theorem canonical_tick : s.tick.Canonical := by
  unfold State.tick
  extract_lets recorded watched moved counted
  have hrecorded : recorded.Canonical := canonical_foldl _ (fun _ _ ht => canonical_countWait ht _) _
    (canonical_foldl _ (fun _ _ ht => canonical_endRecords ht _) _ h)
  have hwatched : watched.Canonical :=
    canonical_foldl _ (fun _ _ ht => canonical_applyActs (canonical_countWatch ht _) _) _ hrecorded
  have hmoved : moved.Canonical := canonical_foldl _ (fun _ _ ht => canonical_updCore ht ..) _ hwatched
  exact canonical_foldl _ (fun _ _ ht => canonical_sample ht _) _ (canonical_cycle hmoved ..)

theorem canonical_takeStep {i : Instr} {t : State} (hx : s.takeStep i = .next t) : t.Canonical := by
  unfold State.takeStep at hx
  split at hx
  · next he =>
    split at hx
    · cases hx; exact canonical_exec h he
    · cases hx
  · exact canonical_exec h hx

theorem canonical_health (n : Nat) (f : Nat → Nat) : State.Canonical { s with health := Tab.upd 0 s.health n f } :=
  { h with health := Tab.wf_upd h.health n f }

theorem canonical_strikeLine (k line : Nat) : (s.strikeLine k line).Canonical := by
  unfold State.strikeLine
  exact canonical_updCluster h ..

theorem canonical_runTurn {u : Turn} {t : State} (hx : s.runTurn u = .next t) : t.Canonical := by
  unfold State.runTurn at hx
  split at hx
  · split at hx
    · exact canonical_takeStep h hx
    · cases hx
  · split at hx
    · cases hx
    · exact canonical_turn h _ hx
  · exact canonical_sendRegister h _ _ _ hx
  · split at hx
    · cases hx
    · cases hx; exact canonical_tick h
  · cases hx; exact canonical_ite h { h with }
  · cases hx; exact canonical_health h ..
  · cases hx; exact canonical_updCore h ..
  · cases hx; exact canonical_strikeLine h ..
  · cases hx; exact canonical_updCore h ..
  · cases hx; exact h
  · cases hx; exact canonical_updCore h ..

theorem canonical_firstEnabled {l : List Instr} {t : State} (hx : firstEnabled s l = some t) : t.Canonical := by
  induction l with
  | nil => cases hx
  | cons i l ih =>
    unfold firstEnabled at hx
    split at hx
    · next he => cases hx; exact canonical_takeStep h he
    · exact ih hx

theorem canonical_idleTurn {t : State} (hx : s.idleTurn = .next t) : t.Canonical := by
  unfold State.idleTurn at hx
  split at hx
  · next he => cases hx; exact canonical_firstEnabled h he
  · split at hx
    · exact canonical_turn h _ hx
    · split at hx
      · next he => cases hx; exact canonical_firstEnabled h he
      · cases hx; exact canonical_tick h

theorem canonical_agenda (l : List Turn) : State.Canonical { s with agenda := l } := { h with }

theorem canonical_step {t : State} (hx : step s = .next t) : t.Canonical := by
  unfold step State.move at hx
  split at hx
  · exact canonical_idleTurn h hx
  · exact canonical_runTurn (canonical_agenda h _) hx

end CanonicalStep
end Sys2Proof.Machine

open Sys2Proof Sys2Proof.Machine

/-- Settles O54: each function that a step is made of keeps the canonical form, `canonical_exec` for the instructions among them. -/
theorem stepKeepsCanonicalForm : Obligations.StepKeepsCanonicalForm := fun _ _ h hx => canonical_step h hx

end

section
/-! The device never stops by itself, O55: a bundle that a context would issue holds operation syllables alone, each of which answers a
next state; so does a turn of a context that may take it, and the end of a cycle takes the place of a turn that none may. -/
namespace Sys2Proof.Machine

/-! ### What a fetched bundle holds -/

/-- Every syllable of a list is one: none of its instructions is a step of the device. -/
def Syllables (l : List Syl) : Prop := ∀ y ∈ l, classOf y.instr ≠ 0

section Fetched
variable {s : State} {c a n : Nat} {ws : List Nat}

theorem quadAt_lt (h : s.quadAt c a = .ok ws) : ∀ w ∈ ws, w < 2 ^ 32 := by
  unfold State.quadAt at h
  split at h
  · cases h
  · split at h
    · cases h
    · cases h
      intro w hw
      obtain ⟨i, hi, rfl⟩ := List.mem_map.mp hw
      exact (ofBytes_lt _).trans_le (Nat.pow_le_pow_right (by omega) (List.length_take_le 4 _))

theorem fetch_lt (h : s.fetch c n a = .ok ws) : ∀ w ∈ ws, w < 2 ^ 32 := by
  induction n generalizing a ws with
  | zero => cases h; simp
  | succ n ih =>
    unfold State.fetch at h
    split at h
    · cases h
    · next hquad =>
      split at h
      · split at h
        · cases h
        · next hrest =>
          cases h
          intro w hw
          exact (List.mem_append.mp hw).elim (quadAt_lt hquad w) (ih hrest w)
      · cases h
        exact quadAt_lt hquad

theorem syllables_sylsOf (h : ∀ w ∈ ws, w < 2 ^ 32) : Syllables (sylsOf ws) := by
  intro y hy
  obtain ⟨p, hp, hsome⟩ := List.mem_filterMap.mp hy
  have hword : ws.getD p 0 < 2 ^ 32 := by
    rw [List.getD_eq_getElem _ _ (List.mem_range.mp hp)]
    exact h _ (List.getElem_mem _)
  dsimp only at hsome
  split at hsome
  · cases hsome
  · split at hsome
    · next hdecode =>
      cases hsome
      exact (encodeOfDecode _ _ hword hdecode).2.2
    · cases hsome

theorem syllables_assign {used : List Nat} {l m : List Syl} (h : Syllables l) (hm : assign used l = .ok m) : Syllables m := by
  induction l generalizing used m with
  | nil => cases hm; exact h
  | cons y l ih =>
    obtain ⟨hy, hl⟩ := List.forall_mem_cons.mp h
    unfold assign at hm
    split at hm
    · cases hm
    · split at hm
      · cases hm
      · next hrest =>
        cases hm
        exact List.forall_mem_cons.mpr ⟨hy, ih hl hrest⟩

theorem syllables_decodeBundle {b : Bundle} (h : ∀ w ∈ ws, w < 2 ^ 32) (hb : decodeBundle ws = .ok b) : Syllables b.syls := by
  unfold decodeBundle at hb
  split at hb
  · cases hb
  · split at hb
    · cases hb
    · split at hb
      · cases hb
      · next hassign =>
        split at hb
        · cases hb
        · split at hb
          · cases hb
          · cases hb
            exact syllables_assign (syllables_sylsOf h) hassign

theorem syllables_look {p : Plan} (h : s.look c = .ok p) : Syllables p.todo := by
  unfold State.look at h
  dsimp only at h
  split at h
  · cases h
  · next hfetch =>
    split at h
    · cases h
    · next hdecode =>
      have hsyls := syllables_decodeBundle (fetch_lt hfetch) hdecode
      split at h
      · cases h
      · split at h
        · cases h
        · split at h
          · cases h
          · cases h
            exact fun y hy => hsyls y (List.mem_of_mem_filter (List.mem_of_mem_filter hy))

end Fetched

/-! ### Every turn that may be taken answers a next state -/

section Answers
variable {s : State} {c : Nat} {p : Plan}

theorem syllables_issueOrder {l : List Syl} (h : Syllables l) : Syllables (issueOrder l) := by
  intro y hy
  simp only [issueOrder, List.mem_append, List.mem_filter] at hy
  exact h y (by tauto)

theorem runSyls_next {l : List Syl} (h : Syllables l) (s : State) : ∃ t, runSyls l s = .next t := by
  induction l generalizing s with
  | nil => exact ⟨s, rfl⟩
  | cons y l ih =>
    obtain ⟨hy, hl⟩ := List.forall_mem_cons.mp h
    obtain ⟨u, hu⟩ := exec_next y.instr hy (s.atSyl y)
    obtain ⟨t, ht⟩ := ih hl u
    exact ⟨t, by rw [runSyls, runSyl, hu]; exact ht⟩

theorem issuePlan_next (h : Syllables p.todo) (s : State) (c : Nat) : ∃ t, s.issuePlan c p = .next t := by
  unfold State.issuePlan
  extract_lets begun opened drawn
  obtain ⟨u, hu⟩ := runSyls_next (syllables_issueOrder h) drawn
  rw [hu]
  dsimp only
  split
  · exact ⟨_, rfl⟩
  · split
    · exact ⟨_, rfl⟩
    · exact ⟨_, rfl⟩

theorem prevail_next (s : State) (c : Nat) : ∃ t, s.prevail c = .next t := by
  unfold State.prevail
  extract_lets landed
  split
  · exact ⟨_, rfl⟩
  · next hlook => exact issuePlan_next (syllables_look hlook) ..

theorem mergeTurn_next (h : Syllables p.todo) (s : State) (c : Nat) : ∃ t, s.mergeTurn c p = .next t := by
  unfold State.mergeTurn
  split
  · split
    · exact ⟨_, rfl⟩
    · split
      · exact ⟨_, rfl⟩
      · exact prevail_next ..
  · exact issuePlan_next h ..

theorem bundleTurn_next (s : State) (c : Nat) : ∃ t, s.bundleTurn c = .next t := by
  unfold State.bundleTurn
  extract_lets landed x
  split
  · split
    · exact ⟨_, rfl⟩
    · split
      · exact ⟨_, rfl⟩
      · exact ⟨_, rfl⟩
  · next hlook =>
    extract_lets m w walked
    split
    · exact mergeTurn_next (syllables_look hlook) ..
    · exact ⟨_, rfl⟩

/-- A context that runs and has had no turn in this cycle takes one. -/
theorem turn_next (halive : (s.ctx c).alive = true) (hserved : s.served.contains c = false) : ∃ t, s.turn c = .next t := by
  unfold State.turn
  simp only [halive, hserved, Bool.not_true, Bool.or_false, Bool.false_eq_true, if_false]
  split
  · exact ⟨_, rfl⟩
  · split
    · exact ⟨_, rfl⟩
    · split
      · exact ⟨_, rfl⟩
      · exact bundleTurn_next ..

theorem idleTurn_next (h : s.Canonical) : ∃ t, s.idleTurn = .next t := by
  unfold State.idleTurn
  split
  · exact ⟨_, rfl⟩
  · split
    · next x hfind =>
      have hx : x.2.alive = true ∧ s.served.contains x.1 = false := by simpa using List.find?_some hfind
      obtain ⟨halive, hserved⟩ := hx
      have hctx : s.ctx x.1 = x.2 := get_of_mem h.ctxs (List.mem_of_find?_eq_some hfind)
      exact turn_next (by rw [hctx]; exact halive) hserved
    · split
      · exact ⟨_, rfl⟩
      · exact ⟨_, rfl⟩

end Answers
end Sys2Proof.Machine

open Sys2Proof Sys2Proof.Machine

/-- Settles O55: with no agenda the step is `State.idleTurn`, which always answers. -/
theorem stepNeverStops : Obligations.StepNeverStops := by
  intro s h hagenda
  unfold step State.move
  rw [hagenda]
  exact idleTurn_next h

end

section
/-! The device after reset (20 R266), O52 and O53: its tables are empty, and an unlisted entry holds what log entry 3 says. -/
namespace Sys2Proof.Machine

theorem canonical_reset : State.reset.Canonical := ⟨rfl, rfl, rfl, rfl, rfl, rfl, rfl, rfl, rfl, rfl⟩

theorem part_reset (p : Nat) : State.reset.part p = {} := rfl
theorem ctx_reset (c : Nat) : State.reset.ctx c = {} := rfl
theorem cluster_reset (k : Nat) : State.reset.cluster k = {} := rfl

end Sys2Proof.Machine

open Sys2Proof Sys2Proof.Machine

/-- Settles O53: each of the ten tables is empty. -/
theorem resetIsCanonical : Obligations.ResetIsCanonical := canonical_reset

/-- Settles O52: what the reset state holds is what its fields and the entries of its empty tables start with. -/
theorem resetState : Obligations.ResetState := by
  refine ⟨fun p => ?_, rfl, rfl, fun c => ?_, rfl, rfl, fun _ => rfl, fun _ => rfl, fun k n => ?_, rfl, rfl⟩
  · rw [part_reset]
  · rw [ctx_reset]
  · rw [cluster_reset]
    rfl

end

section
/-! Class 1 outside the completion handler (20 R272, R273, R278; 21 R303, R307; 22 R318), O1: what each function of the scalar unit gives
as an operation on words, and the result or the trap of each syllable. -/
namespace Sys2Proof.Machine

/-! ### The functions of the scalar unit on words -/

section Words
variable (A B : Word64)

theorem add_words : (A + B).toNat = (A.toNat + B.toNat) % 2 ^ 64 % 2 ^ 64 := by simp

theorem sub_words : (A - B).toNat = (A.toNat + 2 ^ 64 - B.toNat % 2 ^ 64) % 2 ^ 64 % 2 ^ 64 := by
  have := A.isLt
  have := B.isLt
  rw [BitVec.toNat_sub]
  omega

theorem mul_words : (A * B).toNat = A.toNat * B.toNat % 2 ^ 64 % 2 ^ 64 := by simp

theorem mulHighSigned_words :
    (((A.signExtend 128 * B.signExtend 128) >>> 64).setWidth 64).toNat = mulHighSigned A.toNat B.toNat % 2 ^ 64 := by
  have product : A.signExtend 128 * B.signExtend 128 = BitVec.ofInt 128 (A.toInt * B.toInt) := (BitVec.ofInt_mul ..).symm
  rw [product, mulHighSigned, toSigned_toNat, toSigned_toNat, BitVec.toNat_setWidth, BitVec.toNat_ushiftRight, BitVec.toNat_ofInt,
    Nat.shiftRight_eq_div_pow]
  generalize A.toInt * B.toInt = z
  unfold ofSigned
  omega

theorem mulHighUnsigned_words :
    (((A.setWidth 128 * B.setWidth 128) >>> 64).setWidth 64).toNat = mulHighUnsigned A.toNat B.toNat % 2 ^ 64 := by
  have hA : (A.setWidth 128).toNat = A.toNat := by simp; omega
  have hB : (B.setWidth 128).toNat = B.toNat := by simp; omega
  have product : A.toNat * B.toNat < 2 ^ 128 := by
    have := Nat.mul_lt_mul'' A.isLt B.isLt
    omega
  rw [mulHighUnsigned, BitVec.toNat_setWidth, BitVec.toNat_ushiftRight, BitVec.toNat_mul, hA, hB, Nat.mod_eq_of_lt product,
    Nat.shiftRight_eq_div_pow, Nat.mod_mod]

theorem and_words : (A &&& B).toNat = (A.toNat &&& B.toNat) % 2 ^ 64 := by
  rw [← BitVec.toNat_and, Nat.mod_eq_of_lt (BitVec.isLt _)]

theorem or_words : (A ||| B).toNat = (A.toNat ||| B.toNat) % 2 ^ 64 := by
  rw [← BitVec.toNat_or, Nat.mod_eq_of_lt (BitVec.isLt _)]

theorem xor_words : (A ^^^ B).toNat = (A.toNat ^^^ B.toNat) % 2 ^ 64 := by
  rw [← BitVec.toNat_xor, Nat.mod_eq_of_lt (BitVec.isLt _)]

theorem shl_words (n : Nat) : (A <<< n).toNat = A.toNat * 2 ^ n % 2 ^ 64 % 2 ^ 64 := by
  rw [BitVec.toNat_shiftLeft, Nat.shiftLeft_eq, Nat.mod_mod]

theorem shiftRight_words : (A >>> (B.toNat % 64)).toNat = shiftRight A.toNat B.toNat % 2 ^ 64 := by
  rw [shiftRight, Nat.mod_eq_of_lt ((Nat.div_le_self ..).trans_lt A.isLt), BitVec.toNat_ushiftRight, Nat.shiftRight_eq_div_pow]

theorem shiftRightArith_words : (A.sshiftRight (B.toNat % 64)).toNat = shiftRightArith A.toNat B.toNat % 2 ^ 64 := by
  rw [shiftRightArith, toSigned_toNat, ← ofSigned_toInt, BitVec.toInt_sshiftRight, Int.shiftRight_eq_div_pow,
    Nat.mod_eq_of_lt (ofSigned_lt ..)]

theorem min_words : (if A.sle B then A else B).toNat =
    (if toSigned 64 A.toNat ≤ toSigned 64 B.toNat then A.toNat else B.toNat) % 2 ^ 64 := by
  rw [toSigned_toNat, toSigned_toNat]
  simp only [BitVec.sle, decide_eq_true_eq]
  split
  · exact (Nat.mod_eq_of_lt A.isLt).symm
  · exact (Nat.mod_eq_of_lt B.isLt).symm

theorem max_words : (if A.sle B then B else A).toNat =
    (if toSigned 64 A.toNat ≤ toSigned 64 B.toNat then B.toNat else A.toNat) % 2 ^ 64 := by
  rw [toSigned_toNat, toSigned_toNat]
  simp only [BitVec.sle, decide_eq_true_eq]
  split
  · exact (Nat.mod_eq_of_lt B.isLt).symm
  · exact (Nat.mod_eq_of_lt A.isLt).symm

/-- R273: the flags of a division. -/
def divFlags : Flags := if B = 0 then flDZ else if A = BitVec.intMin 64 ∧ B = -1 then flOF else 0

theorem toInt_eq_zero_iff : B.toInt = 0 ↔ B = 0 := by
  rw [← BitVec.toInt_zero (w := 64), BitVec.toInt_inj]
  simp

theorem divide_words : divide A.toNat B.toNat = ((if B = 0 then -1 else A.sdiv B : Word64).toNat, divFlags A B) := by
  have hmin : A.toInt = -(2 ^ 63 : Nat) ↔ A = BitVec.intMin 64 := by
    rw [← BitVec.toInt_inj]
    exact Iff.rfl
  have hneg : B.toInt = -1 ↔ B = -1 := by
    rw [← BitVec.toInt_inj]
    exact Iff.rfl
  simp only [divide, divFlags, toSigned_toNat, toInt_eq_zero_iff, hmin, hneg]
  by_cases hB : B = 0
  · rw [if_pos hB, if_pos hB, if_pos hB]
    rfl
  · rw [if_neg hB, if_neg hB, if_neg hB]
    by_cases hov : A = BitVec.intMin 64 ∧ B = -1
    · rw [if_pos hov, if_pos hov]
      obtain ⟨rfl, rfl⟩ := hov
      rfl
    · rw [if_neg hov, if_neg hov, ← BitVec.toInt_sdiv_of_ne_or_ne A B (not_and_or.mp hov), ofSigned_toInt]

theorem remainder_words : remainder A.toNat B.toNat = ((A.srem B).toNat, if B = 0 then flDZ else 0) := by
  simp only [remainder, toSigned_toNat, toInt_eq_zero_iff]
  by_cases hB : B = 0
  · rw [if_pos hB, if_pos hB, hB]
    simp
  · rw [if_neg hB, if_neg hB, ← BitVec.toInt_srem, ofSigned_toInt]

end Words

/-! ### The syllables -/

section Syllables
variable {s : State} {i : Instr} {d a b : BitVec 6} {im : Bool}

theorem toNat_sa (s : State) (n : Nat) : (BitVec.ofNat 64 (s.sa n)).toNat = s.sa n := by
  rw [BitVec.toNat_ofNat, State.sa, Nat.mod_eq_of_lt (srcS_lt ..)]

theorem toNat_sb (s : State) (n : Nat) : (BitVec.ofNat 64 (s.sb n)).toNat = s.sb n := by
  rw [BitVec.toNat_ofNat, State.sb, Nat.mod_eq_of_lt (srcS_lt ..)]

theorem toNat_aluB (s : State) (b : BitVec 6) (im : Bool) : (BitVec.ofNat 64 (s.aluB b im)).toNat = s.aluB b im := by
  rw [BitVec.toNat_ofNat, Nat.mod_eq_of_lt (aluB_lt ..)]

/-- A syllable without a vector source reads no port. -/
theorem ports_moulded (h : Normal i s) (hn : ∀ g, i ≠ .nop g) (hx : ∀ g, i ≠ .xpush g) (hsa : ∀ n, (shape i).a ≠ some (.v, n))
    (hsb : ∀ n, (shape i).b ≠ some (.v, n)) : portsOf i s.slot.lend = [] := ports_scalar h.1 hn hx hsa hsb

/-- A scalar result with its flags: enabled ones trap. -/
theorem undoReads_putScalar (hr : s.Room 1) (x : Word64) (fl : Flags) (lat : Nat) :
    undoReads s (s.putScalar .s d.toNat x.toNat lat fl) =
      if s.Enabled fl then s.flagTrap s fl lat else s.scalarResult d x fl lat := by
  split
  · next he =>
    rw [State.putScalar, settle_trap (rs := [_]) he hr]
    exact undoReads_flags rfl fl lat
  · next he =>
    rw [putScalar_result hr he d _ lat x (Nat.mod_eq_of_lt x.isLt).symm]
    exact undoReads_same rfl

/-- R272: a member of the two-operand mould outside the handler; `f` is given on words. -/
theorem exec_alu {f : Nat → Nat → Nat × Flags} (e : exec i s = perform i s (aluBody f d a b im)) (hp : portsOf i s.slot.lend = [])
    (hh : s.cur.inHandler = false) (hr : s.Room 1) (h : Normal i s) {x : Word64} {fl : Flags}
    (hf : f (BitVec.ofNat 64 (s.sa a.toNat)).toNat (BitVec.ofNat 64 (s.aluB b im)).toNat = (x.toNat, fl)) :
    exec i s = .next (if s.Enabled fl then s.flagTrap s fl 1 else s.scalarResult d x fl) := by
  rw [toNat_sa, toNat_aluB] at hf
  have body : aluBody f d a b im s = s.putScalar .s d.toNat x.toNat 1 fl := by
    simp only [aluBody, hh, Bool.false_eq_true, if_false, hf]
  rw [e, perform_normal h, popPorts_nil hp, body, undoReads_putScalar hr]

/-- A member without flags. -/
theorem exec_plain {f : Nat → Nat → Nat} (e : exec i s = perform i s (aluBody (plain f) d a b im)) (hp : portsOf i s.slot.lend = [])
    (hh : s.cur.inHandler = false) (hr : s.Room 1) (h : Normal i s) {x : Word64}
    (hf : x.toNat = f (BitVec.ofNat 64 (s.sa a.toNat)).toNat (BitVec.ofNat 64 (s.aluB b im)).toNat % 2 ^ 64) :
    exec i s = .next (s.scalarResult d x) := by
  rw [toNat_sa, toNat_aluB] at hf
  exact perform_alu hh hr h e hp x 0 hf rfl (not_enabled_zero s)

/-- R307: a member of the move mould outside the handler. -/
theorem exec_move {file : RFile} {src val : State → Nat} (e : exec i s = perform i s (moveBody file d src val))
    (hp : portsOf i s.slot.lend = []) (hh : s.cur.inHandler = false) (hr : s.Room 1) (h : Normal i s) :
    exec i s = .next (s.withResults [s.resultOf 0 (destFile s file d.toNat) d.toNat 0xFF
      (BitVec.ofNat 1024 (src s % 2 ^ 64)) (BitVec.ofNat 1024 (src s % 2 ^ 64)) 1]) := by
  have body : moveBody file d src val s = s.putScalar file d.toNat (src s) 1 := by
    simp only [moveBody, hh, Bool.false_eq_true, if_false]
  rw [e]
  refine (perform_quiet h hp ?_).trans ?_
  · rw [body, putScalar_quiet hr (not_enabled_zero s)]
    rfl
  · rw [body, putScalar_quiet hr (not_enabled_zero s)]

end Syllables

theorem claims_scalarArithmeticResults : Claims.ScalarArithmeticResults := by
  intro g d a b im s hh hr A B n
  refine ⟨?_, ?_, ?_, ?_, ?_, ?_, ?_, ?_, ?_, ?_, ?_, ?_, ?_⟩ <;> intro h
  all_goals have ports := ports_moulded h nofun nofun nofun (by cases im <;> nofun)
  · exact exec_plain rfl ports hh hr h (add_words A B)
  · exact exec_plain rfl ports hh hr h (sub_words A B)
  · exact exec_plain rfl ports hh hr h (mul_words A B)
  · exact exec_plain rfl ports hh hr h (mulHighSigned_words A B)
  · exact exec_plain rfl ports hh hr h (mulHighUnsigned_words A B)
  · exact exec_plain rfl ports hh hr h (and_words A B)
  · exact exec_plain rfl ports hh hr h (or_words A B)
  · exact exec_plain rfl ports hh hr h (xor_words A B)
  · exact exec_plain rfl ports hh hr h (shl_words A n)
  · exact exec_plain rfl ports hh hr h (shiftRight_words A B)
  · exact exec_plain rfl ports hh hr h (shiftRightArith_words A B)
  · exact exec_plain (f := fun x y => if toSigned 64 x ≤ toSigned 64 y then x else y) rfl ports hh hr h (min_words A B)
  · exact exec_plain (f := fun x y => if toSigned 64 x ≤ toSigned 64 y then y else x) rfl ports hh hr h (max_words A B)

theorem claims_scalarDivisionResults : Claims.ScalarDivisionResults := by
  intro g d a b im s hh hr A B fd fr
  refine ⟨fun h => ?_, fun h => ?_⟩
  · exact exec_alu rfl (ports_moulded h nofun nofun nofun (by cases im <;> nofun)) hh hr h (divide_words A B)
  · exact exec_alu rfl (ports_moulded h nofun nofun nofun (by cases im <;> nofun)) hh hr h (remainder_words A B)

theorem signExtend_toNat {n : Nat} (x : BitVec n) (w : Nat) : signExtend n w x.toNat = (x.signExtend w).toNat := by
  rw [signExtend, toSigned_toNat, BitVec.signExtend, ← ofNat_ofSigned, BitVec.toNat_ofNat, Nat.mod_eq_of_lt (ofSigned_lt ..)]

/-- A signed field that an extension makes longer (R70). -/
theorem toSigned_extended {m n : Nat} (e : Nat) (x : BitVec n) :
    toSigned (m + n) (e * 2 ^ n + x.toNat) = (BitVec.ofNat m e ++ x).toInt := by
  have value : (BitVec.ofNat m e ++ x).toNat = e % 2 ^ m * 2 ^ n + x.toNat := by
    rw [toNat_append_eq_add, BitVec.toNat_ofNat]
  have split : e * 2 ^ n + x.toNat = e % 2 ^ m * 2 ^ n + x.toNat + e / 2 ^ m * 2 ^ (m + n) := by
    conv_lhs => rw [← Nat.div_add_mod e (2 ^ m)]
    ring
  have low : (e * 2 ^ n + x.toNat) % 2 ^ (m + n) = (BitVec.ofNat m e ++ x).toNat := by
    rw [split, Nat.add_mul_mod_self_right, ← value, Nat.mod_eq_of_lt (BitVec.isLt _)]
  rw [← toSigned_toNat, ← low]
  unfold toSigned
  rw [Nat.mod_mod]

/-- R303, R70: the immediate of LI. -/
theorem liImm_words (imm : BitVec 13) (s : State) : (match s.slot.lend.ext with
    | none => imm.signExtend 64
    | some e => (BitVec.ofNat 25 e ++ imm).signExtend 64 : Word64).toNat = liImm imm s % 2 ^ 64 := by
  unfold liImm
  cases s.slot.lend.ext with
  | none =>
    dsimp only
    rw [signExtend_toNat, Nat.mod_eq_of_lt (BitVec.isLt _)]
  | some e =>
    dsimp only
    rw [← signExtend_toNat, signExtend, signExtend, toSigned_toNat, ← toSigned_extended, Nat.mod_eq_of_lt (ofSigned_lt ..)]

theorem claims_scalarMoveResults : Claims.ScalarMoveResults := by
  intro g d a b im imm s hh hr A B wide
  have hA : A.toNat = s.sa a.toNat % 2 ^ 64 := BitVec.toNat_ofNat ..
  have hB : B.toNat = s.sb b.toNat % 2 ^ 64 := BitVec.toNat_ofNat ..
  refine ⟨fun h => ?_, fun h => ?_, fun h => ?_, fun h => ?_, fun h => ?_⟩
  · rw [exec_move rfl (ports_moulded h nofun nofun nofun nofun) hh hr h, destFile_scalar, ofNat_wide _ A hA]
    rfl
  · rw [exec_move rfl (ports_moulded h nofun nofun nofun nofun) hh hr h, ofNat_wide _ A hA]
    rfl
  · rw [exec_move rfl (ports_moulded h nofun nofun nofun nofun) hh hr h, destFile_scalar,
      ofNat_wide _ (s.cur.readE a.toNat) (Nat.mod_eq_of_lt (BitVec.isLt _)).symm]
    rfl
  · rw [exec_move rfl (ports_moulded h nofun nofun nofun nofun) hh hr h, destFile_scalar, ofNat_wide _ wide (liImm_words imm s)]
    rfl
  · have ports := ports_moulded h nofun nofun nofun (by cases im <;> nofun)
    have body : selBody g d a b s = s.scalarResult d (if s.cur.guard g then A else B) := by
      refine putScalar_result hr (not_enabled_zero s) d _ 1 _ ?_
      split
      · exact hA
      · exact hB
    exact (perform_quiet h ports (by rw [body]; rfl)).trans (by rw [body])


/-! ### CMP -/

theorem condHolds_words {w : Nat} (c : Cond) (A B : BitVec w) : condHolds c w A.toNat B.toNat = (match c with
    | .eq => A == B | .ne => A != B | .lt => A.slt B | .ge => B.sle A | .ltu => A.ult B | .geu => B.ule A
    | .le => A.sle B | .gt => B.slt A : Bool) := by
  have eq : (A.toNat == B.toNat) = (A == B) := by
    rw [Bool.eq_iff_iff, beq_iff_eq, beq_iff_eq, BitVec.toNat_inj]
  cases c with
  | eq => exact eq
  | ne => exact congrArg not eq
  | lt | ge | le | gt =>
    simp only [condHolds, toSigned_toNat]
    rfl
  | ltu | geu => rfl

/-- Both predicates of a compare, or its latch alone where it is suppressed. -/
theorem putPair_eq {s : State} (hr : s.Room 2) {k : Nat} (hk : s.slot.lend.ws = false → 1 ≤ k) {fl : Flags} (he : ¬ s.Enabled fl)
    (yes no lval lat : Nat) : s.putPair k yes no lval lat fl = if s.slot.lend.ws then
        s.withResults [s.resultOf 0 .latch (2 * k) 0xFFFF (BitVec.ofNat 1024 yes) (BitVec.ofNat 1024 lval) lat fl]
      else s.withResults [s.resultOf 0 .p (2 * k) 0xFFFF (BitVec.ofNat 1024 yes) (BitVec.ofNat 1024 lval) lat fl,
        s.resultOf 1 .p (2 * k + 1) 0xFFFF (BitVec.ofNat 1024 no) (BitVec.ofNat 1024 lval) lat] := by
  have all : BitVec.ofNat 128 (ones 16) = 0xFFFF := rfl
  cases hw : s.slot.lend.ws with
  | true =>
    rw [putPair_suppressed (Nat.le_of_succ_le hr) hw he, all]
    rfl
  | false =>
    have file : destFile s .p (2 * k) = .p := by
      have := hk hw
      simp only [destFile, hw, Bool.false_eq_true, if_false]
      exact if_neg (by omega)
    rw [putPair_quiet hr hw he, all, file]
    rfl

/-- Legal operands come with a destination that the syllable may have (R69, R73). -/
theorem operands_destination {i : Instr} {l : Lend} {al : Alloc} {c lv : Nat} (h : operandsLegal i l al c lv = true) :
    dstLegal i al l.ws (shape i).dst = true := by
  have left : ∀ {a b : Bool}, (a && b) = true → a = true := fun h => (Bool.and_eq_true_iff.mp h).1
  exact (Bool.and_eq_true_iff.mp (left (left (left (left h))))).2

/-- R26, R69: the destination of a compare that is not suppressed is a pair 1 to 7. -/
theorem pair_ge_one {s : State} {i : Instr} {k : Nat} (h : Normal i s) (hn : ∀ g, i ≠ .nop g) (hh : s.cur.inHandler = false)
    (hc : isCompare i = true) (hd : (shape i).dst = some (.p, k)) (hw : s.slot.lend.ws = false) : 1 ≤ k := by
  have legal := operands_destination (verdict_operands h.1 hn hh)
  simp only [hd, dstLegal, hw, hc, Bool.false_eq_true, if_false, if_true, Bool.and_eq_true, decide_eq_true_eq] at legal
  exact legal.1

/-- CMP does not run in the handler (R44). -/
theorem inHandler_of_normal_cmp {s : State} {g : BitVec 3} {c : Cond} {d a b : BitVec 6} {im : Bool}
    (h : Normal (.cmp g c d a b im) s) : s.cur.inHandler = false := by
  cases hh : s.cur.inHandler with
  | false => rfl
  | true => exact nomatch (verdict_handler h.1 nofun hh).1

theorem ofNat_ones : BitVec.ofNat 1024 (ones 128) = 2 ^ 128 - 1 := by decide +kernel

theorem claims_scalarComparePair : Claims.ScalarComparePair := by
  intro g c d a b im s h hr A B t yes no l
  have ports := ports_moulded h nofun nofun nofun (by cases im <;> nofun)
  have hd := pair_ge_one h nofun (inHandler_of_normal_cmp h) rfl rfl
  have ht : condHolds c 64 (s.sa a.toNat) (s.aluB b im) = t := by
    rw [← toNat_sa, ← toNat_aluB]
    exact condHolds_words c A B
  have body : cmpBody c d a b im s = if s.slot.lend.ws then s.withResults [s.resultOf 0 .latch (2 * d.toNat) 0xFFFF yes l 1]
      else s.withResults [s.resultOf 0 .p (2 * d.toNat) 0xFFFF yes l 1, s.resultOf 1 .p (2 * d.toNat + 1) 0xFFFF no l 1] := by
    have hyes : BitVec.ofNat 1024 (if t then ones 128 else 0) = yes := by 
      rw [apply_ite (BitVec.ofNat 1024), ofNat_ones]
      rfl
    have hno : BitVec.ofNat 1024 (if t then 0 else ones 128) = no := by 
      rw [apply_ite (BitVec.ofNat 1024), ofNat_ones]
      rfl
    have hl : BitVec.ofNat 1024 (if t then 1 else 0) = l := apply_ite (BitVec.ofNat 1024) ..
    rw [cmpBody, ht, putPair_eq hr hd (not_enabled_zero s), hyes, hno, hl]
  exact (perform_quiet h ports (by rw [body]; split <;> rfl)).trans (by rw [body])

end Sys2Proof.Machine

open Sys2Proof Sys2Proof.Machine

/-- Settles O1: each syllable's result is that of its function on words, `exec_alu`, `exec_move` and `putPair_eq`. -/
theorem scalarUnit : Obligations.ScalarUnit :=
  ⟨claims_scalarArithmeticResults, claims_scalarDivisionResults, claims_scalarMoveResults, claims_scalarComparePair⟩

end

section
/-! Vector results with flags (20 R268, R291, R293, R294), O5: a list of elements with their flags as a result or a trap, and the special
functions. -/
namespace Sys2Proof.Machine

/-! ### Elements with flags -/

theorem lanesFrom_eq_map (x w n i : Nat) : lanesFrom x w n i = (List.range' i n).map fun k => (element w x k).toNat := by
  induction n generalizing i with
  | zero => rfl
  | succ n ih => rw [lanesFrom, ih, List.range'_succ, List.map_cons, lane_eq_element]

theorem lanes_eq_map (x w n : Nat) : lanes x w n = (List.range n).map fun k => (element w x k).toNat := by
  rw [List.range_eq_range']
  exact lanesFrom_eq_map x w n 0

/-- A function of two elements at every place. -/
theorem zipWith_lanes {α : Type} (f : Nat → Nat → α) (x y w v n : Nat) :
    List.zipWith f (lanes x w n) (lanes y v n) = (List.range n).map fun k => f (element w x k).toNat (element v y k).toNat := by
  simp only [lanes_eq_map, List.zipWith_map, List.zipWith_self]

theorem activeLane_lanePred (s : State) {eb k : Nat} (h : eb * k < 1024) :
    activeLane s.lanePred eb k = s.laneBit (eb * k / 8) := by
  rw [activeLane, bitAt_eq_testBit, State.lanePred, State.laneBit]
  have hk : eb * k / 8 < 128 := by omega
  split
  · rename_i h0
    rw [ones, Nat.testBit_two_pow_sub_one, decide_eq_true hk, h0]
    rfl
  · rename_i h0
    simp [BitVec.testBit_toNat, h0]

/-- The flags of a list, taken from the front as the model does, are those of R268 over all places. -/
theorem activeFlags_eq_foldl (s : State) (eb : Nat) (f : Nat → Flags) (n k : Nat) (acc : Flags) (h : eb * (k + n) ≤ 1024) (he : 0 < eb) :
    acc ||| activeFlags s.lanePred eb ((List.range' k n).map f) k =
      (List.range' k n).foldl (fun acc j => if s.laneBit (eb * j / 8) then acc ||| f j else acc) acc := by
  induction n generalizing k acc with
  | zero => simp [activeFlags]
  | succ n ih =>
    have hk : eb * k < 1024 := lt_of_lt_of_le (Nat.mul_lt_mul_of_pos_left (by omega) he) h
    rw [List.range'_succ, List.map_cons, activeFlags, List.foldl_cons, activeLane_lanePred s hk, ← ih _ _ (by rwa [Nat.add_assoc, Nat.add_comm 1])]
    split <;> simp [BitVec.or_assoc]

theorem laneFlags_eq_elementFlags (s : State) {eb n : Nat} (h : eb * n ≤ 1024) (he : 0 < eb) (f : Nat → Flags) :
    s.laneFlags eb ((List.range n).map f) = s.elementFlags eb n f := by
  have := activeFlags_eq_foldl s eb f n 0 0 (by rwa [Nat.zero_add]) he
  rw [State.laneFlags, State.elementFlags, List.range_eq_range', ← this]
  exact BitVec.zero_or.symm

/-! ### A vector result or the trap of its flags -/

/-- The bytes of a result of `wbits` bits in elements of `eb` bits are enabled as `VectorResult` has it. -/
def State.BytesLand (t : State) (wbits eb : Nat) : Prop :=
  ∀ j, j < 128 → (BitVec.ofNat 128 (t.ben wbits eb)).getLsbD j =
    (decide (j < wbits / 8) && t.laneBit (max 1 (eb / 8) * (j / max 1 (eb / 8))))

/-- A vector result enters flight, or the lowest of its enabled flags traps (R112, R268). -/
theorem perform_flagged {s t : State} {i : Instr} {body : State → State} {d : BitVec 5} {wbits eb v lat : Nat} {fl : Flags}
    (e : exec i s = perform i s body) (hb : body (s.popPorts i) = t.putVector d.toNat wbits eb v lat fl)
    (hraised : t.slot.raised = s.slot.raised) (hw : wbits ≤ 1024) (hland : t.BytesLand wbits eb) (h : Normal i s) (hr : t.Room 1) :
    if t.Enabled fl then exec i s = .next (s.flagTrap t fl lat)
    else ∃ r, exec i s = .next (t.withResults [r]) ∧ VectorResult t r d wbits eb lat fl ∧ r.val.toNat = v % 2 ^ wbits := by
  rw [e, perform_normal h, hb]
  split
  · rename_i he
    rw [State.putVector, settle_trap he (rs := [_]) hr, undoReads_flags hraised]
  · rename_i he
    have hval : (BitVec.ofNat 1024 (v % 2 ^ wbits)).toNat = v % 2 ^ wbits := by
      rw [BitVec.toNat_ofNat]
      exact Nat.mod_eq_of_lt ((Nat.mod_lt _ (Nat.two_pow_pos wbits)).trans_le (Nat.pow_le_pow_right Nat.two_pos hw))
    refine ⟨t.resultOf 0 t.vectorFile d.toNat (BitVec.ofNat 128 (t.ben wbits eb)) (BitVec.ofNat 1024 (v % 2 ^ wbits))
      (BitVec.ofNat 1024 (v % 2 ^ wbits)) lat fl, ?_, ⟨rfl, ?_, hland⟩, hval⟩
    · rw [putVector_quiet hr he, undoReads_same (by simpa using hraised)]
      rfl
    · exact hval.trans_lt (Nat.mod_lt _ (Nat.two_pow_pos _))

/-- Elements with flags, put together as a vector result. -/
theorem floatElements {s t : State} {i : Instr} {body : State → State} {d : BitVec 5} {wbits eb lat n : Nat} {f : Nat → Nat × Flags}
    (e : exec i s = perform i s body)
    (hb : body (s.popPorts i) = t.putFloats d.toNat wbits eb lat ((List.range n).map f))
    (hraised : t.slot.raised = s.slot.raised) (hn : eb * n ≤ wbits) (he : 0 < eb) (hw : wbits ≤ 1024) (hland : t.BytesLand wbits eb) :
    FloatElements i s t d wbits eb lat n f := by
  intro h hr
  let fl := t.elementFlags eb n fun k => (f k).2
  have hput : body (s.popPorts i) = t.putVector d.toNat wbits eb (ofLanes eb (((List.range n).map f).map Prod.fst)) lat fl := by
    rw [hb, State.putFloats, List.map_map (g := Prod.snd), laneFlags_eq_elementFlags t (hn.trans hw) he]
    rfl
  have answer := perform_flagged e hput hraised hw hland h hr
  split
  · rename_i hfl
    rwa [if_pos hfl] at answer
  · rename_i hfl
    rw [if_neg hfl] at answer
    obtain ⟨r, hexec, hres, hval⟩ := answer
    have hshort := ofLanes_lt eb (((List.range n).map f).map Prod.fst)
    simp only [List.length_map, List.length_range] at hshort
    rw [Nat.mod_eq_of_lt (hshort.trans_le (Nat.pow_le_pow_right Nat.two_pos hn))] at hval
    refine ⟨r, hexec, hres, hval ▸ hshort, fun k hk => ?_⟩
    rw [hval, element_ofLanes _ _ _ (by simpa using hk)]
    simp

/-! ### The formats of the float units -/

/-- Elements of a float format fill a width. -/
theorem width_floats (w : Width) (f : FFmt) :
    f.bits * (w.bits / f.bits) = w.bits ∧ 8 ∣ f.bits ∧ 0 < f.bits ∧ w.bits ≤ 1024 ∧ 0 < w.bits / f.bits := by
  cases w <;> cases f <;> decide

theorem bytesLand_floats (t : State) (w : Width) (f : FFmt) : t.BytesLand w.bits f.bits := by
  obtain ⟨hfill, hbyte, hpos, _, _⟩ := width_floats w f
  exact ben_bits t _ _ hbyte hpos hfill

/-- A syllable of a float unit that puts one element at every place. -/
theorem floatElements_format {s : State} {i : Instr} {body : State → State} {d : BitVec 5} {w : Width} {z : FFmt} {lat : Nat}
    {f : Nat → Nat × Flags} (e : exec i s = perform i s body)
    (hb : body (s.popPorts i) = (s.popPorts i).putFloats d.toNat w.bits z.bits lat ((List.range (w.bits / z.bits)).map f)) :
    FloatElements i s (s.popPorts i) d w.bits z.bits lat (w.bits / z.bits) f := by
  obtain ⟨hfill, _, hpos, hwide, _⟩ := width_floats w z
  exact floatElements e hb (popPorts_raised i s) hfill.le hpos hwide (bytesLand_floats _ w z)

/-! ### The special functions -/

/-- A function of one operand at every place. -/
theorem specialBody_eq (op : Fmt → RMode → Nat → Nat × Flags) (lat : Nat) (w : Width) (f : FFmt) (d a : BitVec 5) (t : State) :
    specialBody op lat w f d a t = t.putFloats d.toNat w.bits f.bits lat
      ((List.range (w.bits / f.bits)).map fun k => op (fmtOf f) t.mode (element f.bits (t.va a.toNat) k).toNat) := by
  rw [specialBody, lanes_eq_map, List.map_map]
  rfl

theorem fdivBody_eq (w : Width) (f : FFmt) (d a b : BitVec 5) (t : State) :
    fdivBody w f d a b t = t.putFloats d.toNat w.bits f.bits 14 ((List.range (w.bits / f.bits)).map fun k =>
      (fmtOf f).div t.mode (element f.bits (t.va a.toNat) k).toNat (element f.bits (t.vb b.toNat) k).toNat) := by
  rw [fdivBody, zipWith_lanes]

end Sys2Proof.Machine

open Sys2Proof Sys2Proof.Machine

/-- Settles O5: each member puts its function of one element at every place, and FDIV its quotient. -/
theorem specialFunctionLanes : Obligations.SpecialFunctionLanes := by
  intro g w f d a b s run
  exact ⟨floatElements_format rfl (specialBody_eq Fmt.exp2 10 w f d a _), floatElements_format rfl (specialBody_eq Fmt.log2 10 w f d a _),
    floatElements_format rfl (specialBody_eq Fmt.rcp 10 w f d a _), floatElements_format rfl (specialBody_eq Fmt.rsqrt 10 w f d a _),
    floatElements_format rfl (specialBody_eq Fmt.sqrt 14 w f d a _), floatElements_format rfl (fdivBody_eq w f d a b _)⟩
end

section
/-! The vector floating-point members (20 R289, R291, R292, R296 to R298; 11 R189), O4: the sign bit, the codes that the nodes of a reduction
give, and the predicate pair of a compare. -/
namespace Sys2Proof.Machine

/-! ### The codes of a format -/

/-- What holds of the four formats of the float units: a code has its sign as the highest bit, and the codes above the largest finite one
leave room for the infinities and the NaNs. -/
structure Fmt.Sound (f : Fmt) : Prop where
  bitsPos : 0 < f.bits
  maxcLt  : f.maxc + 1 < 2 ^ (f.bits - 1)
  nans    : f.kind = .ieee → f.maxc + 1 + 2 ^ f.mb = 2 ^ (f.bits - 1) ∧ 0 < f.mb
  e4m3Nan : f.kind ≠ .ieee → 0x7F < 2 ^ f.bits

theorem fmtOf_sound (f : FFmt) : (fmtOf f).Sound := by cases f <;> constructor <;> decide

theorem fmtOf_bits (f : FFmt) : (fmtOf f).bits = f.bits := by cases f <;> rfl

namespace Fmt.Sound
variable {f : Fmt} (hf : f.Sound)
include hf

theorem two_pow_bits : 2 ^ f.bits = 2 ^ (f.bits - 1) + 2 ^ (f.bits - 1) := by
  have := hf.bitsPos
  rw [← Nat.two_mul, ← Nat.pow_succ']
  congr 1
  omega

theorem sign_add_lt {c : Nat} (h : c < 2 ^ (f.bits - 1)) (neg : Bool) : f.sign neg + c < 2 ^ f.bits := by
  have := hf.two_pow_bits
  unfold Fmt.sign
  split <;> omega

theorem infCode_lt (neg : Bool) : f.infCode neg < 2 ^ f.bits := by
  rw [Fmt.infCode, Nat.add_assoc]
  exact hf.sign_add_lt hf.maxcLt neg

theorem zero_lt (neg : Bool) : f.zero neg < 2 ^ f.bits := by
  have := hf.sign_add_lt (Nat.two_pow_pos _) neg
  unfold Fmt.zero
  split
  · exact Nat.two_pow_pos _
  · exact this

theorem defaultNan_lt : f.defaultNan < 2 ^ f.bits := by
  have hbits := hf.two_pow_bits
  unfold Fmt.defaultNan
  split
  · rename_i hk
    obtain ⟨hn, hm⟩ := hf.nans hk
    have : 2 ^ (f.mb - 1) < 2 ^ f.mb := Nat.pow_lt_pow_right (by decide) (by omega)
    have := Nat.two_pow_pos (f.bits - 1)
    omega
  · rename_i hk
    exact hf.e4m3Nan (by rw [hk]; decide)
  · have := Nat.two_pow_pos (f.bits - 1)
    omega

theorem quiet_lt {fr : Nat} (hfr : fr < 2 ^ f.mb) (neg : Bool) : f.quiet f.mb neg fr < 2 ^ f.bits := by
  unfold Fmt.quiet
  split
  · rename_i hk
    obtain ⟨hn, hm⟩ := hf.nans hk
    rw [if_pos (Nat.le_refl _), Nat.sub_self, Nat.pow_zero, Nat.mul_one, Nat.add_assoc, Nat.add_assoc]
    refine hf.sign_add_lt ?_ neg
    have : fr ||| 2 ^ (f.mb - 1) < 2 ^ f.mb := Nat.or_lt_two_pow hfr (Nat.pow_lt_pow_right (by decide) (by omega))
    omega
  · exact hf.defaultNan_lt

theorem overflow_lt (sat : Bool) (mode : RMode) (neg : Bool) : f.overflow sat mode neg < 2 ^ f.bits := by
  unfold Fmt.overflow
  extract_lets away
  split
  · exact hf.sign_add_lt (Nat.lt_of_succ_lt hf.maxcLt) neg
  · exact hf.infCode_lt neg

theorem round_lt (sat : Bool) (mode : RMode) (neg : Bool) (m : Nat) (e : Int) (st : Bool) :
    (f.round sat mode neg m e st).1 < 2 ^ f.bits := by
  simp only [Fmt.round]
  split
  · exact hf.overflow_lt sat mode neg
  · rename_i hcode
    dsimp only
    split
    · exact hf.zero_lt neg
    · exact hf.sign_add_lt (Nat.lt_of_le_of_lt (Nat.le_of_not_lt hcode) (Nat.lt_of_succ_lt hf.maxcLt)) neg

theorem roundNum_lt (sat : Bool) (mode : RMode) (zneg neg : Bool) (m : Nat) (e : Int) (st : Bool) :
    (f.roundNum sat mode zneg neg m e st).1 < 2 ^ f.bits := by
  unfold Fmt.roundNum
  split
  · exact hf.zero_lt zneg
  · exact hf.round_lt sat mode neg m e st

theorem sum_lt (sat : Bool) (mode : RMode) (x y : FV) : (f.sum sat mode x y).1 < 2 ^ f.bits := by
  unfold Fmt.sum
  split
  · split
    · exact hf.infCode_lt _
    · exact hf.defaultNan_lt
  · exact hf.infCode_lt _
  · exact hf.infCode_lt _
  · exact hf.roundNum_lt ..
  · exact hf.defaultNan_lt

omit hf in
/-- The fraction of a NaN fits the format. -/
theorem frac_lt {a fr : Nat} {n sig : Bool} (h : f.value a = .nan n fr sig) : fr < 2 ^ f.mb := by
  have hmod : a % 2 ^ (f.bits - 1) % 2 ^ f.mb < 2 ^ f.mb := Nat.mod_lt _ (Nat.two_pow_pos _)
  revert h
  simp only [Fmt.value]
  split
  · split
    · split
      · nofun
      · intro h; cases h; exact hmod
    · split <;> nofun
  · split
    · intro h; cases h; exact hmod
    · split <;> nofun
  · split
    · intro h; cases h; exact Nat.two_pow_pos _
    · split <;> nofun

/-- The first NaN among operands of the format, quieted, is a code of it. -/
theorem withNans_lt {k : Nat × Flags} (hk : k.1 < 2 ^ f.bits) (a b : Nat) :
    (f.withNans [(f.value a, f.mb), (f.value b, f.mb)] k).1 < 2 ^ f.bits := by
  cases ha : f.value a with
  | nan n fr sig => exact hf.quiet_lt (frac_lt ha) n
  | inf n =>
    cases hb : f.value b with
    | nan n' fr sig => exact hf.quiet_lt (frac_lt hb) n'
    | inf n' => exact hk
    | num n' m e => exact hk
  | num n m e =>
    cases hb : f.value b with
    | nan n' fr sig => exact hf.quiet_lt (frac_lt hb) n'
    | inf n' => exact hk
    | num n' m e => exact hk

theorem add_lt (sat : Bool) (mode : RMode) (a b : Nat) : (f.add sat mode a b).1 < 2 ^ f.bits :=
  hf.withNans_lt (hf.sum_lt ..) a b

omit hf in
theorem ite_lt_of_lt {c : Prop} [Decidable c] {a b n : Nat} (ha : a < n) (hb : b < n) : (if c then a else b) < n := by
  split
  · exact ha
  · exact hb

theorem pick_lt {a b : Nat} (ha : a < 2 ^ f.bits) (hb : b < 2 ^ f.bits) (max : Bool) : (f.pick max a b).1 < 2 ^ f.bits := by
  simp only [Fmt.pick]
  split
  · rename_i hx _
    exact hf.quiet_lt (frac_lt hx) _
  · exact hb
  · exact ha
  · exact ite_lt_of_lt ha hb

end Fmt.Sound

/-! ### A reduction in pairs (R297) -/

section Trees
variable {node : Nat → Nat → Nat × Flags} {B : Nat} (hnode : ∀ a b, a < B → b < B → (node a b).1 < B)
include hnode

theorem treeLevel_lt : ∀ (l : List Nat), (∀ x ∈ l, x < B) → ∀ x ∈ (treeLevel node l).1, x < B
  | [], h => h
  | [_], h => h
  | x :: y :: l, h => by
    obtain ⟨hx, h⟩ := List.forall_mem_cons.mp h
    obtain ⟨hy, h⟩ := List.forall_mem_cons.mp h
    exact List.forall_mem_cons.mpr ⟨hnode x y hx hy, treeLevel_lt l h⟩

/-- A reduction of elements below a bound that its nodes keep is below it. -/
theorem tree_lt (hB : 0 < B) (k : Nat) (l : List Nat) (h : ∀ x ∈ l, x < B) : (tree node k l).1 < B := by
  induction k generalizing l with
  | zero =>
    cases l with
    | nil => exact hB
    | cons x l => exact h x List.mem_cons_self
  | succ k ih => exact ih _ (treeLevel_lt hnode l h)

end Trees

/-! ### The predicate pair of a compare (R189, R331) -/

theorem testBit_element (v j : Nat) {w : Nat} (hw : 0 < w) : v.testBit j = (element w v (j / w)).getLsbD (j % w) := by
  rw [element, BitVec.getLsbD_ofNat, Nat.testBit_div_two_pow, decide_eq_true (Nat.mod_lt j hw), Bool.true_and]
  congr 1
  rw [Nat.add_comm, Nat.div_add_mod]

/-- A bit of a value put together from `n` elements. -/
theorem testBit_ofLanes (f : Nat → Nat) {w : Nat} (hw : 0 < w) (n j : Nat) :
    (ofLanes w ((List.range n).map f)).testBit j = (decide (j < w * n) && (f (j / w)).testBit (j % w)) := by
  by_cases hj : j < w * n
  · have hk : j / w < n := Nat.div_lt_of_lt_mul hj
    rw [testBit_element _ j hw, element_ofLanes _ _ _ (by simpa using hk), decide_eq_true hj, Bool.true_and,
      BitVec.getLsbD_ofNat, decide_eq_true (Nat.mod_lt j hw), Bool.true_and]
    simp
  · have hlt := ofLanes_lt w ((List.range n).map f)
    simp only [List.length_map, List.length_range] at hlt
    rw [decide_eq_false hj, Bool.false_and]
    exact Nat.testBit_lt_two_pow (hlt.trans_le (Nat.pow_le_pow_right Nat.two_pos (Nat.le_of_not_lt hj)))

theorem condPred_eq_ofLanes (m : Nat) (l : List Bool) : condPred m l = ofLanes m (l.map fun t => if t then ones m else 0) := by
  induction l with
  | nil => rfl
  | cons t l ih =>
    have : (if t then ones m else 0) < 2 ^ m := by
      have := Nat.two_pow_pos m
      unfold ones
      split <;> omega
    rw [condPred, ih, List.map_cons, ofLanes, Nat.mod_eq_of_lt this]

/-- A byte of a predicate of conditions takes its element's condition. -/
theorem testBit_condPred {m : Nat} (hm : 0 < m) (c : Nat → Bool) (n j : Nat) :
    (condPred m ((List.range n).map c)).testBit j = (decide (j < m * n) && c (j / m)) := by
  rw [condPred_eq_ofLanes, List.map_map, testBit_ofLanes _ hm]
  congr 1
  simp only [Function.comp_apply]
  split
  · rename_i hc
    rw [ones, Nat.testBit_two_pow_sub_one, decide_eq_true (Nat.mod_lt j hm), hc]
  · rename_i hc
    rw [Nat.zero_testBit, Bool.eq_false_iff.mpr hc]

theorem expandFrom_eq_ofLanes (m n i : Nat) :
    expandFrom m n i = 2 ^ (8 * i) * ofLanes 8 ((List.range' i n).map fun k => if bitAt m k then 255 else 0) := by
  induction n generalizing i with
  | zero => rfl
  | succ n ih =>
    have hmod : (if bitAt m i then 255 else 0) % 2 ^ 8 = if bitAt m i then 255 else 0 := by split <;> rfl
    rw [expandFrom, ih, List.range'_succ, List.map_cons, ofLanes, hmod, Nat.mul_add (2 ^ _), Nat.mul_succ 8, Nat.pow_add,
      Nat.mul_assoc]
    split
    · rw [Nat.mul_comm 255]
    · rfl

/-- A bit of an expanded mask is that of its byte. -/
theorem testBit_expandMask (n m j : Nat) : (expandMask n m).testBit j = (decide (j < 8 * n) && m.testBit (j / 8)) := by
  rw [expandMask, expandFrom_eq_ofLanes, Nat.mul_zero, Nat.pow_zero, Nat.one_mul, ← List.range_eq_range',
    testBit_ofLanes _ (by decide), bitAt_eq_testBit]
  congr 1
  split
  · rename_i hc
    rw [hc, show 255 = 2 ^ 8 - 1 from rfl, Nat.testBit_two_pow_sub_one, decide_eq_true (Nat.mod_lt j (by decide))]
  · rename_i hc
    rw [Nat.zero_testBit, Bool.eq_false_iff.mpr hc]

/-- The model's compare: the predicate pair of `n` conditions on elements of `eb` bits, with flags. -/
def State.putCompare (t : State) (pair eb n lat : Nat) (cond : Nat → Bool) (fl : Flags) : State :=
  let p := condPred (eb / 8) ((List.range n).map cond)
  t.putPair pair p (condPred (eb / 8) ((List.range n).map fun k => !cond k)) (expandMask 128 p) lat fl

/-- Enabled flags trap; nothing of a compare lands. -/
theorem putPair_trap {s : State} {fl : Flags} (he : s.Enabled fl) (hr : s.Room 2) (k yes no lval lat : Nat) :
    s.putPair k yes no lval lat fl = s.raiseEnabled fl s.cur.trapMask lat := by
  rw [State.putPair]
  split
  · exact settle_trap he (rs := [_]) (Nat.le_of_succ_le hr) lat
  · exact settle_trap he (rs := [_, _]) hr lat

/-- A syllable that does not run in the handler issues normally outside it only (R44). -/
theorem inHandler_of_normal {s : State} {i : Instr} (h : Normal i s) (hn : ∀ g, i ≠ .nop g) (hi : handlerRuns i = false) :
    s.cur.inHandler = false := by
  cases hh : s.cur.inHandler with
  | false => rfl
  | true => exact absurd (verdict_handler h.1 hn hh).1 (by rw [hi]; decide)

/-- A compare that may have its destination. -/
theorem compareElements {s : State} {i : Instr} {body : State → State} {pair wbits eb n lat : Nat} {cond : Nat → Bool} {fl : Flags}
    (e : exec i s = perform i s body) (hb : body (s.popPorts i) = (s.popPorts i).putCompare pair eb n lat cond fl)
    (hpair : Normal i s → s.slot.lend.ws = false → 1 ≤ pair) (h8 : 8 ∣ eb) (he : 0 < eb) (hn : eb * n = wbits) (hw : wbits ≤ 1024) :
    CompareElements i s pair wbits eb lat cond fl := by
  intro h hr
  obtain ⟨m, rfl⟩ := h8
  have hm : 0 < m := by omega
  have hm8 : 8 * m / 8 = m := by omega
  have hbytes : wbits = 8 * (m * n) := by rw [← hn, Nat.mul_assoc]
  have hw8 : m * n = wbits / 8 := by omega
  rw [e, perform_normal h, hb, State.putCompare]
  split
  · rename_i hfl
    rw [putPair_trap hfl hr, undoReads_flags (popPorts_raised i s)]
  · rename_i hfl
    let p := condPred m ((List.range n).map cond)
    let q := condPred m ((List.range n).map fun k => !cond k)
    have bits : ∀ c : Nat → Bool, ∀ j, (condPred m ((List.range n).map c)).testBit j = (decide (j < wbits / 8) && c (j / m)) := by
      intro c j
      rw [testBit_condPred hm, hw8]
    have short : ∀ c : Nat → Bool, condPred m ((List.range n).map c) < 2 ^ 128 := by
      intro c
      refine Nat.lt_pow_two_of_testBit _ fun j hj => ?_
      rw [bits, decide_eq_false (by omega), Bool.false_and]
    have wide : ∀ x, x < 2 ^ 128 → BitVec.ofNat 1024 x = (BitVec.ofNat 128 x).setWidth 1024 := by
      intro x hx
      apply BitVec.eq_of_toNat_eq
      rw [BitVec.toNat_setWidth, BitVec.toNat_ofNat, BitVec.toNat_ofNat, Nat.mod_eq_of_lt hx]
    refine ⟨BitVec.ofNat 128 p, BitVec.ofNat 128 q, BitVec.ofNat 1024 (expandMask 128 p), ?_, ?_, ?_, ?_⟩
    · rw [hm8, putPair_eq hr (fun hws => hpair h (by simpa using hws)) hfl, wide p (short _), wide q (short _), undoReads_same]
      split <;> exact popPorts_raised i s
    · intro j hj
      rw [BitVec.getLsbD_ofNat, decide_eq_true hj, Bool.true_and, hm8, bits]
    · intro j hj
      rw [BitVec.getLsbD_ofNat, decide_eq_true hj, Bool.true_and, hm8, bits]
    · intro j hj
      rw [BitVec.getLsbD_ofNat, decide_eq_true hj, Bool.true_and, testBit_expandMask, decide_eq_true (show j < 8 * 128 from hj),
        Bool.true_and, bits, Nat.div_div_eq_div_mul]
      congr 1
      apply decide_eq_decide.mpr
      omega

/-! ### The members element by element -/

theorem floatBody_eq (op : Fmt → Bool → RMode → Nat → Nat → Nat × Flags) (w : Width) (f : FFmt) (sat : Bool) (d a b : BitVec 5)
    (t : State) : floatBody op w f sat d a b t = t.putFloats d.toNat w.bits f.bits 4 ((List.range (w.bits / f.bits)).map fun k =>
      op (fmtOf f) sat t.mode (element f.bits (t.va a.toNat) k).toNat (element f.bits (t.vb b.toNat) k).toNat) := by
  rw [floatBody, zipWith_lanes]

theorem fmaBody_eq (w : Width) (f : FFmt) (g : Fmt) (gb : Nat) (sat : Bool) (d a b : BitVec 5) (t : State) :
    fmaBody w f g gb sat d a b t = t.putFloats d.toNat w.bits f.bits 4 ((List.range (w.bits / f.bits)).map fun k =>
      (fmtOf f).fma g sat t.mode (element f.bits (t.va a.toNat) k).toNat (element gb (t.vb b.toNat) k).toNat
        (element f.bits (t.cur.readV d.toNat).toNat k).toNat) := by
  simp only [fmaBody, List.zip, lanes_eq_map, List.zipWith_map, List.zipWith_self]

theorem claims_floatLanes : Claims.FloatLanes := by
  intro g w f sat d a b s run acc
  exact ⟨floatElements_format rfl (floatBody_eq Fmt.add w f sat d a b _), floatElements_format rfl (floatBody_eq Fmt.sub w f sat d a b _),
    floatElements_format rfl (floatBody_eq Fmt.mul w f sat d a b _),
    floatElements_format rfl (floatBody_eq (fun f _ _ => f.pick false) w f sat d a b _),
    floatElements_format rfl (floatBody_eq (fun f _ _ => f.pick true) w f sat d a b _),
    floatElements_format rfl (fmaBody_eq w f (fmtOf f) f.bits sat d a b _),
    floatElements_format rfl (fmaBody_eq w f bf16 16 false d a b _)⟩

/-! ### The sign bit (R289) -/

theorem clearSign_word {n : Nat} (hn : 0 < n) (x : BitVec n) : BitVec.ofNat n (clearSign n x.toNat) = x &&& ~~~(BitVec.intMin n) := by
  apply BitVec.eq_of_getLsbD_eq
  intro j hj
  rw [clearSign, BitVec.getLsbD_ofNat, Nat.testBit_mod_two_pow, BitVec.getLsbD_and, BitVec.getLsbD_not, BitVec.getLsbD_intMin,
    BitVec.testBit_toNat, decide_eq_true hj, Bool.true_and, Bool.true_and, Bool.and_comm]
  congr 1
  rw [← decide_not]
  apply decide_eq_decide.mpr
  omega

theorem flipSign_word {n : Nat} (hn : 0 < n) (x : BitVec n) : BitVec.ofNat n (flipSign n x.toNat) = x ^^^ BitVec.intMin n := by
  apply BitVec.eq_of_getLsbD_eq
  intro j hj
  rw [flipSign, BitVec.getLsbD_ofNat, Nat.testBit_mod_two_pow, BitVec.getLsbD_xor, BitVec.getLsbD_intMin, decide_eq_true hj,
    Bool.true_and, Bool.true_and, Nat.add_comm]
  by_cases htop : j = n - 1
  · rw [htop, Nat.testBit_two_pow_add_eq, BitVec.testBit_toNat, decide_eq_true (by omega), Bool.xor_true]
  · rw [Nat.testBit_two_pow_add_gt (by omega), BitVec.testBit_toNat, decide_eq_false (by omega), Bool.xor_false]

/-- An operation on every element's bits. -/
theorem element_mapLanes (f : Nat → Nat) (w sz a k : Nat) (hk : k < w / sz) :
    element sz (mapLanes f w sz a) k = BitVec.ofNat sz (f (element sz a k).toNat) := by
  rw [mapLanes, element_ofLanes _ _ _ (by simpa using hk)]
  simp

theorem signBody_answer {s : State} {i : Instr} {op : Nat → Nat → Nat} {w : Width} {f : FFmt} {d a : BitVec 5}
    {F : BitVec f.bits → BitVec f.bits} (e : exec i s = perform i s (signBody op w f d a))
    (hF : ∀ x : BitVec f.bits, BitVec.ofNat f.bits (op f.bits x.toNat) = F x) (h : Normal i s) (hr : (s.popPorts i).Room 1) :
    ∃ r, exec i s = .next ((s.popPorts i).withResults [r]) ∧ VectorResult (s.popPorts i) r d w.bits f.bits 4 0 ∧
      ∀ k < w.bits / f.bits, element f.bits r.val.toNat k = F (element f.bits ((s.popPorts i).va a.toNat) k) := by
  obtain ⟨hfill, _, _, hwide, _⟩ := width_floats w f
  have answer := perform_flagged (t := s.popPorts i) (d := d) (fl := 0) e rfl (popPorts_raised i s) hwide (bytesLand_floats _ w f) h hr
  rw [if_neg (not_enabled_zero _)] at answer
  obtain ⟨r, hexec, hres, hval⟩ := answer
  refine ⟨r, hexec, hres, fun k hk => ?_⟩
  have hin : f.bits * k + f.bits ≤ w.bits := by
    rw [← hfill, ← Nat.mul_succ]
    exact Nat.mul_le_mul_left _ hk
  rw [hval, element_mod hin, element_mapLanes _ _ _ _ _ hk, hF]

/-! ### FRED and FCMP -/

/-- The node of a reduction gives codes of its format. -/
theorem fredNode_lt (f : FFmt) (sel : BitVec 5) (mode : RMode) (a b : Nat) (ha : a < 2 ^ f.bits) (hb : b < 2 ^ f.bits) :
    ((if sel = 0 then (fmtOf f).add false mode else (fmtOf f).pick (sel = 1)) a b).1 < 2 ^ f.bits := by
  have hf := fmtOf_sound f
  rw [← fmtOf_bits f] at *
  split
  · exact hf.add_lt ..
  · exact hf.pick_lt ha hb _

theorem orFlags_map (f : Nat → Flags) (n : Nat) : orFlags ((List.range n).map f) = (List.range n).foldl (fun acc k => acc ||| f k) 0 := by
  rw [orFlags, List.foldl_map]

theorem fcmpBody_eq (c : FCond) (w : Width) (f : FFmt) (d : BitVec 3) (a b : BitVec 5) (t : State) :
    let e := fun k => (fmtOf f).compare c (element f.bits (t.va a.toNat) k).toNat (element f.bits (t.vb b.toNat) k).toNat
    fcmpBody c w f d a b t = t.putCompare d.toNat f.bits (w.bits / f.bits) 4 (fun k => (e k).1)
      ((List.range (w.bits / f.bits)).foldl (fun acc k => acc ||| (e k).2) 0) := by
  intro e
  simp only [fcmpBody, State.putCompare, zipWith_lanes, List.map_map, ← orFlags_map]
  rfl

theorem claims_floatOthers : Claims.FloatOthers := by
  intro g w f sat c d a b sel pair s n sign
  obtain ⟨hfill, hbyte, hpos, hwide, hsome⟩ := width_floats w f
  refine ⟨signBody_answer rfl (clearSign_word hpos), signBody_answer rfl (flipSign_word hpos), ?_, ?_⟩
  · intro i t node y h hr
    have answer := perform_flagged (t := t) (d := d) (eb := f.bits) (wbits := w.bits) (v := y.1) (fl := y.2) (lat := 4)
      (body := fredBody w f d a sel) rfl (by simp only [fredBody, lanes_eq_map]; rfl) (popPorts_raised i s) hwide
      (bytesLand_floats _ w f) h hr
    have hy : y.1 < 2 ^ w.bits := by
      refine (tree_lt (fredNode_lt f sel t.mode) (Nat.two_pow_pos _) _ _ fun x hx => ?_).trans_le
        (Nat.pow_le_pow_right Nat.two_pos (hfill ▸ Nat.le_mul_of_pos_right _ hsome))
      obtain ⟨k, _, rfl⟩ := List.mem_map.mp hx
      exact BitVec.isLt _
    rwa [Nat.mod_eq_of_lt hy] at answer
  · exact compareElements rfl (fcmpBody_eq c w f pair a b _)
      (fun h => pair_ge_one h nofun (inHandler_of_normal h nofun rfl) rfl rfl) hbyte hpos hfill hwide

end Sys2Proof.Machine

open Sys2Proof Sys2Proof.Machine

/-- Settles O4: `floatElements` for the members with an element at every place, `tree_lt` for FRED, `compareElements` for FCMP. -/
theorem vectorFloatUnit : Obligations.VectorFloatUnit :=
  ⟨claims_floatLanes, claims_floatOthers⟩
end

section
/-! CVT, QNT and DQNT, O7: a state whose table of contexts lists context 0 twice, on which QNT with the native generator does not do what
the statement has it do. -/
namespace Sys2Proof.Machine

/-- Context 0 stands twice in the table of contexts, which the canonical form (log entry 3) excludes. The first entry differs from the default in
the count of its random generator alone, which the next use brings back to 0; that entry then goes, and the second one shows. -/
def twiceListed : State :=
  { State.reset with
    ctxs := [(0, { srCount := [(0, 2 ^ 64 - 1)] }), (0, { count := 5 })]
    slot := { ctx := 0, unit := some 2, lend := { ws := true, ak := .peek }, ports := [(0, { glob := true })] } }

/-- QNT to its latch, with the native generator; its source is what a global port that holds nothing gives. -/
def qntNative : Instr := .qnt 0 .w1024 0 0 0 .srn

/-- The cycles at which the results of the context at the slot are due, after an outcome. -/
def dueAfter (o : Host.Outcome State Fault Refusal) : List Nat :=
  match o with
  | .next u => u.cur.inflight.map Result.due
  | _ => []

theorem twiceListed_normal : Normal qntNative twiceListed := by decide +kernel

/-- The state that the statement names: the ports are read and the generator has been used. -/
def afterUse : State := (twiceListed.popPorts qntNative).rndUse .srn

/-- The entry of the context has gone, and the second one, whose count is 5, is read. -/
theorem afterUse_count : afterUse.cur.count = 5 := by decide +kernel

/-- The model takes the count from before the use. -/
theorem dueAfter_qntNative : dueAfter (exec qntNative twiceListed) = [6] := by decide +kernel

/-- A result that enters flight is the last in flight, whatever the table of contexts is. -/
theorem inflight_withResults (t : State) (r : Result) : (t.withResults [r]).cur.inflight = t.cur.inflight ++ [r] := by
  have h := get_set_of_ne_default (d := ({} : Ctx)) (x := { t.cur with inflight := t.cur.inflight ++ [r] })
    (fun h => by cases List.append_eq_nil_iff.mp (congrArg Ctx.inflight h) with | intro _ h => cases h) t.ctxs t.slot.ctx t.slot.ctx
  rw [if_pos rfl] at h
  exact congrArg Ctx.inflight h

/-- The trap of a flag lets nothing enter flight. -/
theorem dueAfter_flagTrap (fl : Flags) : dueAfter (.next (twiceListed.flagTrap afterUse fl 6)) = [] :=
  calc dueAfter (.next (twiceListed.flagTrap afterUse fl 6))
    _ = dueAfter (.next (twiceListed.flagTrap afterUse 0 6)) := rfl
    _ = [] := by decide +kernel

/-- What the statement says of the cycle at which the result is due. -/
theorem due_of_conversions (h : Obligations.Conversions) {s : State} (hn : Normal qntNative s)
    (hr : ((s.popPorts qntNative).rndUse .srn).Room 1) :
    (∃ fl, exec qntNative s = .next (s.flagTrap ((s.popPorts qntNative).rndUse .srn) fl 6)) ∨
      ∃ r : Result, exec qntNative s = .next (((s.popPorts qntNative).rndUse .srn).withResults [r]) ∧
        r.due = ((s.popPorts qntNative).rndUse .srn).cur.count + 6 := by
  have answer := (h 0 .w1024 .fp32 .fp32 0 0 .srn 0 s).right.right hn hr
  rcases ite_prop_iff_or.mp answer with ⟨_, hexec⟩ | ⟨_, r, hexec, hshape, _⟩
  · exact .inl ⟨_, hexec⟩
  · exact .inr ⟨r, hexec, congrArg Result.due hshape⟩

end Sys2Proof.Machine

open Sys2Proof Sys2Proof.Machine

/-- Refutes O7, which asks nothing of the table of contexts: on `twiceListed` the model's result is due at cycle 6, six after the count
before the use of the generator, and the statement's at cycle 11, six after the count that is read after it. -/
theorem not_conversions : ¬ Obligations.Conversions := by
  intro h
  rcases due_of_conversions h twiceListed_normal (by decide +kernel) with ⟨fl, hexec⟩ | ⟨r, hexec, hr⟩
  · have hdue := (dueAfter_flagTrap fl).symm.trans ((congrArg dueAfter hexec).symm.trans dueAfter_qntNative)
    exact absurd hdue (by decide)
  · have hdue : dueAfter (.next (afterUse.withResults [r])) = [6] := (congrArg dueAfter hexec).symm.trans dueAfter_qntNative
    have hlast : r.due = afterUse.cur.count + 6 := hr
    rw [dueAfter, inflight_withResults, show afterUse.cur.inflight = [] by decide +kernel, List.nil_append, List.map_singleton, hlast,
      afterUse_count] at hdue
    exact absurd hdue (by decide)
end

section
/-! The vector integer members (22 R327, R329, R331, R339, R340), O3: what each function of two elements is on bit vectors, the choice
of bytes of VSEL, reductions, and the compare. -/
namespace Sys2Proof.Machine

/-! ### The functions of two elements (R329) -/

section Words
variable {n : Nat} (x y : BitVec n)

theorem laneAdd_word : BitVec.ofNat n (laneAdd n x.toNat y.toNat) = x + y := by
  apply BitVec.eq_of_toNat_eq
  rw [laneAdd, BitVec.toNat_ofNat, Nat.mod_mod, BitVec.toNat_add]

theorem laneSub_word : BitVec.ofNat n (laneSub n x.toNat y.toNat) = x - y := by
  apply BitVec.eq_of_toNat_eq
  have := y.isLt
  rw [laneSub, BitVec.toNat_ofNat, Nat.mod_mod, BitVec.toNat_sub]
  congr 1
  omega

theorem laneMul_word : BitVec.ofNat n (laneMul n x.toNat y.toNat) = x * y := by
  apply BitVec.eq_of_toNat_eq
  rw [laneMul, BitVec.toNat_ofNat, Nat.mod_mod, BitVec.toNat_mul]

/-- The high half of a signed product, taken from the product modulo two words. -/
theorem toNat_high (z : Int) {N : Nat} (hN : 0 < N) : (z % ((N * N : Nat) : Int)).toNat / N % N = (z / N % N).toNat := by
  have hpos : (0 : Int) < N := by exact_mod_cast hN
  have hdiv : z % ((N * N : Nat) : Int) / N = z / N % N := by
    rw [Int.emod_def, Nat.cast_mul, Int.mul_assoc, Int.sub_mul_ediv_left z _ (Int.ne_of_gt hpos), ← Int.ediv_ediv_of_nonneg hpos.le,
      Int.emod_def]
  have hlow : 0 ≤ z % ((N * N : Nat) : Int) := Int.emod_nonneg _ (by exact_mod_cast (Nat.mul_pos hN hN).ne')
  have hmod : (z / N % N).toNat < N := by
    have := Int.emod_lt_of_pos (z / N) hpos
    have := Int.emod_nonneg (z / N) (Int.ne_of_gt hpos)
    omega
  have hnat : ((z % ((N * N : Nat) : Int)).toNat / N : Nat) = (z / N % N).toNat := by
    have hcast : ((z % ((N * N : Nat) : Int)).toNat : Int) = z % ((N * N : Nat) : Int) := Int.toNat_of_nonneg hlow
    rw [← hdiv, ← hcast, ← Int.natCast_ediv, Int.toNat_natCast, Int.toNat_natCast]
  rw [hnat, Nat.mod_eq_of_lt hmod]

theorem laneMulh_word (u : Bool) : BitVec.ofNat n (laneMulh u n x.toNat y.toNat) =
    if u then ((x.setWidth (2 * n) * y.setWidth (2 * n)) >>> n).setWidth n
    else ((x.signExtend (2 * n) * y.signExtend (2 * n)) >>> n).setWidth n := by
  have htwo : 2 ^ (2 * n) = 2 ^ n * 2 ^ n := by rw [Nat.two_mul, Nat.pow_add]
  apply BitVec.eq_of_toNat_eq
  cases u with
  | true =>
    have wide : ∀ z : BitVec n, (z.setWidth (2 * n)).toNat = z.toNat := fun z => by
      rw [BitVec.toNat_setWidth, Nat.mod_eq_of_lt]
      exact z.isLt.trans_le (Nat.pow_le_pow_right Nat.two_pos (by omega))
    have product : x.toNat * y.toNat < 2 ^ (2 * n) := htwo ▸ Nat.mul_lt_mul'' x.isLt y.isLt
    rw [laneMulh, if_pos rfl, if_pos rfl, BitVec.toNat_ofNat, BitVec.toNat_setWidth, BitVec.toNat_ushiftRight, BitVec.toNat_mul, wide, wide,
      Nat.mod_eq_of_lt product, Nat.shiftRight_eq_div_pow]
  | false =>
    have product : x.signExtend (2 * n) * y.signExtend (2 * n) = BitVec.ofInt (2 * n) (x.toInt * y.toInt) := (BitVec.ofInt_mul ..).symm
    rw [laneMulh, if_neg (by decide), if_neg (by decide), product, toSigned_toNat, toSigned_toNat, ofNat_ofSigned, BitVec.toNat_setWidth,
      BitVec.toNat_ushiftRight, BitVec.toNat_ofInt, BitVec.toNat_ofInt, Nat.shiftRight_eq_div_pow, htwo, toNat_high _ (Nat.two_pow_pos n)]

theorem laneAnd_word : BitVec.ofNat n (laneAnd n x.toNat y.toNat) = x &&& y := by
  rw [laneAnd, ← BitVec.toNat_and, BitVec.ofNat_toNat, BitVec.setWidth_eq]

theorem laneOr_word : BitVec.ofNat n (laneOr n x.toNat y.toNat) = x ||| y := by
  rw [laneOr, ← BitVec.toNat_or, BitVec.ofNat_toNat, BitVec.setWidth_eq]

theorem laneXor_word : BitVec.ofNat n (laneXor n x.toNat y.toNat) = x ^^^ y := by
  rw [laneXor, ← BitVec.toNat_xor, BitVec.ofNat_toNat, BitVec.setWidth_eq]

theorem laneShl_word : BitVec.ofNat n (laneShl n x.toNat y.toNat) = x <<< (y.toNat % n) := by
  apply BitVec.eq_of_toNat_eq
  rw [laneShl, BitVec.toNat_ofNat, Nat.mod_mod, BitVec.toNat_shiftLeft, Nat.shiftLeft_eq]

theorem laneShr_word : BitVec.ofNat n (laneShr n x.toNat y.toNat) = x >>> (y.toNat % n) := by
  apply BitVec.eq_of_toNat_eq
  rw [laneShr, BitVec.toNat_ofNat, BitVec.toNat_ushiftRight, Nat.shiftRight_eq_div_pow,
    Nat.mod_eq_of_lt ((Nat.div_le_self ..).trans_lt x.isLt)]

theorem laneSra_word : BitVec.ofNat n (laneSra n x.toNat y.toNat) = x.sshiftRight (y.toNat % n) := by
  rw [laneSra, toSigned_toNat, ofNat_ofSigned, ← Int.shiftRight_eq_div_pow, ← BitVec.toInt_sshiftRight, BitVec.ofInt_toInt]

theorem laneLe_word (u : Bool) : laneLe u n x.toNat y.toNat = if u then x.ule y else x.sle y := by
  cases u with
  | true => rfl
  | false =>
    simp only [laneLe, toSigned_toNat]
    rfl

theorem ofNat_toNat_self : BitVec.ofNat n x.toNat = x := by rw [BitVec.ofNat_toNat, BitVec.setWidth_eq]

theorem laneMin_word (u : Bool) :
    BitVec.ofNat n (laneMin u n x.toNat y.toNat) = if (if u then x.ule y else x.sle y) then x else y := by
  rw [laneMin, laneLe_word, apply_ite (BitVec.ofNat n), ofNat_toNat_self, ofNat_toNat_self]

theorem laneMax_word (u : Bool) :
    BitVec.ofNat n (laneMax u n x.toNat y.toNat) = if (if u then x.ule y else x.sle y) then y else x := by
  rw [laneMax, laneLe_word, apply_ite (BitVec.ofNat n), ofNat_toNat_self, ofNat_toNat_self]

/-! ### The functions of one element (R327) -/

theorem laneAbs_word : BitVec.ofNat n (laneAbs n x.toNat) = if x.msb then -x else x := by
  rw [laneAbs, toSigned_toNat, ofNat_ofSigned]
  split
  · rename_i hneg
    have := BitVec.toInt_neg_of_msb_true hneg
    rw [Int.ofNat_natAbs_of_nonpos this.le, BitVec.ofInt_neg, BitVec.ofInt_toInt]
  · rename_i hpos
    have := BitVec.toInt_nonneg_of_msb_false (by simpa using hpos)
    rw [Int.natAbs_of_nonneg this, BitVec.ofInt_toInt]

theorem popCount_eq_countP (k v : Nat) : popCount k v = (List.range k).countP fun j => v.testBit j := by
  induction k generalizing v with
  | zero => rfl
  | succ k ih =>
    rw [popCount, ih, List.range_succ_eq_map, List.countP_cons, List.countP_map]
    have hbit : (if v.testBit 0 = true then 1 else 0) = v % 2 := by
      rw [Nat.testBit_zero]
      by_cases h : v % 2 = 1 <;> simp [h]
      omega
    rw [hbit, Nat.add_comm]
    congr 1
    refine List.countP_congr fun j _ => ?_
    rw [Function.comp_apply, Nat.testBit_succ]

theorem laneCnt_word : BitVec.ofNat n (laneCnt n x.toNat) = BitVec.ofNat n ((List.range n).countP fun j => x.getLsbD j) := by
  have hmod : ∀ v, BitVec.ofNat n (v % 2 ^ n) = BitVec.ofNat n v := fun v => by
    apply BitVec.eq_of_toNat_eq
    rw [BitVec.toNat_ofNat, BitVec.toNat_ofNat, Nat.mod_mod]
  rw [laneCnt, hmod, popCount_eq_countP]
  rfl

end Words

/-! ### VSEL (R340) -/

/-- Numbers without a common bit. -/
theorem add_eq_or_of_disjoint {a b : Nat} (h : a &&& b = 0) : a + b = a ||| b := by
  have ha : a < 2 ^ (a + b) := (Nat.lt_two_pow_self).trans_le (Nat.pow_le_pow_right Nat.two_pos (Nat.le_add_right a b))
  have hb : b < 2 ^ (a + b) := (Nat.lt_two_pow_self).trans_le (Nat.pow_le_pow_right Nat.two_pos (Nat.le_add_left b a))
  have hsum : a + b < 2 ^ (a + b) := Nat.lt_two_pow_self
  have hor := BitVec.add_eq_or_of_and_eq_zero (BitVec.ofNat (a + b) a) (BitVec.ofNat (a + b) b) (by
    apply BitVec.eq_of_toNat_eq
    rw [BitVec.toNat_and, BitVec.toNat_ofNat, BitVec.toNat_ofNat, Nat.mod_eq_of_lt ha, Nat.mod_eq_of_lt hb, h]
    rfl)
  have hnat := congrArg BitVec.toNat hor
  rwa [BitVec.toNat_add, BitVec.toNat_or, BitVec.toNat_ofNat, BitVec.toNat_ofNat, Nat.mod_eq_of_lt ha, Nat.mod_eq_of_lt hb,
    Nat.mod_eq_of_lt hsum] at hnat

/-- A bit of merged bytes. -/
theorem testBit_mergeBytes {n j : Nat} (m old new : Nat) (hj : j < 8 * n) :
    (mergeBytes n m old new).testBit j = if m.testBit (j / 8) then new.testBit j else old.testBit j := by
  have disjoint : (new &&& expandMask n m) &&& (old &&& (ones (8 * n) ^^^ expandMask n m)) = 0 := by
    apply Nat.eq_of_testBit_eq
    intro k
    simp only [Nat.testBit_and, Nat.testBit_xor, ones, Nat.testBit_two_pow_sub_one, Nat.zero_testBit, testBit_expandMask]
    cases decide (k < 8 * n) <;> cases m.testBit (k / 8) <;> simp
  rw [mergeBytes, add_eq_or_of_disjoint disjoint]
  simp only [Nat.testBit_or, Nat.testBit_and, Nat.testBit_xor, ones, Nat.testBit_two_pow_sub_one, testBit_expandMask, decide_eq_true hj]
  cases m.testBit (j / 8) <;> simp

/-! ### Reductions (R339) -/

/-- A fold that keeps one of two each time, above both in an order, ends at a member above all. -/
theorem foldl_pick {α : Type} {le : α → α → Prop} {op : α → α → α} (refl : ∀ a, le a a) (trans : ∀ a b c, le a b → le b c → le a c)
    (hop : ∀ a b, (op a b = a ∨ op a b = b) ∧ le a (op a b) ∧ le b (op a b)) (l : List α) (a : α) :
    l.foldl op a ∈ a :: l ∧ ∀ x ∈ a :: l, le x (l.foldl op a) := by
  induction l generalizing a with
  | nil => exact ⟨List.mem_singleton_self a, fun x hx => List.mem_singleton.mp hx ▸ refl a⟩
  | cons b l ih =>
    obtain ⟨hmem, hall⟩ := ih (op a b)
    obtain ⟨hone, hleft, hright⟩ := hop a b
    have htop : le (op a b) (l.foldl op (op a b)) := hall _ List.mem_cons_self
    refine ⟨?_, ?_⟩
    · rcases List.mem_cons.mp hmem with h | h
      · rw [List.foldl_cons, h]
        rcases hone with h | h <;> simp [h]
      · exact List.mem_cons_of_mem a (List.mem_cons_of_mem b h)
    · intro x hx
      rcases List.mem_cons.mp hx with rfl | hx
      · exact trans _ _ _ hleft htop
      · rcases List.mem_cons.mp hx with rfl | hx
        · exact trans _ _ _ hright htop
        · exact hall x (List.mem_cons_of_mem _ hx)

section Orders
variable (u : Bool) (n : Nat)

theorem laneLe_refl (a : Nat) : laneLe u n a a = true := by cases u <;> simp [laneLe]

theorem laneLe_trans (a b c : Nat) (h : laneLe u n a b = true) (h' : laneLe u n b c = true) : laneLe u n a c = true := by
  cases u <;> simp only [laneLe, Bool.false_eq_true, if_false, if_true, decide_eq_true_eq] at * <;> omega

theorem laneLe_total {a b : Nat} (h : laneLe u n a b = false) : laneLe u n b a = true := by
  cases u <;> simp only [laneLe, Bool.false_eq_true, if_false, if_true, decide_eq_true_eq, decide_eq_false_iff_not] at * <;> omega

theorem laneMax_pick (a b : Nat) : (laneMax u n a b = a ∨ laneMax u n a b = b) ∧ laneLe u n a (laneMax u n a b) = true ∧
    laneLe u n b (laneMax u n a b) = true := by
  unfold laneMax
  split
  · rename_i h
    exact ⟨.inr rfl, h, laneLe_refl u n b⟩
  · rename_i h
    exact ⟨.inl rfl, laneLe_refl u n a, laneLe_total u n (Bool.eq_false_iff.mpr h)⟩

theorem laneMin_pick (a b : Nat) : (laneMin u n a b = a ∨ laneMin u n a b = b) ∧ laneLe u n (laneMin u n a b) a = true ∧
    laneLe u n (laneMin u n a b) b = true := by
  unfold laneMin
  split
  · rename_i h
    exact ⟨.inl rfl, laneLe_refl u n a, h⟩
  · rename_i h
    exact ⟨.inr rfl, laneLe_total u n (Bool.eq_false_iff.mpr h), laneLe_refl u n b⟩

end Orders

theorem foldl_laneAdd (n : Nat) (l : List Nat) (a : Nat) :
    BitVec.ofNat n (l.foldl (laneAdd n) a) = l.foldl (fun acc x => acc + BitVec.ofNat n x) (BitVec.ofNat n a) := by
  induction l generalizing a with
  | nil => rfl
  | cons b l ih =>
    have hstep : BitVec.ofNat n (laneAdd n a b) = BitVec.ofNat n a + BitVec.ofNat n b := by
      apply BitVec.eq_of_toNat_eq
      simp [laneAdd]
    rw [List.foldl_cons, ih, hstep]
    rfl

section Reduce
variable {n : Nat} (x : Nat → BitVec n) (u : Bool) (m : Nat)

/-- The elements that a reduction of `m + 1` reads. -/
def reduceElements : List Nat := (List.range m).map fun k => (x (k + 1)).toNat

theorem elements_cons : (List.range (m + 1)).map (fun k => (x k).toNat) = (x 0).toNat :: reduceElements x m := by
  rw [List.range_succ_eq_map, List.map_cons, List.map_map]
  rfl

theorem mem_elements {v : Nat} : v ∈ (x 0).toNat :: reduceElements x m ↔ ∃ k < m + 1, v = (x k).toNat := by
  rw [← elements_cons, List.mem_map]
  constructor
  · rintro ⟨k, hk, rfl⟩
    exact ⟨k, List.mem_range.mp hk, rfl⟩
  · rintro ⟨k, hk, rfl⟩
    exact ⟨k, List.mem_range.mpr hk, rfl⟩

theorem reduce_lt (sel : Nat) : reduceLanes sel u n ((List.range (m + 1)).map fun k => (x k).toNat) < 2 ^ n := by
  rw [elements_cons, reduceLanes]
  refine List.foldlRecOn (motive := (· < 2 ^ n)) _ _ (x 0).isLt fun a ha b hb => ?_
  have hb : b < 2 ^ n := by
    obtain ⟨k, _, rfl⟩ := List.mem_map.mp hb
    exact (x (k + 1)).isLt
  split
  · exact Nat.mod_lt _ (Nat.two_pow_pos n)
  · split
    · exact Fmt.Sound.ite_lt_of_lt hb ha
    · exact Fmt.Sound.ite_lt_of_lt ha hb

theorem reduce_sum : BitVec.ofNat n (reduceLanes 0 u n ((List.range (m + 1)).map fun k => (x k).toNat)) =
    (List.range (m + 1)).foldl (fun acc k => acc + x k) 0 := by
  rw [elements_cons, reduceLanes, if_pos rfl, foldl_laneAdd, reduceElements, List.foldl_map, List.range_succ_eq_map, List.foldl_cons,
    List.foldl_map, show (0 : BitVec n) + x 0 = x 0 from BitVec.zero_add (x 0)]
  simp only [ofNat_toNat_self]

theorem reduce_max : let v := reduceLanes 1 u n ((List.range (m + 1)).map fun k => (x k).toNat)
    (∃ k < m + 1, v = (x k).toNat) ∧ ∀ k < m + 1, laneLe u n (x k).toNat v = true := by
  intro v
  obtain ⟨hmem, hall⟩ := foldl_pick (le := fun a b => laneLe u n a b = true) (laneLe_refl u n) (laneLe_trans u n) (laneMax_pick u n)
    (reduceElements x m) (x 0).toNat
  have hv : v = (reduceElements x m).foldl (laneMax u n) (x 0).toNat := by
    simp only [v, elements_cons]
    rfl
  exact ⟨(mem_elements x m).mp (hv ▸ hmem), fun k hk => hv ▸ hall _ ((mem_elements x m).mpr ⟨k, hk, rfl⟩)⟩

theorem reduce_min : let v := reduceLanes 2 u n ((List.range (m + 1)).map fun k => (x k).toNat)
    (∃ k < m + 1, v = (x k).toNat) ∧ ∀ k < m + 1, laneLe u n v (x k).toNat = true := by
  intro v
  obtain ⟨hmem, hall⟩ := foldl_pick (le := fun a b => laneLe u n b a = true) (laneLe_refl u n)
    (fun a b c h h' => laneLe_trans u n c b a h' h) (laneMin_pick u n) (reduceElements x m) (x 0).toNat
  have hv : v = (reduceElements x m).foldl (laneMin u n) (x 0).toNat := by
    simp only [v, elements_cons]
    rfl
  exact ⟨(mem_elements x m).mp (hv ▸ hmem), fun k hk => hv ▸ hall _ ((mem_elements x m).mpr ⟨k, hk, rfl⟩)⟩

end Reduce

/-! ### The claims -/

theorem claims_vectorIntegerLanes : Claims.VectorIntegerLanes := by
  intro g w z u d a b s run
  exact ⟨perform_mould rfl laneAdd_word, perform_mould rfl laneSub_word, perform_mould rfl laneMul_word,
    perform_mould rfl fun x y => laneMulh_word x y u, perform_mould rfl laneAnd_word, perform_mould rfl laneOr_word,
    perform_mould rfl laneXor_word, perform_mould rfl laneShl_word, perform_mould rfl laneShr_word, perform_mould rfl laneSra_word,
    perform_mould rfl fun x y => laneMin_word x y u, perform_mould rfl fun x y => laneMax_word x y u⟩

/-- A member of the unary mould (R327). -/
theorem perform_unary {s : State} {i : Instr} {d a : BitVec 5} {w : Width} {z : ESize} {f : Nat → Nat → Nat}
    {F : BitVec z.bits → BitVec z.bits} (e : exec i s = perform i s (vec1Body f w z d a))
    (hF : ∀ x : BitVec z.bits, BitVec.ofNat z.bits (f z.bits x.toNat) = F x) (h : Normal i s) (hr : (s.popPorts i).Room 1) :
    ∃ r, exec i s = .next ((s.popPorts i).withResults [r]) ∧ VectorResult (s.popPorts i) r d w.bits z.bits 2 0 ∧
      ∀ k < w.bits / z.bits, element z.bits r.val.toNat k = F (element z.bits ((s.popPorts i).va a.toNat) k) := by
  obtain ⟨r, hexec, hres, hval⟩ := perform_vector h hr e rfl
  refine ⟨r, hexec, hres, fun k hk => ?_⟩
  obtain ⟨hfill, _⟩ := width_elements w z
  have hin : z.bits * k + z.bits ≤ w.bits := by
    rw [← hfill, ← Nat.mul_succ]
    exact Nat.mul_le_mul_left _ hk
  rw [hval, element_mod hin, element_mapLanes _ _ _ _ _ hk, hF]

/-- VSEL: every byte lands, from A where the lane predicate's bit is set (R340). -/
theorem exec_vsel {s : State} {g : BitVec 3} {w : Width} {z : ESize} {u : Bool} {d a b : BitVec 5}
    (h : Normal (.vsel g w z u d a b) s) (hr : (s.popPorts (.vsel g w z u d a b)).Room 1) :
    let t := s.popPorts (.vsel g w z u d a b)
    ∃ r : Result, exec (.vsel g w z u d a b) s = .next (t.withResults [r]) ∧
      r = t.resultOf 0 t.vectorFile d.toNat r.ben r.val r.val 2 0 ∧
      (∀ j, j < 128 → r.ben.getLsbD j = decide (j < w.bits / 8)) ∧
      ∀ j, j < 1024 → r.val.getLsbD j = (decide (j < w.bits) &&
        if t.laneBit (j / 8) then (t.va a.toNat).testBit j else (t.vb b.toNat).testBit j) := by
  intro t
  let v := mergeBytes (w.bits / 8) t.lanePred (t.vb b.toNat) (t.va a.toNat) % 2 ^ w.bits
  have hbits : 8 * (w.bits / 8) = w.bits := by cases w <;> rfl
  refine ⟨t.resultOf 0 t.vectorFile d.toNat (BitVec.ofNat 128 (ones (w.bits / 8))) (BitVec.ofNat 1024 v) (BitVec.ofNat 1024 v) 2 0,
    ?_, rfl, fun j hj => ?_, fun j hj => ?_⟩
  · rw [show exec (.vsel g w z u d a b) s = perform (.vsel g w z u d a b) s (vselBody w d a b) from rfl, perform_normal h, vselBody,
      settle_quiet (not_enabled_zero _), post_one hr, undoReads_same (by exact popPorts_raised _ s)]
    rfl
  · show (BitVec.ofNat 128 (ones (w.bits / 8))).getLsbD j = _
    rw [BitVec.getLsbD_ofNat, decide_eq_true hj, Bool.true_and, ones, Nat.testBit_two_pow_sub_one]
  · show (BitVec.ofNat 1024 v).getLsbD j = _
    rw [BitVec.getLsbD_ofNat, decide_eq_true hj, Bool.true_and, Nat.testBit_mod_two_pow]
    by_cases hw : j < w.bits
    · have hlane : t.lanePred.testBit (j / 8) = t.laneBit (j / 8) := by
        have := activeLane_lanePred t (eb := 8) (k := j / 8) (by omega)
        rwa [activeLane, Nat.mul_div_cancel_left _ (by decide), bitAt_eq_testBit] at this
      rw [testBit_mergeBytes _ _ _ (hbits.symm ▸ hw), hlane]
    · rw [decide_eq_false hw, Bool.false_and, Bool.false_and]

theorem vcmpBody_eq (c : Cond) (w : Width) (z : ESize) (d : BitVec 3) (a b : BitVec 5) (t : State) :
    vcmpBody c w z d a b t = t.putCompare d.toNat z.bits (w.bits / z.bits) 2
      (fun k => condHolds c z.bits (element z.bits (t.va a.toNat) k).toNat (element z.bits (t.vb b.toNat) k).toNat) 0 := by
  simp only [vcmpBody, State.putCompare, zipWith_lanes, List.map_map]
  rfl

theorem claims_vectorIntegerOthers : Claims.VectorIntegerOthers := by
  intro g w z u c d a b sel pair s n unary cond
  obtain ⟨hfill, hbyte, hpos, hwide, hsome⟩ := width_elements w z
  refine ⟨perform_unary rfl laneAbs_word, perform_unary rfl laneCnt_word, exec_vsel, ?_, ?_⟩
  · intro i t x le h hr
    obtain ⟨r, hexec, hres, hval⟩ := perform_vector (d := d) h hr (body := vrediBody w z u d a sel) rfl rfl
    obtain ⟨m, hm⟩ := Nat.exists_eq_add_one.mpr hsome
    have hlanes : lanes (t.va a.toNat) z.bits (w.bits / z.bits) = (List.range (m + 1)).map fun k => (x k).toNat := by
      rw [lanes_eq_map, hm]
    have hlt := reduce_lt x u m sel.toNat
    have hvalue : r.val.toNat = reduceLanes sel.toNat u z.bits ((List.range (m + 1)).map fun k => (x k).toNat) := by
      rw [hval, hlanes, Nat.mod_eq_of_lt (hlt.trans_le (Nat.pow_le_pow_right Nat.two_pos (hfill ▸ Nat.le_mul_of_pos_right _ hsome)))]
    have hy : element z.bits r.val.toNat 0 = BitVec.ofNat z.bits r.val.toNat := by
      rw [element, Nat.mul_zero, Nat.pow_zero, Nat.div_one]
    have hfrom : ∀ k, r.val.toNat = (x k).toNat → element z.bits r.val.toNat 0 = x k := fun k hk => by
      rw [hy, hk, ofNat_toNat_self]
    refine ⟨r, hexec, hres, hvalue ▸ hlt, ?_, ?_, ?_⟩
    · rintro rfl
      rw [hy, hvalue, show n = m + 1 from hm]
      exact reduce_sum x u m
    · rintro rfl
      obtain ⟨⟨k, hk, hkv⟩, hall⟩ := reduce_max x u m
      rw [show n = m + 1 from hm, hfrom k (hvalue.trans hkv)]
      refine ⟨⟨k, hk, rfl⟩, fun j hj => ?_⟩
      exact (laneLe_word (x j) (x k) u).symm.trans (hkv ▸ hall j hj)
    · rintro rfl
      obtain ⟨⟨k, hk, hkv⟩, hall⟩ := reduce_min x u m
      rw [show n = m + 1 from hm, hfrom k (hvalue.trans hkv)]
      refine ⟨⟨k, hk, rfl⟩, fun j hj => ?_⟩
      exact (laneLe_word (x k) (x j) u).symm.trans (hkv ▸ hall j hj)
  · intro i t
    refine compareElements rfl ?_ (fun h => pair_ge_one h nofun (inHandler_of_normal h nofun rfl) rfl rfl) hbyte hpos hfill hwide
    simp only [vcmpBody_eq, condHolds_words]
    rfl

end Sys2Proof.Machine

open Sys2Proof Sys2Proof.Machine

/-- Settles O3: the mould by `perform_mould`, reductions by `foldl_pick`, VSEL by `testBit_mergeBytes`, VCMP by `compareElements`. -/
theorem vectorIntegerUnit : Obligations.VectorIntegerUnit :=
  ⟨claims_vectorIntegerLanes, claims_vectorIntegerOthers⟩
end

section
/-! The members of class 5 that move elements (21 R317; 22 R330, R334 to R338, R341; 06 R111), O8: values put together element by element,
the generator on words, the masks of VISECT. -/
namespace Sys2Proof.Machine

/-! ### Values put together at every place -/

/-- A syllable whose effect is one vector result without flags. -/
theorem perform_value {s : State} {i : Instr} {body : State → State} {d : BitVec 5} {wbits eb v : Nat}
    (e : exec i s = perform i s body) (hb : body (s.popPorts i) = (s.popPorts i).putVector d.toNat wbits eb v 6)
    (hw : wbits ≤ 1024) (hland : (s.popPorts i).BytesLand wbits eb) (hv : v < 2 ^ wbits) (h : Normal i s) (hr : (s.popPorts i).Room 1) :
    ∃ r, exec i s = .next ((s.popPorts i).withResults [r]) ∧ VectorResult (s.popPorts i) r d wbits eb 6 0 ∧ r.val.toNat = v := by
  have answer := perform_flagged e hb (popPorts_raised i s) hw hland h hr
  rw [if_neg (not_enabled_zero _)] at answer
  obtain ⟨r, hexec, hres, hval⟩ := answer
  exact ⟨r, hexec, hres, hval.trans (Nat.mod_eq_of_lt hv)⟩

theorem bytesLand_sizes (t : State) (w : Width) (z : ESize) : t.BytesLand w.bits z.bits := by
  obtain ⟨hfill, hbyte, hpos, _, _⟩ := width_elements w z
  exact ben_bits t _ _ hbyte hpos hfill

theorem ofLanes_range_lt (f : Nat → Nat) (w n : Nat) : ofLanes w ((List.range n).map f) < 2 ^ (w * n) := by
  have := ofLanes_lt w ((List.range n).map f)
  rwa [List.length_map, List.length_range] at this

theorem element_ofLanes_range (f : Nat → Nat) (w : Nat) {n k : Nat} (hk : k < n) :
    element w (ofLanes w ((List.range n).map f)) k = BitVec.ofNat w (f k) := by
  rw [element_ofLanes _ _ _ (by simpa using hk), List.getElem_map, List.getElem_range]

/-- A syllable that puts an element of `z.bits` bits at every place. -/
theorem perform_places {s : State} {i : Instr} {body : State → State} {d : BitVec 5} {w : Width} {z : ESize} {f : Nat → Nat}
    {F : Nat → BitVec z.bits} (e : exec i s = perform i s body)
    (hb : body (s.popPorts i) =
      (s.popPorts i).putVector d.toNat w.bits z.bits (ofLanes z.bits ((List.range (w.bits / z.bits)).map f)) 6)
    (hF : ∀ k < w.bits / z.bits, BitVec.ofNat z.bits (f k) = F k) (h : Normal i s) (hr : (s.popPorts i).Room 1) :
    ∃ r, exec i s = .next ((s.popPorts i).withResults [r]) ∧ VectorResult (s.popPorts i) r d w.bits z.bits 6 0 ∧
      r.val.toNat < 2 ^ (z.bits * (w.bits / z.bits)) ∧ ∀ k < w.bits / z.bits, element z.bits r.val.toNat k = F k := by
  obtain ⟨hfill, _, _, hwide, _⟩ := width_elements w z
  have hlt := ofLanes_range_lt f z.bits (w.bits / z.bits)
  obtain ⟨r, hexec, hres, hval⟩ := perform_value e hb hwide (bytesLand_sizes _ w z) (hlt.trans_eq (congrArg (2 ^ ·) hfill)) h hr
  exact ⟨r, hexec, hres, hval ▸ hlt, fun k hk => by rw [hval, element_ofLanes_range f _ hk, hF k hk]⟩

theorem permute_eq (w n a b : Nat) : permute w n a b =
    ofLanes n ((List.range (w / n)).map fun k => (element n a ((element n b k).toNat % (w / n))).toNat) := by
  rw [permute, lanes_eq_map, List.map_map]
  simp only [lane_eq_element]
  rfl

theorem replicate_eq_map (n x : Nat) : List.replicate n x = (List.range n).map fun _ => x := by
  rw [List.map_const', List.length_range]

theorem set_lanes_eq_map (x w n j v : Nat) :
    (lanes x w n).set j v = (List.range n).map fun k => if k = j then v else (element w x k).toNat := by
  apply List.ext_getElem
  · simp
  · intro k hk _
    rw [List.getElem_set]
    simp [eq_comm]

/-! ### The generator on words (R111) -/

theorem mix64_word (key c : Word64) : mix64 key.toNat c.toNat =
    (let z0 := key + c * 0x9E3779B97F4A7C15
     let z1 := (z0 ^^^ (z0 >>> 30)) * 0xBF58476D1CE4E5B9
     let z2 := (z1 ^^^ (z1 >>> 27)) * 0x94D049BB133111EB
     z2 ^^^ (z2 >>> 31)).toNat := by
  have step : ∀ (z m : Word64) (k : Nat), ((z ^^^ (z >>> k)) * m).toNat = (z.toNat ^^^ (z.toNat / 2 ^ k)) * m.toNat % 2 ^ 64 := by
    intro z m k
    rw [BitVec.toNat_mul, BitVec.toNat_xor, BitVec.toNat_ushiftRight, Nat.shiftRight_eq_div_pow]
  have first : (key + c * 0x9E3779B97F4A7C15).toNat = (key.toNat + c.toNat * 0x9E3779B97F4A7C15) % 2 ^ 64 := by
    rw [BitVec.toNat_add, BitVec.toNat_mul, Nat.add_mod_mod]
    rfl
  extract_lets z0 z1 z2
  rw [BitVec.toNat_xor, BitVec.toNat_ushiftRight, Nat.shiftRight_eq_div_pow, step, step, first]
  rfl

/-! ### VISECT (R336) -/

/-- The mask of the places where a condition holds. -/
def placesWhere (n : Nat) (p : Nat → Bool) : Nat := (List.range n).foldl (fun acc j => if p j then acc + 2 ^ j else acc) 0

theorem bitsOf_append (l : List Bool) (b : Bool) : bitsOf (l ++ [b]) = if b then bitsOf l + 2 ^ l.length else bitsOf l := by
  induction l with
  | nil => cases b <;> rfl
  | cons t l ih =>
    rw [List.cons_append, bitsOf, ih, bitsOf, List.length_cons, Nat.pow_succ]
    cases b with
    | false => rfl
    | true =>
      rw [if_pos rfl, if_pos rfl]
      omega

theorem placesWhere_succ (n : Nat) (p : Nat → Bool) :
    placesWhere (n + 1) p = if p n then placesWhere n p + 2 ^ n else placesWhere n p := by
  rw [placesWhere, List.range_succ, List.foldl_append]
  rfl

theorem bitsOf_eq_placesWhere (n : Nat) (p : Nat → Bool) : bitsOf ((List.range n).map p) = placesWhere n p := by
  induction n with
  | zero => rfl
  | succ n ih =>
    rw [List.range_succ, List.map_append, List.map_singleton, bitsOf_append, ih, List.length_map, List.length_range,
      placesWhere_succ]

/-- The four words of VISECT. -/
theorem intersect_eq (x y : Nat → Nat) : let m := Nat.min (x 31) (y 31)
    intersect ((List.range 32).map x) ((List.range 32).map y) =
      [(List.range 32).countP fun j => x j ≤ m, (List.range 32).countP fun j => y j ≤ m,
        placesWhere 32 fun j => decide (x j ≤ m) && (List.range 32).any fun l => x j == y l,
        placesWhere 32 fun j => decide (y j ≤ m) && (List.range 32).any fun l => y j == x l] := by
  intro m
  have hx : ((List.range 32).map x).getD 31 0 = x 31 := rfl
  have hy : ((List.range 32).map y).getD 31 0 = y 31 := rfl
  simp only [intersect, hx, hy, List.countP_map, List.map_map, List.contains_eq_any_beq, List.any_map]
  rw [← bitsOf_eq_placesWhere, ← bitsOf_eq_placesWhere]
  rfl

/-- R73: a syllable outside the handler has fields that it may have. -/
theorem operands_fields {i : Instr} {l : Lend} {al : Alloc} {c lv : Nat} (h : operandsLegal i l al c lv = true) :
    fieldsLegal i = true := by
  have left : ∀ {a b : Bool}, (a && b) = true → a = true := fun h => (Bool.and_eq_true_iff.mp h).1
  exact left (left (left (left (left (left (left (left h)))))))

theorem fieldsLegal_of_normal {s : State} {i : Instr} (h : Normal i s) (hn : ∀ g, i ≠ .nop g) (hi : handlerRuns i = false) :
    fieldsLegal i = true :=
  operands_fields (verdict_operands h.1 hn (inHandler_of_normal h hn hi))

/-! ### The members that move one element or a predicate -/

theorem exec_vext {s : State} {g : BitVec 3} {w : Width} {z : ESize} {d a b : BitVec 5} (h : Normal (.vext g w z d a b) s)
    (hr : (s.popPorts (.vext g w z d a b)).Room 1) :
    let t := s.popPorts (.vext g w z d a b)
    exec (.vext g w z d a b) s = .next (t.scalarResult (d.setWidth 6)
      ((element z.bits (t.va a.toNat) (t.sb b.toNat % (w.bits / z.bits))).setWidth 64) 0 6) := by
  intro t
  have hd : (d.setWidth 6).toNat = d.toNat := by
    rw [BitVec.toNat_setWidth]
    exact Nat.mod_eq_of_lt (d.isLt.trans (by decide))
  have body : vextBody w z d a b t = t.scalarResult (d.setWidth 6)
      ((element z.bits (t.va a.toNat) (t.sb b.toNat % (w.bits / z.bits))).setWidth 64) 0 6 := by
    rw [vextBody, ← hd, lane_eq_element]
    exact putScalar_result hr (not_enabled_zero t) _ _ 6 _ (BitVec.toNat_setWidth ..)
  rw [show exec (.vext g w z d a b) s = perform (.vext g w z d a b) s (vextBody w z d a b) from rfl, perform_normal h, body,
    undoReads_same (by exact popPorts_raised _ s)]

theorem exec_vmovp_pred {s : State} {g : BitVec 3} {w : Width} {d a : BitVec 5} (h : Normal (.vmovp g w true d a) s)
    (hr : (s.popPorts (.vmovp g w true d a)).Room 1) :
    let t := s.popPorts (.vmovp g w true d a)
    exec (.vmovp g w true d a) s = .next (t.withResults [t.resultOf 0
      (if t.slot.lend.ws ∨ d.toNat ≤ 1 then .latch else .p) d.toNat 0xFFFF
      (BitVec.ofNat 1024 (t.va a.toNat % 2 ^ 128)) (BitVec.ofNat 1024 (t.va a.toNat % 2 ^ 128)) 6]) := by
  intro t
  have file : destFile t .p d.toNat = if t.slot.lend.ws ∨ d.toNat ≤ 1 then .latch else .p := by
    unfold destFile
    cases t.slot.lend.ws <;> simp
  rw [show exec (.vmovp g w true d a) s = perform (.vmovp g w true d a) s (vmovpBody w true d a) from rfl, perform_normal h, vmovpBody,
    if_pos rfl, putPred_quiet hr, undoReads_same (by exact popPorts_raised _ s), file]
  rfl

theorem exec_vmovp_vector {s : State} {g : BitVec 3} {w : Width} {d a : BitVec 5} (h : Normal (.vmovp g w false d a) s)
    (hr : (s.popPorts (.vmovp g w false d a)).Room 1) :
    let t := s.popPorts (.vmovp g w false d a)
    ∃ r, exec (.vmovp g w false d a) s = .next (t.withResults [r]) ∧ VectorResult t r d w.bits 8 6 0 ∧ r.val.toNat < 2 ^ (8 * 16) ∧
      ∀ k < 16, element 8 r.val.toNat k = element 8 (t.cur.readP a.toNat).toNat k := by
  intro t
  have hshort : (t.cur.readP a.toNat).toNat < 2 ^ w.bits :=
    (t.cur.readP a.toNat).isLt.trans_le (Nat.pow_le_pow_right Nat.two_pos (by cases w <;> decide))
  obtain ⟨r, hexec, hres, hval⟩ := perform_value (d := d) (body := vmovpBody w false d a) rfl rfl (width_elements w .b8).2.2.2.1
    (bytesLand_sizes t w .b8) hshort h hr
  exact ⟨r, hexec, hres, hval ▸ (t.cur.readP a.toNat).isLt, fun k _ => by rw [hval]⟩

theorem exec_visect {s : State} {g : BitVec 3} {w : Width} {z : ESize} {d a b : BitVec 5} (h : Normal (.visect g w z d a b) s)
    (hr : (s.popPorts (.visect g w z d a b)).Room 1) :
    let t := s.popPorts (.visect g w z d a b)
    let words := intersect ((List.range 32).map fun k => (element 32 (t.va a.toNat) k).toNat)
      ((List.range 32).map fun k => (element 32 (t.vb b.toNat) k).toNat)
    ∃ r, exec (.visect g w z d a b) s = .next (t.withResults [r]) ∧ VectorResult t r d w.bits 32 6 0 ∧ r.val.toNat < 2 ^ (32 * 32) ∧
      ∀ k < 32, element 32 r.val.toNat k = BitVec.ofNat 32 (words.getD k 0) := by
  intro t words
  have hw : w = .w1024 := by
    have := (Bool.and_eq_true_iff.mp (fieldsLegal_of_normal h nofun rfl)).1
    exact eq_of_beq this
  subst hw
  have hshort : ofLanes 32 words < 2 ^ (32 * 4) := ofLanes_lt 32 words
  have hbody : visectBody d a b t = t.putVector d.toNat Width.w1024.bits 32 (ofLanes 32 words) 6 := by
    simp only [visectBody, lanes_eq_map]
    rfl
  obtain ⟨r, hexec, hres, hval⟩ := perform_value rfl hbody (by decide) (bytesLand_sizes t .w1024 .b32)
    (hshort.trans_le (Nat.pow_le_pow_right Nat.two_pos (by decide))) h hr
  refine ⟨r, hexec, hres, hval ▸ hshort.trans_le (Nat.pow_le_pow_right Nat.two_pos (by decide)), fun k hk => ?_⟩
  rw [hval]
  by_cases hk4 : k < words.length
  · rw [element_ofLanes 32 words k hk4, List.getD_eq_getElem _ _ hk4]
  · have hlow : ofLanes 32 words < 2 ^ (32 * k) := hshort.trans_le (Nat.pow_le_pow_right Nat.two_pos (Nat.mul_le_mul_left 32 (by
      have : words.length = 4 := rfl
      omega)))
    rw [element, Nat.div_eq_of_lt hlow, List.getD_eq_default _ _ (Nat.le_of_not_lt hk4)]

end Sys2Proof.Machine

open Sys2Proof Sys2Proof.Machine

/-- Settles O8: `perform_places` for the members with an element at every place, and a lemma for each of the others. -/
theorem permutationLanes : Obligations.PermutationLanes := by
  intro g w z d a b s n run mix
  have hsome : 0 < n := (width_elements w z).2.2.2.2
  refine ⟨perform_places rfl (by rw [vpermBody, permute_eq]) fun k _ => ofNat_toNat_self _,
    perform_places rfl (by rw [vbcastBody, replicate_eq_map]; rfl) fun k _ => rfl,
    perform_places rfl (by rw [vbcastBody, replicate_eq_map]; rfl) fun k _ => rfl,
    perform_places rfl (by rw [vseqBody]) fun k _ => ?_, perform_places rfl (by rw [rngcBody]) fun k _ => ?_, exec_vmovp_vector,
    perform_places rfl (by rw [vinsBody, set_lanes_eq_map]) fun k _ => ?_, exec_vext, exec_vmovp_pred, ?_⟩
  · rw [BitVec.ofNat_add, BitVec.ofNat_mul]
  · have hcount : ∀ t : State, (BitVec.ofNat 64 (t.sb b.toNat) + BitVec.ofNat 64 k).toNat = (t.sb b.toNat + k) % 2 ^ 64 := fun t => by
      rw [← BitVec.ofNat_add, BitVec.toNat_ofNat]
    rw [← hcount, ← toNat_sa, mix64_word, BitVec.ofNat_toNat]
  · rw [apply_ite (BitVec.ofNat z.bits), ofNat_toNat_self]
  · intro i t x y m word h hr
    obtain ⟨r, hexec, hres, hlt, hval⟩ := exec_visect h hr
    refine ⟨r, hexec, hres, hlt, fun k hk => ?_⟩
    rw [hval k hk, intersect_eq]
    match k with
    | 0 | 1 | 2 | 3 => rfl
    | k + 4 => rfl
end

section
/-! CSRR, CSRW and FLAGS (20 R279, R282, R295; 17 R231), O17. -/
namespace Sys2Proof.Machine

section Registers
variable {s : State}

/-- A 65th result traps, and nothing of the syllable enters flight (R231). -/
theorem post_none (h : ¬ s.Room 1) (r : Result) (t : List Result) : s.post (r :: t) = s.raise .illegalOperand := by
  have full : s.cur.results + (r :: t).length > Config.resultsMax := by
    simp only [State.Room] at h
    simp only [Config.resultsMax, List.length_cons]
    omega
  have none : Config.resultsMax - s.cur.results = 0 := by
    simp only [State.Room] at h
    simp only [Config.resultsMax]
    omega
  rw [State.post, if_pos full, none]
  rfl

/-- Of two results with room for one the first enters flight (log entry 57). -/
theorem post_first (h1 : s.Room 1) (h2 : ¬ s.Room 2) (r q : Result) : s.post [r, q] = (s.post [r]).raise .illegalOperand := by
  have full : s.cur.results + 2 > Config.resultsMax := by
    simp only [State.Room] at h2
    simp only [Config.resultsMax]
    omega
  have one : Config.resultsMax - s.cur.results = 1 := by
    simp only [State.Room] at h1 h2
    simp only [Config.resultsMax]
    omega
  have room : ¬ s.cur.results + 1 > Config.resultsMax := by
    simp only [State.Room] at h1
    simp only [Config.resultsMax]
    omega
  rw [State.post, if_pos (by exact full), one, State.post, if_neg (by exact room)]
  rfl

/-- R295: the flags that FLAGS reads, of one slot or of all nine. -/
def State.flagsRead (s : State) (slot : BitVec 4) : Nat :=
  if slot = 15 then (List.range 9).foldl (fun acc k => acc ||| (s.cur.csrH (0x018 + k)).toNat % 64) 0
  else (s.cur.csrH (0x018 + slot.toNat)).toNat % 64

/-- What FLAGS puts in flight for its register. -/
def State.flagsResult (s : State) (d : BitVec 6) (slot : BitVec 4) : Result :=
  { s.resultOf 0 (s.scalarFile d) d.toNat 0xFF (BitVec.ofNat 1024 (s.flagsRead slot)) 0 1 with unit := none }

/-- The result of the model's FLAGS before it is posted. -/
def State.flagsRaw (s : State) (d : BitVec 6) (slot : BitVec 4) : Result :=
  { file := destFile s .s d.toNat, reg := d.toNat, ben := 0xFF, val := BitVec.ofNat 1024 (s.flagsRead slot), due := s.cur.count + 1 }

theorem flagsBody_eq (d : BitVec 6) (clear : Bool) (slot : BitVec 4) :
    flagsBody d clear slot.toNat s = s.post (s.flagsRaw d slot :: if clear then [csrResult s (csrFlg + slot.toNat) 0 1] else []) := by
  have hall : slot.toNat = 15 ↔ slot = 15 := ⟨fun h => BitVec.eq_of_toNat_eq h, fun h => by rw [h]; rfl⟩
  simp only [flagsBody, State.flagsRaw, State.flagsRead, Ctx.flagsOf, hall, csrFlg]

theorem post_flagsRaw (hr : s.Room 1) (d : BitVec 6) (slot : BitVec 4) :
    s.post [s.flagsRaw d slot] = s.withResults [s.flagsResult d slot] := by
  rw [post_one hr, State.flagsRaw, destFile_scalar]
  rfl

end Registers

theorem claims_controlRegisters : Claims.ControlRegisters := by
  intro g d csr clear slot s face flag
  have portsR : Normal (.csrr g d csr) s → portsOf (.csrr g d csr) s.slot.lend = [] := fun h => ports_moulded h nofun nofun nofun nofun
  have portsW : Normal (.csrw g d csr) s → portsOf (.csrw g d csr) s.slot.lend = [] := fun h => ports_moulded h nofun nofun nofun nofun
  have portsF : ∀ c, Normal (.flags g d c slot) s → portsOf (.flags g d c slot) s.slot.lend = [] :=
    fun c h => ports_moulded h nofun nofun nofun nofun
  refine ⟨fun h hr => ?_, fun h hr => ?_, fun h hr => ?_, fun h hr => ?_, fun h hr => ?_, fun h hr => ?_, fun h hr hn => ?_⟩
  · have body : csrrBody d csr.toNat s = s.scalarResult d
        (if csrClass csr.toNat = some .live then BitVec.ofNat 64 (s.live csr.toNat) else s.cur.csrV csr.toNat) := by
      refine putScalar_result hr (not_enabled_zero s) d _ 1 _ ?_
      split
      · exact BitVec.toNat_ofNat ..
      · exact (Nat.mod_eq_of_lt (BitVec.isLt _)).symm
    exact (perform_quiet h (portsR h) (by rw [body]; rfl)).trans (congrArg _ body)
  · have body : csrwBody d csr.toNat s = s.withResults [face csr.toNat 0 (s.sa d.toNat &&& csrMask csr.toNat)] := post_one hr _
    exact (perform_quiet h (portsW h) (by rw [body]; rfl)).trans (congrArg _ body)
  · have body : flagsBody d clear slot.toNat s = s.withResults (s.flagsResult d slot ::
        if clear then [face (0x018 + slot.toNat) 1 0] else []) := by
      cases clear with
      | false => exact (flagsBody_eq d false slot).trans (post_flagsRaw hr d slot)
      | true =>
        rw [flagsBody_eq, if_pos rfl, post_two hr, State.flagsRaw, destFile_scalar]
        rfl
    exact (perform_quiet h (portsF clear h) (by rw [body]; rfl)).trans (congrArg _ body)
  · exact perform_trapped h (portsR h) (settle_full hr 0 1 _)
  · exact perform_trapped h (portsW h) (post_full hr _)
  · exact perform_trapped h (portsF clear h) ((flagsBody_eq d clear slot).trans (post_none hr _ _))
  · have body : flagsBody d true slot.toNat s = (s.withResults [s.flagsResult d slot]).raise .illegalOperand := by
      rw [flagsBody_eq, if_pos rfl, post_first hr hn, post_flagsRaw hr]
    rw [show exec (.flags g d true slot) s = perform (.flags g d true slot) s (flagsBody d true slot.toNat) from rfl, perform_normal h,
      popPorts_nil (portsF true h), body, undoReads_raised rfl]
    rfl

end Sys2Proof.Machine

open Sys2Proof Sys2Proof.Machine

/-- Settles O17: each body posts its results, and `post_one`, `post_two`, `post_first` and `post_none` say what enters flight. -/
theorem systemSyllables : Obligations.SystemSyllables := claims_controlRegisters
end

section
/-! Packets that arrive and ownership (19 R257 to R262), O43 and O44: what a packet finds once its sender has been heard, acceptance
without a capture, and the winner of an election. -/
namespace Sys2Proof.Machine

/-! ### What stays while a sender is heard -/

section Heard
variable (s : State)

theorem tellOwner_parts (dest tag : Nat) : (s.tellOwner dest tag).parts = s.parts := by
  unfold State.tellOwner State.sendTo
  split <;> rfl

theorem tellOwner_keysGone (dest tag : Nat) : (s.tellOwner dest tag).keysGone = s.keysGone := by
  unfold State.tellOwner State.sendTo
  split <;> rfl

theorem tellOwner_cycle (dest tag : Nat) : (s.tellOwner dest tag).cycle = s.cycle := by
  unfold State.tellOwner State.sendTo
  split <;> rfl

theorem tellOwner_owner (dest tag : Nat) : (s.tellOwner dest tag).owner = s.owner := by
  unfold State.tellOwner State.sendTo
  split <;> rfl

/-- What an election and a sender leave as it is. -/
structure State.SameDevice (s t : State) : Prop where
  parts    : t.parts = s.parts
  keysGone : t.keysGone = s.keysGone
  cycle    : t.cycle = s.cycle
  lease    : t.owner.lease = s.owner.lease

theorem closeElection_sameDevice : s.SameDevice s.closeElection := by
  unfold State.closeElection
  extract_lets l closed u
  split
  · exact ⟨rfl, rfl, rfl, rfl⟩
  · refine List.foldlRecOn (motive := s.SameDevice) _ _ ⟨rfl, rfl, rfl, rfl⟩ fun t ht c _ => ?_
    exact ⟨(tellOwner_parts ..).trans ht.parts, (tellOwner_keysGone ..).trans ht.keysGone, (tellOwner_cycle ..).trans ht.cycle,
      (congrArg Owner.lease (tellOwner_owner ..)).trans ht.lease⟩

theorem hearSrc_sameDevice (src : Nat) : s.SameDevice (s.hearSrc src) := by
  have after : ∀ t : State, s.SameDevice t →
      s.SameDevice (if t.leaseOver then t.lapse else if t.owner.id = some src then t.hear else t) := by
    intro t ht
    split
    · exact ⟨ht.parts, ht.keysGone, ht.cycle, ht.lease⟩
    · split
      · exact ⟨ht.parts, ht.keysGone, ht.cycle, ht.lease⟩
      · exact ht
  refine after _ ?_
  split
  · exact closeElection_sameDevice s
  · exact ⟨rfl, rfl, rfl, rfl⟩

theorem State.SameDevice.part {s t : State} (h : s.SameDevice t) (p : Nat) : t.part p = s.part p := by
  rw [State.part, State.part, h.parts]

theorem State.SameDevice.signed {s t : State} (h : s.SameDevice t) (k : Packet) : t.signed k = s.signed k := by
  rw [State.signed, State.signed, h.keysGone]

end Heard

/-! ### What a packet does (R257) -/

section Packets
variable {s : State} {k : Packet} (halarm : s.alarm = none)
include halarm

theorem exec_packetArrival : exec (.packetArrival k) s = .next (s.receive k) := event_on (by rw [halarm]; rfl) _

theorem receive_malformed (h : malformed k = true) : exec (.packetArrival k) s = .next ((s.heard k).refuse k rfMalformed) := by
  rw [exec_packetArrival halarm, State.receive, if_pos h]

theorem receive_queued (h : malformed k = false) (hty : pkType k < 8) :
    exec (.packetArrival k) s = .next ((s.heard k).queuePacket k) := by
  have hresync : pkType k ≠ tyResync := Nat.ne_of_lt hty
  have howner : pkType k ≠ tyOwner := Nat.ne_of_lt (Nat.lt_succ_of_lt hty)
  rw [exec_packetArrival halarm, State.receive, h, if_neg (by decide), if_neg hresync, if_neg howner]

theorem receive_resync (h : malformed k = false) (hty : pkType k = tyResync) :
    exec (.packetArrival k) s = .next (s.doResync k) ∧ exec (.resync k) s = .next (s.doResync k) := by
  refine ⟨?_, event_on ?_ _⟩
  · rw [exec_packetArrival halarm, State.receive, h, if_neg (by decide), if_pos hty]
  · rw [State.canResync, halarm, h, hty]
    rfl

theorem receive_owner (h : malformed k = false) (hty : pkType k = tyOwner) :
    (ownOp k = 0 → exec (.packetArrival k) s = .next (s.doClaim k)) ∧
      (ownOp k ≠ 0 → ∃ f, exec (.packetArrival k) s = .next (s.ownerOnly k f)) := by
  have hresync : pkType k ≠ tyResync := by
    rw [hty]
    decide
  rw [exec_packetArrival halarm, State.receive, h, if_neg (by decide), if_neg hresync, if_pos hty]
  constructor
  · intro h0
    rw [h0]
    rfl
  · intro h0
    split
    · contradiction
    · exact ⟨_, rfl⟩
    · exact ⟨_, rfl⟩
    · exact ⟨_, rfl⟩

theorem canOwn_of {op : Nat} (h : malformed k = false) (hty : pkType k = tyOwner) (hop : ownOp k = op) : s.canOwn k op = true := by
  rw [State.canOwn, halarm, h, hty, hop]
  simp

end Packets

/-- What the statements call the state that a packet finds is the one in which its sender has been heard. -/
theorem heard_of_settled {s e : State} (h : Claims.ElectionSettled s e) (k : Packet) :
    (if e.owner.id.isSome ∧ e.owner.heard + e.owner.lease ≤ e.cycle then { e with owner := { e.owner with id := none } }
      else if e.owner.id = some (pkSrc k) then { e with owner := { e.owner with heard := e.cycle } } else e) = s.heard k :=
  (hearSrc_of_settled h (pkSrc k)).symm

theorem claims_packetArrivals : Claims.PacketArrivals := by
  intro k s e halarm he t owned p refused
  have ht : t = s.heard k := heard_of_settled he k
  have same := hearSrc_sameDevice s (pkSrc k)
  have hpart : (s.heard k).part (pkPart k) = p := same.part _
  clear_value t
  subst ht
  refine ⟨fun h => receive_malformed halarm h, fun h hty => ?_, fun h hty => ⟨?_, fun hplain => ?_⟩⟩
  · have queued := receive_queued halarm h hty
    have body : (s.heard k).queuePacket k = if ¬ owned then (s.heard k).refuse k rfNotOwner
        else if p.on = false then (s.heard k).refuse k rfNoPart
        else if Config.queueMemory < p.queueBytes + 8 * (1 + k.body.length) then (s.heard k).refuse k rfFull
        else (s.heard k).accept k := by
      simp only [State.queuePacket, hpart, Bool.not_eq_true']
      rfl
    refine ⟨fun ho => ?_, fun ho hon => ?_, fun ho hon hfull => ?_, fun ho hon hfits => ?_⟩
    · exact queued.trans (by rw [body, if_pos ho]; rfl)
    · exact queued.trans (by rw [body, if_neg (not_not_intro ho), if_pos hon]; rfl)
    · exact queued.trans (by rw [body, if_neg (not_not_intro ho), if_neg (by rw [hon]; decide), if_pos hfull]; rfl)
    · rw [queued, body, if_neg (not_not_intro ho), if_neg (by rw [hon]; decide), if_neg (Nat.not_lt.mpr hfits)]
  · obtain ⟨harrive, hresync⟩ := receive_resync halarm h hty
    exact harrive.trans hresync.symm
  · rw [(receive_resync halarm h hty).2, State.doResync, hplain]
    rfl

/-- R257, R248: without a capture and a replay the packet is the last of its queue. -/
theorem claims_acceptanceAppends : Claims.AcceptanceAppends := by
  intro k s hs hlog hreplay t
  let n : State := { s with serial := s.serial + 1 }
  let u : State := n.updPart (pkPart k) fun x => { x with logSeq := if x.logOn then 0 else x.logSeq }
  have hparts : Tab.wf {} n.parts = true := hs.parts
  have hself : u.part (pkPart k) = s.part (pkPart k) := by
    have h := State.part_updPart hparts (pkPart k) (fun x => { x with logSeq := if x.logOn then 0 else x.logSeq }) (pkPart k)
    rw [if_pos rfl] at h
    have hseq : (if (s.part (pkPart k)).logOn = true then 0 else (s.part (pkPart k)).logSeq) = (s.part (pkPart k)).logSeq :=
      if_neg (by rw [hlog]; decide)
    exact h.trans (congrArg (fun m => { s.part (pkPart k) with logSeq := m }) hseq)
  have hname : u.nameLogged (pkPart k) (pkQueue k) (pkType k == tyLaunch) = (none, u) := by
    rw [State.nameLogged, hself, hreplay]
  have hrecord : ∀ e : QPacket, u.logPacket (pkPart k) (pkQueue k) e = ({ e with owed := false }, u) := by
    intro e
    rw [State.logPacket, hself, hlog]
    rfl
  have ht : t = u.updQueue (pkPart k) (pkQueue k) fun x => { x with packets := x.packets ++ [{ pk := k, arrival := s.serial + 1 }] } := by
    show s.accept k = _
    simp only [State.accept, hlog, Bool.false_eq_true, if_false]
    rw [show (n.updPart (pkPart k) fun x => { x with logSeq := if x.logOn = true then 0 else x.logSeq }) = u from rfl, hname]
    simp only [hrecord]
  have hqueue := get_set_of_ne_default (d := ({} : Queue))
    (x := { s.queue (pkPart k) (pkQueue k) with
      packets := (s.queue (pkPart k) (pkQueue k)).packets ++ [{ pk := k, arrival := s.serial + 1 }] })
    (fun h => List.append_ne_nil_of_right_ne_nil _ (List.cons_ne_nil _ _) (congrArg Queue.packets h))
    (s.part (pkPart k)).queues (pkQueue k) (pkQueue k)
  have hu : Tab.wf {} u.parts = true := Tab.wf_set hparts _ _
  rw [ht]
  refine ⟨rfl, ?_, rfl, rfl, fun j hj => ?_⟩
  · rw [State.queue, State.updQueue, State.part_updPart hu, if_pos rfl, hself]
    rw [if_pos rfl] at hqueue
    exact congrArg Queue.packets hqueue
  · exact (State.part_updPart_of_ne u _ hj).trans (State.part_updPart_of_ne n _ hj)

/-! ### Requests about ownership (R259, R260) -/

section Owners
variable {s : State} {k : Packet}

theorem doClaim_eq : s.doClaim k = if ¬ (s.heard k).signed k then (s.heard k).refuse k rfBadSig
    else if (s.heard k).owner.id.isSome then (s.heard k).refuse k rfOwned
    else if (s.heard k).owner.epoch < ownEpoch k then { s.heard k with owner := { (s.heard k).owner with
        claims := (s.heard k).owner.claims ++ [{ src := pkSrc k, epoch := ownEpoch k, tag := pkTag k }]
        closes := some ((s.heard k).owner.closes.getD ((s.heard k).cycle + 2 ^ 20)) } }
    else (s.heard k).refuse k rfNotOwner := by
  simp only [State.doClaim, Bool.not_eq_true', Bool.not_eq_true]
  rfl

theorem ownerOnly_eq (f : State → State) : s.ownerOnly k f = if ¬ (s.heard k).signed k then (s.heard k).refuse k rfBadSig
    else if (s.heard k).owner.id = some (pkSrc k) then (f (s.heard k)).tellOwner (pkSrc k) (pkTag k)
    else (s.heard k).refuse k rfNotOwner := by
  simp only [State.ownerOnly, Bool.not_eq_true', Bool.not_eq_true]

theorem ownerOnly_owned (f : State → State) (hsig : (s.heard k).signed k = true) (ho : (s.heard k).owner.id = some (pkSrc k)) :
    s.ownerOnly k f = (f (s.heard k)).tellOwner (pkSrc k) (pkTag k) := by
  rw [ownerOnly_eq, if_neg (not_not_intro hsig), if_pos ho]

end Owners

/-- The owner that is heard has its lease begin now. -/
theorem hear_heard {s : State} {k : Packet} (h : (s.heard k).owner.id = some (pkSrc k)) : (s.heard k).hear = s.heard k := by
  have after : ∀ t : State, let u := if t.leaseOver then t.lapse else if t.owner.id = some (pkSrc k) then t.hear else t
      u.owner.id = some (pkSrc k) → u.hear = u := by
    intro t u hu
    by_cases hover : t.leaseOver = true
    · rw [show u = t.lapse from if_pos hover] at hu
      cases hu
    · by_cases hid : t.owner.id = some (pkSrc k)
      · rw [show u = t.hear from (if_neg hover).trans (if_pos hid)]
        rfl
      · rw [show u = t from (if_neg hover).trans (if_neg hid)] at hu
        exact absurd hu hid
  exact after _ h

theorem claims_ownershipSteps : Claims.OwnershipSteps := by
  intro k s e halarm he sent own t owned refused
  have ht : t = s.heard k := heard_of_settled he k
  have same := hearSrc_sameDevice s (pkSrc k)
  have hcycle : (s.heard k).cycle = s.cycle := same.cycle
  have hsigned : (s.heard k).signed k = s.signed k := same.signed k
  clear_value t
  subst ht
  have claimed : ∀ {u : State}, own 0 → s.doClaim k = u → exec (.packetArrival k) s = .next u := fun ⟨⟨hm, hty⟩, hop, _⟩ hu =>
    hu ▸ (receive_owner halarm hm hty).1 hop
  have signed : ∀ {op : Nat}, own op → ¬¬(s.heard k).signed k = true := fun ⟨_, _, hsig⟩ => not_not_intro (hsigned.trans hsig)
  refine ⟨fun ⟨hm, hty⟩ hsig => ?_, fun ho hid => ?_, fun ho hid hepoch => ?_, fun op ho hop hnot => ?_, fun ho hid hepoch => ?_,
    fun ho howned => ?_, fun ho howned => ?_, fun ho howned => ?_⟩
  · have bad : ¬ (s.heard k).signed k = true := by
      rw [hsigned, hsig]
      decide
    by_cases h0 : ownOp k = 0
    · exact ((receive_owner halarm hm hty).1 h0).trans (by rw [doClaim_eq, if_pos bad]; rfl)
    · obtain ⟨f, hf⟩ := (receive_owner halarm hm hty).2 h0
      exact hf.trans (by rw [ownerOnly_eq, if_pos bad]; rfl)
  · exact claimed ho (by rw [doClaim_eq, if_neg (signed ho), if_pos hid]; rfl)
  · exact claimed ho (by
      rw [doClaim_eq, if_neg (signed ho), if_neg (by rw [hid]; decide),
        if_neg (show ¬ (s.heard k).owner.epoch < ownEpoch k from Nat.not_lt.mpr hepoch)]
      rfl)
  · have ⟨⟨hm, hty⟩, hk, _⟩ := ho
    obtain ⟨f, hf⟩ := (receive_owner halarm hm hty).2 (fun h => hop (hk.symm.trans h))
    exact hf.trans (by rw [ownerOnly_eq, if_neg (signed ho), if_neg hnot]; rfl)
  · have ⟨⟨hm, hty⟩, hk, _⟩ := ho
    refine (event_on (canOwn_of halarm hm hty hk) _).trans ?_
    rw [doClaim_eq, if_neg (signed ho), if_neg (by rw [hid]; decide), if_pos (by exact hepoch), ← hcycle]
    rfl
  · obtain ⟨⟨hm, hty⟩, hk, hsig⟩ := ho
    exact (event_on (canOwn_of halarm hm hty hk) _).trans (congrArg _ (ownerOnly_owned _ (hsigned.trans hsig) howned))
  · obtain ⟨⟨hm, hty⟩, hk, hsig⟩ := ho
    refine (event_on (canOwn_of halarm hm hty hk) _).trans ?_
    rw [State.doRenew, ownerOnly_owned _ (hsigned.trans hsig) howned, hear_heard howned]
  · obtain ⟨⟨hm, hty⟩, hk, hsig⟩ := ho
    exact (event_on (canOwn_of halarm hm hty hk) _).trans (congrArg _ (ownerOnly_owned _ (hsigned.trans hsig) howned))

/-! ### The ends of an election and of a lease -/

/-- The participants of an election are told one after another, of one owner and one EPOCH. -/
theorem foldl_tellOwner (l : List Claim) (s : State) {o : Nat} (h : s.owner.id = some o) :
    l.foldl (fun t c => t.tellOwner c.src c.tag) s =
      l.foldl (fun v c => v.sendTo c.src (eventD0 evOwner 0 0 c.tag) [BitVec.ofNat 64 (2 ^ 63 + o), BitVec.ofNat 64 s.owner.epoch]) s := by
  have same : ∀ t : State, t.owner = s.owner → l.foldl (fun t c => t.tellOwner c.src c.tag) t = l.foldl (fun v c =>
      v.sendTo c.src (eventD0 evOwner 0 0 c.tag) [BitVec.ofNat 64 (2 ^ 63 + o), BitVec.ofNat 64 s.owner.epoch]) t := by
    induction l with
    | nil => exact fun _ _ => rfl
    | cons c l ih =>
      intro t ht
      have hstep : t.tellOwner c.src c.tag =
          t.sendTo c.src (eventD0 evOwner 0 0 c.tag) [BitVec.ofNat 64 (2 ^ 63 + o), BitVec.ofNat 64 s.owner.epoch] := by
        rw [State.tellOwner, ht, h]
      rw [List.foldl_cons, List.foldl_cons, ← hstep]
      exact ih _ ((tellOwner_owner ..).trans ht)
  exact same s rfl

theorem winner_eq_none {l : List Claim} : l = [] ↔ winner l = none := by
  cases l with
  | nil => simp [winner]
  | cons a l =>
    simp only [winner, reduceCtorEq, false_iff]
    split
    · nofun
    · split <;> nofun

theorem claims_ownershipEnds : Claims.OwnershipEnds := by
  intro n s w
  refine ⟨fun hc hn => ?_, fun hid hlease => event_on (State.leaseOver_iff.mpr ⟨hid, hlease⟩) _⟩
  have hover : s.electionOver = true := by
    rw [State.electionOver, hc]
    exact decide_eq_true hn
  have closed : exec .electionClose s = .next s.closeElection := event_on hover _
  refine ⟨fun hnone => ?_, ?_⟩
  · rw [closed, State.closeElection, winner_eq_none.mp hnone]
    exact congrArg (fun l => Host.Outcome.next { s with owner := { s.owner with claims := l, closes := none } }) hnone.symm
  · intro hw u
    have hfold := foldl_tellOwner s.owner.claims u (o := w.src) rfl
    rw [closed, State.closeElection, hw]
    refine congrArg _ (Eq.trans ?_ hfold)
    rw [hc]
    rfl

/-- A claim that beats another: a higher EPOCH, or the same one and a lower SRC. -/
def Claim.beats (w c : Claim) : Prop := c.epoch < w.epoch ∨ (c.epoch = w.epoch ∧ w.src ≤ c.src)

theorem Claim.beats_self (w : Claim) : w.beats w := .inr ⟨rfl, Nat.le_refl _⟩

theorem Claim.beats_trans {a b c : Claim} (h : a.beats b) (h' : b.beats c) : a.beats c := by
  unfold Claim.beats at *
  omega

theorem winner_spec : ∀ (l : List Claim) (w : Claim), winner l = some w → w ∈ l ∧ ∀ c ∈ l, w.beats c
  | [], _, h => nomatch h
  | a :: l, w, h => by
    rw [winner] at h
    split at h
    · rename_i hl
      cases h
      rw [winner_eq_none.mpr hl]
      exact ⟨List.mem_singleton_self a, fun c hc => List.mem_singleton.mp hc ▸ a.beats_self⟩
    · rename_i b hl
      obtain ⟨hmem, hall⟩ := winner_spec l b hl
      split at h
      · rename_i hab
        cases h
        have hbeat : a.beats b := by
          simp only [Bool.or_eq_true, Bool.and_eq_true, decide_eq_true_eq, beq_iff_eq] at hab
          unfold Claim.beats
          omega
        exact ⟨List.mem_cons_self, List.forall_mem_cons.mpr ⟨a.beats_self, fun c hc => Claim.beats_trans hbeat (hall c hc)⟩⟩
      · rename_i hab
        cases h
        have hbeat : w.beats a := by
          simp only [Bool.or_eq_true, Bool.and_eq_true, decide_eq_true_eq, beq_iff_eq] at hab
          unfold Claim.beats
          omega
        exact ⟨List.mem_cons_of_mem a hmem, List.forall_mem_cons.mpr ⟨hbeat, hall⟩⟩

theorem claims_electionWinner : Claims.ElectionWinner := fun l => ⟨winner_eq_none, winner_spec l⟩

end Sys2Proof.Machine

open Sys2Proof Sys2Proof.Machine

/-- Settles O43: `heard_of_settled` gives the state that a packet finds, `queuePacket`'s rows say what it does. -/
theorem packetsArrive : Obligations.PacketsArrive := ⟨claims_packetArrivals, claims_acceptanceAppends⟩

/-- Settles O44: the rows of `doClaim` and `ownerOnly`, one owner for all who are told, and the order of claims. -/
theorem ownership : Obligations.Ownership := ⟨claims_ownershipSteps, claims_ownershipEnds, claims_electionWinner⟩
end

section
/-! Breakpoints, monitors and control blocks (18 R239, R243 to R246; 19 R260, R261), O45: when the steps are enabled, what a failing monitor
does, and the registers by number. -/
namespace Sys2Proof.Machine

/-! ### Breakpoints and monitors -/

theorem exec_brkaWrite_reached {s : State} {c n : Nat} (h : s.Reached) (hn : n < 4) (hp : (s.cluster (clusterOf (coreOf c))).part.isSome)
    (v : Word64) : exec (.brkaWrite c n v) s = .next (s.hear.updCtx c fun x =>
      if x.run = .stopped ∨ x.run = .stopping then { x with brkaNew := x.brkaNew ++ [(n, v &&& 0x8FFFFFFFFFFFFFF0)] }
      else { x with brka := Tab.set 0 x.brka n (v &&& 0x8FFFFFFFFFFFFFF0) }) := by
  have enabled : s.canBrka c n = true := by
    rw [State.canBrka, h.ownerReaches_eq, hp, decide_eq_true hn]
    rfl
  refine (event_on enabled _).trans ?_
  simp only [Ctx.writeBrka, Bool.or_eq_true, decide_eq_true_eq]
  rfl

theorem exec_monitorWrite_reached {s : State} {p n : Nat} (h : s.Reached) (hon : (s.part p).on = true) (hn : n < 16) (d0 d1 : Word64) :
    exec (.monitorWrite p n d0 d1) s =
      .next (s.hear.updPart p fun x => { x with mons := Tab.upd {} x.mons n fun y => s.newMonitor p y d0 d1 }) :=
  event_on (by rw [h.ownerReaches_eq, hon, decide_eq_true hn]; rfl) _

/-- The monitors of a partition before `n` have acted on this cycle's sample. -/
def Part.FirstToAct (x : Part) (n : Nat) : Prop := ∀ a ∈ x.mons, a.1 < n → a.2.en = true → a.2.turned = false

theorem monTurned_of {s : State} {p n : Nat} {failing : Bool} (hon : (s.part p).on = true) (hen : (Tab.get {} (s.part p).mons n).en = true)
    (hturned : (Tab.get {} (s.part p).mons n).turned = true) (hfail : (Tab.get {} (s.part p).mons n).failing = failing)
    (hfirst : (s.part p).FirstToAct n) : s.monTurned p n failing = true := by
  have none : ((s.part p).mons.any fun a => a.1 < n && a.2.en && a.2.turned) = false := by
    rw [List.any_eq_false]
    intro a ha h
    simp only [Bool.and_eq_true, decide_eq_true_eq] at h
    obtain ⟨⟨hlt, he⟩, ht⟩ := h
    rw [hfirst a ha hlt he] at ht
    cases ht
  simp only [State.monTurned, hon, hen, hturned, hfail, none, beq_self_eq_true]
  rfl

/-- A monitor that enters failure. -/
def Monitor.fail (m : Monitor) : Monitor := { m with d0 := if m.fails = 65535 then m.d0 else m.d0 + 1, failing := true, turned := false }

theorem failMonitor_acts {s : State} {p n : Nat} (h : (Tab.get {} (s.part p).mons n).act ≠ 5) :
    s.failMonitor p n = s.updPart p fun x => { x with
      mons := Tab.set {} x.mons n (Tab.get {} (s.part p).mons n).fail
      ringActs := if (Tab.get {} (s.part p).mons n).act = 1 ∨ (Tab.get {} (s.part p).mons n).act = 2 ∨
        (Tab.get {} (s.part p).mons n).act = 4 then x.ringActs ++ [(Tab.get {} (s.part p).mons n).act] else x.ringActs } := by
  simp only [State.failMonitor, if_neg h, Bool.or_eq_true, decide_eq_true_eq, or_assoc]
  rfl

/-- Stopping contexts at their next boundary changes only the table of contexts. -/
def State.haltAll (s : State) (l : List (Nat × Ctx)) : State := l.foldl (fun u x => u.updCtx x.1 fun y => { y with halt := true }) s

theorem haltAll_eq (l : List (Nat × Ctx)) (s : State) : s.haltAll l = { s with ctxs := (s.haltAll l).ctxs } :=
  List.foldlRecOn (motive := fun t : State => t = { s with ctxs := t.ctxs }) l _ rfl fun t ht x _ => by
    rw [ht]
    rfl

theorem ctx_updHalt (s : State) (c j : Nat) :
    (s.updCtx c fun y => { y with halt := true }).ctx j = if j = c then { s.ctx c with halt := true } else s.ctx j :=
  get_set_of_ne_default (fun h => by cases congrArg Ctx.halt h) ..

theorem ctx_haltAll (l : List (Nat × Ctx)) (s : State) (j : Nat) :
    (s.haltAll l).ctx j = if j ∈ l.map Prod.fst then { s.ctx j with halt := true } else s.ctx j := by
  induction l generalizing s with
  | nil => simp [State.haltAll]
  | cons x l ih =>
    rw [State.haltAll, List.foldl_cons, ← State.haltAll, ih, List.map_cons]
    have hstep := ctx_updHalt s x.1 j
    by_cases hx : j = x.1
    · rw [if_pos hx, ← hx] at hstep
      rw [hx, if_pos List.mem_cons_self, ← hx, hstep]
      split <;> rfl
    · rw [if_neg hx] at hstep
      rw [hstep]
      simp only [List.mem_cons, hx, false_or]

/-- R246: the contexts that a debug monitor of a partition stops. -/
def Ctx.Stops (x : Ctx) (p : Nat) : Prop :=
  x.share.lpart = p ∧ (x.run = .running ∨ (x.run = .finishing ∧ x.handler.isSome) ∨ ∃ k, x.run = .between k)

theorem haltable_iff {x : Ctx} {p : Nat} : x.haltable p = true ↔ x.Stops p := by
  have between : (match x.run with | .between _ => true | _ => false) = true ↔ ∃ k, x.run = .between k := by
    cases x.run <;> simp
  simp only [Ctx.haltable, Ctx.Stops, Ctx.part, Ctx.alive, Bool.and_eq_true, Bool.or_eq_true, beq_iff_eq, or_assoc]
  exact and_congr_right fun _ => or_congr_right (or_congr_right between)

theorem default_not_haltable (p : Nat) : Ctx.haltable {} p = false := by
  rw [Ctx.haltable]
  exact Bool.and_false _

/-- In a canonical table the contexts that stop are those that are listed and would. -/
theorem mem_haltable {s : State} (h : Tab.wf {} s.ctxs = true) (p j : Nat) :
    j ∈ (s.ctxs.filter fun x => x.2.haltable p).map Prod.fst ↔ (s.ctx j).Stops p := by
  rw [← haltable_iff, List.mem_map]
  constructor
  · rintro ⟨⟨c, x⟩, hx, rfl⟩
    obtain ⟨hmem, hx⟩ := List.mem_filter.mp hx
    rw [State.ctx, get_of_mem h hmem]
    exact hx
  · intro hj
    have listed : s.ctx j ≠ {} := fun h => by
      rw [h, default_not_haltable] at hj
      cases hj
    exact ⟨(j, s.ctx j), List.mem_filter.mpr ⟨mem_of_get rfl listed, hj⟩, rfl⟩

theorem claims_debugSteps : Claims.DebugSteps := by
  intro c n p v d0 d1 s t b m first
  refine ⟨fun hr hn hp => exec_brkaWrite_reached hr hn hp v, fun hr hon hn => exec_monitorWrite_reached hr hon hn d0 d1,
    fun hon hen hturned hfail hfirst hact => ?_, fun hon hen hturned hfail hfirst hact hs => ?_,
    fun hon hen hturned hfail hfirst => event_on (monTurned_of hon hen hturned hfail hfirst) _⟩
  · exact (event_on (monTurned_of hon hen hturned hfail hfirst) _).trans (congrArg _ (failMonitor_acts hact))
  · intro u
    have hu : (s.updPart p fun x => { x with
        mons := Tab.set {} x.mons n m.fail
        ringActs := if m.act = 1 || m.act = 2 || m.act = 4 then x.ringActs ++ [m.act] else x.ringActs }) = u := by
      rw [hact]
      rfl
    have hfailed : s.failMonitor p n = (u.haltAll (u.ctxs.filter fun x => x.2.haltable p)).notify evDebug p 0 0 [BitVec.ofNat 64 n] := by
      rw [← hu]
      exact if_pos hact
    refine ⟨u.haltAll (u.ctxs.filter fun x => x.2.haltable p), (event_on (monTurned_of hon hen hturned hfail hfirst) _).trans
      (congrArg _ hfailed), haltAll_eq _ u, fun j => ?_⟩
    have hj := ctx_haltAll (u.ctxs.filter fun x => x.2.haltable p) u j
    have hstops := mem_haltable (s := u) hs.ctxs p j
    exact ⟨fun hruns => hj.trans (if_pos (hstops.mpr hruns)), fun hruns => hj.trans (if_neg fun h => hruns (hstops.mp h))⟩

/-! ### Registers -/

theorem exec_registerWrite_reached {s : State} {block reg : Nat} (h : s.Reached) (hreg : s.hasReg block reg = true) (v : Word64) :
    exec (.registerWrite block reg v) s = .next (s.hear.doRegister block reg v) :=
  event_on (by rw [h.ownerReaches_eq, hreg]; rfl) _

/-- A plain register of a partition that is configured. -/
theorem exec_partRegister {s : State} {p reg : Nat} (h : s.Reached) (hp : p < 8) (hon : (s.part p).on = true)
    (hreg : reg < 9 ∨ (reg = 10 ∧ (s.part p).logOn = false) ∨ (16 ≤ reg ∧ reg < 64)) (v : Word64) :
    exec (.registerWrite p reg v) s = .next (s.hear.updPart p fun x => x.writeReg reg v) := by
  have hhas : s.hasReg p reg = true := by
    rw [State.hasReg, if_pos hp, hon, Bool.true_and]
    rcases hreg with h | ⟨rfl, h⟩ | ⟨h1, h2⟩
    · simp [h]
    · simp [h]
    · simp [h1, h2]
  have hlow : reg < 1024 := by omega
  rw [exec_registerWrite_reached h hhas, State.doRegister, if_neg (by omega), if_pos hlow]

/-- The watchdog limits of a queue. -/
theorem writeReg_queue (x : Part) {reg : Nat} (h : 16 ≤ reg) (v : Word64) :
    x.writeReg reg v = { x with queues := Tab.upd {} x.queues ((reg - 16) / 3) fun q =>
      match (reg - 16) % 3 with
      | 0 => { q with lim1 := v.toNat }
      | 1 => { q with lim2 := v.toNat }
      | _ => { q with lim3 := v.toNat } } := by
  obtain ⟨r, rfl⟩ := Nat.exists_eq_add_of_le' h
  rfl

theorem claims_registerWrites : Claims.RegisterWrites := by
  intro p q k v s hr hp hon hq t part field
  have plain : ∀ {reg : Nat}, reg < 9 → exec (.registerWrite p reg v) s = .next (s.hear.updPart p fun x => x.writeReg reg v) :=
    fun h => exec_partRegister hr hp hon (.inl h) v
  have limit : ∀ j, j < 3 → exec (.registerWrite p (16 + j + 3 * q) v) s =
      .next (s.hear.updPart p fun x => x.writeReg (16 + j + 3 * q) v) :=
    fun j hj => exec_partRegister hr hp hon (.inr (.inr ⟨by omega, by omega⟩)) v
  have place : ∀ j, j < 3 → (16 + j + 3 * q - 16) / 3 = q ∧ (16 + j + 3 * q - 16) % 3 = j := fun j hj => by omega
  refine ⟨plain (by decide), plain (by decide), plain (by decide), plain (by decide), plain (by decide), plain (by decide),
    plain (by decide), fun hlog => exec_partRegister hr hp hon (.inr (.inl ⟨rfl, hlog⟩)) v, ?_, ?_, ?_, fun hk => ?_, ?_, ?_⟩
  · obtain ⟨hdiv, hmod⟩ := place 0 (by decide)
    refine (limit 0 (by decide)).trans ?_
    simp only [writeReg_queue _ (show 16 ≤ 16 + 0 + 3 * q by omega), hdiv, hmod]
    rfl
  · obtain ⟨hdiv, hmod⟩ := place 1 (by decide)
    refine (limit 1 (by decide)).trans ?_
    simp only [writeReg_queue _ (show 16 ≤ 16 + 1 + 3 * q by omega), hdiv, hmod]
    rfl
  · obtain ⟨hdiv, hmod⟩ := place 2 (by decide)
    refine (limit 2 (by decide)).trans ?_
    simp only [writeReg_queue _ (show 16 ≤ 16 + 2 + 3 * q by omega), hdiv, hmod]
    rfl
  · have hcore : (1026 + 4 * k - 1024) / 4 = k ∧ (1026 + 4 * k) % 4 = 2 := by omega
    have hhas : s.hasReg p (1026 + 4 * k) = true := by
      rw [State.hasReg, if_pos hp, hon, hcore.1, hcore.2, hk, decide_eq_true (show 1024 ≤ 1026 + 4 * k by omega)]
      simp
    rw [exec_registerWrite_reached hr hhas, State.doRegister, if_neg (by omega), if_neg (by omega), hcore.1, hcore.2]
    rfl
  · exact exec_registerWrite_reached hr rfl v
  · exact exec_registerWrite_reached hr rfl v

/-- A read of a register by a participant while the ports work. -/
theorem step_readRegister {src block reg : Nat} {rest : List Turn} {s : State} {v : Word64}
    (hs : s.agenda = .readRegister src block reg :: rest) (halarm : s.alarm = none) {t : State}
    (ht : ({ s with agenda := rest } : State).hearSrc src = t) (hv : t.readRegister block reg = some v) :
    step s = .next { t with replies := t.replies ++ [{ dest := src, bytes := bytesOf 8 v.toNat }] } := by
  have hmove : step s = ({ s with agenda := rest } : State).sendRegister src block reg := by
    rw [step, State.move, hs]
    rfl
  rw [hmove, State.sendRegister, ht, hv, show ({ s with agenda := rest } : State).alarm = none from halarm]
  rfl

theorem claims_registerReads : Claims.RegisterReads := by
  intro src p block reg rest s e hs halarm he t answer
  have ht : ({ s with agenda := rest } : State).hearSrc src = t := hearSrc_of_settled he src
  have same := hearSrc_sameDevice { s with agenda := rest } src
  rw [ht] at same
  have hpart : t.part p = s.part p := same.part p
  have hlease : t.owner.lease = s.owner.lease := same.lease
  clear_value t
  have device : ∀ {v : Word64} {n : Nat}, block = 8 → reg < 5 → t.readDevice reg = v → v.toNat = n → answer n := by
    rintro v n rfl hreg hv rfl
    refine step_readRegister hs halarm ht ?_
    have hhas : t.readable 8 reg = true := by
      rw [State.readable, State.hasReg]
      by_cases hlow : reg < 3
      · simp [hlow]
      · simp [Nat.le_of_not_lt hlow, hreg]
    rw [State.readRegister, hhas, if_neg (by decide), if_pos rfl, hv]
  refine ⟨fun hp hon hb hreg => ?_, fun hb hreg => ?_, fun hb hreg => ?_, fun hb hreg => ?_⟩
  · subst hb hreg
    refine step_readRegister hs halarm ht ?_
    have hhas : t.readable block 0 = true := by
      rw [State.readable, State.hasReg, if_pos hp, hpart, hon]
      rfl
    rw [State.readRegister, hhas, if_neg (by decide), if_neg (by omega), if_pos (by decide), hpart]
    rfl
  · subst hreg
    exact device hb (by decide) rfl (by rw [← hlease]; exact BitVec.toNat_ofNat ..)
  · subst hreg
    refine device hb (by decide) rfl ?_
    cases h : t.owner.id with
    | none => simp [State.readDevice, h]
    | some o => simp [State.readDevice, h]
  · subst hreg
    exact device hb (by decide) rfl (BitVec.toNat_ofNat ..)

end Sys2Proof.Machine

open Sys2Proof Sys2Proof.Machine

/-- Settles O45: the steps by `event_on`, the contexts that a debug monitor stops by `ctx_haltAll`, the registers by number. -/
theorem debugAndControlBlocks : Obligations.DebugAndControlBlocks := ⟨claims_debugSteps, claims_registerWrites, claims_registerReads⟩
end

section
/-! Live service, the alarm and a device reset (19 R264 to R267), O46. -/
namespace Sys2Proof.Machine

/-! ### Operations of live service (R265) -/

section Services
variable {s : State}

theorem askService_free {o : Service} (h : ∀ q ∈ s.services, q.kind ≠ o.kind) : s.askService o = s.startService o := by
  refine if_neg fun h' => ?_
  obtain ⟨q, hq, hk⟩ := List.any_eq_true.mp h'
  exact h q hq (eq_of_beq hk)

theorem askService_waits {o : Service} (h : ¬ ∀ q ∈ s.services, q.kind ≠ o.kind) :
    s.askService o = { s with queuedServices := s.queuedServices ++ [o] } := by
  refine if_pos (List.any_eq_true.mpr ?_)
  simp only [ne_eq, not_forall, Decidable.not_not] at h
  obtain ⟨q, hq, hk⟩ := h
  exact ⟨q, hq, beq_iff_eq.mpr hk⟩

/-- What is asked for while the owner reaches the device. -/
theorem exec_service {i : Instr} {o : Service} {ok : Bool} (e : exec i s = event (s.ownerReaches && ok) (s.hear.askService o))
    (h : s.Reached) (hok : ok = true) :
    ((∀ q ∈ s.services, q.kind ≠ o.kind) → exec i s = .next (s.hear.startService o)) ∧
      ((¬ ∀ q ∈ s.services, q.kind ≠ o.kind) →
        exec i s = .next { s.hear with queuedServices := s.hear.queuedServices ++ [o] }) := by
  have enabled : exec i s = .next (s.hear.askService o) := by
    rw [e]
    exact event_on (by rw [h.ownerReaches_eq, hok]; rfl) _
  exact ⟨fun hf => enabled.trans (congrArg _ (askService_free hf)), fun hf => enabled.trans (congrArg _ (askService_waits hf))⟩

theorem nextService_none {kind : Nat} (h : ∀ a ∈ s.queuedServices, a.kind ≠ kind) : s.nextService kind = s := by
  have hnone : (s.queuedServices.findIdx? fun q => q.kind == kind) = none :=
    List.findIdx?_eq_none_iff.mpr fun a ha => beq_false_of_ne (h a ha)
  rw [State.nextService, hnone]

/-- The first request of the kind that waits starts. -/
theorem nextService_first {kind : Nat} {before after : List Service} {next : Service}
    (hq : s.queuedServices = before ++ next :: after) (hb : ∀ a ∈ before, a.kind ≠ kind) (hn : next.kind = kind) :
    s.nextService kind = { s with queuedServices := before ++ after }.startService next := by
  have hfind : (s.queuedServices.findIdx? fun q => q.kind == kind) = some before.length := by
    rw [hq, List.findIdx?_append, List.findIdx?_eq_none_iff.mpr fun a ha => beq_false_of_ne (hb a ha), List.findIdx?_cons, hn]
    simp
  have hget : s.queuedServices[before.length]? = some next := by
    rw [hq]
    simp
  have herase : s.queuedServices.eraseIdx before.length = before ++ after := by
    rw [hq]
    simp [List.eraseIdx_append_of_length_le]
  simp only [State.nextService, hfind, hget, herase]

theorem notify_queuedServices (k p c t : Nat) (b : List Word64) : (s.notify k p c t b).queuedServices = s.queuedServices := by
  unfold State.notify State.sendTo
  split
  · split <;> rfl
  · split <;> rfl

theorem endService_queuedServices (o : Service) : (s.endService o).queuedServices = s.queuedServices := by
  unfold State.endService
  cases o with
  | firmware p image =>
    dsimp only
    split
    · rfl
    · exact notify_queuedServices ..
  | vault v => rfl
  | port n => rfl

end Services

/-! ### A partition on a rectangle (R17, R154) -/

/-- Steps over a list that keep the cycle. -/
theorem foldl_cycle {α : Type} {f : State → α → State} (h : ∀ t a, (f t a).cycle = t.cycle) (l : List α) (s : State) :
    (l.foldl f s).cycle = s.cycle :=
  List.foldlRecOn (motive := fun t : State => t.cycle = s.cycle) l f rfl fun t ht a _ => (h t a).trans ht

section Cycle
variable (s : State)

theorem ite_cycle {c : Prop} [Decidable c] {t u : State} (ht : t.cycle = s.cycle) (hu : u.cycle = s.cycle) :
    (if c then t else u).cycle = s.cycle := by
  split
  · exact ht
  · exact hu

theorem vaultCommit_cycle (i : Inst) (l : List (Nat × Byte)) : (s.vaultCommit i l).cycle = s.cycle := by
  unfold State.vaultCommit
  exact ite_cycle s rfl rfl

theorem carryPoison_cycle (k : Nat) (l : List Nat) : (s.carryPoison k l).cycle = s.cycle := by
  unfold State.carryPoison
  exact ite_cycle s rfl rfl

theorem flushAt_cycle (l : List Nat) : (s.flushAt l).cycle = s.cycle := by
  unfold State.flushAt
  extract_lets locs
  split
  · rfl
  · refine (foldl_cycle (fun t (a : Nat × List Nat) => carryPoison_cycle t a.1 a.2) _ _).trans ?_
    refine (vaultCommit_cycle ..).trans (foldl_cycle (fun t a => ?_) _ s)
    exact ite_cycle t rfl rfl

theorem deviceCommit_cycle (i : Inst) (l : List (Nat × Byte)) : (s.deviceCommit i l).cycle = s.cycle :=
  (vaultCommit_cycle (s.flushAt (l.map Prod.fst)) i l).trans (flushAt_cycle ..)

theorem updSlot_cycle (r n : Nat) (f : VSlot → VSlot) : (s.updSlot r n f).cycle = s.cycle := by
  unfold State.updSlot
  split
  · rfl
  · exact deviceCommit_cycle ..

theorem settleSlot_cycle (r n : Nat) : (s.settleSlot r n).cycle = s.cycle := by
  have counted : ∀ t : State, (t.countVersion r).cycle = t.cycle := fun t => by
    unfold State.countVersion
    split <;> rfl
  unfold State.settleSlot
  split
  · rfl
  · exact ite_cycle s ((counted _).trans (updSlot_cycle ..)) rfl

theorem unpin_cycle (r v : Nat) : (s.unpin r v).cycle = s.cycle := by
  unfold State.unpin
  split
  · exact (settleSlot_cycle ..).trans (updSlot_cycle ..)
  · rfl

theorem releasePins_cycle (x : Ctx) : (s.releasePins x).cycle = s.cycle := by
  unfold State.releasePins
  split
  · rfl
  · rename_i r _
    have first : ((s.atRegion r).unpin r x.vpin).cycle = s.cycle := (unpin_cycle ..).trans (flushAt_cycle ..)
    dsimp only
    split
    · exact ite_cycle s first ((unpin_cycle ..).trans first)
    · exact first

theorem unclaim_cycle (k : Kernel) : (s.unclaim k).cycle = s.cycle := by
  have lines : ∀ l : List Nat, (l.foldl (fun t j =>
      if (t.cluster j).line.holder == some k.id then t.updCluster j fun y => { y with line := {} } else t) s).cycle = s.cycle :=
    fun l => by
      refine foldl_cycle (fun t j => ?_) l s
      exact ite_cycle t rfl rfl
  unfold State.unclaim
  extract_lets t u
  have ht : t.cycle = s.cycle := lines _
  have hu : u.cycle = s.cycle := ite_cycle s ht ht
  refine ite_cycle s ((foldl_cycle (fun t c => ?_) _ u).trans hu) hu
  rfl

theorem killKernel_cycle (k : Kernel) : (s.killKernel k).cycle = s.cycle := by
  unfold State.killKernel
  extract_lets here t t2 gone t3 t4
  have ht : t.cycle = s.cycle := foldl_cycle (fun t c => releasePins_cycle t _) _ s
  have ht2 : t2.cycle = s.cycle := by
    refine (foldl_cycle (fun t c => ?_) _ t).trans ht
    rfl
  exact (unclaim_cycle t4 k).trans ht2

end Cycle

/-- Steps over a list that give each of its clusters to a partition. -/
def State.giveClusters (s : State) (p : Nat) (l : List Nat) : State :=
  l.foldl (fun t k => t.updCluster k fun c => { c with part := some p, tlb := [], dict := [], line := {} }) s

theorem cluster_giveClusters (p : Nat) (l : List Nat) (s : State) (j : Nat) (h : j ∈ l ∨ ((s.cluster j).part = some p ∧ (s.cluster j).tlb = [])) :
    ((s.giveClusters p l).cluster j).part = some p ∧ ((s.giveClusters p l).cluster j).tlb = [] := by
  induction l generalizing s with
  | nil => exact h.resolve_left List.not_mem_nil
  | cons k l ih =>
    have hstep := get_set_of_ne_default (d := ({} : Cluster)) (x := { s.cluster k with part := some p, tlb := [], dict := [], line := {} })
      (fun h => by cases congrArg Cluster.part h) s.clusters k j
    refine ih _ ?_
    by_cases hj : j = k
    · rw [if_pos hj] at hstep
      exact .inr ⟨congrArg Cluster.part hstep, congrArg Cluster.tlb hstep⟩
    · rw [if_neg hj] at hstep
      refine h.imp (fun h => (List.mem_cons.mp h).resolve_left hj) fun h => ?_
      exact ⟨(congrArg Cluster.part hstep).trans h.1, (congrArg Cluster.tlb hstep).trans h.2⟩

/-- The state in which a dead partition's kernels have been killed and its copies abandoned. -/
def State.cleared (s : State) (p : Nat) : State :=
  let t := (s.kernels.filter fun k => k.part == p).foldl State.killKernel s
  let copies := t.engines.filter fun e => e.copy.any fun c => c.1 == p
  { t with
    engines := t.engines.filter fun e => !copies.contains e
    walksWaiting := t.walksWaiting.filter fun (w : Walk) => !copies.any fun e => w.who == Asker.engine e.id }

theorem cleared_cycle (s : State) (p : Nat) : (s.cleared p).cycle = s.cycle := foldl_cycle (fun t k => killKernel_cycle t k) _ s

/-- An empty partition has no kernel to kill. -/
theorem cleared_dram {s : State} {p : Nat} (h : s.partEmpty p = true) : (s.cleared p).dram = s.dram := by
  have none : (s.kernels.filter fun k => k.part == p) = [] := by
    rw [State.partEmpty, Bool.and_eq_true, Bool.not_eq_true', List.any_eq_false] at h
    exact List.filter_eq_nil_iff.mpr h.1
  simp only [State.cleared, none]
  rfl

/-- The clusters of the old rectangle belong to no partition. -/
def State.freeClusters (s : State) (l : List Nat) : State := l.foldl (fun t k => t.updCluster k fun c => { c with part := none }) s

theorem foldl_dram {α : Type} {f : State → α → State} (h : ∀ t a, (f t a).dram = t.dram) (l : List α) (s : State) :
    (l.foldl f s).dram = s.dram :=
  List.foldlRecOn (motive := fun t : State => t.dram = s.dram) l f rfl fun t ht a _ => (h t a).trans ht

theorem foldl_clusters {α : Type} {f : State → α → State} (h : ∀ t a, (f t a).clusters = t.clusters) (l : List α) (s : State) :
    (l.foldl f s).clusters = s.clusters :=
  List.foldlRecOn (motive := fun t : State => t.clusters = s.clusters) l f rfl fun t ht a _ => (h t a).trans ht

/-- What a configured partition's clusters hold, where its rectangle is not empty, and memory. -/
theorem configure_spec (s : State) (p x y w h pbase : Nat) :
    (0 < w → 0 < h → (s.configure p x y w h pbase).part p = { on := true, x, y, w, h, pbase, since := s.cycle } ∧
      ∀ j ∈ rectangle x y w h, ((s.configure p x y w h pbase).cluster j).part = some p ∧
        ((s.configure p x y w h pbase).cluster j).tlb = []) ∧
      (s.partEmpty p = true → (s.configure p x y w h pbase).dram = s.dram) := by
  let a := s.cleared p
  let b := a.freeClusters ((a.part p).clusters.filter fun _ => (a.part p).on)
  let c := b.giveClusters p (rectangle x y w h)
  let d := (coresOf (rectangle x y w h)).foldl (fun t c => t.updCore c fun k => { k with tlb := [] }) c
  let e : State := { d with vlend := d.vlend.filter fun v => !(rectangle x y w h).contains (clusterOf v.1) }
  have hconf : s.configure p x y w h pbase =
      e.setPart p (if (rectangle x y w h).isEmpty then {} else { on := true, x, y, w, h, pbase, since := a.cycle }) := rfl
  have hclusters : d.clusters = c.clusters := by
    refine foldl_clusters (fun t k => ?_) _ c
    rfl
  have hdram : d.dram = a.dram := by
    refine (foldl_dram (fun t k => ?_) _ c).trans ((foldl_dram (fun t k => ?_) _ b).trans (foldl_dram (fun t k => ?_) _ a)) <;> rfl
  rw [hconf]
  refine ⟨fun hw hh => ⟨?_, fun j hj => ?_⟩, fun hempty => ?_⟩
  · have hsome : (rectangle x y w h).isEmpty = false := by
      have corner : 4 * (y + 0) + x + 0 ∈ rectangle x y w h :=
        List.mem_flatMap.mpr ⟨0, List.mem_range.mpr hh, List.mem_map.mpr ⟨0, List.mem_range.mpr hw, rfl⟩⟩
      cases hr : rectangle x y w h with
      | nil => exact absurd (hr ▸ corner) List.not_mem_nil
      | cons => rfl
    rw [hsome, cleared_cycle]
    have hne : ({ on := true, x, y, w, h, pbase, since := s.cycle } : Part) ≠ {} := fun h => by cases congrArg Part.on h
    exact (get_set_of_ne_default hne e.parts p p).trans (if_pos rfl)
  · have hgiven := cluster_giveClusters p (rectangle x y w h) b j (.inl hj)
    rw [State.cluster, show (e.setPart p _).clusters = c.clusters from hclusters]
    exact hgiven
  · exact hdram.trans (cleared_dram hempty)

/-! ### The claims -/

theorem claims_serviceSteps : Claims.ServiceSteps := by
  intro p k n x y w h pbase image s hr t free wait start
  refine ⟨fun hon => ?_, fun hn => ?_, fun hn => ?_, fun o ho hdrained => ?_, fun hmay hs => ?_, fun hk => ?_⟩
  · exact exec_service (o := .firmware p image) rfl hr hon
  · exact exec_service (o := .vault n) rfl hr (decide_eq_true hn)
  · exact exec_service (o := .port n) rfl hr (decide_eq_true hn)
  · intro u ended
    have hend : s.canEndService n = true := by
      rw [State.canEndService, ho]
      cases o with
      | firmware q i => exact congrArg not (hdrained q i rfl)
      | vault v => rfl
      | port m => rfl
    have hended : u.endService o = ended := by cases o <;> rfl
    have hqueued : ended.queuedServices = s.queuedServices := by
      rw [← hended, endService_queuedServices]
    have hexec : exec (.liveServiceOperationComplete n) s = .next (ended.nextService o.kind) := by
      refine (event_on hend _).trans ?_
      rw [State.completeService, ho]
      exact congrArg (fun v : State => Host.Outcome.next (v.nextService o.kind)) hended
    refine ⟨fun hnone => ?_, fun before next after hq hbefore hnext => ?_⟩
    · rw [hexec, nextService_none (hqueued.symm ▸ hnone)]
    · rw [hexec, nextService_first (hqueued.trans hq) hbefore hnext]
      rfl
  · obtain ⟨hplace, hmem⟩ := configure_spec s.hear p x y w h pbase
    refine ⟨_, (event_on hr.ownerReaches_eq _).trans (congrArg _ (if_pos hmay)), hplace, hmem⟩
  · refine (event_on ?_ _).trans rfl
    rw [hr.ownerReaches_eq, Bool.true_and]
    exact decide_eq_true hk

/-- R264: what the alarm makes of a context. -/
def Ctx.alarmed (x : Ctx) : Ctx := match x.run with | .free => x | _ => { x with run := .stopped, preempt := false }

theorem alarmed_run (x : Ctx) : x.alarmed.run = if x.run = .free then .free else .stopped := by
  unfold Ctx.alarmed
  cases h : x.run <;> simp [h]

theorem get_alarmed (t : Tab Ctx) (c : Nat) : Tab.get {} (t.map fun a => (a.1, a.2.alarmed)) c = (Tab.get {} t c).alarmed := by
  induction t with
  | nil => rfl
  | cons a t ih =>
    simp only [List.map_cons, Tab.get]
    split
    · rfl
    · exact ih

theorem claims_deviceSteps : Claims.DeviceSteps := by
  intro cause s
  refine ⟨fun halarm hc => ?_, ⟨s.restart, event_on rfl _, rfl, rfl, rfl, rfl, rfl, rfl, rfl, rfl, rfl, rfl, rfl, rfl, rfl⟩, fun hp => ?_,
    fun hp => event_on hp _⟩
  · refine ⟨s.raiseAlarm cause, event_on (by rw [halarm, decide_eq_true hc]; rfl) _, rfl, ?_, rfl, ?_, fun c => ?_⟩
    · simp only [State.raiseAlarm, State.sendTo, halarm]
      rfl
    · simp only [State.raiseAlarm, State.sendTo, halarm]
      rfl
    · have hctx : (s.raiseAlarm cause).ctx c = (s.ctx c).alarmed := get_alarmed s.ctxs c
      rw [hctx, alarmed_run]
  · exact event_on (by rw [hp]; rfl) _

end Sys2Proof.Machine

open Sys2Proof Sys2Proof.Machine

/-- Settles O46: `exec_service` and `nextService_first` for live service, `configure_spec` for a partition, `get_alarmed` for the alarm. -/
theorem deviceAndService : Obligations.DeviceAndService := ⟨claims_serviceSteps, claims_deviceSteps⟩
end

section
/-! Loads of global memory and prefetches (21 R300, R301, R309; 09 R157, R166), O10. -/
namespace Sys2Proof.Machine

/-! ### Effective addresses (R70, R301) -/

section Addresses
variable {s : State}

theorem toNat_imm6 (s : State) (imm : BitVec 6) : s.imm6 imm = ofSigned 64 (s.offset31 imm) := by
  unfold State.imm6 State.offset31
  cases s.slot.lend.ext with
  | none => rw [signExtend, toSigned_toNat]
  | some e => exact congrArg (ofSigned 64) (toSigned_extended (m := 25) e imm)

/-- A base plus a signed offset of 64 bits in units of `z` bytes. -/
theorem effective_eq (s : State) (base : BitVec 6) (off : Int) (z : Nat) :
    (s.sa base.toNat + ofSigned 64 off * z) % 2 ^ 64 = s.effective base off z := by
  rw [State.effective, BitVec.toNat_add, toNat_sa, BitVec.ofInt_mul, BitVec.toNat_mul, ← ofNat_ofSigned, BitVec.toNat_ofNat,
    Nat.mod_eq_of_lt (ofSigned_lt ..), BitVec.ofInt_natCast, BitVec.toNat_ofNat]
  simp only [Nat.add_mod_mod, Nat.mul_mod_mod]

theorem address_eq (s : State) (base imm : BitVec 6) (z : Nat) : s.address base imm z = s.effective base (s.offset31 imm) z := by
  rw [State.address, toNat_imm6, effective_eq]

theorem addressLd_eq (s : State) (base imm : BitVec 6) (z : Nat) :
    s.addressLd base imm z = s.effective base (s.offset24 imm) z := by
  rw [← effective_eq, State.addressLd, State.offset24]
  cases s.slot.lend.ext with
  | none => simp only [signExtend, toSigned_toNat]
  | some e => exact congrArg (fun off => (s.sa base.toNat + ofSigned 64 off * z) % 2 ^ 64) (toSigned_extended (m := 18) (e / 128) imm)

end Addresses

/-! ### LD and LDR -/

section Loads
variable {s t : State}

/-- A result of variable latency, posted in a state that agrees with the slot and the context of the state at issue. -/
theorem post_variable (hr : s.Room 1) (hslot : t.slot = s.slot) (hctx : t.ctxs = s.ctxs) (m : ASize) (d v lat a about : Nat)
    (late : Option Raised) :
    t.post [(s.loadResult m d v lat).variable a about (late.map fun q => { q with pos := s.slot.pos, faddr := a })] =
      t.withResults [(s.resultOf 0 (destFile s (dataFile m) d) d (BitVec.ofNat 128 (s.loadBen m)) (BitVec.ofNat 1024 v)
        (BitVec.ofNat 1024 v) lat).awaited a about (late.map fun q => { q with pos := s.slot.pos, faddr := a })] := by
  have hcur : t.cur = s.cur := by rw [State.cur, State.ctx, hslot, hctx]; rfl
  have room : t.Room 1 := by rw [State.Room, hcur]; exact hr
  rw [post_one room, hcur, hslot]
  refine congrArg (fun r => t.withResults [r]) ?_
  unfold Result.awaited State.resultOf
  cases s.slot.ecc <;> rfl

theorem cacheRead_slot (c loc : Nat) (h : Option Nat) : (s.cacheRead c loc h).1.slot = s.slot := by
  unfold State.cacheRead
  cases homeDpa loc with
  | none => rfl
  | some a =>
    dsimp only
    split <;> rfl

theorem cacheRead_ctxs (c loc : Nat) (h : Option Nat) : (s.cacheRead c loc h).1.ctxs = s.ctxs := by
  unfold State.cacheRead
  cases homeDpa loc with
  | none => rfl
  | some a =>
    dsimp only
    split <;> rfl

end Loads

section LoadBodies
variable {s : State} {d : BitVec 6} {m : ASize} {a : Nat} {r : Raised} {k : Reach}

theorem ldAt_misaligned (h : a % m.bytes ≠ 0) : ldAt d m a s = s.raise .translation 2 a := if_pos h

theorem ldAt_refused (h : a % m.bytes = 0) (hk : s.resolve s.slot.ctx .read false a = .error r) :
    ldAt d m a s = s.raise r.cause r.cond r.faddr := by
  rw [ldAt, if_neg (not_not_intro h), hk]
  rfl

theorem ldAt_ok (hr : s.Room 1) (h : a % m.bytes = 0) (hk : s.resolve s.slot.ctx .read false a = .ok k) :
    let seen := State.cacheRead { s with fresh := s.fresh + 1 } s.slot.ctx k.loc (some s.hint)
    let v := ofBytes (s.viewBytes s.slot.ctx s.storeOrder k.ver k.loc m.bytes)
    ldAt d m a s = seen.1.withResults [(s.resultOf 0 (destFile s (dataFile m) d.toNat) d.toNat (BitVec.ofNat 128 (s.loadBen m))
      (BitVec.ofNat 1024 v) (BitVec.ofNat 1024 v) (if (homeDpa k.loc).isSome then 160 else 3072)).awaited a (s.cycle + seen.2)
      ((s.readFault s.slot.ctx s.storeOrder k.loc m.bytes).map fun q => { q with pos := s.slot.pos, faddr := a })] := by
  dsimp only
  rw [ldAt, if_neg (not_not_intro h), hk]
  exact post_variable (t := (State.cacheRead { s with fresh := s.fresh + 1 } s.slot.ctx k.loc (some s.hint)).1) hr (cacheRead_slot ..)
    (cacheRead_ctxs ..) m d.toNat _ _ a _ _

theorem ldrAt_misaligned (h : a % m.bytes ≠ 0) : ldrAt d m a s = s.raise .translation 2 a := if_pos h

theorem ldrAt_refused (h : a % m.bytes = 0) (hk : s.resolve s.slot.ctx .read false a = .error r) :
    ldrAt d m a s = s.raise r.cause r.cond r.faddr := by
  rw [ldrAt, if_neg (not_not_intro h), hk]
  rfl

theorem ldrAt_remote (hr : s.Room 1) (h : a % m.bytes = 0) (hk : s.resolve s.slot.ctx .read false a = .ok k)
    (hd : homeDpa k.loc = none) :
    let v := ofBytes (s.viewBytes s.slot.ctx s.storeOrder k.ver k.loc m.bytes)
    ldrAt d m a s = State.withResults { s with fresh := s.fresh + 1 } [(s.resultOf 0 (destFile s (dataFile m) d.toNat) d.toNat
      (BitVec.ofNat 128 (s.loadBen m)) (BitVec.ofNat 1024 v) (BitVec.ofNat 1024 v) 3072).awaited a (s.cycle + 3072)
      ((s.readFault s.slot.ctx s.storeOrder k.loc m.bytes).map fun q => { q with pos := s.slot.pos, faddr := a })] := by
  dsimp only
  rw [ldrAt, if_neg (not_not_intro h), hk]
  dsimp only
  rw [hd]
  exact post_variable (t := { s with fresh := s.fresh + 1 }) hr rfl rfl m d.toNat _ _ a _ _

theorem ldrAt_here (hr : s.Room 1) (h : a % m.bytes = 0) (hk : s.resolve s.slot.ctx .read false a = .ok k) {dpa : Nat}
    (hd : homeDpa k.loc = some dpa) :
    let bytes := s.readOnlyBytes s.slot.ctx dpa m.bytes
    let v := ofBytes bytes.1
    ldrAt d m a s = bytes.2.withResults [(s.resultOf 0 (destFile s (dataFile m) d.toNat) d.toNat (BitVec.ofNat 128 (s.loadBen m))
      (BitVec.ofNat 1024 v) (BitVec.ofNat 1024 v) 160).awaited a (s.cycle + 48)
      ((s.roError s.slot.ctx dpa m.bytes).map fun q => { q with pos := s.slot.pos, faddr := a })] := by
  dsimp only
  rw [ldrAt, if_neg (not_not_intro h), hk]
  dsimp only
  rw [hd]
  exact post_variable (t := (s.readOnlyBytes s.slot.ctx dpa m.bytes).2) hr rfl rfl m d.toNat _ _ a _ _

end LoadBodies

theorem withResults_raised (t : State) (rs : List Result) : (t.withResults rs).slot.raised = t.slot.raised := rfl

theorem claims_globalLoads : Claims.GlobalLoads := by
  intro g d base imm m s k r c result used
  constructor
  · intro i a read h hr
    have ports : portsOf i s.slot.lend = [] := ports_moulded h nofun nofun nofun nofun
    have e : exec i s = perform i s fun t => ldAt d m (t.addressLd base imm m.bytes) t := rfl
    have ha : s.addressLd base imm m.bytes = a := addressLd_eq ..
    refine ⟨fun hm => ?_, fun hm hk => ?_, fun hm hk => ?_⟩
    · exact e.trans (perform_trapped h ports (by rw [ha]; exact ldAt_misaligned hm))
    · exact e.trans (perform_trapped h ports (by rw [ha]; exact ldAt_refused hm hk))
    · refine e.trans ((perform_quiet h ports ?_).trans ?_)
      · rw [ha, ldAt_ok hr hm hk, withResults_raised, cacheRead_slot]
      · rw [ha, ldAt_ok hr hm hk]
  · intro i a read h hr
    have ports : portsOf i s.slot.lend = [] := ports_moulded h nofun nofun nofun nofun
    have e : exec i s = perform i s fun t => ldrAt d m (t.address base imm m.bytes) t := rfl
    have ha : s.address base imm m.bytes = a := address_eq ..
    refine ⟨fun hm => ?_, fun hm hk => ?_, fun hm hk hd => ?_, fun dpa hm hk hd => ?_⟩
    · exact e.trans (perform_trapped h ports (by rw [ha]; exact ldrAt_misaligned hm))
    · exact e.trans (perform_trapped h ports (by rw [ha]; exact ldrAt_refused hm hk))
    · refine e.trans ((perform_quiet h ports ?_).trans ?_)
      · rw [ha, ldrAt_remote hr hm hk hd, withResults_raised]
      · rw [ha, ldrAt_remote hr hm hk hd]
    · refine e.trans ((perform_quiet h ports ?_).trans ?_)
      · rw [ha, ldrAt_here hr hm hk hd, withResults_raised]
        rfl
      · rw [ha, ldrAt_here hr hm hk hd]

/-! ### PF -/

theorem prefetchLine_raised (s : State) (c loc : Nat) (toCluster : Bool) :
    (s.prefetchLine c loc toCluster).slot.raised = s.slot.raised := by
  unfold State.prefetchLine
  cases homeDpa loc with
  | none => rfl
  | some a => cases toCluster <;> rfl

section Prefetching
variable {s : State} {cluster : Bool} {a : Nat} (hl : s.cur.level ≠ 2)
include hl

theorem pfAt_trap {q : Cause} {n : Nat} (h : s.aim s.cur.part s.cur.vpin .read a = .trap q n) :
    pfAt cluster a s = s.pfFaulted s.slot.ctx := by
  rw [pfAt, if_neg hl, h]

theorem pfAt_remote (h : s.aim s.cur.part s.cur.vpin .read a = .remote) : pfAt cluster a s =
    if (refusalOf s.fresh a).isSome then State.pfFaulted { s with fresh := s.fresh + 1 } s.slot.ctx
      else { s with fresh := s.fresh + 1 } := by
  rw [pfAt, if_neg hl, h]

variable {key : PageKey} {global : Bool} (h : s.aim s.cur.part s.cur.vpin .read a = .page key global)
include h

theorem pfAt_denied {e : TlbEntry} (he : s.tlbFind (coreOf s.slot.ctx) key.part key.region key.va = some e) {r : Raised}
    (hg : e.grant key .read false global a = .error r) : pfAt cluster a s = s.pfFaulted s.slot.ctx := by
  rw [pfAt, if_neg hl, h]
  dsimp only
  rw [he]
  dsimp only
  rw [hg]

theorem pfAt_found {e : TlbEntry} (he : s.tlbFind (coreOf s.slot.ctx) key.part key.region key.va = some e) {k : Reach}
    (hg : e.grant key .read false global a = .ok k) : pfAt cluster a s = s.prefetchLine s.slot.ctx k.loc cluster := by
  rw [pfAt, if_neg hl, h]
  dsimp only
  rw [he]
  dsimp only
  rw [hg]

/-- The walk that a prefetch of a page asks for (R166). -/
def prefetchWalk (c : Nat) (cluster global : Bool) (key : PageKey) : Walk :=
  { who := .prefetch c (!cluster) global, cluster := clusterOf (coreOf c), core := coreOf c, part := key.part
    va := key.va, region := key.region }

theorem pfAt_missing (he : s.tlbFind (coreOf s.slot.ctx) key.part key.region key.va = none) : pfAt cluster a s =
    if s.walkerFree (prefetchWalk s.slot.ctx cluster global key) then s.beginWalk (prefetchWalk s.slot.ctx cluster global key)
      else s.pfRefused s.slot.ctx := by
  rw [pfAt, if_neg hl, h]
  dsimp only
  rw [he]
  rfl

end Prefetching

theorem claims_prefetch : Claims.Prefetch := by
  intro g base imm cluster s key global i c x a found count h
  have ports : portsOf i s.slot.lend = [] := ports_moulded h nofun nofun nofun nofun
  have ha : s.address base imm 256 = a := address_eq ..
  have done : ∀ t : State, pfAt cluster a s = t → t.slot.raised = s.slot.raised → exec i s = .next t := by
    intro t ht hr
    have e : exec i s = perform i s fun t => pfAt cluster (t.address base imm 256) t := rfl
    have body : pfAt cluster (s.address base imm 256) s = t := by rw [ha, ht]
    exact e.trans ((perform_quiet h ports (by rw [body, hr])).trans (by rw [body]))
  have faulted : ∀ t : State, t.pfFaulted c = t.updCtx c fun y => { y with pfFault := count y.pfFault } :=
    fun t => pfFaulted_eq ..
  refine ⟨fun hl => ?_, fun hl hq => ?_, fun hl hq => ?_, fun hl hq => ⟨fun e r he hg => ?_, fun e k he hg => ?_, fun hn hf => ?_, fun hn hf => ?_⟩⟩
  · exact done s (if_pos hl) rfl
  · obtain ⟨q, n, hq⟩ := hq
    exact done _ ((pfAt_trap hl hq).trans (faulted s)) rfl
  · refine done _ ((pfAt_remote hl hq).trans (by rw [faulted])) ?_
    split <;> rfl
  · exact done _ ((pfAt_denied hl hq he hg).trans (faulted s)) rfl
  · exact done _ (pfAt_found hl hq he hg) (prefetchLine_raised ..)
  · refine done _ ((pfAt_missing hl hq hn).trans ((if_neg (by rw [prefetchWalk]; exact Bool.eq_false_iff.mp hf)).trans ?_)) rfl
    rw [State.pfRefused]
    simp only [saturate32_eq]
    rfl
  · exact done _ ((pfAt_missing hl hq hn).trans (if_pos hf)) rfl

end Sys2Proof.Machine

open Sys2Proof Sys2Proof.Machine

/-- Settles O10: the effect of LD, LDR and PF case by case; a result of variable latency is posted by `post_variable`. -/
theorem loadsAndPrefetch : Obligations.LoadsAndPrefetch := ⟨claims_globalLoads, claims_prefetch⟩

end

section
/-! The scratchpad and the transpose queue (21 R301, R313, R314; 22 R320; 07 R141; 08 R144, R145), O11. -/
namespace Sys2Proof.Machine

/-! ### A syllable that has read its ports -/

section Reads
variable {i : Instr} {s : State} {body : State → State} (h : Normal i s) (e : exec i s = perform i s body)
include h e

/-- Where it raises nothing, its effect is all that happens. -/
theorem exec_done {t : State} (hb : body (s.popPorts i) = t) (hr : t.slot.raised = s.slot.raised) : exec i s = .next t := by
  rw [e, perform_normal h, hb, undoReads_same hr]

/-- Where it only raises a trap, its operands go back. -/
theorem exec_trapped {cause : Cause} {cond faddr : Nat} (hb : body (s.popPorts i) = (s.popPorts i).raise cause cond faddr) :
    exec i s = .next (s.trapped (s.popPorts i) { cause, cond, faddr }) := by
  have hraised : ((s.popPorts i).raise cause cond faddr).slot.raised =
      { cause, cond, pos := (s.popPorts i).slot.pos, faddr, imm := 0 } :: s.slot.raised :=
    congrArg (List.cons _) (popPorts_raised i s)
  rw [e, perform_normal h, hb, undoReads_raised hraised]
  rfl

end Reads

section Errors
variable {s : State} {body : State → State}

/-- A trap at the slot is met whether or not a port's word was wrong (R227). -/
theorem unlessBad_raise {cause : Cause} {cond faddr : Nat} (hc : cause ≠ .arithFlag) (hb : body s = s.raise cause cond faddr) :
    s.unlessBad body = s.raise cause cond faddr := by
  rw [State.unlessBad, hb]
  split
  · have one : (s.raise cause cond faddr).causesSince s = [{ cause, cond, pos := s.slot.pos, faddr }] := by
      simp [State.causesSince, State.raise, hc]
    rw [one]
    rfl
  · rfl

theorem causesSince_same {t : State} (h : t.slot.raised = s.slot.raised) : t.causesSince s = [] := by
  simp [State.causesSince, h]

/-- A word that is wrong does not show its flags. -/
theorem causesSince_raiseEnabled (fl on : Flags) (lat : Nat) : (s.raiseEnabled fl on lat).causesSince s = [] := by
  simp [State.causesSince, State.raiseEnabled]

/-- A word that was wrong is a data error where the syllable meets no other trap. -/
theorem unlessBad_wrong (he : s.slot.ecc = true) (hc : (body s).causesSince s = []) : s.unlessBad body = s.portError := by
  rw [State.unlessBad, if_pos he, hc]
  rfl

theorem unlessBad_right (he : s.slot.ecc = false) : s.unlessBad body = body s := by
  rw [State.unlessBad, he]
  rfl

end Errors

/-! ### LDS and STS -/

section Scratchpad
variable {s : State} {d : BitVec 6} {m : ASize} {a : Nat}

theorem inSpad_eq (s : State) (a n : Nat) : s.inSpad a n = decide (a + n ≤ 256 * s.cur.alloc.spad) := by
  rw [State.inSpad, Nat.mul_comm]

theorem ldsAt_misaligned (h : a % m.bytes ≠ 0) : ldsAt d m a s = s.raise .translation 2 a := if_pos h

theorem ldsAt_beyond (h : a % m.bytes = 0) (hb : 256 * s.cur.alloc.spad < a + m.bytes) :
    ldsAt d m a s = s.raise .translation 4 a := by
  have out : (!s.inSpad a m.bytes) = true := by simp [inSpad_eq, hb]
  rw [ldsAt, if_neg (not_not_intro h), if_pos out]
  rfl

theorem ldsAt_ok (hr : s.Room 1) (h : a % m.bytes = 0) (hb : a + m.bytes ≤ 256 * s.cur.alloc.spad) :
    let v := BitVec.ofNat 1024 (ofBytes (Memory.readN s.slot.spad (s.cur.alloc.spbase + a) m.bytes))
    let t : State := { s with slot := { s.slot with ecc := s.slot.ecc || s.curCore.badAt (s.cur.alloc.spbase + a) m.bytes } }
    ldsAt d m a s = t.withResults [
      { t.resultOf 0 (destFile s (dataFile m) d.toNat) d.toNat (BitVec.ofNat 128 (s.loadBen m)) v v 6 with
        ea := a, late := if t.slot.ecc then some { cause := .dataError, pos := s.slot.pos, faddr := a } else none }] := by
  intro v t
  have inside : ¬ (!s.inSpad a m.bytes) = true := by simp [inSpad_eq, hb]
  have room : t.Room 1 := hr
  rw [ldsAt, if_neg (not_not_intro h), if_neg inside]
  exact post_one room _

theorem storeSpadAt_misaligned {bs : List Byte} (h : a % bs.length ≠ 0) : storeSpadAt a bs s = s.raise .translation 2 a := if_pos h

theorem storeSpadAt_beyond {bs : List Byte} (h : a % bs.length = 0) (hb : 256 * s.cur.alloc.spad < a + bs.length) :
    storeSpadAt a bs s = s.raise .translation 4 a := by
  have out : (!s.inSpad a bs.length) = true := by simp [inSpad_eq, hb]
  rw [storeSpadAt, if_neg (not_not_intro h), if_pos out]
  rfl

theorem storeSpadAt_ok {bs : List Byte} (h : a % bs.length = 0) (hb : a + bs.length ≤ 256 * s.cur.alloc.spad) :
    storeSpadAt a bs s = s.updCurCore fun k => { k with
      spad := Memory.writeAll s.curCore.spad (cellsAt (s.cur.alloc.spbase + a) bs)
      stored := (cellsAt (s.cur.alloc.spbase + a) bs).map Prod.fst ++ k.stored } := by
  have inside : ¬ (!s.inSpad a bs.length) = true := by simp [inSpad_eq, hb]
  rw [storeSpadAt, if_neg (not_not_intro h), if_neg inside]
  rfl

end Scratchpad

/-- What a range holds once it is written, byte by byte. -/
theorem read_writeAll_cellsAt_add {m : Tab Byte} (hm : Memory.wf m = true) (a : Nat) (b : List Byte) {n : Nat} (hn : n < b.length) :
    Memory.read (Memory.writeAll m (cellsAt a b)) (a + n) = b.getD n 0 := by
  have whole := congrArg (fun l : List Byte => l.getD n 0) (readN_writeAll_cellsAt hm a b)
  simpa [Memory.readN, hn] using whole

theorem claims_scratchpadAccesses : Claims.ScratchpadAccesses := by
  intro g d base imm m s
  constructor
  · intro i a v t h hr
    have ports : portsOf i s.slot.lend = [] := ports_moulded h nofun nofun nofun nofun
    have e : exec i s = perform i s fun t => ldsAt d m (t.address base imm m.bytes) t := rfl
    have ha : s.address base imm m.bytes = a := address_eq ..
    refine ⟨fun hm => ?_, fun hm hb => ?_, fun hm hb => ?_⟩
    · exact e.trans (perform_trapped h ports (by rw [ha]; exact ldsAt_misaligned hm))
    · exact e.trans (perform_trapped h ports (by rw [ha]; exact ldsAt_beyond hm hb))
    · refine e.trans ((perform_quiet h ports ?_).trans ?_)
      · rw [ha, ldsAt_ok hr hm hb, withResults_raised]
      · rw [ha, ldsAt_ok hr hm hb]
  · intro i t a data at_ spad h
    have e : exec i s = perform i s fun t => t.unlessBad (storeSpadAt (t.address base imm m.bytes) (t.storeData d m)) := rfl
    have ha : t.address base imm m.bytes = a := address_eq ..
    have hlen : data.length = m.bytes := length_bytesOf ..
    have hbody : t.unlessBad (storeSpadAt (t.address base imm m.bytes) (t.storeData d m)) = t.unlessBad (storeSpadAt a data) := by
      rw [ha]
      rfl
    refine ⟨fun hm => ?_, fun hm hb => ?_, fun hm hb hecc => ?_, fun hm hb hecc => ⟨?_, fun n hn => ?_, fun hwf n hn => ?_⟩⟩
    · exact exec_trapped h e (hbody.trans (unlessBad_raise nofun (storeSpadAt_misaligned (hlen ▸ hm))))
    · exact exec_trapped h e (hbody.trans (unlessBad_raise nofun (storeSpadAt_beyond (hlen ▸ hm) (hlen ▸ hb))))
    · refine exec_done h e (hbody.trans (unlessBad_wrong hecc (causesSince_same ?_))) (popPorts_raised i s)
      rw [storeSpadAt_ok (hlen ▸ hm) (hlen ▸ hb)]
      rfl
    · exact exec_done h e (hbody.trans ((unlessBad_right hecc).trans (storeSpadAt_ok (hlen ▸ hm) (hlen ▸ hb)))) (popPorts_raised i s)
    · exact read_writeAll_cellsAt_of_outside _ (hlen.symm ▸ hn)
    · exact read_writeAll_cellsAt_add hwf at_ data (hlen.symm ▸ hn)

/-! ### QPUSH and QPOP -/

section Push
variable {s : State} {d : BitVec 6} {z : QSize}

/-- The row that QPUSH adds. -/
def State.pushedRow (s : State) (d : BitVec 6) (z : QSize) : Nat := s.vb d.toNat % 2 ^ (32 * qsizeBits z)

theorem qpushBody_empty (h : s.curCore.tiles = []) :
    qpushBody d z s = s.updCurCore fun k => { k with tiles := [{ size := qsizeBits z, rows := [s.pushedRow d z] }] } := by
  rw [qpushBody, h]
  rfl

variable {l : List Tile} {q : Tile} (h : s.curCore.tiles = l ++ [q])
include h

theorem qpushBody_otherSize (hq : q.rows.length < 32) (hn : q.size ≠ qsizeBits z) : qpushBody d z s = s.raise .illegalOperand := by
  rw [qpushBody, h, List.getLast?_concat]
  exact (if_pos hq).trans (if_pos hn)

theorem qpushBody_join (hq : q.rows.length < 32) (hn : q.size = qsizeBits z) :
    qpushBody d z s = s.updCurCore fun k => { k with tiles := l ++ [{ q with
      rows := q.rows ++ [s.pushedRow d z], last := if q.rows.length = 31 then s.cycle else q.last }] } := by
  rw [qpushBody, h, List.getLast?_concat, List.dropLast_concat]
  exact (if_pos hq).trans (if_neg (not_not_intro hn))

theorem qpushBody_full (hq : 32 ≤ q.rows.length) (hl : l.length = 1) : qpushBody d z s = s.raise .queueOverflow := by
  have two : (l ++ [q]).length = 2 := by rw [List.length_append, hl]; rfl
  rw [qpushBody, h, List.getLast?_concat]
  exact (if_neg (not_lt.mpr hq)).trans (if_pos two)

theorem qpushBody_open (hq : 32 ≤ q.rows.length) (hl : l = []) : qpushBody d z s =
    s.updCurCore fun k => { k with tiles := [q, { size := qsizeBits z, rows := [s.pushedRow d z] }] } := by
  subst hl
  rw [qpushBody, h, List.getLast?_concat]
  exact (if_neg (not_lt.mpr hq)).trans (if_neg (Nat.succ_ne_self 1).symm)

end Push

section Pop
variable {s : State} {d : BitVec 6} {m : ASize}

theorem qpopBody_empty (h : s.curCore.tiles = []) : qpopBody d m s = s.raise .illegalOperand := by
  rw [qpopBody, h]

variable {q : Tile} {rest : List Tile} (h : s.curCore.tiles = q :: rest)
include h

theorem qpopBody_unfit (hq : q.rows.length ≠ 32 ∨ 32 * q.size ≠ 8 * m.bytes) : qpopBody d m s = s.raise .illegalOperand := by
  rw [qpopBody, h]
  exact if_pos (by simpa using hq)

theorem qpopBody_fit (hr : s.Room 1) (hrows : q.rows.length = 32) (hsize : 32 * q.size = 8 * m.bytes) :
    qpopBody d m s = (s.updCurCore fun k => { k with tiles := q.afterPop rest }).withResults [
      s.resultOf 0 s.vectorFile d.toNat (BitVec.ofNat 128 (s.ben (8 * m.bytes) 8)) (BitVec.ofNat 1024 (q.row q.popped))
        (BitVec.ofNat 1024 (q.row q.popped)) 6] := by
  rw [qpopBody, h]
  dsimp only
  rw [if_neg (by simp [hrows, hsize]), post_one hr, withResults_raised]
  exact if_pos rfl

end Pop

theorem Tile.row_lt (t : Tile) (k : Nat) : t.row k < 2 ^ (t.size * t.rows.length) := by
  have := ofLanes_lt t.size (t.rows.map fun r => lane r k t.size)
  rwa [List.length_map] at this

/-- R141: an element of a row of the transposed tile is that of the column. -/
theorem Tile.element_row (t : Tile) (k : Nat) {j : Nat} (hj : j < t.rows.length) :
    element t.size (t.row k) j = element t.size (t.rows.getD j 0) k := by
  rw [Tile.row, element_ofLanes _ _ _ (by simpa using hj), List.getElem_map, lane_eq_element, ofNat_toNat_self,
    List.getD_eq_getElem _ _ hj]

theorem claims_transposeQueue : Claims.TransposeQueue := by
  intro g d z m s
  constructor
  · intro i t n row set pushes h
    have e : exec i s = perform i s fun t => t.unlessBad (qpushBody d z) := rfl
    have pushed : ∀ l, qpushBody d z t = set l → pushes l := fun l hb =>
      ⟨fun hecc => exec_done h e (unlessBad_wrong hecc (causesSince_same (by rw [hb]; rfl))) (popPorts_raised i s),
        fun hecc => exec_done h e ((unlessBad_right hecc).trans hb) (popPorts_raised i s)⟩
    refine ⟨fun ht => pushed _ (qpushBody_empty ht), fun l q ht =>
      ⟨fun hq hn => ?_, fun hq hn => pushed _ (qpushBody_join ht hq hn), fun hq hl => ?_, fun hq hl => pushed _ (qpushBody_open ht hq hl)⟩⟩
    · exact exec_trapped h e (unlessBad_raise nofun (qpushBody_otherSize ht hq hn))
    · exact exec_trapped h e (unlessBad_raise nofun (qpushBody_full ht hq hl))
  · intro i h hr
    have ports : portsOf i s.slot.lend = [] := ports_moulded h nofun nofun nofun nofun
    have e : exec i s = perform i s (qpopBody d m) := rfl
    refine ⟨fun ht => ?_, fun q rest ht => ⟨fun hq => ?_, fun hrows hsize => ?_⟩⟩
    · exact e.trans (perform_trapped h ports (qpopBody_empty ht))
    · exact e.trans (perform_trapped h ports (qpopBody_unfit ht hq))
    · have body := qpopBody_fit (d := d) ht hr hrows hsize
      have hlt : q.row q.popped < 2 ^ (8 * m.bytes) := by
        have := q.row_lt q.popped
        rwa [hrows, Nat.mul_comm, hsize] at this
      have hwide : 8 * m.bytes ≤ 1024 := by cases m <;> decide
      have hv : (BitVec.ofNat 1024 (q.row q.popped)).toNat = q.row q.popped := by
        rw [BitVec.toNat_ofNat]
        exact Nat.mod_eq_of_lt (hlt.trans_le (Nat.pow_le_pow_right Nat.two_pos hwide))
      refine ⟨BitVec.ofNat 1024 (q.row q.popped), ?_, hv.trans_lt hlt, fun j hj => ?_⟩
      · exact e.trans ((perform_quiet h ports (by rw [body]; rfl)).trans (congrArg _ body))
      · rw [hv, q.element_row _ (hrows.symm ▸ hj)]

end Sys2Proof.Machine

open Sys2Proof Sys2Proof.Machine

/-- Settles O11: the scratchpad and the tiles case by case; `unlessBad_raise` and `unlessBad_wrong` say what a wrong word of a port does. -/
theorem scratchpadAndTranspose : Obligations.ScratchpadAndTranspose := ⟨claims_scratchpadAccesses, claims_transposeQueue⟩

end

section
/-! Stores and atomics (22 R319 to R325; 11 R204; 20 R270, R274), O12: what a byte that becomes pending does to the pending bytes of its
context, and the effect of each syllable case by case. -/
namespace Sys2Proof.Machine

/-! ### Addresses of one byte (R321) -/

theorem aliasOf_eq (a : Nat) : aliasOf a = if a < 2 ^ 39 then a + 2 ^ 64 else if 2 ^ 64 ≤ a then a - 2 ^ 64 else a := by
  by_cases h1 : a < 2 ^ 39
  · rw [aliasOf, show homeDpa a = some a from if_pos h1, if_pos h1]
    exact if_pos rfl
  · rw [if_neg h1]
    by_cases h2 : 2 ^ 64 ≤ a
    · rw [aliasOf, show homeDpa a = some (a - 2 ^ 64) from (if_neg h1).trans (if_pos h2), if_pos h2]
      exact if_neg (by omega)
    · rw [aliasOf, show homeDpa a = none from (if_neg h1).trans (if_neg h2), if_neg h2]

/-- Neither address of the one byte is an address of the other. -/
def Apart (a b : Nat) : Prop := a ≠ b ∧ a ≠ aliasOf b ∧ aliasOf a ≠ b ∧ aliasOf a ≠ aliasOf b

/-- Two addresses of one access are those of two bytes. -/
theorem apart_of_near {a b : Nat} (h : a ≠ b) (hab : a < b + 2 ^ 63) (hba : b < a + 2 ^ 63) : Apart a b := by
  unfold Apart
  rw [aliasOf_eq, aliasOf_eq]
  split_ifs <;> omega

/-! ### A byte that becomes pending -/

section Put
variable {n : Nat} {plied : Bool} {x : Ctx} {c : Nat × Byte}

/-- The pending bytes once a byte is the pending one under either of its addresses. -/
def Ctx.replacing (x : Ctx) (n : Nat) (plied : Bool) (c : Nat × Byte) : Tab (Option Pend) :=
  Tab.set none (Tab.set none x.pending (aliasOf c.1) none) c.1 (some { byte := c.2, at_ := n, plied })

theorem putPending_latest (h : ∀ q, x.pendingNow c.1 = some q → q.2.at_ ≤ n) :
    (Ctx.putPending n plied x c).pending = x.replacing n plied c := by
  rw [Ctx.putPending]
  cases hp : x.pendingNow c.1 with
  | none => rfl
  | some q =>
    dsimp only
    rw [if_neg (not_lt.mpr (h q hp))]
    rfl

theorem putPending_earlier {q : Nat × Pend} (hq : x.pendingNow c.1 = some q) (h : n < q.2.at_) :
    Ctx.putPending n plied x c = { x with past := { loc := c.1, byte := c.2, at_ := n, till := q.2.at_ } :: x.past } := by
  rw [Ctx.putPending, hq]
  exact if_pos h

theorem putPending_pending :
    (Ctx.putPending n plied x c).pending = x.pending ∨ (Ctx.putPending n plied x c).pending = x.replacing n plied c := by
  by_cases h : ∀ q, x.pendingNow c.1 = some q → q.2.at_ ≤ n
  · exact .inr (putPending_latest h)
  · push Not at h
    obtain ⟨q, hq, hlt⟩ := h
    rw [putPending_earlier hq hlt]
    exact .inl rfl

theorem mem_past_putPending {p : Past} (h : p ∈ x.past) : p ∈ (Ctx.putPending n plied x c).past := by
  rw [Ctx.putPending]
  split
  · exact h
  · split <;> exact List.mem_cons_of_mem _ h

theorem wf_putPending (h : Tab.wf none x.pending = true) : Tab.wf none (Ctx.putPending n plied x c).pending = true := by
  rcases putPending_pending (n := n) (plied := plied) (x := x) (c := c) with hp | hp <;> rw [hp]
  · exact h
  · exact Tab.wf_set (Tab.wf_set h ..) ..

theorem get_putPending_of_ne {a : Nat} (h1 : a ≠ c.1) (h2 : a ≠ aliasOf c.1) :
    Tab.get none (Ctx.putPending n plied x c).pending a = Tab.get none x.pending a := by
  rcases putPending_pending (n := n) (plied := plied) (x := x) (c := c) with hp | hp <;> rw [hp]
  rw [Ctx.replacing, Tab.get_set_of_ne _ _ h1, Tab.get_set_of_ne _ _ h2]

theorem get_replacing_self : Tab.get none (x.replacing n plied c) c.1 = some { byte := c.2, at_ := n, plied } :=
  (get_set_of_ne_default (Option.some_ne_none _) ..).trans (if_pos rfl)

theorem get_replacing_alias (h : Tab.wf none x.pending = true) (ha : aliasOf c.1 ≠ c.1) :
    Tab.get none (x.replacing n plied c) (aliasOf c.1) = none := by
  rw [Ctx.replacing, Tab.get_set_of_ne _ _ ha, Tab.get_set_self h]

/-- A byte that is put in is listed, as the pending one or as one of the past. -/
theorem putPending_lists (hp : (Ctx.putPending n plied x c).pending = []) : (Ctx.putPending n plied x c).past ≠ [] := by
  by_cases hl : ∀ q, x.pendingNow c.1 = some q → q.2.at_ ≤ n
  · have hget := get_replacing_self (n := n) (plied := plied) (x := x) (c := c)
    rw [← putPending_latest hl, hp] at hget
    exact nomatch hget
  · push Not at hl
    obtain ⟨q, hq, hlt⟩ := hl
    rw [putPending_earlier hq hlt]
    exact List.cons_ne_nil _ _

end Put

/-! ### The bytes of a store -/

section PutAll
variable {n : Nat} {plied : Bool} {x : Ctx} {l : List (Nat × Byte)}

/-- The bytes become pending one after another. -/
def Ctx.putAll (n : Nat) (plied : Bool) (x : Ctx) (l : List (Nat × Byte)) : Ctx := l.foldl (Ctx.putPending n plied) x

theorem putAll_at (l m : List (Nat × Byte)) (c : Nat × Byte) :
    x.putAll n plied (l ++ c :: m) = (Ctx.putPending n plied (x.putAll n plied l) c).putAll n plied m := List.foldl_append

theorem putAll_lists (h : l ≠ []) (hp : (x.putAll n plied l).pending = []) : (x.putAll n plied l).past ≠ [] := by
  obtain ⟨l, c, rfl⟩ := (List.eq_nil_or_concat l).resolve_left h
  rw [List.concat_eq_append, putAll_at] at hp ⊢
  exact putPending_lists hp

theorem mem_past_putAll {p : Past} (h : p ∈ x.past) : p ∈ (x.putAll n plied l).past := by
  induction l generalizing x with
  | nil => exact h
  | cons c l ih => exact ih (mem_past_putPending h)

theorem wf_putAll (h : Tab.wf none x.pending = true) : Tab.wf none (x.putAll n plied l).pending = true := by
  induction l generalizing x with
  | nil => exact h
  | cons c l ih => exact ih (wf_putPending h)

theorem get_putAll_of_ne {a : Nat} (h : ∀ c ∈ l, a ≠ c.1 ∧ a ≠ aliasOf c.1) :
    Tab.get none (x.putAll n plied l).pending a = Tab.get none x.pending a := by
  induction l generalizing x with
  | nil => rfl
  | cons c l ih =>
    obtain ⟨h1, h2⟩ := h c List.mem_cons_self
    exact (ih fun c hc => h c (List.mem_cons_of_mem _ hc)).trans (get_putPending_of_ne h1 h2)

theorem get_putAll_of_apart {a : Nat} (h : ∀ c ∈ l, Apart a c.1) :
    Tab.get none (x.putAll n plied l).pending a = Tab.get none x.pending a :=
  get_putAll_of_ne fun c hc => ⟨(h c hc).1, (h c hc).2.1⟩

theorem get_alias_putAll_of_apart {a : Nat} (h : ∀ c ∈ l, Apart a c.1) :
    Tab.get none (x.putAll n plied l).pending (aliasOf a) = Tab.get none x.pending (aliasOf a) :=
  get_putAll_of_ne fun c hc => (h c hc).2.2

theorem pendingNow_putAll_of_apart {a : Nat} (h : ∀ c ∈ l, Apart a c.1) : (x.putAll n plied l).pendingNow a = x.pendingNow a := by
  unfold Ctx.pendingNow
  rw [get_putAll_of_apart h, get_alias_putAll_of_apart h]

end PutAll

theorem cellsAt_append (a : Nat) (b d : List Byte) : cellsAt a (b ++ d) = cellsAt a b ++ cellsAt (a + b.length) d := by
  induction b generalizing a with
  | nil => rfl
  | cons x b ih =>
    simp only [List.cons_append, cellsAt, ih, List.length_cons]
    rw [Nat.add_assoc, Nat.add_comm 1]

/-- One byte of an access, with those before and those after it. -/
theorem cellsAt_at (a : Nat) {b : List Byte} {j : Nat} (hj : j < b.length) :
    cellsAt a b = cellsAt a (b.take j) ++ (a + j, b.getD j 0) :: cellsAt (a + j + 1) (b.drop (j + 1)) := by
  have hlen : (b.take j).length = j := List.length_take_of_le hj.le
  calc cellsAt a b = cellsAt a (b.take j ++ b[j] :: b.drop (j + 1)) := by rw [← List.drop_eq_getElem_cons hj, List.take_append_drop]
    _ = _ := by rw [cellsAt_append, hlen, cellsAt, List.getD_eq_getElem _ _ hj]

section Bytes
variable {n : Nat} {x : Ctx} {a j : Nat} {b : List Byte} (hj : j < b.length) (hb : b.length ≤ 2 ^ 63)
include hj hb

theorem apart_before : ∀ c ∈ cellsAt a (b.take j), Apart (a + j) c.1 := by
  intro c hc
  have hlen : (b.take j).length = j := List.length_take_of_le hj.le
  have := mem_cellsAt hc
  exact apart_of_near (by omega) (by omega) (by omega)

theorem apart_after : ∀ c ∈ cellsAt (a + j + 1) (b.drop (j + 1)), Apart (a + j) c.1 := by
  intro c hc
  have hlen : (b.drop (j + 1)).length = b.length - (j + 1) := List.length_drop
  have := mem_cellsAt hc
  exact apart_of_near (by omega) (by omega) (by omega)

/-- A store that is the latest of its byte: the byte has one pending byte. -/
theorem get_putAll_latest (hw : Tab.wf none x.pending = true) (h : ∀ q, x.pendingNow (a + j) = some q → q.2.at_ ≤ n) :
    Tab.get none (x.putAll n false (cellsAt a b)).pending (a + j) = some { byte := b.getD j 0, at_ := n } ∧
    (aliasOf (a + j) ≠ a + j → Tab.get none (x.putAll n false (cellsAt a b)).pending (aliasOf (a + j)) = none) := by
  rw [cellsAt_at a hj, putAll_at]
  have before := pendingNow_putAll_of_apart (n := n) (plied := false) (x := x) (apart_before hj hb (a := a))
  have put := putPending_latest (n := n) (plied := false) (x := x.putAll n false (cellsAt a (b.take j))) (c := (a + j, b.getD j 0))
    (by rwa [before])
  rw [get_putAll_of_apart (apart_after hj hb), get_alias_putAll_of_apart (apart_after hj hb), put]
  exact ⟨get_replacing_self, get_replacing_alias (c := (a + j, b.getD j 0)) (wf_putAll hw)⟩

/-- A store behind a later one of its byte: that one stays, and the byte is kept for those that read between the two. -/
theorem putAll_earlier {q : Nat × Pend} (hq : x.pendingNow (a + j) = some q) (h : n < q.2.at_) :
    (x.putAll n false (cellsAt a b)).pendingNow (a + j) = some q ∧
    { loc := a + j, byte := b.getD j 0, at_ := n, till := q.2.at_ } ∈ (x.putAll n false (cellsAt a b)).past := by
  rw [cellsAt_at a hj, putAll_at]
  have before := (pendingNow_putAll_of_apart (n := n) (plied := false) (x := x) (apart_before hj hb (a := a))).trans hq
  have put := putPending_earlier (n := n) (plied := false) (x := x.putAll n false (cellsAt a (b.take j))) (c := (a + j, b.getD j 0))
    before h
  rw [pendingNow_putAll_of_apart (apart_after hj hb), put]
  exact ⟨before, mem_past_putAll List.mem_cons_self⟩

end Bytes

section AddPending
variable {s : State} {l : List (Nat × Byte)}

/-- The context once its bytes are pending, whatever the table of contexts is. -/
theorem addPending_cur (h : l ≠ []) :
    ∃ spilled, (s.addPending l).cur = { s.cur.prunePast.putAll s.storeOrder false l with spilled } := by
  refine ⟨_, (get_set_of_ne_default (fun hd => ?_) ..).trans (if_pos rfl)⟩
  exact putAll_lists (n := s.storeOrder) (plied := false) (x := s.cur.prunePast) h (congrArg Ctx.pending hd) (congrArg Ctx.past hd)

theorem get_addPending_of_ne (h : l ≠ []) {a : Nat} (ha : ∀ c ∈ l, a ≠ c.1 ∧ a ≠ aliasOf c.1) :
    Tab.get none (s.addPending l).cur.pending a = Tab.get none s.cur.pending a := by
  obtain ⟨_, hcur⟩ := addPending_cur (s := s) h
  rw [hcur]
  exact get_putAll_of_ne ha

variable {a j : Nat} {b : List Byte} (hj : j < b.length) (hb : b.length ≤ 2 ^ 63)
include hj

theorem cellsAt_ne_nil : cellsAt a b ≠ [] := by
  rw [cellsAt_at a hj]
  exact List.append_ne_nil_of_right_ne_nil _ (List.cons_ne_nil _ _)

include hb

theorem get_addPending_latest (hw : Tab.wf none s.cur.pending = true)
    (h : ∀ q, s.cur.pendingNow (a + j) = some q → q.2.at_ ≤ s.storeOrder) :
    Tab.get none (s.addPending (cellsAt a b)).cur.pending (a + j) = some { byte := b.getD j 0, at_ := s.storeOrder } ∧
    (aliasOf (a + j) ≠ a + j → Tab.get none (s.addPending (cellsAt a b)).cur.pending (aliasOf (a + j)) = none) := by
  obtain ⟨_, hcur⟩ := addPending_cur (s := s) (cellsAt_ne_nil hj (a := a))
  rw [hcur]
  exact get_putAll_latest (x := s.cur.prunePast) hj hb hw h

theorem addPending_earlier {q : Nat × Pend} (hq : s.cur.pendingNow (a + j) = some q) (h : s.storeOrder < q.2.at_) :
    (s.addPending (cellsAt a b)).cur.pendingNow (a + j) = some q ∧
    { loc := a + j, byte := b.getD j 0, at_ := s.storeOrder, till := q.2.at_ } ∈ (s.addPending (cellsAt a b)).cur.past := by
  obtain ⟨_, hcur⟩ := addPending_cur (s := s) (cellsAt_ne_nil hj (a := a))
  rw [hcur]
  exact putAll_earlier (x := s.cur.prunePast) hj hb hq h

end AddPending

/-! ### ST and STK -/

theorem cacheWrite_dram (s : State) (c loc : Nat) : (s.cacheWrite c loc).dram = s.dram := by
  unfold State.cacheWrite
  cases homeDpa loc <;> dsimp only <;> split <;> rfl

theorem cacheWrite_raised (s : State) (c loc : Nat) : (s.cacheWrite c loc).slot.raised = s.slot.raised := by
  unfold State.cacheWrite
  cases homeDpa loc <;> dsimp only <;> split <;> rfl

section Causes
variable {s : State} {r : Raised}

theorem aim_cause_ne_arithFlag {part vpin : Nat} {kind : AKind} {a : Nat} {cause : Cause} {cond : Nat}
    (h : s.aim part vpin kind a = .trap cause cond) : cause ≠ .arithFlag := by
  rintro rfl
  unfold State.aim at h
  dsimp only at h
  repeat' split at h
  all_goals cases h

theorem walkTrap_cause_ne_arithFlag (cond a : Nat) : (walkTrap cond a).cause ≠ .arithFlag := by
  unfold walkTrap
  split <;> nofun

theorem reach_cause_ne_arithFlag {c : Nat} {kind : AKind} {both : Bool} {a : Nat} (h : s.reach c kind both a = .error r) :
    r.cause ≠ .arithFlag := by
  unfold State.reach at h
  split at h
  · rename_i hq
    cases h
    exact aim_cause_ne_arithFlag hq
  · cases h
  · split at h
    · cases h
      exact walkTrap_cause_ne_arithFlag _ _
    · unfold TlbEntry.allow at h
      split at h
      · cases h
        nofun
      · cases h

/-- An access that is refused does not raise a flag. -/
theorem resolve_cause_ne_arithFlag {c : Nat} {kind : AKind} {both : Bool} {a : Nat} (h : s.resolve c kind both a = .error r) :
    r.cause ≠ .arithFlag := by
  unfold State.resolve at h
  split at h
  · rename_i hr
    cases h
    exact reach_cause_ne_arithFlag hr
  · unfold Reach.unshared at h
    split at h
    · cases h
      nofun
    · cases h

end Causes

section StoreBodies
variable {s : State} {a : Nat} {bs : List Byte} {r q : Raised} {k : Reach}

theorem storeAt_misaligned (h : a % bs.length ≠ 0) : storeAt a bs s = s.raise .translation 2 a := if_pos h

variable (h : a % bs.length = 0)
include h

theorem storeAt_error (hk : s.resolve s.slot.ctx .write false a = .error r) : storeAt a bs s = s.raise r.cause r.cond r.faddr := by
  rw [storeAt, if_neg (not_not_intro h), hk]
  rfl

variable (hk : s.resolve s.slot.ctx .write false a = .ok k)
include hk

theorem storeAt_overBudget (hw : s.cur.withinBudget (cellsAt k.loc bs) = false) : storeAt a bs s = s.raise .illegalOperand := by
  rw [storeAt, if_neg (not_not_intro h), hk]
  dsimp only
  rw [hw]
  rfl

theorem storeAt_denied (hw : s.cur.withinBudget (cellsAt k.loc bs) = true) (hq : s.storeRefusal k.loc = some q) :
    storeAt a bs s = s.storeRefusedBy a (ofBytes bs) 0 q := by
  rw [storeAt, if_neg (not_not_intro h), hk]
  dsimp only
  rw [hw, hq]
  rfl

theorem storeAt_ok (hw : s.cur.withinBudget (cellsAt k.loc bs) = true) (hq : s.storeRefusal k.loc = none) :
    storeAt a bs s = (s.addPending (cellsAt k.loc bs)).cacheWrite s.slot.ctx k.loc := by
  rw [storeAt, if_neg (not_not_intro h), hk]
  dsimp only
  rw [hw, hq]
  rfl

theorem storeAt_raised (hw : s.cur.withinBudget (cellsAt k.loc bs) = true) : (storeAt a bs s).slot.raised = s.slot.raised := by
  cases hq : s.storeRefusal k.loc with
  | some q =>
    rw [storeAt_denied h hk hw hq]
    rfl
  | none =>
    rw [storeAt_ok h hk hw hq, cacheWrite_raised]
    rfl

end StoreBodies

/-- R216: the record of STK. -/
theorem tokenRecord_eq (s : State) (d : BitVec 6) : s.tokenRecord d =
    (BitVec.ofNat 32 (s.sb d.toNat) ++ BitVec.ofNat 16 s.cur.vpin ++ BitVec.ofNat 16 s.cur.phase).toNat := by
  have hv : s.cur.vpin < 2 ^ 16 := Nat.mod_lt _ (by decide)
  rw [toNat_append_eq_add, toNat_append_eq_add, BitVec.toNat_ofNat, BitVec.toNat_ofNat, BitVec.toNat_ofNat, Nat.mod_eq_of_lt hv,
    State.tokenRecord]
  ring

/-- A syllable whose effect is `b`; `port` says whether one of its operands may be a port's word. -/
def Acts (i : Instr) (port : Bool) (b : State → State → State) (s : State) : Prop :=
  exec i s = perform i s fun t => if port then t.unlessBad (b t) else b t t

section Answers
variable {i : Instr} {port : Bool} {b : State → State → State} {s t : State} (h : Normal i s) (e : Acts i port b s)
  (ht : s.popPorts i = t)
include h e ht

theorem acts_trapped {cause : Cause} {cond faddr : Nat} (hc : port = true → cause ≠ .arithFlag)
    (hb : b t t = t.raise cause cond faddr) : exec i s = .next (s.trapped t { cause, cond, faddr }) := by
  subst ht
  refine exec_trapped h e ?_
  cases port with
  | true => exact unlessBad_raise (hc rfl) hb
  | false => exact hb

theorem acts_portError (hbad : port = true ∧ t.slot.ecc = true) (hc : (b t t).causesSince t = []) :
    exec i s = .next t.portError := by
  subst ht
  obtain ⟨rfl, hecc⟩ := hbad
  exact exec_done h e (unlessBad_wrong hecc hc) (popPorts_raised i s)

theorem acts_effect (hbad : ¬ (port = true ∧ t.slot.ecc = true)) : exec i s = .next (undoReads s (b t t)) := by
  subst ht
  rw [show exec i s = _ from e, perform_normal h]
  cases port with
  | true => exact congrArg (Host.Outcome.next ∘ undoReads s) (unlessBad_right (Bool.eq_false_iff.mpr fun hecc => hbad ⟨rfl, hecc⟩))
  | false => rfl

theorem acts_done (hbad : ¬ (port = true ∧ t.slot.ecc = true)) {v : State} (hb : b t t = v)
    (hr : v.slot.raised = t.slot.raised) : exec i s = .next v := by
  have hraised : v.slot.raised = s.slot.raised := by rw [hr, ← ht, popPorts_raised]
  rw [acts_effect h e ht hbad, hb, undoReads_same hraised]

end Answers

theorem claims_globalStores : Claims.GlobalStores := by
  intro g d base imm m s k r run
  have stores : ∀ (i : Instr) (n : Nat) (port : Bool) (data : State → List Byte), 0 < n → n ≤ 128 → (∀ t, (data t).length = n) →
      Acts i port (fun t => storeAt (t.address base imm n) (data t)) s → run i n port data := by
    intro i n port data hpos hn hdata e h
    obtain ⟨t, ht⟩ : ∃ t, s.popPorts i = t := ⟨_, rfl⟩
    obtain ⟨a, ha⟩ : ∃ a, t.effective base (t.offset31 imm) n = a := ⟨_, rfl⟩
    obtain ⟨bs, hbs⟩ : ∃ bs, data t = bs := ⟨_, rfl⟩
    have hlen : bs.length = n := hbs ▸ hdata t
    have hdram : t.dram = s.dram := ht ▸ popPorts_dram i s
    have align : ∀ {x}, x % n = 0 → x % bs.length = 0 := fun h => hlen ▸ h
    have body : storeAt (t.address base imm n) (data t) t = storeAt a bs t := by rw [address_eq, ha, hbs]
    rw [ht, ha, hbs]
    refine ⟨fun hm => ?_, fun hm hk => ?_, fun hm hk hw => ?_, fun hm hk hw hbad => ?_, fun q hm hk hw hbad hq => ?_,
      fun hm hk hw hbad hq => ⟨?_, ?_, fun loc hloc => ?_, fun hwf j hj => ⟨fun hlatest => ?_, fun q hq hlt => ?_⟩⟩⟩
    · exact acts_trapped h e ht nofun (body.trans (storeAt_misaligned (hlen.symm ▸ hm)))
    · exact acts_trapped h e ht (fun _ => resolve_cause_ne_arithFlag hk) (body.trans (storeAt_error (align hm) hk))
    · exact acts_trapped h e ht nofun (body.trans (storeAt_overBudget (align hm) hk hw))
    · exact acts_portError h e ht hbad (causesSince_same ((congrArg (fun u : State => u.slot.raised) body).trans (storeAt_raised (align hm) hk hw)))
    · exact acts_done h e ht hbad (body.trans (storeAt_denied (align hm) hk hw hq)) rfl
    · exact acts_done h e ht hbad (body.trans (storeAt_ok (align hm) hk hw hq)) (cacheWrite_raised ..)
    · exact (cacheWrite_dram ..).trans hdram
    · exact get_addPending_of_ne (cellsAt_ne_nil (j := 0) (by omega)) fun c hc => by
        have := mem_cellsAt hc
        have := hloc (c.1 - k.loc) (by omega)
        rwa [Nat.add_sub_cancel' (by omega)] at this
    · exact get_addPending_latest (hlen.symm ▸ hj) (by omega) hwf hlatest
    · exact addPending_earlier (hlen.symm ▸ hj) (by omega) hq hlt
  constructor
  · exact stores (.st g d base imm m) m.bytes true (fun t => bytesOf m.bytes (if m.isVector then t.vb d.toNat else t.sb d.toNat))
      (by cases m <;> decide) (by cases m <;> decide) (fun t => length_bytesOf ..) rfl
  · refine stores (.stk g d base imm) 8 false
      (fun t => bytesOf 8 (BitVec.ofNat 32 (t.sb d.toNat) ++ BitVec.ofNat 16 t.cur.vpin ++ BitVec.ofNat 16 t.cur.phase).toNat)
      (by decide) (by decide) (fun t => length_bytesOf ..) ?_
    unfold Acts
    simp only [← tokenRecord_eq]
    rfl

/-! ### STQ -/

section TagStores
variable {s : State} {a tag : Nat} {bs : List Byte} {r q : Raised} {k : Reach}

theorem tagStoreAt_misaligned (h : a % bs.length ≠ 0) : tagStoreAt a tag bs s = s.raise .translation 2 a := if_pos h

variable (h : a % bs.length = 0)
include h

theorem tagStoreAt_error (hk : s.resolve s.slot.ctx .write false a = .error r) :
    tagStoreAt a tag bs s = s.raise r.cause r.cond r.faddr := by
  rw [tagStoreAt, if_neg (not_not_intro h), hk]
  rfl

variable (hk : s.resolve s.slot.ctx .write false a = .ok k)
include hk

theorem tagStoreAt_denied (hq : s.storeRefusal k.loc = some q) : tagStoreAt a tag bs s = s.storeRefusedBy a (ofBytes bs) tag q := by
  rw [tagStoreAt, if_neg (not_not_intro h), hk]
  dsimp only
  rw [hq]
  rfl

/-- The tagged write leaves for the home of its line, and the context counts one STQ that is not yet accepted. -/
theorem tagStoreAt_ok (hq : s.storeRefusal k.loc = none) : tagStoreAt a tag bs s =
    { s.updCur fun x => { x with stqs := x.stqs + 1, stqBy := max x.stqBy (x.count + stqCycles k.loc) } with
      tagWrites := s.tagWrites ++ [{
        line := (homeDpa k.loc).getD k.loc / 256, tag, act := .bytes (cellsAt ((homeDpa k.loc).getD k.loc) bs), ctx := s.slot.ctx
        part := s.cur.part, kernel := s.cur.share.kernel, baddr := s.slot.baddr, pos := s.slot.pos
        due := s.cycle + stqCycles k.loc, num := s.cur.seq * 64 + s.slot.pos * 4, launch := s.kernelTag s.cur.share.kernel }] } := by
  rw [tagStoreAt, if_neg (not_not_intro h), hk]
  dsimp only
  rw [hq]
  rfl

theorem tagStoreAt_raised : (tagStoreAt a tag bs s).slot.raised = s.slot.raised := by
  cases hq : s.storeRefusal k.loc with
  | some q =>
    rw [tagStoreAt_denied h hk hq]
    rfl
  | none =>
    rw [tagStoreAt_ok h hk hq]
    rfl

end TagStores

theorem claims_taggedStore : Claims.TaggedStore := by
  intro g d base tag m s k r i t a write data home cycles expected refusal h
  have e : exec i s = perform i s fun t =>
      t.unlessBad (tagStoreAt (t.sa base.toNat) ((t.cur.readS tag.toNat).toNat % 2 ^ 16) (t.storeData d m)) := rfl
  have align : a % m.bytes = 0 → a % data.length = 0 := fun h => (length_bytesOf m.bytes _).symm ▸ h
  refine ⟨fun hm => ?_, fun hm hk => ?_, fun hm hk hecc => ?_, fun q hm hk hecc hq => ?_, fun hm hk hecc hq => ?_⟩
  · exact exec_trapped h e (unlessBad_raise nofun (tagStoreAt_misaligned ((length_bytesOf m.bytes _).symm ▸ hm)))
  · exact exec_trapped h e (unlessBad_raise (resolve_cause_ne_arithFlag hk) (tagStoreAt_error (align hm) hk))
  · exact exec_done h e (unlessBad_wrong hecc (causesSince_same (tagStoreAt_raised (align hm) hk))) (popPorts_raised i s)
  · exact exec_done h e ((unlessBad_right hecc).trans (tagStoreAt_denied (align hm) hk hq)) (popPorts_raised i s)
  · exact exec_done h e ((unlessBad_right hecc).trans (tagStoreAt_ok (align hm) hk hq)) (popPorts_raised i s)

/-! ### ATOM and ACAS -/

section Atomics
variable {s : State} {op : Option AtomOp} {size a arg swap : Nat} {old : BitVec 6} {r : Raised} {k : Reach}

/-- R70, R146, R270: where an atomic performs. -/
theorem atomInst_eq (s : State) (loc : Nat) : s.atomInst loc = if isGlobal loc then .system else match s.slot.lend.ext with
    | none => .device
    | some e => if e % 4 = 1 then .cluster (clusterOf (coreOf s.slot.ctx)) else if e % 4 = 2 then .system else .device := by
  unfold State.atomInst
  cases s.slot.lend.ext <;> rfl

theorem atomicAt_misaligned (h : a % size ≠ 0) : atomicAt op size a arg swap old s = s.raise .translation 2 a := if_pos h

variable (h : a % size = 0)
include h

theorem atomicAt_error (hk : s.resolve s.slot.ctx (if op = some .load then .read else .write) true a = .error r) :
    atomicAt op size a arg swap old s = s.raise r.cause r.cond r.faddr := by
  rw [atomicAt, if_neg (not_not_intro h)]
  dsimp only
  rw [hk]
  rfl

/-- The old value is a result that waits for the atomic, which has left. -/
theorem atomicAt_ok (hr : s.Room 1) (hk : s.resolve s.slot.ctx (if op = some .load then .read else .write) true a = .ok k) :
    atomicAt op size a arg swap old s =
      { s.withResults [{ (s.resultOf 0 (destFile s .s old.toNat) old.toNat 0xFF 0 0
          (atomLatency k.loc (s.atomInst k.loc))).awaited a s.cycle none with ready := false }] with
        atomics := s.atomics ++ [{
          ctx := s.slot.ctx, res := s.cur.seq * 64 + s.slot.pos * 4, inst := s.atomInst k.loc, loc := k.loc, size, op, arg, swap
          remote := (homeDpa k.loc).isNone }] } := by
  rw [atomicAt, if_neg (not_not_intro h)]
  dsimp only
  rw [hk]
  dsimp only
  rw [post_one hr, if_pos (congrArg List.length (withResults_raised ..))]
  unfold State.resultOf Result.awaited
  cases s.slot.ecc <;> rfl

end Atomics

theorem claims_atomicsLeave : Claims.AtomicsLeave := by
  intro g d base old op dword s k r run
  have leaves : ∀ (i : Instr) (o : Option AtomOp) (n arg swap : Nat) (body : State → State),
      (Normal i s → portsOf i s.slot.lend = []) → exec i s = perform i s body →
      body s = atomicAt o n (s.sa base.toNat) arg swap old s → run i o n arg swap := by
    intro i o n arg swap body ports e hb h hr
    refine ⟨fun hm => ?_, fun hm hk => ?_, fun hm hk => ?_⟩
    · exact e.trans (perform_trapped h (ports h) (hb.trans (atomicAt_misaligned hm)))
    · exact e.trans (perform_trapped h (ports h) (hb.trans (atomicAt_error hm hk)))
    · refine e.trans ((perform_quiet h (ports h) ?_).trans ?_) <;> rw [hb, atomicAt_ok hm hr hk]
      · rfl
      · rw [atomInst_eq]
        rfl
  constructor
  · exact leaves (.atom g d base old op) (some op) (if op = .fadd32 then 4 else 8) (s.sb d.toNat) 0
      (fun t => atomicAt (some op) (if op = .fadd32 then 4 else 8) (t.sa base.toNat) (t.sb d.toNat) 0 old t)
      (fun h => ports_moulded h nofun nofun nofun nofun) rfl rfl
  · exact leaves (.acas g d base old dword) none (if dword then 8 else 4) (s.cur.readS d.toNat).toNat (s.cur.readS (d.toNat + 1)).toNat
      (fun t => atomicAt none (if dword then 8 else 4) (t.sa base.toNat) (t.cur.readS d.toNat).toNat
        (t.cur.readS (d.toNat + 1)).toNat old t)
      (fun h => ports_moulded h nofun nofun nofun nofun) rfl rfl

end Sys2Proof.Machine

open Sys2Proof Sys2Proof.Machine

/-- Settles O12: `get_addPending_latest` and `addPending_earlier` say what a store does to the pending bytes; the traps and the faults
of the syllables are those of `storeAt`, `tagStoreAt` and `atomicAt`, case by case. -/
theorem storesAndAtomics : Obligations.StoresAndAtomics := ⟨claims_globalStores, claims_taggedStore, claims_atomicsLeave⟩

end

section
/-! The plied accesses (14 R207, R208; 21 R302, R308; 22 R323; 06 R126 to R128), O13. -/
namespace Sys2Proof.Machine

/-! ### A syllable with a scalar base has an allocation or a latch -/

/-- A context that has something to name a base with. -/
def Ctx.Based (x : Ctx) : Prop := x.alloc.scnt ≠ 0 ∨ x.latch ≠ []

theorem Ctx.Based.ne_default {x : Ctx} (h : x.Based) : x ≠ {} := by
  rintro rfl
  exact h.elim (· rfl) (· rfl)

/-- A latch that a syllable reads has been written (R69). -/
theorem verdict_latch {i : Instr} {s : State} (h : verdict i s = none) (hn : ∀ g, i ≠ .nop g) (hh : s.cur.inHandler = false)
    {f : RFile} {n : Nat} (ha : (shape i).a = some (f, n)) (hk : s.slot.lend.ak = .latch) :
    Tab.get none s.cur.latch n ≠ none := by
  unfold verdict at h
  split at h
  · rename_i g
    exact absurd rfl (hn g)
  · simp only [hh, Bool.false_eq_true, if_false] at h
    split at h
    · cases h
    · intro hl
      rcases ite_eq_iff.mp h with ⟨_, hq⟩ | ⟨_, hq⟩
      · cases hq
      · simp [ha, hk, hl] at hq

theorem based_of_normal {i : Instr} {s : State} {n : Nat} (h : Normal i s) (hn : ∀ g, i ≠ .nop g) (hi : handlerRuns i = false)
    (ha : (shape i).a = some (.s, n)) : s.cur.Based := by
  have hh := inHandler_of_normal h hn hi
  have legal := verdict_operands h.1 hn hh
  have source := (operands_sources legal).1
  rw [ha] at source
  cases hk : s.slot.lend.ak with
  | reg =>
    rw [hk] at source
    have hlt : n < s.cur.alloc.scnt := of_decide_eq_true source
    exact .inl (Nat.ne_of_gt (Nat.zero_lt_of_lt hlt))
  | latch => exact .inr fun hl => verdict_latch h.1 hn hh ha hk (by rw [hl]; rfl)
  | _ =>
    rw [hk] at source
    exact nomatch source

theorem based_popPorts {i : Instr} {s : State} (h : s.cur.Based) : (s.popPorts i).cur.Based := by
  unfold State.popPorts
  split
  · exact h
  · rename_i ports hp
    have hcur := get_set_of_ne_default (d := ({} : Ctx)) (x := { s.cur with
      ports := (portsOf i s.slot.lend).foldl (fun t (n, d) => if d then Tab.upd {} t n Walker.pop else t) s.cur.ports })
      (Ctx.Based.ne_default h) s.ctxs s.slot.ctx s.slot.ctx
    rw [if_pos rfl] at hcur
    exact (congrArg Ctx.Based hcur).mpr h

/-! ### The checks of R208 raise no flag -/

section Causes
variable {s : State} {r : Raised} {kind : AKind}

theorem windowNlog_cause {wb : Nat} (h : s.windowNlog kind wb = .error r) : r.cause ≠ .arithFlag := by
  unfold State.windowNlog at h
  split at h
  · rename_i hq
    cases h
    exact aim_cause_ne_arithFlag hq
  · cases h
    nofun
  · split at h
    · cases h
      exact walkTrap_cause_ne_arithFlag _ _
    · split at h
      · cases h
      · cases h
        nofun

theorem resolvePieces_cause {nlog : Nat} {strict : PlySpan → Nat → Bool} {l : List PlySpan}
    (h : s.resolvePieces kind nlog strict l = .error r) : r.cause ≠ .arithFlag := by
  induction l with
  | nil => exact nomatch h
  | cons p l ih =>
    rw [State.resolvePieces] at h
    split at h
    · rename_i hq
      cases h
      exact reach_cause_ne_arithFlag hq
    · split at h
      · cases h
        nofun
      · split at h
        · rename_i hq
          cases h
          exact ih hq
        · cases h

theorem sharedPiece_cause {l : List PlySpan} (h : s.sharedPiece kind l = some r) : r.cause ≠ .arithFlag := by
  obtain ⟨p, _, hp⟩ := List.exists_of_findSome?_eq_some h
  split at hp
  · rename_i hq
    cases hp
    exact resolve_cause_ne_arithFlag hq
  · cases hp

theorem pliedCheck_cause {wb n0 cnt k : Nat} {scales : Bool} {strict : PlySpan → Nat → Bool}
    (h : s.pliedCheck kind wb n0 cnt k scales strict = .error r) : r.cause ≠ .arithFlag := by
  unfold State.pliedCheck at h
  split at h
  · rename_i hq
    cases h
    exact windowNlog_cause hq
  · split at h
    · cases h
      nofun
    · dsimp only at h
      split at h
      · rename_i hq
        cases h
        exact resolvePieces_cause hq
      · split at h
        · rename_i hq
          cases h
          exact sharedPiece_cause hq
        · cases h

theorem readError_cause {c o loc n : Nat} (h : s.readError c o loc n = some r) : r.cause ≠ .arithFlag := by
  unfold State.readError at h
  dsimp only at h
  split at h
  · cases h
  · obtain ⟨i, _, hi⟩ := List.exists_of_findSome?_eq_some h
    split at hi
    · split at hi
      · cases hi
        nofun
      · cases hi
    · obtain ⟨d, _, rfl⟩ := Option.map_eq_some_iff.mp hi
      nofun

theorem pliedError_cause {l : List (PlySpan × Nat × Nat)} (h : s.pliedError l = some r) : r.cause ≠ .arithFlag := by
  obtain ⟨p, _, hp⟩ := List.exists_of_findSome?_eq_some h
  dsimp only at hp
  split at hp
  · cases hp
  · obtain ⟨q, hq, rfl⟩ := Option.map_eq_some_iff.mp hp
    have cause := readError_cause hq
    exact cause

end Causes

/-! ### LDP -/

section Load
variable {s : State} {d base : BitVec 6} {win : BitVec 2} {off : BitVec 4} {plies : BitVec 2} {round : Bool}
  {l : List (PlySpan × Nat × Nat)} {r : Raised}

/-- The checks of LDP. -/
def State.ldpCheck (s : State) (base : BitVec 6) (win : BitVec 2) (off : BitVec 4) (plies : BitVec 2) (round : Bool) :
    Except Raised (List (PlySpan × Nat × Nat)) :=
  s.pliedCheck .read (s.cur.window win.toNat) (s.firstElement base off) 64 (if round then 4 else plies.toNat + 1) false fun _ _ => false

/-- Element `k` that LDP reads, with its flags. -/
def State.ldpElement (s : State) (l : List (PlySpan × Nat × Nat)) (plies : BitVec 2) (round : Bool) (k : Nat) : Nat × Flags :=
  readPlies round (plies.toNat + 1) (plyElement ((List.range (if round then 4 else plies.toNat + 1)).map fun j => s.plyBytes l j) k)

/-- The flags of LDP, those of the active elements. -/
def State.ldpFlags (s : State) (l : List (PlySpan × Nat × Nat)) (plies : BitVec 2) (round : Bool) : Flags :=
  s.elementFlags 16 64 fun k => (s.ldpElement l plies round k).2

/-- The value that LDP loads. -/
def State.ldpValue (s : State) (l : List (PlySpan × Nat × Nat)) (plies : BitVec 2) (round : Bool) : Vec :=
  BitVec.ofNat 1024 (ofLanes 16 ((List.range 64).map fun k => (s.ldpElement l plies round k).1))

theorem element_ldpValue {k : Nat} (hk : k < 64) : element 16 (s.ldpValue l plies round).toNat k =
    BitVec.ofNat 16 (s.ldpElement l plies round k).1 := by
  rw [State.ldpValue, BitVec.toNat_ofNat, Nat.mod_eq_of_lt (by exact ofLanes_range_lt _ 16 64), element_ofLanes_range _ _ hk]

theorem ldpBody_error (hc : s.ldpCheck base win off plies round = .error r) :
    ldpBody d base win off plies round s = s.raise r.cause r.cond r.faddr := by
  unfold State.ldpCheck at hc
  rw [ldpBody, ldpAt]
  dsimp only
  rw [hc]
  rfl

theorem ldpBody_ok (hc : s.ldpCheck base win off plies round = .ok l) : ldpBody d base win off plies round s =
    s.settle (s.ldpFlags l plies round) 160 [Result.variable
      { file := s.vectorFile, reg := d.toNat, ben := BitVec.ofNat 128 (s.ben 1024 16), val := s.ldpValue l plies round
        unit := s.slot.unit, lval := s.ldpValue l plies round, due := s.cur.count + 160 }
      ((l.head?.map fun p => p.1.addr).getD 0) (s.cycle + 96) (s.pliedError l)] := by
  unfold State.ldpCheck at hc
  have flags := laneFlags_eq_elementFlags s (eb := 16) (n := 64) (by decide) (by decide) fun k => (s.ldpElement l plies round k).2
  rw [ldpBody, ldpAt]
  dsimp only
  rw [hc]
  dsimp only
  rw [List.map_map, List.map_map, State.ldpFlags, ← flags]
  rfl

end Load

/-- R302: a failed check, the trap of an enabled flag, and the result of LDP. -/
theorem exec_ldp (g : BitVec 3) (d base : BitVec 6) (win : BitVec 2) (off : BitVec 4) (plies : BitVec 2) (round : Bool) {s : State}
    (h : Normal (.ldp g d base win off plies round) s) (hr : s.Room 1) :
    (∀ r, s.ldpCheck base win off plies round = .error r → exec (.ldp g d base win off plies round) s = .next (s.refused s r)) ∧
    (∀ l, s.ldpCheck base win off plies round = .ok l → s.Enabled (s.ldpFlags l plies round) →
      exec (.ldp g d base win off plies round) s = .next (s.flagTrap s (s.ldpFlags l plies round) 160)) ∧
    (∀ l, s.ldpCheck base win off plies round = .ok l → ¬ s.Enabled (s.ldpFlags l plies round) → ∃ ea : Nat,
      exec (.ldp g d base win off plies round) s = .next (s.withResults [
        (s.resultOf 0 s.vectorFile d.toNat (BitVec.ofNat 128 (s.ben 1024 16)) (s.ldpValue l plies round) (s.ldpValue l plies round) 160
          (s.ldpFlags l plies round)).awaited ea (s.cycle + 96) (s.pliedError l)])) := by
  have ports : portsOf (.ldp g d base win off plies round) s.slot.lend = [] := ports_moulded h nofun nofun nofun nofun
  have e : exec (.ldp g d base win off plies round) s = perform (.ldp g d base win off plies round) s (ldpBody d base win off plies round) :=
    rfl
  refine ⟨fun r hc => ?_, fun l hc hf => ?_, fun l hc hf => ⟨(l.head?.map fun p => p.1.addr).getD 0, ?_⟩⟩
  · exact e.trans (perform_trapped h ports (ldpBody_error hc))
  · rw [e, perform_normal h, popPorts_nil ports, ldpBody_ok hc, settle_trap (rs := [_]) hf hr, undoReads_flags rfl]
  · have body : ldpBody d base win off plies round s = s.withResults [
        (s.resultOf 0 s.vectorFile d.toNat (BitVec.ofNat 128 (s.ben 1024 16)) (s.ldpValue l plies round) (s.ldpValue l plies round) 160
          (s.ldpFlags l plies round)).awaited ((l.head?.map fun p => p.1.addr).getD 0) (s.cycle + 96) (s.pliedError l)] := by
      rw [ldpBody_ok hc, settle_quiet hf, post_one hr]
      refine congrArg (fun r => s.withResults [r]) ?_
      unfold State.resultOf Result.awaited
      cases s.slot.ecc <;> rfl
    exact e.trans ((perform_quiet h ports (by rw [body]; rfl)).trans (by rw [body]))

/-! ### STP -/

theorem foldl_raised {α : Type} {f : State → α → State} (h : ∀ t a, (f t a).slot.raised = t.slot.raised) (l : List α) (s : State) :
    (l.foldl f s).slot.raised = s.slot.raised :=
  List.foldlRecOn (motive := fun t : State => t.slot.raised = s.slot.raised) l f rfl fun t ht a _ => (h t a).trans ht

/-- The caches see the bytes of the pieces written. -/
def State.writePieces (s : State) (c : Nat) (l : List (PlySpan × Nat × Nat)) : State :=
  l.foldl (fun t p => (sectorsOf p.2.1 p.1.len).foldl (fun t a => t.cacheWrite c a) t) s

theorem writePieces_raised (s : State) (c : Nat) (l : List (PlySpan × Nat × Nat)) :
    (s.writePieces c l).slot.raised = s.slot.raised :=
  foldl_raised (fun t _ => foldl_raised (fun t a => cacheWrite_raised t c a) _ t) l s

section Store
variable {s : State} {l : List (PlySpan × Nat × Nat)} {xs : List Nat}

theorem pliedStore_ok (h : s.cur.withinBudget (plyCells l xs (plyStart l)) = true) :
    s.pliedStore l xs = (s.addPending (plyCells l xs (plyStart l)) true).writePieces s.slot.ctx l := if_pos h

theorem pliedStore_overBudget (h : s.cur.withinBudget (plyCells l xs (plyStart l)) = false) :
    s.pliedStore l xs = s.raise .illegalOperand := if_neg (Bool.eq_false_iff.mp h)

variable {d base : BitVec 6} {win : BitVec 2} {off : BitVec 4} {plies : BitVec 2} {r : Raised}

/-- The checks of STP. -/
def State.stpCheck (s : State) (base : BitVec 6) (win : BitVec 2) (off : BitVec 4) (plies : BitVec 2) :
    Except Raised (List (PlySpan × Nat × Nat)) :=
  s.pliedCheck .write (s.cur.window win.toNat) (s.firstElement base off) 64 (plies.toNat + 1) false fun p plys => plys < p.ply

theorem stpBody_error (hc : s.stpCheck base win off plies = .error r) :
    stpBody d base win off plies s = s.raise r.cause r.cond r.faddr := by
  unfold State.stpCheck at hc
  rw [stpBody, hc]
  rfl

theorem stpBody_ok (hc : s.stpCheck base win off plies = .ok l) : stpBody d base win off plies s =
    s.pliedStore l ((List.range 64).map fun k => (element 16 (s.cur.readV d.toNat).toNat k).toNat) := by
  unfold State.stpCheck at hc
  rw [stpBody, hc]
  dsimp only
  rw [lanes_eq_map]

end Store

theorem claims_pliedAccesses : Claims.PliedAccesses := by
  intro g d base win off plies round s l r n n0
  constructor
  · intro i need check y fl h hr
    obtain ⟨refused, trapped, loaded⟩ := exec_ldp g d base win off plies round h hr
    refine ⟨refused r, trapped l, fun hc hf => ?_⟩
    obtain ⟨ea, hexec⟩ := loaded l hc hf
    exact ⟨s.ldpValue l plies round, ea, hexec, fun k hk => element_ldpValue hk⟩
  · intro i check cells h
    have ports : portsOf i s.slot.lend = [] := ports_moulded h nofun nofun nofun nofun
    have e : exec i s = perform i s (stpBody d base win off plies) := rfl
    refine ⟨fun hc => ?_, fun hc hw => ?_, fun hc hw => ?_⟩
    · exact e.trans (perform_trapped h ports (stpBody_error hc))
    · exact e.trans (perform_trapped h ports ((stpBody_ok hc).trans (pliedStore_overBudget hw)))
    · have body := (stpBody_ok (d := d) hc).trans (pliedStore_ok hw)
      exact e.trans ((perform_quiet h ports (by rw [body, writePieces_raised]; rfl)).trans (congrArg _ body))

/-! ### PACC and PDEC -/

/-- The mould over 32 elements, element by element. -/
theorem pliedUpdate_eq (f : Nat → Nat → Nat → Nat × Flags) (scales : List Nat) (x : Nat → Nat) (n : Nat) :
    pliedUpdate f scales ((List.range n).map x) = (List.range n).map fun k =>
      if scales.getD (k / 8) 0 = 0xFF then (x k, flNV) else f k (scales.getD (k / 8) 0) (x k) := by
  apply List.ext_getElem
  · simp [pliedUpdate]
  · intro k hk _
    simp [pliedUpdate]

section Return
variable {s : State}

/-- The flags of an update that are due when its read returns. -/
def State.returnFlags (s : State) (fl : Flags) (x : Ctx) : Ctx :=
  { x with flagsDue := if fl = 0 ∧ x.trapMask = 0 then x.flagsDue else {
    due := x.count + (if x.level = 2 ∧ x.trapMask ≠ 0 then 1 else 160), isVar := true
    at_ := s.cycle + (if x.level = 2 then 160 else 96), seq := x.seq, fslot := s.slot.fslot, baddr := s.slot.baddr
    pos := s.slot.pos, flags := fl } :: x.flagsDue }

theorem flagsOnReturn_eq (s : State) (fl : Flags) : s.flagsOnReturn fl = s.updCur (s.returnFlags fl) := by
  refine congrArg s.updCur (funext fun x => ?_)
  unfold State.returnFlags
  by_cases h : fl = 0 ∧ x.trapMask = 0
  · rw [if_pos h, if_pos (by simpa using h)]
  · rw [if_neg h, if_neg (by simpa using h)]
    simp only [Bool.and_eq_true, decide_eq_true_eq, latLoad]

theorem flagsOnReturn_budget (hb : s.cur.Based) (fl : Flags) (cells : List (Nat × Byte)) :
    (s.flagsOnReturn fl).cur.withinBudget cells = s.cur.withinBudget cells := by
  have based : (s.returnFlags fl s.cur).Based := hb
  have hcur : (s.updCur (s.returnFlags fl)).cur = s.returnFlags fl s.cur :=
    (get_set_of_ne_default based.ne_default ..).trans (if_pos rfl)
  rw [flagsOnReturn_eq, hcur]
  rfl

end Return

section Update
variable {s : State} {base : BitVec 6} {win : BitVec 2} {off : BitVec 4} {f : Nat → Nat → Nat → Nat × Flags}
  {l : List (PlySpan × Nat × Nat)} {r : Raised}

/-- The checks of PACC and PDEC. -/
def State.updateCheck (s : State) (base : BitVec 6) (win : BitVec 2) (off : BitVec 4) : Except Raised (List (PlySpan × Nat × Nat)) :=
  s.pliedCheck .write (s.cur.window win.toNat) (s.firstElement base off) 32 4 true fun _ plys => plys ≠ 3

/-- The scale of the block of element `k`. -/
def State.blockScale (s : State) (l : List (PlySpan × Nat × Nat)) (k : Nat) : Nat :=
  ((s.plyBytes l 4).map BitVec.toNat).getD (k / 8) 0

/-- The 32 elements as they are updated, with their flags. -/
def State.updated (s : State) (l : List (PlySpan × Nat × Nat)) (f : Nat → Nat → Nat → Nat × Flags) : List (Nat × Flags) :=
  (List.range 32).map fun k =>
    if s.blockScale l k = 0xFF then (plyElement ((List.range 4).map fun j => s.plyBytes l j) k, flNV)
    else f k (s.blockScale l k) (plyElement ((List.range 4).map fun j => s.plyBytes l j) k)

/-- The bytes that an update stores. -/
def State.updatedCells (s : State) (l : List (PlySpan × Nat × Nat)) (f : Nat → Nat → Nat → Nat × Flags) : List (Nat × Byte) :=
  plyCells l ((s.updated l f).map Prod.fst) (plyStart l)

theorem updateBody_error (hc : s.updateCheck base win off = .error r) :
    updateBody base win off f s = s.raise r.cause r.cond r.faddr := by
  unfold State.updateCheck at hc
  rw [updateBody, hc]
  rfl

/-- The flags of an update. -/
def State.updateFlags (s : State) (l : List (PlySpan × Nat × Nat)) (f : Nat → Nat → Nat → Nat × Flags) : Flags :=
  orFlags ((s.updated l f).map Prod.snd)

theorem pliedUpdate_updated (s : State) (l : List (PlySpan × Nat × Nat)) (f : Nat → Nat → Nat → Nat × Flags) :
    pliedUpdate f ((s.plyBytes l 4).map BitVec.toNat)
      ((List.range 32).map fun k => plyElement ((List.range 4).map fun j => s.plyBytes l j) k) = s.updated l f := pliedUpdate_eq ..

section Checked
variable (hc : s.updateCheck base win off = .ok l)
include hc

theorem updateBody_overBudget (hw : s.cur.withinBudget (s.updatedCells l f) = false) :
    updateBody base win off f s = s.raise .illegalOperand := by
  unfold State.updateCheck at hc
  rw [updateBody, hc]
  dsimp only
  rw [pliedUpdate_updated]
  exact if_pos (by rw [← State.updatedCells, hw]; rfl)

variable (hw : s.cur.withinBudget (s.updatedCells l f) = true)
include hw

theorem updateBody_dataError (hq : s.pliedError l = some r) : updateBody base win off f s = s.raise r.cause r.cond r.faddr := by
  unfold State.updateCheck at hc
  rw [updateBody, hc]
  dsimp only
  rw [pliedUpdate_updated, hq]
  exact if_neg (by rw [← State.updatedCells, hw]; decide)

theorem updateBody_sound (hq : s.pliedError l = none) : updateBody base win off f s =
    if s.updateFlags l f &&& s.cur.trapMask = 0 then
      (s.flagsOnReturn (s.updateFlags l f)).pliedStore l ((s.updated l f).map Prod.fst)
    else s.raiseEnabled (s.updateFlags l f) s.cur.trapMask 160 := by
  unfold State.updateCheck at hc
  rw [updateBody, hc]
  dsimp only
  rw [pliedUpdate_updated, hq]
  exact if_neg (by rw [← State.updatedCells, hw]; decide)

theorem updateBody_trap (hq : s.pliedError l = none) (hf : s.Enabled (s.updateFlags l f)) :
    updateBody base win off f s = s.raiseEnabled (s.updateFlags l f) s.cur.trapMask 160 :=
  (updateBody_sound hc hw hq).trans (if_neg hf)

/-- Flags of which none traps wait for the return of the read; the context has something to name its base with, so that it is
found again. -/
theorem updateBody_store (hb : s.cur.Based) (hq : s.pliedError l = none) (hf : ¬ s.Enabled (s.updateFlags l f)) :
    updateBody base win off f s =
      ((s.flagsOnReturn (s.updateFlags l f)).addPending (s.updatedCells l f) true).writePieces s.slot.ctx l := by
  refine (updateBody_sound hc hw hq).trans ((if_pos (Decidable.not_not.mp hf)).trans (pliedStore_ok ?_))
  rw [flagsOnReturn_budget hb]
  exact hw

/-- A sound update meets no cause but its flags. -/
theorem updateBody_causes (hb : s.cur.Based) (hq : s.pliedError l = none) : (updateBody base win off f s).causesSince s = [] := by
  by_cases hf : s.Enabled (s.updateFlags l f)
  · rw [updateBody_trap hc hw hq hf]
    exact causesSince_raiseEnabled ..
  · rw [updateBody_store hc hw hb hq hf]
    exact causesSince_same (writePieces_raised ..)

end Checked

end Update

theorem claims_pliedUpdates : Claims.PliedUpdates := by
  intro g d base win off sr s l r run
  have updates : ∀ (i : Instr) (port : Bool) (f : State → Nat → RMode → Nat → Nat → Nat × Flags),
      (Normal i s → (s.popPorts i).cur.Based) →
      Acts i port (fun t => updateBody base win off fun k sc x => f t k (t.updateMode sr k) sc x) s → run i port f := by
    intro i port f based e h
    have hb := based h
    obtain ⟨t, ht⟩ : ∃ t, s.popPorts i = t := ⟨_, rfl⟩
    rw [ht] at hb ⊢
    refine ⟨fun hc => ?_, fun hc hw => ?_, fun hc hw hq => ?_, fun ⟨hc, hw, hq⟩ hbad => ?_, fun ⟨hc, hw, hq⟩ hbad hf => ?_,
      fun ⟨hc, hw, hq⟩ hbad hf => ?_⟩
    · exact acts_trapped h e ht (fun _ => pliedCheck_cause hc) (updateBody_error hc)
    · exact acts_trapped h e ht nofun (updateBody_overBudget hc hw)
    · exact acts_trapped h e ht (fun _ => pliedError_cause hq) (updateBody_dataError hc hw hq)
    · exact acts_portError h e ht hbad (updateBody_causes hc hw hb hq)
    · refine (acts_effect h e ht hbad).trans (congrArg _ ((congrArg (undoReads s) (updateBody_trap hc hw hq hf)).trans ?_))
      exact undoReads_flags (ht ▸ popPorts_raised i s) ..
    · refine acts_done h e ht hbad ((updateBody_store hc hw hb hq hf).trans ?_) (writePieces_raised ..)
      rw [flagsOnReturn_eq]
      rfl
  constructor
  · refine updates (.pacc g d base win off sr) true
      (fun t k mode sc x => paccElement mode sc x (element 32 (t.vb d.toNat) k).toNat)
      (fun h => based_popPorts (based_of_normal (n := base.toNat) h nofun rfl rfl)) ?_
    unfold Acts
    simp only [← lane_eq_element]
    rfl
  · exact updates (.pdec g d base win off sr) false
      (fun t _ mode sc x => pdecElement mode sc x ((t.cur.readE d.toNat).toNat % 2 ^ 32))
      (fun h => based_popPorts (based_of_normal (n := base.toNat) h nofun rfl rfl)) rfl

end Sys2Proof.Machine

open Sys2Proof Sys2Proof.Machine

/-- Settles O13: LDP and STP settle as they stand; for PACC and PDEC the bodies are taken case by case, and the context that has put
its flags aside is found again because it has something to name its base with (`based_of_normal`). -/
theorem pliedSyllables : Obligations.PliedSyllables := ⟨claims_pliedAccesses, claims_pliedUpdates⟩

end
